-- ==== Sys2Proof/Word.lean ====
section
/-! DEFINITION. The plainest value types of the Solsor 7400: bytes, words and register contents (R283). -/

namespace Sys2Proof

/-- A byte of any memory. -/
abbrev Byte := BitVec 8

/-- A 64-bit scalar register, counter, code offset or record word (R283). -/
abbrev Word := BitVec 64

/-- A vector register, 2,048 bits (R283). -/
abbrev VReg := BitVec 2048

/-- A predicate register, 256 bits (R283). -/
abbrev PReg := BitVec 256

/-- A shape record as a shape register holds it, 256 bits (R128). -/
abbrev Shape := BitVec 256

end Sys2Proof
end

