-- ==== Sys2Proof/Machine/Bits.lean ====
section
/-! DEFINITION. Bit fields, sign extension and byte order (R3). A record is cut into fields by the list of its widths,
lowest bits first. -/

namespace Sys2Proof

/-- Cuts the low bits of `n` into fields of the given widths, lowest first (R3). -/
def split : List Nat → Nat → List Nat
  | [], _ => []
  | w :: ws, n => n % 2 ^ w :: split ws (n / 2 ^ w)

/-- Lays fields of the given widths side by side, lowest first. -/
def pack : List Nat → List Nat → Nat
  | w :: ws, x :: xs => x % 2 ^ w + 2 ^ w * pack ws xs
  | _, _ => 0

/-- Bits [lo + len − 1 : lo] of `n` (R3). -/
def field (n lo len : Nat) : Nat := n / 2 ^ lo % 2 ^ len

/-- `n` with bits [lo + len − 1 : lo] replaced by the low bits of `v`. -/
def setField (n lo len v : Nat) : Nat := n - field n lo len * 2 ^ lo + v % 2 ^ len * 2 ^ lo

/-- Bit `i` of `n`. -/
def bit (n i : Nat) : Bool := n / 2 ^ i % 2 == 1

end Sys2Proof

/-- 1 for true and 0 for false. -/
def Bool.nat (b : Bool) : Nat := if b then 1 else 0

namespace Sys2Proof

/-- The signed value of the low `w` bits of `n`. -/
def toSigned (w n : Nat) : Int :=
  let m := n % 2 ^ w
  if m < 2 ^ (w - 1) then m else (m : Int) - 2 ^ w

/-- The low `w` bits of an integer, in two's complement (R9, R105). -/
def wrapNat (w : Nat) (z : Int) : Nat := (z % (2 ^ w : Nat)).toNat

/-- A 64-bit word that holds the low 64 bits of an integer. -/
def wordOfInt (z : Int) : Word := BitVec.ofNat 64 (wrapNat 64 z)

/-- A 32-bit field sign-extended to 64 bits (R278, R279). -/
def sext32 (x : BitVec 32) : Word := x.signExtend 64

/-- The `n` bytes of a number, lowest first (R3). -/
def bytesOf : Nat → Nat → List Byte
  | 0, _ => []
  | k + 1, v => BitVec.ofNat 8 v :: bytesOf k (v / 256)

/-- The number whose bytes, lowest first, are given (R3). -/
def ofBytes : List Byte → Nat
  | [] => 0
  | b :: bs => b.toNat + 256 * ofBytes bs

/-- Replaces element `i` of a list by `f` of it. -/
def modifyNth {α : Type} (f : α → α) : Nat → List α → List α
  | _, [] => []
  | 0, x :: xs => f x :: xs
  | i + 1, x :: xs => x :: modifyNth f i xs

/-- The numbers of a half-open interval. -/
def interval (lo n : Nat) : List Nat := (List.range n).map (lo + ·)

/-- A list keyed by numbers, with rising keys: the value at a key. -/
def lookup {α : Type} (k : Nat) : List (Nat × α) → Option α
  | [] => none
  | (j, x) :: r => if j = k then some x else lookup k r

/-- Puts a value at a key of a list with rising keys. -/
def insertAt {α : Type} (k : Nat) (x : α) : List (Nat × α) → List (Nat × α)
  | [] => [(k, x)]
  | (j, y) :: r => if j < k then (j, y) :: insertAt k x r else if j = k then (k, x) :: r else (k, x) :: (j, y) :: r

/-- Removes a key. -/
def eraseAt {α : Type} (k : Nat) (l : List (Nat × α)) : List (Nat × α) := l.filter (·.1 != k)

end Sys2Proof
end

