-- ==== Sys2Proof/Syntax.lean ====
section
/-! DEFINITION. The instructions of Caolmo (R275 to R290) and the steps of the device's engines, as the rows of
spec/opcode_table.json list them: one constructor of `Instr` for each row. An instruction row carries the fields of its
encoding; a step row carries what tells one such step from another, and the data of a message or act from outside. -/

namespace Sys2Proof

/-- Element formats and their codes (R104). Code 15 is reserved and has no constructor. -/
inductive Fmt where
  | i8 | n8 | i16 | n16 | i32 | n32 | i64 | n64
  | f32 | bf16 | f16 | e4m3 | e5m2 | c4 | rns
  deriving DecidableEq, Repr, Inhabited

/-- A scalar operand type: an element format, or f64, which has no code (R105). -/
inductive SType where
  | el (f : Fmt)
  | f64
  deriving DecidableEq, Repr

/-- Conditions of FCMP and VCMP (R277). -/
inductive Cond where
  | eq | ne | lt | le | gt | ge | un | ord
  deriving DecidableEq, Repr

/-- Combining operations of AMO, RED, CPYA, VRED and Virga, in their code order (R142, R214, R288, R289). -/
inductive ROp where
  | add | min | max | and | or | xor | swap
  deriving DecidableEq, Repr

/-- Barrier reduction operations, in their code order (R90). -/
inductive BOp where
  | none | addI64 | minI64 | maxI64 | minN64 | maxN64 | and | or | xor | addF32
  deriving DecidableEq, Repr

/-- The scopes that have a superstep counter, numbered 1 to 5 (R2). -/
inductive Scope where
  | tile | grp | die | pkg | pod
  deriving DecidableEq, Repr

/-- Fields of a shape record that MSET names, in their code order (R344). -/
inductive MField where
  | space | fmt | unf | ilv | vt | hnd | ofs | e0 | e1 | e2 | e3 | s0 | s1 | s2 | s3
  deriving DecidableEq, Repr

/-- System registers (R294). -/
inductive SysReg where
  | teamid | asid | vtile | ptile | strand | cycle | podtime | ptstat
  | stepc (l : Scope) | loadg | fstat | imbal (i : Fin 8) | qdoor | replay
  | acct (i : Fin 21) | acctsat
  | dbgctl | dbgstat | haltgrp | hgrun | hgcfg | wp (i : Fin 4) | pcmt (i : Fin 16) | pcmh | trctl | trpos | snapgo
  | htinv | qdbase | qdlen | vacate | dtbase | dlbase | acolor | quiesce
  | qctl | portw | cxlwin (i : Fin 4) | qstat (i : Fin 64) | qpeer (i : Fin 64)
  | errc (i : Fin 11) | snapreq | fsnap | pwrcap
  deriving DecidableEq, Repr

/-- Scalar register number. -/
abbrev SReg := Fin 64
/-- Vector register number. -/
abbrev VNum := Fin 32
/-- Predicate or shape register number. -/
abbrev PNum := Fin 16
/-- Accumulator number. -/
abbrev ANum := Fin 8

/-- R form of the scalar integer instructions (R302). -/
structure IntR where
  e : Bool
  ty : Fmt
  b : SReg
  a : SReg
  d : SReg
  deriving DecidableEq, Repr

/-- I form of the scalar integer instructions (R302). -/
structure IntI where
  e : Bool
  ty : Fmt
  imm : BitVec 32
  a : SReg
  d : SReg
  deriving DecidableEq, Repr

/-- R form with one source (CLZ, POPC; R321, R349). -/
structure IntU where
  e : Bool
  ty : Fmt
  a : SReg
  d : SReg
  deriving DecidableEq, Repr

/-- CSEL (R324). -/
structure SelR where
  e : Bool
  c : SReg
  b : SReg
  a : SReg
  d : SReg
  deriving DecidableEq, Repr

/-- Scalar float instructions of two sources (R328, R329). -/
structure FloatR where
  e : Bool
  wd : Bool
  b : SReg
  a : SReg
  d : SReg
  deriving DecidableEq, Repr

/-- FFMA (R334). -/
structure FmaR where
  e : Bool
  wd : Bool
  c : SReg
  b : SReg
  a : SReg
  d : SReg
  deriving DecidableEq, Repr

/-- FCMP (R330). -/
structure FcmpR where
  e : Bool
  wd : Bool
  cc : Cond
  b : SReg
  a : SReg
  d : SReg
  deriving DecidableEq, Repr

/-- FCVT (R331). -/
structure FcvtR where
  e : Bool
  dst : SType
  src : SType
  a : SReg
  d : SReg
  deriving DecidableEq, Repr

/-- Conditional branches (R316). -/
structure BrB where
  e : Bool
  x : BitVec 32
  b : SReg
  a : SReg
  deriving DecidableEq, Repr

/-- JAL (R336). -/
structure JalB where
  e : Bool
  x : BitVec 32
  d : SReg
  deriving DecidableEq, Repr

/-- JALR (R337). -/
structure JalrI where
  e : Bool
  imm : BitVec 32
  a : SReg
  d : SReg
  deriving DecidableEq, Repr

/-- MLD and MST (R342). -/
structure ShapeI where
  e : Bool
  imm : BitVec 32
  a : SReg
  d : PNum
  deriving DecidableEq, Repr

/-- MSET (R344). -/
structure MsetI where
  e : Bool
  field : MField
  imm : BitVec 32
  a : SReg
  d : PNum
  deriving DecidableEq, Repr

/-- PAND, POR, PXOR (R348). -/
structure PredR where
  e : Bool
  b : PNum
  a : PNum
  d : PNum
  deriving DecidableEq, Repr

/-- PNOT (R348). -/
structure PredU where
  e : Bool
  a : PNum
  d : PNum
  deriving DecidableEq, Repr

/-- PSET (R350). -/
structure PsetR where
  e : Bool
  ty : Fmt
  a : SReg
  d : PNum
  deriving DecidableEq, Repr

/-- The predicate of a vector instruction: register, inversion and zeroing (R280). -/
structure VPred where
  p : PNum
  pn : Bool
  zm : Bool
  deriving DecidableEq, Repr

/-- Vector instructions of one vector source (R365). -/
structure VecU where
  e : Bool
  ty : Fmt
  q : VPred
  a : VNum
  d : VNum
  deriving DecidableEq, Repr

/-- Vector instructions of two vector sources (R365). -/
structure VecR where
  e : Bool
  ty : Fmt
  q : VPred
  b : VNum
  a : VNum
  d : VNum
  deriving DecidableEq, Repr

/-- VFMA (R378). -/
structure VecF where
  e : Bool
  ty : Fmt
  q : VPred
  c : VNum
  b : VNum
  a : VNum
  d : VNum
  deriving DecidableEq, Repr

/-- VCMP (R374). -/
structure VcmpV where
  e : Bool
  ty : Fmt
  cc : Cond
  q : VPred
  b : VNum
  a : VNum
  d : PNum
  deriving DecidableEq, Repr

/-- VCVT (R375). -/
structure VcvtV where
  e : Bool
  dst : Fmt
  src : Fmt
  part : Fin 16
  q : VPred
  a : VNum
  d : VNum
  deriving DecidableEq, Repr

/-- VBCAST (R373). -/
structure VbcV where
  e : Bool
  ty : Fmt
  q : VPred
  a : SReg
  d : VNum
  deriving DecidableEq, Repr

/-- VIDX (R373). -/
structure VidxV where
  e : Bool
  ty : Fmt
  q : VPred
  d : VNum
  deriving DecidableEq, Repr

/-- VEXT (R377). -/
structure VextV where
  e : Bool
  ty : Fmt
  b : SReg
  a : VNum
  d : SReg
  deriving DecidableEq, Repr

/-- VRED (R384). -/
structure VredV where
  e : Bool
  ty : Fmt
  op : ROp
  q : VPred
  a : VNum
  d : SReg
  deriving DecidableEq, Repr

/-- VLD and VST (R381). -/
structure VmemV where
  e : Bool
  ty : Fmt
  imm : BitVec 20
  q : VPred
  a : SReg
  d : VNum
  deriving DecidableEq, Repr

/-- VGATH and VSCAT (R379). -/
structure VgsV where
  e : Bool
  ty : Fmt
  imm : BitVec 20
  q : VPred
  b : VNum
  a : SReg
  d : VNum
  deriving DecidableEq, Repr

/-- MMA (R133). -/
structure MmaM where
  e : Bool
  fmt : Fmt
  ad : Bool
  nb : Bool
  na : Bool
  row0 : BitVec 12
  kst : BitVec 12
  b : PNum
  a : PNum
  d : ANum
  deriving DecidableEq, Repr

/-- ALD (R304). -/
structure AldM where
  e : Bool
  fmt : Fmt
  a : PNum
  d : ANum
  deriving DecidableEq, Repr

/-- AST (R312). -/
structure AstM where
  e : Bool
  a : ANum
  d : PNum
  deriving DecidableEq, Repr

/-- AZERO (R314). -/
structure AzeroM where
  e : Bool
  fmt : Fmt
  d : ANum
  deriving DecidableEq, Repr

/-- ASCALE (R310). -/
structure AscaleM where
  e : Bool
  fmt : Fmt
  sc : VNum
  b : VNum
  a : ANum
  d : ANum
  deriving DecidableEq, Repr

/-- CBLD (R141). `d` is 0 for CBA and 1 for CBB. -/
structure CbldC where
  e : Bool
  x : BitVec 32
  a : SReg
  d : Fin 2
  deriving DecidableEq, Repr

/-- CPY (R142). -/
structure CpyC where
  e : Bool
  amt : BitVec 32
  b : SReg
  a : PNum
  d : PNum
  deriving DecidableEq, Repr

/-- CPYA (R142). -/
structure CpyaC where
  e : Bool
  op : ROp
  amt : BitVec 28
  b : SReg
  a : PNum
  d : PNum
  deriving DecidableEq, Repr

/-- AMO (R306). -/
structure AmoC where
  e : Bool
  ty : Fmt
  op : ROp
  b : SReg
  a : PNum
  d : SReg
  deriving DecidableEq, Repr

/-- RED (R351). `b` names a scalar register, or a vector register when `vec`. -/
structure RedC where
  e : Bool
  ty : Fmt
  op : ROp
  vec : Bool
  wd : Bool
  b : SReg
  d : PNum
  deriving DecidableEq, Repr

/-- FENCE (R82). -/
structure FenceC where
  scope : Scope
  d : SReg
  deriving DecidableEq, Repr

/-- CTRADD (R98). -/
structure CtrC where
  e : Bool
  x : BitVec 32
  b : SReg
  a : SReg
  deriving DecidableEq, Repr

/-- WAITGE (R98). -/
structure WaitC where
  e : Bool
  x : BitVec 32
  b : SReg
  a : SReg
  d : SReg
  deriving DecidableEq, Repr

/-- BAR (R89). -/
structure BarS where
  e : Bool
  ds : SReg
  cnt : Fin 16
  rop : BOp
  scope : Scope
  b : SReg
  a : SReg
  d : SReg
  deriving DecidableEq, Repr

/-- BARA (R89). -/
structure BaraS where
  e : Bool
  cnt : Fin 16
  rop : BOp
  scope : Scope
  b : SReg
  a : SReg
  d : SReg
  deriving DecidableEq, Repr

/-- BARW (R89). -/
structure BarwS where
  e : Bool
  ds : SReg
  scope : Scope
  a : SReg
  d : SReg
  deriving DecidableEq, Repr

/-- SPAWN (R39). -/
structure SpawnS where
  e : Bool
  x : BitVec 32
  a : SReg
  d : SReg
  deriving DecidableEq, Repr

/-- JOIN (R39). -/
structure JoinS where
  e : Bool
  x : BitVec 32
  a : SReg
  deriving DecidableEq, Repr

/-- SUSP (R39). -/
structure SuspS where
  e : Bool
  x : BitVec 32
  b : SReg
  a : SReg
  deriving DecidableEq, Repr

/-- CANCEL and COLL.STAT: a destination and a source scalar (R39, R217). -/
structure DaS where
  e : Bool
  a : SReg
  d : SReg
  deriving DecidableEq, Repr

/-- COLL.LD and COLL.RUN (R217). -/
structure CollC where
  e : Bool
  x : BitVec 32
  b : SReg
  a : SReg
  d : SReg
  deriving DecidableEq, Repr

/-- SYSRD (R362). -/
structure SysrdY where
  e : Bool
  srn : SysReg
  d : SReg
  deriving DecidableEq, Repr

/-- SYSWR (R362). -/
structure SyswrY where
  e : Bool
  srn : SysReg
  a : SReg
  deriving DecidableEq, Repr

/-- RESUME (R175). -/
structure ResumeY where
  e : Bool
  skip : Bool
  drop : Bool
  a : SReg
  d : SReg
  deriving DecidableEq, Repr

/-! ### Data that steps carry -/

/-- The target queue of a continuation record (R45): a vtile's, a virtual group's or the package's. -/
inductive QTarget where
  | vt (lrank : Nat)
  | grp (g : Nat)
  | pkg
  deriving DecidableEq, Repr

/-- What one other member package tells of a superstep of a pod barrier (R90, R94, R95): what its arrivals amount to, its
requests for this package's memory in the exchange of the superstep once it has sent them, and what its own exchange came to
once that has run. -/
structure PodPart where
  pkg : Nat
  step : Nat
  /-- The reduction operation that its arrivals state, if any does. -/
  rop : Option BOp
  value : Option Word
  code : BitVec 16
  forced : Nat
  narr : Nat
  early : Nat
  late : Nat
  lastv : Nat
  sumArr : Nat
  /-- The tags of its deferred writes and REDs for this package. -/
  sent : Option (List Nat)
  /-- Its exchange has run, with as many bytes written in its own memory; `code` then tells of what failed there (R81). -/
  done : Bool
  xbytes : Nat
  deriving DecidableEq, Repr

/-- What a peer's space-5 operation asks of this package's HBM (R63, R198). A deferred write or RED belongs to a pod
superstep and carries its issuer's canonical rank and issue order (R75, R77). A write has cells, each an offset with the mask
and value of a byte, and whether they come from a poisoned source; a RED has elements, each an offset with a value. A read names
the pod superstep and the pod time whose committed state it returns (R73). -/
inductive RemoteKind where
  | read (step time n : Nat)
  | amo (op : ROp) (ty : Fmt) (v : Word)
  | write (step rank ord : Nat) (cells : List (Nat × BitVec 8 × BitVec 8)) (poisoned : Bool)
  | combine (step rank ord : Nat) (op : ROp) (ty : Fmt) (elems : List (Nat × Nat)) (poisoned : Bool)
  | red (step rank ord : Nat) (op : ROp) (ty : Fmt) (wd : Bool) (elems : List (Nat × Nat))
  deriving DecidableEq, Repr

/-- A space-5 operation that arrives from a peer: its tag, the team, the handle and the byte offset (R63). -/
structure RemoteReq where
  src : Nat
  quad : Nat
  /-- The traffic class it came in on (R238). -/
  cls : Nat
  tag : Nat
  team : Nat
  hnd : BitVec 32
  ofs : Nat
  kind : RemoteKind
  deriving DecidableEq, Repr

/-- How a peer answers a space-5 operation of this package (R63, R199, R203). -/
inductive RemoteAns where
  | data (bytes : List (Byte × Bool))
  | done
  | mixed
  | refused
  | dead
  | retired
  deriving DecidableEq, Repr

/-- What a Virga chunk between packages holds (R225 to R234). -/
inductive ChunkKind where
  | send | partVal | result | tokens | segment
  deriving DecidableEq, Repr

/-- What one shard sends another for a node, as one message (R225 to R234; log 28). `far` says that the sender stands in another
pod: `team` is then the job key and `src` the sender's place in the receiver's endpoint table, and else TEAMID and package
coordinate. `run` counts the runs of GTAG, `shard` is the sender's index in the group, `node` its opcode, `sig` its length,
format and operation, and `elems` holds values with their poison. -/
structure Chunk where
  far : Bool
  team : Nat
  src : Nat
  gtag : Nat
  run : Nat
  tag : Nat
  shard : Nat
  node : Nat
  kind : ChunkKind
  sig : Nat
  elems : List (Nat × Bool)
  deriving DecidableEq, Repr

/-- A chunk that has come over a quad (R225). -/
structure ChunkIn where
  quad : Nat
  chunk : Chunk
  deriving DecidableEq, Repr

/-- What a UALink quad has seen of its lanes: whether it has lost one, and the most corrected errors of a lane (R204). -/
structure LaneErrors where
  quad : Nat
  lost : Bool
  errors : Nat
  deriving DecidableEq, Repr

/-- A pod time beacon: the root's time when it was sent, which tells beacons apart, and the time with the delays so far (R209). -/
structure Beacon where
  origin : Word
  time : Word
  deriving DecidableEq, Repr

/-- A write to HGRUN: its groups, and whether another package of the pod made it (R248). -/
structure GroupRun where
  peer : Bool
  mask : BitVec 32
  deriving DecidableEq, Repr

/-- How a boot goes: the step that fails, if any (R272), and the pod time that is acquired, if any (R209). -/
structure PowerUp where
  failed : Option Nat
  time : Option Word
  deriving DecidableEq, Repr

/-- A report about a node of a peer: mismatch (R225) or failure (R236), with the sender as a chunk names it. -/
structure VirgaReport where
  far : Bool
  team : Nat
  src : Nat
  gtag : Nat
  run : Nat
  tag : Nat
  shard : Nat
  deriving DecidableEq, Repr

/-- An entry that MAP writes from the peer's view (R199, R202): a UALink route, a UEC endpoint or a CXL window. -/
inductive MapEntry where
  | route (acc : Nat) (mask : BitVec 64)
  | uec (index : Nat) (ip endpoint : Nat) (port : Nat) (key : Nat)
  | window (i : Fin 4) (v : Word)
  deriving DecidableEq, Repr

/-- An access through Lycel's management endpoint (R241, R259, R266, R272). -/
inductive Mgmt where
  | readReg (tile slot : Nat) (r : SysReg)
  | writeReg (tile slot : Nat) (r : SysReg) (v : Word)
  | readPc (tile slot : Nat)
  | writePc (tile slot : Nat) (pc : Word)
  | readStore (tile : Nat) (ofs n : Nat)
  | writeStore (tile : Nat) (ofs : Nat) (bytes : List Byte)
  | readImage (team lrank ofs n : Nat)
  | writeImage (team lrank ofs : Nat) (bytes : List Byte)
  | readScalar (tile slot : Nat) (r : SReg)
  | writeScalar (tile slot : Nat) (r : SReg) (v : Word) (full : Bool)
  | readVector (tile slot : Nat) (r : VNum)
  | writeVector (tile slot : Nat) (r : VNum) (v : VReg) (full : Bool)
  | readPred (tile slot : Nat) (r : PNum)
  | writePred (tile slot : Nat) (r : PNum) (v : PReg)
  | readShape (tile slot : Nat) (r : PNum)
  | writeShape (tile slot : Nat) (r : PNum) (v : Shape)
  | readMap (team lrank : Nat)
  | writeMap (team lrank : Nat) (v : BitVec 16)
  | readBank (item : Nat)
  | readBoot
  | readCertificate
  deriving DecidableEq, Repr

/-- Errors of a memory (R67): a single bit that was corrected, an uncorrectable error, or poisoned data that came over CXL. -/
inductive MemErr where
  | corrected | uncorrectable | cxl
  deriving DecidableEq, Repr

/-- How the saving or the restoring of a vtile ends (R177, R185): done, or an uncorrectable error in its image or in its
log. -/
inductive MoveEnd where
  | done | imageError | logError
  deriving DecidableEq, Repr

/-- The instructions and the steps of the device, one constructor for each row of spec/opcode_table.json. -/
inductive Instr where
  -- scalar integer (R287)
  | addR (f : IntR) | addI (f : IntI) | sub (f : IntR) | mulR (f : IntR) | mulI (f : IntI) | mulh (f : IntR)
  | div (f : IntR) | rem (f : IntR) | andR (f : IntR) | andI (f : IntI) | orR (f : IntR) | orI (f : IntI)
  | xorR (f : IntR) | xorI (f : IntI) | shlR (f : IntR) | shlI (f : IntI) | shrR (f : IntR) | shrI (f : IntI)
  | sraR (f : IntR) | sraI (f : IntI) | sltR (f : IntR) | sltI (f : IntI) | minR (f : IntR) | minI (f : IntI)
  | maxR (f : IntR) | maxI (f : IntI) | clz (f : IntU) | popc (f : IntU) | csel (f : SelR) | li (f : IntI)
  -- scalar float (R328)
  | fadd (f : FloatR) | fsub (f : FloatR) | fmul (f : FloatR) | ffma (f : FmaR) | fmin (f : FloatR) | fmax (f : FloatR)
  | fcmp (f : FcmpR) | fcvt (f : FcvtR)
  -- control (R316, R336, R337)
  | beq (f : BrB) | bne (f : BrB) | blt (f : BrB) | bge (f : BrB) | bltn (f : BrB) | bgen (f : BrB)
  | jal (f : JalB) | jalr (f : JalrI)
  -- loads, stores and shapes (R339, R342, R344, R359)
  | ld (f : IntI) | st (f : IntI) | mld (f : ShapeI) | mst (f : ShapeI) | mset (f : MsetI)
  -- predicates (R348, R350)
  | pand (f : PredR) | por (f : PredR) | pxor (f : PredR) | pnot (f : PredU) | pset (f : PsetR)
  -- vectors (R365)
  | vabs (f : VecU) | vneg (f : VecU) | vadd (f : VecR) | vsub (f : VecR) | vmul (f : VecR) | vmin (f : VecR)
  | vmax (f : VecR) | vand (f : VecR) | vor (f : VecR) | vxor (f : VecR) | vnot (f : VecU) | vshl (f : VecR)
  | vshr (f : VecR) | vsra (f : VecR) | vattm (f : VecR) | vbcast (f : VbcV) | vidx (f : VidxV) | vcmp (f : VcmpV)
  | vcvt (f : VcvtV) | vexp2 (f : VecU) | vext (f : VextV) | vfma (f : VecF) | vgath (f : VgsV) | vscat (f : VgsV)
  | vld (f : VmemV) | vst (f : VmemV) | vlog2 (f : VecU) | vrcp (f : VecU) | vrsq (f : VecU) | vperm (f : VecR)
  | vred (f : VredV) | vsel (f : VecR)
  -- matrix (R289)
  | mma (f : MmaM) | ald (f : AldM) | ast (f : AstM) | azero (f : AzeroM) | ascale (f : AscaleM) | cbld (f : CbldC)
  -- copy and asynchronous (R289)
  | cpy (f : CpyC) | cpya (f : CpyaC) | amo (f : AmoC) | red (f : RedC) | fence (f : FenceC) | ctradd (f : CtrC)
  | waitge (f : WaitC)
  -- synchronisation and continuation (R290)
  | bar (f : BarS) | bara (f : BaraS) | barw (f : BarwS) | spawn (f : SpawnS) | join (f : JoinS) | susp (f : SuspS)
  | exit | cancel (f : DaS)
  -- collective (R217)
  | collLd (f : CollC) | collRun (f : CollC) | collStat (f : DaS)
  -- system (R290)
  | nop | sysrd (f : SysrdY) | syswr (f : SyswrY) | resume (f : ResumeY) | trap (imm : BitVec 16) | bkpt (imm : BitVec 16)
  | halt
  -- steps: continuations (R42, R47 to R50, R162)
  | releasedRecordEnqueue (team : Nat) (q : QTarget) | continuationDispatch (tile slot : Nat) | pushMigration (tile : Nat)
  | loadgRefresh (tile : Nat) | parkOnWait (tile : Nat)
  -- steps: barriers (R80, R93, R94)
  | barrierExchange (team : Nat) (scope : Scope) (unit : Nat) (peers : List PodPart)
  | barrierCompletion (team : Nat) (scope : Scope) (unit : Nat) | peerUnreachable (team pkg : Nat)
  -- steps: Sprue, homes, peers (R63, R66, R76, R83, R97, R186, R307)
  | copyChunk (copy : Nat) | landing (id : Nat) | counterIncrement (id : Nat) | amoPerform (id : Nat) | amoFill (id : Nat)
  | redAccept (id : Nat) | remoteRequest (r : RemoteReq) | remoteResponse (tag : Nat) (a : RemoteAns)
  -- steps: matrix unit (R140, R301)
  | matrixQueueStart (tile : Nat) | mmaKBlock (tile : Nat) | mmaComplete (tile : Nat) | aldComplete (tile : Nat)
  | ascaleComplete (tile : Nat)
  -- steps: Virga (R218 to R237)
  | graphLoadComplete (g : Nat) | runStart (g run : Nat) | virgaNodeStart (g run node : Nat)
  | virgaNodeComplete (g run node : Nat) | virgaChunkReceive (c : ChunkIn) | virgaMismatchReport (r : VirgaReport)
  | virgaPeerFailure (r : VirgaReport)
  -- steps: launch (R152 to R161, R55)
  | qdoor (team : Nat) (v : Word) | hostDoorbellWrite (ofs : Nat) (v : Option (BitVec 32))
  | hostHbmAccess (addr n : Nat) (data : Option (List Byte)) | queueSlotMap | descriptorLoad (slot : Nat)
  | quantumExpiry (slot : Nat) | launchPacket | tileGrant | gangDeadline (slot : Nat) | gangReady (gang pkg : Nat) (uid : Word)
  | gangAbort (gang : Nat) | gangTick (gang : Nat) | teamCompletion (team : Nat)
  -- steps: diversion (R179 to R192)
  | vacate (v : Word) | restore (v : Word) | enableRotation (v : Word) | disableRotation (v : Word)
  | vacateCut (team lrank : Nat) | saveComplete (team lrank : Nat) (how : MoveEnd) | restoreStart (team lrank : Nat)
  | restoreComplete (team lrank : Nat) (how : MoveEnd) | rotation (team : Nat) (scope : Scope) (unit : Nat)
  -- steps: containment and handles (R64 to R67, R177, R178)
  | uncorrectableTileError (tile : Nat) | tileResponseTimeout (tile : Nat) | uncorrectableGroupError (grp : Nat)
  | memoryUncorrectableError (key : Nat) (e : MemErr) | groupReset (grp : Nat) | htinv (asid slot : Nat) | htinvAll (asid : Nat)
  -- steps: quiesce (R195)
  | quiesceStart (v : Word) | quiesceDrainComplete | quiesceTimeout | quiesceRelease
  -- steps: links (R202 to R210)
  | personalitySwitch (v : Word) | drainComplete (quad : Nat) | drainTimeout (quad : Nat) | reconfigureDone (quad : Nat)
  | trainingDone (quad : Nat) (ok : Bool) (good : BitVec 8) (rate : BitVec 4) | agreementRecord (quad : Nat) (r : BitVec 128)
  | mapDone (quad : Nat) (entries : List MapEntry) | retire (quad : Nat)
  | retrain (x : LaneErrors)
  | podTimeBeacon (quad : Nat) (b : Beacon) | beaconSend | linkDelayMeasure (quad : Nat) (ns : Nat) | beaconLoss
  | flowControlTotalsSend (link cls : Nat) | flowControlTotals (link cls : Nat) (sent freed : BitVec 32)
  | flitCrcError (link : Nat)
  -- steps: debug (R244 to R259)
  | hreq (tile : Nat) | run (tile : Nat) | step (tile slot : Nat) | stepComplete (tile : Nat) | haltComplete (tile : Nat)
  | haltGroupTrigger (tile group : Nat) | hgrun (x : GroupRun) | snapgo | pcMatch (tile slot : Nat)
  | traceTimeRecord (tile : Nat)
  -- steps: Lycel and register writes (R111, R241, R260, R264 to R274, R363)
  | counterSnapshot | compositionRecord | fstatClear (team lrank : Nat) (v : Word) | errcClear (i : Fin 11)
  | replayWrite (tile slot : Nat) (v : Bool) | systemRegisterWrite (tile : Nat) (r : SysReg) (v : Word)
  | managementEndpointAccess (m : Mgmt) | powerOn (x : PowerUp) | powerCapThrottle (die mhz : Nat)
  | thermalThrottle (die : Nat) | thermalRecovery (die : Nat) | thermalShutdown | collStatFill (id : Nat)
  | passWrite (tile : Nat)
  deriving DecidableEq, Repr

end Sys2Proof
end

