-- ==== Sys2Proof/WellFormed.lean ====
section
/-! DEFINITION. Which terms of `Instr` are instructions or steps of the device: the type codes, field values and pairings
that R287 to R290 and R365 permit, and step arguments that name a part the package has. -/

namespace Sys2Proof

/-- Types of the scalar integer instructions (R287). -/
def Fmt.isScalarInt : Fmt → Bool
  | .i32 | .n32 | .i64 | .n64 => true
  | _ => false

/-- Types of LD and ST (R287). -/
def Fmt.isMem : Fmt → Bool
  | .i8 | .n8 | .i16 | .n16 | .i32 | .n32 | .i64 | .n64 => true
  | _ => false

/-- LI of R288: the lane integers. -/
def Fmt.isLaneInt : Fmt → Bool
  | .i8 | .n8 | .i16 | .n16 | .i32 | .n32 => true
  | _ => false

/-- SI of R288. -/
def Fmt.isSignedLane : Fmt → Bool
  | .i8 | .i16 | .i32 => true
  | _ => false

/-- LF of R288. -/
def Fmt.isFloat : Fmt → Bool
  | .f32 | .bf16 | .f16 | .e4m3 | .e5m2 => true
  | _ => false

/-- AL of R288: the lane types. -/
def Fmt.isLane (t : Fmt) : Bool := t.isLaneInt || t.isFloat || t == .rns

/-- Formats that MMA takes (R133). -/
def Fmt.isMma : Fmt → Bool
  | .i8 | .f32 | .bf16 | .f16 | .e4m3 | .e5m2 | .c4 => true
  | _ => false

/-- Accumulator tags as format codes (R304). -/
def Fmt.isTag : Fmt → Bool
  | .f32 | .rns => true
  | _ => false

/-- Types of AMO (R306). -/
def Fmt.isAmo : Fmt → Bool
  | .i32 | .n32 | .i64 | .n64 | .f32 => true
  | _ => false

/-- Width of an element in bits (R104). -/
def Fmt.bits : Fmt → Nat
  | .i8 | .n8 | .e4m3 | .e5m2 => 8
  | .i16 | .n16 | .bf16 | .f16 => 16
  | .i32 | .n32 | .f32 | .rns => 32
  | .i64 | .n64 => 64
  | .c4 => 4

/-- Sources and destinations of FCVT (R331). -/
def SType.convertible : SType → Bool
  | .el .c4 => false
  | _ => true

/-- A predicate field that R280 permits: p0 is never inverted. -/
def VPred.wf (q : VPred) : Bool := !(q.p.val == 0 && q.pn)

/-- Operations that AMO permits for a type (R306). -/
def amoOpOk (t : Fmt) (op : ROp) : Bool :=
  t.isAmo && (t != .f32 || op == .add || op == .min || op == .max || op == .swap)

/-- Operations and widths that RED permits (R351). -/
def redOk (f : RedC) : Bool :=
  f.ty.isAmo && f.op != .swap &&
  (f.ty != .f32 || f.op == .add || f.op == .min || f.op == .max) &&
  (!f.wd || (f.ty == .f32 && !f.vec)) &&
  (!f.vec || (f.ty.bits == 32 && f.b.val < 32))

/-- Operations that VRED permits for a type (R384). -/
def vredOk (t : Fmt) (op : ROp) : Bool :=
  op != .swap &&
  (t.isLaneInt || (t.isFloat && (op == .add || op == .min || op == .max)) || (t == .rns && op == .add))

/-- FN of VCVT lies below the ratio of the lane widths (R375). -/
def vcvtPartOk (dst src : Fmt) (part : Nat) : Bool :=
  part < max dst.bits src.bits / min dst.bits src.bits

/-- CNT and ROP that a scope permits to BAR and BARA (R89). -/
def barOk (scope : Scope) (cnt : Fin 16) (rop : BOp) : Bool :=
  match scope with
  | .tile => 1 ≤ cnt.val && cnt.val ≤ 8 && rop != .addF32
  | _ => cnt.val == 0

/-- Fields of a shape with predicate, for the instructions that take a lane type in `ok`. -/
def vOk (ok : Fmt → Bool) (t : Fmt) (q : VPred) : Bool := ok t && q.wf

/-- A physical tile number (R14). -/
def tileOk (t : Nat) : Bool := t < 1024

/-- The well-formed instructions and steps. -/
def WellFormed : Instr → Bool
  | .addR f | .sub f | .mulR f | .mulh f | .div f | .rem f | .andR f | .orR f | .xorR f | .shlR f | .shrR f | .sraR f
  | .sltR f | .minR f | .maxR f => f.ty.isScalarInt
  | .addI f | .mulI f | .andI f | .orI f | .xorI f | .shlI f | .shrI f | .sraI f | .sltI f | .minI f | .maxI f =>
    f.ty.isScalarInt
  | .clz f | .popc f => f.ty.isScalarInt
  | .csel _ => true
  | .li f => f.ty == .n64 || (f.ty == .i64 && f.a.val == 0)
  | .fadd _ | .fsub _ | .fmul _ | .fmin _ | .fmax _ | .ffma _ | .fcmp _ => true
  | .fcvt f => f.dst.convertible && f.src.convertible
  | .beq _ | .bne _ | .blt _ | .bge _ | .bltn _ | .bgen _ | .jal _ | .jalr _ => true
  | .ld f | .st f => f.ty.isMem
  | .mld _ | .mst _ | .mset _ => true
  | .pand _ | .por _ | .pxor _ | .pnot _ => true
  | .pset f => f.ty.isLane
  | .vabs f | .vneg f => vOk (fun t => t.isSignedLane || t.isFloat) f.ty f.q
  | .vadd f | .vsub f | .vperm f => vOk Fmt.isLane f.ty f.q
  | .vmul f | .vmin f | .vmax f => vOk (fun t => t.isLaneInt || t.isFloat) f.ty f.q
  | .vand f | .vor f | .vxor f | .vshl f | .vshr f | .vsra f => vOk Fmt.isLaneInt f.ty f.q
  | .vnot f => vOk Fmt.isLaneInt f.ty f.q
  | .vattm f => vOk (· == .f32) f.ty f.q
  | .vbcast f => vOk Fmt.isLane f.ty f.q
  | .vidx f => vOk Fmt.isLaneInt f.ty f.q
  | .vcmp f => vOk (fun t => t.isFloat || (t.isLaneInt && f.cc != .un && f.cc != .ord)) f.ty f.q
  | .vcvt f => f.dst.isLane && f.src.isLane && vcvtPartOk f.dst f.src f.part.val && f.q.wf
  | .vexp2 f | .vlog2 f | .vrcp f | .vrsq f => vOk (· == .f32) f.ty f.q
  | .vext f => f.ty.isLane
  | .vfma f => vOk Fmt.isFloat f.ty f.q
  | .vgath f => vOk Fmt.isLane f.ty f.q
  | .vscat f => vOk Fmt.isLane f.ty f.q && !f.q.zm
  | .vld f => vOk Fmt.isLane f.ty f.q
  | .vst f => vOk Fmt.isLane f.ty f.q && !f.q.zm
  | .vred f => vredOk f.ty f.op && f.q.wf && !f.q.zm
  | .vsel f => vOk Fmt.isLane f.ty f.q && !f.q.zm
  | .mma f => f.fmt.isMma
  | .ald f => f.fmt.isTag
  | .ast _ => true
  | .azero f => f.fmt.isTag
  | .ascale f => f.fmt.isTag
  | .cbld _ | .cpy _ | .cpya _ => true
  | .amo f => amoOpOk f.ty f.op
  | .red f => redOk f
  | .fence _ | .ctradd _ | .waitge _ => true
  | .bar f => barOk f.scope f.cnt f.rop
  | .bara f => barOk f.scope f.cnt f.rop
  | .barw _ | .spawn _ => true
  | .join f => f.x != 0
  | .susp _ | .exit | .cancel _ | .collLd _ | .collRun _ | .collStat _ => true
  | .nop | .sysrd _ | .syswr _ | .resume _ | .trap _ | .bkpt _ | .halt => true
  | .continuationDispatch t k => tileOk t && k < 8
  | .step t k => tileOk t && k < 8
  | .pcMatch t k => tileOk t && k < 8
  | .replayWrite t k _ => tileOk t && k < 8
  | .pushMigration t | .loadgRefresh t | .parkOnWait t | .matrixQueueStart t | .mmaKBlock t | .mmaComplete t | .aldComplete t
  | .ascaleComplete t | .uncorrectableTileError t | .tileResponseTimeout t | .hreq t | .run t | .stepComplete t
  | .haltComplete t | .traceTimeRecord t | .passWrite t => tileOk t
  | .haltGroupTrigger t g => t ≤ 1024 && g < 32
  | .systemRegisterWrite t _ _ => tileOk t
  | .uncorrectableGroupError g | .groupReset g => g < 64
  | .descriptorLoad k | .quantumExpiry k | .gangDeadline k => k < 128
  | .drainComplete q | .drainTimeout q | .reconfigureDone q | .trainingDone q _ _ _ | .agreementRecord q _ | .mapDone q _
  | .retire q | .podTimeBeacon q _ | .linkDelayMeasure q _ => q < 64
  | .remoteRequest r => r.quad < 64 && r.cls < 4
  | .virgaChunkReceive c => c.quad < 64
  | .retrain x => x.quad < 64
  | .flowControlTotalsSend l c | .flowControlTotals l c _ _ => l < 80 && c < 4
  | .flitCrcError l => l < 80
  | .powerCapThrottle d _ | .thermalThrottle d | .thermalRecovery d => d < 4
  | .releasedRecordEnqueue _ _ | .barrierExchange _ _ _ _ | .barrierCompletion _ _ _ | .peerUnreachable _ _ | .copyChunk _
  | .landing _ | .counterIncrement _ | .amoPerform _ | .amoFill _ | .redAccept _ | .remoteResponse _ _
  | .graphLoadComplete _ | .runStart _ _ | .virgaNodeStart _ _ _ | .virgaNodeComplete _ _ _
  | .virgaMismatchReport _ | .virgaPeerFailure _ | .qdoor _ _ | .hostDoorbellWrite _ _ | .hostHbmAccess _ _ _
  | .queueSlotMap | .launchPacket | .tileGrant | .gangReady _ _ _ | .gangAbort _ | .gangTick _ | .teamCompletion _
  | .vacate _ | .restore _ | .enableRotation _ | .disableRotation _ | .vacateCut _ _ | .saveComplete _ _ _
  | .restoreStart _ _ | .restoreComplete _ _ _ | .rotation _ _ _ | .memoryUncorrectableError _ _ | .htinv _ _ | .htinvAll _
  | .quiesceStart _ | .quiesceDrainComplete | .quiesceTimeout | .quiesceRelease | .personalitySwitch _ | .beaconSend
  | .beaconLoss | .hgrun _ | .snapgo | .counterSnapshot | .compositionRecord | .fstatClear _ _ _ | .errcClear _
  | .managementEndpointAccess _ | .powerOn _ | .thermalShutdown | .collStatFill _ => true

/-- The constructors that are instructions and so have words; the others are steps of the engines. -/
def Instr.hasWord : Instr → Bool
  | .continuationDispatch _ _ | .step _ _ | .pcMatch _ _ | .replayWrite _ _ _ | .pushMigration _ | .loadgRefresh _
  | .parkOnWait _ | .matrixQueueStart _ | .mmaKBlock _ | .mmaComplete _ | .aldComplete _ | .ascaleComplete _
  | .uncorrectableTileError _ | .tileResponseTimeout _ | .hreq _ | .run _ | .stepComplete _ | .haltComplete _
  | .traceTimeRecord _ | .passWrite _ | .haltGroupTrigger _ _ | .systemRegisterWrite _ _ _ | .uncorrectableGroupError _
  | .groupReset _ | .descriptorLoad _ | .quantumExpiry _ | .gangDeadline _ | .drainComplete _ | .drainTimeout _
  | .reconfigureDone _ | .trainingDone _ _ _ _ | .agreementRecord _ _ | .mapDone _ _ | .retire _ | .retrain _
  | .podTimeBeacon _ _ | .linkDelayMeasure _ _ | .flowControlTotalsSend _ _ | .flowControlTotals _ _ _ _ | .flitCrcError _
  | .powerCapThrottle _ _ | .thermalThrottle _ | .thermalRecovery _ | .releasedRecordEnqueue _ _ | .barrierExchange _ _ _ _
  | .barrierCompletion _ _ _ | .peerUnreachable _ _ | .copyChunk _ | .landing _ | .counterIncrement _ | .amoPerform _
  | .amoFill _ | .redAccept _ | .remoteRequest _ | .remoteResponse _ _ | .graphLoadComplete _ | .runStart _ _
  | .virgaNodeStart _ _ _ | .virgaNodeComplete _ _ _ | .virgaChunkReceive _ | .virgaMismatchReport _ | .virgaPeerFailure _
  | .qdoor _ _ | .hostDoorbellWrite _ _ | .hostHbmAccess _ _ _ | .queueSlotMap | .launchPacket | .tileGrant
  | .gangReady _ _ _ | .gangAbort _ | .gangTick _ | .teamCompletion _ | .vacate _ | .restore _ | .enableRotation _
  | .disableRotation _ | .vacateCut _ _ | .saveComplete _ _ _ | .restoreStart _ _ | .restoreComplete _ _ _
  | .rotation _ _ _ | .memoryUncorrectableError _ _ | .htinv _ _ | .htinvAll _ | .quiesceStart _ | .quiesceDrainComplete
  | .quiesceTimeout | .quiesceRelease | .personalitySwitch _ | .beaconSend | .beaconLoss | .hgrun _ | .snapgo
  | .counterSnapshot | .compositionRecord | .fstatClear _ _ _ | .errcClear _ | .managementEndpointAccess _ | .powerOn _
  | .thermalShutdown | .collStatFill _ => false
  | _ => true

end Sys2Proof
end

