-- ==== Sys2Proof/Decode.lean ====
section
/-! DEFINITION. The instruction word (R275 to R282) and its decoder, total on any word, and the encoder written from the
same tables (R287 to R290). Every rejection is the illegal instruction of R291, named here by the condition broken. -/

namespace Sys2Proof

/-- The condition of R291 that a word breaks; every one gives cause 0x00. -/
inductive Reject where
  | reservedOpcode | bit9 | predicate | strict | reservedField | register | typeCode | fieldValue | length
  deriving DecidableEq, Repr

/-- The common fields of an instruction word (R275). -/
structure Fields where
  opc : Nat
  e : Nat
  b9 : Nat
  d : Nat
  a : Nat
  b : Nat
  p : Nat
  x : Nat
  deriving DecidableEq, Repr

/-- Widths of the common fields, from bit 0 up (R275). -/
def wordWidths : List Nat := [8, 1, 1, 6, 6, 6, 4, 32]

/-- The common fields of a word (R275). -/
def Fields.ofWord (w : Word) : Fields :=
  match split wordWidths w.toNat with
  | [opc, e, b9, d, a, b, p, x] => ⟨opc, e, b9, d, a, b, p, x⟩
  | _ => ⟨0, 0, 0, 0, 0, 0, 0, 0⟩

/-- The word of given common fields (R275). -/
def Fields.toWord (f : Fields) : Word :=
  BitVec.ofNat 64 (pack wordWidths [f.opc, f.e, f.b9, f.d, f.a, f.b, f.p, f.x])

/-- X of the R format, from bit 32 of the word up: C, reserved, CC, reserved, STYPE, WS, reserved, WD, TYPE (R277). -/
def widthsR : List Nat := [6, 4, 4, 2, 4, 1, 6, 1, 4]

/-- X of the V format, arithmetic layout: C, ZM, PN, reserved, FN, CC, STYPE, TYPE (R280). -/
def widthsV : List Nat := [6, 1, 1, 8, 4, 4, 4, 4]

/-- X of the V format, memory layout: C, ZM, PN, IMM20, TYPE (R280). -/
def widthsVM : List Nat := [6, 1, 1, 20, 4]

/-- X of the M format: KST, ROW0, NA, NB, AD, reserved, FMT (R281). -/
def widthsM : List Nat := [12, 12, 1, 1, 1, 1, 4]

/-- X of ASCALE: SC, zero, FMT (R310). -/
def widthsSC : List Nat := [6, 22, 4]

/-- X of CPYA: amount, OP (R142). -/
def widthsCPYA : List Nat := [28, 4]

/-- X of AMO: zero, OP, TYPE (R306). -/
def widthsAMO : List Nat := [24, 4, 4]

/-- X of RED: zero, WD, VEC, OP, TYPE (R351). -/
def widthsRED : List Nat := [22, 1, 1, 4, 4]

/-- X of FENCE: SCOPE, zero (R82). -/
def widthsFENCE : List Nat := [3, 29]

/-- X of the barriers: SCOPE, ROP, CNT, DS, reserved (R89). -/
def widthsBAR : List Nat := [3, 4, 4, 6, 15]

/-- X of the Y format with a 16-bit field: the field, zero (R282). -/
def widthsY : List Nat := [16, 16]

/-- X of RESUME: SKIP, DROP, zero (R175). -/
def widthsRESUME : List Nat := [1, 1, 30]

/-- Format codes (R104). -/
def Fmt.code : Fmt → Nat
  | .i8 => 0 | .n8 => 1 | .i16 => 2 | .n16 => 3 | .i32 => 4 | .n32 => 5 | .i64 => 6 | .n64 => 7
  | .f32 => 8 | .bf16 => 9 | .f16 => 10 | .e4m3 => 11 | .e5m2 => 12 | .c4 => 13 | .rns => 14

/-- The format of a code; 15 is reserved (R104). -/
def Fmt.ofCode : Nat → Option Fmt
  | 0 => some .i8 | 1 => some .n8 | 2 => some .i16 | 3 => some .n16 | 4 => some .i32 | 5 => some .n32
  | 6 => some .i64 | 7 => some .n64 | 8 => some .f32 | 9 => some .bf16 | 10 => some .f16 | 11 => some .e4m3
  | 12 => some .e5m2 | 13 => some .c4 | 14 => some .rns | _ => none

/-- Condition codes (R277). -/
def Cond.code : Cond → Nat
  | .eq => 0 | .ne => 1 | .lt => 2 | .le => 3 | .gt => 4 | .ge => 5 | .un => 6 | .ord => 7

/-- The condition of a code; 8 to 15 are reserved (R277). -/
def Cond.ofCode : Nat → Option Cond
  | 0 => some .eq | 1 => some .ne | 2 => some .lt | 3 => some .le | 4 => some .gt | 5 => some .ge | 6 => some .un
  | 7 => some .ord | _ => none

/-- Operation codes of AMO, RED, CPYA, VRED and Virga (R142, R214, R288, R289). -/
def ROp.code : ROp → Nat
  | .add => 0 | .min => 1 | .max => 2 | .and => 3 | .or => 4 | .xor => 5 | .swap => 6

/-- The operation of a code. -/
def ROp.ofCode : Nat → Option ROp
  | 0 => some .add | 1 => some .min | 2 => some .max | 3 => some .and | 4 => some .or | 5 => some .xor | 6 => some .swap
  | _ => none

/-- Barrier reduction codes (R90). -/
def BOp.code : BOp → Nat
  | .none => 0 | .addI64 => 1 | .minI64 => 2 | .maxI64 => 3 | .minN64 => 4 | .maxN64 => 5 | .and => 6 | .or => 7 | .xor => 8
  | .addF32 => 9

/-- The barrier reduction of a code; 10 to 15 are reserved (R90). -/
def BOp.ofCode : Nat → Option BOp
  | 0 => some .none | 1 => some .addI64 | 2 => some .minI64 | 3 => some .maxI64 | 4 => some .minN64 | 5 => some .maxN64
  | 6 => some .and | 7 => some .or | 8 => some .xor | 9 => some .addF32 | _ => Option.none

/-- Scope numbers (R2). -/
def Scope.code : Scope → Nat
  | .tile => 1 | .grp => 2 | .die => 3 | .pkg => 4 | .pod => 5

/-- The scope of a number; SCOPE 0, 6 and 7 are illegal (R82, R89). -/
def Scope.ofCode : Nat → Option Scope
  | 1 => some .tile | 2 => some .grp | 3 => some .die | 4 => some .pkg | 5 => some .pod | _ => none

/-- MSET field codes (R344). -/
def MField.code : MField → Nat
  | .space => 0 | .fmt => 1 | .unf => 2 | .ilv => 3 | .vt => 4 | .hnd => 5 | .ofs => 6 | .e0 => 7 | .e1 => 8 | .e2 => 9
  | .e3 => 10 | .s0 => 11 | .s1 => 12 | .s2 => 13 | .s3 => 14

/-- The MSET field of a code; 15 is reserved (R344). -/
def MField.ofCode : Nat → Option MField
  | 0 => some .space | 1 => some .fmt | 2 => some .unf | 3 => some .ilv | 4 => some .vt | 5 => some .hnd | 6 => some .ofs
  | 7 => some .e0 | 8 => some .e1 | 9 => some .e2 | 10 => some .e3 | 11 => some .s0 | 12 => some .s1 | 13 => some .s2
  | 14 => some .s3 | _ => none

/-- System register numbers (R294). -/
def SysReg.code : SysReg → Nat
  | .teamid => 0x0 | .asid => 0x1 | .vtile => 0x2 | .ptile => 0x3 | .strand => 0x4 | .cycle => 0x10 | .podtime => 0x11
  | .ptstat => 0x12 | .stepc l => 0x20 + l.code | .loadg => 0x30 | .fstat => 0x31 | .imbal i => 0x38 + i.val
  | .qdoor => 0x40 | .replay => 0x41 | .acct i => 0x100 + i.val | .acctsat => 0x118 | .dbgctl => 0x200 | .dbgstat => 0x201
  | .haltgrp => 0x202 | .hgrun => 0x203 | .hgcfg => 0x204 | .wp i => 0x208 + i.val | .pcmt i => 0x210 + i.val
  | .pcmh => 0x220 | .trctl => 0x228 | .trpos => 0x229 | .snapgo => 0x22A | .htinv => 0x300 | .qdbase => 0x301
  | .qdlen => 0x302 | .vacate => 0x303 | .dtbase => 0x304 | .dlbase => 0x305 | .acolor => 0x306 | .quiesce => 0x307
  | .qctl => 0x400 | .portw => 0x401 | .cxlwin i => 0x408 + i.val | .qstat i => 0x440 + i.val | .qpeer i => 0x480 + i.val
  | .errc i => 0x500 + i.val | .snapreq => 0x510 | .fsnap => 0x511 | .pwrcap => 0x512

/-- A member of a family of `k` registers whose first number is `base`. -/
def SysReg.member (k base n : Nat) (mk : Fin k → SysReg) : Option SysReg :=
  if h : n - base < k then if base ≤ n then some (mk ⟨n - base, h⟩) else none else none

/-- The registers that have a number of their own (R294). -/
def SysReg.single : Nat → Option SysReg
  | 0x0 => some .teamid | 0x1 => some .asid | 0x2 => some .vtile | 0x3 => some .ptile | 0x4 => some .strand
  | 0x10 => some .cycle | 0x11 => some .podtime | 0x12 => some .ptstat
  | 0x21 => some (.stepc .tile) | 0x22 => some (.stepc .grp) | 0x23 => some (.stepc .die) | 0x24 => some (.stepc .pkg)
  | 0x25 => some (.stepc .pod) | 0x30 => some .loadg | 0x31 => some .fstat | 0x40 => some .qdoor | 0x41 => some .replay
  | 0x118 => some .acctsat | 0x200 => some .dbgctl | 0x201 => some .dbgstat | 0x202 => some .haltgrp
  | 0x203 => some .hgrun | 0x204 => some .hgcfg | 0x220 => some .pcmh | 0x228 => some .trctl | 0x229 => some .trpos
  | 0x22A => some .snapgo | 0x300 => some .htinv | 0x301 => some .qdbase | 0x302 => some .qdlen | 0x303 => some .vacate
  | 0x304 => some .dtbase | 0x305 => some .dlbase | 0x306 => some .acolor | 0x307 => some .quiesce | 0x400 => some .qctl
  | 0x401 => some .portw | 0x510 => some .snapreq | 0x511 => some .fsnap | 0x512 => some .pwrcap
  | _ => none

/-- The register of a number; an unassigned number is illegal (R291, R294). -/
def SysReg.ofCode (n : Nat) : Option SysReg :=
  single n <|> member 8 0x38 n .imbal <|> member 21 0x100 n .acct <|> member 4 0x208 n .wp <|> member 16 0x210 n .pcmt
    <|> member 4 0x408 n .cxlwin <|> member 64 0x440 n .qstat <|> member 64 0x480 n .qpeer <|> member 11 0x500 n .errc

/-- Passes when the condition holds. -/
def need (c : Bool) (r : Reject) : Except Reject Unit := if c then .ok () else .error r

/-- A field that a list of codes decodes. -/
def coded {α : Type} (o : Option α) (r : Reject) : Except Reject α :=
  match o with
  | some x => .ok x
  | none => .error r

/-- A format code that the instruction permits (R291). -/
def fmtOf (ok : Fmt → Bool) (n : Nat) : Except Reject Fmt :=
  match Fmt.ofCode n with
  | some t => if ok t then .ok t else .error .typeCode
  | none => .error .typeCode

/-- A register field within its file (R283). -/
def regOf (k n : Nat) : Except Reject (Fin k) := if h : n < k then .ok ⟨n, h⟩ else .error .register

/-- Bit 9 is zero and, outside the V format, P is zero (R291). -/
def plain (f : Fields) : Except Reject Unit := do
  need (f.b9 == 0) .bit9
  need (f.p == 0) .predicate

/-- The fields that the row leaves unnamed are zero (R291). -/
def zero (xs : List Nat) : Except Reject Unit := need (xs.all (· == 0)) .reservedField

/-- A scalar operand type of FCVT: the code, and the wide bit that makes code 8 into f64 (R331). -/
def stypeOf (code wide : Nat) : Except Reject SType :=
  if wide == 1 then if code == 8 then .ok .f64 else .error .typeCode
  else (fmtOf (· != .c4) code).map .el

/-- Code and wide bit of a scalar operand type (R331). -/
def SType.code : SType → Nat
  | .el f => f.code
  | .f64 => 8

/-- The wide bit of a scalar operand type (R331). -/
def SType.wide : SType → Nat
  | .el _ => 0
  | .f64 => 1

/-! ### Decoding by format -/

/-- R format of the scalar integer instructions (R302). -/
def dIntR (f : Fields) (k : IntR → Instr) : Except Reject Instr := do
  plain f
  match split widthsR f.x with
  | [c, r1, cc, r2, sty, ws, r3, wd, ty] =>
    zero [c, r1, cc, r2, sty, ws, r3, wd]
    let t ← fmtOf Fmt.isScalarInt ty
    let b ← regOf 64 f.b; let a ← regOf 64 f.a; let d ← regOf 64 f.d
    .ok (k ⟨f.e == 1, t, b, a, d⟩)
  | _ => .error .length

/-- R format of CLZ and POPC (R302). -/
def dIntU (f : Fields) (k : IntU → Instr) : Except Reject Instr := do
  plain f
  match split widthsR f.x with
  | [c, r1, cc, r2, sty, ws, r3, wd, ty] =>
    zero [c, r1, cc, r2, sty, ws, r3, wd, f.b]
    let t ← fmtOf Fmt.isScalarInt ty
    let a ← regOf 64 f.a; let d ← regOf 64 f.d
    .ok (k ⟨f.e == 1, t, a, d⟩)
  | _ => .error .length

/-- I format, SEL a type (R278, R302, R287). -/
def dIntI (f : Fields) (ok : Fmt → Bool) (k : IntI → Instr) : Except Reject Instr := do
  plain f
  match split [4, 2] f.b with
  | [sel, r] =>
    zero [r]
    let t ← fmtOf ok sel
    let a ← regOf 64 f.a; let d ← regOf 64 f.d
    .ok (k ⟨f.e == 1, t, BitVec.ofNat 32 f.x, a, d⟩)
  | _ => .error .length

/-- LI: with A ≠ 0, SEL must be 7 (R340). -/
def dLi (f : Fields) : Except Reject Instr := do
  need (f.a == 0 || field f.b 0 4 == 7) .typeCode
  dIntI f (fun t => t == .i64 || t == .n64) .li

/-- CSEL (R324). -/
def dCsel (f : Fields) : Except Reject Instr := do
  plain f
  match split widthsR f.x with
  | [c, r1, cc, r2, sty, ws, r3, wd, ty] =>
    zero [r1, cc, r2, sty, ws, r3, wd]
    need (ty == 6) .typeCode
    let c ← regOf 64 c; let b ← regOf 64 f.b; let a ← regOf 64 f.a; let d ← regOf 64 f.d
    .ok (.csel ⟨f.e == 1, c, b, a, d⟩)
  | _ => .error .length

/-- Scalar float instructions of two sources (R328). -/
def dFloat (f : Fields) (k : FloatR → Instr) : Except Reject Instr := do
  plain f
  match split widthsR f.x with
  | [c, r1, cc, r2, sty, ws, r3, wd, ty] =>
    zero [c, r1, cc, r2, sty, ws, r3]
    need (ty == 8) .typeCode
    let b ← regOf 64 f.b; let a ← regOf 64 f.a; let d ← regOf 64 f.d
    .ok (k ⟨f.e == 1, wd == 1, b, a, d⟩)
  | _ => .error .length

/-- FFMA (R334). -/
def dFfma (f : Fields) : Except Reject Instr := do
  plain f
  match split widthsR f.x with
  | [c, r1, cc, r2, sty, ws, r3, wd, ty] =>
    zero [r1, cc, r2, sty, ws, r3]
    need (ty == 8) .typeCode
    let c ← regOf 64 c; let b ← regOf 64 f.b; let a ← regOf 64 f.a; let d ← regOf 64 f.d
    .ok (.ffma ⟨f.e == 1, wd == 1, c, b, a, d⟩)
  | _ => .error .length

/-- FCMP (R330). -/
def dFcmp (f : Fields) : Except Reject Instr := do
  plain f
  match split widthsR f.x with
  | [c, r1, cc, r2, sty, ws, r3, wd, ty] =>
    zero [c, r1, r2, sty, ws, r3]
    need (ty == 8) .typeCode
    let cc ← coded (Cond.ofCode cc) .fieldValue
    let b ← regOf 64 f.b; let a ← regOf 64 f.a; let d ← regOf 64 f.d
    .ok (.fcmp ⟨f.e == 1, wd == 1, cc, b, a, d⟩)
  | _ => .error .length

/-- FCVT (R331). -/
def dFcvt (f : Fields) : Except Reject Instr := do
  plain f
  match split widthsR f.x with
  | [c, r1, cc, r2, sty, ws, r3, wd, ty] =>
    zero [c, r1, cc, r2, r3, f.b]
    let dst ← stypeOf ty wd
    let src ← stypeOf sty ws
    let a ← regOf 64 f.a; let d ← regOf 64 f.d
    .ok (.fcvt ⟨f.e == 1, dst, src, a, d⟩)
  | _ => .error .length

/-- Conditional branches (R316). -/
def dBr (f : Fields) (k : BrB → Instr) : Except Reject Instr := do
  plain f
  zero [f.d]
  let b ← regOf 64 f.b; let a ← regOf 64 f.a
  .ok (k ⟨f.e == 1, BitVec.ofNat 32 f.x, b, a⟩)

/-- JAL (R336). -/
def dJal (f : Fields) : Except Reject Instr := do
  plain f
  zero [f.a, f.b]
  let d ← regOf 64 f.d
  .ok (.jal ⟨f.e == 1, BitVec.ofNat 32 f.x, d⟩)

/-- JALR (R337): SEL and bits [27:26] are zero. -/
def dJalr (f : Fields) : Except Reject Instr := do
  plain f
  zero [f.b]
  let a ← regOf 64 f.a; let d ← regOf 64 f.d
  .ok (.jalr ⟨f.e == 1, BitVec.ofNat 32 f.x, a, d⟩)

/-- MLD and MST (R342). -/
def dShape (f : Fields) (k : ShapeI → Instr) : Except Reject Instr := do
  plain f
  zero [f.b]
  let a ← regOf 64 f.a; let d ← regOf 16 f.d
  .ok (k ⟨f.e == 1, BitVec.ofNat 32 f.x, a, d⟩)

/-- MSET (R344). -/
def dMset (f : Fields) : Except Reject Instr := do
  plain f
  match split [4, 2] f.b with
  | [sel, r] =>
    zero [r]
    let m ← coded (MField.ofCode sel) .fieldValue
    let a ← regOf 64 f.a; let d ← regOf 16 f.d
    .ok (.mset ⟨f.e == 1, m, BitVec.ofNat 32 f.x, a, d⟩)
  | _ => .error .length

/-- PAND, POR, PXOR (R348). -/
def dPred (f : Fields) (k : PredR → Instr) : Except Reject Instr := do
  plain f
  zero [f.x]
  let b ← regOf 16 f.b; let a ← regOf 16 f.a; let d ← regOf 16 f.d
  .ok (k ⟨f.e == 1, b, a, d⟩)

/-- PNOT (R348). -/
def dPnot (f : Fields) : Except Reject Instr := do
  plain f
  zero [f.x, f.b]
  let a ← regOf 16 f.a; let d ← regOf 16 f.d
  .ok (.pnot ⟨f.e == 1, a, d⟩)

/-- PSET (R350). -/
def dPset (f : Fields) : Except Reject Instr := do
  plain f
  match split widthsR f.x with
  | [c, r1, cc, r2, sty, ws, r3, wd, ty] =>
    zero [c, r1, cc, r2, sty, ws, r3, wd, f.b]
    let t ← fmtOf Fmt.isLane ty
    let a ← regOf 64 f.a; let d ← regOf 16 f.d
    .ok (.pset ⟨f.e == 1, t, a, d⟩)
  | _ => .error .length

/-- The predicate fields of a V-format word: bit 9 is zero, and p0 is not inverted (R280, R291). -/
def predOf (f : Fields) (pn zm : Nat) : Except Reject VPred := do
  need (f.b9 == 0) .bit9
  let p ← regOf 16 f.p
  need (!(f.p == 0 && pn == 1)) .predicate
  .ok ⟨p, pn == 1, zm == 1⟩

/-- Vector instructions of one vector source (R365). -/
def dVecU (f : Fields) (ok : Fmt → Bool) (k : VecU → Instr) : Except Reject Instr := do
  match split widthsV f.x with
  | [c, zm, pn, r, fn, cc, sty, ty] =>
    let q ← predOf f pn zm
    zero [c, r, fn, cc, sty, f.b]
    let t ← fmtOf ok ty
    let a ← regOf 32 f.a; let d ← regOf 32 f.d
    .ok (k ⟨f.e == 1, t, q, a, d⟩)
  | _ => .error .length

/-- Vector instructions of two vector sources (R365). -/
def dVecR (f : Fields) (ok : Fmt → Bool) (k : VecR → Instr) : Except Reject Instr := do
  match split widthsV f.x with
  | [c, zm, pn, r, fn, cc, sty, ty] =>
    let q ← predOf f pn zm
    zero [c, r, fn, cc, sty]
    let t ← fmtOf ok ty
    let b ← regOf 32 f.b; let a ← regOf 32 f.a; let d ← regOf 32 f.d
    .ok (k ⟨f.e == 1, t, q, b, a, d⟩)
  | _ => .error .length

/-- VSEL: ZM is zero (R385). -/
def dVsel (f : Fields) : Except Reject Instr := do
  need (field f.x 6 1 == 0) .reservedField
  dVecR f Fmt.isLane .vsel

/-- VFMA (R378). -/
def dVfma (f : Fields) : Except Reject Instr := do
  match split widthsV f.x with
  | [c, zm, pn, r, fn, cc, sty, ty] =>
    let q ← predOf f pn zm
    zero [r, fn, cc, sty]
    let t ← fmtOf Fmt.isFloat ty
    let c ← regOf 32 c; let b ← regOf 32 f.b; let a ← regOf 32 f.a; let d ← regOf 32 f.d
    .ok (.vfma ⟨f.e == 1, t, q, c, b, a, d⟩)
  | _ => .error .length

/-- VCMP (R374). -/
def dVcmp (f : Fields) : Except Reject Instr := do
  match split widthsV f.x with
  | [c, zm, pn, r, fn, cc, sty, ty] =>
    let q ← predOf f pn zm
    zero [c, r, fn, sty]
    let cc ← coded (Cond.ofCode cc) .fieldValue
    let t ← fmtOf (fun t => t.isFloat || (t.isLaneInt && cc != .un && cc != .ord)) ty
    let b ← regOf 32 f.b; let a ← regOf 32 f.a; let d ← regOf 16 f.d
    .ok (.vcmp ⟨f.e == 1, t, cc, q, b, a, d⟩)
  | _ => .error .length

/-- VCVT (R375). -/
def dVcvt (f : Fields) : Except Reject Instr := do
  match split widthsV f.x with
  | [c, zm, pn, r, fn, cc, sty, ty] =>
    let q ← predOf f pn zm
    zero [c, r, cc, f.b]
    let dst ← fmtOf Fmt.isLane ty
    let src ← fmtOf Fmt.isLane sty
    need (vcvtPartOk dst src fn) .fieldValue
    let part ← regOf 16 fn
    let a ← regOf 32 f.a; let d ← regOf 32 f.d
    .ok (.vcvt ⟨f.e == 1, dst, src, part, q, a, d⟩)
  | _ => .error .length

/-- VBCAST (R373). -/
def dVbc (f : Fields) : Except Reject Instr := do
  match split widthsV f.x with
  | [c, zm, pn, r, fn, cc, sty, ty] =>
    let q ← predOf f pn zm
    zero [c, r, fn, cc, sty, f.b]
    let t ← fmtOf Fmt.isLane ty
    let a ← regOf 64 f.a; let d ← regOf 32 f.d
    .ok (.vbcast ⟨f.e == 1, t, q, a, d⟩)
  | _ => .error .length

/-- VIDX (R373). -/
def dVidx (f : Fields) : Except Reject Instr := do
  match split widthsV f.x with
  | [c, zm, pn, r, fn, cc, sty, ty] =>
    let q ← predOf f pn zm
    zero [c, r, fn, cc, sty, f.a, f.b]
    let t ← fmtOf Fmt.isLaneInt ty
    let d ← regOf 32 f.d
    .ok (.vidx ⟨f.e == 1, t, q, d⟩)
  | _ => .error .length

/-- VEXT: P, PN and ZM are zero (R377). -/
def dVext (f : Fields) : Except Reject Instr := do
  match split widthsV f.x with
  | [c, zm, pn, r, fn, cc, sty, ty] =>
    plain f
    zero [c, zm, pn, r, fn, cc, sty]
    let t ← fmtOf Fmt.isLane ty
    let b ← regOf 64 f.b; let a ← regOf 32 f.a; let d ← regOf 64 f.d
    .ok (.vext ⟨f.e == 1, t, b, a, d⟩)
  | _ => .error .length

/-- VRED (R384): the pairing of FN and TYPE, and ZM = 0. -/
def dVred (f : Fields) : Except Reject Instr := do
  match split widthsV f.x with
  | [c, zm, pn, r, fn, cc, sty, ty] =>
    let q ← predOf f pn zm
    zero [c, zm, r, cc, sty, f.b]
    let op ← coded (ROp.ofCode fn) .fieldValue
    let t ← fmtOf (fun t => vredOk t op) ty
    let a ← regOf 32 f.a; let d ← regOf 64 f.d
    .ok (.vred ⟨f.e == 1, t, op, q, a, d⟩)
  | _ => .error .length

/-- VLD and VST (R381). -/
def dVmem (f : Fields) (store : Bool) (k : VmemV → Instr) : Except Reject Instr := do
  match split widthsVM f.x with
  | [c, zm, pn, imm, ty] =>
    let q ← predOf f pn zm
    zero [c, f.b]
    need (!(store && zm == 1)) .reservedField
    let t ← fmtOf Fmt.isLane ty
    let a ← regOf 64 f.a; let d ← regOf 32 f.d
    .ok (k ⟨f.e == 1, t, BitVec.ofNat 20 imm, q, a, d⟩)
  | _ => .error .length

/-- VGATH and VSCAT (R379). -/
def dVgs (f : Fields) (store : Bool) (k : VgsV → Instr) : Except Reject Instr := do
  match split widthsVM f.x with
  | [c, zm, pn, imm, ty] =>
    let q ← predOf f pn zm
    zero [c]
    need (!(store && zm == 1)) .reservedField
    let t ← fmtOf Fmt.isLane ty
    let b ← regOf 32 f.b; let a ← regOf 64 f.a; let d ← regOf 32 f.d
    .ok (k ⟨f.e == 1, t, BitVec.ofNat 20 imm, q, b, a, d⟩)
  | _ => .error .length

/-- MMA (R133). -/
def dMma (f : Fields) : Except Reject Instr := do
  plain f
  match split widthsM f.x with
  | [kst, row0, na, nb, ad, r, fmt] =>
    zero [r]
    let t ← fmtOf Fmt.isMma fmt
    let b ← regOf 16 f.b; let a ← regOf 16 f.a; let d ← regOf 8 f.d
    .ok (.mma ⟨f.e == 1, t, ad == 1, nb == 1, na == 1, BitVec.ofNat 12 row0, BitVec.ofNat 12 kst, b, a, d⟩)
  | _ => .error .length

/-- ALD (R304). -/
def dAld (f : Fields) : Except Reject Instr := do
  plain f
  match split widthsM f.x with
  | [kst, row0, na, nb, ad, r, fmt] =>
    zero [kst, row0, na, nb, ad, r, f.b]
    let t ← fmtOf Fmt.isTag fmt
    let a ← regOf 16 f.a; let d ← regOf 8 f.d
    .ok (.ald ⟨f.e == 1, t, a, d⟩)
  | _ => .error .length

/-- AST (R312). -/
def dAst (f : Fields) : Except Reject Instr := do
  plain f
  zero [f.x, f.b]
  let a ← regOf 8 f.a; let d ← regOf 16 f.d
  .ok (.ast ⟨f.e == 1, a, d⟩)

/-- AZERO (R314). -/
def dAzero (f : Fields) : Except Reject Instr := do
  plain f
  match split widthsM f.x with
  | [kst, row0, na, nb, ad, r, fmt] =>
    zero [kst, row0, na, nb, ad, r, f.a, f.b]
    let t ← fmtOf Fmt.isTag fmt
    let d ← regOf 8 f.d
    .ok (.azero ⟨f.e == 1, t, d⟩)
  | _ => .error .length

/-- ASCALE (R310). -/
def dAscale (f : Fields) : Except Reject Instr := do
  plain f
  match split widthsSC f.x with
  | [sc, r, fmt] =>
    zero [r]
    let t ← fmtOf Fmt.isTag fmt
    let sc ← regOf 32 sc; let b ← regOf 32 f.b; let a ← regOf 8 f.a; let d ← regOf 8 f.d
    .ok (.ascale ⟨f.e == 1, t, sc, b, a, d⟩)
  | _ => .error .length

/-- CBLD (R141). -/
def dCbld (f : Fields) : Except Reject Instr := do
  plain f
  zero [f.b]
  let a ← regOf 64 f.a; let d ← regOf 2 f.d
  .ok (.cbld ⟨f.e == 1, BitVec.ofNat 32 f.x, a, d⟩)

/-- CPY (R142). -/
def dCpy (f : Fields) : Except Reject Instr := do
  plain f
  let b ← regOf 64 f.b; let a ← regOf 16 f.a; let d ← regOf 16 f.d
  .ok (.cpy ⟨f.e == 1, BitVec.ofNat 32 f.x, b, a, d⟩)

/-- CPYA (R142). -/
def dCpya (f : Fields) : Except Reject Instr := do
  plain f
  match split widthsCPYA f.x with
  | [amt, op] =>
    let op ← coded (ROp.ofCode op) .fieldValue
    let b ← regOf 64 f.b; let a ← regOf 16 f.a; let d ← regOf 16 f.d
    .ok (.cpya ⟨f.e == 1, op, BitVec.ofNat 28 amt, b, a, d⟩)
  | _ => .error .length

/-- AMO (R306). -/
def dAmo (f : Fields) : Except Reject Instr := do
  plain f
  match split widthsAMO f.x with
  | [r, op, ty] =>
    zero [r]
    let op ← coded (ROp.ofCode op) .fieldValue
    let t ← fmtOf (fun t => amoOpOk t op) ty
    let b ← regOf 64 f.b; let a ← regOf 16 f.a; let d ← regOf 64 f.d
    .ok (.amo ⟨f.e == 1, t, op, b, a, d⟩)
  | _ => .error .length

/-- RED (R351). -/
def dRed (f : Fields) : Except Reject Instr := do
  plain f
  match split widthsRED f.x with
  | [r, wd, vec, op, ty] =>
    zero [r, f.a]
    let op ← coded (ROp.ofCode op) .fieldValue
    let t ← fmtOf Fmt.isAmo ty
    let b ← regOf 64 f.b; let d ← regOf 16 f.d
    let g : RedC := ⟨f.e == 1, t, op, vec == 1, wd == 1, b, d⟩
    need (redOk g) .fieldValue
    .ok (.red g)
  | _ => .error .length

/-- FENCE (R82): E is zero (R291). -/
def dFence (f : Fields) : Except Reject Instr := do
  plain f
  need (f.e == 0) .strict
  match split widthsFENCE f.x with
  | [scope, r] =>
    zero [r, f.a, f.b]
    let l ← coded (Scope.ofCode scope) .fieldValue
    let d ← regOf 64 f.d
    .ok (.fence ⟨l, d⟩)
  | _ => .error .length

/-- CTRADD (R98). -/
def dCtr (f : Fields) : Except Reject Instr := do
  plain f
  zero [f.d]
  let b ← regOf 64 f.b; let a ← regOf 64 f.a
  .ok (.ctradd ⟨f.e == 1, BitVec.ofNat 32 f.x, b, a⟩)

/-- WAITGE (R98). -/
def dWait (f : Fields) : Except Reject Instr := do
  plain f
  let b ← regOf 64 f.b; let a ← regOf 64 f.a; let d ← regOf 64 f.d
  .ok (.waitge ⟨f.e == 1, BitVec.ofNat 32 f.x, b, a, d⟩)

/-- BAR (R89). -/
def dBar (f : Fields) : Except Reject Instr := do
  plain f
  match split widthsBAR f.x with
  | [scope, rop, cnt, ds, r] =>
    zero [r]
    let l ← coded (Scope.ofCode scope) .fieldValue
    let op ← coded (BOp.ofCode rop) .fieldValue
    let cnt ← regOf 16 cnt
    need (barOk l cnt op) .fieldValue
    let ds ← regOf 64 ds; let b ← regOf 64 f.b; let a ← regOf 64 f.a; let d ← regOf 64 f.d
    .ok (.bar ⟨f.e == 1, ds, cnt, op, l, b, a, d⟩)
  | _ => .error .length

/-- BARA (R89): DS is zero. -/
def dBara (f : Fields) : Except Reject Instr := do
  plain f
  match split widthsBAR f.x with
  | [scope, rop, cnt, ds, r] =>
    zero [r, ds]
    let l ← coded (Scope.ofCode scope) .fieldValue
    let op ← coded (BOp.ofCode rop) .fieldValue
    let cnt ← regOf 16 cnt
    need (barOk l cnt op) .fieldValue
    let b ← regOf 64 f.b; let a ← regOf 64 f.a; let d ← regOf 64 f.d
    .ok (.bara ⟨f.e == 1, cnt, op, l, b, a, d⟩)
  | _ => .error .length

/-- BARW (R89): B, ROP and CNT are zero. -/
def dBarw (f : Fields) : Except Reject Instr := do
  plain f
  match split widthsBAR f.x with
  | [scope, rop, cnt, ds, r] =>
    zero [r, rop, cnt, f.b]
    let l ← coded (Scope.ofCode scope) .fieldValue
    let ds ← regOf 64 ds; let a ← regOf 64 f.a; let d ← regOf 64 f.d
    .ok (.barw ⟨f.e == 1, ds, l, a, d⟩)
  | _ => .error .length

/-- SPAWN (R39). -/
def dSpawn (f : Fields) : Except Reject Instr := do
  plain f
  zero [f.b]
  let a ← regOf 64 f.a; let d ← regOf 64 f.d
  .ok (.spawn ⟨f.e == 1, BitVec.ofNat 32 f.x, a, d⟩)

/-- JOIN (R39): X is not zero. -/
def dJoin (f : Fields) : Except Reject Instr := do
  plain f
  zero [f.d, f.b]
  need (BitVec.ofNat 32 f.x != 0) .fieldValue
  let a ← regOf 64 f.a
  .ok (.join ⟨f.e == 1, BitVec.ofNat 32 f.x, a⟩)

/-- SUSP (R39). -/
def dSusp (f : Fields) : Except Reject Instr := do
  plain f
  zero [f.d]
  let b ← regOf 64 f.b; let a ← regOf 64 f.a
  .ok (.susp ⟨f.e == 1, BitVec.ofNat 32 f.x, b, a⟩)

/-- Instructions of which every field but OPC, and perhaps IMM16, is zero, and E too (R39, R290, R291). -/
def bare (f : Fields) : Except Reject Unit := do
  plain f
  need (f.e == 0) .strict
  zero [f.d, f.a, f.b]

/-- EXIT, NOP, HALT (R39, R282). -/
def dBare (f : Fields) (i : Instr) : Except Reject Instr := do
  bare f
  zero [f.x]
  .ok i

/-- TRAP and BKPT (R282). -/
def dImm16 (f : Fields) (k : BitVec 16 → Instr) : Except Reject Instr := do
  bare f
  match split widthsY f.x with
  | [imm, r] =>
    zero [r]
    .ok (k (BitVec.ofNat 16 imm))
  | _ => .error .length

/-- CANCEL and COLL.STAT (R39, R217). -/
def dDa (f : Fields) (k : DaS → Instr) : Except Reject Instr := do
  plain f
  zero [f.b, f.x]
  let a ← regOf 64 f.a; let d ← regOf 64 f.d
  .ok (k ⟨f.e == 1, a, d⟩)

/-- COLL.LD and COLL.RUN (R217). -/
def dColl (f : Fields) (k : CollC → Instr) : Except Reject Instr := do
  plain f
  let b ← regOf 64 f.b; let a ← regOf 64 f.a; let d ← regOf 64 f.d
  .ok (k ⟨f.e == 1, BitVec.ofNat 32 f.x, b, a, d⟩)

/-- SYSRD (R362). -/
def dSysrd (f : Fields) : Except Reject Instr := do
  plain f
  match split widthsY f.x with
  | [srn, r] =>
    zero [r, f.a, f.b]
    let n ← coded (SysReg.ofCode srn) .fieldValue
    let d ← regOf 64 f.d
    .ok (.sysrd ⟨f.e == 1, n, d⟩)
  | _ => .error .length

/-- SYSWR (R362). -/
def dSyswr (f : Fields) : Except Reject Instr := do
  plain f
  match split widthsY f.x with
  | [srn, r] =>
    zero [r, f.d, f.b]
    let n ← coded (SysReg.ofCode srn) .fieldValue
    let a ← regOf 64 f.a
    .ok (.syswr ⟨f.e == 1, n, a⟩)
  | _ => .error .length

/-- RESUME (R175). -/
def dResume (f : Fields) : Except Reject Instr := do
  plain f
  match split widthsRESUME f.x with
  | [skip, drop, r] =>
    zero [r, f.b]
    let a ← regOf 64 f.a; let d ← regOf 64 f.d
    .ok (.resume ⟨f.e == 1, skip == 1, drop == 1, a, d⟩)
  | _ => .error .length

/-- Types of the vector instructions that take LI and LF (R288). -/
def intOrFloat (t : Fmt) : Bool := t.isLaneInt || t.isFloat

/-- The opcode map (R286 to R290). -/
def decodeFields (f : Fields) : Except Reject Instr :=
  match f.opc with
  | 0x01 => dIntR f .addR | 0x02 => dIntR f .sub | 0x03 => dIntR f .mulR | 0x04 => dIntR f .mulh
  | 0x05 => dIntR f .div | 0x06 => dIntR f .rem | 0x07 => dIntR f .andR | 0x08 => dIntR f .orR
  | 0x09 => dIntR f .xorR | 0x0A => dIntR f .shlR | 0x0B => dIntR f .shrR | 0x0C => dIntR f .sraR
  | 0x0D => dIntR f .sltR | 0x0E => dIntR f .minR | 0x0F => dIntR f .maxR
  | 0x10 => dIntU f .clz | 0x11 => dIntU f .popc | 0x12 => dCsel f
  | 0x14 => dIntI f Fmt.isScalarInt .addI | 0x15 => dIntI f Fmt.isScalarInt .mulI
  | 0x16 => dIntI f Fmt.isScalarInt .andI | 0x17 => dIntI f Fmt.isScalarInt .orI
  | 0x18 => dIntI f Fmt.isScalarInt .xorI | 0x19 => dIntI f Fmt.isScalarInt .shlI
  | 0x1A => dIntI f Fmt.isScalarInt .shrI | 0x1B => dIntI f Fmt.isScalarInt .sraI
  | 0x1C => dIntI f Fmt.isScalarInt .sltI | 0x1D => dIntI f Fmt.isScalarInt .minI
  | 0x1E => dIntI f Fmt.isScalarInt .maxI | 0x1F => dLi f
  | 0x20 => dFloat f .fadd | 0x21 => dFloat f .fsub | 0x22 => dFloat f .fmul | 0x23 => dFfma f
  | 0x24 => dFloat f .fmin | 0x25 => dFloat f .fmax | 0x26 => dFcmp f | 0x27 => dFcvt f
  | 0x30 => dBr f .beq | 0x31 => dBr f .bne | 0x32 => dBr f .blt | 0x33 => dBr f .bge
  | 0x34 => dBr f .bltn | 0x35 => dBr f .bgen | 0x36 => dJal f | 0x37 => dJalr f
  | 0x40 => dIntI f Fmt.isMem .ld | 0x41 => dIntI f Fmt.isMem .st
  | 0x42 => dShape f .mld | 0x43 => dShape f .mst | 0x44 => dMset f
  | 0x50 => dPred f .pand | 0x51 => dPred f .por | 0x52 => dPred f .pxor | 0x53 => dPnot f | 0x54 => dPset f
  | 0x60 => dVecU f (fun t => t.isSignedLane || t.isFloat) .vabs | 0x61 => dVecR f Fmt.isLane .vadd
  | 0x62 => dVecR f Fmt.isLaneInt .vand | 0x63 => dVecR f (· == .f32) .vattm | 0x64 => dVbc f | 0x65 => dVcmp f
  | 0x66 => dVcvt f | 0x67 => dVecU f (· == .f32) .vexp2 | 0x68 => dVext f | 0x69 => dVfma f
  | 0x6A => dVgs f false .vgath | 0x6B => dVidx f | 0x6C => dVmem f false .vld
  | 0x6D => dVecU f (· == .f32) .vlog2 | 0x6E => dVecR f intOrFloat .vmax | 0x6F => dVecR f intOrFloat .vmin
  | 0x70 => dVecR f intOrFloat .vmul | 0x71 => dVecU f (fun t => t.isSignedLane || t.isFloat) .vneg
  | 0x72 => dVecU f Fmt.isLaneInt .vnot | 0x73 => dVecR f Fmt.isLaneInt .vor | 0x74 => dVecR f Fmt.isLane .vperm
  | 0x75 => dVecU f (· == .f32) .vrcp | 0x76 => dVred f | 0x77 => dVecU f (· == .f32) .vrsq
  | 0x78 => dVgs f true .vscat | 0x79 => dVsel f | 0x7A => dVecR f Fmt.isLaneInt .vshl
  | 0x7B => dVecR f Fmt.isLaneInt .vshr | 0x7C => dVecR f Fmt.isLaneInt .vsra | 0x7D => dVmem f true .vst
  | 0x7E => dVecR f Fmt.isLane .vsub | 0x7F => dVecR f Fmt.isLaneInt .vxor
  | 0xA0 => dMma f | 0xA1 => dAld f | 0xA2 => dAst f | 0xA3 => dAzero f | 0xA4 => dAscale f | 0xA5 => dCbld f
  | 0xB0 => dCpy f | 0xB1 => dCpya f | 0xB2 => dAmo f | 0xB3 => dRed f | 0xB6 => dFence f | 0xB7 => dCtr f
  | 0xB8 => dWait f
  | 0xC0 => dBar f | 0xC1 => dBara f | 0xC2 => dBarw f
  | 0xC8 => dSpawn f | 0xC9 => dJoin f | 0xCA => dSusp f | 0xCB => dBare f .exit | 0xCC => dDa f .cancel
  | 0xD0 => dColl f .collLd | 0xD1 => dColl f .collRun | 0xD2 => dDa f .collStat
  | 0xE0 => dBare f .nop | 0xE1 => dSysrd f | 0xE2 => dSyswr f | 0xE3 => dResume f | 0xE4 => dImm16 f .trap
  | 0xE5 => dImm16 f .bkpt | 0xE6 => dBare f .halt
  | _ => .error .reservedOpcode

/-- The instruction that a word holds, or the condition of R291 that it breaks. -/
def decode (w : Word) : Except Reject Instr := decodeFields (Fields.ofWord w)

/-- The decoder over the eight bytes of an instruction word, lowest first (R3, R275), with the bytes that follow. -/
def decodeBytes (bs : List Byte) : Except Reject (Instr × List Byte) :=
  if 8 ≤ bs.length then (decode (BitVec.ofNat 64 (ofBytes (bs.take 8)))).map (·, bs.drop 8) else .error .length

/-! ### Encoding by format -/

/-- Fields of the R form (R302). -/
def IntR.enc (opc : Nat) (i : IntR) : Fields :=
  ⟨opc, i.e.nat, 0, i.d, i.a, i.b, 0, pack widthsR [0, 0, 0, 0, 0, 0, 0, 0, i.ty.code]⟩

/-- Fields of CLZ and POPC (R302). -/
def IntU.enc (opc : Nat) (i : IntU) : Fields :=
  ⟨opc, i.e.nat, 0, i.d, i.a, 0, 0, pack widthsR [0, 0, 0, 0, 0, 0, 0, 0, i.ty.code]⟩

/-- Fields of the I form (R278, R302). -/
def IntI.enc (opc : Nat) (i : IntI) : Fields :=
  ⟨opc, i.e.nat, 0, i.d, i.a, pack [4, 2] [i.ty.code, 0], 0, i.imm.toNat⟩

/-- Fields of the scalar float instructions of two sources (R328). -/
def FloatR.enc (opc : Nat) (i : FloatR) : Fields :=
  ⟨opc, i.e.nat, 0, i.d, i.a, i.b, 0, pack widthsR [0, 0, 0, 0, 0, 0, 0, i.wd.nat, 8]⟩

/-- Fields of the conditional branches (R316). -/
def BrB.enc (opc : Nat) (i : BrB) : Fields := ⟨opc, i.e.nat, 0, 0, i.a, i.b, 0, i.x.toNat⟩

/-- Fields of MLD and MST (R342). -/
def ShapeI.enc (opc : Nat) (i : ShapeI) : Fields := ⟨opc, i.e.nat, 0, i.d, i.a, 0, 0, i.imm.toNat⟩

/-- Fields of PAND, POR and PXOR (R348). -/
def PredR.enc (opc : Nat) (i : PredR) : Fields := ⟨opc, i.e.nat, 0, i.d, i.a, i.b, 0, 0⟩

/-- Fields of the vector instructions of one vector source (R365). -/
def VecU.enc (opc : Nat) (i : VecU) : Fields :=
  ⟨opc, i.e.nat, 0, i.d, i.a, 0, i.q.p, pack widthsV [0, i.q.zm.nat, i.q.pn.nat, 0, 0, 0, 0, i.ty.code]⟩

/-- Fields of the vector instructions of two vector sources (R365). -/
def VecR.enc (opc : Nat) (i : VecR) : Fields :=
  ⟨opc, i.e.nat, 0, i.d, i.a, i.b, i.q.p, pack widthsV [0, i.q.zm.nat, i.q.pn.nat, 0, 0, 0, 0, i.ty.code]⟩

/-- Fields of VLD and VST (R381). -/
def VmemV.enc (opc : Nat) (i : VmemV) : Fields :=
  ⟨opc, i.e.nat, 0, i.d, i.a, 0, i.q.p, pack widthsVM [0, i.q.zm.nat, i.q.pn.nat, i.imm.toNat, i.ty.code]⟩

/-- Fields of VGATH and VSCAT (R379). -/
def VgsV.enc (opc : Nat) (i : VgsV) : Fields :=
  ⟨opc, i.e.nat, 0, i.d, i.a, i.b, i.q.p, pack widthsVM [0, i.q.zm.nat, i.q.pn.nat, i.imm.toNat, i.ty.code]⟩

/-- Fields of CANCEL and COLL.STAT (R39, R217). -/
def DaS.enc (opc : Nat) (i : DaS) : Fields := ⟨opc, i.e.nat, 0, i.d, i.a, 0, 0, 0⟩

/-- Fields of COLL.LD and COLL.RUN (R217). -/
def CollC.enc (opc : Nat) (i : CollC) : Fields := ⟨opc, i.e.nat, 0, i.d, i.a, i.b, 0, i.x.toNat⟩

/-- The fields of an instruction; a step has none. -/
def encodeFields : Instr → Option Fields
  | .addR i => some (i.enc 0x01) | .sub i => some (i.enc 0x02) | .mulR i => some (i.enc 0x03)
  | .mulh i => some (i.enc 0x04) | .div i => some (i.enc 0x05) | .rem i => some (i.enc 0x06)
  | .andR i => some (i.enc 0x07) | .orR i => some (i.enc 0x08) | .xorR i => some (i.enc 0x09)
  | .shlR i => some (i.enc 0x0A) | .shrR i => some (i.enc 0x0B) | .sraR i => some (i.enc 0x0C)
  | .sltR i => some (i.enc 0x0D) | .minR i => some (i.enc 0x0E) | .maxR i => some (i.enc 0x0F)
  | .clz i => some (i.enc 0x10) | .popc i => some (i.enc 0x11)
  | .csel i => some ⟨0x12, i.e.nat, 0, i.d, i.a, i.b, 0, pack widthsR [i.c, 0, 0, 0, 0, 0, 0, 0, 6]⟩
  | .addI i => some (i.enc 0x14) | .mulI i => some (i.enc 0x15) | .andI i => some (i.enc 0x16)
  | .orI i => some (i.enc 0x17) | .xorI i => some (i.enc 0x18) | .shlI i => some (i.enc 0x19)
  | .shrI i => some (i.enc 0x1A) | .sraI i => some (i.enc 0x1B) | .sltI i => some (i.enc 0x1C)
  | .minI i => some (i.enc 0x1D) | .maxI i => some (i.enc 0x1E) | .li i => some (i.enc 0x1F)
  | .fadd i => some (i.enc 0x20) | .fsub i => some (i.enc 0x21) | .fmul i => some (i.enc 0x22)
  | .ffma i => some ⟨0x23, i.e.nat, 0, i.d, i.a, i.b, 0, pack widthsR [i.c, 0, 0, 0, 0, 0, 0, i.wd.nat, 8]⟩
  | .fmin i => some (i.enc 0x24) | .fmax i => some (i.enc 0x25)
  | .fcmp i => some ⟨0x26, i.e.nat, 0, i.d, i.a, i.b, 0, pack widthsR [0, 0, i.cc.code, 0, 0, 0, 0, i.wd.nat, 8]⟩
  | .fcvt i =>
    some ⟨0x27, i.e.nat, 0, i.d, i.a, 0, 0,
      pack widthsR [0, 0, 0, 0, i.src.code, i.src.wide, 0, i.dst.wide, i.dst.code]⟩
  | .beq i => some (i.enc 0x30) | .bne i => some (i.enc 0x31) | .blt i => some (i.enc 0x32)
  | .bge i => some (i.enc 0x33) | .bltn i => some (i.enc 0x34) | .bgen i => some (i.enc 0x35)
  | .jal i => some ⟨0x36, i.e.nat, 0, i.d, 0, 0, 0, i.x.toNat⟩
  | .jalr i => some ⟨0x37, i.e.nat, 0, i.d, i.a, 0, 0, i.imm.toNat⟩
  | .ld i => some (i.enc 0x40) | .st i => some (i.enc 0x41) | .mld i => some (i.enc 0x42) | .mst i => some (i.enc 0x43)
  | .mset i => some ⟨0x44, i.e.nat, 0, i.d, i.a, pack [4, 2] [i.field.code, 0], 0, i.imm.toNat⟩
  | .pand i => some (i.enc 0x50) | .por i => some (i.enc 0x51) | .pxor i => some (i.enc 0x52)
  | .pnot i => some ⟨0x53, i.e.nat, 0, i.d, i.a, 0, 0, 0⟩
  | .pset i => some ⟨0x54, i.e.nat, 0, i.d, i.a, 0, 0, pack widthsR [0, 0, 0, 0, 0, 0, 0, 0, i.ty.code]⟩
  | .vabs i => some (i.enc 0x60) | .vadd i => some (i.enc 0x61) | .vand i => some (i.enc 0x62)
  | .vattm i => some (i.enc 0x63)
  | .vbcast i =>
    some ⟨0x64, i.e.nat, 0, i.d, i.a, 0, i.q.p, pack widthsV [0, i.q.zm.nat, i.q.pn.nat, 0, 0, 0, 0, i.ty.code]⟩
  | .vcmp i =>
    some ⟨0x65, i.e.nat, 0, i.d, i.a, i.b, i.q.p,
      pack widthsV [0, i.q.zm.nat, i.q.pn.nat, 0, 0, i.cc.code, 0, i.ty.code]⟩
  | .vcvt i =>
    some ⟨0x66, i.e.nat, 0, i.d, i.a, 0, i.q.p,
      pack widthsV [0, i.q.zm.nat, i.q.pn.nat, 0, i.part, 0, i.src.code, i.dst.code]⟩
  | .vexp2 i => some (i.enc 0x67)
  | .vext i => some ⟨0x68, i.e.nat, 0, i.d, i.a, i.b, 0, pack widthsV [0, 0, 0, 0, 0, 0, 0, i.ty.code]⟩
  | .vfma i =>
    some ⟨0x69, i.e.nat, 0, i.d, i.a, i.b, i.q.p, pack widthsV [i.c, i.q.zm.nat, i.q.pn.nat, 0, 0, 0, 0, i.ty.code]⟩
  | .vgath i => some (i.enc 0x6A)
  | .vidx i =>
    some ⟨0x6B, i.e.nat, 0, i.d, 0, 0, i.q.p, pack widthsV [0, i.q.zm.nat, i.q.pn.nat, 0, 0, 0, 0, i.ty.code]⟩
  | .vld i => some (i.enc 0x6C) | .vlog2 i => some (i.enc 0x6D) | .vmax i => some (i.enc 0x6E)
  | .vmin i => some (i.enc 0x6F) | .vmul i => some (i.enc 0x70) | .vneg i => some (i.enc 0x71)
  | .vnot i => some (i.enc 0x72) | .vor i => some (i.enc 0x73) | .vperm i => some (i.enc 0x74)
  | .vrcp i => some (i.enc 0x75)
  | .vred i =>
    some ⟨0x76, i.e.nat, 0, i.d, i.a, 0, i.q.p,
      pack widthsV [0, i.q.zm.nat, i.q.pn.nat, 0, i.op.code, 0, 0, i.ty.code]⟩
  | .vrsq i => some (i.enc 0x77) | .vscat i => some (i.enc 0x78) | .vsel i => some (i.enc 0x79)
  | .vshl i => some (i.enc 0x7A) | .vshr i => some (i.enc 0x7B) | .vsra i => some (i.enc 0x7C)
  | .vst i => some (i.enc 0x7D) | .vsub i => some (i.enc 0x7E) | .vxor i => some (i.enc 0x7F)
  | .mma i =>
    some ⟨0xA0, i.e.nat, 0, i.d, i.a, i.b, 0,
      pack widthsM [i.kst.toNat, i.row0.toNat, i.na.nat, i.nb.nat, i.ad.nat, 0, i.fmt.code]⟩
  | .ald i => some ⟨0xA1, i.e.nat, 0, i.d, i.a, 0, 0, pack widthsM [0, 0, 0, 0, 0, 0, i.fmt.code]⟩
  | .ast i => some ⟨0xA2, i.e.nat, 0, i.d, i.a, 0, 0, 0⟩
  | .azero i => some ⟨0xA3, i.e.nat, 0, i.d, 0, 0, 0, pack widthsM [0, 0, 0, 0, 0, 0, i.fmt.code]⟩
  | .ascale i => some ⟨0xA4, i.e.nat, 0, i.d, i.a, i.b, 0, pack widthsSC [i.sc, 0, i.fmt.code]⟩
  | .cbld i => some ⟨0xA5, i.e.nat, 0, i.d, i.a, 0, 0, i.x.toNat⟩
  | .cpy i => some ⟨0xB0, i.e.nat, 0, i.d, i.a, i.b, 0, i.amt.toNat⟩
  | .cpya i => some ⟨0xB1, i.e.nat, 0, i.d, i.a, i.b, 0, pack widthsCPYA [i.amt.toNat, i.op.code]⟩
  | .amo i => some ⟨0xB2, i.e.nat, 0, i.d, i.a, i.b, 0, pack widthsAMO [0, i.op.code, i.ty.code]⟩
  | .red i => some ⟨0xB3, i.e.nat, 0, i.d, 0, i.b, 0, pack widthsRED [0, i.wd.nat, i.vec.nat, i.op.code, i.ty.code]⟩
  | .fence i => some ⟨0xB6, 0, 0, i.d, 0, 0, 0, pack widthsFENCE [i.scope.code, 0]⟩
  | .ctradd i => some ⟨0xB7, i.e.nat, 0, 0, i.a, i.b, 0, i.x.toNat⟩
  | .waitge i => some ⟨0xB8, i.e.nat, 0, i.d, i.a, i.b, 0, i.x.toNat⟩
  | .bar i =>
    some ⟨0xC0, i.e.nat, 0, i.d, i.a, i.b, 0, pack widthsBAR [i.scope.code, i.rop.code, i.cnt, i.ds, 0]⟩
  | .bara i => some ⟨0xC1, i.e.nat, 0, i.d, i.a, i.b, 0, pack widthsBAR [i.scope.code, i.rop.code, i.cnt, 0, 0]⟩
  | .barw i => some ⟨0xC2, i.e.nat, 0, i.d, i.a, 0, 0, pack widthsBAR [i.scope.code, 0, 0, i.ds, 0]⟩
  | .spawn i => some ⟨0xC8, i.e.nat, 0, i.d, i.a, 0, 0, i.x.toNat⟩
  | .join i => some ⟨0xC9, i.e.nat, 0, 0, i.a, 0, 0, i.x.toNat⟩
  | .susp i => some ⟨0xCA, i.e.nat, 0, 0, i.a, i.b, 0, i.x.toNat⟩
  | .exit => some ⟨0xCB, 0, 0, 0, 0, 0, 0, 0⟩
  | .cancel i => some (i.enc 0xCC)
  | .collLd i => some (i.enc 0xD0) | .collRun i => some (i.enc 0xD1) | .collStat i => some (i.enc 0xD2)
  | .nop => some ⟨0xE0, 0, 0, 0, 0, 0, 0, 0⟩
  | .sysrd i => some ⟨0xE1, i.e.nat, 0, i.d, 0, 0, 0, pack widthsY [i.srn.code, 0]⟩
  | .syswr i => some ⟨0xE2, i.e.nat, 0, 0, i.a, 0, 0, pack widthsY [i.srn.code, 0]⟩
  | .resume i => some ⟨0xE3, i.e.nat, 0, i.d, i.a, 0, 0, pack widthsRESUME [i.skip.nat, i.drop.nat, 0]⟩
  | .trap imm => some ⟨0xE4, 0, 0, 0, 0, 0, 0, pack widthsY [imm.toNat, 0]⟩
  | .bkpt imm => some ⟨0xE5, 0, 0, 0, 0, 0, 0, pack widthsY [imm.toNat, 0]⟩
  | .halt => some ⟨0xE6, 0, 0, 0, 0, 0, 0, 0⟩
  | _ => none

/-- The word of an instruction (R275); a step has none. -/
def encode (i : Instr) : Option Word := (encodeFields i).map Fields.toWord

/-- What the decoder reads from a word of the opcode table's own numbering: an instruction is one 64-bit word, bit 0 the
least significant bit of its lowest byte (R3, R275). -/
def decodeTableWord (_nbits w : Nat) : Option Instr :=
  match decodeBytes (bytesOf 8 w) with
  | .ok (i, _) => some i
  | .error _ => none

end Sys2Proof
end

