-- ==== Sys2Proof/Config.lean ====
section
/-! DEFINITION. What an implementation or its signed configuration image fixes (R271), and the free values of the
manual (R8). A constant without a body can be neither evaluated nor proved equal to anything. -/

namespace Sys2Proof.Config

/-- Undefined bytes (R8): the n-th free byte that a team draws, by its TEAMID and START. Log 12. -/
opaque freeByte (team start n : Nat) : Byte

/-- Undefined words (R8): the n-th free word that a team draws, by its TEAMID and START. Log 12. -/
opaque freeWord (team start n : Nat) : Word

/-- The signed configuration image as Lycel finds it at boot (R271), with what is fused beside it. -/
structure Image where
  /-- The personality map (R196); none where the image leaves it at its default. -/
  pers : Option (Vector (Fin 4) 64)
  /-- The CXL window defaults (R200). -/
  cxlwin : Vector Word 4
  /-- The spare-tile map (R14): by group of the package, the site that the spare replaces. -/
  spare : Vector (Option (Fin 16)) 64
  /-- By group, a failed site that no working spare replaces (R14). -/
  failed : Vector (Option (Fin 16)) 64
  /-- This package is the time root (R209). -/
  timeRoot : Bool
  /-- The lane error limit (R204). -/
  laneLimit : Nat
  /-- The PORTW defaults (R239). -/
  portw : Word
  /-- CFGGEN (R205). -/
  cfgGen : BitVec 12
  /-- The accelerator ID of this package in its pod (R205). -/
  accId : BitVec 10
  /-- Its signature holds under the operator key whose hash is fused. -/
  signed : Bool
  /-- The fused minimum CFGGEN. -/
  minGen : BitVec 12
  deriving DecidableEq, Repr, Inhabited

/-- The default personality map: UALink, Ultra Ethernet, CXL link 0 and quads that are off (R196). -/
def defaultPers : Vector (Fin 4) 64 :=
  Vector.ofFn fun q =>
    if q.val < 24 ∨ 32 ≤ q.val ∧ q.val < 56 then 1
    else if q.val < 27 ∨ 56 ≤ q.val ∧ q.val < 59 then 2
    else if 28 ≤ q.val ∧ q.val < 32 then 3 else 0

/-- The personality map that the package boots with (R196). -/
def Image.map (m : Image) : Vector (Fin 4) 64 := m.pers.getD defaultPers

/-- The configuration image of this package. Log 7. -/
opaque image : Image

/-- The public key of the identity key (R266). Log 15. -/
opaque publicKey : List Byte

/-- An ECDSA P-384 signature by the identity key over the bytes of a record, as r and then s (R266). Log 15. -/
opaque sign : List Byte → BitVec 768

/-- The certificate for the identity key (R266). Log 15. -/
opaque certificate : List Byte

/-- The firmware measurement of the last boot (R270). Log 15. -/
opaque firmwareMeasurement : BitVec 384

/-- The configuration measurement (R270). Log 15. -/
opaque configMeasurement : BitVec 384

/-- B_c: flit buffers of each traffic class at the receiver of a link (R210). Log 13. -/
opaque flitBuffers (cls : Nat) : Nat

/-- The accelerator ID in the pod of member package p of a team (R199). Log 7. -/
opaque accOf (team p : Nat) : Nat

/-- The HBM stack, 0 to 7, of an HBM address: the hash is fixed and invisible to software (R61). Two stacks stand on each compute
die (R10). Log 7. -/
opaque stackOf (addr : Nat) : Nat

/-- The fixed hash of destination address and issuing tile that chooses among the quads of a routing mask (R199). Log 7. -/
opaque routeHash (addr tile : Nat) : Nat

end Sys2Proof.Config
end

