-- ==== Sys2Proof/Machine/Mem.lean ====
section
/-! DEFINITION. The package's memories as one list of cells (R11, R56). Log 4 gives the key of each byte and log 5 what an
unlisted byte reads as. -/

namespace Sys2Proof.Machine

/-- All committed memory: cells with rising keys, none of them zero (log 5). -/
abbrev Memory := List Host.Cell

/-- What a byte that no cell lists reads as. DESIGN CHOICE, unsafe (log 5). -/
def Memory.unlisted : Byte := 0

/-- The canonical form: rising keys and no cell equal to what an unlisted byte reads as. -/
abbrev Memory.wf (m : Memory) : Prop :=
  m.Pairwise (fun c d => c.1 < d.1) ∧ ∀ c ∈ m, c.2 ≠ Memory.unlisted

/-- The byte at a key. -/
def Memory.byte : Memory → Nat → Byte
  | [], _ => Memory.unlisted
  | c :: m, a => if c.1 = a then c.2 else Memory.byte m a

/-- The bytes from a key on. -/
def Memory.read (m : Memory) (a n : Nat) : List Byte := (interval a n).map m.byte

/-- The number held little-endian in `n` bytes (R3). -/
def Memory.num (m : Memory) (a n : Nat) : Nat := ofBytes (m.read a n)

/-- The cells of consecutive bytes that are not what an unlisted byte reads as. -/
def cellsOf : Nat → List Byte → Memory
  | _, [] => []
  | a, b :: bs => if b = Memory.unlisted then cellsOf (a + 1) bs else (a, b) :: cellsOf (a + 1) bs

/-- Stores consecutive bytes at a key and keeps the canonical form. -/
def Memory.put (m : Memory) (a : Nat) (bs : List Byte) : Memory :=
  m.takeWhile (fun c => c.1 < a) ++ cellsOf a bs ++ m.dropWhile (fun c => c.1 < a + bs.length)

/-- Makes `n` bytes from a key zero. -/
def Memory.clear (m : Memory) (a n : Nat) : Memory :=
  m.takeWhile (fun c => c.1 < a) ++ m.dropWhile (fun c => c.1 < a + n)

/-- Copies `n` bytes from one key to another. -/
def Memory.copyRange (m : Memory) (src dst n : Nat) : Memory :=
  m.takeWhile (fun c => c.1 < dst)
    ++ ((m.dropWhile (fun c => c.1 < src)).takeWhile (fun c => c.1 < src + n)).map (fun c => (c.1 - src + dst, c.2))
    ++ m.dropWhile (fun c => c.1 < dst + n)

/-! ### Keys of physical memory (log 4) -/

/-- HBM physical address `a` (R11). -/
def hbmKey (a : Nat) : Nat := a

/-- Byte `a` of the SRAM of die `d` (R11). -/
def dieKey (d a : Nat) : Nat := 2 ^ 40 + d * 2 ^ 30 + a

/-- Byte `a` of the SRAM of group `g` = die·16 + group (R11). -/
def groupKey (g a : Nat) : Nat := 2 ^ 41 + g * 2 ^ 23 + a

/-- Byte `o` of the tile store of physical tile `t` (R58). -/
def storeKey (t o : Nat) : Nat := 2 ^ 42 + t * 2 ^ 19 + o

/-- Host physical address `a` behind the CXL windows (R61, R200). -/
def hostKey (a : Nat) : Nat := 2 ^ 53 + a

/-- Bytes of the tile store (R58). -/
def storeSize : Nat := 0x80000

/-- Bytes of HBM (R11). -/
def hbmSize : Nat := 2 ^ 39

/-- The 64-byte granule of a key (R58, R67). -/
def granule (a : Nat) : Nat := a / 64

/-- The granules that `n` bytes from a key touch. -/
def granulesOf (a n : Nat) : List Nat := if n = 0 then [] else interval (granule a) (granule (a + n - 1) - granule a + 1)

/-- The granules that `n` bytes from a key cover whole (R69). -/
def granulesWhole (a n : Nat) : List Nat :=
  let lo := (a + 63) / 64
  interval lo ((a + n) / 64 - lo)

/-- Adds to a sorted list of granules. -/
def insertSorted (x : Nat) : List Nat → List Nat
  | [] => [x]
  | y :: r => if y < x then y :: insertSorted x r else if y = x then y :: r else x :: y :: r

end Sys2Proof.Machine
end

