-- ==== Sys2Proof/Machine/State.lean ====
section
/-! DEFINITION. The state of one package: its memories, strands, vtiles, teams, engines, tiles and package registers, as
plain data. A thing that comes and goes (a strand, a team, a copy) stands in a list keyed by its number; keys rise. -/

namespace Sys2Proof.Machine

/-- Keys of the cells, of whatever kind, in the model: a list with rising keys. -/
abbrev Table (α : Type) := List (Nat × α)

/-- Why the machine stops. -/
inductive Fault where
  /-- An agent reached a physical address that no memory of the package has (log 19). Raised by `step`. Safe. -/
  | absentAddress (key : Nat)
  deriving DecidableEq, Repr

/-- Why a step has no meaning. -/
inductive Refusal where
  /-- An arm of `exec` without a meaning yet. Raised by `exec`. Safe. -/
  | notModelled (mnemonic : String)
  deriving DecidableEq, Repr

/-! ### Strands -/

/-- What a strand waits for (R20, R49, R83, R92, R100, R102, R136, R150). A wait on a barrier keeps the PC after the BAR or
BARW and the registers that the result fills. Every other wait keeps the PC at the waiting instruction; that of WAITGE says
where its counter lies and what it waits for, as they stood at issue, and keeps the instruction (R386). -/
inductive Wait where
  | none
  | waitge (ofs target : Nat) (f : WaitC)
  | barrier (l : Scope) (k : Nat) (d ds : SReg)
  | empty
  | fifth
  | fence
  | limit
  /-- SYSWR HTINV: work numbered below `upto` passed its checks before the acceptance (R65). -/
  | htinv (upto : Nat)
  deriving DecidableEq, Repr, Inhabited

/-- A strand in a strand slot (R33, R52, R283). -/
structure Strand where
  /-- Its team. -/
  team : Nat
  /-- Local rank of its vtile. -/
  lrank : Nat
  /-- The model's name for it, which engine work keeps (log 12). -/
  uid : Nat
  /-- The program counter, a byte offset in the code handle (R276). -/
  pc : Word
  /-- s0 to s63. -/
  s : Vector Word 64
  /-- v0 to v31. -/
  v : Vector VReg 32
  /-- p0 to p15. -/
  p : Vector PReg 16
  /-- m0 to m15. -/
  m : Vector Shape 16
  /-- Full bits of s0 to s63 (R101). -/
  sfull : BitVec 64
  /-- Full bits of v0 to v31 (R101). -/
  vfull : BitVec 32
  /-- Scalars filled by an AMO from a poisoned granule (R68; log 23). -/
  spoison : BitVec 64
  /-- The failure summary (R84). -/
  summary : Word
  /-- The kept JCELL (R33). -/
  jcell : Word
  /-- Effective priority (R30). -/
  prio : Nat
  /-- What it waits for. -/
  wait : Wait
  /-- CYCLE when the wait began (R49). -/
  waitSince : Nat
  /-- CYCLE since which it is ready (R165). -/
  readySince : Option Nat
  /-- Held in place (R169). -/
  held : Bool
  /-- TAHEAD of its slot (R19). -/
  tahead : Nat
  /-- The replay mark (R264). -/
  replay : Bool
  deriving DecidableEq, Repr

/-- Why a save slot holds a strand (R50, R169, R180). -/
inductive SaveWhy where
  | vacate | fault | park
  deriving DecidableEq, Repr

/-- What the device keeps of a saved strand beside its image (R19, R52). -/
structure SaveInfo where
  uid : Nat
  why : SaveWhy
  prio : Nat
  wait : Wait
  held : Bool
  tahead : Nat
  replay : Bool
  spoison : BitVec 64
  waitSince : Nat
  /-- Named by a RESUME and not yet dispatched (R176). -/
  resumed : Bool
  deriving DecidableEq, Repr

/-! ### Vtiles -/

/-- Who issued a piece of engine work (R171): the strand as it stood at issue. -/
structure Issuer where
  team : Nat
  lrank : Nat
  uid : Nat
  tile : Nat
  slot : Nat
  pc : Word
  word : Word
  prio : Nat
  deriving DecidableEq, Repr

/-- An accumulator (R125): 64 rows of 64 elements, the tag and the full bit. -/
structure Acc where
  rows : Vector VReg 64
  rns : Bool
  full : Bool
  deriving DecidableEq, Repr

/-- What stands in the matrix queue (R136, R301, R320): the operation with the shape records and vectors that it copied at
issue (R132). `retag` says that an MMA changed the tag of its accumulator (R126). -/
inductive MOp where
  | mma (f : MmaM) (a b : Shape) (retag : Bool)
  | ald (fmt : Fmt) (a : Shape)
  | azero (fmt : Fmt)
  | ascale (fmt : Fmt) (x : ANum) (sr sc : VReg)
  | cbld
  deriving DecidableEq, Repr

/-- An entry of the matrix queue (R136, R184): its operation, destination, issuer, progress and the byte ranges of the tile
store that were written while its operands must stand (R137; log 11). -/
structure MEntry where
  op : MOp
  d : ANum
  who : Issuer
  started : Bool
  kdone : Nat
  /-- Codebook buffers in use, for CBA and CBB (R141). -/
  bufA : Nat
  bufB : Nat
  touched : List (Nat × Nat)
  deriving DecidableEq, Repr

/-- A store of a strand to its tile store, or an operation on a join cell there, for the races of R38 and R138 (log 9): who,
the model's numbers at that moment, and the bytes. -/
structure StoreRec where
  uid : Nat
  /-- Names below this one had been given out: a strand that bears it or a later one began after the store. -/
  born : Nat
  /-- The store's place among the stores of its vtile. -/
  n : Nat
  lo : Nat
  len : Nat
  cell : Bool
  deriving DecidableEq, Repr

/-- What orders the stores of a vtile's strands among one another (R72): the stores that some strand may still race with;
triples (a, b, n) that put strand a's stores before its n-th in order before strand b; and triples (ofs, a, n) that a CTRADD
on the counter at ofs carries. And the counters that a store has lowered while an increment could still arrive (R97, R386). -/
structure Races where
  tick : Nat
  stores : List StoreRec
  orders : List (Nat × Nat × Nat)
  ctrs : List (Nat × Nat × Nat)
  lowered : List Nat
  deriving DecidableEq, Repr

/-- Kinds of update of level memory, for the mixed-update flag (R80, R148). -/
inductive UpdKind where
  | amo | red | copy | cpya
  deriving DecidableEq, Repr

/-- An update that an open superstep of a vtile holds (R80; log 21). -/
structure Upd where
  scope : Scope
  step : Nat
  kind : UpdKind
  key : Nat
  len : Nat
  deriving DecidableEq, Repr

/-- States of a diversion entry (R185). -/
inductive DivState where
  | free | resident | cut | saving | diverting | restoring
  deriving DecidableEq, Repr

/-- The code of a diversion state (R185). -/
def DivState.code : DivState → Nat
  | .free => 0 | .resident => 1 | .cut => 2 | .saving => 3 | .diverting => 4 | .restoring => 5

/-- What lands in a tile store: bytes with the bits of each that are written, elements to combine, or elements to swap
with the tile-store offsets that their old values return to (R78, R147, R149). -/
inductive LandWhat where
  | bytes (cells : List (Nat × Byte × Byte))
  | combine (op : ROp) (fmt : Fmt) (elems : List (Nat × Nat))
  | swap (fmt : Fmt) (elems : List (Nat × Nat × Nat))
  deriving DecidableEq, Repr

/-- What a landing belongs to: a copy, or a node of a run. -/
inductive LandOf where
  | copy (id : Nat)
  | run (id node : Nat)
  deriving DecidableEq, Repr

/-- A landing in flight (R78, R146, R186), for the tile store of a vtile of the issuer's team. `whole` names the granules of
the tile store that clean bytes of its chunk cover whole (R69), and `back` says that it is a swap's write-back (R149). -/
structure Landing where
  of_ : LandOf
  who : Issuer
  vt : Nat
  what : LandWhat
  poisoned : Bool
  whole : List Nat
  chunk : Nat
  back : Bool
  /-- The site that it comes from (R10). -/
  home : Nat
  deriving DecidableEq, Repr

/-- Clean bytes of one chunk that have landed in poisoned granule `g` of a tile store, which the chunk covers whole: two bits
for each byte, one for each of its nibbles (R69). -/
structure Cover where
  of_ : LandOf
  chunk : Nat
  g : Nat
  mask : BitVec 128
  deriving DecidableEq, Repr

/-- A counter increment in flight (R97), for a vtile of the issuer's team. `diverted` says that a landing of its work was
diverted, itself among them (R84, R193). -/
structure Increment where
  who : Issuer
  vt : Nat
  ofs : Nat
  amount : Word
  diverted : Bool
  deriving DecidableEq, Repr

/-- A record of a diversion log (R188). -/
inductive LogRec where
  | land (l : Landing)
  | counter (i : Increment)
  | fill (save : Nat) (r : SReg) (v : Word) (poisoned : Bool)
  | barrier (save : Nat) (d ds : SReg) (v status : Word)
  | summary (save : Nat) (ctr bits : Word) (fails : Bool)
  deriving DecidableEq, Repr

/-- A vtile of a live team (R25, R27, R125, R174, R185). -/
structure Vtile where
  res : Bool
  ptile : Nat
  accs : Vector Acc 8
  /-- CBA buffers 0 and 1, then CBB buffers 0 and 1 (R184). -/
  cbs : Vector (BitVec 128) 4
  /-- The current buffer of CBA and of CBB (R141). -/
  curA : Nat
  curB : Nat
  mq : List MEntry
  fstat : Word
  /-- Save slots that hold a strand. -/
  saves : Table SaveInfo
  /-- Current supersteps at scopes 2 to 5 (R19). -/
  cur : Vector Nat 4
  /-- IMBAL.0 to IMBAL.7 (R96). -/
  imbal : BitVec 512
  /-- Index of its diversion entry. -/
  divIdx : Nat
  div : DivState
  log : Option Nat
  logW : Nat
  logR : Nat
  cutT : Nat
  /-- Log records not replayed, and updates that their senders hold since the log is full (R189). -/
  recs : List LogRec
  owed : List LogRec
  /-- Updates of open supersteps. -/
  upds : List Upd
  lost : Bool
  /-- Its strands and MMAs are stopped for a vacate whose cut waits (R180), with the request number. -/
  stopped : Option Nat
  /-- A restore that waits for DIVERTING or for a log, with its tile and request number (R185, R189). -/
  restoreTo : Option (Nat × Nat)
  /-- MMAs that have completed while their accumulator is still empty (R137). -/
  past : List MEntry
  /-- The order among its strands' stores (R72). -/
  race : Races
  /-- What chunks have covered of its poisoned granules so far (R69). -/
  cover : List Cover
  deriving DecidableEq, Repr

/-! ### Teams -/

/-- A record in a queue (R45, R50). -/
structure QEntry where
  record : BitVec 512
  target : QTarget
  seq : Nat
  /-- Order in which SEQ values, or resumable records, came (R45). -/
  ord : Nat
  prio : Nat
  /-- The save slot of a resumable record (R50). -/
  save : Option Nat
  /-- A resumable record whose wait still runs. -/
  waiting : Bool
  /-- Since when it is ready, by the clock of its queue (R5, R162). -/
  since : Nat
  /-- Its place in the queue's memory (log 16). -/
  idx : Nat
  deriving DecidableEq, Repr

/-- A record in the park pool (R42). -/
structure Parked where
  record : BitVec 512
  target : QTarget
  seq : Nat
  ord : Nat
  prio : Nat
  ticket : Word
  /-- The cell in group SRAM that it is parked on (R37). -/
  cell : Option Nat
  /-- Order of its release, when it waits for room. -/
  released : Option Nat
  idx : Nat
  deriving DecidableEq, Repr

/-- A live team in this package. -/
structure Team where
  /-- The launch packet (R158). -/
  packet : BitVec 1024
  /-- Effective launch priority. -/
  prio : Nat
  /-- The user queue that launched it. -/
  queue : Nat
  /-- START (R160). -/
  start : Nat
  /-- HBM address of the team area (R399). -/
  area : Nat
  /-- The SEQ counter (R32). -/
  seq : Nat
  /-- Orders given out. -/
  ord : Nat
  queued : List QEntry
  parked : List Parked
  acct : Vector Nat 21
  acctsat : BitVec 21
  /-- FQW and LOSTC (R172), and whether the next record carries LOST. -/
  fqw : Nat
  lostc : Nat
  lostMark : Bool
  /-- Records in the imbalance ring (R95). -/
  imbSeq : Nat
  rotation : Bool
  /-- DISCARD (R160, R178). -/
  discard : Nat
  /-- Member packages that are unreachable, each with the pod time at which that was found (R94). -/
  peersDown : Table Nat
  /-- PEERUID of each member heard at launch (R270). -/
  peerUids : Table Word
  /-- Physical tile of each local rank at launch (R270). -/
  map0 : List Nat
  /-- Free values drawn (log 12). -/
  drawn : Nat
  deriving DecidableEq, Repr

/-! ### Barriers -/

/-- A recorded arrival (R87, R94). `who` is a local rank, or a strand's name at tile scope. -/
structure Arrival where
  who : Nat
  value : Option Word
  code : BitVec 16
  forced : Bool
  time : Nat
  /-- At tile scope, the stores that its strand knows: pairs of a strand and a count of its stores (R72). -/
  knows : List (Nat × Nat)
  deriving DecidableEq, Repr

/-- An open phase (R20, R87). -/
structure Phase where
  rop : Option BOp
  cnt : Option Nat
  arrivals : List Arrival
  /-- Parts of peers at pod scope. -/
  peers : List PodPart
  /-- Requests of a pod exchange have been sent to the peers. -/
  sent : Bool
  /-- The peers have heard what a pod exchange came to here (R81, R95). -/
  told : Bool
  /-- The exchange has run. -/
  exchanged : Bool
  exFail : Bool
  xbytes : Nat
  deriving DecidableEq, Repr

/-- Results that a phase slot keeps until superstep k + 4 completes (R92), with the pod time and CYCLE of the completion and
the stores that its arrivals knew (R23, R72). -/
structure Result where
  value : Word
  status : Word
  time : Nat
  cycle : Nat
  knows : List (Nat × Nat)
  deriving DecidableEq, Repr

/-- Whose arrival stalls: a strand's at BAR, with D and DS, or at BARA, with its ticket register, or one that the device
records on a participant's behalf (R94). -/
inductive StallKind where
  | bar (d ds : SReg)
  | bara (d : SReg)
  | forced
  deriving DecidableEq, Repr

/-- An arrival stalled at a fifth phase (R20). `chk` says that it stated its phase (R88). -/
structure Stalled where
  kind : StallKind
  lrank : Nat
  uid : Nat
  step : Nat
  chk : Bool
  rop : BOp
  cnt : Nat
  value : Word
  code : BitVec 16
  deriving DecidableEq, Repr

/-- A barrier unit of a team (R18, R20). Phases and results are keyed by superstep. -/
structure BarUnit where
  step : Nat
  phases : Table Phase
  results : Table Result
  stalled : List Stalled
  deriving DecidableEq, Repr

/-! ### Work in flight -/

/-- An outstanding copy (R132, R150). -/
structure CopyOp where
  who : Issuer
  dst : Shape
  src : Shape
  ctr : Word
  amount : Word
  /-- The combining operation of CPYA. -/
  op : Option ROp
  /-- The superstep of a deferred copy (R74). -/
  step : Option (Scope × Nat)
  /-- Source elements, in transfer order, as level memory held them at issue, or as a peer returned them (R73), and whether
  each is poisoned. -/
  snap : List (Nat × Bool)
  /-- STEP.POD and the pod time at issue, or as the exchange of a deferred copy begins, which a read in space 5 carries (R73,
  R74). -/
  seen : Nat
  seenAt : Nat
  /-- Bytes of the chunk under way that a peer has returned, by offset, with their poison. -/
  got : Table (Byte × Bool)
  /-- `snap` holds the whole source: false for a source in space 5 that the peer has not returned. -/
  fetched : Bool
  /-- A deferred copy that its home has accepted (R83). -/
  accepted : Bool
  /-- The next chunk (R66). -/
  chunk : Nat
  /-- Landings, or writes to a peer, that are still in flight. -/
  pending : Nat
  /-- The increment that has been posted behind bytes that are queued at the same port (R245). -/
  posted : Option Nat
  /-- A landing of it was diverted (R84). -/
  diverted : Bool
  /-- Byte ranges of its source that were changed before it was read (R74, R144). -/
  touched : List (Nat × Nat)
  /-- Bytes of it that BYTES has counted (R262). -/
  counted : Nat
  deriving DecidableEq, Repr

/-- A copy that has been performed, until its counter has advanced or a FENCE of its issuer has returned: a change of its
source meanwhile still undoes its destination (R74, R144). `comb` says that it combined elements, and `inc` is its increment
in flight. -/
structure DoneCopy where
  id : Nat
  who : Issuer
  dst : Shape
  src : Shape
  comb : Bool
  inc : Option Nat
  deriving DecidableEq, Repr

/-- An AMO in flight (R76, R307). -/
structure AmoOp where
  who : Issuer
  ty : Fmt
  op : ROp
  a : Shape
  d : SReg
  v : Word
  deriving DecidableEq, Repr

/-- A fill of a scalar register on its way (R101, R186). -/
structure FillOp where
  who : Issuer
  d : SReg
  v : Word
  poisoned : Bool
  /-- The site that it comes from (R10). -/
  home : Nat
  deriving DecidableEq, Repr

/-- A pending RED (R77, R83, R351). -/
structure RedOp where
  who : Issuer
  d : Shape
  ty : Fmt
  op : ROp
  wd : Bool
  vec : Bool
  v : VReg
  step : Nat
  accepted : Bool
  /-- Peers' answers that it awaits (R63). -/
  pending : Nat
  deriving DecidableEq, Repr

/-- A space-5 request that awaits its answer (R63): the copy chunk, AMO, copy write or RED it serves. -/
inductive RemoteWait where
  | copyRead (copy chunk ofs : Nat)
  | copyWrite (copy chunk : Nat)
  | amo (amo : Nat)
  | red (reds : List Nat)
  deriving DecidableEq, Repr

/-- A deferred write or RED received from a peer for a pod exchange (R63, R74). -/
structure PeerWork where
  src : Nat
  quad : Nat
  /-- The traffic class it came in on (R238). -/
  cls : Nat
  tag : Nat
  team : Nat
  hnd : BitVec 32
  ofs : Nat
  kind : RemoteKind
  deriving DecidableEq, Repr

/-! ### Launching (R152 to R161) -/

/-- States of a hardware queue slot (R155). -/
inductive SlotState where
  | free | load | idle | ready | active | wait
  deriving DecidableEq, Repr

/-- A hardware queue slot (R155, R156). -/
structure QSlot where
  st : SlotState
  /-- The user queue it holds. -/
  queue : Nat
  prio : Nat
  /-- Pod time at which it was mapped. -/
  mapped : Nat
  /-- Pod time since which it is idle. -/
  idleSince : Nat
  /-- Its quantum has expired. -/
  expired : Bool
  deriving DecidableEq, Repr

/-- A rung queue that no slot holds (R154). -/
structure Pending where
  queue : Nat
  prio : Nat
  deriving DecidableEq, Repr

/-- A packet that waits for tiles or, as a gang member with its tiles, for TICK (R159, R161). -/
structure Launch where
  slot : Nat
  queue : Nat
  packet : BitVec 1024
  prio : Nat
  /-- Tiles that a gang member holds, by local rank, and since which pod time (R262). -/
  tiles : Option (List Nat)
  since : Nat
  deriving DecidableEq, Repr

/-- What a package has heard of a gang (R161): PEERUID by member whose READY came, and an ABORT. -/
structure Gang where
  heard : Table Word
  aborted : Bool
  deriving DecidableEq, Repr

/-! ### Links (R196 to R210) -/

/-- States of a quad (R202). -/
inductive QuadState where
  | down | quiesce | drain | reconfigure | train | agree | map | up
  deriving DecidableEq, Repr

/-- The code of a quad state (R202). -/
def QuadState.code : QuadState → Nat
  | .down => 0 | .quiesce => 1 | .drain => 2 | .reconfigure => 3 | .train => 4 | .agree => 5 | .map => 6 | .up => 7

/-- A SerDes quad (R196, R202 to R207). -/
structure Quad where
  st : QuadState
  pers : Nat
  att : Nat
  turn : Bool
  txuse : BitVec 8
  rxuse : BitVec 8
  rate : Nat
  peerGen : BitVec 12
  peerAcc : BitVec 10
  peer : Word
  /-- Lanes that trained here, and the highest rate offered: what the next training is limited to (R205). -/
  good : BitVec 8
  offer : Nat
  /-- Measured link delay in ns (R209). -/
  delay : Nat
  /-- It retrains, and holds what was routed to it (R204). -/
  retraining : Bool
  /-- Its peer is a Solsor package (R205). -/
  solsor : Bool
  deriving DecidableEq, Repr

/-- Running totals of one class on one link (R210); `part` flits of the message at the head have been sent. -/
structure Credit where
  sent : BitVec 32
  freed : BitVec 32
  lastFreed : BitVec 32
  part : Nat
  deriving DecidableEq, Repr

/-- An entry of the UEC endpoint table (R199). -/
structure UecEntry where
  ip : Nat
  endpoint : Nat
  port : Nat
  key : Nat
  deriving DecidableEq, Repr

/-- A request over the pod that awaits its answer (R63, R203). -/
structure Remote where
  peer : Nat
  quad : Nat
  /-- The traffic class it went out on (R238). -/
  cls : Nat
  wait : RemoteWait
  deriving DecidableEq, Repr

/-! ### Virga (R211 to R237) -/

/-- How a graph stands (R218, R220). -/
inductive GraphState where
  | loading | loaded | failed
  deriving DecidableEq, Repr

/-- A graph that the package holds (R218). -/
structure Graph where
  who : Issuer
  st : GraphState
  /-- Where the image lies: an address word of the issuer (R29). -/
  addr : Word
  image : List Byte
  ctr : Word
  amount : Word
  cause : Nat
  node : Nat
  /-- The next run number. -/
  next : Nat
  /-- Runs of it that have started, for the matching of R225. -/
  count : Nat
  /-- Bytes changed while it loads, by virtual key (R218). -/
  touched : List (Nat × Nat)
  deriving DecidableEq, Repr

/-- How a node of a run stands (R221). -/
inductive NodeState where
  | waiting | ready | active | done | failed
  deriving DecidableEq, Repr

/-- A node of a run: its predecessors left, its state, the values it has read with their poison, what shards have sent it,
whether it has sent what it owes and begun to hand over its outputs, the chunks of them that it has handed over (R66), the
increment of a SIGNAL, and the quads that carried its messages with the peers they went to. -/
structure NodeRun where
  left : Nat
  st : NodeState
  src : List (Nat × Bool)
  inbox : List Chunk
  sent : Bool
  written : Bool
  wrote : Nat
  inc : Option Nat
  quads : List (Nat × Nat)
  deriving DecidableEq, Repr

/-- How a run stands (R220). -/
inductive RunState where
  | waiting | running | complete | failed
  deriving DecidableEq, Repr

/-- A run of a graph (R219 to R222). `ranges` are its bound ranges, `slots` entries of the table: first virtual key, length,
and whether it writes there; `room` says that it has waited for room in the table (R235). `reads` are the virtual keys that
its nodes read, and `touched` those of them that other work has changed since issue (R223; log 11). `addr` and `moved` tell of
the first failure: the operand's address word and the completed bytes (R171). -/
structure Run where
  g : Nat
  run : Nat
  /-- Its position among the runs of its graph tag (R225). -/
  nth : Nat
  who : Issuer
  binds : List (BitVec 128)
  st : RunState
  intlk : Bool
  miss : Bool
  cause : Nat
  node : Nat
  peer : Nat
  drops : Nat
  nodes : List NodeRun
  addr : Word
  moved : Nat
  /-- A landing of it was diverted (R193). -/
  diverted : Bool
  ranges : List (Nat × Nat × Bool)
  slots : Nat
  room : Bool
  reads : List (Nat × Nat)
  touched : List (Nat × Nat)
  deriving DecidableEq, Repr

/-- A COLL.STAT on its way (R220). -/
structure StatOp where
  who : Issuer
  d : SReg
  ticket : Word
  deriving DecidableEq, Repr

/-! ### Tiles (R241 to R258) -/

/-- Debug states of a tile (R243). -/
inductive DbgState where
  | running | halting | halted | stepping
  deriving DecidableEq, Repr

/-- The code of a debug state (R243). -/
def DbgState.code : DbgState → Nat
  | .running => 0 | .halting => 1 | .halted => 2 | .stepping => 3

/-- A strand whose match waits for the shadow slot, or is being served (R253). -/
structure PcMatch where
  slot : Nat
  entry : Nat
  pc : Word
  deriving DecidableEq, Repr

/-- A physical tile (R14, R47, R177, R242 to R258). -/
structure Tile where
  /-- The team and local rank it serves. -/
  owner : Option (Nat × Nat)
  /-- Allocated to a gang member that has not started. -/
  reserved : Bool
  fenced : Bool
  loadg : Word
  pass : Bool
  bkh : Bool
  uhalt : Bool
  stslot : Nat
  dbg : DbgState
  why : Nat
  wphit : BitVec 4
  group : Nat
  haltgrp : Word
  wp : Vector Word 4
  pcmt : Vector Word 16
  pcmh : Word
  trctl : Word
  trpos : Word
  /-- Landings and increments queued at the halted port, in order of arrival, by their numbers (R245). -/
  port : List Nat
  /-- The match being served, and those that wait (R253). -/
  serving : Option PcMatch
  matches_ : List PcMatch
  /-- Slots whose matched instruction now issues without being matched again (R253). -/
  skip : List Nat
  /-- The slot being stepped (R255), and whether its instruction has issued. -/
  stepSlot : Option Nat
  stepped : Bool
  /-- Trace records in the encoder's buffer, and how many were dropped since one last fitted (R258). -/
  trbuf : List Nat
  trdrop : Nat
  deriving DecidableEq, Repr

/-- An item of a snapshot bank (R259): block kind, which block, and its words. -/
structure SnapItem where
  block : Nat
  index : Nat
  words : List Nat
  deriving DecidableEq, Repr

/-! ### The package -/

/-- What leaves the package (log 1): messages over the quad that each takes (R199), and what Lycel and the host receive.
Requests and answers carry their traffic class (R238), and an answer the site that it comes from (R10). -/
inductive Msg where
  | request (peer quad cls tag : Nat) (team : Nat) (hnd : BitVec 32) (ofs : Nat) (kind : RemoteKind)
  | answer (peer quad cls tag team home : Nat) (a : RemoteAns)
  | podArrival (peer quad team step : Nat) (a : Arrival) (rop : Option BOp)
  | podSent (peer quad team step : Nat) (tags : List Nat)
  | podDone (peer quad team step : Nat) (failed : Bool) (xbytes : Nat)
  | gangReady (peer quad team gang pkg : Nat) (uid : Word)
  | gangAbort (peer quad team gang : Nat)
  | retire (quad : Nat)
  | agreement (quad : Nat) (r : BitVec 128)
  | beacon (quad : Nat) (origin time : Word)
  | totals (link cls : Nat) (sent freed : BitVec 32)
  | resend (link : Nat)
  | haltTrigger (acc quad group : Nat)
  | haltResume (acc quad : Nat) (mask : BitVec 32)
  | chunk (far : Bool) (peer quad : Nat) (c : Chunk)
  | mismatch (far : Bool) (peer quad : Nat) (r : VirgaReport)
  | failure (far : Bool) (peer quad : Nat) (r : VirgaReport)
  | mgmt (bytes : List Byte)
  | hostData (bytes : List Byte)
  deriving DecidableEq, Repr

/-- How far the package is (R272). -/
inductive Boot where
  | reset (failed : Nat)
  | booted
  | off
  deriving DecidableEq, Repr

/-- A personality switch under way (R202): its quad and all the quads that it acts on, the new personality, the drain timeout in
ns, and the pod time at which DRAIN began. -/
structure QOrder where
  quad : Nat
  quads : List Nat
  newp : Nat
  dto : Nat
  since : Nat
  deriving DecidableEq, Repr

/-- What an exchange overwrote in this package's HBM (R24, R73): the team and superstep, whether it was a pod exchange, the pod
time at which it ran, and each byte of the granules concerned as it stood before, with its poison. -/
structure Kept where
  team : Nat
  step : Nat
  pod : Bool
  time : Nat
  cells : Table (Byte × Bool)
  deriving DecidableEq, Repr

/-- Which agent moves (log 2). -/
inductive Turn where
  | issue (tile slot : Nat)
  | event (i : Instr)
  | advance (cycles ns : Nat)
  deriving DecidableEq, Repr

/-- The state of the package. -/
structure State where
  /-- Committed memory (R71), and every tile store. -/
  mem : Memory
  /-- Bytes of level memory whose live value differs, each with the barrier units whose AMOs have reached it (R71). -/
  live : Table (Byte × List Nat)
  /-- Poisoned granules, rising (R67). -/
  poison : List Nat
  /-- Strands by 16·tile + slot, the shadow slot being 8. -/
  strands : Table Strand
  /-- Vtiles by 1,024·TEAMID + local rank. -/
  vtiles : Table Vtile
  /-- Teams by TEAMID. -/
  teams : Table Team
  /-- Barrier units by (8·TEAMID + scope)·1,024 + unit; the unit at tile scope is the local rank. -/
  units : Table BarUnit
  /-- Tiles by number; one that is not listed stands as at reset. -/
  tiles : Table Tile
  copies : Table CopyOp
  doneCopies : List DoneCopy
  landings : Table Landing
  incs : Table Increment
  amos : Table AmoOp
  fills : Table FillOp
  reds : Table RedOp
  stats : Table StatOp
  remotes : Table Remote
  peerWork : List PeerWork
  /-- What exchanges overwrote in HBM that peers may still read, newest last (R73). -/
  kept : List Kept
  graphs : Table Graph
  runs : Table Run
  staging : List Chunk
  /-- Reports, true for a mismatch, about nodes that have not started here (R225, R236). -/
  vreports : List (VirgaReport × Bool)
  /-- Fenced groups, whose SRAM no operation reaches (R178). -/
  fencedGroups : List Nat
  /-- Hardware queue slots that are not FREE. -/
  qslots : Table QSlot
  pending : List Pending
  /-- Completion records that wait for a CXL link that retrains (R160, R204): queue, packet and bytes. -/
  doneRecs : List (Nat × BitVec 1024 × List Byte)
  launches : List Launch
  /-- Gangs heard of, by GANG (R161). -/
  gangs : Table Gang
  /-- The slot last served at each PRIO (R157). -/
  served : Table Nat
  quads : Table Quad
  credits : Table Credit
  /-- Flits of a packet that have crossed each link of its way between dies, by its number or key (R210; log 13). -/
  hops : Table (List Nat)
  /-- Requests of peers on their way from an edge die to their home (R63, R210). -/
  inbound : List RemoteReq
  /-- B_c of each class (R210). -/
  bufs : Vector Nat 4
  routes : Table (BitVec 64)
  uec : Table UecEntry
  /-- Cycles of the package's clock, nominally 3.0 GHz (R5), and CYCLE of each die, each with the part of a cycle that its clock
  has earned, in units of 10⁻⁶ (R273). -/
  cycle : Word
  cycleFrac : Nat
  dieCycle : Vector Word 4
  dieFrac : Vector Nat 4
  podtime : Word
  ptstat : Bool
  /-- The newest beacon's origin, the PODTIME at which it came, where one has come since boot, the correction that PODTIME still
  has to make in ns, and the part of a nanosecond that it has earned, in units of 10⁻⁶ ns (R209). -/
  beacon : Word
  beaconAt : Option Nat
  slew : Int
  slewFrac : Nat
  /-- The configuration image, and the maps of spare and of lost sites as boot applied them (R14, R271). -/
  image : Config.Image
  spare : Vector (Option (Fin 16)) 64
  lostSite : Vector (Option (Fin 16)) 64
  qdbase : Word
  qdlen : Nat
  dtbase : Word
  dlbase : Word
  vacateReg : Word
  /-- Request numbers of the order in progress: from the first to below the second (R179). -/
  orderReqs : Nat × Nat
  acolor : Table (BitVec 6)
  quiesce : Word
  /-- Pod time at which the drain of QUIESCE began (R195). -/
  quiesceSince : Nat
  qctl : Word
  /-- The order that QCTL started, until it ends (R202). -/
  qorder : Option QOrder
  portw : Word
  cxlwin : Vector Word 4
  hgcfg : Word
  errc : Vector Word 11
  snapreq : Word
  fsnap : Word
  pwrcap : Word
  snapSeq : Nat
  snaps : List SnapItem
  /-- Clock of each die in MHz and its thermal throttle (R273, R274). -/
  clocks : Vector Nat 4
  hot : Vector Bool 4
  boot : Boot
  lycelLog : List Nat
  /-- Messages at the ports, in the order in which they leave (R238), and those that have left. -/
  outbox : List Msg
  gone : List Msg
  /-- Numbers given out: strand names, engine work, requests (log 12). -/
  fresh : Nat
  agenda : List Turn
  /-- The tile that issues when the agenda is empty, whether its engine port is next, and the strand that has issued on its
  main port in this cycle (R164). -/
  focus : Nat
  enginePort : Bool
  mainUid : Option Nat
  /-- Where the strand stands whose instruction runs: tile and slot. -/
  at_ : Nat × Nat
  /-- An access to a physical address that does not exist (log 19). -/
  absent : Option Nat
  deriving DecidableEq, Repr

/-- A tile at reset (R242 to R256; log 6). -/
def Tile.initial : Tile where
  owner := none
  reserved := false
  fenced := false
  loadg := 0
  pass := false
  bkh := false
  uhalt := false
  stslot := 0
  dbg := .running
  why := 0
  wphit := 0
  group := 0
  haltgrp := 0
  wp := Vector.replicate 4 0
  pcmt := Vector.replicate 16 0
  pcmh := 0
  trctl := 0
  trpos := 0
  port := []
  serving := none
  matches_ := []
  skip := []
  stepSlot := none
  stepped := false
  trbuf := []
  trdrop := 0

/-- A quad at reset (R202, R207): DOWN, with a personality. -/
def Quad.initial (pers : Nat) : Quad where
  st := .down
  pers := pers
  att := 0
  turn := false
  txuse := 0
  rxuse := 0
  rate := 0
  peerGen := 0
  peerAcc := 0
  peer := 0
  good := 0xFF
  offer := 15
  delay := 0
  retraining := false
  solsor := false

/-- The bits of PORTW that are not reserved (R239). -/
def portwMask : Word := 0xFFFFFFFF

/-- The bits of a CXLWIN register that are not reserved (R200). -/
def cxlwinMask : Word := 0xC00FFFFFFFFFF03F

/-- The package right after reset: every register at the value the manual gives it, and at the value that log 5, 6 or 7
names where it gives none; no team, no work, Lycel about to boot (R272). -/
def State.reset : State where
  mem := []
  live := []
  poison := []
  strands := []
  vtiles := []
  teams := []
  units := []
  tiles := []
  copies := []
  doneCopies := []
  landings := []
  incs := []
  amos := []
  fills := []
  reds := []
  stats := []
  remotes := []
  peerWork := []
  kept := []
  graphs := []
  runs := []
  staging := []
  vreports := []
  fencedGroups := []
  qslots := []
  pending := []
  doneRecs := []
  launches := []
  gangs := []
  served := []
  quads := []
  credits := []
  hops := []
  inbound := []
  bufs := Vector.ofFn fun i => Config.flitBuffers i.val
  routes := []
  uec := []
  cycle := 0
  cycleFrac := 0
  dieCycle := Vector.replicate 4 0
  dieFrac := Vector.replicate 4 0
  podtime := 0
  ptstat := false
  beacon := 0
  beaconAt := none
  slew := 0
  slewFrac := 0
  image := Config.image
  spare := Vector.replicate 64 none
  lostSite := Vector.replicate 64 none
  qdbase := 0
  qdlen := 0
  dtbase := 0
  dlbase := 0
  vacateReg := 0
  orderReqs := (0, 0)
  acolor := []
  quiesce := 0
  quiesceSince := 0
  qctl := 0
  qorder := none
  portw := Config.image.portw &&& portwMask
  cxlwin := Config.image.cxlwin.map (· &&& cxlwinMask)
  hgcfg := 0
  errc := Vector.replicate 11 0
  snapreq := 0
  fsnap := 0
  pwrcap := 0
  snapSeq := 0
  snaps := []
  clocks := Vector.replicate 4 3000
  hot := Vector.replicate 4 false
  boot := .reset 0
  lycelLog := []
  outbox := []
  gone := []
  fresh := 1
  agenda := []
  focus := 0
  enginePort := false
  mainUid := none
  at_ := (0, 0)
  absent := none

end Sys2Proof.Machine
end

