-- ==== Sys2Proof/Machine/Access.lean ====
section
/-! DEFINITION. Reading and changing the parts of the state: strands, vtiles, teams, units, tiles, and the memories with
their live values and poison marks. -/

namespace Sys2Proof.Machine

/-- The outcome of a step of this machine. -/
abbrev Out := Host.Outcome State Fault Refusal

/-- What keeps an instruction from taking effect: a precise fault with ADDR and INFO (R171), or a wait. -/
inductive Stop where
  | fault (cause : Nat) (addr info : Word)
  | wait (w : Wait)
  deriving DecidableEq, Repr

/-- A computation that may stop. -/
abbrev Do := Except Stop

/-- A precise fault that names no operand. -/
def raise {α : Type} (cause : Nat) : Do α := .error (.fault cause 0 0)

/-- A precise fault with the address word or offset of its operand (R171). -/
def raiseAt {α : Type} (cause : Nat) (addr : Word) : Do α := .error (.fault cause addr 0)

/-- Faults with a cause unless a condition holds. -/
def need (c : Bool) (cause : Nat) (addr : Word := 0) : Do Unit := if c then .ok () else raiseAt cause addr

/-! ### The launch packet's fields (R158) -/

/-- Bits of a team's launch packet. -/
def Team.f (t : Team) (lo len : Nat) : Nat := field t.packet.toNat lo len
def Team.nP (t : Team) : Nat := t.f 64 10 + 1
def Team.nD (t : Team) : Nat := t.f 74 2 + 1
def Team.nG (t : Team) : Nat := t.f 76 4 + 1
def Team.nT (t : Team) : Nat := t.f 80 4 + 1
def Team.pc (t : Team) : Nat := t.f 86 10
def Team.htlen (t : Team) : Nat := t.f 96 20
def Team.asid (t : Team) : Nat := t.f 116 12
def Team.htbase (t : Team) : Nat := t.f 128 64
def Team.codeh (t : Team) : Nat := t.f 224 32
def Team.nsave (t : Team) : Nat := t.f 256 8
def Team.pow (t : Team) : Bool := t.f 54 1 == 1
def Team.pusht (t : Team) : Nat := t.f 32 16
def Team.teamid (t : Team) : Nat := t.f 16 16
/-- D·G·T, the vtiles of the team in this package (R25). -/
def Team.size (t : Team) : Nat := t.nD * t.nG * t.nT
/-- Canonical rank of a local rank (R25). -/
def Team.rank (t : Team) (lr : Nat) : Nat := t.pc * t.size + lr

/-- Rounds up to a 4 KiB boundary (R399). -/
def up4k (n : Nat) : Nat := (n + 4095) / 4096 * 4096

/-- Records of the queues and of the park pool (R158). -/
def Team.vqCap (t : Team) : Nat := 2 ^ (t.f 276 4 + 4)
def Team.gqCap (t : Team) : Nat := 2 ^ (t.f 272 4 + 4)
def Team.pqCap (t : Team) : Nat := 2 ^ (t.f 268 4 + 4)
def Team.ppCap (t : Team) : Nat := 2 ^ (t.f 264 4 + 4)
def Team.fqCap (t : Team) : Nat := 2 ^ (t.f 284 4 + 4)
def Team.imbCap (t : Team) : Nat := 2 ^ (t.f 280 4 + 4)

/-- Byte of the team area where the imbalance ring begins (R399). -/
def Team.oImb (t : Team) : Nat := up4k (128 + 64 * t.fqCap)
/-- Where the vtile queues begin. -/
def Team.oVq (t : Team) : Nat := t.oImb + if t.f 50 4 = 0 then 0 else up4k (64 * t.imbCap)
def Team.oGq (t : Team) : Nat := t.oVq + t.size * up4k (64 * t.vqCap)
def Team.oPq (t : Team) : Nat := t.oGq + t.nD * t.nG * up4k (64 * t.gqCap)
def Team.oPp (t : Team) : Nat := t.oPq + up4k (64 * t.pqCap)
def Team.oSave (t : Team) : Nat := t.oPp + up4k (64 * t.ppCap)
/-- Size of one save area (R183). -/
def Team.saveSize (t : Team) : Nat := 659456 + 9728 * t.nsave
/-- End of the team area, the padding after its last part left out (R399). -/
def Team.areaEnd (t : Team) : Nat := t.oSave + (t.size - 1) * up4k t.saveSize + t.saveSize
/-- HBM address of the save area of a vtile (R183). -/
def Team.img (t : Team) (lr : Nat) : Nat := t.area + t.oSave + lr * up4k t.saveSize
/-- HBM address of a save slot (R183). -/
def Team.slotAddr (t : Team) (lr n : Nat) : Nat := t.img lr + 659456 + 9728 * n

/-! ### Scope units (R17, R25) -/

/-- The unit of a scope in which a local rank lies. -/
def Team.unitOf (t : Team) (l : Scope) (lr : Nat) : Nat :=
  match l with
  | .tile => lr
  | .grp => lr / t.nT
  | .die => lr / (t.nT * t.nG)
  | .pkg | .pod => 0

/-- The local ranks of a unit. -/
def Team.members (t : Team) (l : Scope) (u : Nat) : List Nat :=
  match l with
  | .tile => [u]
  | .grp => interval (u * t.nT) t.nT
  | .die => interval (u * (t.nT * t.nG)) (t.nT * t.nG)
  | .pkg | .pod => List.range t.size

/-- The unit numbers of a scope that a team has in this package. -/
def Team.unitsOf (t : Team) (l : Scope) : List Nat :=
  match l with
  | .tile => List.range t.size
  | .grp => List.range (t.nD * t.nG)
  | .die => List.range t.nD
  | .pkg | .pod => [0]

/-! ### Keys -/

/-- The key of a strand slot. -/
def strandKey (tile slot : Nat) : Nat := 16 * tile + slot
/-- The key of a vtile. -/
def vtileKey (team lr : Nat) : Nat := 1024 * team + lr
/-- The key of a barrier unit. -/
def unitKey (team : Nat) (l : Scope) (u : Nat) : Nat := (8 * team + Scope.code l) * 1024 + u

/-! ### Messages (R199, R210, R238) -/

/-- The traffic class of a message (R238). -/
def Msg.cls : Msg → Nat
  | .request _ _ c _ _ _ _ _ | .answer _ _ c _ _ _ _ => c
  | .chunk _ _ _ _ | .mismatch _ _ _ _ | .failure _ _ _ _ => 2
  | _ => 0

/-- The quad that a message takes (R199). -/
def Msg.port : Msg → Option Nat
  | .request _ q _ _ _ _ _ _ | .answer _ q _ _ _ _ _ | .podArrival _ q _ _ _ _ | .podSent _ q _ _ _ | .podDone _ q _ _ _ _
  | .gangReady _ q _ _ _ _ | .gangAbort _ q _ _
  | .retire q | .agreement q _ | .beacon q _ _ | .totals q _ _ _ | .resend q | .haltTrigger _ q _ | .haltResume _ q _
  | .chunk _ _ q _ | .mismatch _ _ q _ | .failure _ _ q _ => some q
  | .mgmt _ | .hostData _ => none

/-- Control messages of class 0, which go ahead of every data flit of their port (R238). DESIGN CHOICE: R238 names no class for
agreement records and resend requests; they count as control of class 0 (log 36). -/
def Msg.control : Msg → Bool
  | .podArrival _ _ _ _ _ _ | .podSent _ _ _ _ _ | .podDone _ _ _ _ _ _ | .gangReady _ _ _ _ _ _ | .gangAbort _ _ _ _ | .retire _ | .agreement _ _ | .beacon _ _ _
  | .totals _ _ _ _ | .resend _ | .haltTrigger _ _ _ | .haltResume _ _ _ => true
  | _ => false

/-- Bytes of data that a message carries beside its head (log 13). -/
def Msg.bytes : Msg → Nat
  | .request _ _ _ _ _ _ _ k => match k with
    | .write _ _ _ cs _ => cs.length
    | .combine _ _ _ _ ty es _ => es.length * (ty.bits / 8)
    | .red _ _ _ _ ty wd es => es.length * if wd then 8 else ty.bits / 8
    | _ => 0
  | .answer _ _ _ _ _ _ a => match a with
    | .data bs => bs.length
    | _ => 0
  | .chunk _ _ _ c => 8 * c.elems.length
  | _ => 0

/-- Flits of 64 bytes that a message takes: one for its head, and its data. Control messages travel in control flits, which
take no buffer (R210; log 13). -/
def Msg.flits (m : Msg) : Nat :=
  match m with
  | .request _ _ _ _ _ _ _ _ | .answer _ _ _ _ _ _ _ | .chunk _ _ _ _ => 1 + (m.bytes + 63) / 64
  | _ => 0

/-- Messages that a link sends while it trains (R205). -/
def Msg.trains : Msg → Bool
  | .agreement _ _ => true
  | _ => false

/-- The accelerator that a control message of a team or of the pod, or a report of Virga to a package of the pod, goes to, for
which any quad of its routing mask serves (R199). -/
def Msg.acc : Msg → Option Nat
  | .podArrival p _ team _ _ _ | .podSent p _ team _ _ | .podDone p _ team _ _ _ | .gangReady p _ team _ _ _
  | .gangAbort p _ team _ => some (Config.accOf team p)
  | .haltTrigger acc _ _ | .haltResume acc _ _ => some acc
  | .mismatch far p _ r | .failure far p _ r => if far then none else some (Config.accOf r.team p)
  | _ => none

/-- Such a message over another quad. -/
def Msg.over (q : Nat) : Msg → Msg
  | .podArrival p _ team k a rop => .podArrival p q team k a rop
  | .podSent p _ team k tags => .podSent p q team k tags
  | .podDone p _ team k f n => .podDone p q team k f n
  | .gangReady p _ team g pkg uid => .gangReady p q team g pkg uid
  | .gangAbort p _ team g => .gangAbort p q team g
  | .haltTrigger acc _ g => .haltTrigger acc q g
  | .haltResume acc _ m => .haltResume acc q m
  | .mismatch far p _ r => .mismatch far p q r
  | .failure far p _ r => .failure far p q r
  | m => m

/-- Puts a control message before the first data message that waits at its port. -/
def Msg.ahead (m : Msg) : List Msg → List Msg
  | [] => [m]
  | x :: r => if x.port = m.port ∧ x.control = false then m :: x :: r else x :: m.ahead r

/-! ### Ways between dies (R10) -/

/-- Sites: groups 0 to 63, the memories of die d as 64 + d, and edge die e as 68 + e. -/
def tileSite (tile : Nat) : Nat := tile / 16
def edgeSite (q : Nat) : Nat := 68 + q / 32

/-- The place of a site: dies 0 to 3, and edge dies as 4 and 5. -/
def sitePlace (x : Nat) : Nat := if x < 64 then x / 16 else x - 64

/-- The places on the way from one place to another, both included (R10). Dies 0 and 1 stand in one row of the square and dies 2
and 3 in the other, die 0 across from die 2. PRESUMED: R10 numbers no corner (log 7). -/
def placePath (a b : Nat) : List Nat :=
  if a = b then [a]
  else if a < 4 then
    if b < 4 then if a ^^^ b = 3 then [a, min (a ^^^ 1) (a ^^^ 2), b] else [a, b]
    else if a / 2 + 4 = b then [a, b] else [a, a ^^^ 2, b]
  else if b < 4 then if b / 2 + 4 = a then [a, b] else [a, b ^^^ 2, b]
  else [a, 2 * (a - 4), 2 * (b - 4), b]

/-- The places of a packet from one site to another; within a group it enters no fabric of the package. -/
def sitePath (x y : Nat) : List Nat := if x = y ∧ x < 64 then [] else placePath (sitePlace x) (sitePlace y)

/-- The die edges and edge-die links (R10). -/
def dieLinks : List (Nat × Nat) := [(0, 1), (2, 3), (0, 2), (1, 3), (0, 4), (1, 4), (2, 5), (3, 5)]

/-- The number of a link in the direction from `a` to `b`: 64 to 71 towards the higher place, 72 to 79 back. -/
def linkNo (a b : Nat) : Nat := if a < b then 64 + dieLinks.idxOf (a, b) else 72 + dieLinks.idxOf (b, a)

/-- The links of a way. -/
def pathLinks : List Nat → List Nat
  | a :: b :: r => linkNo a b :: pathLinks (b :: r)
  | _ => []

/-! Keys under which the progress of a packet stands that bears no number of the model (log 13): a peer's request and its answer by
peer and tag, the image and the log of a vtile on their way, and the trace records of a tile. -/

def reqHop (src tag : Nat) : Nat := 2 ^ 80 * (2 * src + 1) + tag
def ansHop (peer tag : Nat) : Nat := 2 ^ 80 * (2 * peer + 2) + tag
def imageHop (k : Nat) : Nat := 2 ^ 100 + k
def logHop (k : Nat) : Nat := 2 ^ 101 + k
def traceHop (tile : Nat) : Nat := 2 ^ 102 + tile

/-- The places whose routers hold part of a packet that has entered the first of them: flits have crossed the link before the
place, and not all of them the link behind it. `ds` tells how many have crossed each link (R194). -/
def routersOf (flits : Nat) : List Nat → List Nat → List Nat
  | a :: b :: r, ds =>
    let d := ds.headD 0
    (if d < flits then [a] else []) ++ if d = 0 then [] else routersOf flits (b :: r) ds.tail
  | ps, _ => ps

namespace State

/-- The strand whose instruction runs. -/
def strand? (s : State) : Option Strand := lookup (strandKey s.at_.1 s.at_.2) s.strands

/-- A strand by its place. -/
def strandAt (s : State) (tile slot : Nat) : Option Strand := lookup (strandKey tile slot) s.strands

/-- Puts a strand at a place. -/
def putAt (s : State) (tile slot : Nat) (k : Strand) : State :=
  { s with strands := insertAt (strandKey tile slot) k s.strands }

/-- Puts the strand whose instruction runs. -/
def put (s : State) (k : Strand) : State := s.putAt s.at_.1 s.at_.2 k

/-- Frees a strand slot. -/
def dropAt (s : State) (tile slot : Nat) : State := { s with strands := eraseAt (strandKey tile slot) s.strands }

def team? (s : State) (id : Nat) : Option Team := lookup id s.teams
def putTeam (s : State) (id : Nat) (t : Team) : State := { s with teams := insertAt id t s.teams }
def onTeam (s : State) (id : Nat) (f : Team → Team) : State :=
  match s.team? id with
  | some t => s.putTeam id (f t)
  | none => s

def vtile? (s : State) (team lr : Nat) : Option Vtile := lookup (vtileKey team lr) s.vtiles
def putVtile (s : State) (team lr : Nat) (v : Vtile) : State :=
  { s with vtiles := insertAt (vtileKey team lr) v s.vtiles }
def onVtile (s : State) (team lr : Nat) (f : Vtile → Vtile) : State :=
  match s.vtile? team lr with
  | some v => s.putVtile team lr (f v)
  | none => s

/-- A tile; one that is not listed stands as at reset. -/
def tile (s : State) (t : Nat) : Tile := (lookup t s.tiles).getD Tile.initial
def putTile (s : State) (t : Nat) (x : Tile) : State := { s with tiles := insertAt t x s.tiles }
def onTile (s : State) (t : Nat) (f : Tile → Tile) : State := s.putTile t (f (s.tile t))

/-- CYCLE on a tile: its die's count (R273, R294). -/
def cycleOf (s : State) (t : Nat) : Word := s.dieCycle.toList.getD (t / 256) 0

/-- A quad; one that is not listed stands as at reset. -/
def quad (s : State) (q : Nat) : Quad := (lookup q s.quads).getD (Quad.initial (s.image.map.toList.getD q 0).val)
def putQuad (s : State) (q : Nat) (x : Quad) : State := { s with quads := insertAt q x s.quads }

/-- A barrier unit; one that is not listed stands at superstep 0 with nothing recorded (R18). -/
def unit (s : State) (team : Nat) (l : Scope) (u : Nat) : BarUnit :=
  (lookup (unitKey team l u) s.units).getD ⟨0, [], [], []⟩
def putUnit (s : State) (team : Nat) (l : Scope) (u : Nat) (x : BarUnit) : State :=
  { s with units := insertAt (unitKey team l u) x s.units }

/-- STEP.L as a vtile reads it (R18). -/
def stepOf (s : State) (t : Team) (id : Nat) (l : Scope) (lr : Nat) : Nat := (s.unit id l (t.unitOf l lr)).step

/-- A number that nothing bears yet (log 12). -/
def number (s : State) : Nat × State := (s.fresh, { s with fresh := s.fresh + 1 })

/-- The free byte that a team draws `i` places on (R8, log 12): no other team bears on it. -/
def freeByteAt (s : State) (id i : Nat) : Byte :=
  match s.team? id with
  | some t => Config.freeByte id t.start (t.drawn + i)
  | none => Config.freeByte id 0 i

/-- The free word that a team draws `i` places on (R8, log 12). -/
def freeWordAt (s : State) (id i : Nat) : Word :=
  match s.team? id with
  | some t => Config.freeWord id t.start (t.drawn + i)
  | none => Config.freeWord id 0 i

/-- A team has drawn `n` free values. -/
def drew (s : State) (id n : Nat) : State := s.onTeam id fun t => { t with drawn := t.drawn + n }

/-- A free byte of a team. -/
def freeByte (s : State) (id : Nat) : Byte × State := (s.freeByteAt id 0, s.drew id 1)

/-- A free word of a team. -/
def freeWord (s : State) (id : Nat) : Word × State := (s.freeWordAt id 0, s.drew id 1)

/-- Sends a message out of the package: it waits at its port, and control of class 0 goes ahead of the data flits that wait
there (R238; log 1). -/
def send (s : State) (m : Msg) : State := { s with outbox := if m.control then m.ahead s.outbox else s.outbox ++ [m] }

/-- The totals of a class on a link (R210). -/
def credit (s : State) (link cls : Nat) : Credit := (lookup (8 * link + cls) s.credits).getD ⟨0, 0, 0, 0⟩

/-- Sends as many flits of a message as its class may, and says whether that was all of it (R210). -/
def spend (s : State) (link cls flits : Nat) : Bool × State :=
  let c := s.credit link cls
  let room := s.bufs.toList.getD cls 0 - (c.sent - c.lastFreed).toNat
  let need := flits - c.part
  let n := min need room
  let c' := { c with sent := c.sent + BitVec.ofNat 32 n, part := if need ≤ room then 0 else c.part + n }
  (need ≤ room, { s with credits := insertAt (8 * link + cls) c' s.credits })

/-- Flits of a packet cross the links of its way as far as their class may: `n` have come to the first link, and `ds` tells how
many have crossed each before. The far end of each link passes them on at once, and its buffers are empty again (R210). -/
def crossLinks (cls n : Nat) : List Nat → List Nat → State → List Nat × State
  | [], _, s => ([], s)
  | l :: ls, ds, s =>
    let c := s.credit l cls
    let d := ds.headD 0
    let k := min (s.bufs.toList.getD cls 0 - (c.sent - c.lastFreed).toNat) (n - d)
    let c := { c with sent := c.sent + BitVec.ofNat 32 k, freed := c.freed + BitVec.ofNat 32 k }
    let (r, s) := crossLinks cls (d + k) ls ds.tail { s with credits := insertAt (8 * l + cls) c s.credits }
    ((d + k) :: r, s)

/-- Moves packet `n` on its way between dies, and says whether all of it has come through (R210). -/
def cross (s : State) (n : Nat) (path : List Nat) (cls flits : Nat) : Bool × State :=
  match pathLinks path with
  | [] => (true, s)
  | ls =>
    let (ds, s) := crossLinks cls flits ls ((lookup n s.hops).getD []) s
    if flits ≤ ds.getLastD 0 then (true, { s with hops := eraseAt n s.hops }) else (false, { s with hops := insertAt n ds s.hops })

/-- A packet that has come through waits at the end of its way (R210). -/
def waitsThrough (s : State) (n : Nat) (path : List Nat) (flits : Nat) : State :=
  match pathLinks path with
  | [] => s
  | ls => { s with hops := insertAt n (ls.map fun _ => flits) s.hops }

/-- The places whose routers hold part of packet `n`, which is on its way (R194). -/
def routersAt (s : State) (n : Nat) (path : List Nat) (flits : Nat) : List Nat :=
  routersOf flits path ((lookup n s.hops).getD [])

/-- Moves packets that only serve together: their keys, ways and flits (R210). Says whether all of all of them has come through;
those that have wait for the others. -/
def crossAll (s : State) (cls : Nat) (ps : List (Nat × List Nat × Nat)) : Bool × State :=
  let r := ps.foldl (fun (r : List (Nat × List Nat × Nat) × State) p =>
    let x := r.2.cross p.1 p.2.1 cls p.2.2
    (if x.1 then r.1 ++ [p] else r.1, x.2)) ([], s)
  if r.1.length = ps.length then (true, r.2) else (false, r.1.foldl (fun s p => s.waitsThrough p.1 p.2.1 p.2.2) r.2)

/-- Whom a request that is under way serves. -/
def servedBy (s : State) : RemoteWait → List Issuer
  | .copyRead c _ _ | .copyWrite c _ => ((lookup c s.copies).map (·.who)).toList
  | .amo a => ((lookup a s.amos).map (·.who)).toList
  | .red ids => ids.filterMap fun i => (lookup i s.reds).map (·.who)

/-- The way of a message to the edge die of its quad: from the tile that a request serves, and from the home that answers. -/
def msgPath (s : State) : Msg → Nat × List Nat
  | .request _ q _ tag _ _ _ _ => (tag, match (lookup tag s.remotes).map fun r => s.servedBy r.wait with
    | some (w :: _) => sitePath (tileSite w.tile) (edgeSite q)
    | _ => [])
  | .answer p q _ tag _ home _ => (ansHop p tag, sitePath home (edgeSite q))
  | _ => (0, [])

/-- Messages leave their ports in order while their classes may send; one that may not holds back those of its class on its
port, and so does a quad that retrains, but for the records that its agreement needs (R204, R205, R210, R238). `stay` gathers what
stays, and `stuck` the ports and classes that are held back. -/
def leaveAll (stay : List Msg) (stuck : List (Nat × Nat)) : List Msg → State → State
  | [], s => { s with outbox := stay }
  | m :: r, s =>
    match m.port with
    | none => leaveAll stay stuck r { s with gone := s.gone ++ [m] }
    | some q =>
      if ((s.quad q).retraining ∧ m.trains = false) ∨ (m.flits ≠ 0 ∧ stuck.contains (q, m.cls)) then
        leaveAll (stay ++ [m]) stuck r s
      else
        let w := s.msgPath m
        let x := s.cross w.1 w.2 m.cls m.flits
        let p := if x.1 then x.2.spend q m.cls m.flits else x
        if p.1 then leaveAll stay stuck r { p.2 with gone := p.2.gone ++ [m] }
        else leaveAll (stay ++ [m]) ((q, m.cls) :: stuck) r (if x.1 then p.2.waitsThrough w.1 w.2 m.flits else p.2)

/-- Buffers of a link empty behind a message that has come in (R210). -/
def freeBuffers (s : State) (link cls flits : Nat) : State :=
  let c := s.credit link cls
  { s with credits := insertAt (8 * link + cls) { c with freed := c.freed + BitVec.ofNat 32 flits } s.credits }

/-- The UP quads of the routing mask of an accelerator (R199). -/
def upQuads (s : State) (acc : Nat) : List Nat :=
  let mask := (lookup acc s.routes).getD 0
  (List.range 64).filter fun q => mask.getLsbD q && (s.quad q).st == .up

/-- The UP quad that a message to an accelerator takes (R199). -/
def quadTo (s : State) (acc addr tile : Nat) : Option Nat :=
  let ups := s.upQuads acc
  ups[Config.routeHash addr tile % ups.length]?

/-- The UP quad that a message to a member package takes (R199). -/
def route (s : State) (team p addr tile : Nat) : Option Nat := s.quadTo (Config.accOf team p) addr tile

/-- Whether a message to a member package waits for a quad that retrains, with no other quad UP (R204). -/
def routeWaits (s : State) (team p : Nat) : Bool :=
  let mask := (lookup (Config.accOf team p) s.routes).getD 0
  let qs := (List.range 64).filter fun q => mask.getLsbD q
  qs.all (fun q => (s.quad q).st != .up) && qs.any fun q => (s.quad q).retraining

/-- Whether a quad still carries messages: it is UP, is being drained, or retrains and holds them (R202, R204). -/
def carries (s : State) (q : Nat) : Bool :=
  (s.quad q).retraining || match (s.quad q).st with
    | .up | .quiesce | .drain => true
    | _ => false

/-- A quad of a routing mask that retrains. -/
def retrainer (s : State) (acc : Nat) : Option Nat :=
  let mask := (lookup acc s.routes).getD 0
  (List.range 64).find? fun q => mask.getLsbD q && (s.quad q).retraining

/-- The quad that a control message without address and issuing tile takes: an UP quad, or one that retrains and holds it (R199,
R204). DESIGN CHOICE: the hash of R199 gets 0 for both (log 36). -/
def controlQuad (s : State) (acc : Nat) : Option Nat := (s.quadTo acc 0 0).or (s.retrainer acc)

/-- Quads go DOWN with messages waiting: requests and answers are lost, and a control message takes another quad of its mask where
there is one (R203, R204). -/
def loseAt (s : State) (qs : List Nat) : State :=
  let out (m : Msg) : Bool := m.port.any fun q => qs.contains q
  (s.outbox.filter out).foldl (fun s m => match m.acc.bind s.controlQuad with
    | some q => s.send (m.over q)
    | none => s) { s with outbox := s.outbox.filter fun m => !out m }

/-- Sends a control message to some member packages of a team, each over its UP quad, or one that retrains and holds it; a
package whose mask holds none gets nothing (R199, R204). -/
def tellPeers (s : State) (team : Nat) (ps : List Nat) (m : Nat → Nat → Msg) : State :=
  ps.foldl (fun s p => match s.controlQuad (Config.accOf team p) with
    | some q => s.send (m p q)
    | none => s) s

/-- Sends a control message to every accelerator of the pod that the routing table reaches (R199, R248, R249). -/
def tellPod (s : State) (m : Nat → Nat → Msg) : State :=
  s.routes.foldl (fun s r => match s.controlQuad r.1 with
    | some q => s.send (m r.1 q)
    | none => s) s

/-- Marks an access to a physical address that does not exist (log 19). -/
def miss (s : State) (key : Nat) : State := { s with absent := some (s.absent.getD key) }

/-! ### Memory -/

/-- Whether a granule is poisoned. -/
def poisoned (s : State) (g : Nat) : Bool := s.poison.contains g

/-- Whether any byte of a range lies in a poisoned granule (R68). -/
def anyPoison (s : State) (a n : Nat) : Bool := (granulesOf a n).any s.poisoned

/-- Adds to an error counter, saturating (R260). -/
def countErr (s : State) (i : Fin 11) (n : Nat) : State :=
  { s with errc := s.errc.set i (BitVec.ofNat 64 (min ((s.errc.get i).toNat + n) (2 ^ 64 - 1))) }

/-- Marks granules poisoned and counts those newly marked (R67, R260). -/
def markPoison (s : State) (gs : List Nat) : State :=
  let new := gs.eraseDups.filter (fun g => !s.poisoned g)
  { s.countErr 10 new.length with poison := new.foldl (fun l g => insertSorted g l) s.poison }

/-- Clears the marks of granules. -/
def clearPoison (s : State) (gs : List Nat) : State :=
  if s.poison = [] then s else { s with poison := s.poison.filter (fun g => !gs.contains g) }

/-- Stores clean bytes: a granule covered whole loses its poison mark (R69). -/
def write (s : State) (a : Nat) (bs : List Byte) : State :=
  ({ s with mem := s.mem.put a bs }).clearPoison (granulesWhole a bs.length)

/-- Stores bytes that came from a poisoned source: every granule they touch becomes poisoned (R68). -/
def writePoisoned (s : State) (a : Nat) (bs : List Byte) : State :=
  ({ s with mem := s.mem.put a bs }).markPoison (granulesOf a bs.length)

/-- Stores bytes that change no poison mark: an update in place (R68). -/
def update (s : State) (a : Nat) (bs : List Byte) : State := { s with mem := s.mem.put a bs }

/-- The granules that the union of some ranges covers whole (R69). -/
def granulesCovered (rs : List (Nat × Nat)) : List Nat :=
  (rs.flatMap fun r => granulesOf r.1 r.2).eraseDups.filter fun g =>
    (interval (64 * g) 64).all fun a => rs.any fun r => r.1 ≤ a && a < r.1 + r.2

/-- Stores clean pieces one after another: a later piece prevails, and granules that they cover whole lose their marks. -/
def writeAll (s : State) (ws : List (Nat × List Byte)) : State :=
  (ws.foldl (fun s w => s.update w.1 w.2) s).clearPoison (granulesCovered (ws.map fun w => (w.1, w.2.length)))

/-- Whether a vacate that a vtile waits for stops its strands and its MMAs now: on a halted tile it has no effect before the tile
runs again (R180, R246). -/
def stopsNow (s : State) (v : Vtile) : Bool := v.stopped.isSome && (v.div != .resident || (s.tile v.ptile).dbg == .running)

/-- The vtile that stands on a tile: its team, local rank and state. -/
def standing (s : State) (tile : Nat) : Option (Nat × Nat × Vtile) :=
  match (s.tile tile).owner with
  | none => none
  | some o =>
    match s.vtile? o.1 o.2 with
    | none => none
    | some v => if v.res && v.ptile == tile then some (o.1, o.2, v) else none

/-- Forgets live values of a range, so that they equal the committed ones. -/
def settleLive (s : State) (a n : Nat) : State :=
  if s.live = [] then s else { s with live := s.live.filter (fun c => !(a ≤ c.1 && c.1 < a + n)) }

/-- Writes into Committed() and Live() at once, outside any exchange (R95, R160, R172, R224). -/
def commit (s : State) (a : Nat) (bs : List Byte) : State := (s.write a bs).settleLive a bs.length

/-- A byte's live value (R71). -/
def liveByte (s : State) (a : Nat) : Byte := ((lookup a s.live).map (·.1)).getD (s.mem.byte a)

/-- The live value of a number of `n` bytes. -/
def liveNum (s : State) (a n : Nat) : Nat := ofBytes ((interval a n).map s.liveByte)

/-- Writes live values for some barrier units; a byte whose live value is the committed one is not listed, and one that is
keeps the units that reached it before (R71). -/
def writeLive (s : State) (units : List Nat) (a : Nat) : List Byte → State
  | [] => s
  | b :: bs =>
    let was := ((lookup a s.live).map (·.2)).getD []
    writeLive
      { s with live := if b = s.mem.byte a then eraseAt a s.live
          else insertAt a (b, was ++ units.filter fun u => !was.contains u) s.live } units (a + 1) bs

/-- Forgets which bytes the AMOs of a team have reached: its units run no exchange any more (R71). -/
def forgetUnits (s : State) (id : Nat) : State :=
  if s.live = [] then s
  else { s with live := s.live.map fun c => (c.1, c.2.1, c.2.2.filter fun u => u / 8192 != id) }

/-- HBM bytes at a physical address, as committed. -/
def hbm (s : State) (a n : Nat) : Nat := s.mem.num (hbmKey a) n

/-- Whether HBM has all bytes of a range. -/
def hbmHas (a n : Nat) : Bool := a + n ≤ hbmSize

/-- A direct device write of a number to HBM; where a table of system software lies beyond HBM nothing is written
(R7; log 19). -/
def hbmPut (s : State) (a n v : Nat) : State :=
  if hbmHas a n then s.commit (hbmKey a) (bytesOf n v) else s

/-- Where the tile store of a vtile stands: its tile, or its image (R191). -/
def storeBase (s : State) (id lr : Nat) : Nat :=
  match s.team? id, s.vtile? id lr with
  | some t, some v =>
    match v.div with
    | .diverting | .restoring => hbmKey (t.img lr)
    | _ => storeKey v.ptile 0
  | _, _ => storeKey 0 0

/-- New poison marks undo what chunks have covered of the granules so far (R69). -/
def uncover (s : State) (gs : List Nat) : State :=
  if s.vtiles.all fun c => c.2.cover.isEmpty then s
  else { s with vtiles := s.vtiles.map fun c => (c.1, { c.2 with
    cover := c.2.cover.filter fun x => !gs.contains (granule (s.storeBase (c.1 / 1024) (c.1 % 1024)) + x.g) }) }

/-- ORs bits into FSTAT of a vtile (R174); a diverted image shows them too. -/
def orFstat (s : State) (id lr : Nat) (bits : Word) : State :=
  match s.team? id, s.vtile? id lr with
  | some t, some v =>
    let w := v.fstat ||| bits
    let s := s.putVtile id lr { v with fstat := w }
    if v.div = .diverting then s.commit (hbmKey (t.img lr + 655368)) (bytesOf 8 w.toNat) else s
  | _, _ => s

/-- Clears bits of FSTAT. -/
def clearFstat (s : State) (id lr : Nat) (bits : Word) : State :=
  match s.team? id, s.vtile? id lr with
  | some t, some v =>
    let w := v.fstat &&& ~~~bits
    let s := s.putVtile id lr { v with fstat := w }
    if v.div = .diverting then s.commit (hbmKey (t.img lr + 655368)) (bytesOf 8 w.toNat) else s
  | _, _ => s

/-- Adds to an accounting counter, with its saturation (R262, R263). -/
def account (s : State) (id i n : Nat) : State :=
  s.onTeam id fun t =>
    if h : i < 21 then
      let v := t.acct[i] + n
      if v < 2 ^ 64 then { t with acct := t.acct.set i v }
      else { t with acct := t.acct.set i (2 ^ 64 - 1), acctsat := t.acctsat ||| BitVec.ofNat 21 (2 ^ i) }
    else t

/-- Counts work under the replay mark too (R264). `kind` is 18 for MACs, 19 for lane operations and 20 for bytes. -/
def accountReplay (s : State) (id i kind n : Nat) (replay : Bool) : State :=
  let s := s.account id i n
  if replay then s.account id kind n else s

end State

/-- FSTAT bits (R174). -/
def fstatSat : Word := 1
def fstatMixed : Word := 2
def fstatLost : Word := 16
def fstatCsat : Word := 32
def fstatAbs : Word := 64
def fstatHeld : Word := 128

/-! ### Failure summaries (R84) -/

/-- Bits of the failure summary. -/
def sumPsrc : Word := 0x80000000000
def sumGrev : Word := 0x40000000000
def sumRef : Word := 0x20000000000
def sumDlnk : Word := 0x10000000000
def sumLret : Word := 0x200000000000
def sumDiv : Word := 0x100000000000

/-- The summary with one more failed operation (R84). `ctr` is the operation's counter descriptor, with NOCTR set when it
names none; the first failure decides CVT, NOCTR and COFS, whose low three bits are zero. -/
def addFailure (w ctr bits : Word) : Word :=
  let n := w.toNat
  let count := field n 48 16
  let first := if count = 0 then
      setField (setField (setField n 0 19 (8 * field ctr.toNat 3 16)) 29 1 (field ctr.toNat 29 1))
      30 10 (field ctr.toNat 30 10) else n
  BitVec.ofNat 64 (setField first 48 16 (min (count + 1) 0xFFFF)) ||| bits

/-- A counter descriptor that names no counter (R143). -/
def noCtr : Word := 0x20000000

end Sys2Proof.Machine
end

