-- ==== Sys2Proof/Machine/Float.lean ====
section
/-! DEFINITION. Number formats and exact arithmetic (R104 to R124): exact values, one rounding by RNE, conversions, the
residue format, Exp2F and the correctly rounded functions. -/

namespace Sys2Proof

/-- The float formats, f64 with them (R105, R106). -/
inductive FKind where
  | f64 | f32 | bf16 | f16 | e5m2 | e4m3
  deriving DecidableEq, Repr

/-- Bits of the exponent field (R106). -/
def FKind.eb : FKind → Nat
  | .f64 => 11 | .f32 => 8 | .bf16 => 8 | .f16 => 5 | .e5m2 => 5 | .e4m3 => 4

/-- Bits of the significand field (R106). -/
def FKind.mb : FKind → Nat
  | .f64 => 52 | .f32 => 23 | .bf16 => 7 | .f16 => 10 | .e5m2 => 2 | .e4m3 => 3

/-- Exponent bias (R106). -/
def FKind.bias : FKind → Nat
  | .f64 => 1023 | .f32 => 127 | .bf16 => 127 | .f16 => 15 | .e5m2 => 15 | .e4m3 => 7

/-- Bits below the sign. -/
def FKind.mag (k : FKind) : Nat := k.eb + k.mb

/-- The canonical NaN (R107). -/
def FKind.nan : FKind → Nat
  | .f64 => 0x7FF8000000000000 | .f32 => 0x7FC00000 | .bf16 => 0x7FC0 | .f16 => 0x7E00 | .e5m2 => 0x7E | .e4m3 => 0x7F

/-- The magnitude pattern of infinity; for e4m3 of the largest finite value, 448 (R107, R108). -/
def FKind.top : FKind → Nat
  | .e4m3 => 0x7E
  | k => (2 ^ k.eb - 1) * 2 ^ k.mb

/-- A float value: a NaN, an infinity by sign, or a sign with the exact magnitude m·2^e. -/
inductive FVal where
  | nan
  | inf (neg : Bool)
  | fin (neg : Bool) (m : Nat) (e : Int)
  deriving DecidableEq, Repr

/-- The exponent of the smallest subnormal (R107). -/
def FKind.emin (k : FKind) : Int := 1 - (k.bias : Int) - (k.mb : Int)

/-- The value of an encoding (R106, R109). -/
def FKind.value (k : FKind) (bits : Nat) : FVal :=
  let neg := bit bits k.mag
  let e := field bits k.mb k.eb
  let m := field bits 0 k.mb
  if k = .e4m3 then
    if e = 15 ∧ m = 7 then .nan
    else if e = 0 then .fin neg m k.emin else .fin neg (2 ^ k.mb + m) (k.emin + e - 1)
  else if e = 2 ^ k.eb - 1 then (if m = 0 then .inf neg else .nan)
  else if e = 0 then .fin neg m k.emin
  else .fin neg (2 ^ k.mb + m) (k.emin + e - 1)

/-- Number of bits of a magnitude. -/
def bitLen (n : Nat) : Nat := if n = 0 then 0 else Nat.log2 n + 1

/-- Shifts right by `sh` and rounds to nearest, ties to even; `sticky` says that the exact value lies strictly above. -/
def rneShift (m sh : Nat) (sticky : Bool) : Nat :=
  let q := m / 2 ^ sh
  let r := m % 2 ^ sh
  let half := 2 ^ sh / 2
  if sh = 0 then q
  else if half < r ∨ (r = half ∧ (sticky ∨ q % 2 = 1)) then q + 1 else q

/-- RNE_F of the magnitude m·2^e, with a sticky fraction (R108): the encoding, and whether SAT is set (R111). -/
def FKind.roundMag (k : FKind) (neg : Bool) (m : Nat) (e : Int) (sticky : Bool) : Nat × Bool :=
  let sign := neg.nat * 2 ^ k.mag
  if m = 0 then (sign, false)
  else
    let q := max (e + bitLen m - (k.mb + 1 : Nat)) k.emin
    let mant := if q ≤ e then m * 2 ^ (e - q).toNat else rneShift m (q - e).toNat sticky
    let bits := mant + (q - k.emin).toNat * 2 ^ k.mb
    if k = .e4m3 then (if 0x7E < bits then (sign + 0x7E, true) else (sign + bits, false))
    else (sign + min bits k.top, false)

/-- The encoding of a value after one rounding (R108 to R110), with the SAT it sets. -/
def FKind.round (k : FKind) : FVal → Nat × Bool
  | .nan => (k.nan, false)
  | .inf neg => (neg.nat * 2 ^ k.mag + k.top, k = .e4m3)
  | .fin neg m e => k.roundMag neg m e false

/-- The encoding alone. -/
def FKind.rne (k : FKind) (v : FVal) : Nat := (k.round v).1

/-- Sign of a finite signed magnitude. -/
def FVal.signed (neg : Bool) (m : Nat) : Int := if neg then -(m : Int) else m

/-- Negation, exact (R109). -/
def FVal.neg : FVal → FVal
  | .nan => .nan
  | .inf s => .inf !s
  | .fin s m e => .fin (!s) m e

/-- Absolute value (R109). -/
def FVal.abs : FVal → FVal
  | .nan => .nan
  | .inf _ => .inf false
  | .fin _ m e => .fin false m e

/-- Exact sum (R108, R109): a zero sum is +0 unless both operands are −0. -/
def FVal.add : FVal → FVal → FVal
  | .nan, _ => .nan
  | _, .nan => .nan
  | .inf s, .inf t => if s = t then .inf s else .nan
  | .inf s, .fin _ _ _ => .inf s
  | .fin _ _ _, .inf t => .inf t
  | .fin s m e, .fin t n f =>
    let g := min e f
    let z := FVal.signed s (m * 2 ^ (e - g).toNat) + FVal.signed t (n * 2 ^ (f - g).toNat)
    if z = 0 then .fin (s && t && m == 0 && n == 0) 0 g else .fin (z < 0) z.natAbs g

/-- Exact product (R109). -/
def FVal.mul : FVal → FVal → FVal
  | .nan, _ => .nan
  | _, .nan => .nan
  | .inf s, .inf t => .inf (s != t)
  | .inf s, .fin t n _ => if n = 0 then .nan else .inf (s != t)
  | .fin s m _, .inf t => if m = 0 then .nan else .inf (s != t)
  | .fin s m e, .fin t n f => .fin (s != t) (m * n) (e + f)

/-- Exact order of two values; none when unordered (R109). -/
def FVal.cmp : FVal → FVal → Option Ordering
  | .nan, _ => none
  | _, .nan => none
  | .inf s, .inf t => some (if s = t then .eq else if s then .lt else .gt)
  | .inf s, .fin _ _ _ => some (if s then .lt else .gt)
  | .fin _ _ _, .inf t => some (if t then .gt else .lt)
  | .fin s m e, .fin t n f =>
    let g := min e f
    some (compare (FVal.signed s (m * 2 ^ (e - g).toNat)) (FVal.signed t (n * 2 ^ (f - g).toNat)))

/-- Whether a value carries a minus sign. -/
def FVal.isNeg : FVal → Bool
  | .nan => false
  | .inf s => s
  | .fin s _ _ => s

/-- Minimum, with −0 below +0 (R109). -/
def FVal.min (u v : FVal) : FVal :=
  match u.cmp v with
  | none => .nan
  | some .lt => u
  | some .gt => v
  | some .eq => if u.isNeg then u else v

/-- Maximum, with −0 below +0 (R109). -/
def FVal.max (u v : FVal) : FVal :=
  match u.cmp v with
  | none => .nan
  | some .lt => v
  | some .gt => u
  | some .eq => if u.isNeg then v else u

/-- A condition over an order (R109, R277). -/
def Cond.holds (c : Cond) (o : Option Ordering) : Bool :=
  match c, o with
  | .un, none => true
  | .ne, none => true
  | _, none => false
  | .eq, some r => r == .eq
  | .ne, some r => r != .eq
  | .lt, some r => r == .lt
  | .le, some r => r != .gt
  | .gt, some r => r == .gt
  | .ge, some r => r != .lt
  | .un, some _ => false
  | .ord, some _ => true

/-- A finite value rounded to an integer by RNE (R110). -/
def roundInt (neg : Bool) (m : Nat) (e : Int) : Int :=
  FVal.signed neg (if 0 ≤ e then m * 2 ^ e.toNat else rneShift m (-e).toNat false)

/-- A rounded sum. -/
def FKind.addBits (k : FKind) (a b : Nat) : Nat := k.rne ((k.value a).add (k.value b))

/-- A rounded product. -/
def FKind.mulBits (k : FKind) (a b : Nat) : Nat := k.rne ((k.value a).mul (k.value b))

/-! ### The residue format (R114 to R116) -/

/-- M of R115. -/
def rnsM : Nat := 1069550592

/-- RnsEncode (R116). -/
def rnsEncode (v : Int) : Nat :=
  (v % 1021).toNat * 2 ^ 20 + (v % 1023).toNat * 2 ^ 10 + (v % 1024).toNat

/-- RnsValue (R116); every channel is reduced on read (R114). -/
def rnsValue (w : Nat) : Int :=
  let x := field w 20 10 % 1021 * 1047552 * 851 + field w 10 10 % 1023 * 1045504 * 511 + field w 0 10 * 1044483 * 683
  let r := x % rnsM
  if r < rnsM / 2 then r else (r : Int) - rnsM

/-- Channel-wise sum of an rns word and an integer (R117). -/
def rnsAdd (w : Nat) (v : Int) : Nat :=
  (((field w 20 10 : Int) + v) % 1021).toNat * 2 ^ 20 + (((field w 10 10 : Int) + v) % 1023).toNat * 2 ^ 10
    + (((field w 0 10 : Int) + v) % 1024).toNat

/-- Channel-wise sum of two rns words. -/
def rnsAddWord (a b : Nat) : Nat :=
  (field a 20 10 + field b 20 10) % 1021 * 2 ^ 20 + (field a 10 10 + field b 10 10) % 1023 * 2 ^ 10
    + (field a 0 10 + field b 0 10) % 1024

/-- Channel-wise difference of two rns words. -/
def rnsSubWord (a b : Nat) : Nat :=
  (field a 20 10 + 1021 - field b 20 10 % 1021) % 1021 * 2 ^ 20
    + (field a 10 10 + 1023 - field b 10 10 % 1023) % 1023 * 2 ^ 10 + (field a 0 10 + 1024 - field b 0 10) % 1024

/-! ### Conversions (R110) -/

/-- The float kind of an element format. -/
def Fmt.kind? : Fmt → Option FKind
  | .f32 => some .f32 | .bf16 => some .bf16 | .f16 => some .f16 | .e4m3 => some .e4m3 | .e5m2 => some .e5m2
  | _ => none

/-- Whether an integer format is signed. -/
def Fmt.signed : Fmt → Bool
  | .i8 | .i16 | .i32 | .i64 => true
  | _ => false

/-- The value of an integer element (R105). -/
def Fmt.intValue (t : Fmt) (bits : Nat) : Int := if t.signed then toSigned t.bits bits else (bits % 2 ^ t.bits : Nat)

/-- Least value of an integer format. -/
def Fmt.lo (t : Fmt) : Int := if t.signed then -(2 ^ (t.bits - 1) : Nat) else 0

/-- Greatest value of an integer format. -/
def Fmt.hi (t : Fmt) : Int := if t.signed then (2 ^ (t.bits - 1) : Nat) - 1 else (2 ^ t.bits : Nat) - 1

/-- What a convertible element stands for: an exact integer (a residue word counts as its RnsValue), or a float. -/
inductive Num where
  | int (z : Int)
  | flt (v : FVal)
  deriving DecidableEq, Repr

/-- The float kind of a scalar operand type. -/
def SType.kind? : SType → Option FKind
  | .f64 => some .f64
  | .el t => t.kind?

/-- Reads a source of a conversion. -/
def SType.read (t : SType) (bits : Nat) : Num :=
  match t.kind? with
  | some k => .flt (k.value bits)
  | none =>
    match t with
    | .el .rns => .int (rnsValue bits)
    | .el f => .int (f.intValue bits)
    | .f64 => .flt .nan

/-- An integer clamped to a range, with SAT. -/
def clampTo (lo hi z : Int) : Int × Bool := if z < lo then (lo, true) else if hi < z then (hi, true) else (z, false)

/-- A float value clamped to an integer range after RNE; a NaN gives 0 (R110). -/
def FVal.toIntClamped (lo hi : Int) : FVal → Int × Bool
  | .nan => (0, true)
  | .inf s => (if s then lo else hi, true)
  | .fin s m e => clampTo lo hi (roundInt s m e)

/-- Writes the target of a conversion: its encoding and the SAT it sets (R110). -/
def SType.write (t : SType) (n : Num) : Nat × Bool :=
  match t.kind? with
  | some k =>
    match n with
    | .flt v => k.round v
    | .int z => k.roundMag (z < 0) z.natAbs 0 false
  | none =>
    match t, n with
    | .el .rns, .int z => (rnsEncode z, false)
    | .el .rns, .flt v => ((rnsEncode (v.toIntClamped (-(rnsM / 2 : Nat)) ((rnsM / 2 : Nat) - 1)).1),
        (v.toIntClamped (-(rnsM / 2 : Nat)) ((rnsM / 2 : Nat) - 1)).2)
    | .el f, .int z => (wrapNat f.bits (clampTo f.lo f.hi z).1, (clampTo f.lo f.hi z).2)
    | .el f, .flt v => (wrapNat f.bits (v.toIntClamped f.lo f.hi).1, (v.toIntClamped f.lo f.hi).2)
    | .f64, _ => (0, false)

/-! ### Roots, Exp2F and the correctly rounded functions (R122, R123) -/

/-- The largest r below 2^fuel·(its start) with r^p ≤ x, found bit by bit. -/
def rootFrom (p x : Nat) : Nat → Nat → Nat
  | 0, r => r
  | b + 1, r => if (r + 2 ^ b) ^ p ≤ x then rootFrom p x b (r + 2 ^ b) else rootFrom p x b r

/-- floor(x^(1/p)), for a result below 2^bits. -/
def rootFloor (p x bits : Nat) : Nat := rootFrom p x bits 0

/-- T[i] = RNE32(2^(i/256)) (R122). -/
def exp2Table (i : Nat) : Nat :=
  (FKind.f32.roundMag false (rootFloor 256 (2 ^ (i + 256 * 40)) 42) (-40) (i != 0)).1

/-- The exact value of an f32 encoding. -/
def f32v (b : Nat) : FVal := FKind.f32.value b

/-- RNE32. -/
def rne32 (v : FVal) : Nat := FKind.f32.rne v

/-- C1 = RNE32(ln 2) (R122). -/
def exp2C1 : Nat := 0x3F317218

/-- The steps of Exp2F after its range checks: d = M / 2^k (R122). -/
def exp2Steps (M : Int) (k : Nat) : Nat :=
  let n := M / (2 ^ k : Nat)
  let f := (M % (2 ^ k : Nat)).toNat
  let i := f * 256 / 2 ^ k
  let r : FVal := .fin false (f * 256 % 2 ^ k) (-((k : Int) + 8))
  let t := f32v (exp2Table i)
  let p := f32v (rne32 (r.mul (f32v exp2C1)))
  let q := f32v (rne32 ((f32v (rne32 (p.mul p))).mul (.fin false 1 (-1))))
  let pq := f32v (rne32 (p.add q))
  let y := f32v (rne32 (t.add (f32v (rne32 (t.mul pq)))))
  rne32 (y.mul (.fin false 1 n))

/-- Exp2F (R122). -/
def exp2F (d : Nat) : Nat :=
  match f32v d with
  | .nan => FKind.f32.nan
  | .inf s => if s then 0 else FKind.f32.top
  | .fin s m e =>
    let k := if 0 ≤ e then 0 else (-e).toNat
    let M := FVal.signed s (if 0 ≤ e then m * 2 ^ e.toNat else m)
    if M < -149 * (2 ^ k : Nat) then 0
    else if 128 * (2 ^ k : Nat) ≤ M then FKind.f32.top
    else exp2Steps M k

/-- VRCP (R123). -/
def rcpF (x : Nat) : Nat :=
  match f32v x with
  | .nan => FKind.f32.nan
  | .inf s => s.nat * 2 ^ 31
  | .fin s m e =>
    if m = 0 then s.nat * 2 ^ 31 + FKind.f32.top
    else (FKind.f32.roundMag s (2 ^ 100 / m) (-100 - e) (2 ^ 100 % m != 0)).1

/-- VRSQ (R123). -/
def rsqF (x : Nat) : Nat :=
  match f32v x with
  | .nan => FKind.f32.nan
  | .inf s => if s then FKind.f32.nan else 0
  | .fin s m e =>
    if m = 0 then s.nat * 2 ^ 31 + FKind.f32.top
    else if s then FKind.f32.nan
    else
      let odd := e % 2 ≠ 0
      let m' := if odd then 2 * m else m
      let e' := if odd then e - 1 else e
      let r := rootFloor 2 (2 ^ 200 / m') 102
      (FKind.f32.roundMag false r (-100 - e' / 2) (r * r * m' != 2 ^ 200)).1

/-- Fraction bits of log2 of x / 2^300, for x from 2^300 to below 2^301, by repeated squaring (log 20). -/
def log2Bits : Nat → Nat → Nat → Nat
  | 0, _, acc => acc
  | t + 1, x, acc =>
    let y := x * x / 2 ^ 300
    if 2 ^ 301 ≤ y then log2Bits t (y / 2) (2 * acc + 1) else log2Bits t y (2 * acc)

/-- VLOG2 (R123). Log 20 says why 100 fraction bits decide the rounding. -/
def log2F (x : Nat) : Nat :=
  match f32v x with
  | .nan => FKind.f32.nan
  | .inf s => if s then FKind.f32.nan else FKind.f32.top
  | .fin s m e =>
    if m = 0 then 2 ^ 31 + FKind.f32.top
    else if s then FKind.f32.nan
    else
      let l := Nat.log2 m
      let n := e + l
      if m = 2 ^ l then (FKind.f32.roundMag (n < 0) n.natAbs 0 false).1
      else
        let v := n * (2 ^ 100 : Nat) + (log2Bits 100 (m * 2 ^ (300 - l)) 0 : Nat)
        if 0 ≤ v then (FKind.f32.roundMag false v.toNat (-100) true).1
        else (FKind.f32.roundMag true (-v - 1).toNat (-100) true).1

/-! ### The merge tree (R77) and the attention merge (R229) -/

/-- Comb of R77. -/
def comb {α : Type} (op : α → α → α) : Option α → Option α → Option α
  | none, v => v
  | u, none => u
  | some u, some v => some (op u v)

/-- Merge of R77 over slots, none being Absent; `fuel` bounds the depth. -/
def mergeTree {α : Type} (op : α → α → α) : Nat → List (Option α) → Option α
  | 0, _ => none
  | fuel + 1, xs =>
    match xs with
    | [] => none
    | [x] => x
    | _ =>
      let h := (xs.length + 1) / 2
      comb op (mergeTree op fuel (xs.take h)) (mergeTree op fuel (xs.drop h))

/-- Merge of R77. -/
def merge {α : Type} (op : α → α → α) (xs : List (Option α)) : Option α := mergeTree op xs.length xs

/-- AttMerge over f32 triples m, l, o[0], o[1], … (R229). -/
def attMerge (x y : List Nat) : List Nat :=
  let sub (a b : Nat) : Nat := rne32 ((f32v a).add (f32v b).neg)
  let m1 := x.getD 0 0
  let m2 := y.getD 0 0
  let m := rne32 ((f32v m1).max (f32v m2))
  if m = 0xFF800000 then m :: List.replicate (x.length - 1) 0
  else
    let a1 := exp2F (sub m1 m)
    let a2 := exp2F (sub m2 m)
    let mix (u v : Nat) : Nat := FKind.f32.addBits (FKind.f32.mulBits u a1) (FKind.f32.mulBits v a2)
    m :: ((x.drop 1).zip (y.drop 1)).map fun c => mix c.1 c.2

/-- Op of AMO, RED, CPYA and REDUCE on two elements of a format (R147, R226); swap answers the second. -/
def ROp.apply (op : ROp) (t : Fmt) (x y : Nat) : Nat :=
  let w := 2 ^ t.bits
  match t.kind? with
  | some k =>
    match op with
    | .add => k.addBits x y
    | .min => k.rne ((k.value x).min (k.value y))
    | .max => k.rne ((k.value x).max (k.value y))
    | _ => y % w
  | none =>
    match op with
    | .add => if t = .rns then rnsAddWord x y else (x + y) % w
    | .min => if t.intValue x ≤ t.intValue y then x % w else y % w
    | .max => if t.intValue x ≤ t.intValue y then y % w else x % w
    | .and => (x &&& y) % w
    | .or => (x ||| y) % w
    | .xor => (x ^^^ y) % w
    | .swap => y % w

/-! ### Block sums (R118, R119) -/

/-- The exact sum of a list of products, and whether every one is −0; none when a NaN or infinities decide. -/
def blockSum : List FVal → FVal
  | [] => .fin true 0 0
  | v :: vs => v.add (blockSum vs)

/-- BlockRound of the products of one k-block (R119). -/
def blockRound (ps : List FVal) : Nat := rne32 (blockSum ps)

end Sys2Proof
end

