-- ==== Sys2Proof/Machine/Operands.lean ====
section
/-! DEFINITION. The operand forms: scalar, vector, predicate and shape registers, immediates, shape records with their
elements (R128 to R131), address words and counter descriptors (R29, R143). -/

namespace Sys2Proof.Machine

/-! ### Registers (R283) -/

/-- A scalar register; s0 reads 0. -/
def Strand.rd (k : Strand) (r : SReg) : Word := if r = 0 then 0 else k.s.get r

/-- Writes a scalar register, which becomes full; a write to s0 is discarded (R101, R283). -/
def Strand.wr (k : Strand) (r : SReg) (v : Word) : Strand :=
  if r = 0 then k
  else { k with
    s := k.s.set r v
    sfull := k.sfull ||| BitVec.ofNat 64 (2 ^ r.val)
    spoison := k.spoison &&& ~~~BitVec.ofNat 64 (2 ^ r.val) }

/-- Clears the full bit of a scalar register, and with it what an earlier fill left poisoned; s0 stays full (R68, R101). -/
def Strand.empty (k : Strand) (r : SReg) : Strand :=
  if r = 0 then k
  else { k with
    sfull := k.sfull &&& ~~~BitVec.ofNat 64 (2 ^ r.val)
    spoison := k.spoison &&& ~~~BitVec.ofNat 64 (2 ^ r.val) }

/-- Whether a scalar register is full (R101). -/
def Strand.full (k : Strand) (r : SReg) : Bool := r == 0 || k.sfull.getLsbD r.val

/-- Whether a scalar register holds a fill from a poisoned granule (R68). -/
def Strand.bad (k : Strand) (r : SReg) : Bool := k.spoison.getLsbD r.val

/-- A vector register. -/
def Strand.rdV (k : Strand) (r : VNum) : VReg := k.v.get r
/-- Writes a vector register. -/
def Strand.wrV (k : Strand) (r : VNum) (v : VReg) : Strand := { k with v := k.v.set r v }
/-- Whether a vector register is full (R101). -/
def Strand.fullV (k : Strand) (r : VNum) : Bool := k.vfull.getLsbD r.val

/-- A predicate register; p0 reads all ones. -/
def Strand.rdP (k : Strand) (r : PNum) : PReg := if r = 0 then BitVec.allOnes 256 else k.p.get r
/-- Writes a predicate register; a write to p0 is discarded. -/
def Strand.wrP (k : Strand) (r : PNum) (v : PReg) : Strand := if r = 0 then k else { k with p := k.p.set r v }

/-- A shape register. -/
def Strand.rdM (k : Strand) (r : PNum) : Shape := k.m.get r
/-- Writes a shape register. -/
def Strand.wrM (k : Strand) (r : PNum) (v : Shape) : Strand := { k with m := k.m.set r v }

/-- Whether every scalar and every vector register is full. -/
def Strand.allFull (k : Strand) : Bool := k.sfull ||| 1 == BitVec.allOnes 64 && k.vfull == BitVec.allOnes 32

/-- Moves past the instruction (R275). -/
def Strand.next (k : Strand) : Strand := { k with pc := k.pc + 8 }

/-- ORs bits into the failure summary. -/
def Strand.orSummary (k : Strand) (bits : Word) : Strand := { k with summary := k.summary ||| bits }

/-! ### Scalar operands by type (R285, R300) -/

/-- The operand value of an integer type: its low bits, signed or unsigned (R285). -/
def opnd (t : Fmt) (w : Word) : Int := t.intValue w.toNat

/-- A result of an integer type, extended to 64 bits (R285). -/
def extend (t : Fmt) (z : Int) : Word := wordOfInt (t.intValue (wrapNat t.bits z))

/-- The immediate of the I format (R278). -/
def immOf (t : Fmt) (imm : BitVec 32) : Word := if t.signed then imm.signExtend 64 else imm.zeroExtend 64

/-! ### Lanes (R284) -/

/-- Lanes of a vector of a lane type. -/
def lanes (t : Fmt) : Nat := 2048 / t.bits

/-- Lane `i` of a register whose lanes have `w` bits. -/
def lane (w : Nat) (v : VReg) (i : Nat) : Nat := v.toNat / 2 ^ (w * i) % 2 ^ w

/-- A register from its lanes, lane 0 first. -/
def ofLanes (w : Nat) : List Nat → Nat
  | [] => 0
  | x :: xs => x % 2 ^ w + 2 ^ w * ofLanes w xs

/-- The register whose lane `i` is `f i`. -/
def laneMap (w n : Nat) (f : Nat → Nat) : VReg := BitVec.ofNat 2048 (ofLanes w ((List.range n).map f))

/-- Whether a predicate enables a lane (R280). -/
def laneOn (k : Strand) (q : VPred) (i : Nat) : Bool := (k.rdP q.p).getLsbD i != q.pn

/-! ### Shape records (R128) -/

/-- Bits of a shape record. -/
def shBits (m : Shape) (lo len : Nat) : Nat := field m.toNat lo len

def shSpace (m : Shape) : Nat := shBits m 0 3
def shFmt (m : Shape) : Nat := shBits m 3 4
def shUnf (m : Shape) : Bool := shBits m 7 1 == 1
def shIlv (m : Shape) : Nat := shBits m 8 2
def shRsv (m : Shape) : Nat := shBits m 10 6
def shVt (m : Shape) : Nat := shBits m 16 16
def shHnd (m : Shape) : Nat := shBits m 32 32
def shOfs (m : Shape) : Nat := shBits m 64 40
/-- Extent of dimension `d`. -/
def shE (m : Shape) (d : Nat) : Nat := shBits m (104 + 16 * d) 16
/-- Stride of dimension `d`, signed. -/
def shS (m : Shape) (d : Nat) : Int := if d = 0 then toSigned 16 (shBits m 240 16) else toSigned 24 (shBits m (144 + 24 * d) 24)

/-- The format of a record; a code of 15 fails R130 before any use. DESIGN CHOICE: the checks of R62, which come first, take elements of
one byte for it (log 37). -/
def shFormat (m : Shape) : Fmt := (Fmt.ofCode (shFmt m)).getD .i8

/-- Elements of a record. -/
def shCount (m : Shape) : Nat := shE m 0 * shE m 1 * shE m 2 * shE m 3

/-- The signed element index of the t-th element in transfer order (R129). -/
def shIndex (m : Shape) (t : Nat) : Int :=
  let i0 := t % shE m 0
  let t1 := t / shE m 0
  let i1 := t1 % shE m 1
  let t2 := t1 / shE m 1
  (i0 : Int) * shS m 0 + (i1 : Int) * shS m 1 + (t2 % shE m 2 : Nat) * shS m 2 + (t2 / shE m 2 : Nat) * shS m 3

/-- The element (i0, i1, 0, 0) (R134). -/
def shIndex2 (m : Shape) (i0 i1 : Nat) : Int := (i0 : Int) * shS m 0 + (i1 : Int) * shS m 1

/-- The byte offset of an element index (R112, R129). -/
def elemOfs (f : Fmt) (ofs : Nat) (n : Int) : Int := if f = .c4 then ofs + n / 2 else ofs + n * (f.bits / 8 : Nat)

/-- The number of bytes that an element touches. -/
def elemBytes (f : Fmt) : Nat := if f = .c4 then 1 else f.bits / 8

/-- Least and greatest element index over all extents, each stride at its sign (R62, R144). -/
def shLo (m : Shape) (dims : Nat) : Int := ((List.range dims).map fun d => min 0 ((shE m d - 1 : Nat) * shS m d)).sum
def shHi (m : Shape) (dims : Nat) : Int := ((List.range dims).map fun d => max 0 ((shE m d - 1 : Nat) * shS m d)).sum

/-- The extents that a record's range counts: an unfolded record has three. -/
def shDims (m : Shape) : Nat := if shUnf m then 3 else 4

/-- The bytes [lo, hi) that a record can address; none when an extent is 0 (R62, R130). -/
def shRange (m : Shape) (dims : Nat) : Int × Int :=
  if (List.range dims).any (fun d => shE m d == 0) then (shOfs m, shOfs m)
  else
    let f := shFormat m
    (elemOfs f (shOfs m) (shLo m dims), elemOfs f (shOfs m) (shHi m dims) + elemBytes f)

/-- The address word of a record's operand (R29, R171). -/
def shAddr (m : Shape) : Word := BitVec.ofNat 64 (shHnd m * 2 ^ 32 + shOfs m % 2 ^ 32)

/-! ### Unfolded operands (R131) -/

/-- The kernel, dilation, stride and pad fields, and what follows from them. -/
structure Unf where
  c : Nat
  w : Nat
  h : Nat
  dw : Nat
  dh : Nat
  sw : Nat
  sh : Nat
  kw : Nat
  kh : Nat
  pr : Nat
  pl : Nat
  pb : Nat
  pt : Nat
  oh : Int
  ow : Int
  deriving DecidableEq, Repr

/-- Reads the fields of an unfolded record. -/
def unfOf (m : Shape) : Unf :=
  let e3 := shE m 3
  let s3 := shBits m 216 24
  let c := shE m 0; let w := shE m 1; let h := shE m 2
  let dw := field e3 14 2 + 1; let dh := field e3 12 2 + 1
  let sw := field e3 10 2 + 1; let sh := field e3 8 2 + 1
  let kw := field e3 4 4; let kh := field e3 0 4
  let pr := field s3 12 4; let pl := field s3 8 4; let pb := field s3 4 4; let pt := field s3 0 4
  { c, w, h, dw, dh, sw, sh, kw, kh, pr, pl, pb, pt
    oh := ((h : Int) + pt + pb - dh * (kh - 1) - 1) / sh + 1
    ow := ((w : Int) + pl + pr - dw * (kw - 1) - 1) / sw + 1 }

/-- The conditions of R131, but those of R58. -/
def unfOk (m : Shape) : Bool :=
  let u := unfOf m
  field (shBits m 216 24) 16 8 == 0 && 1 ≤ u.kw && 1 ≤ u.kh && 1 ≤ u.oh && 1 ≤ u.ow && shSpace m == 0
    && u.c != 0 && u.w != 0 && u.h != 0

/-- The element index that Unfold(p, k) reads; none in the padding (R131). -/
def unfIndex (m : Shape) (u : Unf) (p k : Nat) : Option Int :=
  let ow := u.ow.toNat
  let oh' := p / ow
  let ow' := p % ow
  let c := k % u.c
  let kw := k / u.c % u.kw
  let kh := k / (u.c * u.kw)
  let ih : Int := (oh' * u.sh : Nat) - (u.pt : Int) + (kh * u.dh : Nat)
  let iw : Int := (ow' * u.sw : Nat) - (u.pl : Int) + (kw * u.dw : Nat)
  if ih < 0 ∨ u.h ≤ ih ∨ iw < 0 ∨ u.w ≤ iw then none
  else some ((c : Int) * shS m 0 + iw * shS m 1 + ih * shS m 2)

/-! ### Counter descriptors (R143) and address words (R29) -/

/-- Local rank, whether there is a counter, and offset. -/
def ctrVt (d : Word) : Nat := field d.toNat 30 10
def ctrNone (d : Word) : Bool := bit d.toNat 29
def ctrOfs (d : Word) : Nat := field d.toNat 0 19
/-- Reserved bits that are nonzero. -/
def ctrBad (d : Word) : Bool := field d.toNat 40 24 != 0 || field d.toNat 19 10 != 0

/-- Handle and offset of an address word. -/
def awHnd (w : Word) : Nat := field w.toNat 32 32
def awOfs (w : Word) : Nat := field w.toNat 0 32

end Sys2Proof.Machine
end

