-- ==== Sys2Proof/Machine/Handles.lean ====
section
/-! DEFINITION. Handles: the table entry (R60), the mapping of offsets (R61), and the checks at issue (R62) and while
engine work runs (R66). -/

namespace Sys2Proof.Machine

/-- A handle-table entry (R60). -/
structure HEntry where
  base : Nat
  len : Nat
  space : Nat
  v : Bool
  r : Bool
  w : Bool
  a : Bool
  x : Bool
  ilv : Nat
  bank : Nat
  gen : Nat
  rsv : Bool
  bad : Bool
  deriving DecidableEq, Repr

/-- Reads an entry from its 256 bits (R60); `bad` says that its granule is poisoned. -/
def HEntry.ofBits (n : Nat) (bad : Bool) : HEntry where
  base := field n 0 64
  len := field n 64 64
  space := field n 128 3
  v := bit n 135
  r := bit n 138
  w := bit n 139
  a := bit n 140
  x := bit n 141
  ilv := field n 142 2
  bank := field n 144 4
  gen := field n 148 12
  rsv := field n 131 4 != 0 || field n 136 2 != 0 || field n 160 96 != 0
  bad := bad

/-- The fields obey R60 and R61 and the extent lies in the memory (check 2 of R62). -/
def HEntry.ok (e : HEntry) : Bool :=
  e.v && !e.rsv && !e.bad && e.gen != 0 && 2 ≤ e.space && e.space ≤ 6 && e.ilv != 3 && (e.ilv == 0 || e.space == 2)
    && (e.bank == 0 || e.ilv == 1) && 1 ≤ e.len &&
    match e.space with
    | 2 =>
      match e.ilv with
      | 1 => e.base + e.len ≤ 2 ^ 19
      | 2 => e.base % 4096 == 0 && e.len % 4096 == 0 && e.base + e.len ≤ 2 ^ 23
      | _ => e.base + e.len ≤ 2 ^ 23
    | 3 => e.base + e.len ≤ 2 ^ 30
    | 4 => e.base + e.len ≤ hbmSize
    | 5 => e.base == 0
    | _ => true

/-- The key of the byte at offset `o`, for a vtile on a physical tile (R61). -/
def HEntry.key (e : HEntry) (ptile o : Nat) : Nat :=
  match e.space with
  | 2 =>
    let a :=
      match e.ilv with
      | 1 => e.bank * 2 ^ 19 + e.base + o
      | 2 => o / 256 % 16 * 2 ^ 19 + e.base / 16 + o / 4096 * 256 + o % 256
      | _ => e.base + o
    groupKey (ptile / 16) a
  | 3 => dieKey (ptile / 256) (e.base + o)
  | 6 => hostKey (e.base + o)
  | _ => hbmKey (e.base + o)

/-- Permissions that an operand needs (check 6 of R62). -/
inductive Perm where
  | r | w | a | x | rw | wa
  deriving DecidableEq, Repr

/-- Whether an entry grants a permission. -/
def HEntry.grants (e : HEntry) : Perm → Bool
  | .r => e.r
  | .w => e.w
  | .a => e.a
  | .x => e.x
  | .rw => e.r && e.w
  | .wa => e.w && e.a

/-- An operand of an instruction as R62 checks it: the bytes [lo, hi) that it can address, and for a tile-store operand
whether R58's alignment holds. `named` is false for an address word, which names no space or interleave mode. -/
structure Opd where
  space : Nat
  hnd : Nat
  vt : Nat
  ilv : Nat
  lo : Int
  hi : Int
  perm : Perm
  named : Bool
  aligned : Bool
  addr : Word
  deriving DecidableEq, Repr

/-- The entry of a team's table as committed (R59). A table that system software has placed beyond HBM has no entries: each
reads as zero, which check 2 of R62 refuses (R7; log 19). -/
def State.entry (s : State) (t : Team) (hnd : Nat) : HEntry :=
  let a := t.htbase + 32 * (hnd % 2 ^ 20)
  if hbmHas a 32 then HEntry.ofBits (s.hbm a 32) (s.anyPoison (hbmKey a) 32) else HEntry.ofBits 0 false

/-- Checks 2 and 3 of R62 as R66 applies them while work runs: the entry, when it still passes. -/
def State.entryNow (s : State) (t : Team) (hnd : Nat) : Option HEntry :=
  let e := s.entry t hnd
  if hnd % 2 ^ 20 < t.htlen && e.ok && e.gen == hnd / 2 ^ 20 then some e else none

/-- Whether an operand goes through a handle. -/
def Opd.handled (o : Opd) : Bool := 2 ≤ o.space

/-- Check 1 of R62. -/
def chkSpace (t : Team) (o : Opd) : Do Unit :=
  need (o.space != 7 && (o.handled || o.hnd == 0) && (o.space != 1 || o.vt < t.size) && (o.space != 5 || o.vt < t.nP))
    0x25 o.addr

/-- Check 2 of R62. -/
def chkEntry (s : State) (t : Team) (o : Opd) : Do Unit :=
  if o.handled then need (o.hnd % 2 ^ 20 < t.htlen && (s.entry t o.hnd).ok) 0x21 o.addr else .ok ()

/-- Check 3 of R62. -/
def chkGen (s : State) (t : Team) (o : Opd) : Do Unit :=
  if o.handled then need ((s.entry t o.hnd).gen == o.hnd / 2 ^ 20) 0x22 o.addr else .ok ()

/-- Check 4 of R62. -/
def chkMatch (s : State) (t : Team) (o : Opd) : Do Unit :=
  if o.handled then need ((s.entry t o.hnd).space == o.space && (!o.named || (s.entry t o.hnd).ilv == o.ilv)) 0x25 o.addr else .ok ()

/-- Check 5 of R62. -/
def chkBounds (s : State) (t : Team) (o : Opd) : Do Unit :=
  if o.handled && o.lo < o.hi then need (0 ≤ o.lo && o.hi ≤ (s.entry t o.hnd).len) 0x23 o.addr else .ok ()

/-- Check 6 of R62. -/
def chkPerm (s : State) (t : Team) (o : Opd) : Do Unit :=
  if o.handled then need ((s.entry t o.hnd).grants o.perm) 0x24 o.addr else .ok ()

/-- Check 7 of R62: R58. -/
def chkStore (o : Opd) : Do Unit :=
  if o.handled then .ok ()
  else need (o.hi ≤ o.lo || (o.aligned && 0 ≤ o.lo && o.hi ≤ storeSize)) 0x20 o.addr

/-- The counter of a descriptor, as R62 and R143 check it: reserved bits are checked apart, with 0x27. DESIGN CHOICE: with NOCTR = 1
neither CVT nor COFS is checked (log 37). -/
def chkCtrRank (t : Team) (d : Word) : Do Unit := need (ctrNone d || ctrVt d < t.size) 0x25 0

/-- The counter of a descriptor in check 7 of R62. -/
def chkCtrOfs (d : Word) : Do Unit := need (ctrNone d || ctrOfs d % 8 == 0) 0x20 (BitVec.ofNat 64 (ctrOfs d))

/-- Runs one check over every operand. -/
def forAll (os : List Opd) (c : Opd → Do Unit) : Do Unit :=
  match os with
  | [] => .ok ()
  | o :: r => do
    c o
    forAll r c

/-- The checks of R62 over every operand and the counter of a descriptor, in the order of its table. -/
def checkAll (s : State) (t : Team) (os : List Opd) (ctr : Word := noCtr) : Do Unit := do
  forAll os (chkSpace t)
  chkCtrRank t ctr
  forAll os (chkEntry s t)
  forAll os (chkGen s t)
  forAll os (chkMatch s t)
  forAll os (chkBounds s t)
  forAll os (chkPerm s t)
  forAll os chkStore
  chkCtrOfs ctr

/-- An operand in the issuer's tile store: `n` bytes at an address (R58). -/
def storeOpd (a n align : Nat) : Opd :=
  { space := 0, hnd := 0, vt := 0, ilv := 0, lo := a, hi := a + n, perm := .r, named := false, aligned := a % align == 0
    addr := BitVec.ofNat 64 a }

/-- An address word's operand: the issuer's tile store, or a handle of a stated space (R29). -/
def wordOpd (w : Word) (space n align : Nat) (p : Perm) : Opd :=
  if awHnd w = 0 then
    { space := 0, hnd := 0, vt := 0, ilv := 0, lo := awOfs w, hi := awOfs w + n, perm := p, named := false
      aligned := awOfs w % align == 0, addr := w }
  else
    { space, hnd := awHnd w, vt := 0, ilv := 0, lo := awOfs w, hi := awOfs w + n, perm := p, named := false
      aligned := true, addr := w }

/-- A shape record's operand over `dims` extents. -/
def shapeOpd (m : Shape) (dims : Nat) (p : Perm) (aligned : Bool) : Opd :=
  let r := shRange m dims
  { space := shSpace m, hnd := shHnd m, vt := shVt m, ilv := shIlv m, lo := r.1, hi := r.2, perm := p, named := true
    aligned, addr := shAddr m }

/-- R130 over one record: FMT, reserved bits, ILV, extents and VT. -/
def shapeOk (m : Shape) : Bool :=
  shFmt m != 15 && shRsv m == 0 && (shIlv m == 0 || 2 ≤ shSpace m)
    && (if shUnf m then shE m 0 != 0 && shE m 1 != 0 && shE m 2 != 0 && unfOk m
        else shE m 0 != 0 && shE m 1 != 0 && shE m 2 != 0 && shE m 3 != 0)
    && (shVt m == 0 || shSpace m == 1 || shSpace m == 5)

/-- R58 for the elements of a record: OFS a multiple of the element size; strides count whole elements. DESIGN CHOICE: the natural
alignment that R147 asks of an element in level memory is that of its offset, whatever BASE its entry has (log 37). -/
def elemAligned (m : Shape) : Bool := shOfs m % elemBytes (shFormat m) == 0

/-- The code handle of a team as fetch checks it (R31, R56, R276): the entry, of space 2, 3 or 4. DESIGN CHOICE: an entry that the
driver has changed to space 5 or 6 counts as one that fails check 2 of R62, since R56 rules it out and R276 names no cause (log 36). -/
def codeEntry (s : State) (t : Team) (addr : Word) : Do HEntry := do
  need (t.codeh % 2 ^ 20 < t.htlen && (s.entry t t.codeh).ok && (s.entry t t.codeh).space ≤ 4) 0x21 addr
  need ((s.entry t t.codeh).gen == t.codeh / 2 ^ 20) 0x22 addr
  .ok (s.entry t t.codeh)

/-- Reads `n` bytes at an offset of an entry as committed. -/
def State.readEntry (s : State) (e : HEntry) (ptile o n : Nat) : List Byte :=
  (interval o n).map fun i => s.mem.byte (e.key ptile i)

/-- Whether any of those bytes is poisoned. -/
def State.entryPoison (s : State) (e : HEntry) (ptile o n : Nat) : Bool :=
  s.poison != [] && (interval o n).any fun i => s.poisoned (granule (e.key ptile i))

/-- The first quad of a CXL link (R196). -/
def State.cxlQuad (s : State) (link : Bool) : Option Nat :=
  (((List.range 16).map (· * 4)).filter fun q => (s.quad q).pers == 3)[link.nat]?

/-- The lowest valid window that contains a host address (R200). -/
def State.cxlWindow (s : State) (a : Nat) : Option Nat :=
  [0, 1, 2, 3].find? fun i =>
    let w := (s.cxlwin.toList.getD i 0).toNat
    bit w 63 && a / 2 ^ field w 0 6 == field w 12 40 * 2 ^ 12 / 2 ^ field w 0 6

/-- The site where a byte of the package, or of host memory behind its CXL link, has its home (R10, R71). -/
def State.homeSite (s : State) (key : Nat) : Nat :=
  if key < 2 ^ 40 then 64 + Config.stackOf key / 2 % 4
  else if key < 2 ^ 41 then 64 + (key - 2 ^ 40) / 2 ^ 30
  else if key < 2 ^ 42 then (key - 2 ^ 41) / 2 ^ 23
  else if key < hostKey 0 then tileSite ((key - storeKey 0 0) / storeSize)
  else edgeSite (((s.cxlWindow (key - hostKey 0)).bind fun i =>
    s.cxlQuad (bit (s.cxlwin.toList.getD i 0).toNat 62)).getD 0)

/-- Whether valid windows serve every 4 KiB of a space-6 range over links whose quad passes a test (R200). -/
def State.cxlServed (s : State) (e : HEntry) (o n : Nat) (ok : Quad → Bool) : Bool :=
  let hit (a : Nat) : Bool :=
    match s.cxlWindow a with
    | some i => (s.cxlQuad (bit (s.cxlwin.toList.getD i 0).toNat 62)).any fun q => ok (s.quad q)
    | none => false
  n == 0 || (interval ((e.base + o) / 4096) ((e.base + o + n - 1) / 4096 - (e.base + o) / 4096 + 1)).all fun p => hit (p * 4096)

/-- Whether windows with UP links serve a space-6 range (R200). A link that retrains fails nothing (R204). -/
def State.cxlOk (s : State) (e : HEntry) (o n : Nat) : Bool := s.cxlServed e o n fun q => q.st == .up || q.retraining

/-- Whether an operation on a space-6 range waits for a link that retrains (R204). -/
def State.cxlWaits (s : State) (e : HEntry) (o n : Nat) : Bool :=
  s.cxlOk e o n && !s.cxlServed e o n fun q => q.st == .up

end Sys2Proof.Machine
end

