-- ==== Sys2Proof/Machine/Touch.lean ====
section
/-! DEFINITION. What a change of bytes does to engine work that still has to read them, or has read them and is not done
(R74, R137, R144, R149), and the order among the stores of a vtile's strands (R38, R72, R138). The manual lets the affected
results be undefined, so they become free values (log 11). -/

namespace Sys2Proof.Machine

/-! ### Ranges -/

/-- Whether two byte ranges overlap. -/
def State.overlap (a n b m : Nat) : Bool := a < b + m && b < a + n

/-- Whether any of some ranges (first byte, length) overlaps `n` bytes from `a`. -/
def meets (rs : List (Nat × Nat)) (a n : Nat) : Bool := rs.any fun r => State.overlap r.1 r.2 a n

/-! ### Operands of the matrix unit -/

/-- A tile-store record's operand, aligned by its element size (R58). -/
def matOpd (m : Shape) (p : Perm) : Opd := shapeOpd m (shDims m) p (elemAligned m)

/-- The key of an element of a record in a tile store that begins at `base`. -/
def elemKey (base : Nat) (m : Shape) (n : Int) : Nat := base + (elemOfs (shFormat m) (shOfs m) n).toNat

/-- The bits of an element (R112, R129). -/
def readElem (mem : Memory) (base : Nat) (m : Shape) (n : Int) : Nat :=
  if shFormat m = .c4 then (mem.byte (elemKey base m n)).toNat / 16 ^ (n % 2).toNat % 16
  else mem.num (elemKey base m n) (elemBytes (shFormat m))

/-- M, N and K of an MMA (R134). -/
def mmaDims (f : MmaM) (a b : Shape) : Nat × Nat × Nat :=
  let u := unfOf a
  (if shUnf a then min 64 ((u.oh * u.ow).toNat - f.row0.toNat) else shE a 1, shE b 0, shE b 1)

/-- The conditions of R134 on B that fail with 0x27. -/
def mmaBOk (f : MmaM) (b : Shape) : Bool :=
  shapeOk b && shSpace b == 0 && !shUnf b && shFmt b == f.fmt.code && 1 ≤ shE b 0 && shE b 0 ≤ 64 && 1 ≤ shE b 1
    && shE b 1 ≤ 32768 && shE b 2 == 1 && shE b 3 == 1 && f.kst.toNat * 8 < shE b 1

/-- The conditions of R134 on A that fail with 0x27. -/
def mmaAOk (f : MmaM) (a b : Shape) : Bool :=
  let u := unfOf a
  shapeOk a && shSpace a == 0 && shFmt a == f.fmt.code
    && (if shUnf a then (f.row0.toNat : Int) < u.oh * u.ow && u.kh * u.kw * u.c == shE b 1
        else 1 ≤ shE a 1 && shE a 1 ≤ 64 && shE a 0 == shE b 1 && f.row0 == 0 && shE a 2 == 1 && shE a 3 == 1)

/-- Element indices of row i of A, k rising; none in the padding (R131, R134). -/
def rowIdx (f : MmaM) (a : Shape) (kk i : Nat) : List (Option Int) :=
  (List.range kk).map fun k => if shUnf a then unfIndex a (unfOf a) (f.row0.toNat + i) k else some (shIndex2 a k i)

/-- Element indices of column j of B, k rising (R134). -/
def colIdx (b : Shape) (kk j : Nat) : List (Option Int) := (List.range kk).map fun k => some (shIndex2 b j k)

/-- The bits of elements. -/
def readElems (mem : Memory) (base : Nat) (m : Shape) (l : List (Option Int)) : List (Option Nat) :=
  l.map fun x => x.map (readElem mem base m)

/-- Whether an element of a list lies in a poisoned granule. -/
def elemsPoisoned (s : State) (base : Nat) (m : Shape) (l : List (Option Int)) : Bool :=
  s.poison != [] && l.any fun x =>
    match x with
    | some n => s.anyPoison (elemKey base m n) (elemBytes (shFormat m))
    | none => false

/-- Element indices of a row of an accumulator record. -/
def accRow (m : Shape) (i : Nat) : List (Option Int) := (List.range (shE m 0)).map fun j => some (shIndex2 m j i)

/-! ### Accumulators and their queue -/

/-- Element (i, j) of an accumulator. -/
def Acc.elem (a : Acc) (i j : Nat) : Nat := lane 32 (a.rows.toList.getD i 0) j

/-- An accumulator with every element given. -/
def Acc.setAll (a : Acc) (f : Nat → Nat → Nat) : Acc :=
  { a with rows := Vector.ofFn fun i : Fin 64 => laneMap 32 64 (f i.val) }

/-- Changes one accumulator. -/
def Vtile.onAcc (v : Vtile) (d : ANum) (f : Acc → Acc) : Vtile := { v with accs := v.accs.set d (f (v.accs.get d)) }

/-- Whether a queue entry is an MMA into an accumulator. -/
def MEntry.isMma (e : MEntry) (d : ANum) : Bool :=
  match e.op with
  | .mma _ _ _ _ => e.d == d
  | _ => false

/-- Whether a queue entry names an accumulator as its destination (R312). -/
def MEntry.writes (e : MEntry) (d : ANum) : Bool :=
  match e.op with
  | .cbld => false
  | _ => e.d == d

/-- K of an MMA entry. -/
def MEntry.kEnd (e : MEntry) : Nat :=
  match e.op with
  | .mma _ _ b _ => shE b 1
  | _ => 0

/-- Bit i of a list of flags. -/
def flag (l : List Bool) (i : Nat) : Bool := l.getD i false

/-- A free element for place (i, j) of an accumulator (log 12). -/
def freeElem (s : State) (id : Nat) (d : ANum) (i j : Nat) : Nat :=
  (s.freeWordAt id (4096 * d.val + 64 * i + j)).toNat % 2 ^ 32

/-- Replaces the outputs of marked rows and columns by free values (R8, R137). -/
def Acc.undefine (x : Acc) (free : Nat → Nat → Nat) (m n : Nat) (rows cols : List Bool) : Acc :=
  if rows.contains true || cols.contains true then
    x.setAll fun i j => if i < m && j < n && (flag rows i || flag cols j) then free i j else x.elem i j
  else x

/-- A team draws the free elements of its accumulators, when any row or column is marked. -/
def State.drewAcc (s : State) (id : Nat) (marks : List Bool) : State := if marks.contains true then s.drew id 32768 else s

/-- Whether an element of a list touches any of some ranges. -/
def elemsMeet (rs : List (Nat × Nat)) (m : Shape) (l : List (Option Int)) : Bool :=
  l.any fun x =>
    match x with
    | some n => meets rs (elemOfs (shFormat m) (shOfs m) n).toNat (elemBytes (shFormat m))
    | none => false

/-- Whether the bytes between a record's ends touch any of some ranges. -/
def spanMeets (rs : List (Nat × Nat)) (m : Shape) : Bool :=
  let r := shRange m (shDims m)
  meets rs r.1.toNat (r.2 - r.1).toNat

/-- Rows of A that some ranges touch between two values of k. -/
def rowsHit (f : MmaM) (a b : Shape) (rs : List (Nat × Nat)) (k0 k1 : Nat) : List Bool :=
  let d := mmaDims f a b
  if spanMeets rs a then
    (List.range d.1).map fun i => elemsMeet rs a (((rowIdx f a d.2.2 i).take k1).drop k0)
  else List.replicate d.1 false

/-- Columns of B that some ranges touch between two values of k. -/
def colsHit (f : MmaM) (a b : Shape) (rs : List (Nat × Nat)) (k0 k1 : Nat) : List Bool :=
  let d := mmaDims f a b
  if spanMeets rs b then
    (List.range d.2.1).map fun j => elemsMeet rs b (((colIdx b d.2.2 j).take k1).drop k0)
  else List.replicate d.2.1 false

/-- The ranges of some that touch the tile-store operands of a queue entry. -/
def MOp.hit (op : MOp) (rs : List (Nat × Nat)) : List (Nat × Nat) :=
  match op with
  | .mma _ a b _ => rs.filter fun r => spanMeets [r] a || spanMeets [r] b
  | .ald _ m => rs.filter fun r => spanMeets [r] m
  | _ => []

/-- The accumulator of an MMA entry with the outputs undefined that its changed operands bear on, as far as it has read
them: up to `k1` (R137, R140). -/
def MEntry.spoilAcc (e : MEntry) (s : State) (rs : List (Nat × Nat)) (k1 : Nat) (x : Acc) : Acc :=
  match e.op with
  | .mma f a b _ =>
    let d := mmaDims f a b
    x.undefine (freeElem s e.who.team e.d) d.1 d.2.1 (rowsHit f a b rs (8 * f.kst.toNat) k1) (colsHit f a b rs (8 * f.kst.toNat) k1)
  | _ => x

/-- Drops the completed MMAs of an accumulator: it is full, or all of it has been replaced (R137). -/
def Vtile.forgetPast (v : Vtile) (d : ANum) : Vtile := { v with past := v.past.filter fun e => e.d != d }

/-- What changed bytes do to a vtile's matrix work: entries in the queue remember them, and completed MMAs whose accumulator
is still empty lose their outputs at once (R137). -/
def Vtile.touch (v : Vtile) (s : State) (rs : List (Nat × Nat)) : Vtile :=
  let hit := v.past.filter fun e => !(e.op.hit rs).isEmpty
  let v := { v with mq := v.mq.map fun e => { e with touched := e.touched ++ e.op.hit rs } }
  hit.foldl (fun v e => v.onAcc e.d (e.spoilAcc s rs e.kEnd)) v

/-! ### Operands of copies -/

/-- The key of a byte that a peer's package holds, for comparing updates only: package, handle slot and offset. -/
def peerKey (p hnd o : Nat) : Nat := 2 ^ 80 + (p * 2 ^ 20 + hnd % 2 ^ 20) * 2 ^ 40 + o

/-- The key of the byte at an offset of a record's operand, for an issuer at a vtile (R57, R61). Space 5 has none here. -/
def State.operandKey (s : State) (t : Team) (lr : Nat) (m : Shape) : Nat → Nat :=
  match shSpace m with
  | 0 => fun o => s.storeBase t.teamid lr + o
  | 1 => fun o => s.storeBase t.teamid (shVt m) + o
  | 5 => fun o => peerKey (shVt m) (shHnd m) o
  | _ =>
    let p := ((s.vtile? t.teamid lr).map (·.ptile)).getD 0
    (s.entry t (shHnd m)).key p

/-- The byte offset of the t-th element in transfer order. -/
def shElemOfs (m : Shape) (t : Nat) : Nat := (elemOfs (shFormat m) (shOfs m) (shIndex m t)).toNat

/-- Whether a record names the tile store of the vtile itself (R57). -/
def ownStore (lr : Nat) (m : Shape) : Bool := shSpace m == 0 || (shSpace m == 1 && shVt m == lr)

/-- Whether a record names a tile store. -/
def isStore (m : Shape) : Bool := shSpace m ≤ 1

/-- The vtile whose tile store a record names. -/
def storeVt (lr : Nat) (m : Shape) : Nat := if shSpace m = 0 then lr else shVt m

/-- The elements of a record that some ranges touch. -/
def hitElems (m : Shape) (rs : List (Nat × Nat)) : List Nat :=
  if spanMeets rs m then
    (List.range (shCount m)).filter fun t => meets rs (shElemOfs m t) (elemBytes (shFormat m))
  else []

/-- The destination bytes, with the bits of each, that correspond to changed source bytes; with `comb` whole elements
(R74, R144). -/
def hitBytes (dst src : Shape) (comb : Bool) (rs : List (Nat × Nat)) (ts : List Nat) : List (Nat × Byte) :=
  ts.flatMap fun t =>
    if shFormat src = .c4 then [(shElemOfs dst t, if shIndex dst t % 2 = 0 then 0x0F else 0xF0)]
    else (List.range (elemBytes (shFormat src))).filterMap fun j =>
      if comb || meets rs (shElemOfs src t + j) 1 then some (shElemOfs dst t + j, 0xFF) else none

/-- Fills bits of bytes with free ones (R8). -/
def State.freeKeys (s : State) (id : Nat) (ks : List (Nat × Byte)) : State :=
  match ks with
  | [] => s
  | _ => ((ks.zipIdx.foldl (fun z x =>
      z.update x.1.1 [(z.mem.byte x.1.1 &&& ~~~x.1.2) ||| (s.freeByteAt id x.2 &&& x.1.2)]) s)).drew id ks.length

/-- Makes the values that a landing brings to some offsets of its tile store free; `i` is the first free value it draws. -/
def Landing.spoil (s : State) (l : Landing) (os : List Nat) (i : Nat) : Landing :=
  { l with what := match l.what with
      | .bytes cs => .bytes (cs.zipIdx.map fun x =>
          if os.contains x.1.1 then (x.1.1, x.1.2.1, s.freeByteAt l.who.team (i + x.2)) else x.1)
      | .combine op f es => .combine op f (es.zipIdx.map fun x =>
          if os.contains x.1.1 then (x.1.1, (s.freeWordAt l.who.team (i + x.2)).toNat % 2 ^ f.bits) else x.1)
      | .swap f es => .swap f (es.zipIdx.map fun x =>
          if os.contains x.1.1 then (x.1.1, (s.freeWordAt l.who.team (i + x.2)).toNat % 2 ^ f.bits, x.1.2.2) else x.1) }

/-- The offsets that a landing writes first of each of its pieces. -/
def Landing.offsets (l : Landing) : List Nat :=
  match l.what with
  | .bytes cs => cs.map (·.1)
  | .combine _ _ es => es.map (·.1)
  | .swap _ es => es.map (·.1)

/-- Whether a landing brings the destination bytes of a copy. -/
def Landing.brings (l : Landing) (id : Nat) : Bool := l.of_ == .copy id && !l.back

/-- Elements in a chunk of 4,096 bytes (R66). -/
def chunkElems (t : Fmt) : Nat := 4096 * 8 / t.bits

/-- Whether a change of the tile store of a vtile is a change of the source that a copy has yet to read, or has read before
its counter advances (R74, R144); another vtile's store that a landing reads has R79 instead. -/
def CopyOp.reads (c : CopyOp) (id lr : Nat) : Bool :=
  c.who.team == id && isStore c.src && storeVt c.who.lrank c.src == lr && (ownStore c.who.lrank c.src || c.step.isSome)

/-- The destination bytes that have landed of a copy whose source changes now. -/
def spoiltLanded (s : State) (t : Team) (n : Nat) (c : CopyOp) (rs : List (Nat × Nat)) : List (Nat × Byte) :=
  if c.step.isSome then []
  else
    let ts := (hitElems c.src rs).filter fun i => i < chunkElems (shFormat c.src) * c.chunk
    let away := (s.landings.filter fun l => l.2.brings n).flatMap fun l => l.2.offsets
    let key := s.operandKey t c.who.lrank c.dst
    ((hitBytes c.dst c.src c.op.isSome rs ts).filter fun o => !away.contains o.1).map fun o => (key o.1, o.2)

/-- Whether the handle of an operand still names the memory that it named at issue; one in a tile store needs none (R65, R66). -/
def State.stands (s : State) (t : Team) (m : Shape) : Bool := isStore m || (s.entryNow t (shHnd m)).isSome

/-- The destination bytes of a performed copy whose source changes before its counter advances; a peer's memory is out of
reach, and so is memory that the handle no longer names (R65). -/
def spoiltDone (s : State) (t : Team) (c : DoneCopy) (rs : List (Nat × Nat)) : List (Nat × Byte) :=
  if shSpace c.dst = 5 || !s.stands t c.dst then []
  else
    let key := s.operandKey t c.who.lrank c.dst
    (hitBytes c.dst c.src c.comb rs (hitElems c.src rs)).map fun o => (key o.1, o.2)

/-- The bytes of the accumulators in the image of a diverted vtile that a change of the operands of a completed MMA makes
undefined (R137, R183). -/
def spoiltImage (t : Team) (lr : Nat) (v : Vtile) (rs : List (Nat × Nat)) : List (Nat × Byte) :=
  match v.div with
  | .saving | .diverting | .restoring => v.past.flatMap fun e =>
    match e.op with
    | .mma f a b _ =>
      if (e.op.hit rs).isEmpty then []
      else
        let d := mmaDims f a b
        let rows := rowsHit f a b rs (8 * f.kst.toNat) e.kEnd
        let cols := colsHit f a b rs (8 * f.kst.toNat) e.kEnd
        (List.range d.1).flatMap fun i => (List.range d.2.1).flatMap fun j =>
          if flag rows i || flag cols j then
            (interval (hbmKey (t.img lr + 524288 + 16384 * e.d.val + 256 * i + 4 * j)) 4).map fun x => (x, 0xFF)
          else []
    | _ => []
  | _ => []

/-- The bytes that become undefined as some ranges of a vtile's tile store change. `own` is the copy whose landing changes
them. -/
def State.spoilt (s : State) (id lr : Nat) (rs : List (Nat × Nat)) (own : Option Nat) : List (Nat × Byte) :=
  match s.team? id with
  | none => []
  | some t =>
    (s.copies.flatMap fun c => if c.2.reads id lr && own != some c.1 then spoiltLanded s t c.1 c.2 rs else [])
      ++ (s.doneCopies.flatMap fun c =>
        if c.who.team == id && isStore c.src && storeVt c.who.lrank c.src == lr then spoiltDone s t c rs else [])
      ++ match s.vtile? id lr with
        | some v => spoiltImage t lr v rs
        | none => []

/-- A landing on its way or in a log, whose first free value is the `i`-th, with what a change of its copy's source makes free;
`own` is the copy whose landing changes it. -/
def State.touchLanding (s : State) (id lr : Nat) (rs : List (Nat × Nat)) (own : Option Nat) (i : Nat) (l : Landing) : Landing :=
  match l.of_ with
  | .run _ _ => l
  | .copy n =>
    if l.back || own == some n then l
    else
      let hit : List (Nat × Byte) := match lookup n s.copies, s.doneCopies.find? fun c => c.id == n with
        | some c, _ => if c.reads id lr then hitBytes c.dst c.src c.op.isSome rs (hitElems c.src rs) else []
        | none, some c =>
          if c.who.team == id && isStore c.src && storeVt c.who.lrank c.src == lr then
            hitBytes c.dst c.src c.comb rs (hitElems c.src rs) else []
        | none, none => []
      match hit with
      | [] => l
      | os => l.spoil s (os.map (·.1)) i

/-- A record of a diversion log with what such a change makes free (R144). -/
def State.touchLog (s : State) (id lr : Nat) (rs : List (Nat × Nat)) (own : Option Nat) (r : LogRec × Nat) : LogRec :=
  match r.1 with
  | .land l => .land (s.touchLanding id lr rs own (2048 * r.2) l)
  | x => x

/-- Changes the records of a vtile's log, given their places. -/
def Vtile.relog (v : Vtile) (f : LogRec × Nat → LogRec) : Vtile :=
  if v.recs.isEmpty && v.owed.isEmpty then v else { v with recs := v.recs.zipIdx.map f, owed := v.owed.zipIdx.map f }

/-- What changed ranges of a vtile's tile store do to the copies that have yet to read or to land them, in the fabric or in the
log of a diverted vtile. -/
def State.touchCopies (s : State) (id lr : Nat) (rs : List (Nat × Nat)) (own : Option Nat) : State :=
  { s with
    copies := s.copies.map fun c =>
      if c.2.reads id lr && own != some c.1 && !(hitElems c.2.src rs).isEmpty then
        (c.1, { c.2 with touched := c.2.touched ++ rs.filter fun r => spanMeets [r] c.2.src })
      else c
    landings := s.landings.map fun l => (l.1, s.touchLanding id lr rs own (4096 * l.1) l.2)
    vtiles := s.vtiles.map fun v => (v.1, v.2.relog (s.touchLog id lr rs own)) }

/-- The virtual key of a byte of a vtile's tile store, for the work of Virga: stores move, and the vtile names them. -/
def storeVirt (id lr o : Nat) : Nat := 2 ^ 90 + vtileKey id lr * 2 ^ 19 + o

/-- Whether a run has not ended. -/
def Run.open_ (r : Run) : Bool := r.st == .waiting || r.st == .running

/-- Whether changed virtual keys concern a graph that loads from a tile store (R218). -/
def Graph.loadsFrom (g : Graph) (r : Nat × Nat) : Bool :=
  g.st == .loading && awHnd g.addr == 0
    && State.overlap r.1 r.2 (storeVirt g.who.team g.who.lrank (awOfs g.addr)) (2 ^ 20)

/-- Notes changed bytes, by virtual key, in the graphs that load from them and in the runs that read them (R218, R223). -/
def State.touchRuns (s : State) (rs : List (Nat × Nat)) : State :=
  if s.runs.isEmpty && s.graphs.isEmpty then s
  else { s with
    graphs := s.graphs.map fun g => (g.1, { g.2 with touched := g.2.touched ++ rs.filter g.2.loadsFrom })
    runs := s.runs.map fun r =>
      if r.2.open_ then (r.1, { r.2 with touched := r.2.touched ++ rs.filter fun x => meets r.2.reads x.1 x.2 }) else r }

/-- What changed ranges of a vtile's tile store do to copies and to the matrix unit (R74, R137, R144). `own` is the copy whose
landing changes them: its own overlap is settled as it moves (R144). -/
def State.touchWork (s : State) (id lr : Nat) (rs : List (Nat × Nat)) (own : Option Nat := none) : State :=
  let ks := s.spoilt id lr rs own
  let s := if (s.copies.any fun c => c.2.reads id lr) || !s.doneCopies.isEmpty then
    (s.touchCopies id lr rs own).drew id (4096 * s.fresh + 8388608) else s
  let s := match s.vtile? id lr with
    | some v =>
      if v.mq.isEmpty && v.past.isEmpty then s
      else (s.putVtile id lr (v.touch s rs)).drewAcc id [v.past.any fun e => !(e.op.hit rs).isEmpty]
    | none => s
  s.freeKeys id ks

/-- What changed ranges of a vtile's tile store do to engine work (R74, R137, R144, R218, R223). -/
def State.touchStore (s : State) (id lr : Nat) (rs : List (Nat × Nat)) (own : Option Nat := none) : State :=
  (s.touchWork id lr rs own).touchRuns (rs.map fun r => (storeVirt id lr r.1, r.2))

/-- What changed bytes of level memory do to deferred copies that have yet to read them (R74). -/
def State.touchKeysWork (s : State) (ks : List Nat) : State :=
  if ks.isEmpty || s.copies.isEmpty then s
  else { s with copies := s.copies.map fun c =>
    match c.2.step, s.team? c.2.who.team with
    | some _, some t =>
      if isStore c.2.src || shSpace c.2.src == 5 then c
      else
        let key := s.operandKey t c.2.who.lrank c.2.src
        let os := (List.range (shCount c.2.src)).flatMap fun i =>
          (interval (shElemOfs c.2.src i) (elemBytes (shFormat c.2.src))).filter fun o => ks.contains (key o)
        (c.1, { c.2 with touched := c.2.touched ++ os.map fun o => (o, 1) })
    | _, _ => c }

/-- What changed bytes of level memory do to engine work that has yet to read them (R74, R223). -/
def State.touchKeys (s : State) (ks : List Nat) : State := (s.touchKeysWork ks).touchRuns (ks.map fun k => (k, 1))

/-- The bytes of a performed deferred copy that become undefined as bytes of level memory change before its counter advances
(R74), where its handle still names them (R65). -/
def State.spoiltOf (s : State) (c : DoneCopy) (ks : List Nat) : List (Nat × Byte) :=
  match s.team? c.who.team with
  | none => []
  | some t =>
    if isStore c.src || shSpace c.src == 5 || shSpace c.dst == 5 || isStore c.dst || !s.stands t c.dst then []
    else
      let sk := s.operandKey t c.who.lrank c.src
      let dk := s.operandKey t c.who.lrank c.dst
      let os := (List.range (shCount c.src)).flatMap fun i =>
        (interval (shElemOfs c.src i) (elemBytes (shFormat c.src))).filter fun o => ks.contains (sk o)
      let rs := os.map fun o => (o, 1)
      (hitBytes c.dst c.src c.comb rs (hitElems c.src rs)).map fun o => (dk o.1, o.2)

/-- What changed bytes of level memory do to copies that have been performed while their counters have not advanced (R74). -/
def State.spoilDone (s : State) (done : List DoneCopy) (ks : List Nat) : State :=
  if ks.isEmpty then s else done.foldl (fun s c => s.freeKeys c.who.team (s.spoiltOf c ks)) s

/-! ### The order among the stores of a vtile's strands (R72) -/

/-- The names of the strands of a vtile, in slots and saved. -/
def State.strandNames (s : State) (id lr : Nat) (v : Vtile) : List Nat :=
  ((List.range 9).filterMap fun i =>
      match s.strandAt v.ptile i with
      | some k => if k.team == id && k.lrank == lr then some k.uid else none
      | none => none)
    ++ v.saves.map fun c => c.2.uid

/-- Whether a store is ordered before what strand `uid` does now: it is its own, or a barrier or an observed CTRADD lies between
(R72, R138). -/
def Races.ordered (r : Races) (st : StoreRec) (uid : Nat) : Bool :=
  st.uid == uid || r.orders.any fun o => o.1 == st.uid && o.2.1 == uid && st.n < o.2.2

/-- Whether a store or an operation on a join cell races with what strand `uid` does to the same cell: it is not ordered before
that, nor did it come before the strand began. DEDUCED for the beginning: R38 speaks of stores that race, and a strand does
nothing before it begins (log 9). -/
def Races.unordered (r : Races) (st : StoreRec) (uid : Nat) : Bool := !(r.ordered st uid || st.born ≤ uid)

/-- What a strand knows of the stores of its vtile: its own, and those in order before it. -/
def Races.knows (r : Races) (uid : Nat) : List (Nat × Nat) :=
  (uid, r.tick) :: r.orders.filterMap fun o => if o.2.1 == uid then some (o.1, o.2.2) else none

/-- A strand comes after stores that others know of. -/
def Races.learn (r : Races) (uid : Nat) (ks : List (Nat × Nat)) : Races :=
  { r with orders := r.orders ++ (ks.filter fun k => k.1 != uid &&
      !r.orders.any fun o => o.1 == k.1 && o.2.1 == uid && k.2 ≤ o.2.2).map fun k => (k.1, uid, k.2) }

/-- A CTRADD carries what its strand knows (R72). -/
def Races.carry (r : Races) (uid ofs : Nat) : Races :=
  if r.stores.isEmpty then r else { r with ctrs := r.ctrs ++ (r.knows uid).map fun k => (ofs, k.1, k.2) }

/-- A WAITGE that completes has observed the CTRADDs on its counter (R72). -/
def Races.observe (r : Races) (uid ofs : Nat) : Races :=
  r.learn uid (r.ctrs.filterMap fun c => if c.1 == ofs then some c.2 else none)

/-- Drops the operations on cells that no strand that lives can race with any more. A store stays: strands yet to begin come after
it by no rule (R138). -/
def Races.prune (r : Races) (live : List Nat) : Races :=
  let stores := r.stores.filter fun st => !st.cell || live.any fun b => r.unordered st b
  let alive (a n : Nat) : Bool := stores.any fun st => st.uid == a && st.n < n
  { r with stores, orders := r.orders.filter fun o => alive o.1 o.2.2, ctrs := r.ctrs.filter fun c => alive c.2.1 c.2.2 }

/-- Notes the stores, or the operation on a join cell, of a strand; a later store of a strand stands for its earlier ones to the
same bytes. -/
def Races.note (r : Races) (uid born : Nat) (rs : List (Nat × Nat)) (cell : Bool) : Races :=
  let covered (st : StoreRec) : Bool := st.uid == uid && st.cell == cell && rs.any fun x => x.1 ≤ st.lo && st.lo + st.len ≤ x.1 + x.2
  { r with
    tick := r.tick + 1
    stores := (r.stores.filter fun st => !covered st) ++ rs.map fun x => ⟨uid, born, r.tick, x.1, x.2, cell⟩
    ctrs := if cell then r.ctrs else r.ctrs.filter fun c => !meets rs c.1 8 }

/-- Stores of other strands that race with what engine work of strand `uid` reads (R138, R223). -/
def Races.rivals (r : Races) (uid : Nat) : List (Nat × Nat) :=
  (r.stores.filter fun st => !st.cell && !r.ordered st uid).map fun st => (st.lo, st.len)

/-- Stores of other strands, or their operations on join cells, that race with strand `uid` on a join cell (R38). -/
def Races.cellRivals (r : Races) (uid : Nat) (cell : Bool) : List (Nat × Nat) :=
  (r.stores.filter fun st => st.cell == cell && r.unordered st uid).map fun st => (st.lo, st.len)

/-- Changes the order among the stores of a vtile. -/
def State.onRace (s : State) (id lr : Nat) (f : Races → Races) : State :=
  match s.vtile? id lr with
  | some v => s.putVtile id lr { v with race := f v.race }
  | none => s

/-- Notes what strand `k` stored, for the strands of its vtile that may race with it. -/
def State.noteRace (s : State) (k : Strand) (rs : List (Nat × Nat)) (cell : Bool) : State :=
  match s.vtile? k.team k.lrank with
  | none => s
  | some v =>
    s.putVtile k.team k.lrank { v with
      race := (v.race.note k.uid s.fresh rs cell).prune (s.strandNames k.team k.lrank v) }

/-- The bytes of join cells whose operations some stores of strand `k` race with (R38). -/
def State.racedCells (s : State) (k : Strand) (rs : List (Nat × Nat)) : List (Nat × Byte) :=
  match s.vtile? k.team k.lrank with
  | none => []
  | some v =>
    ((v.race.cellRivals k.uid true).filter fun c => meets rs c.1 c.2).flatMap fun c =>
      (interval (storeKey v.ptile c.1) c.2).map fun a => (a, 0xFF)

/-- The counters of a vtile that an increment can still reach (R97): one in flight, or that of a copy, of a graph that loads or
of a SIGNAL in an open run. -/
def State.awaited (s : State) (id lr : Nat) : List Nat :=
  let names (w : Issuer) (d : Word) : Option Nat := if w.team == id && !ctrNone d && ctrVt d == lr then some (ctrOfs d) else none
  (s.incs.filterMap fun i => if i.2.who.team == id && i.2.vt == lr then some i.2.ofs else none)
    ++ (s.copies.filterMap fun c => if c.2.posted.isNone then names c.2.who c.2.ctr else none)
    ++ (s.graphs.filterMap fun g => if g.2.st == .loading then names g.2.who g.2.ctr else none)
    ++ s.runs.flatMap fun r => if r.2.open_ then r.2.binds.filterMap fun b =>
        if bit b.toNat 127 then names r.2.who (BitVec.ofNat 64 (field b.toNat 0 40)) else none else []

/-- Notes which counters among the ranges that strand `k` stored it has lowered, since `old`, while an increment can still
arrive: what a WAITGE then observes is undefined (R97, R386). A later store to the counter with none to come settles it. -/
def State.noteLowered (s old : State) (k : Strand) (rs : List (Nat × Nat)) : State :=
  match s.vtile? k.team k.lrank with
  | none => s
  | some v =>
    let near := (s.awaited k.team k.lrank).filter fun o => meets rs o 8
    let fell := near.filter fun o =>
      s.mem.num (storeKey v.ptile o) 8 < old.mem.num (storeKey v.ptile o) 8 && !v.race.lowered.contains o
    let lowered := (v.race.lowered.filter fun o => near.contains o || !meets rs o 8) ++ fell
    if lowered = v.race.lowered then s else s.putVtile k.team k.lrank { v with race := { v.race with lowered } }

/-- Whether what a WAITGE of strand `k` observes of a counter is undefined (R386). -/
def State.loweredAt (s : State) (k : Strand) (ofs : Nat) : Bool :=
  (s.vtile? k.team k.lrank).any fun v => v.race.lowered.contains ofs

/-- A strand's store to ranges of its tile store, done by `w`: work that reads the bytes hears of it (R137, R144), a join cell
whose operations race with it is undefined (R38), so are what later reads it races with (R138), and what a WAITGE observes of a
counter that it lowers too early (R386). -/
def State.storing (s : State) (k : Strand) (rs : List (Nat × Nat)) (w : State → State) : State :=
  let z := w (s.touchStore k.team k.lrank rs)
  ((z.freeKeys k.team (z.racedCells k rs)).noteRace k rs false).noteLowered s k rs

/-- Strand `k` is to operate on a join cell of its tile store: a store of another strand that races with the operation leaves
the cell undefined (R38), and the cell's bytes change (R137). -/
def State.cellRace (s : State) (k : Strand) (ofs : Nat) : State :=
  let s := match s.vtile? k.team k.lrank with
    | some v =>
      if meets (v.race.cellRivals k.uid false) ofs 16 then
        s.freeKeys k.team ((interval (storeKey v.ptile ofs) 16).map fun a => (a, 0xFF))
      else s
    | none => s
  (s.touchStore k.team k.lrank [(ofs, 16)]).noteRace k [(ofs, 16)] true

end Sys2Proof.Machine
end

