-- ==== Sys2Proof/Machine/Arrive.lean ====
section
/-! DEFINITION. Trace records (R256, R257), and recording an arrival at a barrier phase (R19, R20, R87, R88, R94). -/

namespace Sys2Proof.Machine

namespace State

/-- Pod time in ns. -/
def now (s : State) : Nat := s.podtime.toNat

/-- The TRCTL bit that enables a kind of record (R256, R257). -/
def traceBit (kind : Nat) : Nat :=
  match kind with
  | 1 => 62
  | 2 | 3 => 61
  | 4 | 5 | 6 => 60
  | 7 => 59
  | 8 | 9 => 58
  | _ => 63

/-! ### Quiescing (R194, R195) -/

/-- The colour of a team's packets (R194). -/
def colour (s : State) (id : Nat) : Nat :=
  match s.team? id with
  | some t => ((lookup t.asid s.acolor).map (·.toNat)).getD 0
  | none => 0

/-- Whether a tile stands in the partition of a quiesce (R195). -/
def inPartition (s : State) (tile : Nat) : Bool := bit s.quiesce.toNat (8 + tile / 256)

/-- Whether a quiesce blocks new packets of a team's tile (R195). -/
def heldBack (s : State) (id tile : Nat) : Bool :=
  bit s.quiesce.toNat 61 && s.colour id == field s.quiesce.toNat 0 6 && s.inPartition tile

/-- Whether a quiesce blocks packets of a team at the edge dies, where what peers send enters the package (R195). -/
def heldEdge (s : State) (id : Nat) : Bool :=
  bit s.quiesce.toNat 61 && bit s.quiesce.toNat 12 && s.colour id == field s.quiesce.toNat 0 6

/-! ### Trace (R256 to R258) -/

/-- Puts a record into the buffer of a tile's encoder, or counts it dropped; one that fits after others were dropped comes
behind an overflow record that states their number (R258). -/
def buffered (x : Tile) (r lost : Nat) : Tile :=
  if x.trdrop = 0 then
    if x.trbuf.length < 64 then { x with trbuf := x.trbuf ++ [r] } else { x with trdrop := 1 }
  else if x.trbuf.length + 1 < 64 then { x with trbuf := x.trbuf ++ [lost, r], trdrop := 0 }
  else { x with trdrop := x.trdrop + 1 }

/-- The HBM address of the `i`-th record of a tile from TRPOS on (R256, R258). -/
def ringAt (x : Tile) (i : Nat) : Nat :=
  let c := x.trctl.toNat
  field c 12 40 * 2 ^ 12 + 16 * ((x.trpos.toNat + i) % 2 ^ (field c 52 6 + 8))

/-- Writes the buffered records of a tile to its ring, in order (R258). -/
def storeTrace (s : State) (tile : Nat) : State :=
  let x := s.tile tile
  (x.trbuf.zipIdx.foldl (fun s r => s.hbmPut (ringAt x r.2) 16 r.1) s).putTile tile
    { x with trbuf := [], trpos := x.trpos + BitVec.ofNat 64 x.trbuf.length }

/-- The way of the buffered records of a tile to the home of the next one, and their flits (R10, R210). -/
def traceWay (s : State) (tile : Nat) : List Nat × Nat :=
  let x := s.tile tile
  (sitePath (tileSite tile) (s.homeSite (hbmKey (ringAt x 0))), 1 + (16 * x.trbuf.length + 63) / 64)

/-- Sends the buffered records of a tile to its ring in class 1, unless a quiesce holds its packets back (R195, R238, R258). -/
def flushTrace (s : State) (tile : Nat) : State :=
  let x := s.tile tile
  let held := match x.owner with
    | some o => s.heldBack o.1 tile
    | none => false
  if x.trbuf.isEmpty || held then s
  else
    let w := s.traceWay tile
    let c := s.cross (traceHop tile) w.1 1 w.2
    if c.1 then c.2.storeTrace tile else c.2

/-- Writes a trace record of a tile: into the encoder's buffer, and from there to its ring (R256 to R258). -/
def trace (s : State) (tile lvt slot kind info data : Nat) : State :=
  let x := s.tile tile
  if bit x.trctl.toNat 63 && bit x.trctl.toNat (traceBit kind) then
    let r := pack [5, 5, 4, 10, 40, 64] [kind, info, slot, lvt, s.now, data]
    let lost := pack [5, 5, 4, 10, 40, 64] [10, 0, slot, lvt, s.now, x.trdrop]
    (s.putTile tile (buffered x r lost)).flushTrace tile
  else s

/-- Writes the trace record of a vtile's event on the tile where it stands. -/
def traceVt (s : State) (id lr slot kind info data : Nat) : State :=
  match s.vtile? id lr with
  | some v => if v.res then s.trace v.ptile lr slot kind info data else s
  | none => s

/-- The phase of a superstep; one that is not listed has no arrival. -/
def phase (u : BarUnit) (k : Nat) : Phase := (lookup k u.phases).getD ⟨none, none, [], [], false, false, false, false, 0⟩

/-- The other member packages of a team. -/
def others (t : Team) : List Nat := (List.range t.nP).filter (· != t.pc)

/-- Records an arrival of a phase: a stated arrival fixes the operation, and CNT at tile scope, when none did (R87). At pod
scope the other member packages hear of it (R199), and at tile scope it keeps the stores that its strand knows (R72). -/
def record (s : State) (id : Nat) (l : Scope) (u k : Nat) (a : Arrival) (rop : BOp) (cnt : Nat) : State :=
  let x := s.unit id l u
  let p := phase x k
  let a := match l, s.vtile? id u with
    | .tile, some v => if v.race.stores.isEmpty then a else { a with knows := v.race.knows a.who }
    | _, _ => a
  let p :=
    if a.forced then { p with arrivals := p.arrivals ++ [a] }
    else { p with
      arrivals := p.arrivals ++ [a], rop := some (p.rop.getD rop)
      cnt := if l = .tile then some (p.cnt.getD cnt) else p.cnt }
  let s := s.putUnit id l u { x with phases := insertAt k p x.phases }
  match l, s.team? id with
  | .pod, some t => s.tellPeers id (others t) fun q z => .podArrival q z id k a (if a.forced then none else p.rop)
  | _, _ => s

/-- The current superstep of a vtile at a scope from 2 to 5 (R19). -/
def current (v : Vtile) (l : Scope) : Nat := v.cur.toList.getD (Scope.code l - 2) 0

/-- Moves a vtile's current superstep. -/
def setCurrent (v : Vtile) (l : Scope) (k : Nat) : Vtile :=
  if h : Scope.code l - 2 < 4 then { v with cur := v.cur.set (Scope.code l - 2) k } else v

/-- Whether an arrival disagrees with what its phase has fixed (R88). -/
def mismatch (p : Phase) (l : Scope) (rop : BOp) (cnt : Nat) : Bool :=
  (p.rop.isSome && p.rop != some rop) || (l == .tile && p.cnt.isSome && p.cnt != some cnt)

/-- Finds a strand of a vtile by its name: its slot on the tile. -/
def findStrand (s : State) (ptile id lr uid : Nat) : Option (Nat × Strand) :=
  ((List.range 8).filterMap fun i => (s.strandAt ptile i).map fun k => (i, k)).find? fun x =>
    x.2.uid == uid && x.2.team == id && x.2.lrank == lr

/-- The superstep at which a vtile, or one of its strands with TAHEAD `ta`, arrives next (R19). -/
def target (s : State) (t : Team) (id lr : Nat) (l : Scope) (ta : Nat) : Nat :=
  match l with
  | .tile => s.stepOf t id .tile lr + ta
  | _ =>
    match s.vtile? id lr with
    | some v => current v l
    | none => 0

/-- Records a forced arrival of a vtile at its current superstep of a scope from 2 to 5, or stalls it (R20, R94). -/
def forceVtile (s : State) (t : Team) (id lr : Nat) (l : Scope) (code : BitVec 16) : State :=
  let u := t.unitOf l lr
  let k := s.target t id lr l 0
  let x := s.unit id l u
  if k < x.step + 4 then
    ((s.record id l u k ⟨lr, none, code, true, s.now, []⟩ .none 0).onVtile id lr fun v => setCurrent v l (k + 1)).traceVt
      id lr 0 2 (Scope.code l) k
  else s.putUnit id l u { x with stalled := x.stalled ++ [⟨.forced, lr, 0, k, false, .none, 0, 0, code⟩] }

/-- The slot of a strand of a vtile, 0 where it has none. -/
def slotOf (s : State) (id lr uid : Nat) : Nat :=
  match s.vtile? id lr with
  | some v => ((s.findStrand v.ptile id lr uid).map (·.1)).getD 0
  | none => 0

/-- Records the forced arrival of a strand at superstep k of its vtile's tile unit (R94, R257). -/
def forceTileAt (s : State) (id lr uid k : Nat) : State :=
  (s.record id .tile lr k ⟨uid, none, 0xFF00, true, s.now, []⟩ .none 0).traceVt id lr (s.slotOf id lr uid) 2 1 k

/-- Records the forced arrival of a strand at tile scope, or stalls it; answers the strand's new TAHEAD (R19, R94). -/
def forceStrand (s : State) (t : Team) (id lr : Nat) (uid ta : Nat) : State × Nat :=
  let k := s.target t id lr .tile ta
  let x := s.unit id .tile lr
  if k < x.step + 4 then (s.forceTileAt id lr uid k, ta + 1)
  else
    (s.putUnit id .tile lr { x with stalled := x.stalled ++ [⟨.forced, lr, uid, k, false, .none, 0, 0, 0xFF00⟩] }, ta)

/-- The forced arrivals of a precise fault (R94): one at the strand's tile phase and one at every scope from 2 to 5. -/
def forceAll (s : State) (t : Team) (id lr uid ta : Nat) : State × Nat :=
  let (s, ta) := s.forceStrand t id lr uid ta
  ((([Scope.grp, .die, .pkg, .pod].foldl (fun s l => s.forceVtile t id lr l 0xFF00)) s), ta)

end State

end Sys2Proof.Machine
end

