-- ==== Sys2Proof/Machine/Save.lean ====
section
/-! DEFINITION. Continuation records and their queues (R28 to R32, R42, R45), the strand save image (R52), and updates of
strands wherever they stand: in a slot, in a save image, or behind a diversion log (R186). -/

namespace Sys2Proof.Machine

/-! ### Continuation records (R28, R30) -/

/-- Bits of a record. -/
def recBits (r : BitVec 512) (lo len : Nat) : Nat := field r.toNat lo len
def recCode (r : BitVec 512) : Nat := recBits r 0 64
def recFrame (r : BitVec 512) : Nat := recBits r 64 64
def recJcell (r : BitVec 512) : Nat := recBits r 128 64
def recArg (r : BitVec 512) (i : Nat) : Nat := recBits r (192 + 64 * i) 64
def recSeq (r : BitVec 512) : Nat := recBits r 448 24
def recHint (r : BitVec 512) : Nat := recBits r 490 10
def recQs (r : BitVec 512) : Nat := recBits r 500 2
def recPin (r : BitVec 512) : Bool := recBits r 502 1 == 1
def recPrio (r : BitVec 512) : Nat := recBits r 503 5
def recKind (r : BitVec 512) : Nat := recBits r 508 4

/-- A record with a field replaced. -/
def recSet (r : BitVec 512) (lo len v : Nat) : BitVec 512 := BitVec.ofNat 512 (setField r.toNat lo len v)

/-- The checks of R31 that name no handle; `len` is the length of the code handle's entry. -/
def recMalformed (t : Team) (r : BitVec 512) (len : Nat) : Bool :=
  recKind r != 0 || recBits r 488 2 != 0 || recQs r == 3 || (recPin r && recQs r != 0) || t.size ≤ recHint r
    || recCode r % 8 != 0 || len ≤ recCode r
    || (recJcell r != 0 && recJcell r % 16 != 0)
    || (recJcell r != 0 && recJcell r / 2 ^ 32 == 0 && !recPin r)

/-- The check of R31 on a join cell that a handle names. -/
def jcellMalformed (s : State) (t : Team) (r : BitVec 512) : Bool :=
  recJcell r / 2 ^ 32 != 0 &&
    match checkAll s t [wordOpd (BitVec.ofNat 64 (recJcell r)) 2 16 16 .wa] with
    | .ok _ => false
    | .error _ => true

/-- The queue that a record names (R30, R45). -/
def recTarget (t : Team) (r : BitVec 512) : QTarget :=
  match recQs r with
  | 0 => .vt (recHint r)
  | 1 => .grp (recHint r / t.nT)
  | _ => .pkg

/-! ### Queues (R45, R399) -/

/-- Records of a queue. -/
def Team.inQueue (t : Team) (q : QTarget) : List QEntry := t.queued.filter (·.target == q)

/-- Capacity of a queue (R158). -/
def Team.cap (t : Team) : QTarget → Nat
  | .vt _ => t.vqCap
  | .grp _ => t.gqCap
  | .pkg => t.pqCap

/-- HBM address of a queue's part of the team area (R399). -/
def Team.qAddr (t : Team) : QTarget → Nat
  | .vt lr => t.area + t.oVq + lr * up4k (64 * t.vqCap)
  | .grp g => t.area + t.oGq + g * up4k (64 * t.gqCap)
  | .pkg => t.area + t.oPq

/-- A queue that an addition finds full: no room, or a released record waits for it (R42). -/
def Team.qFull (t : Team) (q : QTarget) : Bool :=
  t.cap q ≤ (t.inQueue q).length || t.parked.any fun p => p.released.isSome && p.target == q

/-- The lowest number that a list does not hold. -/
def leastFree (used : List Nat) : Nat := ((List.range (used.length + 1)).find? fun i => !used.contains i).getD used.length

/-- SEQ values held in the queues and the park pool (R32). -/
def Team.heldSeqs (t : Team) : List Nat :=
  (t.queued.filter (·.save.isNone)).map (·.seq) ++ t.parked.map (·.seq)

/-- The value of the SEQ counter after another, which skips 0 (R32). -/
def seqAfter (n : Nat) : Nat := if (n + 1) % 2 ^ 24 = 0 then 1 else (n + 1) % 2 ^ 24

/-- The first value from a counter on that no held record bears (R32). -/
def freeSeq (held : List Nat) : Nat → Nat → Nat
  | 0, n => n
  | f + 1, n => if held.contains n then freeSeq held f (seqAfter n) else n

/-- NextSeq of R32: the value and the team with its counter advanced. -/
def Team.takeSeq (t : Team) : Nat × Team :=
  let n := freeSeq t.heldSeqs (t.heldSeqs.length + 1) t.seq
  (n, { t with seq := seqAfter n })

namespace State

/-- The clock that the time of a record in a queue is told by: that of the die where the vtile or virtual group stands, and the
package's nominal one (R5, R162). -/
def queueClock (s : State) (t : Team) : QTarget → Nat
  | .vt lr => (s.cycleOf (((s.vtile? t.teamid lr).map (·.ptile)).getD 0)).toNat
  | .grp g => (s.cycleOf (t.map0.getD (g * t.nT) 0)).toNat
  | .pkg => s.cycle.toNat

/-- Puts a record into a queue, at the lowest free place of its part of the team area (log 16). DESIGN CHOICE: a resumable record,
which has no SEQ, stands among the records of its priority by the time at which it was enqueued (R45; log 37). -/
def enqueue (s : State) (id : Nat) (q : QTarget) (r : BitVec 512) (seq prio : Nat) (save : Option Nat) (waiting : Bool) :
    State :=
  match s.team? id with
  | none => s
  | some t =>
    let idx := leastFree ((t.inQueue q).map (·.idx))
    let e : QEntry := ⟨r, q, seq, t.ord, prio, save, waiting, s.queueClock t q, idx⟩
    (s.putTeam id { t with queued := t.queued ++ [e], ord := t.ord + 1 }).commit (hbmKey (t.qAddr q + 64 * idx))
      (bytesOf 64 r.toNat)

/-- Completes a record as SPAWN does and enqueues it: TEAM and SEQ are written (R40). Answers the ticket. -/
def spawnRec (s : State) (id : Nat) (r : BitVec 512) : Word × State :=
  match s.team? id with
  | none => (0, s)
  | some t =>
    let (seq, t') := t.takeSeq
    let r := recSet (recSet r 472 16 t.teamid) 448 24 seq
    let s := (s.putTeam id t').enqueue id (recTarget t r) r seq (min (recPrio r) t.prio) none false
    (BitVec.ofNat 64 (recQs r * 2 ^ 62 + recHint r * 2 ^ 52 + seq), s)

/-- Releases the parked record of a ticket: it enters its queue, or waits in the pool for room (R42). -/
def release (s : State) (id : Nat) (ticket : Word) : State :=
  match s.team? id with
  | none => s
  | some t =>
    match t.parked.find? fun p => p.ticket == ticket && p.released.isNone with
    | none => s
    | some p =>
      if t.qFull p.target then
        s.putTeam id { t with
          parked := t.parked.map fun x => if x.ticket == ticket && x.released.isNone then { x with released := some t.ord }
            else x
          ord := t.ord + 1 }
      else
        let rest := t.parked.filter fun x => !(x.ticket == ticket && x.released.isNone)
        let s := s.putTeam id { t with parked := rest }
        let idx := leastFree ((t.inQueue p.target).map (·.idx))
        let e : QEntry := ⟨p.record, p.target, p.seq, p.ord, p.prio, none, false, s.queueClock t p.target, idx⟩
        (s.onTeam id fun t => { t with queued := t.queued ++ [e] }).commit (hbmKey (t.qAddr p.target + 64 * idx))
          (bytesOf 64 p.record.toNat)

end State

/-- The record that a saved strand becomes (R50): KIND 1, PIN 1, QS 0, its own vtile, its priority, and in FRAME the number
of its save slot (log 16). -/
def resumableRec (lr slot prio : Nat) : BitVec 512 :=
  BitVec.ofNat 512 (pack [64, 64, 320, 24, 16, 2, 10, 2, 1, 5, 4] [0, slot, 0, 0, 0, 0, lr, 0, 1, prio, 1])

/-! ### The strand save image (R52) -/

/-- The wait state of R52. What else waits at its instruction has 0; a vacate saves a stalled arrival as none (R180). -/
def Wait.code : Wait → Nat
  | .waitge _ _ _ => 1
  | .barrier _ _ _ _ => 2
  | .empty => 3
  | .fifth => 4
  | .none | .fence | .limit | .htinv _ => 0

/-- The bytes of a save slot (R52). -/
def imageOf (k : Strand) : List Byte :=
  k.v.toList.flatMap (fun x => bytesOf 256 x.toNat)
    ++ bytesOf 8 k.pc.toNat ++ bytesOf 8 k.summary.toNat ++ bytesOf 8 (k.sfull ||| 1).toNat ++ bytesOf 4 k.vfull.toNat
    ++ bytesOf 4 k.wait.code
    ++ (k.p.toList.drop 1).flatMap (fun x => bytesOf 32 x.toNat) ++ bytesOf 8 k.jcell.toNat
    ++ (k.s.toList.drop 1).flatMap (fun x => bytesOf 8 x.toNat)
    ++ k.m.toList.flatMap (fun x => bytesOf 32 x.toNat)

/-- The strand that a save slot's bytes at a key hold, with what the device kept beside them. -/
def strandOf (m : Memory) (a id lr : Nat) (i : SaveInfo) : Strand where
  team := id
  lrank := lr
  uid := i.uid
  pc := BitVec.ofNat 64 (m.num (a + 8192) 8)
  s := Vector.ofFn fun r : Fin 64 => if r.val = 0 then 0 else BitVec.ofNat 64 (m.num (a + 8704 + 8 * r.val) 8)
  v := Vector.ofFn fun r : Fin 32 => BitVec.ofNat 2048 (m.num (a + 256 * r.val) 256)
  p := Vector.ofFn fun r : Fin 16 =>
    if r.val = 0 then BitVec.allOnes 256 else BitVec.ofNat 256 (m.num (a + 8192 + 32 * r.val) 32)
  m := Vector.ofFn fun r : Fin 16 => BitVec.ofNat 256 (m.num (a + 9216 + 32 * r.val) 32)
  sfull := BitVec.ofNat 64 (m.num (a + 8208) 8) ||| 1
  vfull := BitVec.ofNat 32 (m.num (a + 8216) 4)
  spoison := i.spoison
  summary := BitVec.ofNat 64 (m.num (a + 8200) 8)
  jcell := BitVec.ofNat 64 (m.num (a + 8704) 8)
  prio := i.prio
  wait := i.wait
  waitSince := i.waitSince
  readySince := none
  held := i.held
  tahead := i.tahead
  replay := i.replay

/-- What the device keeps of a strand that it saves. -/
def SaveInfo.of (k : Strand) (why : SaveWhy) : SaveInfo where
  uid := k.uid
  why := why
  prio := k.prio
  wait := k.wait
  held := k.held
  tahead := k.tahead
  replay := k.replay
  spoison := k.spoison
  waitSince := k.waitSince
  resumed := false

/-- The lowest free save slot from 8 on (R49, R169). -/
def freeSave (t : Team) (v : Vtile) : Option Nat :=
  (interval 8 (t.nsave - 8)).find? fun n => (lookup n v.saves).isNone

namespace State

/-- A strand as its save image shows it: the last contents of an empty register are undefined (R8, R52). -/
def imaged (s : State) (k : Strand) : Strand :=
  if k.allFull then k
  else { k with
    s := Vector.ofFn fun r : Fin 64 => if k.full r then k.s.get r else s.freeWordAt k.team r.val
    v := Vector.ofFn fun r : Fin 32 => if k.fullV r then k.v.get r
      else BitVec.ofNat 2048 (ofLanes 64 ((List.range 32).map fun i => (s.freeWordAt k.team (64 + 32 * r.val + i)).toNat)) }

/-- Saves a strand into a save slot of its vtile (R52). -/
def saveInto (s : State) (t : Team) (n : Nat) (k : Strand) (why : SaveWhy) : State :=
  ((s.commit (hbmKey (t.slotAddr k.lrank n)) (imageOf (s.imaged k))).drew k.team (if k.allFull then 0 else 1088)).onVtile k.team k.lrank fun v =>
    { v with saves := insertAt n (SaveInfo.of k why) v.saves }

/-! ### Updates of a strand wherever it stands (R186, R193) -/

/-- Where a strand is. -/
inductive Place where
  | slot (tile slot : Nat) (k : Strand)
  | saved (n : Nat) (i : SaveInfo)
  | gone
  deriving DecidableEq, Repr

/-- Finds a strand by its name. -/
def locate (s : State) (id lr uid : Nat) : Place :=
  match s.vtile? id lr with
  | none => .gone
  | some v =>
    match s.findStrand v.ptile id lr uid with
    | some (i, k) => .slot v.ptile i k
    | none =>
      match v.saves.find? fun x => x.2.uid == uid with
      | some (n, i) => .saved n i
      | none => .gone

/-- The replay mark of a strand, wherever it stands (R264). -/
def replayOf (s : State) (id lr uid : Nat) : Bool :=
  match s.locate id lr uid with
  | .slot _ _ k => k.replay
  | .saved _ i => i.replay
  | .gone => false

/-- Whether the log of a vtile has no room for `n` more records that have not been replayed (R189). -/
def logFull (s : State) (id lr : Nat) (n : Nat := 1) : Bool :=
  match s.vtile? id lr with
  | some v => 4096 < v.recs.length + n
  | none => false

/-- Whether updates of a vtile's image go to its log (R186). -/
def logging (v : Vtile) : Bool :=
  match v.div with
  | .cut | .saving | .restoring => true
  | _ => false

/-- A log record of kind 2: the elements of one granule, by offset, with their mask (R188). -/
def combined (f : Fmt) (op : ROp) (es : List (Nat × Nat)) (psn : Bool) : Nat :=
  let w := f.bits
  let g := (es.head?.map (·.1)).getD 0 / 64 * 64
  let n := 512 / w
  let elem (i : Nat) : Nat := ((es.find? fun c => c.1 == g + i * (w / 8)).map (·.2)).getD 0
  let mask (i : Nat) : Nat := if es.any fun c => c.1 == g + i * (w / 8) then 1 else 0
  pack [19, 8, 1, 4, 4, 6, 6, 8, 8, 256, 64, 64, 64, 512]
    [g, 0, psn.nat, f.code, op.code, 0, 0, 0, 2, 0, 0, 0, ofLanes 1 ((List.range n).map mask),
      ofLanes w ((List.range n).map elem)]

/-- The 128-byte form of a log record (R188; log 16). -/
def logBytes : LogRec → Nat
  | .land l =>
    match l.what with
    | .bytes cs =>
      let g := (cs.head?.map (·.1)).getD 0 / 64 * 64
      let byte (i : Nat) : Nat :=
        (cs.foldl (fun (b : Byte) c => if c.1 = g + i then (b &&& ~~~c.2.1) ||| (c.2.2 &&& c.2.1) else b) 0).toNat
      let mask (i : Nat) : Nat := if cs.any fun c => c.1 == g + i then 1 else 0
      pack [19, 8, 1, 4, 4, 6, 6, 8, 8, 256, 64, 64, 64, 512]
        [g, 0, l.poisoned.nat, 0, 0, 0, 0, 0, 1, 0, 0, 0, ofLanes 1 ((List.range 64).map mask),
          ofLanes 8 ((List.range 64).map byte)]
    | .combine op f es => combined f op es l.poisoned
    | .swap f es => combined f .swap (es.map fun e => (e.1, e.2.1)) l.poisoned
  | .counter i => pack [19, 8, 1, 4, 4, 6, 6, 8, 8, 320, 64] [i.ofs, 0, 0, 0, 0, 0, 0, 0, 3, 0, i.amount.toNat]
  | .fill n r v psn => pack [19, 8, 1, 4, 4, 6, 6, 8, 8, 320, 64] [0, 0, psn.nat, 0, 0, 0, r.val, n, 4, 0, v.toNat]
  | .barrier n d ds v st =>
    pack [19, 8, 1, 4, 4, 6, 6, 8, 8, 256, 64, 64] [0, 0, 0, 0, 0, ds.val, d.val, n, 5, 0, st.toNat, v.toNat]
  | .summary n _ bits _ => pack [19, 8, 1, 4, 4, 6, 6, 8, 8, 320, 64] [0, 0, 0, 0, 0, 0, 0, n, 6, 0, bits.toNat]

/-- Writes the 32-byte diversion entry of a vtile to the table (R185); that of a lost vtile may serve another (R178). -/
def putDivEntry (s : State) (id lr : Nat) : State :=
  match s.team? id, s.vtile? id lr with
  | some t, some v =>
    if v.lost then s else s.hbmPut (s.dtbase.toNat + 32 * v.divIdx) 32
      (pack [64, 19, 3, 6, 10, 10, 16, 32, 32, 64]
        [v.cutT, 0, v.div.code, v.log.getD 0, v.ptile, lr, t.teamid, v.logR, v.logW, t.img lr])
  | _, _ => s

/-- Appends a record to the log of a vtile (R188). When the log holds 4,096 records that have not been replayed, the sender
holds the update and offers it again (R189). -/
def appendLog (s : State) (id lr : Nat) (r : LogRec) : State :=
  match s.vtile? id lr with
  | none => s
  | some v =>
    if 4096 ≤ v.recs.length then s.putVtile id lr { v with owed := v.owed ++ [r] } else
    let a := s.dlbase.toNat + (v.log.getD 0) * 524288 + 128 * (v.logW % 4096)
    (((s.hbmPut a 128 (logBytes r)).putVtile id lr { v with recs := v.recs ++ [r], logW := v.logW + 1 })).putDivEntry id lr

/-- Writes a scalar into the save image of slot `n` and sets its full bit (R186). -/
def imageFill (s : State) (t : Team) (lr n : Nat) (r : SReg) (v : Word) (psn : Bool) : State :=
  if r = 0 then s
  else
    let a := hbmKey (t.slotAddr lr n)
    let full := s.mem.num (a + 8208) 8 ||| 2 ^ r.val
    ((s.commit (a + 8704 + 8 * r.val) (bytesOf 8 v.toNat)).commit (a + 8208) (bytesOf 8 full)).onVtile t.teamid lr fun x =>
      { x with saves := x.saves.map fun c =>
          if c.1 = n then
            let rest := c.2.spoison &&& ~~~BitVec.ofNat 64 (2 ^ r.val)
            (c.1, { c.2 with spoison := if psn then rest ||| BitVec.ofNat 64 (2 ^ r.val) else rest })
          else c }

/-- Makes the resumable record of a save slot ready (R50). -/
def readyRecord (s : State) (id lr n : Nat) : State :=
  s.onTeam id fun t => { t with
    queued := t.queued.map fun e =>
      if e.target == .vt lr && e.save == some n then { e with waiting := false, since := s.queueClock t e.target } else e }

/-- Writes a barrier result into the save image of slot `n`: sD, sDS, wait state 0 (R50, R186). -/
def imageBarrier (s : State) (t : Team) (lr n : Nat) (d ds : SReg) (v st : Word) : State :=
  let s := (s.imageFill t lr n d v false).imageFill t lr n ds st false
  let s := s.commit (hbmKey (t.slotAddr lr n + 8220)) (bytesOf 4 0)
  let s := s.onVtile t.teamid lr fun x =>
    { x with saves := x.saves.map fun c => if c.1 = n then (c.1, { c.2 with wait := .none }) else c }
  s.readyRecord t.teamid lr n

/-- Updates the summary in the save image of slot `n` (R186). -/
def imageSummary (s : State) (t : Team) (lr n : Nat) (ctr bits : Word) (fails : Bool) : State :=
  let a := hbmKey (t.slotAddr lr n + 8200)
  let w : Word := BitVec.ofNat 64 (s.mem.num a 8)
  s.commit a (bytesOf 8 (if fails then addFailure w ctr bits else w ||| bits).toNat)

/-- Delivers the fill of a scalar to a strand, or discards it when the strand has ended (R35, R102, R186). -/
def deliverFill (s : State) (id lr uid : Nat) (r : SReg) (v : Word) (psn : Bool) : State :=
  match s.team? id, s.vtile? id lr with
  | some t, some x =>
    match s.locate id lr uid with
    | .slot p i k =>
      let k := k.wr r v
      s.putAt p i (if psn && r != 0 then { k with spoison := k.spoison ||| BitVec.ofNat 64 (2 ^ r.val) } else k)
    | .saved n _ => if logging x then s.appendLog id lr (.fill n r v psn) else s.imageFill t lr n r v psn
    | .gone => s
  | _, _ => s

/-- The status word for sDS; a free value when both results go to one register, which the manual leaves open (log 12). -/
def statusFor (s : State) (id : Nat) (d ds : SReg) (st : Word) : Word × State :=
  if d = ds ∧ d ≠ 0 then s.freeWord id else (st, s)

/-- Delivers a barrier result to a strand that waits for it (R93, R186, R192). -/
def deliverBarrier (s : State) (id lr uid : Nat) (d ds : SReg) (v st : Word) : State :=
  let (st, s) := s.statusFor id d ds st
  match s.team? id, s.vtile? id lr with
  | some t, some x =>
    match s.locate id lr uid with
    | .slot p i k => s.putAt p i { (k.wr d v).wr ds st with wait := .none }
    | .saved n _ => if logging x then s.appendLog id lr (.barrier n d ds v st) else s.imageBarrier t lr n d ds v st
    | .gone => s
  | _, _ => s

/-- Updates the failure summary of a strand; nothing when it has ended (R84, R193). -/
def deliverSummary (s : State) (id lr uid : Nat) (ctr bits : Word) (fails : Bool) : State :=
  match s.team? id, s.vtile? id lr with
  | some t, some x =>
    match s.locate id lr uid with
    | .slot p i k =>
      s.putAt p i { k with summary := if fails then addFailure k.summary ctr bits else k.summary ||| bits }
    | .saved n _ =>
      if logging x then s.appendLog id lr (.summary n ctr bits fails) else s.imageSummary t lr n ctr bits fails
    | .gone => s
  | _, _ => s

/-! ### The order of VACATE in progress (R179) -/

/-- Whether a request belongs to the order in progress. -/
def inOrder (s : State) (req : Option Nat) : Bool :=
  match req with
  | some n => s.orderReqs.1 ≤ n && n < s.orderReqs.2
  | none => false

/-- BUSY clears when no vtile of the order is left (R179). -/
def settleOrder (s : State) : State :=
  if s.vtiles.any fun v => s.inOrder v.2.stopped || s.inOrder (v.2.restoreTo.map (·.2)) then s
  else { s with vacateReg := s.vacateReg &&& 0x7FFFFFFFFFFFFFFF }

/-- One vtile of the order is done, or lost: DONE counts it when it is done. -/
def orderStep (s : State) (req : Option Nat) (ok : Bool) : State :=
  (if s.inOrder req && ok then { s with vacateReg := s.vacateReg + 1 } else s).settleOrder

end State

end Sys2Proof.Machine
end

