-- ==== Sys2Proof/Machine/Ops.lean ====
section
/-! DEFINITION. The shared operations: fault records and the handler (R169 to R173), taking a precise fault, reporting an
engine fault, returning a strand by RESUME (R176), and the frame of every instruction (R102, R167, R292). -/

namespace Sys2Proof.Machine

/-- The fields of a fault record that its causes set (R170). -/
structure FaultRec where
  pc : Word
  word : Word
  addr : Word
  info : Word
  info2 : Word
  rank : Nat
  slot : Nat
  cause : Nat
  save : Nat
  prio : Nat
  forced : Bool
  held : Bool
  oabs : Bool
  iabs : Bool
  eng : Bool
  deriving DecidableEq, Repr

/-- The 64 bytes of record `n` (R170). -/
def FaultRec.bits (f : FaultRec) (teamid n now : Nat) (lost : Bool) : Nat :=
  pack [1, 1, 1, 1, 1, 1, 26, 5, 3, 8, 8, 4, 20, 16, 32, 64, 64, 64, 64, 64, 64]
    [f.eng.nat, f.iabs.nat, f.oabs.nat, f.held.nat, lost.nat, f.forced.nat, 0, f.prio, 0, f.save, f.cause, f.slot, f.rank,
      teamid, n, now, f.info2.toNat, f.info.toNat, f.addr.toNat, f.word.toNat, f.pc.toNat]

namespace State

/-- After record `n`: when ARM is 1, it is cleared and the template is enqueued with ARG0 = n (R173). DESIGN CHOICE: the reserved bytes
32 to 63 of the fault-queue header are not looked at; R4 calls a nonzero one malformed, and R172 names no fault for it (log 37). -/
def readyHandler (s : State) (id n : Nat) : State :=
  match s.team? id with
  | none => s
  | some t =>
    let fq := hbmKey t.area
    if s.liveNum (fq + 24) 8 = 1 then
      let s := s.writeLive [unitKey id .pkg 0] (fq + 24) (bytesOf 8 0)
      let r := recSet (BitVec.ofNat 512 (s.mem.num (fq + 64) 64)) 192 64 n
      match codeEntry s t 0 with
      | .error _ => s
      | .ok e =>
        if !e.x || recMalformed t r e.len || jcellMalformed s t r || t.qFull (recTarget t r) then s else (s.spawnRec id r).2
    else s

/-- Writes a fault record, or counts it lost when the ring is full (R172); answers whether it was written. `lr` is the
vtile whose FSTAT shows it, and `src` the issuer's, which IABS names (R174, R193). -/
def writeFault (s : State) (id lr : Nat) (f : FaultRec) (src : Nat := lr) : Bool × State :=
  match s.team? id with
  | none => (false, s)
  | some t =>
    let fq := hbmKey t.area
    if t.fqw - s.liveNum (fq + 8) 8 = t.fqCap then
      let s := s.putTeam id { t with lostc := t.lostc + 1, lostMark := true }
      (false, (s.commit (fq + 16) (bytesOf 8 (t.lostc + 1))).orFstat id lr fstatLost)
    else
      let n := t.fqw + 1
      let s := s.putTeam id { t with fqw := n, lostMark := false }
      let s := s.commit (fq + 128 + 64 * (t.fqw % t.fqCap)) (bytesOf 64 (f.bits t.teamid n s.now t.lostMark))
      let s := s.commit fq (bytesOf 8 n)
      let s := if f.oabs then s.orFstat id lr fstatAbs else s
      let s := if f.iabs then s.orFstat id src fstatAbs else s
      (true, s.readyHandler id n)

/-- Sets FSTAT.HELD by whether a strand of the vtile is held in place (R174, R176). -/
def refreshHeld (s : State) (id lr : Nat) : State :=
  match s.vtile? id lr with
  | none => s
  | some v =>
    let inSlot := (List.range 8).any fun i =>
      match s.strandAt v.ptile i with
      | some k => k.team == id && k.lrank == lr && k.held
      | none => false
    if inSlot || v.saves.any (fun c => c.2.held) then s.orFstat id lr fstatHeld else s.clearFstat id lr fstatHeld

/-- Starts the shadow slot for the earliest match that waits, when it is free (R253). -/
def startShadow (s : State) (tile : Nat) : State :=
  let x := s.tile tile
  match x.serving, x.matches_ with
  | none, m :: rest =>
    match s.strandAt tile m.slot with
    | none => s.putTile tile { x with matches_ := rest }
    | some k =>
      match s.team? k.team with
      | none => s
      | some t =>
        let e := (x.pcmt.toList.getD m.entry 0).toNat
        let ra : SReg := Fin.ofNat 64 (field e 54 6)
        let rb : SReg := Fin.ofNat 64 (field e 48 6)
        let val (r : SReg) : Word := if k.full r then k.rd r else 0
        let sr (i : Nat) : Word :=
          match i with
          | 1 => m.pc
          | 2 => BitVec.ofNat 64 (pack [4, 4, 1, 1] [m.slot, m.entry, (k.full ra).nat, (k.full rb).nat])
          | 3 => val ra
          | 4 => val rb
          | 5 => BitVec.ofNat 64 (t.rank k.lrank)
          | _ => 0
        let (uid, s) := s.number
        let z : Strand :=
          { team := k.team, lrank := k.lrank, uid, pc := BitVec.ofNat 64 (field x.pcmh.toNat 3 37 * 8)
            s := Vector.ofFn fun i : Fin 64 => sr i.val, v := Vector.replicate 32 0
            p := (Vector.replicate 16 0).set 0 (BitVec.allOnes 256), m := Vector.replicate 16 0
            sfull := BitVec.allOnes 64, vfull := BitVec.allOnes 32, spoison := 0, summary := 0, jcell := 0, prio := 0
            wait := .none, waitSince := 0, readySince := none, held := false, tahead := 0, replay := false }
        (s.putTile tile { x with serving := some m, matches_ := rest }).putAt tile 8 z
  | _, _ => s

/-- Ends the handler in the shadow slot: the matched instruction then issues unmatched; a fault also clears the entry's EN
(R253, R254). -/
def endShadow (s : State) (tile : Nat) (abandoned : Bool) : State :=
  let x := s.tile tile
  match x.serving with
  | none => s.dropAt tile 8
  | some m =>
    let pcmt := if h : m.entry < 16 ∧ abandoned then x.pcmt.set m.entry (x.pcmt[m.entry]'h.1 &&& 0x7FFFFFFFFFFFFFFF) else x.pcmt
    (((s.dropAt tile 8).putTile tile { x with serving := none, skip := m.slot :: x.skip.filter (· != m.slot), pcmt })).startShadow
      tile

/-- Takes a precise fault of the strand in a slot (R167, R169; R254 for the shadow slot). `word` is IWORD, and `extra` says
that a forced arrival of its own was recorded (R88). -/
def takeFault (s : State) (tile slot : Nat) (k : Strand) (cause : Nat) (addr info word : Word) (extra : Bool := false) :
    State :=
  match s.team? k.team, s.vtile? k.team k.lrank with
  | some t, some v =>
    let s := s.trace tile k.lrank slot 7 0 (cause * 2 ^ 56 + k.pc.toNat % 2 ^ 56)
    let fr : FaultRec :=
      { pc := k.pc, word, addr, info, info2 := 0, rank := t.rank k.lrank, slot, cause, save := 0xFF, prio := k.prio
        forced := extra, held := false, oabs := false, iabs := false, eng := false }
    if slot = 8 then ((s.writeFault k.team k.lrank fr).2).endShadow tile true
    else
      let forced := cause < 0x40 && cause != 8 && cause != 9
      let (s, ta) := if forced then s.forceAll t k.team k.lrank k.uid k.tahead else (s, k.tahead)
      let k := { k with tahead := ta, wait := .none }
      match freeSave t v with
      | some n =>
        let s := (s.dropAt tile slot).saveInto t n k .fault
        let (ok, s) := s.writeFault k.team k.lrank { fr with save := n, forced := forced || extra }
        if ok then s else s.onVtile k.team k.lrank fun v => { v with saves := eraseAt n v.saves }
      | none =>
        let s := (s.putAt tile slot { k with held := true }).orFstat k.team k.lrank fstatHeld
        let (ok, s) := s.writeFault k.team k.lrank { fr with held := true, forced := forced || extra }
        if ok then s else (s.dropAt tile slot).refreshHeld k.team k.lrank
  | _, _ => s

/-- Reports an engine fault: the record, the handler, and the issuer's failure summary with a counter descriptor and its
cause bits (R169, R171, R193). -/
def engineFault (s : State) (w : Issuer) (cause : Nat) (addr info info2 : Word) (summary : Option (Word × Word)) : State :=
  match s.team? w.team with
  | none => s
  | some t =>
    let place := s.locate w.team w.lrank w.uid
    let parked := match s.vtile? w.team w.lrank with
      | some v => !v.res
      | none => true
    let (gone, save) := match place with
      | .gone => (true, 0xFF)
      | .saved n _ => (false, n)
      | .slot _ _ _ => (false, 0xFF)
    let fr : FaultRec :=
      { pc := w.pc, word := w.word, addr, info, info2, rank := t.rank w.lrank, slot := w.slot, cause, save, prio := w.prio
        forced := false, held := false, oabs := false, iabs := gone || parked, eng := true }
    let s := s.traceVt w.team w.lrank w.slot 7 1 (cause * 2 ^ 56 + w.pc.toNat % 2 ^ 56)
    let s := (s.writeFault w.team w.lrank fr).2
    match summary with
    | some (ctr, bits) => s.deliverSummary w.team w.lrank w.uid ctr bits true
    | none => s

/-- The issuer of engine work: a strand as it stands when the instruction issues (R171). -/
def issuerOf (s : State) (k : Strand) (word : Word) : Issuer :=
  ⟨k.team, k.lrank, k.uid, s.at_.1, s.at_.2, k.pc, word, k.prio⟩

/-! ### RESUME (R176) -/

/-- Whether a save slot holds a strand saved by a fault that no RESUME has named. -/
def savedByFault (v : Vtile) (n : Nat) : Bool :=
  match lookup n v.saves with
  | some i => i.why == .fault && !i.resumed
  | none => false

/-- Writes the entry of strand slot `n` in the strand map of a vtile's image, where the image stands for the vtile (R176,
R184). -/
def imageSlot (s : State) (t : Team) (lr n v : Nat) : State :=
  match s.vtile? t.teamid lr with
  | some x => match x.div with
    | .diverting | .restoring => s.commit (hbmKey (t.img lr + 655504 + 8 * n)) (bytesOf 8 v)
    | _ => s
  | none => s

/-- Changes the strand of save slot `n`: its PC moves past the instruction with SKIP, it is held no longer, and it bears the
replay mark (R264). -/
def resumeSaved (s : State) (t : Team) (lr n : Nat) (skip : Bool) : State :=
  let a := hbmKey (t.slotAddr lr n + 8192)
  let s := if skip then s.commit a (bytesOf 8 ((s.mem.num a 8 + 8) % 2 ^ 64)) else s
  let s := if n < 8 then s.imageSlot t lr n n else s
  s.onVtile t.teamid lr fun v =>
    { v with saves := v.saves.map fun c => if c.1 = n then (c.1, { c.2 with resumed := true, held := false, replay := true })
        else c }

/-- RESUME applied to a designator whose fields are in range: the status for sD and the state (R176). -/
def resumeStrand (s : State) (t : Team) (id lr save slot : Nat) (skip drop : Bool) : Nat × State :=
  match s.vtile? id lr with
  | none => (1, s)
  | some v =>
    if save = 0xFF then
      match if v.res then s.strandAt v.ptile slot else none with
      | some k =>
        if k.held && k.team == id && k.lrank == lr then
          let s := if drop then s.dropAt v.ptile slot
            else s.putAt v.ptile slot { k with held := false, replay := true, pc := if skip then k.pc + 8 else k.pc }
          (0, s.refreshHeld id lr)
        else (1, s)
      | none =>
        match lookup slot v.saves with
        | some i =>
          if i.held && !v.res then
            let s := if drop then
                (s.onVtile id lr fun v => { v with saves := eraseAt slot v.saves }).imageSlot t lr slot 0xFF
              else s.resumeSaved t lr slot skip
            (0, s.refreshHeld id lr)
          else (1, s)
        | none => (1, s)
    else if savedByFault v save then
      if !drop && t.qFull (.vt lr) then (2, s)
      else if drop then (0, (s.onVtile id lr fun v => { v with saves := eraseAt save v.saves }).refreshHeld id lr)
      else
        let prio := ((lookup save v.saves).map (·.prio)).getD 0
        let s := (s.resumeSaved t lr save skip).enqueue id (.vt lr) (resumableRec lr save prio) 0 prio (some save) false
        (0, s.refreshHeld id lr)
    else (1, s)

end State

/-! ### The frame of an instruction (R102, R292) -/

/-- The registers that an instruction names: scalars it reads and writes, vectors and accumulators. -/
structure Names where
  src : List SReg := []
  dst : List SReg := []
  v : List VNum := []
  a : List ANum := []
  deriving DecidableEq, Repr

/-- Whether an accumulator of the strand's vtile is full. -/
def accFull (s : State) (k : Strand) (a : ANum) : Bool :=
  match s.vtile? k.team k.lrank with
  | some v => (v.accs.get a).full
  | none => true

/-- Whether every named register is full (R101, R102). -/
def namesFull (s : State) (k : Strand) (n : Names) : Bool :=
  n.src.all k.full && n.dst.all k.full && n.v.all k.fullV && n.a.all (accFull s k)

/-- Causes that come before poisoned data in the order of R292. -/
def beforePoison (c : Nat) : Bool := (0x20 ≤ c && c ≤ 0x25) || c == 0x27 || c == 0x10

/-- A strand that waits at its instruction (R20, R100, R102). -/
def Strand.waiting (k : Strand) (w : Wait) (cycle : Nat) : Strand :=
  { k with wait := w, waitSince := if k.wait = w then k.waitSince else cycle }

/-- Ends an attempt to issue: the new state, a wait, or a precise fault. -/
def settle (s : State) (k : Strand) (word : Word) : Do State → State
  | .ok s' => s'
  | .error (.fault c addr info) => s.takeFault s.at_.1 s.at_.2 k c addr info word
  | .error (.wait w) => s.put (k.waiting w s.cycle.toNat)

/-- A scalar source that a fill from a poisoned granule wrote stops the instruction with 0x26 (R68), in its place in the
order of R292. -/
def poisonCheck (k : Strand) (n : Names) (r : Do State) : Do State :=
  if n.src.any k.bad then
    match r with
    | .error (.fault c a i) => if beforePoison c then .error (.fault c a i) else raise 0x26
    | _ => raise 0x26
  else r

/-- Issues an instruction of the current strand: registers first, then its own checks and effect (R292). With no strand
at the current place nothing happens (log 3). -/
def issue (i : Instr) (e : Bool) (n : Names) (body : Strand → State → Do State) (s : State) : State :=
  match s.strand? with
  | none => s
  | some k =>
    let word := (encode i).getD 0
    if namesFull s k n then settle s k word (poisonCheck k n (body { k with wait := .none } s))
    else settle s k word (if e then raise 0x65 else .error (.wait .empty))

/-- The team of a strand. -/
def withTeam (s : State) (k : Strand) (f : Team → Do State) : Do State :=
  match s.team? k.team with
  | some t => f t
  | none => .ok s

/-- The team and vtile of a strand. -/
def withVtile (s : State) (k : Strand) (f : Team → Vtile → Do State) : Do State :=
  match s.team? k.team, s.vtile? k.team k.lrank with
  | some t, some v => f t v
  | _, _ => .ok s

/-- Retires an instruction that changes only registers. -/
def retire (s : State) (k : Strand) : Do State := .ok (s.put k.next)

end Sys2Proof.Machine
end

