-- ==== Sys2Proof/Machine/Flags.lean ====
section
/-! DEFINITION. The flags of FSTAT that instructions set: SAT (R111), MIXED (R80), CSAT (R97); and the counts of R262. -/

namespace Sys2Proof.Machine

namespace State

/-- Sets SAT of a vtile when a conversion saturated (R111). -/
def setSat (s : State) (id lr : Nat) (sat : Bool) : State := if sat then s.orFstat id lr fstatSat else s

/-- Notes an update of level memory in a superstep of a vtile, and sets MIXED when another kind of update of the same
superstep touches the same bytes (R80, R148; log 21). -/
def noteUpdate (s : State) (id lr : Nat) (u : Upd) : State :=
  match s.vtile? id lr with
  | none => s
  | some v =>
    let mixed := v.upds.any fun w =>
      w.scope == u.scope && w.step == u.step && w.kind != u.kind && overlap w.key w.len u.key u.len
    let s := s.putVtile id lr { v with upds := v.upds ++ [u] }
    if mixed then s.orFstat id lr fstatMixed else s

/-- The level of a space (R12). -/
def levelOf (space : Nat) : Scope :=
  match space with
  | 2 => .grp
  | 3 => .die
  | 5 => .pod
  | _ => .pkg

/-- The current superstep of a vtile at the level of a space (R19). -/
def levelStep (s : State) (id lr space : Nat) : Nat :=
  match s.vtile? id lr with
  | some v => current v (levelOf space)
  | none => 0

/-- Whether an operand lies across the package or pod fabric from a tile: beyond its group (R194). -/
def acrossFabric (s : State) (id tile : Nat) (m : Shape) : Bool :=
  3 ≤ shSpace m || (shSpace m == 1 && match s.vtile? id (shVt m) with
    | some v => v.ptile / 16 != tile / 16
    | none => false)

end State

/-- The VOP counter of a lane type (R261, R368). -/
def vopIndex (t : Fmt) : Nat :=
  match t with
  | .f32 => 7
  | .f16 | .bf16 => 8
  | .e4m3 | .e5m2 => 9
  | _ => 10

/-- The MAC counter of an operand format (R261). -/
def macIndex (t : Fmt) : Nat :=
  match t with
  | .f32 => 0 | .bf16 => 1 | .f16 => 2 | .e4m3 => 3 | .e5m2 => 4 | .i8 => 5 | _ => 6

/-- The BYTES counter of a space from 1 to 6 (R261). -/
def bytesIndex (space : Nat) : Nat := 10 + space

end Sys2Proof.Machine
end

