-- ==== Sys2Proof/Machine/Watch.lean ====
section
/-! DEFINITION. Halting a tile (R244, R248) and watchpoints (R250, R251). -/

namespace Sys2Proof.Machine

/-- Whether a halt is on the tile's own account (R248). -/
def Tile.ownHalt (x : Tile) : Bool :=
  x.why == 0 || x.why == 2 || x.why == 3 ||
    (x.why == 4 && (List.range 4).any fun i => x.wphit.getLsbD i && field (x.wp.toList.getD i 0).toNat 61 2 == 2)

namespace State

/-- A halt: a tile goes from RUNNING to HALTING, and one that steps to HALTED unless a group triggered the halt (R244;
log 29). A halt on its own account makes the triggers of HALTGRP the next turns (R248; log 2). DESIGN CHOICE: R257 names no strand
for the record of a halt, whose STRAND is 0, as LVT is on a tile without an owner (log 29). -/
def halt (s : State) (tile why : Nat) (wphit : BitVec 4) (group : Nat) : State :=
  let x := s.tile tile
  if x.dbg = .running ∨ (x.dbg = .stepping ∧ why ≠ 1) then
    let y := { x with
      dbg := if x.dbg = .running then .halting else .halted, why, wphit, group, stepSlot := none, stepped := false }
    let s := (s.putTile tile y).trace tile ((x.owner.map (·.2)).getD 0) 0 9 why 0
    if y.ownHalt then
      let gs := (List.range 32).filter fun g => bit x.haltgrp.toNat (32 + g)
      { s with agenda := gs.map (fun g => Turn.event (.haltGroupTrigger tile g)) ++ s.agenda }
    else s
  else s

/-- The watchpoints of a tile that an access matches: `sel` is the register bit of the kind of access (R250). -/
def watchHits (x : Tile) (sel : Nat) (rs : List (Nat × Nat)) : List (Nat × Nat) :=
  (List.range 4).filterMap fun i =>
    let w := (x.wp.toList.getD i 0).toNat
    if bit w 63 && bit w sel && field w 32 20 != 0 then
      (rs.find? fun r => overlap r.1 r.2 (field w 0 19) (field w 32 20)).map fun r => (i, r.1)
    else none

/-- ACT of a watchpoint. -/
def watchAct (x : Tile) (i : Nat) : Nat := field (x.wp.toList.getD i 0).toNat 61 2

/-- Whether one of the watchpoints that fired halts its tile. -/
def watchStops (x : Tile) (hits : List (Nat × Nat)) : Bool := hits.any fun h => watchAct x h.1 == 1 || watchAct x h.1 == 2

/-- Writes the trace records of watchpoints that fired (R257). -/
def watchTrace (s : State) (tile lr slot : Nat) (hits : List (Nat × Nat)) : State :=
  hits.foldl (fun s h => s.trace tile lr slot 8 h.1 h.2) s

/-- The WPHIT bits of the watchpoints that fired. -/
def watchBits (hits : List (Nat × Nat)) : BitVec 4 := BitVec.ofNat 4 ((hits.map fun h => 2 ^ h.1).sum)

end State

/-- A strand access to ranges of its tile store: a watchpoint that halts keeps the instruction from issuing, the others
write their records and it proceeds (R251; log 29 for a tile that steps). Bit 60 selects loads and bit 59 stores. -/
def watched (k : Strand) (sel : Nat) (rs : List (Nat × Nat)) (s : State) (go : State → Do State) : Do State :=
  match State.watchHits (s.tile s.at_.1) sel rs with
  | [] => go s
  | hits =>
    let s' := s.watchTrace s.at_.1 k.lrank s.at_.2 hits
    if State.watchStops (s.tile s.at_.1) hits then .ok (s'.halt s.at_.1 4 (State.watchBits hits) 0) else go s'

end Sys2Proof.Machine
end

