-- ==== Sys2Proof/Machine/Copy.lean ====
section
/-! DEFINITION. Sprue: CPY and CPYA (R142 to R151), their chunks (R66), landings (R78, R146, R186) and counter increments
(R97). -/

namespace Sys2Proof.Machine

/-! ### Operands in any space -/

/-- Bytes or bits of the t-th element, given where each byte lies. -/
def elemVal (mem : Memory) (key : Nat → Nat) (m : Shape) (t : Nat) : Nat :=
  let o := shElemOfs m t
  if shFormat m = .c4 then (mem.byte (key o)).toNat / 16 ^ (shIndex m t % 2).toNat % 16
  else ofBytes ((interval o (elemBytes (shFormat m))).map fun a => mem.byte (key a))

/-- Whether the t-th element lies in a poisoned granule. -/
def elemPsn (s : State) (key : Nat → Nat) (m : Shape) (t : Nat) : Bool :=
  s.poison != [] && (interval (shElemOfs m t) (elemBytes (shFormat m))).any fun a => s.poisoned (granule (key a))

/-- Elements [lo, lo + n) of a record with their poison, as they stand. -/
def readRange (s : State) (key : Nat → Nat) (m : Shape) (lo n : Nat) : List (Nat × Bool) :=
  (interval lo n).map fun t => (elemVal s.mem key m t, elemPsn s key m t)

/-- Notes the elements of a level-memory destination as updates of a superstep (R80, R148). -/
def noteShape (s : State) (t : Team) (lr : Nat) (m : Shape) (bytes : Nat) (scope : Scope) (step : Nat) (kind : UpdKind) :
    State :=
  let key := s.operandKey t lr m
  (List.range (shCount m)).foldl
    (fun s i => s.noteUpdate t.teamid lr ⟨scope, step, kind, key (shElemOfs m i), bytes⟩) s

/-! ### Issue -/

/-- Whether the lowest element index of a c4 record is even (R144). -/
def c4Even (m : Shape) : Bool := shFormat m != .c4 || shLo m 4 % 2 == 0

/-- Formats and operations of CPYA (R147). -/
def cpyaOk (op : ROp) (t : Fmt) : Bool :=
  match t with
  | .i32 | .n32 | .i64 | .n64 => true
  | .f32 => op == .add || op == .min || op == .max || op == .swap
  | _ => false

/-- Copies of a tile that are outstanding (R150). -/
def State.copiesOf (s : State) (tile : Nat) : Nat := (s.copies.filter fun c => c.2.who.tile == tile).length

/-- A copy's operand as R62 checks it. R58 asks a tile-store record to be aligned to its elements. -/
def copyOpd (m : Shape) (p : Perm) : Opd := shapeOpd m (shDims m) p (elemAligned m)

/-- The issue of CPY and CPYA (R142 to R151). A source in space 1 that names the issuer itself serves a swap as one in space 0 does
(R57, R149). -/
def issueCopy (i : Instr) (op : Option ROp) (dm am : PNum) (b : SReg) (amount : Word) (k : Strand) (s : State) :
    Do State :=
  withTeam s k fun t => do
    let d := k.rdM dm
    let a := k.rdM am
    let ctr := k.rd b
    need (op.isNone || shSpace d != 6) 0x25 (shAddr d)
    checkAll s t [copyOpd a .r, copyOpd d (if op.isSome then .a else .w)] ctr
    need (shapeOk a && !shUnf a) 0x27 (shAddr a)
    need (shapeOk d && !shUnf d) 0x27 (shAddr d)
    need (!ctrBad ctr) 0x27 (BitVec.ofNat 64 (ctrOfs ctr))
    need (shCount a == shCount d && shFmt a == shFmt d && c4Even a) 0x27 (shAddr a)
    need (c4Even d) 0x27 (shAddr d)
    match op with
    | none => .ok ()
    | some o => do
      need (cpyaOk o (shFormat d) && elemAligned d) 0x27 (shAddr d)
      need (o != .swap || (isStore a && ownStore k.lrank a)) 0x27 (shAddr a)
      need (o != .swap || isStore d) 0x27 (shAddr d)
    if 32 ≤ s.copiesOf s.at_.1 then .error (.wait .limit) else .ok ()
    let scope := State.levelOf (shSpace d)
    let step := if isStore d then none else some (scope, s.levelStep k.team k.lrank (shSpace d))
    let far := shSpace a == 5
    let (id, s) := s.number
    let c : CopyOp :=
      { who := s.issuerOf k ((encode i).getD 0), dst := d, src := a, ctr, amount, op, step
        snap := if far || isStore a || step.isSome then [] else readRange s (s.operandKey t k.lrank a) a 0 (shCount a)
        seen := s.stepOf t k.team .pod k.lrank, seenAt := s.now, got := [], fetched := !far, accepted := false, chunk := 0
        pending := 0, posted := none, diverted := false, touched := [], counted := 0 }
    let s := { s with copies := insertAt id c s.copies }
    let s := match step with
      | some (l, n) => noteShape s t k.lrank d (elemBytes (shFormat d)) l n (if op.isSome then .cpya else .copy)
      | none => s
    retire s k

/-- CPY (R142 to R145). -/
def execCpy (f : CpyC) (s : State) : Out :=
  .next (issue (.cpy f) f.e { src := [f.b] } (issueCopy (.cpy f) none f.d f.a f.b (f.amt.zeroExtend 64)) s)

/-- CPYA (R142, R147 to R149). -/
def execCpya (f : CpyaC) (s : State) : Out :=
  .next (issue (.cpya f) f.e { src := [f.b] } (issueCopy (.cpya f) (some f.op) f.d f.a f.b (f.amt.zeroExtend 64)) s)

/-! ### Source elements -/

/-- The value of an element with the bytes that were changed too early free (R8, R74, R144; log 11). -/
def mixFree (s : State) (id i : Nat) (m : Shape) (rs : List (Nat × Nat)) (t v : Nat) : Nat :=
  if shFormat m = .c4 then
    if meets rs (shElemOfs m t) 1 then (s.freeByteAt id i).toNat % 16 else v
  else ofBytes ((bytesOf (elemBytes (shFormat m)) v).zipIdx.map fun p =>
    if meets rs (shElemOfs m t + p.2) 1 then s.freeByteAt id (i + p.2) else p.1)

/-- Source elements [lo, lo + n) of a copy when they are read: as they stood at issue for level memory (R73), and otherwise as
they stand (R79, R144; log 10), with the bytes that were changed too early free (R74, R144; log 11). -/
def copySource (s : State) (t : Team) (c : CopyOp) (lo n : Nat) : List (Nat × Bool) × State :=
  if shSpace c.src = 5 ∨ (!isStore c.src && c.step.isNone) then ((c.snap.drop lo).take n, s)
  else
    let now := readRange s (s.operandKey t c.who.lrank c.src) c.src lo n
    if c.touched.isEmpty then (now, s)
    else (now.zipIdx.map fun p => (mixFree s c.who.team (8 * p.2) c.src c.touched (lo + p.2) p.1.1, p.1.2),
      s.drew c.who.team (8 * n))

/-! ### Failure -/

/-- Summary bits of an engine cause (R84). -/
def causeBits (cause : Nat) : Word :=
  match cause with
  | 0x40 => sumGrev
  | 0x41 => sumDlnk
  | 0x42 => sumRef
  | 0x44 => sumLret
  | _ => 0

/-- The bytes of a record's elements, by offset. -/
def shBytes (m : Shape) : List Nat :=
  (List.range (shCount m)).flatMap fun i => interval (shElemOfs m i) (elemBytes (shFormat m))

/-- Fills the bytes that a record names with free bytes of a team (R8, R66). -/
def State.undefine (s : State) (id : Nat) (key : Nat → Nat) (m : Shape) : State :=
  s.freeKeys id ((shBytes m).map fun o => (key o, 0xFF))

/-- Whether a landing belongs to a copy. -/
def Landing.ofCopy (l : Landing) (id : Nat) : Bool := l.of_ == .copy id

/-- Counts the bytes that a copy performed (R262). -/
def countCopy (s : State) (c : CopyOp) (bytes : Nat) : State :=
  let rp := s.replayOf c.who.team c.who.lrank c.who.uid
  [shSpace c.src, shSpace c.dst].foldl
    (fun s sp => if 1 ≤ sp ∧ sp ≤ 6 then s.accountReplay c.who.team (bytesIndex sp) 20 bytes rp else s) s

/-- Bytes that a landing delivers (R262). -/
def landCount (l : Landing) : Nat :=
  match l.what with
  | .bytes cs => if cs.any fun c => c.2.1 != 0xFF then (cs.length + 1) / 2 else cs.length
  | .combine _ f es => es.length * (f.bits / 8)
  | .swap f es => es.length * (f.bits / 8)

/-- Bytes of the elements of a record. -/
def shSize (m : Shape) : Nat := (shCount m * (shFormat m).bits + 7) / 8

/-- Whether a vtile can still take landings: it is not lost (R178). -/
def State.reachable (s : State) (id lr : Nat) : Bool := (s.vtile? id lr).any fun v => !v.lost

/-- The chunks of a copy that have landings in flight, swaps that stand in the log of its target among them. -/
def chunksAway (s : State) (id : Nat) (c : CopyOp) : List Nat :=
  (s.landings.filterMap fun l => if l.2.ofCopy id then some l.2.chunk else none)
    ++ match s.vtile? c.who.team (storeVt c.who.lrank c.dst) with
      | some v => (v.recs ++ v.owed).filterMap fun r => match r with
        | .land l => match l.what with
          | .swap _ _ => if l.ofCopy id then some l.chunk else none
          | _ => none
        | _ => none
      | none => []

/-- Bytes of the chunks of a copy that have landed whole (R66, R259, R262). -/
def landedBytes (s : State) (id : Nat) (c : CopyOp) : Nat := min (4096 * (chunksAway s id c).foldl min c.chunk) (shSize c.src)

/-- Completed bytes of a copy that stops (R66, R171): its chunks that have landed whole, or are sure to. -/
def completed (s : State) (id : Nat) (c : CopyOp) : Nat :=
  if s.reachable c.who.team (storeVt c.who.lrank c.dst) then min (4096 * c.chunk) (shSize c.src) else landedBytes s id c

/-- Counts the bytes of the chunks of a copy that have been performed since it was counted last (R262). -/
def countChunks (s : State) (id : Nat) : State :=
  match lookup id s.copies with
  | none => s
  | some c =>
    let n := landedBytes s id c
    if n ≤ c.counted then s
    else countCopy { s with copies := insertAt id { c with counted := n } s.copies } c (n - c.counted)

/-- A copy fails: its counter receives nothing, its destination is undefined, and the issuer hears of it (R66, R151). Chunks
that had passed their checks complete and count (R66, R262). -/
def failCopy (s : State) (id : Nat) (c : CopyOp) (cause : Nat) (opd : Shape) : State :=
  let done := completed s id c
  let vt := storeVt c.who.lrank c.dst
  let sure := isStore c.dst && s.reachable c.who.team vt
  let s := if c.counted < done then countCopy s c (done - c.counted) else s
  let s := { s with
    copies := eraseAt id s.copies
    landings := s.landings.filter fun l => !l.2.ofCopy id }
  let s := match s.team? c.who.team with
    | some t =>
      if sure then
        (s.touchStore c.who.team vt ((shBytes c.dst).map fun o => (o, 1))).undefine c.who.team
          (s.operandKey t c.who.lrank c.dst) c.dst
      else s
    | none => s
  let bits := causeBits cause ||| if c.diverted then sumDiv else 0
  s.engineFault c.who cause (shAddr opd) (BitVec.ofNat 64 done) c.ctr (some (c.ctr, bits))

/-- Why an operand cannot be reached now: its handle no longer passes (0x40), its group is fenced (0x41), or no CXL window
serves the bytes (0x42) (R66, R178, R200). `rs` are the ranges of bytes that it touches now. -/
def whyNot (s : State) (t : Team) (lr : Nat) (m : Shape) (rs : List (Nat × Nat)) : Option Nat :=
  if shSpace m < 2 then
    match s.vtile? t.teamid (storeVt lr m) with
    | some v => if v.lost then some 0x41 else none
    | none => some 0x41
  else match s.entryNow t (shHnd m) with
    | none => some 0x40
    | some e =>
      let p := ((s.vtile? t.teamid lr).map (·.ptile)).getD 0
      if shSpace m = 2 ∧ s.fencedGroups.contains (p / 16) then some 0x41
      else if shSpace m = 6 ∧ !rs.all fun r => s.cxlOk e r.1 r.2 then some 0x42
      else none

/-- Whether an operand in space 6 waits for a CXL link that retrains (R204). -/
def mustWait (s : State) (t : Team) (m : Shape) (rs : List (Nat × Nat)) : Bool :=
  shSpace m == 6 && match s.entryNow t (shHnd m) with
    | some e => rs.any fun r => s.cxlWaits e r.1 r.2
    | none => false

/-- The ranges of bytes of elements [a, a + k) of a record. -/
def elemRanges (m : Shape) (a k : Nat) : List (Nat × Nat) := (interval a k).map fun i => (shElemOfs m i, elemBytes (shFormat m))

/-- The byte range [lo, lo + n) that elements [a, a + k) of a record touch. -/
def elemSpan (m : Shape) (a k : Nat) : Nat × Nat :=
  let os := (interval a k).map (shElemOfs m)
  match os with
  | [] => (0, 0)
  | o :: r => (r.foldl min o, r.foldl max o + elemBytes (shFormat m) - r.foldl min o)

/-! ### Chunks become landings -/

/-- The cells of a stored element: offset, mask and value of each byte (R112). -/
def elemCells (m : Shape) (t v : Nat) : List (Nat × Byte × Byte) :=
  let o := shElemOfs m t
  if shFormat m = .c4 then
    if shIndex m t % 2 = 0 then [(o, 0x0F, BitVec.ofNat 8 v)] else [(o, 0xF0, BitVec.ofNat 8 (16 * v))]
  else (bytesOf (elemBytes (shFormat m)) v).zipIdx.map fun p => (o + p.2, 0xFF, p.1)

/-- Cuts a list into runs of equal mark, each of at most `n` members. -/
def runsOf {α : Type} (n : Nat) : List (α × Bool) → List (List α × Bool)
  | [] => []
  | (x, p) :: r =>
    match runsOf n r with
    | (xs, q) :: rest => if p = q ∧ xs.length < n then (x :: xs, p) :: rest else ([x], p) :: (xs, q) :: rest
    | [] => [([x], p)]

/-- Elements in a piece of 128 bytes, which lands as a whole (R150). -/
def pieceElems (t : Fmt) : Nat := 128 * 8 / t.bits

/-- What a run of destination elements lands: element numbers with their values. -/
def landWhat (c : CopyOp) (xs : List (Nat × Nat)) : LandWhat :=
  match c.op with
  | none => .bytes (xs.flatMap fun x => elemCells c.dst x.1 x.2)
  | some .swap => .swap (shFormat c.dst) (xs.map fun x => (shElemOfs c.dst x.1, x.2, shElemOfs c.src x.1))
  | some op => .combine op (shFormat c.dst) (xs.map fun x => (shElemOfs c.dst x.1, x.2))

/-- Granules of the destination that clean plain bytes of a chunk cover whole (R69). A c4 byte is covered when both its
nibbles are. -/
def wholeOf (c : CopyOp) (lo : Nat) (xs : List (Nat × Bool)) : List Nat :=
  if c.op.isSome then []
  else
    let b := elemBytes (shFormat c.dst)
    let at_ := xs.zipIdx.map fun x => (lo + x.2, x.1.2)
    let clean := at_.filterMap fun x => if x.2 then none else some x.1
    let rs :=
      if shFormat c.dst = .c4 then
        let nib (odd : Int) := (clean.filter fun t => shIndex c.dst t % 2 = odd).map (shElemOfs c.dst)
        ((nib 0).filter fun o => (nib 1).contains o).map fun o => (o, 1)
      else clean.map fun t => (shElemOfs c.dst t, b)
    (State.granulesCovered rs).filter fun g =>
      !at_.any fun x => x.2 && (granulesOf (shElemOfs c.dst x.1) b).contains g

/-- The landings of a chunk (R78, R149). `home` says from which site an element comes (R10). -/
def chunkLandings (c : CopyOp) (home : Nat → Nat) (lo : Nat) (xs : List (Nat × Bool)) : List Landing :=
  let whole := wholeOf c lo xs
  (runsOf (pieceElems (shFormat c.dst)) (xs.zipIdx.map fun x => ((lo + x.2, x.1.1), x.1.2))).map fun r =>
    { of_ := .copy 0, who := c.who, vt := storeVt c.who.lrank c.dst, what := landWhat c r.1, poisoned := r.2, whole
      chunk := c.chunk, back := false, home := home ((r.1.head?.map (·.1)).getD 0) }

/-- The site that an element of a copy's source comes from; what a peer has returned comes from the edge die of its quad (R10). -/
def copyHome (s : State) (t : Team) (c : CopyOp) (quad : Nat) (i : Nat) : Nat :=
  if shSpace c.src = 5 then edgeSite quad else s.homeSite (s.operandKey t c.who.lrank c.src (shElemOfs c.src i))

/-- Whether the operands of a copy may lie in the same bytes: one tile store, or extents of one memory that meet. -/
def mayOverlap (s : State) (t : Team) (c : CopyOp) : Bool :=
  if isStore c.src || isStore c.dst then
    isStore c.src && isStore c.dst && storeVt c.who.lrank c.src == storeVt c.who.lrank c.dst && spanMeets
      [((shRange c.dst 4).1.toNat, ((shRange c.dst 4).2 - (shRange c.dst 4).1).toNat)] c.src
  else
    shSpace c.src == shSpace c.dst && shVt c.src == shVt c.dst && (shHnd c.src == shHnd c.dst ||
      (shSpace c.src != 5 && State.overlap (s.entry t (shHnd c.src)).base (s.entry t (shHnd c.src)).len
        (s.entry t (shHnd c.dst)).base (s.entry t (shHnd c.dst)).len))

/-- Destination and source offsets of the bytes of a copy that are undefined since its operands overlap: those in the overlap,
and those whose counterpart lies in it (R144, R149). -/
def overlapOfs (s : State) (t : Team) (c : CopyOp) : List Nat × List Nat :=
  if mayOverlap s t c then
    let sk := s.operandKey t c.who.lrank c.src
    let dk := s.operandKey t c.who.lrank c.dst
    let src := (shBytes c.src).map sk
    let dst := (shBytes c.dst).map dk
    let ps := ((shBytes c.dst).zip (shBytes c.src)).filter fun p => src.contains (dk p.1) || dst.contains (sk p.2)
    (ps.map (·.1), ps.map (·.2))
  else ([], [])

/-- A landing of a copy with the bytes free that an overlap of its operands leaves undefined (R144, R149). -/
def overlapFree (s : State) (t : Team) (c : CopyOp) (l : Landing) : Landing × State :=
  match (overlapOfs s t c).1 with
  | [] => (l, s)
  | os => (l.spoil s os 0, s.drew c.who.team 4096)

/-- Sends the landings of a chunk into the fabric. -/
def launchLandings (s : State) (t : Team) (id : Nat) (c : CopyOp) : List Landing → Nat × State
  | [] => (0, s)
  | l :: r =>
    let (l, s) := overlapFree s t c { l with of_ := .copy id }
    let (n, s) := s.number
    let (k, s) := launchLandings { s with landings := insertAt n l s.landings } t id c r
    (k + 1, s)

/-- Sets the poisoned-source bit when a copied element is poisoned (R68). -/
def notePoison (s : State) (w : Issuer) (xs : List (Nat × Bool)) : State :=
  if xs.any (·.2) then s.deliverSummary w.team w.lrank w.uid noCtr sumPsrc false else s

/-- Moves the elements of the next chunk of a copy into the fabric; `quad` brought what a peer has returned. -/
def moveChunk (s : State) (t : Team) (id : Nat) (c : CopyOp) (quad : Nat := 0) : State :=
  let ce := chunkElems (shFormat c.src)
  let lo := ce * c.chunk
  let n := min ce (shCount c.src - lo)
  let (xs, s) := copySource s t c lo n
  let s := notePoison s c.who xs
  let (k, s) := launchLandings s t id c (chunkLandings c (copyHome s t c quad) lo xs)
  { s with copies := insertAt id { c with chunk := c.chunk + 1, pending := c.pending + k } s.copies }

/-- Posts the counter increment of a copy (R74, R78, R97). -/
def postCounter (s : State) (c : CopyOp) : State :=
  if ctrNone c.ctr then s
  else
    let (n, s) := s.number
    { s with incs := insertAt n ⟨c.who, ctrVt c.ctr, ctrOfs c.ctr, c.amount, c.diverted⟩ s.incs }

/-- Remembers a copy that has been performed, until its counter has advanced or a FENCE has returned, where a change of its
source still bears on its destination (R74, R144). -/
def keepDone (s : State) (id : Nat) (c : CopyOp) (inc : Option Nat) : State :=
  if if isStore c.src then ownStore c.who.lrank c.src || c.step.isSome else c.step.isSome && shSpace c.src != 5 then
    { s with doneCopies := s.doneCopies ++ [⟨id, c.who, c.dst, c.src, c.op.isSome, inc⟩] }
  else s

/-- Posts the increment of a copy that has been performed, and remembers the copy. -/
def finishCopy (s : State) (id : Nat) (c : CopyOp) : State :=
  match c.posted with
  | some n => keepDone s id c (some n)
  | none => (keepDone s id c (if ctrNone c.ctr then none else some s.fresh)) |> fun s => postCounter s c

/-- Ends a copy when all its bytes have landed (R78, R149). -/
def endCopy (s : State) (id : Nat) : State :=
  match lookup id s.copies with
  | none => s
  | some c =>
    if c.pending = 0 ∧ shCount c.src ≤ chunkElems (shFormat c.src) * c.chunk then
      finishCopy { s with copies := eraseAt id s.copies } id c
    else s

/-- Sends a request to a member package and remembers what waits for its answer (R63, R199). -/
def State.ask (s : State) (w : Issuer) (p quad cls hnd ofs : Nat) (kind : RemoteKind) (wait : RemoteWait) : State :=
  let (n, s) := s.number
  { (s.send (.request p quad cls n w.team (BitVec.ofNat 32 hnd) ofs kind)) with
    remotes := insertAt n ⟨p, quad, cls, wait⟩ s.remotes }

/-- Bytes at some offsets, `b` at each, as requests of at most 256 bytes (R198). -/
def requestsOf (b : Nat) : List Nat → List (Nat × Nat) → List (Nat × Nat)
  | [], l => l.reverse
  | x :: r, [] => requestsOf b r [(x, b)]
  | x :: r, (o, n) :: l =>
    if o ≤ x ∧ x + b ≤ o + n then requestsOf b r ((o, n) :: l)
    else if x = o + n ∧ n + b ≤ 256 then requestsOf b r ((o, n + b) :: l)
    else requestsOf b r ((x, b) :: (o, n) :: l)

/-- Whether a peer still owes bytes of a chunk of a copy. -/
def State.chunkAsked (s : State) (id chunk : Nat) : Bool :=
  s.remotes.any fun r => match r.2.wait with
    | .copyRead i j _ => i == id && j == chunk
    | _ => false

/-- Asks a peer for the source of the next chunk of a copy, all over one quad (R198, R199). A read names the pod superstep
and the pod time whose committed state it returns (R73). -/
def askChunk (s : State) (id : Nat) (c : CopyOp) (quad cls : Nat) : State :=
  let ce := chunkElems (shFormat c.src)
  let os := (interval (ce * c.chunk) (min ce (shCount c.src - ce * c.chunk))).map (shElemOfs c.src)
  (requestsOf (elemBytes (shFormat c.src)) os []).foldl (fun s p =>
    s.ask c.who (shVt c.src) quad cls (shHnd c.src) p.1 (.read c.seen c.seenAt p.2) (.copyRead id c.chunk p.1)) s

/-- The way of a deferred copy from its source to its destination's home, and its flits: data of a peer comes to the tile later, and
what goes to one leaves with its requests (R10, R63, R210; log 13). -/
def deferredWay (s : State) (t : Team) (c : CopyOp) : List Nat × Nat :=
  let home (m : Shape) : Nat := if shSpace m = 5 then tileSite c.who.tile else s.homeSite (s.operandKey t c.who.lrank m (shElemOfs m 0))
  (sitePath (home c.src) (home c.dst), 1 + if shSpace c.src = 5 then 0 else (shSize c.src + 63) / 64)

/-- A deferred copy that has come through to its home is accepted there (R83, R210). -/
def acceptCopy (s : State) (t : Team) (id : Nat) (c : CopyOp) : State :=
  if c.accepted then s
  else
    let w := deferredWay s t c
    let x := s.cross id w.1 0 w.2
    if x.1 then { x.2 with copies := insertAt id { c with accepted := true } s.copies } else x.2

/-- COPY_CHUNK: a deferred copy is accepted by its home (R83); any other copy checks its handles and moves its next chunk
(R66), which a peer's memory must first answer. -/
def execCopyChunk (id : Nat) (s : State) : Out :=
  match lookup id s.copies with
  | none => .next s
  | some c =>
    match s.team? c.who.team with
    | none => .next s
    | some t =>
      if s.heldBack c.who.team c.who.tile && (s.acrossFabric c.who.team c.who.tile c.src
          || s.acrossFabric c.who.team c.who.tile c.dst) then .next s
      else if c.step.isSome then .next (acceptCopy s t id c)
      else
        let ce := chunkElems (shFormat c.src)
        let lo := ce * c.chunk
        let n := min ce (shCount c.src - lo)
        if n = 0 then .next s
        else
          let rs := elemRanges c.src lo n
          match whyNot s t c.who.lrank c.src rs with
          | some cause => .next (failCopy s id c cause c.src)
          | none =>
            match whyNot s t c.who.lrank c.dst [] with
            | some cause => .next (failCopy s id c cause c.dst)
            | none =>
              if shSpace c.src = 5 then
                if s.routeWaits c.who.team (shVt c.src) || s.chunkAsked id c.chunk then .next s
                else match s.route c.who.team (shVt c.src) (elemSpan c.src lo n).1 c.who.tile with
                  | none => .next (failCopy s id c 0x41 c.src)
                  | some q => .next (askChunk s id c q 1)
              else if mustWait s t c.src rs then .next s
              else .next (moveChunk s t id c)

/-! ### At the inbound port -/

/-- Where landings for a vtile go now. -/
inductive Port where
  /-- Applied at the port of a tile. -/
  | tile (p : Nat)
  /-- Queued at the port of a halted tile (R245). -/
  | queue (p : Nat)
  /-- Appended to the diversion log. -/
  | log
  /-- Applied to the image. -/
  | image
  /-- Held by the sender: the log is full (R189). -/
  | hold
  /-- The vtile is lost, or gone (R178). -/
  | dead
  deriving DecidableEq, Repr

/-- Where a landing for a vtile goes (R186, R189, R245). `parts` is how many log records it makes. DESIGN CHOICE: R245 gives the
port of a halted tile no size, and it never fills here (log 29). -/
def State.portOf (s : State) (id lr : Nat) (parts : Nat := 1) : Port :=
  match s.vtile? id lr with
  | none => .dead
  | some v =>
    if v.lost then .dead
    else match v.div with
      | .resident =>
        let x := s.tile v.ptile
        if x.fenced then .dead
        else if x.dbg ≠ .running ∧ x.pass = false then .queue v.ptile else .tile v.ptile
      | .cut | .saving | .restoring => if s.logFull id lr parts then .hold else .log
      | .diverting => .image
      | .free => .dead

/-- Stores the bytes of a landing under their masks (R69). -/
def landBytes (s : State) (key : Nat → Nat) (cs : List (Nat × Byte × Byte)) : State :=
  cs.foldl (fun s c =>
    s.update (key c.1) [(s.mem.byte (key c.1) &&& ~~~c.2.1) ||| (c.2.2 &&& c.2.1)]) s

/-- Combines elements in place (R147). -/
def landCombine (s : State) (key : Nat → Nat) (op : ROp) (f : Fmt) (es : List (Nat × Nat)) : State :=
  es.foldl (fun s e =>
    let b := f.bits / 8
    s.update (key e.1) (bytesOf b (op.apply f (s.mem.num (key e.1) b) e.2))) s

/-- The nibbles of a granule that plain cells write: two bits for each byte. -/
def coverMask (cs : List (Nat × Byte × Byte)) (g : Nat) : BitVec 128 :=
  cs.foldl (fun m c => if c.1 / 64 = g then
      m ||| BitVec.ofNat 128 (((c.2.1 &&& 0x0F == 0x0F).nat + 2 * (c.2.1 &&& 0xF0 == 0xF0).nat) * 4 ^ (c.1 % 64)) else m) 0

/-- Clean plain cells of a chunk land in a granule: once the chunk has covered all of it, with no new mark meanwhile, the mark
clears (R69). -/
def coverGranule (key : Nat → Nat) (l : Landing) (cs : List (Nat × Byte × Byte)) (s : State) (g : Nat) : State :=
  let a := granule (key (64 * g))
  match s.vtile? l.who.team l.vt with
  | none => s
  | some v =>
    if s.poisoned a then
      let same (c : Cover) : Bool := c.of_ == l.of_ && c.chunk == l.chunk && c.g == g
      let m := (v.cover.filter same).foldl (fun m c => m ||| c.mask) (coverMask cs g)
      let rest := v.cover.filter fun c => !same c
      if m = BitVec.allOnes 128 then (s.putVtile l.who.team l.vt { v with cover := rest }).clearPoison [a]
      else s.putVtile l.who.team l.vt { v with cover := ⟨l.of_, l.chunk, g, m⟩ :: rest }
    else s

/-- Settles the poison marks after a landing: what a poisoned piece touches is marked, and granules that the clean bytes of its
chunk, or the write-backs of a chunk of a swap, have covered whole lose their marks (R68, R69, R149). -/
def landMarks (s : State) (key : Nat → Nat) (l : Landing) (rs : List (Nat × Nat)) : State :=
  if l.poisoned then
    let gs := rs.flatMap fun r => granulesOf (key r.1) r.2
    (s.uncover gs).markPoison gs
  else match l.what with
    | .bytes cs => if s.poison.isEmpty then s
      else ((cs.map fun c => c.1 / 64).eraseDups.filter fun g => l.back || l.whole.contains g).foldl (coverGranule key l cs) s
    | _ => s

/-- Swaps elements one after another, each atomically: the state, and each old value with its poison and the offset that it
returns to (R147, R149). -/
def landSwap (key : Nat → Nat) (b : Nat) : List (Nat × Nat × Nat) → State → List ((Nat × Nat) × Bool) × State
  | [], s => ([], s)
  | e :: r, s =>
    let old := ((e.2.2, s.mem.num (key e.1) b), s.anyPoison (key e.1) b)
    let (l, s) := landSwap key b r (s.update (key e.1) (bytesOf b e.2.1))
    (old :: l, s)

/-- The write-backs of a swap, one for each run of old values of one poison (R68, R149). -/
def writeBacks (l : Landing) (b : Nat) (old : List ((Nat × Nat) × Bool)) : List Landing :=
  (runsOf old.length old).map fun r =>
    { l with
      vt := l.who.lrank, poisoned := r.2, whole := [], back := true
      what := .bytes (r.1.flatMap fun x => (bytesOf b x.2).zipIdx.map fun p => (x.1 + p.2, 0xFF, p.1)) }

/-- Applies a landing to bytes that a key function places, and answers the write-backs of a swap (R149). -/
def applyLanding (s : State) (key : Nat → Nat) (l : Landing) : List Landing × State :=
  match l.what with
  | .bytes cs => ([], landMarks (landBytes s key cs) key l (cs.map fun c => (c.1, 1)))
  | .combine op f es => ([], landMarks (landCombine s key op f es) key l (es.map fun e => (e.1, f.bits / 8)))
  | .swap f es =>
    let (old, s) := landSwap key (f.bits / 8) es s
    (writeBacks l (f.bits / 8) old, landMarks s key l (es.map fun e => (e.1, f.bits / 8)))

/-- The tile-store ranges of a landing, and the watchpoint bit that selects it (R250). -/
def landRanges (l : Landing) : Nat × List (Nat × Nat) :=
  match l.what with
  | .bytes cs => (58, cs.map fun c => (c.1, 1))
  | .combine _ f es => (57, es.map fun e => (e.1, f.bits / 8))
  | .swap f es => (57, es.map fun e => (e.1, f.bits / 8))

/-- Watchpoints on a landing that has been applied (R251): a tile that runs halts. DESIGN CHOICE: their records bear STRAND 0
(log 29). -/
def landWatch (s : State) (tile lr : Nat) (sel : Nat) (rs : List (Nat × Nat)) : State :=
  match State.watchHits (s.tile tile) sel rs with
  | [] => s
  | hits =>
    let s := s.watchTrace tile lr 0 hits
    if State.watchStops (s.tile tile) hits && (s.tile tile).dbg == .running then s.halt tile 4 (State.watchBits hits) 0 else s

/-- Whether a landing belongs to a copy. -/
def LandOf.isCopy : LandOf → Bool
  | .copy _ => true
  | .run _ _ => false

/-- Flits of a landing: one for its head, and its data (R210; log 13). -/
def landFlits (l : Landing) : Nat := 1 + (landCount l + 63) / 64

/-- The site where what goes to a vtile's tile store arrives (R10, R186). -/
def State.portSite (s : State) (p : Port) (t : Team) (lr : Nat) : Nat :=
  match p with
  | .tile x | .queue x => tileSite x
  | .log => s.homeSite (hbmKey (s.dlbase.toNat + 524288 * (((s.vtile? t.teamid lr).bind (·.log)).getD 0)))
  | _ => s.homeSite (hbmKey (t.img lr))

/-- A packet for a vtile's tile store moves on between dies: whether all of it has come to the port (R210). What goes to a log is in
class 3 (R238). -/
def State.arrives (s : State) (n home : Nat) (p : Port) (t : Team) (lr cls flits : Nat) : Bool × State :=
  s.cross n (sitePath home (s.portSite p t lr)) (if p = .log then 3 else cls) flits

/-- The records that a landing leaves in a log: one for each granule (R188). -/
def splitLanding (l : Landing) : List Landing :=
  match l.what with
  | .bytes cs =>
    (cs.map fun c => c.1 / 64).eraseDups.map fun g =>
      { l with what := .bytes (cs.filter fun c => c.1 / 64 == g), whole := l.whole.filter (· == g) }
  | .combine op f es =>
    (es.map fun e => e.1 / 64).eraseDups.map fun g => { l with what := .combine op f (es.filter fun e => e.1 / 64 == g) }
  | .swap f es => es.map fun e => { l with what := .swap f [e] }

/-- Notes at a copy that `n` of its landings are done, and `m` new ones are on their way. -/
def landed (s : State) (l : Landing) (n m : Nat) : State :=
  match l.of_ with
  | .copy id =>
    match lookup id s.copies with
    | some c => endCopy (countChunks { s with copies := insertAt id { c with pending := c.pending + m - n } s.copies } id) id
    | none => s
  | .run _ _ => s

/-- Sends the write-backs of a swap on their way, with what an overlap of its operands leaves undefined free (R149). -/
def sendBack (s : State) (home : Nat) : List Landing → State
  | [] => s
  | l :: r =>
    let l := { l with home }
    let os := match l.of_ with
      | .copy id => match lookup id s.copies, s.team? l.who.team with
        | some c, some t => (overlapOfs s t c).2
        | _, _ => []
      | .run _ _ => []
    let (n, s) := s.number
    let (l, s) := match os with
      | [] => (l, s)
      | _ => (l.spoil s os 0, s.drew l.who.team 4096)
    sendBack { s with landings := insertAt n l s.landings } home r

/-- Counts the bytes of a landing for its run (R262); those of a copy count with their chunk. -/
def countLanding (s : State) (l : Landing) : State :=
  match l.of_ with
  | .copy _ => s
  | .run _ _ => s.accountReplay l.who.team (bytesIndex 1) 20 (landCount l) (s.replayOf l.who.team l.who.lrank l.who.uid)

/-- A landing changes bytes that other work may still have to read (R137, R144). The outputs of runs are ordered by the graph
and the interlock for what other nodes and runs read (R221, R235). -/
def landTouch (s : State) (l : Landing) : State :=
  match l.of_ with
  | .copy id => s.touchStore l.who.team l.vt (landRanges l).2 (some id)
  | .run _ _ => s.touchWork l.who.team l.vt (landRanges l).2

/-- Whether the WAITGE of a saved strand holds (R50). DESIGN CHOICE (log 36): one whose counter is poisoned is ready too, so
that it issues again and takes its fault. -/
def savedWaitHolds (s : State) (id lr ofs target : Nat) : Bool :=
  let a := s.storeBase id lr + ofs
  s.anyPoison a 8 || target ≤ s.mem.num a 8

/-- What a WAITGE observes of a counter at a key: its word, or a free value that the team draws (R8) when a store has lowered it
too early (R97, R386). -/
def observed (s : State) (k : Strand) (key ofs : Nat) : Word × State :=
  if s.loweredAt k ofs then s.freeWord k.team else (BitVec.ofNat 64 (s.mem.num key 8), s)

/-- A WAITGE completes with what it observed (R72, R386). -/
def waitEnds (k : Strand) (ofs : Nat) (d : SReg) (v : Word) (s : State) : Strand × State :=
  ({ (k.wr d v).next with wait := .none }, s.onRace k.team k.lrank fun r => r.observe k.uid ofs)

/-- A WAITGE that waits in a slot of a tile that issues nothing completes when a landing has satisfied it (R245, R386). -/
def recheckSlot (id lr tile : Nat) (s : State) (slot : Nat) : State :=
  match s.strandAt tile slot with
  | none => s
  | some k =>
    match k.wait with
    | .waitge o n f =>
      if k.team ≠ id ∨ k.lrank ≠ lr ∨ k.held ∨ s.anyPoison (storeKey tile o) 8 then s
      else
        let (v, s') := observed s k (storeKey tile o) o
        if n ≤ v.toNat then
          let (k, s') := waitEnds k o f.d v s'
          s'.putAt tile slot k
        else s
    | _ => s

/-- Evaluates again the park-on-wait records of a vtile that wait for a counter (R50), and the WAITGEs of its strands while its tile
is halted (R386). -/
def recheckWaits (s : State) (id lr : Nat) : State :=
  match s.vtile? id lr with
  | none => s
  | some v =>
    let s := v.saves.foldl (fun s c =>
      match c.2.why, c.2.wait with
      | .park, .waitge o n _ => if savedWaitHolds s id lr o n then s.readyRecord id lr c.1 else s
      | _, _ => s) s
    if v.res && (s.tile v.ptile).dbg != .running then (List.range 8).foldl (recheckSlot id lr v.ptile) s else s

/-- A landing as the port of its vtile applies it (R78, R186, R245, R251); bytes of a counter may end waits for it (R50, R386). -/
def landAt (s : State) (l : Landing) (tile : Nat) : State :=
  let (back, s) := applyLanding (landTouch s l) (fun o => storeKey tile o) l
  let s := countLanding s l
  let s := landed (sendBack s (tileSite tile) back) l 1 back.length
  recheckWaits (landWatch s tile l.vt (landRanges l).1 (landRanges l).2) l.who.team l.vt

/-- Notes that a landing was diverted: the issuer's DIV bit (R84). -/
def noteDiverted (s : State) (l : Landing) : State :=
  let s := match l.of_ with
    | .copy id => match lookup id s.copies with
      | some c => { s with copies := insertAt id { c with diverted := true } s.copies }
      | none => s
    | .run id _ => match lookup id s.runs with
      | some r => { s with runs := insertAt id { r with diverted := true } s.runs }
      | none => s
  s.deliverSummary l.who.team l.who.lrank l.who.uid noCtr sumDiv false

/-- A landing for an image (R186). -/
def landImage (s : State) (t : Team) (l : Landing) : State :=
  let (back, s) := applyLanding (landTouch s l) (fun o => hbmKey (t.img l.vt) + o) l
  let s := s.settleLive (hbmKey (t.img l.vt)) storeSize
  recheckWaits (landed (countLanding (sendBack (noteDiverted s l) (s.homeSite (hbmKey (t.img l.vt))) back) l) l 1 back.length)
    l.who.team l.vt

/-- A landing for a log: a swap goes on until it is replayed (R149, R188). -/
def landLog (s : State) (l : Landing) : State :=
  let parts := splitLanding l
  let s := noteDiverted (landTouch s l) l
  let s := parts.foldl (fun s p => s.appendLog l.who.team l.vt (.land p)) s
  match l.what with
  | .swap _ _ => landed s l 1 parts.length
  | _ => landed (countLanding s l) l 1 0

/-- Fails the operation that a landing belongs to: its target is lost (R178). A node's chunks count as complete only before it (R66,
R171). -/
def failLanding (s : State) (n : Nat) (l : Landing) : State :=
  let out := { s with landings := eraseAt n s.landings, hops := eraseAt n s.hops }
  match l.of_ with
  | .copy id => match lookup id s.copies with
    | some c => failCopy { s with hops := eraseAt n s.hops } id c 0x41 c.dst
    | none => out
  | .run id i => { out with runs := out.runs.map fun r =>
      if r.1 = id then (id, { r.2 with nodes := modifyNth (fun x => { x with wrote := min x.wrote l.chunk }) i r.2.nodes }) else r }

/-- A copy whose last bytes stand queued at a port posts an increment for the same port behind them (R245). -/
def postQueued (s : State) (l : Landing) (tile : Nat) : State :=
  match l.of_ with
  | .copy id =>
    match lookup id s.copies with
    | some c =>
      let port := (s.tile tile).port
      if c.posted.isNone && !ctrNone c.ctr && ctrVt c.ctr == l.vt && c.op != some .swap
          && shCount c.src ≤ chunkElems (shFormat c.src) * c.chunk
          && !s.landings.any fun x => x.2.of_ == l.of_ && !port.contains x.1 then
        postCounter { s with copies := insertAt id { c with posted := some s.fresh } s.copies } c
      else s
    | none => s
  | .run _ _ => s

/-- LANDING: the earliest landing of its copy or node that is in flight reaches its vtile (R78, R186). -/
def execLanding (n : Nat) (s : State) : Out :=
  match lookup n s.landings with
  | none => .next s
  | some l =>
    let queued (m : Nat) : Bool := match s.vtile? l.who.team l.vt with
      | some v => (s.tile v.ptile).port.contains m
      | none => false
    let first := !s.landings.any fun x => x.1 < n && x.2.of_ == l.of_ && !queued x.1
    match s.portOf l.who.team l.vt (splitLanding l).length, s.team? l.who.team with
    | _, none => .next { s with landings := eraseAt n s.landings }
    | p, some t =>
      if !first then .next s
      else
        .next (match p with
          | .hold => s
          | .dead => failLanding s n l
          | .queue x =>
            if (s.tile x).port.contains n then s
            else
              let c := s.arrives n l.home p t l.vt (if l.of_.isCopy then 1 else 2) (landFlits l)
              if c.1 then postQueued (c.2.onTile x fun y => { y with port := y.port ++ [n] }) l x else c.2
          | _ =>
            let c := s.arrives n l.home p t l.vt (if l.of_.isCopy then 1 else 2) (landFlits l)
            if !c.1 then c.2
            else
              let out := { c.2 with landings := eraseAt n c.2.landings }
              match p with
              | .tile x => landAt out l x
              | .log => landLog out l
              | _ => landImage out t l)

/-! ### Counter increments (R97) -/

/-- Adds to a counter, saturating; answers what did not fit (R97). -/
def addCounter (s : State) (key : Nat) (amount : Word) : Option Nat × State :=
  let v := s.mem.num key 8 + amount.toNat
  if v < 2 ^ 64 then (none, s.update key (bytesOf 8 v)) else (some (v - (2 ^ 64 - 1)), s.update key (bytesOf 8 (2 ^ 64 - 1)))

/-- The fault of a saturated counter: the record names the counter's vtile, and the issuer's summary counts the failure, with the
counter (R84, R97, R169, R171). -/
def saturated (s : State) (i : Increment) (ovf : Nat) (absent : Bool) : State :=
  match s.team? i.who.team with
  | none => s
  | some t =>
    let (gone, save) := match s.locate i.who.team i.who.lrank i.who.uid with
      | .gone => (true, 0xFF)
      | .saved n _ => (false, n)
      | .slot _ _ _ => (false, 0xFF)
    let parked := match s.vtile? i.who.team i.who.lrank with
      | some v => !v.res
      | none => true
    let s := s.orFstat i.who.team i.vt fstatCsat
    let s := s.traceVt i.who.team i.vt i.who.slot 7 1 (0x60 * 2 ^ 56 + i.who.pc.toNat % 2 ^ 56)
    let s := (s.writeFault i.who.team i.vt
      { pc := i.who.pc, word := i.who.word, addr := BitVec.ofNat 64 i.ofs, info := BitVec.ofNat 64 ovf
        info2 := BitVec.ofNat 64 (t.rank i.who.lrank), rank := t.rank i.vt, slot := i.who.slot, cause := 0x60, save
        prio := i.who.prio, forced := false, held := false, oabs := absent, iabs := gone || parked, eng := true } i.who.lrank).2
    s.deliverSummary i.who.team i.who.lrank i.who.uid (BitVec.ofNat 64 (i.ofs + 2 ^ 30 * i.vt)) (if i.diverted then sumDiv else 0) true

/-- An increment that was diverted: the issuer's DIV bit, and that of the run whose SIGNAL posted it (R84, R193). -/
def divertedInc (s : State) (n : Nat) (i : Increment) : Increment × State :=
  ({ i with diverted := true },
    State.deliverSummary { s with runs := s.runs.map fun r =>
        if (r.2.nodes.any fun x => x.inc == some n) then (r.1, { r.2 with diverted := true }) else r }
      i.who.team i.who.lrank i.who.uid noCtr sumDiv false)

/-- An increment for an image (R97, R186). -/
def incImage (s : State) (t : Team) (i : Increment) : State :=
  let a := hbmKey (t.img i.vt) + i.ofs
  let (ovf, s) := addCounter (s.touchStore i.who.team i.vt [(i.ofs, 8)]) a i.amount
  let s := s.settleLive a 8
  match ovf with
  | some o => saturated s i o true
  | none => s

/-- An increment has been delivered: the copies that it ends are done (R74, R144). -/
def incDone (s : State) (n : Nat) : State :=
  if s.doneCopies.isEmpty then s else { s with doneCopies := s.doneCopies.filter fun c => c.inc != some n }

/-- An increment at the port of a tile (R97, R251). -/
def incAt (s : State) (i : Increment) (tile : Nat) : State :=
  let (ovf, s) := addCounter (s.touchStore i.who.team i.vt [(i.ofs, 8)]) (storeKey tile i.ofs) i.amount
  let s := match ovf with
    | some n => saturated s i n false
    | none => s
  landWatch s tile i.vt 57 [(i.ofs, 8)]

/-- The traffic class of an increment: 2 for that of a SIGNAL (R238). -/
def incClass (s : State) (n : Nat) : Nat := if s.runs.any fun r => r.2.nodes.any fun x => x.inc == some n then 2 else 1

/-- COUNTER_INCREMENT: a posted increment reaches its counter (R78, R97, R186). That of a SIGNAL for a lost vtile stays for its
node to fail (R178). -/
def execCounterIncrement (n : Nat) (s : State) : Out :=
  match lookup n s.incs with
  | none => .next s
  | some i =>
    match s.team? i.who.team with
    | none => .next { s with incs := eraseAt n s.incs }
    | some t =>
      let p := s.portOf i.who.team i.vt
      .next (match p with
        | .hold => s
        | .dead => if s.runs.any fun r => r.2.open_ && r.2.nodes.any fun x => x.inc == some n then s
          else incDone { s with incs := eraseAt n s.incs, hops := eraseAt n s.hops } n
        | .queue x =>
          if (s.tile x).port.contains n then s
          else
            let c := s.arrives n (tileSite i.who.tile) p t i.vt (incClass s n) 1
            if c.1 then c.2.onTile x fun y => { y with port := y.port ++ [n] } else c.2
        | _ =>
          let c := s.arrives n (tileSite i.who.tile) p t i.vt (incClass s n) 1
          if !c.1 then c.2
          else
            let out := incDone { c.2 with incs := eraseAt n c.2.incs } n
            let d := divertedInc out n i
            match p with
            | .tile x => recheckWaits (incAt out i x) i.who.team i.vt
            | .log => d.2.appendLog i.who.team i.vt (.counter d.1)
            | _ => recheckWaits (incImage d.2 t d.1) i.who.team i.vt)

/-- Applies everything queued at the port of a tile, in order of arrival (R245). -/
def drainPort (s : State) (tile : Nat) : State :=
  let q := (s.tile tile).port
  q.foldl (fun s n =>
    if (s.tile tile).dbg ≠ .running ∧ (s.tile tile).pass = false then s else
    let s := s.onTile tile fun y => { y with port := y.port.filter (· != n) }
    match lookup n s.landings, lookup n s.incs with
    | some l, _ => landAt { s with landings := eraseAt n s.landings } l tile
    | none, some i =>
      recheckWaits (incAt (incDone { s with incs := eraseAt n s.incs } n) i tile) i.who.team i.vt
    | none, none => s) s

end Sys2Proof.Machine
end

