-- ==== Sys2Proof/Machine/LoadStore.lean ====
section
/-! DEFINITION. LD, ST, MLD, MST and MSET (R339, R342, R344, R359). -/

namespace Sys2Proof.Machine

/-- The address s[A] + SignExtend32(IMM), modulo 2^64. DESIGN CHOICE (log 36): R40 and its kind do not say whether a sum past
2^64 wraps or lies out of range. -/
def memAddr (k : Strand) (a : SReg) (imm : BitVec 32) : Word := k.rd a + sext32 imm

/-- R58 for `n` bytes at an address with an alignment. -/
def needStore (a : Word) (n align : Nat) : Do Unit :=
  need (a.toNat % align == 0 && a.toNat + n ≤ storeSize) 0x20 a

/-- The key of a tile-store offset of the tile that issues. -/
def tileKey (s : State) (ofs : Nat) : Nat := storeKey s.at_.1 ofs

/-- A load of `n` bytes from the tile store: R58, poison (R68), watchpoints (R251), then the value. -/
def loadBytes (k : Strand) (a : Word) (n align : Nat) (s : State) (go : List Byte → State → Do State) : Do State := do
  needStore a n align
  need (!s.anyPoison (tileKey s a.toNat) n) 0x26 a
  watched k 60 [(a.toNat, n)] s fun s => go (s.mem.read (tileKey s a.toNat) n) s

/-- Bytes that a strand stores at an offset of its tile store, and what that does to work under way (R69, R72, R137). -/
def stored (k : Strand) (a : Nat) (bs : List Byte) (s : State) : State :=
  s.storing k [(a, bs.length)] fun u => u.write (tileKey s a) bs

/-- A store of bytes to the tile store: R58, watchpoints, then the bytes and the next instruction (R69, R72). -/
def storeBytes (k : Strand) (a : Word) (align : Nat) (bs : List Byte) (s : State) : Do State := do
  needStore a bs.length align
  watched k 59 [(a.toNat, bs.length)] s fun s => retire (stored k a.toNat bs s) k

/-- LD (R339). -/
def execLd (f : IntI) (s : State) : Out :=
  .next (issue (.ld f) f.e { src := [f.a], dst := [f.d] }
    (fun k s => loadBytes k (memAddr k f.a f.imm) (f.ty.bits / 8) (f.ty.bits / 8) s
      fun bs s => retire s (k.wr f.d (wordOfInt (f.ty.intValue (ofBytes bs))))) s)

/-- ST (R359). -/
def execSt (f : IntI) (s : State) : Out :=
  .next (issue (.st f) f.e { src := [f.a, f.d] }
    (fun k s => storeBytes k (memAddr k f.a f.imm) (f.ty.bits / 8) (bytesOf (f.ty.bits / 8) (k.rd f.d).toNat) s) s)

/-- MLD (R342). The watchpoints of R250 list neither it nor MST. -/
def execMld (f : ShapeI) (s : State) : Out :=
  .next (issue (.mld f) f.e { src := [f.a] }
    (fun k s => do
      let a := memAddr k f.a f.imm
      needStore a 32 32
      need (!s.anyPoison (tileKey s a.toNat) 32) 0x26 a
      retire s (k.wrM f.d (BitVec.ofNat 256 (s.mem.num (tileKey s a.toNat) 32)))) s)

/-- MST (R342). -/
def execMst (f : ShapeI) (s : State) : Out :=
  .next (issue (.mst f) f.e { src := [f.a] }
    (fun k s => do
      let a := memAddr k f.a f.imm
      needStore a 32 32
      retire (stored k a.toNat (bytesOf 32 (k.rdM f.d).toNat) s) k) s)

/-- Lowest bit and width of the field that MSET writes (R344). -/
def MField.place : MField → Nat × Nat
  | .space => (0, 3) | .fmt => (3, 4) | .unf => (7, 1) | .ilv => (8, 2) | .vt => (16, 16) | .hnd => (32, 32)
  | .ofs => (64, 40) | .e0 => (104, 16) | .e1 => (120, 16) | .e2 => (136, 16) | .e3 => (152, 16) | .s0 => (240, 16)
  | .s1 => (168, 24) | .s2 => (192, 24) | .s3 => (216, 24)

/-- MSET (R344). -/
def execMset (f : MsetI) (s : State) : Out :=
  .next (issue (.mset f) f.e { src := [f.a] }
    (fun k s =>
      let p := MField.place f.field
      retire s (k.wrM f.d
        (BitVec.ofNat 256 (setField (k.rdM f.d).toNat p.1 p.2 (memAddr k f.a f.imm).toNat)))) s)

end Sys2Proof.Machine
end

