-- ==== Sys2Proof/Machine/Async.lean ====
section
/-! DEFINITION. AMO and RED (R306 to R308, R351 to R354), FENCE (R82 to R84), CTRADD and WAITGE (R97 to R100), and space-5
requests and answers (R63, R199, R203). -/

namespace Sys2Proof.Machine

/-! ### AMO -/

/-- AMOs of a strand that are outstanding: not performed, or with a fill on its way (R307). -/
def State.amosOf (s : State) (uid : Nat) : Nat :=
  (s.amos.filter fun c => c.2.who.uid == uid).length + (s.fills.filter fun c => c.2.who.uid == uid).length

/-- The operand of an AMO or RED (R307, R353). -/
def asyncOpnd (t : Fmt) (w : Word) : Word := BitVec.ofNat 64 (w.toNat % 2 ^ t.bits)

/-- The old value as an AMO delivers it (R307). -/
def amoPut (t : Fmt) (v : Nat) : Word := if t = .f32 then BitVec.ofNat 64 v else extend t v

/-- AMO (R306, R307). -/
def execAmo (f : AmoC) (s : State) : Out :=
  .next (issue (.amo f) f.e { src := [f.b], dst := [f.d] }
    (fun k s => withTeam s k fun t => do
      let m := k.rdM f.a
      need (2 ≤ shSpace m) 0x25 (shAddr m)
      checkAll s t [copyOpd m .a]
      need (shapeOk m && !shUnf m && shCount m == 1 && shFmt m == f.ty.code && shOfs m % (f.ty.bits / 8) == 0) 0x27
        (shAddr m)
      if 16 ≤ s.amosOf k.uid then .error (.wait .limit) else .ok ()
      let (id, s) := s.number
      let o : AmoOp := ⟨s.issuerOf k ((encode (.amo f)).getD 0), f.ty, f.op, m, f.d, asyncOpnd f.ty (k.rd f.b)⟩
      let s := noteShape { s with amos := insertAt id o s.amos } t k.lrank m (f.ty.bits / 8) (State.levelOf (shSpace m))
        (s.levelStep k.team k.lrank (shSpace m)) .amo
      retire s (k.empty f.d)) s)

/-- Sends an AMO's fill on its way from a site; none goes to s0 (R101). -/
def sendFill (s : State) (w : Issuer) (d : SReg) (v : Word) (psn : Bool) (home : Nat) : State :=
  if d = 0 then s
  else
    let (n, s) := s.number
    { s with fills := insertAt n ⟨w, d, v, psn, home⟩ s.fills }

/-- An AMO fails at its engine (R308). -/
def failAmo (s : State) (id : Nat) (o : AmoOp) (cause : Nat) : State :=
  sendFill (({ s with amos := eraseAt id s.amos }).engineFault o.who cause (shAddr o.a) 0 0
    (some (noCtr, causeBits cause))) o.who o.d 0 false (tileSite o.who.tile)

/-- Counts the operand bytes of an AMO or RED (R262). -/
def countAsync (s : State) (w : Issuer) (m : Shape) (n : Nat) : State :=
  s.accountReplay w.team (bytesIndex (shSpace m)) 20 n (s.replayOf w.team w.lrank w.uid)

/-- An AMO that brings the COUNT of a group-SRAM join cell to zero releases the record parked on it (R37). -/
def amoRelease (s : State) (t : Team) (unit key : Nat) (was : Nat) : State :=
  let cell := key / 16 * 16
  let park := s.liveNum (cell + 8) 8
  if was ≠ 0 ∧ s.liveNum cell 4 = 0 ∧ t.parked.any fun p => p.cell == some cell && p.ticket.toNat == park && p.released.isNone
  then (s.writeLive [unit] (cell + 8) (bytesOf 8 0)).release t.teamid (BitVec.ofNat 64 park)
  else s

/-- AMO_PERFORM: the AMO reaches its home, where it updates the live value (R76, R307, R308); one for a peer is sent there
(R63). -/
def execAmoPerform (id : Nat) (s : State) : Out :=
  match lookup id s.amos with
  | none => .next s
  | some o =>
    match s.team? o.who.team with
    | none => .next { s with amos := eraseAt id s.amos }
    | some t =>
      let n := o.ty.bits / 8
      if s.heldBack o.who.team o.who.tile && s.acrossFabric o.who.team o.who.tile o.a then .next s
      else match whyNot s t o.who.lrank o.a [(shOfs o.a, n)] with
      | some cause => .next (failAmo s id o cause)
      | none =>
        if shSpace o.a = 5 then
          if s.routeWaits o.who.team (shVt o.a) || s.remotes.any fun r => r.2.wait == .amo id then .next s
          else match s.route o.who.team (shVt o.a) (shOfs o.a) o.who.tile with
            | none => .next (failAmo s id o 0x41)
            | some q => .next (s.ask o.who (shVt o.a) q 0 (shHnd o.a) (shOfs o.a) (.amo o.op o.ty o.v) (.amo id))
        else if mustWait s t o.a [(shOfs o.a, n)] then .next s
        else
          let key := s.operandKey t o.who.lrank o.a (shOfs o.a)
          let (here, s) := s.cross id (sitePath (tileSite o.who.tile) (s.homeSite key)) 0 1
          if !here then .next s else
          let old := s.liveNum key n
          let psn := s.anyPoison key n
          let l := State.levelOf (shSpace o.a)
          let unit := unitKey o.who.team l (t.unitOf l o.who.lrank)
          let was := s.liveNum (key / 16 * 16) 4
          let s := ({ s with amos := eraseAt id s.amos }).writeLive [unit] key (bytesOf n (o.op.apply o.ty old o.v.toNat))
          let s := if shSpace o.a = 2 then amoRelease s t unit key was else s
          .next (sendFill (countAsync s o.who o.a n) o.who o.d (amoPut o.ty old) psn (s.homeSite key))

/-- Where what goes to the registers of a vtile's strands arrives (R186). -/
def State.fillPort (s : State) (id lr : Nat) : Port :=
  match s.vtile? id lr with
  | none => .dead
  | some v => match v.div with
    | .resident => .tile v.ptile
    | .cut | .saving | .restoring => .log
    | .diverting | .free => .image

/-- AMO_FILL: a fill reaches its register, wherever the strand stands (R101, R186); a full log holds it (R189). -/
def execAmoFill (id : Nat) (s : State) : Out :=
  match lookup id s.fills with
  | none => .next s
  | some o =>
    let logged := match s.vtile? o.who.team o.who.lrank with
      | some v => State.logging v
      | none => false
    if logged && s.logFull o.who.team o.who.lrank then .next s
    else
      let (here, s) := match s.team? o.who.team with
        | some t => s.arrives id o.home (s.fillPort o.who.team o.who.lrank) t o.who.lrank 0 1
        | none => (true, s)
      if !here then .next s
      else .next (({ s with fills := eraseAt id s.fills }).deliverFill o.who.team o.who.lrank o.who.uid o.d o.v o.poisoned)

/-! ### RED -/

/-- Bytes of an element of a RED (R352). -/
def redBytes (ty : Fmt) (wd : Bool) : Nat := if wd then 8 else ty.bits / 8

/-- The byte offset of the t-th element of a RED (R352). -/
def redOfs (m : Shape) (ty : Fmt) (wd : Bool) (t : Nat) : Nat := ((shOfs m : Int) + redBytes ty wd * shIndex m t).toNat

/-- A RED's operand: its elements have the RED's own size (R352). -/
def redOpd (m : Shape) (wd : Bool) : Opd :=
  let o := copyOpd m .w
  let d := shDims m
  if wd && o.lo < o.hi then { o with lo := (shOfs m : Int) + 8 * shLo m d, hi := (shOfs m : Int) + 8 * shHi m d + 8 } else o

/-- REDs of a tile that no home has accepted (R354). -/
def State.redsOf (s : State) (tile : Nat) : Nat := (s.reds.filter fun c => c.2.who.tile == tile && !c.2.accepted).length

/-- RED (R351 to R353). -/
def execRed (f : RedC) (s : State) : Out :=
  .next (issue (.red f) f.e
    (if f.vec then { v := [Fin.ofNat 32 f.b.val] } else { src := [f.b] })
    (fun k s => withTeam s k fun t => do
      let m := k.rdM f.d
      need (2 ≤ shSpace m && shSpace m != 6) 0x25 (shAddr m)
      checkAll s t [redOpd m f.wd]
      need (shapeOk m && !shUnf m && shFmt m == f.ty.code && (if f.vec then shCount m ≤ 64 else shCount m == 1)
        && shOfs m % redBytes f.ty f.wd == 0) 0x27 (shAddr m)
      if 64 ≤ s.redsOf s.at_.1 then .error (.wait .limit) else .ok ()
      let step := s.levelStep k.team k.lrank (shSpace m)
      let (id, s) := s.number
      let o : RedOp :=
        { who := s.issuerOf k ((encode (.red f)).getD 0), d := m, ty := f.ty, op := f.op, wd := f.wd, vec := f.vec
          v := if f.vec then k.rdV (Fin.ofNat 32 f.b.val) else BitVec.ofNat 2048 (k.rd f.b).toNat
          step, accepted := false, pending := 0 }
      let s := { s with reds := insertAt id o s.reds }
      let key := s.operandKey t k.lrank m
      let s := (List.range (shCount m)).foldl (fun s i => s.noteUpdate k.team k.lrank
        ⟨State.levelOf (shSpace m), step, .red, key (redOfs m f.ty f.wd i), redBytes f.ty f.wd⟩) s
      retire s k) s)

/-- A RED fails (R354). -/
def failRed (s : State) (id : Nat) (o : RedOp) (cause : Nat) : State :=
  ({ s with reds := eraseAt id s.reds }).engineFault o.who cause (shAddr o.d) 0 0 (some (noCtr, causeBits cause))

/-- Flits of a RED: one for its head, and its elements (R210; log 13). -/
def redFlits (o : RedOp) : Nat := 1 + (shCount o.d * redBytes o.ty o.wd + 63) / 64

/-- RED_ACCEPT: the home takes the RED into the pending set of its exchange, or its target is fenced or unreachable (R83,
R354). -/
def execRedAccept (id : Nat) (s : State) : Out :=
  match lookup id s.reds with
  | none => .next s
  | some o =>
    let p := ((s.vtile? o.who.team o.who.lrank).map (·.ptile)).getD 0
    if s.heldBack o.who.team o.who.tile && s.acrossFabric o.who.team o.who.tile o.d then .next s
    else if shSpace o.d = 2 ∧ s.fencedGroups.contains (p / 16) then .next (failRed s id o 0x41)
    else if shSpace o.d = 5 ∧ s.routeWaits o.who.team (shVt o.d) then .next s
    else if shSpace o.d = 5 ∧ (s.route o.who.team (shVt o.d) (shOfs o.d) o.who.tile).isNone then .next (failRed s id o 0x41)
    else
      let path := match s.team? o.who.team with
        | some t => if shSpace o.d = 5 then [] else sitePath (tileSite o.who.tile) (s.homeSite (s.operandKey t o.who.lrank o.d (shOfs o.d)))
        | none => []
      let (here, s) := s.cross id path 0 (redFlits o)
      if !here then .next s
      else .next { s with reds := insertAt id { o with accepted := true } s.reds }

/-! ### FENCE -/

/-- The level of a destination for FENCE (R83). -/
def fenceLevel (m : Shape) : Nat := if isStore m then 1 else Scope.code (State.levelOf (shSpace m))

/-- Whether a strand has work at level `l` or inside that is neither performed nor failed (R83). -/
def outstanding (s : State) (uid l : Nat) : Bool :=
  (s.copies.any fun c => c.2.who.uid == uid && !c.2.accepted && fenceLevel c.2.dst ≤ l)
    || (s.amos.any fun c => c.2.who.uid == uid && fenceLevel c.2.a ≤ l)
    || s.reds.any fun c => c.2.who.uid == uid && !c.2.accepted && fenceLevel c.2.d ≤ l

/-- A FENCE that returns ends the time in which a change of a source undoes a copy of its strand (R144). -/
def fenced (s : State) (uid l : Nat) : State :=
  if s.doneCopies.isEmpty then s
  else { s with doneCopies := s.doneCopies.filter fun c => !(c.who.uid == uid && fenceLevel c.dst ≤ l) }

/-- FENCE (R82, R83, R333). -/
def execFence (f : FenceC) (s : State) : Out :=
  .next (issue (.fence f) false { dst := [f.d] }
    (fun k s =>
      if outstanding s k.uid (Scope.code f.scope) then .error (.wait .fence)
      else retire (fenced s k.uid (Scope.code f.scope)) { k.wr f.d k.summary with summary := 0 }) s)

/-! ### Counters -/

/-- CTRADD (R97, R99, R325). -/
def execCtradd (f : CtrC) (s : State) : Out :=
  .next (issue (.ctradd f) f.e { src := [f.a, f.b] }
    (fun k s => do
      let a := memAddr k f.a f.x
      needStore a 8 8
      match addCounter (s.touchStore k.team k.lrank [(a.toNat, 8)]) (tileKey s a.toNat) (k.rd f.b) with
      | (none, s) =>
        (retire (s.onRace k.team k.lrank fun r => r.carry k.uid a.toNat) k).map fun s => recheckWaits s k.team k.lrank
      | (some n, s) =>
        .ok ((s.orFstat k.team k.lrank fstatCsat).takeFault s.at_.1 s.at_.2 k 0x60 a (BitVec.ofNat 64 n)
          ((encode (.ctradd f)).getD 0))) s)

/-- The counter and the target of a WAITGE: as it issued, where it has been waiting, and as its registers give them now (R386). -/
def waitsFor (f : WaitC) (k : Strand) (was : Option Strand) : Word × Nat :=
  match was.map Strand.wait with
  | some (.waitge o n _) => (BitVec.ofNat 64 o, n)
  | _ => (memAddr k f.a f.x, (k.rd f.b).toNat)

/-- WAITGE (R100, R386). One that completes has observed the CTRADDs on its counter (R72). -/
def execWaitge (f : WaitC) (s : State) : Out :=
  .next (issue (.waitge f) f.e { src := [f.a, f.b], dst := [f.d] }
    (fun k s => do
      let (a, n) := waitsFor f k s.strand?
      needStore a 8 8
      need (!s.anyPoison (tileKey s a.toNat) 8) 0x26 a
      let (v, s) := observed s k (tileKey s a.toNat) a.toNat
      if n ≤ v.toNat then
        let (k, s) := waitEnds k a.toNat f.d v s
        .ok (s.put k)
      else .error (.wait (.waitge a.toNat n f))) s)

/-! ### Space 5 -/

/-- Sets the mark of a phase whose exchange found a failed operation (R81). -/
def markExFail (s : State) (id : Nat) (l : Scope) (u k : Nat) : State :=
  let x := s.unit id l u
  s.putUnit id l u { x with phases := insertAt k { State.phase x k with exFail := true } x.phases }

/-- Whether a peer's operation on bytes [ofs, ofs + n) passes this package's mirror entry (R63). -/
def mirrorEntry (s : State) (t : Team) (hnd : BitVec 32) (ofs n : Nat) (p : Perm) : Option HEntry :=
  match s.entryNow t hnd.toNat with
  | some e => if e.space == 4 && ofs + n ≤ e.len && e.grants p then some e else none
  | none => none

/-- Bytes, counted from its offset, and permission that a peer's operation needs. -/
def remoteNeeds : RemoteKind → Nat × Perm
  | .read _ _ n => (n, .r)
  | .amo _ ty _ => (ty.bits / 8, .a)
  | .write _ _ _ cs _ => ((cs.map fun c => c.1 + 1).foldl max 0, .w)
  | .combine _ _ _ _ ty es _ => ((es.map fun e => e.1 + ty.bits / 8).foldl max 0, .a)
  | .red _ _ _ _ ty wd es => ((es.map fun e => e.1 + redBytes ty wd).foldl max 0, .w)

/-- Bytes of memory that a request names: a link carries at most 256 of them in one (R198). -/
def remoteBytes : RemoteKind → Nat
  | .read _ _ n => n
  | .amo _ ty _ => ty.bits / 8
  | .write _ _ _ cs _ => (cs.map (·.1)).eraseDups.length
  | .combine _ _ _ _ ty es _ => es.length * (ty.bits / 8)
  | .red _ _ _ _ ty wd es => es.length * redBytes ty wd

/-- The pod superstep of a deferred write or RED, or that of a read. -/
def remoteStep : RemoteKind → Nat
  | .read n _ _ | .write n _ _ _ _ | .combine n _ _ _ _ _ _ | .red n _ _ _ _ _ _ => n
  | .amo _ _ _ => 0

/-- Pod exchanges that this package has run for a team. -/
def podDone (s : State) (t : Team) : Nat :=
  let b := s.unit t.teamid .pod 0
  b.step + (State.phase b b.step).exchanged.nat

/-- Whether an exchange that overwrote bytes came after what a read asks for: after `n` pod exchanges of its team, and for any
other exchange after a pod time (R24, R73). -/
def Kept.later (k : Kept) (team n time : Nat) : Bool := if k.pod && k.team == team then n ≤ k.step else time < k.time

/-- A byte of this package's HBM with its poison, as it stood when `n` pod exchanges of a team had run, and at a pod time: what
later exchanges overwrote is kept, and the oldest of them tells (R73). -/
def byteAtPod (s : State) (team n time a : Nat) : Byte × Bool :=
  match s.kept.findSome? fun k => if k.later team n time then lookup a k.cells else none with
  | some b => b
  | none => (s.mem.byte a, s.poisoned (granule a))

/-- The answer to a peer's read (R73). -/
def readAnswer (s : State) (team key step time n : Nat) : RemoteAns := .data ((interval key n).map (byteAtPod s team step time))

/-- Where a peer's operation meets this package: at the home of its first byte, or at the edge when no mirror entry admits it
(R10, R63). -/
def remoteSite (s : State) (quad ofs : Nat) : Option HEntry → Nat
  | some e => s.homeSite (e.key 0 ofs)
  | none => edgeSite quad

/-- Answers a peer from a site, over the quad that its request took, on the class of the request; when that quad has gone DOWN the
peer fails the request by itself (R203, R238). -/
def State.reply (s : State) (src quad cls tag team home : Nat) (a : RemoteAns) : State :=
  if s.carries quad then s.send (.answer src quad cls tag team home a) else s

/-- A peer's operation on this package's HBM (R63), at its home. AMOs are performed, and so are reads of exchanges that have run
here; other reads wait for the pod exchange, and so do writes and REDs, which are checked when it performs them (R66, R73, R74,
R77). The bits that an AMO reaches are this package's level memory, and the pod's (R71). No request names more than 256 bytes
(R198). `entry` is the mirror entry that admits the operation. -/
def remoteAt (r : RemoteReq) (entry : Option HEntry) (s : State) : State :=
  let answer (a : RemoteAns) (s : State) : State := s.reply r.src r.quad r.cls r.tag r.team (remoteSite s r.quad r.ofs entry) a
  match s.team? r.team with
  | none => answer .refused s
  | some t =>
    if 256 < remoteBytes r.kind then answer .refused s
    else
      let hold := { s with peerWork := s.peerWork ++ [⟨r.src, r.quad, r.cls, r.tag, r.team, r.hnd, r.ofs, r.kind⟩] }
      match r.kind, entry with
      | .read step time n, some e =>
        if podDone s t < step then hold else answer (readAnswer s r.team (e.key 0 r.ofs) step time n) s
      | .read _ _ _, none => answer .refused s
      | .amo op ty v, some e =>
        let key := e.key 0 r.ofs
        let n := ty.bits / 8
        let old := s.liveNum key n
        let units := [unitKey r.team .pkg 0, unitKey r.team .pod 0]
        answer (.data ((bytesOf n old).map fun b => (b, s.anyPoison key n)))
          (s.writeLive units key (bytesOf n (op.apply ty old v.toNat)))
      | .amo _ _ _, none => answer .refused s
      | k, _ => if remoteStep k < podDone s t then answer .refused s else hold

/-- The mirror entry that admits a peer's operation now (R63). -/
def requestEntry (s : State) (team : Nat) (hnd : BitVec 32) (ofs : Nat) (kind : RemoteKind) : Option HEntry :=
  (s.team? team).bind fun t => mirrorEntry s t hnd ofs (remoteNeeds kind).1 (remoteNeeds kind).2

/-- The link's buffers that a request has taken (R210). -/
def requestFlits (r : RemoteReq) : Nat := (Msg.request 0 0 0 0 0 0 0 r.kind).flits

/-- Where a peer's operation that names a handle, an offset and a kind meets this package now. -/
def requestSite (s : State) (team quad : Nat) (hnd : BitVec 32) (ofs : Nat) (kind : RemoteKind) : Nat :=
  remoteSite s quad ofs (requestEntry s team hnd ofs kind)

/-- The way of a peer's request from its edge die to the home of its first byte. -/
def requestWay (s : State) (r : RemoteReq) : List Nat :=
  sitePath (edgeSite r.quad) (requestSite s r.team r.quad r.hnd r.ofs r.kind)

/-- REMOTE_REQUEST: a peer's request leaves its edge die and comes to its home (R63, R198, R210). While a quiesce holds the team's
packets at the edge, the link keeps the request, unless it has entered already (R195). -/
def execRemoteRequest (r : RemoteReq) (s : State) : Out :=
  if s.heldEdge r.team && !s.inbound.contains r then .next s
  else
    let x := s.cross (reqHop r.src r.tag) (requestWay s r) r.cls (requestFlits r)
    let on := x.2.inbound.filter (· != r)
    if x.1 then
      .next (remoteAt r (requestEntry s r.team r.hnd r.ofs r.kind)
        ({ x.2 with inbound := on }.freeBuffers r.quad r.cls (requestFlits r)))
    else .next { x.2 with inbound := on ++ [r] }

/-- The cause of a failed answer (R63, R199, R203). -/
def ansCause : RemoteAns → Option Nat
  | .refused => some 0x42
  | .dead => some 0x41
  | .retired => some 0x44
  | _ => none

/-- The elements of a chunk, from the bytes that a peer has answered by their offsets (R63, R68). -/
def answerElems (m : Shape) (a n : Nat) (got : Table (Byte × Bool)) : List (Nat × Bool) :=
  (interval a n).map fun t =>
    let bs := (interval (shElemOfs m t) (elemBytes (shFormat m))).map fun o => (lookup o got).getD (0, false)
    let v := ofBytes (bs.map (·.1))
    (if shFormat m = .c4 then v / 16 ^ (shIndex m t % 2).toNat % 16 else v, bs.any (·.2))

/-- The destination of a failed copy in level memory is undefined, where its handle still names it (R65, R66). -/
def undefineLevel (s : State) (t : Team) (c : CopyOp) : State :=
  if !isStore c.dst && shSpace c.dst != 5 && s.stands t c.dst then
    (s.touchKeys ((shBytes c.dst).map (s.operandKey t c.who.lrank c.dst))).undefine c.who.team
      (s.operandKey t c.who.lrank c.dst) c.dst
  else s

/-- Fails a copy, and marks the phase of a deferred one; a level destination that its handle still names is undefined
(R66, R81). -/
def failCopyStep (s : State) (id : Nat) (c : CopyOp) (cause : Nat) (opd : Shape) : State :=
  let s := match s.team? c.who.team with
    | some t => undefineLevel s t c
    | none => s
  let s := failCopy s id c cause opd
  match c.step, s.team? c.who.team with
  | some (l, k), some t => markExFail s c.who.team l (t.unitOf l c.who.lrank) k
  | _, _ => s

/-- A chunk that a peer has returned over a quad: it moves on, or waits for the exchange of a deferred copy. -/
def chunkArrived (s : State) (t : Team) (id : Nat) (c : CopyOp) (quad : Nat) : State :=
  let ce := chunkElems (shFormat c.src)
  let lo := ce * c.chunk
  let n := min ce (shCount c.src - lo)
  let c := { c with snap := c.snap ++ answerElems c.src lo n c.got, got := [] }
  if c.step.isNone then moveChunk s t id c quad
  else
    let c := { c with chunk := c.chunk + 1, fetched := decide (shCount c.src ≤ ce * (c.chunk + 1)) }
    { s with copies := insertAt id c s.copies }

/-- Bytes that a peer has returned for a chunk: with the last of them the chunk has arrived (R198). -/
def bytesArrived (s : State) (t : Team) (id chunk ofs quad : Nat) (c : CopyOp) (bs : List (Byte × Bool)) : State :=
  let c := { c with got := bs.zipIdx.foldl (fun m b => insertAt (ofs + b.2) b.1 m) c.got }
  if s.chunkAsked id chunk then { s with copies := insertAt id c s.copies } else chunkArrived s t id c quad

/-- The answer to a RED of this package: it has been performed, or it fails as a whole (R354). -/
def redAnswered (s : State) (id : Nat) (cause : Option Nat) : State :=
  match lookup id s.reds with
  | none => s
  | some o =>
    match cause, s.team? o.who.team with
    | some c, some t => markExFail (failRed s id o c) o.who.team .pod (t.unitOf .pod o.who.lrank) o.step
    | _, _ =>
      if o.pending ≤ 1 then
        countAsync { s with reds := eraseAt id s.reds } o.who o.d (shCount o.d * redBytes o.ty o.wd)
      else { s with reds := insertAt id { o with pending := o.pending - 1 } s.reds }

/-- The peer found REDs of other operations or formats on the bytes of a RED: its vtile shows it (R77). -/
def redMixed (s : State) (id : Nat) : State :=
  match lookup id s.reds with
  | some o => s.orFstat o.who.team o.who.lrank fstatMixed
  | none => s

/-- The first chunk of a copy into a peer's memory that the peer has not performed, given one that fails (R66). -/
def firstOpen (s : State) (id chunk : Nat) : Nat :=
  (s.remotes.filterMap fun r => match r.2.wait with
    | .copyWrite i j => if i = id then some j else none
    | _ => none).foldl min chunk

/-- What a peer's answer does (R63, R203, R308); one that nothing awaits is discarded. -/
def answered (tag : Nat) (a : RemoteAns) (s : State) : State :=
  match lookup tag s.remotes with
  | none => s
  | some r =>
    let s := { s with remotes := eraseAt tag s.remotes }
    match r.wait with
    | .copyRead id chunk ofs =>
      match lookup id s.copies with
      | none => s
      | some c =>
        match ansCause a, a, s.team? c.who.team with
        | some cause, _, _ => (failCopyStep s id c cause c.src)
        | none, .data bs, some t => (bytesArrived s t id chunk ofs r.quad c bs)
        | _, _, _ => s
    | .copyWrite id chunk =>
      match lookup id s.copies with
      | none => s
      | some c =>
        match ansCause a with
        | some cause => (failCopyStep s id { c with chunk := firstOpen s id chunk } cause c.dst)
        | none =>
          let c := { c with pending := c.pending - 1 }
          if c.pending = 0 then
            (finishCopy (countCopy { s with copies := eraseAt id s.copies } c (shSize c.dst)) id c)
          else { s with copies := insertAt id c s.copies }
    | .amo id =>
      match lookup id s.amos with
      | none => s
      | some o =>
        match ansCause a, a with
        | some cause, _ => (failAmo s id o cause)
        | none, .data bs =>
          (sendFill (countAsync { s with amos := eraseAt id s.amos } o.who o.a (o.ty.bits / 8)) o.who o.d
            (amoPut o.ty (ofBytes (bs.map (·.1)))) (bs.any (·.2)) (edgeSite r.quad))
        | _, _ => s
    | .red ids =>
      let s := if a = .mixed then ids.foldl redMixed s else s
      (ids.foldl (fun s id => redAnswered s id (ansCause a)) s)

/-- REMOTE_RESPONSE (R63, R203). -/
def execRemoteResponse (tag : Nat) (a : RemoteAns) (s : State) : Out :=
  let m := Msg.answer 0 0 0 0 0 0 a
  .next (answered tag a (match lookup tag s.remotes with
    | some r => s.freeBuffers r.quad r.cls m.flits
    | none => s))

end Sys2Proof.Machine
end

