-- ==== Sys2Proof/Machine/Fetch.lean ====
section
/-! DEFINITION. Fetching and issuing: the code handle (R276), the rules of the shadow slot (R254), PC matches (R253), and
the choice among ready strands (R164, R165). `run` stands for the meaning of an instruction. -/

namespace Sys2Proof.Machine

/-- The address word of the bytes at a code offset, as ADDR of a fault of fetch names them (R29, R171). DEDUCED: R276 leaves
ADDR to R171, which asks for the operand's address word (log 36). -/
def codeAddr (t : Team) (pc : Word) : Word := BitVec.ofNat 64 (t.codeh * 2 ^ 32 + pc.toNat % 2 ^ 32)

/-- The word at the PC, through the code handle, in the order of R276. -/
def fetch (s : State) (t : Team) (ptile : Nat) (pc : Word) : Do Word := do
  let e ← codeEntry s t (codeAddr t pc)
  need (pc.toNat + 8 ≤ e.len) 0x23 (codeAddr t pc)
  need e.x 0x24 (codeAddr t pc)
  need (!s.entryPoison e ptile pc.toNat 8) 0x26 (codeAddr t pc)
  .ok (BitVec.ofNat 64 (ofBytes (s.readEntry e ptile pc.toNat 8)))

/-- The instructions that the shadow slot may execute (R254). -/
def shadowLegal : Instr → Bool
  | .addR _ | .addI _ | .sub _ | .mulR _ | .mulI _ | .mulh _ | .div _ | .rem _ | .andR _ | .andI _ | .orR _ | .orI _
  | .xorR _ | .xorI _ | .shlR _ | .shlI _ | .shrR _ | .shrI _ | .sraR _ | .sraI _ | .sltR _ | .sltI _ | .minR _ | .minI _
  | .maxR _ | .maxI _ | .clz _ | .popc _ | .csel _ | .li _ | .fadd _ | .fsub _ | .fmul _ | .ffma _ | .fmin _ | .fmax _
  | .fcmp _ | .fcvt _ | .beq _ | .bne _ | .blt _ | .bge _ | .bltn _ | .bgen _ | .jal _ | .jalr _ | .ld _ | .st _ | .mld _
  | .mst _ | .mset _ | .pand _ | .por _ | .pxor _ | .pnot _ | .pset _ | .vabs _ | .vneg _ | .vadd _ | .vsub _ | .vmul _
  | .vmin _ | .vmax _ | .vand _ | .vor _ | .vxor _ | .vnot _ | .vshl _ | .vshr _ | .vsra _ | .vattm _ | .vbcast _
  | .vidx _ | .vcmp _ | .vcvt _ | .vexp2 _ | .vext _ | .vfma _ | .vgath _ | .vscat _ | .vld _ | .vst _ | .vlog2 _
  | .vrcp _ | .vrsq _ | .vperm _ | .vred _ | .vsel _ | .sysrd _ | .nop | .exit => true
  | _ => false

/-- Whether an instruction issues on the engine port (R164). -/
def enginePortOp : Instr → Bool
  | .mma _ | .ald _ | .ast _ | .azero _ | .ascale _ | .cbld _ | .cpy _ | .cpya _ | .collLd _ | .collRun _ => true
  | _ => false

/-- A strand that may try to issue: not held, and not in a wait that an event alone ends (R169, R20, R92). -/
def Strand.live (k : Strand) : Bool :=
  !k.held && match k.wait with
    | .barrier _ _ _ _ | .fifth => false
    | _ => true

/-- Whether a tile lets a slot issue: the package is booted, the tile runs or steps that slot, no match of the strand
waits for the shadow slot, and no vacate has stopped the vtile (R177, R180, R244, R253, R272). DESIGN CHOICE: while a tile steps a
strand whose next instruction meets a match, the shadow slot does not issue, and the step stays until HREQ (log 29). -/
def mayIssue (s : State) (tile slot : Nat) (k : Strand) : Bool :=
  let x := s.tile tile
  let stopped := match s.vtile? k.team k.lrank with
    | some v => s.stopsNow v || !v.res
    | none => true
  s.boot == .booted && !x.fenced && !stopped && k.live
    && (x.dbg == .running || (x.dbg == .stepping && x.stepSlot == some slot))
    && (slot == 8 || !(x.matches_.any (fun m => m.slot == slot) || x.serving.any fun m => m.slot == slot))

/-- The PC match entry that a strand's next instruction meets (R252, R253). -/
def matchEntry (x : Tile) (slot : Nat) (pc : Word) : Option Nat :=
  if slot = 8 ∨ x.skip.contains slot then none
  else (List.range 16).find? fun i =>
    let e := (x.pcmt.toList.getD i 0).toNat
    bit e 63 && field e 3 37 == field pc.toNat 3 37

/-- A match: the strand waits for its turn in the shadow slot, and ONCE clears EN (R252, R253). -/
def State.meetMatch (s : State) (tile slot entry : Nat) (pc : Word) : State :=
  let x := s.tile tile
  let pcmt := if h : entry < 16 then
      (if bit (x.pcmt[entry]'h).toNat 62 then x.pcmt.set entry ((x.pcmt[entry]'h) &&& 0x7FFFFFFFFFFFFFFF) else x.pcmt)
    else x.pcmt
  (s.putTile tile { x with pcmt, matches_ := x.matches_ ++ [⟨slot, entry, pc⟩] }).startShadow tile

/-- After an instruction of a slot has issued: its match is done with, and a step is complete (R253, R255). -/
def State.afterIssue (s : State) (tile slot : Nat) : State :=
  let x := s.tile tile
  let skip := x.skip.filter (· != slot)
  if x.dbg = .stepping ∧ x.stepSlot = some slot then
    { s.putTile tile { x with skip, stepped := true } with agenda := .event (.stepComplete tile) :: s.agenda }
  else if skip = x.skip then s else s.putTile tile { x with skip }

/-- Whether a strand has issued an instruction that still waits: a WAITGE, a FENCE, or a SYSWR of HTINV (R65, R83, R386). -/
def Strand.issued (k : Strand) : Bool :=
  match k.wait with
  | .waitge _ _ _ | .fence | .htinv _ => true
  | _ => false

/-- Whether an attempt leaves the strand waiting to issue, or in an issued instruction that waits on (R164, R255, R386). -/
def State.waits (s : State) (tile slot : Nat) (s' : State) : Bool :=
  match s'.strandAt tile slot with
  | some k => match k.wait with
    | .waitge _ _ _ | .fence | .htinv _ => (s.strandAt tile slot).any Strand.issued
    | .empty | .fifth | .limit => true
    | .none | .barrier _ _ _ _ => false
  | none => false

/-- Whether an attempt to issue has issued nothing: the strand waits, or a watchpoint has halted the tile before it (R164,
R251). -/
def State.stuck (s : State) (tile slot : Nat) (s' : State) : Bool :=
  ((s'.tile tile).why == 4 && (s'.tile tile).dbg != (s.tile tile).dbg) || s.waits tile slot s'

/-- What the next instruction of a strand is: fetched, decoded, and legal in its slot (R276, R291, R254). A WAITGE that waits has been
fetched, and goes on in its loop (R386). -/
def nextInstr (s : State) (tile slot : Nat) (k : Strand) : Do Instr :=
  match k.wait with
  | .waitge _ _ f => .ok (.waitge f)
  | _ => match s.team? k.team with
    | none => .error (.fault 0x00 0 0)
    | some t => do
      let w ← fetch s t tile k.pc
      match decode w with
      | .ok i => if slot = 8 ∧ shadowLegal i = false then raise 0x00 else .ok i
      | .error _ => raise 0x00

/-- IWORD of a fault before decoding: 0 when the fetch fails (R276), else the word. -/
def faultWord (s : State) (tile : Nat) (k : Strand) : Word :=
  match s.team? k.team with
  | none => 0
  | some t => match fetch s t tile k.pc with
    | .ok w => w
    | .error _ => 0

/-- What an attempt that would issue comes to: a match is met, and otherwise the instruction has issued. One that has waited since
it issued is not matched again, nor is its end a step (R253, R255, R386). -/
def issuesTo (s : State) (tile slot : Nat) (k : Strand) (s' : State) : State :=
  if s.waits tile slot s' || k.issued then s'
  else match matchEntry (s.tile tile) slot k.pc with
    | some e => (if k.wait = .none then s else s.putAt tile slot { k with wait := .none }).meetMatch tile slot e k.pc
    | none => if s.stuck tile slot s' then s' else s'.afterIssue tile slot

/-- One attempt of a slot to issue. -/
def issueWith (run : Instr → State → Out) (s : State) (tile slot : Nat) : Out :=
  match s.strandAt tile slot with
  | none => .next s
  | some k =>
    if mayIssue s tile slot k then
      let now := { s with at_ := (tile, slot) }
      match nextInstr now tile slot k with
      | .error x => .next (issuesTo s tile slot k (settle now k (faultWord now tile k) (.error x)))
      | .ok i =>
        match run i now with
        | .next s' => .next (issuesTo s tile slot k s')
        | o => o
    else .next s

/-- Whether the next instruction of a strand belongs to a port (R164). -/
def onPort (s : State) (tile slot : Nat) (engine : Bool) (k : Strand) : Bool :=
  match nextInstr s tile slot k with
  | .ok i => enginePortOp i == engine
  | .error _ => !engine

/-- Tries a slot on a port: a strand that could issue is added to those that are ready, and one that has to wait begins its
wait. The strand that has issued on the main port does not issue on the engine port in the same cycle (R164). -/
def attempt (run : Instr → State → Out) (tile : Nat) (engine : Bool) (p : List (Nat × Strand) × State) (slot : Nat) :
    List (Nat × Strand) × State :=
  match p.2.strandAt tile slot with
  | none => p
  | some k =>
    if mayIssue p.2 tile slot k && onPort p.2 tile slot engine k && !(engine && p.2.mainUid == some k.uid) then
      match issueWith run p.2 tile slot with
      | .next s => if p.2.stuck tile slot s && (s.tile tile).dbg == (p.2.tile tile).dbg then (p.1, s)
        else (p.1 ++ [(slot, k)], p.2)
      | _ => (p.1 ++ [(slot, k)], p.2)
    else p

/-- How long a strand has been ready, in cycles of its die. -/
def readyFor (s : State) (tile : Nat) (k : Strand) : Nat :=
  (s.cycleOf tile).toNat - k.readySince.getD (s.cycleOf tile).toNat

/-- Whether a candidate goes before another (R165); lists are in slot order, so a tie keeps the lower slot. -/
def before (s : State) (tile : Nat) (a b : Nat × Strand) : Bool :=
  if a.1 = 8 then true
  else if b.1 = 8 then false
  else
    let ra := readyFor s tile a.2
    let rb := readyFor s tile b.2
    if 64 ≤ ra ∨ 64 ≤ rb then rb ≤ ra
    else if a.2.prio ≠ b.2.prio then b.2.prio < a.2.prio
    else rb ≤ ra

/-- The slot that a port selects (R165). -/
def selectSlot (s : State) (tile : Nat) : List (Nat × Strand) → Option Nat
  | [] => none
  | c :: r =>
    match selectSlot s tile r with
    | none => some c.1
    | some j => match r.find? (fun d => d.1 == j) with
      | some d => if before s tile c d then some c.1 else some j
      | none => some c.1

/-- Notes since when each strand of a tile whose next instruction belongs to a port is ready on it (R165). -/
def State.noteReady (s : State) (tile : Nat) (engine : Bool) (cs : List (Nat × Strand)) : State :=
  (List.range 9).foldl (fun s i =>
    match s.strandAt tile i with
    | none => s
    | some k =>
      if cs.any fun c => c.1 == i then
        (if k.readySince = none then s.putAt tile i { k with readySince := some (s.cycleOf tile).toNat } else s)
      else if k.readySince = none || !onPort s tile i engine k then s
      else s.putAt tile i { k with readySince := none }) s

/-! ### Time (log 13) -/

/-- What follows in the cycle after a cut, and after a quad has been taken out of the routing masks (R185, R202). -/
def State.nextCycle (s : State) : State :=
  let cuts := s.vtiles.filter fun c => c.2.div == .cut
  let s := cuts.foldl (fun s c =>
    (s.onVtile (c.1 / 1024) (c.1 % 1024) fun v => { v with div := .saving }).putDivEntry (c.1 / 1024) (c.1 % 1024)) s
  if s.quads.any fun q => q.2.st == .quiesce then
    { s with
      quads := s.quads.map fun q => if q.2.st = .quiesce then (q.1, { q.2 with st := .drain }) else q
      qorder := s.qorder.map fun o => { o with since := s.now } }
  else s

/-- `n` cycles of a clock of `f` MHz pass: every die counts the cycles of its own clock (R273) and the package those of 3.0 GHz
(R5), messages leave their ports (R210), and the buffered trace records go to their rings (R258). -/
def State.tick (s : State) (f n : Nat) : State :=
  if n = 0 then s
  else
    let part (d : Fin 4) : Nat := s.dieFrac.get d + n * 10 ^ 6 * s.clocks.get d / f
    let all := s.cycleFrac % 10 ^ 6 + n * 10 ^ 6 * 3000 / f
    let s := { s with
      cycle := s.cycle + BitVec.ofNat 64 (all / 10 ^ 6)
      cycleFrac := all % 10 ^ 6
      dieCycle := Vector.ofFn fun d => s.dieCycle.get d + BitVec.ofNat 64 (part d / 10 ^ 6)
      dieFrac := Vector.ofFn fun d => part d % 10 ^ 6 }
    let s := s.nextCycle
    let s := if s.outbox.isEmpty then s else s.leaveAll [] [] s.outbox
    s.tiles.foldl (fun s x => if x.2.trbuf.isEmpty then s else s.flushTrace x.1) s

/-- One port's turn of a tile: the selected strand issues; with the engine port's turn the cycle ends (R164). -/
def tileTurn (run : Instr → State → Out) (s : State) : Out :=
  let tile := s.focus
  let engine := s.enginePort
  let p := (List.range 9).foldl (attempt run tile engine) ([], s)
  let s := p.2.noteReady tile engine p.1
  let ended (s : State) (uid : Option Nat) : State :=
    let s := { s with enginePort := !engine, mainUid := if engine then none else uid }
    if engine then s.tick (s.clocks.toList.getD (tile / 256) 3000) 1 else s
  match selectSlot s tile p.1 with
  | none => .next (ended s none)
  | some i =>
    let uid := (s.strandAt tile i).map (·.uid)
    let s := match s.strandAt tile i with
      | some k => s.putAt tile i { k with readySince := none }
      | none => s
    match issueWith run s tile i with
    | .next s => .next (ended s uid)
    | o => o

/-- Pod time moves on by its own clock and by the correction that it still owes, at a rate of at most 50 ppm: it never steps
and never decreases. PTSTAT clears when beacons have returned and it is within 3 ns of the root (R5, R209). -/
def State.podTicks (s : State) (ns : Nat) : State :=
  let earned := s.slewFrac + 50 * ns
  let move := min s.slew.natAbs (earned / 10 ^ 6)
  let d : Int := if s.slew < 0 then -(move : Int) else move
  let time := s.podtime + BitVec.ofInt 64 (ns + d)
  { s with
    podtime := time
    ptstat := s.ptstat && !((s.slew - d).natAbs ≤ 3 && s.beaconAt.any fun b => time.toNat < b + 1000000)
    slew := s.slew - d
    slewFrac := if s.slew = d then 0 else earned % 10 ^ 6 }

/-- Time passes: CYCLE at a nominal clock of 3.0 GHz and PODTIME advance, and each team's tiles are charged by pod time (R5, R262; log 13). -/
def State.advance (s : State) (cycles ns : Nat) : State :=
  let held (id : Nat) : Nat := (s.tiles.filter fun x => match x.2.owner with
    | some o => o.1 == id
    | none => false).length
  let p := s.podTicks ns
  s.teams.foldl (fun s' c => s'.account c.1 17 (held c.1 * (p.podtime - s.podtime).toNat)) (p.tick 3000 cycles)

end Sys2Proof.Machine
end

