-- ==== Sys2Proof/Machine/Vector.lean ====
section
/-! DEFINITION. The vector instructions (R365 to R385). -/

namespace Sys2Proof.Machine

/-! ### Lane operations -/

/-- An rns lane in canonical form; any other lane with its bits unchanged (R366). -/
def canon (t : Fmt) (x : Nat) : Nat := if t = .rns then rnsAddWord x 0 else x

/-- A lane operation that is exact on integers and rounded once on floats (R121, R370), with the SAT it sets. -/
def arith (t : Fmt) (fi : Int → Int → Int) (fr : Nat → Nat → Nat) (ff : FVal → FVal → FVal) (x y : Nat) : Nat × Bool :=
  match t.kind? with
  | some k => k.round (ff (k.value x) (k.value y))
  | none => if t = .rns then (fr x y, false) else (wrapNat t.bits (fi (t.intValue x) (t.intValue y)), false)

/-- A lane operation on bit patterns, which sets no SAT. -/
def plain (f : Nat → Nat → Nat) (x y : Nat) : Nat × Bool := (f x y, false)

/-- Enabled lanes. -/
def enabled (k : Strand) (q : VPred) (n : Nat) : Nat := ((List.range n).filter (laneOn k q)).length

/-- The destination register of R366. -/
def vresult (k : Strand) (t : Fmt) (q : VPred) (old : VReg) (f : Nat → Nat) : VReg :=
  laneMap t.bits (lanes t) fun i => if laneOn k q i then f i else if q.zm then 0 else lane t.bits old i

/-- Writes a vector result, sets SAT, counts the lane operations and moves on (R366 to R368). -/
def vfinish (s : State) (k : Strand) (t : Fmt) (q : VPred) (d : VNum) (mult : Nat) (f : Nat → Nat × Bool) : Do State :=
  let sat := (List.range (lanes t)).any fun i => laneOn k q i && (f i).2
  let s := (s.put (k.wrV d (vresult k t q (k.rdV d) fun i => (f i).1)).next).setSat k.team k.lrank sat
  .ok (if mult = 0 then s
    else s.accountReplay k.team (vopIndex t) 19 (mult * enabled k q (lanes t)) k.replay)

/-- A vector instruction of one source (R366). -/
def vecU (i : Instr) (f : VecU) (op : Nat → Nat × Bool) (s : State) : State :=
  issue i f.e { v := [f.a, f.d] }
    (fun k s => vfinish s k f.ty f.q f.d 1 fun n => op (lane f.ty.bits (k.rdV f.a) n)) s

/-- A vector instruction of two sources (R366). -/
def vecR (i : Instr) (f : VecR) (mult : Nat) (op : Nat → Nat → Nat × Bool) (s : State) : State :=
  issue i f.e { v := [f.a, f.b, f.d] }
    (fun k s => vfinish s k f.ty f.q f.d mult fun n =>
      op (lane f.ty.bits (k.rdV f.a) n) (lane f.ty.bits (k.rdV f.b) n)) s

/-- VABS on a lane (R369). -/
def laneAbs (t : Fmt) (x : Nat) : Nat × Bool :=
  match t.kind? with
  | some k => (k.rne (k.value x).abs, false)
  | none => (wrapNat t.bits (t.intValue x).natAbs, false)

/-- VNEG on a lane (R369). -/
def laneNeg (t : Fmt) (x : Nat) : Nat × Bool :=
  match t.kind? with
  | some k => (k.rne (k.value x).neg, false)
  | none => (wrapNat t.bits (-t.intValue x), false)

/-- VABS (R369). -/
def execVabs (f : VecU) (s : State) : Out := .next (vecU (.vabs f) f (laneAbs f.ty) s)
/-- VNEG (R369). -/
def execVneg (f : VecU) (s : State) : Out := .next (vecU (.vneg f) f (laneNeg f.ty) s)
/-- VADD (R370). -/
def execVadd (f : VecR) (s : State) : Out := .next (vecR (.vadd f) f 1 (arith f.ty (· + ·) rnsAddWord FVal.add) s)
/-- VSUB (R370). -/
def execVsub (f : VecR) (s : State) : Out :=
  .next (vecR (.vsub f) f 1 (arith f.ty (· - ·) rnsSubWord fun a b => a.add b.neg) s)
/-- VMUL (R370). -/
def execVmul (f : VecR) (s : State) : Out :=
  .next (vecR (.vmul f) f 1 (arith f.ty (· * ·) (fun x _ => x) FVal.mul) s)
/-- VMIN (R370). -/
def execVmin (f : VecR) (s : State) : Out := .next (vecR (.vmin f) f 1 (arith f.ty min (fun x _ => x) FVal.min) s)
/-- VMAX (R370). -/
def execVmax (f : VecR) (s : State) : Out := .next (vecR (.vmax f) f 1 (arith f.ty max (fun x _ => x) FVal.max) s)
/-- VAND (R371). -/
def execVand (f : VecR) (s : State) : Out := .next (vecR (.vand f) f 1 (plain (· &&& ·)) s)
/-- VOR (R371). -/
def execVor (f : VecR) (s : State) : Out := .next (vecR (.vor f) f 1 (plain (· ||| ·)) s)
/-- VXOR (R371). -/
def execVxor (f : VecR) (s : State) : Out := .next (vecR (.vxor f) f 1 (plain (· ^^^ ·)) s)
/-- VNOT (R371). -/
def execVnot (f : VecU) (s : State) : Out := .next (vecU (.vnot f) f (fun x => (2 ^ f.ty.bits - 1 - x, false)) s)
/-- VSHL (R371). -/
def execVshl (f : VecR) (s : State) : Out :=
  .next (vecR (.vshl f) f 1 (plain fun x y => x * 2 ^ (y % f.ty.bits) % 2 ^ f.ty.bits) s)
/-- VSHR (R371). -/
def execVshr (f : VecR) (s : State) : Out := .next (vecR (.vshr f) f 1 (plain fun x y => x / 2 ^ (y % f.ty.bits)) s)
/-- VSRA (R371). -/
def execVsra (f : VecR) (s : State) : Out :=
  .next (vecR (.vsra f) f 1
    (plain fun x y => wrapNat f.ty.bits (toSigned f.ty.bits x / (2 ^ (y % f.ty.bits) : Nat))) s)

/-- The lanes of an f32 register. -/
def f32Lanes (v : VReg) : List Nat := (List.range 64).map (lane 32 v)

/-- VATTM (R372). -/
def execVattm (f : VecR) (s : State) : Out :=
  .next (issue (.vattm f) f.e { v := [f.a, f.b, f.d] }
    (fun k s =>
      let r := attMerge (f32Lanes (k.rdV f.a)) (f32Lanes (k.rdV f.b))
      vfinish s k f.ty f.q f.d 1 fun i => (r.getD i 0, false)) s)

/-- VBCAST (R373). -/
def execVbcast (f : VbcV) (s : State) : Out :=
  .next (issue (.vbcast f) f.e { src := [f.a], v := [f.d] }
    (fun k s => vfinish s k f.ty f.q f.d 0 fun _ => (canon f.ty ((k.rd f.a).toNat % 2 ^ f.ty.bits), false)) s)

/-- VIDX (R373). -/
def execVidx (f : VidxV) (s : State) : Out :=
  .next (issue (.vidx f) f.e { v := [f.d] }
    (fun k s => vfinish s k f.ty f.q f.d 0 fun i => (i % 2 ^ f.ty.bits, false)) s)

/-- A condition on two lanes (R374). -/
def laneCmp (t : Fmt) (c : Cond) (x y : Nat) : Bool :=
  match t.kind? with
  | some k => c.holds ((k.value x).cmp (k.value y))
  | none => c.holds (some (compare (t.intValue x) (t.intValue y)))

/-- A predicate register from its bits. -/
def predOf (f : Nat → Bool) : PReg := BitVec.ofNat 256 (ofLanes 1 ((List.range 256).map fun i => (f i).nat))

/-- VCMP (R374). -/
def execVcmp (f : VcmpV) (s : State) : Out :=
  .next (issue (.vcmp f) f.e { v := [f.a, f.b] }
    (fun k s =>
      let old := k.rdP f.d
      let w := f.ty.bits
      let r := predOf fun i =>
        if i < lanes f.ty then
          if laneOn k f.q i then laneCmp f.ty f.cc (lane w (k.rdV f.a) i) (lane w (k.rdV f.b) i)
          else !f.q.zm && old.getLsbD i
        else old.getLsbD i
      .ok ((s.put (k.wrP f.d r).next).accountReplay k.team (vopIndex f.ty) 19 (enabled k f.q (lanes f.ty)) k.replay)) s)

/-- The destination lanes that VCVT governs: the first, and how many (R375). -/
def cvtLanes (f : VcvtV) : Nat × Nat :=
  if f.dst.bits < f.src.bits then (f.part.val * lanes f.src, lanes f.src) else (0, lanes f.dst)

/-- The source lane of a destination lane (R375). -/
def cvtSource (f : VcvtV) (i : Nat) : Nat :=
  if f.dst.bits < f.src.bits then i - f.part.val * lanes f.src
  else if f.src.bits < f.dst.bits then f.part.val * lanes f.dst + i else i

/-- VCVT (R375). -/
def execVcvt (f : VcvtV) (s : State) : Out :=
  .next (issue (.vcvt f) f.e { v := [f.a, f.d] }
    (fun k s =>
      let g := cvtLanes f
      let inside (i : Nat) : Bool := g.1 ≤ i && i < g.1 + g.2
      let conv (i : Nat) : Nat × Bool :=
        (SType.el f.dst).write ((SType.el f.src).read (lane f.src.bits (k.rdV f.a) (cvtSource f i)))
      let r := laneMap f.dst.bits (lanes f.dst) fun i =>
        if inside i && laneOn k f.q i then (conv i).1
        else if inside i && f.q.zm then 0 else lane f.dst.bits (k.rdV f.d) i
      let sat := (List.range (lanes f.dst)).any fun i => inside i && laneOn k f.q i && (conv i).2
      let n := ((List.range (lanes f.dst)).filter fun i => inside i && laneOn k f.q i).length
      .ok (((s.put (k.wrV f.d r).next).setSat k.team k.lrank sat).accountReplay k.team (vopIndex f.dst) 19 n k.replay)) s)

/-- VEXP2 (R376). -/
def execVexp2 (f : VecU) (s : State) : Out := .next (vecU (.vexp2 f) f (fun x => (exp2F x, false)) s)
/-- VLOG2 (R382). -/
def execVlog2 (f : VecU) (s : State) : Out := .next (vecU (.vlog2 f) f (fun x => (log2F x, false)) s)
/-- VRCP (R382). -/
def execVrcp (f : VecU) (s : State) : Out := .next (vecU (.vrcp f) f (fun x => (rcpF x, false)) s)
/-- VRSQ (R382). -/
def execVrsq (f : VecU) (s : State) : Out := .next (vecU (.vrsq f) f (fun x => (rsqF x, false)) s)

/-- A lane as a scalar register holds it (R377). -/
def laneWord (t : Fmt) (x : Nat) : Word :=
  match t.kind? with
  | some _ => BitVec.ofNat 64 x
  | none => if t = .rns then BitVec.ofNat 64 (canon t x) else wordOfInt (t.intValue x)

/-- VEXT (R377). -/
def execVext (f : VextV) (s : State) : Out :=
  .next (issue (.vext f) f.e { src := [f.b], dst := [f.d], v := [f.a] }
    (fun k s => retire s (k.wr f.d
      (laneWord f.ty (lane f.ty.bits (k.rdV f.a) ((k.rd f.b).toNat % lanes f.ty))))) s)

/-- VFMA (R378). -/
def execVfma (f : VecF) (s : State) : Out :=
  .next (issue (.vfma f) f.e { v := [f.a, f.b, f.c, f.d] }
    (fun k s =>
      let w := f.ty.bits
      let g := f.ty.kind?.getD .f32
      vfinish s k f.ty f.q f.d 2 fun i =>
        g.round (((g.value (lane w (k.rdV f.a) i)).mul (g.value (lane w (k.rdV f.b) i))).add
          (g.value (lane w (k.rdV f.c) i)))) s)

/-- VPERM (R383). -/
def execVperm (f : VecR) (s : State) : Out :=
  .next (issue (.vperm f) f.e { v := [f.a, f.b, f.d] }
    (fun k s =>
      let w := f.ty.bits
      vfinish s k f.ty f.q f.d 0 fun i =>
        (canon f.ty (lane w (k.rdV f.a) (lane w (k.rdV f.b) i % lanes f.ty)), false)) s)

/-- VSEL (R385). -/
def execVsel (f : VecR) (s : State) : Out :=
  .next (issue (.vsel f) f.e { v := [f.a, f.b, f.d] }
    (fun k s =>
      let w := f.ty.bits
      retire s (k.wrV f.d (laneMap w (lanes f.ty) fun i =>
        canon f.ty (if laneOn k f.q i then lane w (k.rdV f.a) i else lane w (k.rdV f.b) i)))) s)

/-! ### VRED (R384) -/

/-- What VRED writes when no lane is enabled. -/
def redEmpty (t : Fmt) (op : ROp) : Word :=
  match t.kind? with
  | some _ => match op with
    | .min => 0x7F800000
    | .max => 0xFF800000
    | _ => 0
  | none => match op with
    | .min => wordOfInt t.hi
    | .max => wordOfInt t.lo
    | .and => wordOfInt (t.intValue (2 ^ t.bits - 1))
    | _ => 0

/-- VRED over lanes, none being disabled (R384). -/
def redLanes (t : Fmt) (op : ROp) (xs : List (Option Nat)) : Word :=
  match t.kind? with
  | some k =>
    match merge (fun u v => ROp.apply op .f32 u v) (xs.map fun x => x.map fun b => rne32 (k.value b)) with
    | some r => BitVec.ofNat 64 r
    | none => redEmpty t op
  | none =>
    let ys := xs.filterMap id
    match ys with
    | [] => redEmpty t op
    | y :: r =>
      if t = .rns then BitVec.ofNat 64 (r.foldl rnsAddWord (rnsAddWord y 0))
      else if op = .add then wordOfInt ((ys.map t.intValue).sum)
      else wordOfInt (t.intValue (r.foldl (fun u v => ROp.apply op t u v) y))

/-- VRED (R384). -/
def execVred (f : VredV) (s : State) : Out :=
  .next (issue (.vred f) f.e { dst := [f.d], v := [f.a] }
    (fun k s =>
      let n := lanes f.ty
      let xs := (List.range n).map fun i => if laneOn k f.q i then some (lane f.ty.bits (k.rdV f.a) i) else none
      .ok ((s.put (k.wr f.d (redLanes f.ty f.op xs)).next).accountReplay k.team (vopIndex f.ty) 19 (enabled k f.q n)
        k.replay)) s)

/-! ### Vector loads and stores (R379 to R381) -/

/-- Byte ranges, from an address on, of the enabled lanes. -/
def laneRanges (k : Strand) (q : VPred) (t : Fmt) (addr : Nat → Nat) (n : Nat) : List (Nat × Nat) :=
  ((List.range n).filter (laneOn k q)).map fun i => (addr i, t.bits / 8)

/-- Adjacent ranges joined, so that whole granules are seen as such (R69). -/
def joinRanges : List (Nat × List Byte) → List (Nat × List Byte)
  | [] => []
  | (a, x) :: r =>
    match joinRanges r with
    | (b, y) :: rest => if a + x.length = b then (a, x ++ y) :: rest else (a, x) :: (b, y) :: rest
    | [] => [(a, x)]

/-- VLD (R381). -/
def execVld (f : VmemV) (s : State) : Out :=
  .next (issue (.vld f) f.e { src := [f.a], v := [f.d] }
    (fun k s => do
      let a := k.rd f.a + f.imm.signExtend 64
      needStore a 256 256
      let b := f.ty.bits / 8
      let rs := laneRanges k f.q f.ty (fun i => a.toNat + i * b) (lanes f.ty)
      need (!rs.any fun r => s.anyPoison (tileKey s r.1) r.2) 0x26 a
      watched k 60 rs s fun s =>
        let m := s.mem.num (tileKey s a.toNat) 256
        vfinish s k f.ty f.q f.d 0 fun i => (canon f.ty (lane f.ty.bits (BitVec.ofNat 2048 m) i), false)) s)

/-- VST (R381); an rns word is written canonical (R114). -/
def execVst (f : VmemV) (s : State) : Out :=
  .next (issue (.vst f) f.e { src := [f.a], v := [f.d] }
    (fun k s => do
      let a := k.rd f.a + f.imm.signExtend 64
      needStore a 256 256
      let b := f.ty.bits / 8
      let on := (List.range (lanes f.ty)).filter (laneOn k f.q)
      let ws := on.map fun i => (a.toNat + i * b, bytesOf b (canon f.ty (lane f.ty.bits (k.rdV f.d) i)))
      watched k 59 (ws.map fun w => (w.1, b)) s fun s =>
        retire (s.storing k (ws.map fun w => (w.1, b)) fun u =>
          (joinRanges ws).foldl (fun u w => u.write (tileKey s w.1) w.2) u) k) s)

/-- The lanes that a gather or scatter moves: at most 64 (R379). -/
def gsLanes (k : Strand) (f : VgsV) : List Nat := (List.range (min 64 (lanes f.ty))).filter (laneOn k f.q)

/-- The address of a lane of a gather or scatter (R379). -/
def gsAddr (k : Strand) (f : VgsV) (i : Nat) : Word :=
  k.rd f.a + (BitVec.ofNat 32 (lane 32 (k.rdV f.b) i)).signExtend 64 + f.imm.signExtend 64

/-- R58 over every enabled lane (R379). -/
def gsCheck (k : Strand) (f : VgsV) : List Nat → Do Unit
  | [] => .ok ()
  | i :: r => do
    needStore (gsAddr k f i) (f.ty.bits / 8) (f.ty.bits / 8)
    gsCheck k f r

/-- VGATH (R379, R380). -/
def execVgath (f : VgsV) (s : State) : Out :=
  .next (issue (.vgath f) f.e { src := [f.a], v := [f.b, f.d] }
    (fun k s => do
      let b := f.ty.bits / 8
      let on := gsLanes k f
      gsCheck k f on
      match on.find? fun i => s.anyPoison (tileKey s (gsAddr k f i).toNat) b with
      | some i => raiseAt 0x26 (gsAddr k f i)
      | none =>
        watched k 60 (on.map fun i => ((gsAddr k f i).toNat, b)) s fun s =>
          let old := k.rdV f.d
          let r := laneMap f.ty.bits (lanes f.ty) fun i =>
            if on.contains i then canon f.ty (s.mem.num (tileKey s (gsAddr k f i).toNat) b)
            else if f.q.zm then 0 else lane f.ty.bits old i
          retire s (k.wrV f.d r)) s)

/-- VSCAT (R379, R380); an rns word is written canonical (R114). -/
def execVscat (f : VgsV) (s : State) : Out :=
  .next (issue (.vscat f) f.e { src := [f.a], v := [f.b, f.d] }
    (fun k s => do
      let b := f.ty.bits / 8
      let on := gsLanes k f
      gsCheck k f on
      let ws := on.map fun i => ((gsAddr k f i).toNat, bytesOf b (canon f.ty (lane f.ty.bits (k.rdV f.d) i)))
      watched k 59 (ws.map fun w => (w.1, b)) s fun s =>
        retire (s.storing k (ws.map fun w => (w.1, b)) fun u =>
          u.writeAll (ws.map fun w => (tileKey s w.1, w.2))) k) s)

end Sys2Proof.Machine
end

