-- ==== Sys2Proof/Machine/Barrier.lean ====
section
/-! DEFINITION. Barriers: BAR, BARA and BARW (R87 to R93), the exchange (R73 to R81), completion with its results and
imbalance record (R90 to R96), and unreachable packages (R94). -/

namespace Sys2Proof.Machine

/-! ### Arriving (R87, R88, R91) -/

/-- The wait of a strand whose arrival at superstep k has been recorded, past its BAR (R93, R101). -/
def Strand.atBarrier (k : Strand) (l : Scope) (n : Nat) (d ds : SReg) (cycle : Nat) : Strand :=
  { ((k.empty d).empty ds).next with wait := .barrier l n d ds, waitSince := cycle }

/-- Moves the count that an arrival advances: TAHEAD at tile scope, the vtile's current superstep elsewhere (R19). -/
def advanceArrival (s : State) (k : Strand) (l : Scope) (n : Nat) : Strand × State :=
  match l with
  | .tile => ({ k with tahead := k.tahead + 1 }, s)
  | _ => (k, s.onVtile k.team k.lrank fun v => State.setCurrent v l (n + 1))

/-- Who a strand's arrival is recorded for (R87). -/
def arriver (k : Strand) (l : Scope) : Nat :=
  match l with
  | .tile => k.uid
  | _ => k.lrank

/-- What a strand does once its arrival is recorded: BAR waits, BARA takes its ticket (R91, R93). -/
def arrived (s : State) (k : Strand) (l : Scope) (n : Nat) : StallKind → Strand
  | .bar d ds => k.atBarrier l n d ds s.cycle.toNat
  | .bara d => (k.wr d (BitVec.ofNat 64 n)).next
  | .forced => k

/-- Records the arrival of the strand in a slot at superstep `n`; one that disagrees with its phase is recorded as forced
and faults with 0x61 (R88). -/
def arrive (s : State) (t : Team) (tile slot : Nat) (k : Strand) (l : Scope) (n : Nat) (what : StallKind) (rop : BOp)
    (cnt : Nat) (value : Word) (code : BitVec 16) (word : Word) : State :=
  let u := t.unitOf l k.lrank
  let p := State.phase (s.unit k.team l u) n
  let k := { k with wait := .none }
  if State.mismatch p l rop cnt then
    let s := s.record k.team l u n ⟨arriver k l, none, 0xFF00, true, s.now, []⟩ .none 0
    let (k, s) := advanceArrival s k l n
    (s.trace tile k.lrank slot 2 (Scope.code l) n).takeFault tile slot k 0x61 0 0 word true
  else
    let s := s.record k.team l u n ⟨arriver k l, some value, code, false, s.now, []⟩ rop cnt
    let (k, s) := advanceArrival s k l n
    (s.putAt tile slot (arrived s k l n what)).trace tile k.lrank slot 2 (Scope.code l) n

/-- A strand stalls at a fifth phase (R20): the stall is noted once. -/
def stallAt (s : State) (t : Team) (k : Strand) (l : Scope) (x : Stalled) : State :=
  let u := t.unitOf l k.lrank
  let b := s.unit k.team l u
  (s.putUnit k.team l u { b with stalled := b.stalled ++ [x] }).put { k with wait := .fifth, waitSince := s.cycle.toNat }

/-- BAR and BARA (R89 to R91). -/
def arriveOp (i : Instr) (l : Scope) (what : StallKind) (rop : BOp) (cnt : Nat) (a b : SReg) (k : Strand) (s : State) :
    Do State :=
  withTeam s k fun t => do
    let w := (k.rd b).toNat
    need (field w 0 16 < 0xFF00) 0x64
    let n := s.target t k.team k.lrank l k.tahead
    need (l == .tile || !bit w 18 || n % 4 == field w 16 2) 0x62
    let code := BitVec.ofNat 16 (field w 0 16)
    let u := t.unitOf l k.lrank
    if n < (s.unit k.team l u).step + 4 then
      .ok (arrive s t s.at_.1 s.at_.2 k l n what rop cnt (k.rd a) code ((encode i).getD 0))
    else .ok (stallAt s t k l ⟨what, k.lrank, k.uid, n, l != .tile && bit w 18, rop, cnt, k.rd a, code⟩)

/-- BAR (R89, R93). -/
def execBar (f : BarS) (s : State) : Out :=
  .next (issue (.bar f) f.e { src := [f.a, f.b], dst := [f.d, f.ds] }
    (arriveOp (.bar f) f.scope (.bar f.d f.ds) f.rop f.cnt.val f.a f.b) s)

/-- BARA (R89, R91). -/
def execBara (f : BaraS) (s : State) : Out :=
  .next (issue (.bara f) f.e { src := [f.a, f.b], dst := [f.d] }
    (arriveOp (.bara f) f.scope (.bara f.d) f.rop f.cnt.val f.a f.b) s)

/-- A strand that gets the results of a tile barrier comes after the stores that its arrivals knew (R72). -/
def knowResult (s : State) (id lr uid : Nat) (l : Scope) (r : Result) : State :=
  match l with
  | .tile => if r.knows.isEmpty then s else s.onRace id lr fun x => x.learn uid r.knows
  | _ => s

/-- BARW (R92). -/
def execBarw (f : BarwS) (s : State) : Out :=
  .next (issue (.barw f) f.e { src := [f.a], dst := [f.d, f.ds] }
    (fun k s => withTeam s k fun t => do
      let u := s.unit k.team f.scope (t.unitOf f.scope k.lrank)
      let n := (k.rd f.a).toNat
      need (n < u.step + 4) 0x64
      if u.step ≤ n then .ok (s.put (k.atBarrier f.scope n f.d f.ds s.cycle.toNat))
      else
        need (u.step ≤ n + 4) 0x63
        let r := (lookup n u.results).getD ⟨0, 0, 0, 0, []⟩
        let (st, s) := s.statusFor k.team f.d f.ds r.status
        let s := knowResult s k.team k.lrank k.uid f.scope r
        retire (s.trace s.at_.1 k.lrank s.at_.2 3 (Scope.code f.scope) n) ((k.wr f.d r.value).wr f.ds st)) s)

/-! ### The merge over a team's shape (R77, R90) -/

/-- The value of a virtual group, die or package from the values of its slots. -/
def groupVal {α : Type} (t : Team) (op : α → α → α) (f : Nat → Option α) (g : Nat) : Option α :=
  merge op ((List.range t.nT).map fun i => f (g * t.nT + i))
def dieVal {α : Type} (t : Team) (op : α → α → α) (f : Nat → Option α) (d : Nat) : Option α :=
  merge op ((List.range t.nG).map fun g => groupVal t op f (d * t.nG + g))
def pkgVal {α : Type} (t : Team) (op : α → α → α) (f : Nat → Option α) : Option α :=
  merge op ((List.range t.nD).map (dieVal t op f))

/-- The root value of a unit of this package, at pod scope the package's own part (R77). -/
def scopeVal {α : Type} (t : Team) (op : α → α → α) (f : Nat → Option α) (l : Scope) (u : Nat) : Option α :=
  match l with
  | .tile => f u
  | .grp => groupVal t op f u
  | .die => dieVal t op f u
  | .pkg | .pod => pkgVal t op f

/-- A barrier reduction operation on two values (R90). -/
def bopApply (op : BOp) (x y : Word) : Word :=
  match op with
  | .none => 0
  | .addI64 => x + y
  | .minI64 => if x.sle y then x else y
  | .maxI64 => if x.sle y then y else x
  | .minN64 => if x.ule y then x else y
  | .maxN64 => if x.ule y then y else x
  | .and => x &&& y
  | .or => x ||| y
  | .xor => x ^^^ y
  | .addF32 => BitVec.ofNat 64 (FKind.f32.addBits (x.toNat % 2 ^ 32) (y.toNat % 2 ^ 32))

/-- The value when every contribution is Absent (R90). -/
def bopAbsent : BOp → Word
  | .minI64 => 0x7FFFFFFFFFFFFFFF
  | .maxI64 => 0x8000000000000000
  | .minN64 | .and => 0xFFFFFFFFFFFFFFFF
  | _ => 0

/-- A contribution as the operation takes it: an f32 loses its upper bits (R90), and a NaN is the canonical one (R109). -/
def bopOperand (op : BOp) (w : Word) : Word :=
  if op = .addF32 then
    match FKind.f32.value (w.toNat % 2 ^ 32) with
    | .nan => BitVec.ofNat 64 FKind.f32.nan
    | _ => BitVec.ofNat 64 (w.toNat % 2 ^ 32)
  else w

/-- This package's value of a phase; none when every contribution is Absent. -/
def phaseVal (t : Team) (l : Scope) (u : Nat) (p : Phase) (op : BOp) : Option Word :=
  let vals := p.arrivals.filterMap fun a => a.value.map fun v => (a.who, bopOperand op v)
  match op with
  | .addF32 => scopeVal t (bopApply op) (fun lr => (vals.find? fun x => x.1 == lr).map (·.2)) l u
  | _ => match vals with
    | [] => none
    | v :: r => some (r.foldl (fun x y => bopApply op x y.2) v.2)

/-- What peers' parts of a phase count: those of packages that answer, and those that were whole when their package was found down.
Any other part of a package that is down has given way to forced arrivals, which contribute Absent (R90, R94). -/
def heard (t : Team) (p : Phase) : List PodPart :=
  p.peers.filter fun x => (lookup x.pkg t.peersDown).isNone || x.narr == t.size

/-- The value of a phase over every member package (R77, R90). -/
def phaseRoot (t : Team) (l : Scope) (u : Nat) (p : Phase) (op : BOp) : Word :=
  let own := phaseVal t l u p op
  let v := match l with
    | .pod => merge (bopApply op) ((List.range t.nP).map fun q =>
        if q = t.pc then own else (((heard t p).find? fun x : PodPart => x.pkg == q).bind (·.value)).map (bopOperand op))
    | _ => own
  match op with
  | .none => 0
  | _ => v.getD (bopAbsent op)

/-- Whether every participant of a phase has arrived (R87). A peer's part tells of arrivals of all its vtiles, or of some. -/
def phaseFull (t : Team) (l : Scope) (u : Nat) (p : Phase) (peers : List PodPart) : Bool :=
  match l with
  | .tile => match p.cnt with
    | some n => n ≤ p.arrivals.length
    | none => false
  | _ =>
    ((t.members l u).all fun lr => p.arrivals.any fun a => a.who == lr)
      && (l != .pod || (List.range t.nP).all fun q =>
        q == t.pc || (lookup q t.peersDown).isSome || peers.any fun x => x.pkg == q && x.narr == t.size)

/-! ### The exchange (R80) -/

/-- The copies that an exchange performs, in ascending rank and then issue order (R75, R148). -/
def exCopies (s : State) (t : Team) (l : Scope) (u k : Nat) : List (Nat × CopyOp) :=
  (t.members l u).flatMap fun lr =>
    s.copies.filter fun c => c.2.who.team == t.teamid && c.2.who.lrank == lr && c.2.step == some (l, k)

/-- The REDs that an exchange performs (R77). -/
def exReds (s : State) (t : Team) (l : Scope) (u k : Nat) : List (Nat × RedOp) :=
  s.reds.filter fun r => r.2.who.team == t.teamid && State.levelOf (shSpace r.2.d) == l && r.2.step == k
    && t.unitOf l r.2.who.lrank == u

/-- Op of RED on two elements, f64 with WD (R353). -/
def redApply (op : ROp) (ty : Fmt) (wd : Bool) (x y : Nat) : Nat :=
  if wd then
    match op with
    | .add => FKind.f64.addBits x y
    | .min => FKind.f64.rne ((FKind.f64.value x).min (FKind.f64.value y))
    | .max => FKind.f64.rne ((FKind.f64.value x).max (FKind.f64.value y))
    | _ => y
  else op.apply ty x y

/-- One contribution of a RED to an address (R353). -/
structure Contrib where
  key : Nat
  lr : Nat
  op : ROp
  ty : Fmt
  wd : Bool
  val : Nat
  hnd : Nat
  ofs : Nat
  vt : Nat
  id : Nat
  deriving DecidableEq, Repr

/-- The contributions of a RED, in issue order. -/
def contribs (s : State) (t : Team) (id : Nat) (o : RedOp) : List Contrib :=
  let key := s.operandKey t o.who.lrank o.d
  (List.range (shCount o.d)).map fun i =>
    let a := redOfs o.d o.ty o.wd i
    { key := key a, lr := o.who.lrank, op := o.op, ty := o.ty, wd := o.wd, hnd := shHnd o.d, ofs := a, vt := shVt o.d, id
      val := if o.vec then lane 32 o.v i else o.v.toNat % 2 ^ (8 * redBytes o.ty o.wd) }

/-- Whether two contributions touch common bytes. -/
def Contrib.meets (a b : Contrib) : Bool := State.overlap a.key (redBytes a.ty a.wd) b.key (redBytes b.ty b.wd)

/-- Whether two contributions combine: one address, operation and format (R77). -/
def Contrib.joins (a b : Contrib) : Bool := a.key == b.key && a.op == b.op && a.ty == b.ty && a.wd == b.wd

/-- What one vtile contributes to an address, in issue order (R77). -/
def vtileVal (cs : List Contrib) (c : Contrib) (lr : Nat) : Option Nat :=
  match (cs.filter fun x => x.joins c && x.lr == lr).map (·.val) with
  | [] => none
  | v :: r => some (r.foldl (redApply c.op c.ty c.wd) v)

/-- The first contribution to each address. -/
def addresses (cs : List Contrib) : List Contrib :=
  cs.foldl (fun l c => if l.any fun x => x.joins c then l else l ++ [c]) []

/-- Some contribution to a byte of an address that does not combine with it (R77). -/
def clashes (cs : List Contrib) (c : Contrib) (a : Nat) : Bool :=
  cs.any fun x => !x.joins c && x.key ≤ a && a < x.key + redBytes x.ty x.wd

/-- Applies merged RED contributions: each address by its root value on what stood there before, and bytes that differing
operations or formats touch are undefined (R77). `root` merges the contributions to one address. -/
def reduceAll (id : Nat) (cs : List Contrib) (root : Contrib → Option Nat) (s : State) : State :=
  let as := addresses cs
  let m := s.mem
  let s := as.foldl (fun s c =>
    let n := redBytes c.ty c.wd
    match root c with
    | some v => s.update c.key (bytesOf n (redApply c.op c.ty c.wd (m.num c.key n) v))
    | none => s) s
  let bad := as.flatMap fun c => (interval c.key (redBytes c.ty c.wd)).filter (clashes cs c)
  s.freeKeys id (bad.eraseDups.map fun a => (a, 0xFF))

/-- The contributions that touch bytes of a differing one: their vtiles show MIXED (R77). -/
def mixedReds (cs : List Contrib) : List Contrib :=
  cs.filter fun c => (interval c.key (redBytes c.ty c.wd)).any (clashes cs c)

/-- The bytes that step 1 of an exchange commits: those that an AMO of the unit has reached, whoever else has, and those of the
words that the exchange is about to write (R71, R80). What reached this package's HBM through space 5 is the pod's, and the
package's. DESIGN CHOICE: a word of level memory is the eight aligned bytes, so that a live value of four bytes beside the bytes
written is committed too; R24 and R80 give no width (log 37). -/
def amoCells (s : State) (t : Team) (l : Scope) (u : Nat) (keys : List Nat) : List (Nat × Byte) :=
  let tag := unitKey t.teamid l u
  (s.live.filter fun c => c.2.2.contains tag || keys.any fun a => a / 8 == c.1 / 8).map fun c => (c.1, c.2.1)

/-- Step 1: commits the AMOs of the unit (R80). -/
def commitAmos (s : State) (cells : List (Nat × Byte)) : State :=
  cells.foldl (fun s c => s.update c.1 [c.2])
    { s with live := s.live.filter fun c => !cells.any fun x => x.1 == c.1 }

/-- Forgets the live values of written bytes: Live := Committed (R80). -/
def settleKeys (s : State) (keys : List Nat) : State := { s with live := s.live.filter fun c => !keys.contains c.1 }

/-- A write under way in step 3: the state, and for each byte written its poison with the bits that plain writes have covered
(R69, R75). -/
structure Writes where
  s : State
  marks : Table (Bool × Byte)
  deriving DecidableEq, Repr

/-- A plain byte: the current winner (R75). -/
def Writes.plain (w : Writes) (key : Nat) (mask v : Byte) (psn : Bool) : Writes :=
  let was := (lookup key w.marks).getD (false, 0)
  { s := w.s.update key [(w.s.mem.byte key &&& ~~~mask) ||| (v &&& mask)]
    marks := insertAt key (psn || (mask != 0xFF && was.1), was.2 ||| mask) w.marks }

/-- A combining element (R148). -/
def Writes.combine (w : Writes) (keys : List Nat) (op : ROp) (f : Fmt) (v : Nat) (psn : Bool) : Writes :=
  let new := bytesOf keys.length (op.apply f (ofBytes (keys.map w.s.mem.byte)) v)
  let s := (keys.zip new).foldl (fun s p => s.update p.1 [p.2]) w.s
  let marks := keys.foldl (fun m k =>
    let was := (lookup k m).getD (false, 0)
    insertAt k (was.1 || psn, was.2) m) w.marks
  { s, marks }

/-- Settles the poison of the granules that step 3 wrote: one that clean plain bytes cover whole loses its mark (R69). -/
def Writes.finish (w : Writes) : State :=
  let gs := (w.marks.map fun m => granule m.1).eraseDups
  let bad := gs.filter fun g => w.marks.any fun m => m.2.1 && granule m.1 == g
  let clean := gs.filter fun g => !bad.contains g &&
    (interval (64 * g) 64).all fun a => (lookup a w.marks).any fun m => m.2 == 0xFF
  settleKeys ((w.s.markPoison bad).clearPoison clean) (w.marks.map (·.1))

/-- Writes elements [lo, lo + n) of a copy's destination, given their values. -/
def writeElems (key : Nat → Nat) (c : CopyOp) (xs : List (Nat × Bool)) (w : Writes) : Writes :=
  xs.zipIdx.foldl (fun w x =>
    match c.op with
    | none => (elemCells c.dst x.2 x.1.1).foldl (fun w e => w.plain (key e.1) e.2.1 e.2.2 x.1.2) w
    | some op => w.combine ((interval (shElemOfs c.dst x.2) (elemBytes (shFormat c.dst))).map key) op (shFormat c.dst)
        x.1.1 x.1.2) w

/-- The first chunk of a deferred copy whose checks fail, with the cause and the operand (R66, R200). -/
def badChunk (s : State) (t : Team) (c : CopyOp) : Option (Nat × Nat × Shape) :=
  let ce := chunkElems (shFormat c.src)
  let chunks := (shCount c.src + ce - 1) / ce
  (List.range chunks).findSome? fun i =>
    let n := min ce (shCount c.src - ce * i)
    let bad (m : Shape) : Option (Nat × Nat × Shape) :=
      (whyNot s t c.who.lrank m (elemRanges m (ce * i) n)).map fun cause => (i, cause, m)
    (bad c.src).orElse fun _ => bad c.dst

/-- Performs one deferred copy (R74, R148), or fails it: its destination is undefined where its handle still stands (R65, R66), and
so are bytes where its operands overlap (R144). -/
def performCopy (t : Team) (k : Nat) (l : Scope) (u : Nat) (w : Writes) (x : Nat × CopyOp × List (Nat × Bool)) : Writes :=
  let (id, c, xs) := x
  let key := w.s.operandKey t c.who.lrank c.dst
  match badChunk w.s t c with
  | none =>
    let os := (overlapOfs w.s t c).1
    let w := writeElems key c xs w
    let s := countCopy { w.s with copies := eraseAt id w.s.copies } c (shSize c.dst)
    let s := s.freeKeys t.teamid (os.map fun o => (key o, 0xFF))
    { w with s := finishCopy (notePoison s c.who xs) id c }
  | some (i, cause, m) =>
    let s := undefineLevel w.s t c
    { w with s := markExFail (failCopy { s with copies := insertAt id { c with chunk := i } s.copies } id
        { c with chunk := i } cause m) t.teamid l u k }

/-- Asks peers for what deferred copies of this exchange read in space 5, as it stands when the exchange begins (R74); answers
whether all of it is here. -/
def fetchSources (s : State) (t : Team) (cs : List (Nat × CopyOp)) : Bool × State :=
  let miss := cs.filter fun c => !c.2.fetched
  (miss.isEmpty, miss.foldl (fun s x =>
    let (id, c) := x
    let ce := chunkElems (shFormat c.src)
    let lo := ce * c.chunk
    let n := min ce (shCount c.src - lo)
    if s.chunkAsked id c.chunk then s
    else match whyNot s t c.who.lrank c.src (elemRanges c.src lo n) with
      | some cause => failCopyStep s id c cause c.src
      | none => match s.route c.who.team (shVt c.src) (elemSpan c.src lo n).1 c.who.tile with
        | none => failCopyStep s id c 0x41 c.src
        | some q =>
          let c := if c.chunk = 0 then { c with seen := s.stepOf t t.teamid .pod c.who.lrank, seenAt := s.now } else c
          askChunk { s with copies := insertAt id c s.copies } id c q 0) s)

/-- Cuts elements, each with its poison, into runs of one poison that lie side by side, at most 256 bytes in all (R198). `ofs`
gives an element's first byte and `b` its bytes; two nibbles may share a byte. -/
def cutRuns (ofs : Nat → Nat) (b : Nat) : List ((Nat × Nat) × Bool) → List (List (Nat × Nat) × Bool)
  | [] => []
  | (x, p) :: r =>
    match cutRuns ofs b r with
    | (y :: ys, q) :: rest =>
      let o := ofs x.1
      if p = q ∧ (o + b = ofs y.1 ∨ (b = 1 ∧ o = ofs y.1)) ∧ ofs (ys.getLastD y).1 + b ≤ o + 256 then (x :: y :: ys, p) :: rest
      else ([x], p) :: (y :: ys, q) :: rest
    | rest => ([x], p) :: rest

/-- The requests of one chunk of a deferred copy into a peer's memory (R63, R198). -/
def chunkKinds (c : CopyOp) (k rank id : Nat) (xs : List ((Nat × Nat) × Bool)) : List RemoteKind :=
  (cutRuns (shElemOfs c.dst) (elemBytes (shFormat c.dst)) xs).map fun r =>
    match c.op with
    | none => .write k rank id (r.1.flatMap fun y => elemCells c.dst y.1 y.2) r.2
    | some op => .combine k rank id op (shFormat c.dst) (r.1.map fun y => (shElemOfs c.dst y.1, y.2)) r.2

/-- Sends a deferred copy into a peer's memory, each chunk over one quad (R63, R74, R199). -/
def sendCopy (t : Team) (k : Nat) (s : State) (x : Nat × CopyOp) : State :=
  let (id, c) := x
  match badChunk s t c with
  | some (i, cause, m) => failCopyStep s id { c with chunk := i } cause m
  | none =>
    let ce := chunkElems (shFormat c.dst)
    let (xs, s) := copySource s t c 0 (shCount c.src)
    let s := notePoison s c.who xs
    let es := xs.zipIdx.map fun y => ((y.2, y.1.1), y.1.2)
    let asked : List (Option Nat × List RemoteKind) := (List.range ((shCount c.dst + ce - 1) / ce)).map fun i =>
      (s.route c.who.team (shVt c.dst) (shElemOfs c.dst (ce * i)) c.who.tile,
        chunkKinds c k (t.rank c.who.lrank) id ((es.drop (ce * i)).take ce))
    match asked.findIdx? fun a => a.1.isNone with
    | some i => failCopyStep s id { c with chunk := i } 0x41 c.dst
    | none =>
      let s := { s with copies := insertAt id { c with pending := (asked.map fun a => a.2.length).sum } s.copies }
      asked.zipIdx.foldl (fun s a => a.1.2.foldl (fun s kind =>
        s.ask c.who (shVt c.dst) (a.1.1.getD 0) 0 (shHnd c.dst) 0 kind (.copyWrite id a.2)) s) s

/-- Sends a RED to the peer that its elements lie in, as one request, so that the peer performs all of it or none (R77, R198,
R354). -/
def sendRed (t : Team) (s : State) (x : Nat × RedOp) : State :=
  let (id, o) := x
  match s.route t.teamid (shVt o.d) (shOfs o.d) o.who.tile with
  | none => redAnswered s id (some 0x41)
  | some q =>
    ({ s with reds := insertAt id { o with pending := 1 } s.reds }).ask o.who (shVt o.d) q 0 (shHnd o.d) 0
      (.red o.step (t.rank o.who.lrank) id o.op o.ty o.wd ((contribs s t id o).map fun c : Contrib => (c.ofs, c.val))) (.red [id])

/-- Fails a RED whose handle or group no longer answers (R65, R66, R354); answers whether it stands. -/
def redStands (t : Team) (l : Scope) (u k : Nat) (p : List (Nat × RedOp) × State) (x : Nat × RedOp) :
    List (Nat × RedOp) × State :=
  match whyNot p.2 t x.2.who.lrank x.2.d [] with
  | none => (p.1 ++ [x], p.2)
  | some cause => (p.1, markExFail (failRed p.2 x.1 x.2 cause) t.teamid l u k)

/-- Sends the space-5 REDs of a superstep whose handles still stand (R65, R66, R77). -/
def sendReds (t : Team) (k : Nat) (s : State) (rs : List (Nat × RedOp)) : State :=
  let (rs, s) := rs.foldl (redStands t .pod 0 k) ([], s)
  rs.foldl (sendRed t) s

/-- The tags of this package's deferred writes and REDs that a peer has not answered (R80). -/
def podTags (s : State) (id p : Nat) : List Nat :=
  s.remotes.filterMap fun r =>
    if r.2.peer == p && (match r.2.wait with
      | .copyWrite _ _ | .red _ => true
      | _ => false) && (s.servedBy r.2.wait).any fun w => w.team == id then some r.1 else none

/-- Tells member packages which requests the exchange of superstep k asks of them (R80). -/
def tellSent (s : State) (id k : Nat) (ps : List Nat) : State :=
  s.tellPeers id ps fun p z => .podSent p z id k (podTags s id p)

/-- Whether a piece of peers' work belongs to a superstep, with its rank and order. -/
def workOf (w : PeerWork) (k : Nat) : Option (Nat × Nat) :=
  match w.kind with
  | .write n r o _ _ | .combine n r o _ _ _ _ | .red n r o _ _ _ _ => if n = k then some (r, o) else none
  | _ => none

/-- Peers' writes and REDs in ascending rank and issue order, the pieces of one copy in transfer order (R75, R77, R144). -/
def sortWork (k : Nat) : List PeerWork → List PeerWork
  | [] => []
  | w :: r => ins w (sortWork k r)
where
  /-- Puts a piece before the first that comes after it. -/
  ins (w : PeerWork) : List PeerWork → List PeerWork
    | [] => [w]
    | x :: r =>
      let a := (workOf w k).getD (0, 0)
      let b := (workOf x k).getD (0, 0)
      if a.1 < b.1 ∨ (a.1 = b.1 ∧ (a.2 < b.2 ∨ (a.2 = b.2 ∧ w.tag ≤ x.tag))) then w :: x :: r else x :: ins w r

/-- Performs a peer's deferred write at its home, and answers it (R63, R66). -/
def performWork (t : Team) (w : Writes) (x : PeerWork) : Writes :=
  let nd := remoteNeeds x.kind
  match mirrorEntry w.s t x.hnd x.ofs nd.1 nd.2 with
  | none => { w with s := w.s.reply x.src x.quad x.cls x.tag x.team (edgeSite x.quad) .refused }
  | some e =>
    let key (o : Nat) : Nat := e.key 0 (x.ofs + o)
    let w : Writes := match x.kind with
      | .write _ _ _ cs psn => cs.foldl (fun (w : Writes) c => w.plain (key c.1) c.2.1 c.2.2 psn) w
      | .combine _ _ _ op ty es psn =>
        es.foldl (fun (w : Writes) c => w.combine ((interval c.1 (ty.bits / 8)).map key) op ty c.2 psn) w
      | _ => w
    { w with s := w.s.reply x.src x.quad x.cls x.tag x.team (w.s.homeSite (key 0)) .done }

/-- The contributions of a peer's RED that this package's mirror entry admits, by canonical rank; none where it refuses (R63,
R77). -/
def peerContribs (s : State) (t : Team) (w : PeerWork) : Option (List Contrib) :=
  match w.kind with
  | .red _ rank _ op ty wd es =>
    let nd := remoteNeeds w.kind
    (mirrorEntry s t w.hnd w.ofs nd.1 nd.2).map fun e => es.map fun x =>
      { key := e.key 0 (w.ofs + x.1), lr := rank, op, ty, wd, val := x.2 % 2 ^ (8 * redBytes ty wd), hnd := 0, ofs := w.ofs + x.1
        vt := 0, id := w.tag }
  | _ => none

/-- What every member package contributes to an address, through the tree of R77; ranks are canonical. -/
def podVal (t : Team) (cs : List Contrib) (c : Contrib) : Option Nat :=
  let op := redApply c.op c.ty c.wd
  merge op ((List.range t.nP).map fun q => pkgVal t op fun lr => vtileVal cs c (q * t.size + lr))

/-- Performs the peers' REDs of a superstep at their home, each as a whole or not at all, and answers them (R77, R354). -/
def peerReds (t : Team) (work : List PeerWork) (s : State) : State × List Nat :=
  let mine := work.filter fun w => match w.kind with
    | .red _ _ _ _ _ _ _ => true
    | _ => false
  let cs := mine.map fun w => (w, requestSite s w.team w.quad w.hnd w.ofs w.kind, peerContribs s t w)
  let all := cs.flatMap fun c => c.2.2.getD []
  let s := reduceAll t.teamid all (podVal t all) s
  let odd := mixedReds all
  let s := cs.foldl (fun s c =>
    let w := c.1
    s.reply w.src w.quad w.cls w.tag w.team c.2.1 (match c.2.2 with
      | none => .refused
      | some l => if l.any odd.contains then .mixed else .done)) s
  (s, all.flatMap fun c => interval c.key (redBytes c.ty c.wd))

/-- The bytes of this package that a peer's write or RED names. -/
def workKeys (s : State) (t : Team) (w : PeerWork) : List Nat :=
  let nd := remoteNeeds w.kind
  match mirrorEntry s t w.hnd w.ofs nd.1 nd.2 with
  | none => []
  | some e =>
    let os : List Nat := match w.kind with
      | .write _ _ _ cs _ => cs.map (·.1)
      | .combine _ _ _ _ ty es _ => es.flatMap fun x => interval x.1 (ty.bits / 8)
      | .red _ _ _ _ ty wd es => es.flatMap fun x => interval x.1 (redBytes ty wd)
      | _ => []
    os.map fun o => e.key 0 (w.ofs + o)

/-- What a member package has sent this one for a superstep, once it has said so (R80). What this package sends to itself
through space 5 it knows by itself (R61, R63). -/
def sentBy (s : State) (t : Team) (p : Phase) (q : Nat) : Option (List Nat) :=
  if q = t.pc then some (podTags s t.teamid q) else (p.peers.find? fun x : PodPart => x.pkg == q).bind (·.sent)

/-- The peers' work that the exchange of superstep k performs: what they have said that they sent (R80). -/
def podWork (s : State) (t : Team) (k : Nat) : List PeerWork :=
  let p := State.phase (s.unit t.teamid .pod 0) k
  sortWork k (s.peerWork.filter fun w => w.team == t.teamid && (workOf w k).isSome &&
    ((sentBy s t p w.src).getD []).contains w.tag)

/-- Whether every member package that answers has said what it sent, and all of it is here (R80). -/
def podReady (s : State) (t : Team) (p : Phase) : Bool :=
  (List.range t.nP).all fun q => (lookup q t.peersDown).isSome || (sentBy s t p q).any fun tags =>
    tags.all fun g => s.peerWork.any fun w => w.team == t.teamid && w.src == q && w.tag == g

/-- Keeps the granules that an exchange overwrote in this package's HBM as they stood before, for reads of peers that issued
earlier (R24, R73). -/
def keepOld (l : Scope) (id k : Nat) (before : State) (keys : List Nat) (s : State) : State :=
  let gs := ((keys.filter (· < hbmSize)).map granule).eraseDups
  if gs = [] ∨ Scope.code l < 4 ∨ s.teams.all fun c => c.2.nP == 1 then s
  else { s with kept := s.kept ++ [⟨id, k, l == .pod, s.now,
    gs.flatMap fun g => (interval (64 * g) 64).map fun a => (a, before.mem.byte a, before.poisoned g)⟩] }

/-- Answers the peers' reads that waited for a pod exchange (R73). -/
def answerReads (t : Team) (s : State) : State :=
  let due (w : PeerWork) : Option (Nat × Nat × Nat) :=
    match w.kind with
    | .read step time n => if w.team = t.teamid ∧ step ≤ podDone s t then some (step, time, n) else none
    | _ => none
  let s' := { s with peerWork := s.peerWork.filter fun w => (due w).isNone }
  s.peerWork.foldl (fun z w =>
    match due w with
    | none => z
    | some (step, time, n) =>
      match mirrorEntry z t w.hnd w.ofs n .r with
      | none => z.reply w.src w.quad w.cls w.tag w.team (edgeSite w.quad) .refused
      | some e => z.reply w.src w.quad w.cls w.tag w.team (z.homeSite (e.key 0 w.ofs)) (readAnswer z t.teamid (e.key 0 w.ofs) step time n)) s'

/-- The exchange of superstep k in a unit (R80): sources are read as the exchange begins, AMOs are committed, REDs applied,
deferred writes performed and their counters posted. Deferred copies that have yet to read what it wrote, or whose counters
have yet to advance, hear of it (R74). -/
def exchange (s : State) (t : Team) (l : Scope) (u k : Nat) : State :=
  let before := s
  let here (c : Nat × CopyOp) : Bool := shSpace c.2.dst != 5
  let (cs, s) := ((exCopies s t l u k).filter here).foldl (fun (p : List (Nat × CopyOp × List (Nat × Bool)) × State) c =>
    let (xs, s) := copySource p.2 t c.2 0 (shCount c.2.src)
    (p.1 ++ [(c.1, c.2, xs)], s)) ([], s)
  let work := if l = .pod then podWork s t k else []
  let rs := (exReds s t l u k).filter fun r => shSpace r.2.d != 5
  let amos := amoCells s t l u (cs.flatMap (fun c => (shBytes c.2.1.dst).map (s.operandKey t c.2.1.who.lrank c.2.1.dst))
    ++ rs.flatMap (fun r => (contribs s t r.1 r.2).flatMap fun c => interval c.key (redBytes c.ty c.wd))
    ++ work.flatMap (workKeys s t))
  let s := commitAmos s amos
  let (rs, s) := rs.foldl (redStands t l u k) ([], s)
  let contrs := rs.flatMap fun r => contribs s t r.1 r.2
  let s := reduceAll t.teamid contrs (fun c => scopeVal t (redApply c.op c.ty c.wd) (vtileVal contrs c) l u) s
  let s := (mixedReds contrs).foldl (fun s c => s.orFstat t.teamid c.lr fstatMixed) s
  let s := rs.foldl (fun s r =>
    countAsync { s with reds := eraseAt r.1 s.reds } r.2.who r.2.d (shCount r.2.d * redBytes r.2.ty r.2.wd)) s
  let redKeys := contrs.flatMap fun c => interval c.key (redBytes c.ty c.wd)
  let (s, peerKeys) := peerReds t work s
  let w : Writes := cs.foldl (performCopy t k l u) ⟨s, []⟩
  let w := (work.filter fun x => match x.kind with
    | .red _ _ _ _ _ _ _ => false
    | _ => true).foldl (performWork t) w
  let keys := ((amos.map (·.1) ++ redKeys ++ peerKeys).foldl (fun m a => insertAt a () m) (w.marks.map fun m => (m.1, ()))).map
    (·.1)
  let s := settleKeys w.finish (redKeys ++ peerKeys)
  let s := if l = .pod then { s with peerWork := s.peerWork.filter fun x => x.team != t.teamid || (workOf x k).isNone } else s
  let s := keepOld l t.teamid k before keys s
  let s := (s.spoilDone before.doneCopies keys).touchKeys keys
  let b := s.unit t.teamid l u
  let p := { State.phase b k with exchanged := true, xbytes := keys.length }
  let s := s.putUnit t.teamid l u { b with phases := insertAt k p b.phases }
  if l = .pod then answerReads t s else s

/-- A phase with what a peer has told of it: a later part of a package replaces an earlier one, and the first stated
operation is the phase's when no arrival here has fixed one (R87). -/
def Phase.hear (p : Phase) (x : PodPart) : Phase :=
  { p with peers := p.peers.filter (fun y => y.pkg != x.pkg) ++ [x], rop := p.rop.or x.rop }

/-- A pod unit with what peers have told of its supersteps, up to the fourth after the lowest open one: a peer may have completed
one more (R20, R87, R88). A package that has been found down says no more (R94). -/
def BarUnit.hear (t : Team) (b : BarUnit) (parts : List PodPart) : BarUnit :=
  let heeded (x : PodPart) : Bool :=
    b.step ≤ x.step && x.step ≤ b.step + 4 && (State.others t).contains x.pkg && (lookup x.pkg t.peersDown).isNone
  (parts.filter heeded).foldl (fun b x => { b with phases := insertAt x.step ((State.phase b x.step).hear x) b.phases }) b

/-- Whether an exchange waits before it begins: for a quad or a CXL link that retrains (R204), or while a quiesce holds back
what it sends, its answers to peers among it (R195). -/
def exchangeWaits (s : State) (t : Team) (l : Scope) (cs : List (Nat × CopyOp)) (rs : List (Nat × RedOp)) : Bool :=
  let far (m : Shape) : Bool := shSpace m == 5 && s.routeWaits t.teamid (shVt m)
  let host (m : Shape) : Bool := shSpace m == 6 && mustWait s t m (elemRanges m 0 (shCount m))
  let held (w : Issuer) (m : Shape) : Bool := s.heldBack w.team w.tile && s.acrossFabric w.team w.tile m
  (cs.any fun c => (far c.2.src && !c.2.fetched) || far c.2.dst || host c.2.src || host c.2.dst || held c.2.who c.2.src
      || held c.2.who c.2.dst)
    || (rs.any fun r => far r.2.d || held r.2.who r.2.d)
    || l == .pod && s.heldEdge t.teamid && s.peerWork.any fun w => w.team == t.teamid

/-- BARRIER_EXCHANGE: when every participant has arrived, the exchange of the unit's superstep runs (R80). What it needs of
peers is asked for first; at pod scope it tells each peer what it has sent there, and performs the peers' work once all of theirs is
here (R63, R74). `peers` is what the peers have told of pod supersteps since (R81, R87, R95). -/
def execBarrierExchange (id : Nat) (l : Scope) (u : Nat) (peers : List PodPart) (s : State) : Out :=
  match s.team? id with
  | none => .next s
  | some t =>
    if !(t.unitsOf l).contains u then .next s
    else
      let s := if l = .pod ∧ peers ≠ [] then s.putUnit id l u ((s.unit id l u).hear t peers) else s
      let b := s.unit id l u
      let k := b.step
      let p := State.phase b k
      if p.exchanged || !phaseFull t l u p p.peers then .next s
      else
        let cs := exCopies s t l u k
        let (ready, s) := if exchangeWaits s t l cs (exReds s t l u k) then (false, s) else fetchSources s t cs
        if !ready then .next s
        else if l = .pod ∧ p.sent = false then
          let s := (cs.filter fun c => shSpace c.2.dst == 5).foldl (sendCopy t k) s
          let s := sendReds t k s ((exReds s t l u k).filter fun r => shSpace r.2.d == 5)
          let b := s.unit id l u
          .next (tellSent (s.putUnit id l u { b with phases := insertAt k { State.phase b k with sent := true } b.phases }) id k
            (State.others t))
        else if l = .pod ∧ !podReady s t p then .next s
        else .next (exchange s t l u k)

/-! ### Completion (R90 to R96) -/

/-- The counts of a completed phase: first and last arrival, who came last, how many, how many forced, and the sum of
waiting times (R95). -/
structure Tally where
  early : Nat
  late : Nat
  lastv : Nat
  narr : Nat
  forced : Nat
  sum : Nat
  code : Nat
  deriving DecidableEq, Repr

/-- Adds what another package's arrivals amount to. -/
def Tally.join (a : Tally) (x : PodPart) : Tally :=
  let early := min a.early x.early
  { early, late := max a.late x.late
    lastv := if a.late < x.late then x.lastv else if a.late = x.late then min a.lastv x.lastv else a.lastv
    narr := a.narr + x.narr, forced := a.forced + x.forced
    sum := a.sum + a.narr * (a.early - early) + x.sumArr + x.narr * (x.early - early), code := max a.code x.code.toNat }

/-- The pod time at which a superstep of a unit became open, as the kept results tell it; 0 for the first four (R20). -/
def openedAt (b : BarUnit) (k : Nat) : Nat := if k < 4 then 0 else ((lookup (k - 4) b.results).map (·.time)).getD 0

/-- The tally of superstep k (R94, R95). A package that is down counts as forced arrivals of all its vtiles, recorded when it
was found unreachable, or when the superstep became open. -/
def tally (t : Team) (l : Scope) (b : BarUnit) (k : Nat) (p : Phase) (now : Nat) : Tally :=
  let ts := p.arrivals.map (·.time)
  let early := ts.foldl min (ts.headD now)
  let late := ts.foldl max 0
  let lasts := (p.arrivals.filter fun a => a.time == late).map fun a => t.rank a.who
  let own : Tally :=
    { early, late, lastv := lasts.foldl min (lasts.headD 0), narr := p.arrivals.length
      forced := (p.arrivals.filter (·.forced)).length, sum := (ts.map (· - early)).sum
      code := max ((p.arrivals.map fun a => a.code.toNat).foldl max 0) (if p.exFail then 0xFF01 else 0) }
  let down := t.peersDown.filter fun q => q.1 != t.pc && !(heard t p).any fun x => x.pkg == q.1
  let lost : List PodPart := down.map fun q =>
    let at_ := max q.2 (openedAt b k)
    ⟨q.1, k, none, none, 0xFF02, t.size, t.size, at_, at_, q.1 * t.size, 0, none, true, 0⟩
  if l = .pod then (heard t p ++ lost).foldl Tally.join own else own

/-- The status word of a superstep (R93). DESIGN CHOICE (log 36): FORCED of a pod superstep keeps the low 11 bits of a count
above 1,024. -/
def statusWord (a : Tally) (k : Nat) : Word :=
  BitVec.ofNat 64 (pack [32, 11, 5, 16] [k % 2 ^ 32, a.forced, 0, a.code])

/-- The imbalance record (R95). DESIGN CHOICE (log 36): NARR and NFORCE of a pod superstep keep the low 11 bits of counts above
1,024. -/
def imbRecord (a : Tally) (l : Scope) (k seq xbytes now : Nat) : BitVec 512 :=
  BitVec.ofNat 512 (pack [64, 20, 3, 3, 11, 11, 16, 64, 64, 64, 64, 64, 64]
    [seq, a.lastv, 0, Scope.code l, a.narr, a.forced, a.code, a.early, a.late, min a.sum (2 ^ 64 - 1), k, xbytes, now])

/-- Latches the imbalance record of a completion, and appends it to the ring when the packet enables the scope (R95,
R96). The number of a record that no ring takes is free (log 24). -/
def imbalance (s : State) (t : Team) (id : Nat) (l : Scope) (u k : Nat) (a : Tally) (xbytes : Nat) : State :=
  if l = .tile then s
  else
    let on := bit (t.f 50 4) (Scope.code l - 2)
    let (seq, s) := if on then (t.imbSeq + 1, s) else let (w, s) := s.freeWord id; (w.toNat, s)
    let r := imbRecord a l k seq xbytes s.now
    let s := if on then (s.onTeam id fun t => { t with imbSeq := seq }).commit
        (hbmKey (t.area + t.oImb + 64 * (seq % t.imbCap))) (bytesOf 64 r.toNat) else s
    (t.members l u).foldl (fun s lr => s.onVtile id lr fun v => { v with imbal := r }) s

/-- Lowers every nonzero TAHEAD of a vtile, in its slots, its save slots and its image (R19, R184). -/
def lowerTahead (s : State) (t : Team) (lr : Nat) : State :=
  match s.vtile? t.teamid lr with
  | none => s
  | some v =>
    let s := if v.res then (List.range 8).foldl (fun s i =>
        match s.strandAt v.ptile i with
        | some k => if k.team == t.teamid && k.lrank == lr then s.putAt v.ptile i { k with tahead := k.tahead - 1 } else s
        | none => s) s else s
    let s := s.onVtile t.teamid lr fun v => { v with saves := v.saves.map fun c => (c.1, { c.2 with tahead := c.2.tahead - 1 }) }
    if v.res then s
    else v.saves.foldl (fun s c =>
      s.commit (hbmKey (t.img lr + 657616 + c.1)) (bytesOf 1 (c.2.tahead - 1))) s

/-- Delivers the results of superstep k to the strands of a vtile that wait for it, with a trace record for each that stands in
a slot (R93, R192, R257). -/
def deliverTo (s : State) (t : Team) (lr : Nat) (l : Scope) (k : Nat) (r : Result) : State :=
  match s.vtile? t.teamid lr with
  | none => s
  | some v =>
    let slots := if v.res then (List.range 8).filterMap fun i =>
        match s.strandAt v.ptile i with
        | some x => match x.wait with
          | .barrier m n d ds => if x.team == t.teamid && x.lrank == lr && m == l && n == k then some (i, x.uid, d, ds) else none
          | _ => none
        | none => none
      else []
    let saved := v.saves.filterMap fun c => match c.2.wait with
      | .barrier m n d ds => if m == l && n == k then some (c.2.uid, d, ds) else none
      | _ => none
    let s := slots.foldl (fun s x => s.traceVt t.teamid lr x.1 3 (Scope.code l) k) s
    (slots.map (·.2) ++ saved).foldl (fun s x =>
      (knowResult s t.teamid lr x.1 l r).deliverBarrier t.teamid lr x.1 x.2.1 x.2.2 r.value r.status) s

/-- Keeps the TAHEAD of a saved strand, in the image too where the image stands for the vtile (R19, R184). -/
def setSavedTahead (s : State) (t : Team) (lr n ta : Nat) : State :=
  match s.vtile? t.teamid lr with
  | none => s
  | some v =>
    let s := s.putVtile t.teamid lr { v with saves := v.saves.map fun c => if c.1 = n then (c.1, { c.2 with tahead := ta }) else c }
    if v.res then s else s.commit (hbmKey (t.img lr + 657616 + n)) (bytesOf 1 ta)

/-- Records a forced arrival that stalled (R20, R94): at tile scope at its strand's current superstep, and at the superstep it
stalled at when the strand has ended. -/
def recordForced (s : State) (t : Team) (l : Scope) (x : Stalled) : State :=
  match l with
  | .tile => match s.locate t.teamid x.lrank x.uid with
    | .slot p i k =>
      let (s, ta) := s.forceStrand t t.teamid x.lrank x.uid k.tahead
      match s.strandAt p i with
      | some k => s.putAt p i { k with tahead := ta }
      | none => s
    | .saved n i =>
      let (s, ta) := s.forceStrand t t.teamid x.lrank x.uid i.tahead
      setSavedTahead s t x.lrank n ta
    | .gone => s.forceTileAt t.teamid x.lrank x.uid x.step
  | _ => s.forceVtile t t.teamid x.lrank l x.code

/-- Records an arrival of a strand that stalled at superstep `x.step`. When another strand of the vtile has arrived there
meanwhile, one that stated its phase is a second arrival (0x62), and any other goes to the vtile's current superstep (R88,
R91). The instruction issues then: a match is met first (R253), and a step completes with it (R255). On a tile that issues nothing
the arrival is recorded all the same (R20; log 29). -/
def recordLate (s : State) (t : Team) (l : Scope) (u : Nat) (x : Stalled) (ptile slot : Nat) (k : Strand) : State :=
  let n := s.target t t.teamid x.lrank l k.tahead
  let word := match codeEntry s t 0 with
    | .ok e => BitVec.ofNat 64 (ofBytes (s.readEntry e ptile k.pc.toNat 8))
    | .error _ => 0
  let b := s.unit t.teamid l u
  let drop := s.putUnit t.teamid l u { b with stalled := b.stalled.filter (· != x) }
  let issues := mayIssue s ptile slot { k with wait := .none }
  match if issues then matchEntry (s.tile ptile) slot k.pc else none with
  | some e => (drop.putAt ptile slot { k with wait := .none }).meetMatch ptile slot e k.pc
  | none =>
    if x.chk && n % 4 != x.step % 4 then
      (drop.takeFault ptile slot { k with wait := .none } 0x62 0 0 word).afterIssue ptile slot
    else if n < b.step + 4 then (arrive drop t ptile slot k l n x.kind x.rop x.cnt x.value x.code word).afterIssue ptile slot
    else s

/-- Records the arrivals that stalled at a fifth phase and now fall below it (R20, R94). -/
def recordStalled (s : State) (t : Team) (l : Scope) (u : Nat) : State :=
  (s.unit t.teamid l u).stalled.foldl (fun s x =>
    match s.vtile? t.teamid x.lrank with
    | none => s
    | some v =>
      let b := s.unit t.teamid l u
      let drop := s.putUnit t.teamid l u { b with stalled := b.stalled.filter (· != x) }
      match x.kind with
      | .forced => recordForced drop t l x
      | _ =>
        match if v.res then s.findStrand v.ptile t.teamid x.lrank x.uid else none with
        | none => drop
        | some (i, k) => recordLate s t l u x v.ptile i k) s

/-- Records the forced arrivals of lost vtiles at every open superstep of a unit (R94). -/
def forceLost (s : State) (t : Team) (l : Scope) (u : Nat) : State :=
  if l = .tile then s
  else (t.members l u).foldl (fun s lr =>
    (List.range 4).foldl (fun s _ =>
      match s.vtile? t.teamid lr with
      | some v =>
        if v.lost && State.current v l < (s.unit t.teamid l u).step + 4 then s.forceVtile t t.teamid lr l 0xFF03 else s
      | none => s) s) s

/-- Whether the results of superstep k can be delivered now: no log that must take them lacks room (R189). -/
def canDeliver (s : State) (t : Team) (l : Scope) (u k : Nat) : Bool :=
  (t.members l u).all fun lr =>
    match s.vtile? t.teamid lr with
    | some v =>
      let n := (v.saves.filter fun c => match c.2.wait with
        | .barrier m j _ _ => m == l && j == k
        | _ => false).length
      !(State.logging v && n != 0 && s.logFull t.teamid lr n)
    | none => true

/-- Whether a barrier of an outer scope has completed in this CYCLE for a vtile of a unit: the inner one would have come first
(R23). -/
def outerNow (s : State) (t : Team) (l : Scope) (u : Nat) : Bool :=
  (t.members l u).any fun lr =>
    [Scope.grp, .die, .pkg, .pod].any fun m =>
      Scope.code l < Scope.code m &&
        (s.unit t.teamid m (t.unitOf m lr)).results.any fun r => r.2.cycle == s.cycle.toNat

/-- Tells the member packages what this package's exchange of pod superstep k came to (R81, R95). -/
def tellDone (s : State) (t : Team) (k : Nat) : State :=
  let b := s.unit t.teamid .pod 0
  let p := State.phase b k
  (s.putUnit t.teamid .pod 0 { b with phases := insertAt k { p with told := true } b.phases }).tellPeers t.teamid (State.others t)
    fun q z => .podDone q z t.teamid k p.exFail p.xbytes

/-- Whether every member package that answers has told what its exchange came to (R81). -/
def podAnswered (t : Team) (p : Phase) : Bool :=
  (State.others t).all fun q => (lookup q t.peersDown).isSome || p.peers.any fun x => x.pkg == q && x.done

/-- A tile-barrier phase slot (R184; log 17): arrivals, CNT, ROP, and the running value. -/
def phaseBytes (t : Team) (u : BarUnit) (lr j : Nat) : List Byte :=
  match u.phases.find? fun p => p.1 % 4 == j with
  | none => bytesOf 16 0
  | some (_, p) =>
    [BitVec.ofNat 8 p.arrivals.length, BitVec.ofNat 8 (p.cnt.getD 0), BitVec.ofNat 8 ((p.rop.getD .none).code)] ++ bytesOf 5 0
      ++ bytesOf 8 ((phaseVal t .tile lr p (p.rop.getD .none)).getD 0).toNat

/-- Writes the tile-barrier phase slots of a vtile into its image, where the image stands for the vtile (R184). -/
def refreshPhases (s : State) (t : Team) (lr : Nat) : State :=
  match s.vtile? t.teamid lr with
  | some v => match v.div with
    | .diverting | .restoring => s.commit (hbmKey (t.img lr + 655440))
        ((List.range 4).flatMap (phaseBytes t (s.unit t.teamid .tile lr) lr))
    | _ => s
  | none => s

/-- BARRIER_COMPLETION: after the exchange, the counter advances, the record is written and the results are delivered (R18,
R90 to R96). A pod superstep waits for its peers' answers (R74), tells the peers what its exchange came to, and waits for what
theirs came to (R81, R95). An inner scope that has not completed before an outer one in a CYCLE waits for the next (R23). -/
def execBarrierCompletion (id : Nat) (l : Scope) (u : Nat) (s : State) : Out :=
  match s.team? id with
  | none => .next s
  | some t =>
    let b := s.unit id l u
    let k := b.step
    let p := State.phase b k
    let left := l == .pod && (!(exCopies s t l u k).isEmpty || !(exReds s t l u k).isEmpty)
    if !p.exchanged || left then .next s
    else if l = .pod ∧ p.told = false then .next (tellDone s t k)
    else if (l == .pod && !podAnswered t p) || !canDeliver s t l u k || outerNow s t l u then .next s
    else
      let a := tally t l b k p s.now
      let r : Result :=
        { value := phaseRoot t l u p (p.rop.getD .none), status := statusWord a k, time := s.now, cycle := s.cycle.toNat
          knows := (p.arrivals.flatMap (·.knows)).eraseDups }
      let s := s.putUnit id l u { b with
        step := k + 1
        phases := eraseAt k b.phases
        results := insertAt k r (b.results.filter fun x => k < x.1 + 4) }
      let s := match l with
        | .tile => lowerTahead s t u
        | _ => s
      let s := imbalance s t id l u k a (p.xbytes + if l = .pod then ((heard t p).map (·.xbytes)).sum else 0)
      let s := (t.members l u).foldl (fun s lr => s.onVtile id lr fun v =>
        { v with upds := v.upds.filter fun x => x.scope != l || k < x.step }) s
      let s := (t.members l u).foldl (fun s lr => deliverTo s t lr l k r) s
      let s := forceLost (recordStalled s t l u) t l u
      .next (if l = .tile then refreshPhases s t u else s)

end Sys2Proof.Machine
end

