-- ==== Sys2Proof/Machine/Continuation.lean ====
section
/-! DEFINITION. Continuations: SPAWN, JOIN, SUSP, EXIT and CANCEL (R36 to R44), the queues' steps (R42, R45 to R48, R162),
and park-on-wait (R49, R50). -/

namespace Sys2Proof.Machine

/-! ### Join cells (R36 to R38) -/

/-- The team's code handle as an operand of R62, which must grant X (R31). -/
def codeOpd (s : State) (t : Team) : Opd :=
  { space := (s.entry t t.codeh).space, hnd := t.codeh, vt := 0, ilv := 0, lo := 0, hi := 0, perm := .x, named := false, aligned := true
    addr := BitVec.ofNat 64 (t.codeh * 2 ^ 32) }

/-- A join cell as an operand of R62 (R41, R338). -/
def cellOpd (w : Word) : Opd := wordOpd w 2 16 16 .wa

/-- R41: a handle names a 16-aligned offset. -/
def chkCell (w : Word) : Do Unit := need (awHnd w == 0 || awOfs w % 16 == 0) 0x27 w

/-- Where a join cell lies, for a strand on a tile. -/
def cellKey (s : State) (t : Team) (ptile : Nat) (w : Word) : Nat :=
  if awHnd w = 0 then storeKey ptile (awOfs w) else (s.entry t (awHnd w)).key ptile (awOfs w)

/-- COUNT of a cell at its home, as live (R36, R37). Bits [63:32] are not looked at. DESIGN CHOICE: R36 has software keep them
zero and names nothing that follows when they are not (log 36). -/
def cellCount (s : State) (key : Nat) : Nat := s.liveNum key 4

/-- PARK of a cell at its home, as live (R36, R37). -/
def cellPark (s : State) (key : Nat) : Nat := s.liveNum (key + 8) 8

/-- Writes bytes of a cell at its home: a tile-store cell directly, and a group cell as an AMO writes it (R37). -/
def cellWrite (s : State) (t : Team) (lr : Nat) (w : Word) (key : Nat) (bs : List Byte) : State :=
  if awHnd w = 0 then s.update key bs else s.writeLive [unitKey t.teamid .grp (t.unitOf .grp lr)] key bs

/-- A strand is to operate on a cell: on a tile-store cell it may race with stores, and on a group cell it counts as an AMO on
all words of the cell in the group superstep in which it issues (R38). -/
def cellTouch (s : State) (k : Strand) (w : Word) (key : Nat) : State :=
  if awHnd w = 0 then s.cellRace k (awOfs w)
  else s.noteUpdate k.team k.lrank ⟨.grp, s.levelStep k.team k.lrank 2, .amo, key, 16⟩

/-- Decrements a cell, and releases the record parked on it when COUNT reaches zero (R41). -/
def decrementCell (k : Strand) (t : Team) (w : Word) (x : Nat) (s : State) : Do State := do
  checkAll s t [cellOpd w]
  chkCell w
  let key := cellKey s t s.at_.1 w
  let s := cellTouch s k w key
  let n := cellCount s key
  need (x ≤ n) 0x68 w
  let park := cellPark s key
  let s := cellWrite s t k.lrank w key (bytesOf 4 (n - x))
  if n = x ∧ park ≠ 0 then
    .ok ((cellWrite s t k.lrank w (key + 8) (bytesOf 8 0)).release k.team (BitVec.ofNat 64 park))
  else .ok s

/-- JOIN (R41, R338). -/
def execJoin (f : JoinS) (s : State) : Out :=
  .next (issue (.join f) f.e { src := [f.a] }
    (fun k s => withTeam s k fun t => do
      let s ← decrementCell k t (k.rd f.a) f.x.toNat s
      retire s k) s)

/-! ### SPAWN, SUSP, EXIT and CANCEL -/

/-- Reads and checks the record at a tile-store address, with the cell that SUSP names (R31, R40, R292). -/
def readRecord (s : State) (t : Team) (a : Word) (cell : Option Word) : Do (BitVec 512) := do
  checkAll s t ([codeOpd s t] ++ (cell.toList.map cellOpd) ++ [storeOpd a.toNat 64 8])
  match cell with
  | some w => chkCell w
  | none => .ok ()
  need (!s.anyPoison (tileKey s a.toNat) 64) 0x26 a
  let r := BitVec.ofNat 512 (s.mem.num (tileKey s a.toNat) 64)
  let e ← codeEntry s t a
  need (!recMalformed t r e.len && !jcellMalformed s t r) 0x66 a
  .ok r

/-- SPAWN (R40, R358). -/
def execSpawn (f : SpawnS) (s : State) : Out :=
  .next (issue (.spawn f) f.e { src := [f.a], dst := [f.d] }
    (fun k s => withTeam s k fun t => do
      let a := memAddr k f.a f.x
      let r ← readRecord s t a none
      need (!t.qFull (recTarget t r)) 0x67 a
      let p := s.spawnRec k.team r
      retire (p.2.trace s.at_.1 k.lrank s.at_.2 4 0 p.1.toNat) (k.wr f.d p.1)) s)

/-- Ends the current strand: its slot falls free and its registers are lost (R34, R43). -/
def endStrand (s : State) (k : Strand) (kind : Nat) : State :=
  (s.trace s.at_.1 k.lrank s.at_.2 kind 0 k.pc.toNat).dropAt s.at_.1 s.at_.2

/-- Puts a record, completed as SPAWN completes it, into the park pool, for a cell in group SRAM or none there: its ticket
(R42). -/
def parkRec (s : State) (id : Nat) (r : BitVec 512) (cell : Option Nat) : Word × State :=
  match s.team? id with
  | none => (0, s)
  | some t =>
    let n := t.takeSeq
    let r := recSet (recSet r 472 16 t.teamid) 448 24 n.1
    let ticket := BitVec.ofNat 64 (recQs r * 2 ^ 62 + recHint r * 2 ^ 52 + n.1)
    let idx := leastFree (t.parked.map (·.idx))
    let p : Parked := ⟨r, recTarget t r, n.1, t.ord, min (recPrio r) t.prio, ticket, cell, none, idx⟩
    let t' := { n.2 with parked := t.parked ++ [p], ord := t.ord + 1 }
    (ticket, (s.putTeam id t').commit (hbmKey (t.area + t.oPp + 64 * idx)) (bytesOf 64 r.toNat))

/-- SUSP (R42, R361). DESIGN CHOICE: an occupied cell faults with 0x69 before either queue is looked at, the target queue is checked
when COUNT = 0 and the park pool when COUNT > 0, the one that the record would enter (log 37). -/
def execSusp (f : SuspS) (s : State) : Out :=
  .next (issue (.susp f) f.e { src := [f.a, f.b] }
    (fun k s => withTeam s k fun t => do
      let a := memAddr k f.b f.x
      let w := k.rd f.a
      let r ← readRecord s t a (some w)
      let key := cellKey s t s.at_.1 w
      let s := cellTouch s k w key
      need (cellPark s key == 0) 0x69 w
      if cellCount s key = 0 then do
        need (!t.qFull (recTarget t r)) 0x67 w
        let s := (s.spawnRec k.team r).2
        let s := cellWrite s t k.lrank w (key + 8) (bytesOf 8 0)
        .ok (endStrand s k 5)
      else do
        need (t.parked.length < t.ppCap) 0x67 w
        let p := parkRec s k.team r (if awHnd w = 0 then none else some key)
        .ok (endStrand (cellWrite p.2 t k.lrank w (key + 8) (bytesOf 8 p.1.toNat)) k 5)) s)

/-- EXIT (R43, R327); in the shadow slot it ends the handler (R253). -/
def execExit (s : State) : Out :=
  .next (issue .exit false {}
    (fun k s => withTeam s k fun t =>
      if s.at_.2 = 8 then .ok ((s.trace s.at_.1 k.lrank 8 6 0 k.pc.toNat).endShadow s.at_.1 false)
      else if k.jcell = 0 then .ok (endStrand s k 6)
      else do
        let s ← decrementCell k t k.jcell 1 s
        .ok (endStrand s k 6)) s)

/-- The queued record that a CANCEL finds (R44, R51, R319). -/
def cancelled (t : Team) (ticket : Word) : Option QEntry :=
  if field ticket.toNat 62 2 = 3 then none
  else t.queued.find? fun e => e.save.isNone && e.seq == field ticket.toNat 0 24

/-- CANCEL (R44, R319). -/
def execCancel (f : DaS) (s : State) : Out :=
  .next (issue (.cancel f) f.e { src := [f.a], dst := [f.d] }
    (fun k s => withTeam s k fun t => do
      let w := k.rd f.a
      need (field w.toNat 24 28 == 0) 0x02
      match cancelled t w with
      | some e => retire (s.putTeam k.team { t with queued := t.queued.filter (· != e) }) (k.wr f.d 0)
      | none => retire s (k.wr f.d 1)) s)

/-! ### The queues' own steps -/

/-- RELEASED_RECORD_ENQUEUE: the earliest released record that waits for a queue enters it when it has room (R42). -/
def execReleasedRecordEnqueue (id : Nat) (q : QTarget) (s : State) : Out :=
  match s.team? id with
  | none => .next s
  | some t =>
    let waits := t.parked.filter fun p => p.released.isSome && p.target == q
    if t.cap q ≤ (t.inQueue q).length then .next s
    else match waits.find? (fun p => waits.all fun x => p.released.getD 0 ≤ x.released.getD 0) with
      | none => .next s
      | some p =>
        let idx := leastFree ((t.inQueue q).map (·.idx))
        let e : QEntry := ⟨p.record, p.target, p.seq, p.ord, p.prio, none, false, s.queueClock t p.target, idx⟩
        .next ((s.putTeam id { t with queued := t.queued ++ [e], parked := t.parked.filter (· != p) }).commit
          (hbmKey (t.qAddr q + 64 * idx)) (bytesOf 64 p.record.toNat))

/-- Whether a record leaves its queue before another (R45). -/
def QEntry.first (a b : QEntry) : Bool := b.prio < a.prio || (a.prio == b.prio && a.ord ≤ b.ord)

/-- The record that leaves a list of entries first. -/
def headOf (es : List QEntry) : Option QEntry := es.find? fun e => es.all e.first

/-- The record that leaves a list of entries last. -/
def lastOf (es : List QEntry) : Option QEntry := es.find? fun e => es.all fun x => x.first e

/-- The records of a queue that a slot may take. -/
def Team.ready (t : Team) (q : QTarget) : List QEntry := (t.inQueue q).filter fun e => !e.waiting

/-- The record that a free slot of a vtile takes (R162). `clock` tells the time of each queue. -/
def nextRecord (t : Team) (lr : Nat) (clock : QTarget → Nat) : Option QEntry :=
  let g := t.ready (.grp (lr / t.nT))
  let p := t.ready .pkg
  let age (e : QEntry) : Nat := clock e.target - e.since
  let aged := (g ++ p).filter fun e => 16384 ≤ age e
  match aged.find? (fun e => aged.all fun x => age x < age e || (age e == age x && e.ord ≤ x.ord)) with
  | some e => some e
  | none => (headOf (t.ready (.vt lr))).or ((headOf g).or (headOf p))

/-- The strand of a fresh record (R33). -/
def bornStrand (id lr uid : Nat) (e : QEntry) : Strand where
  team := id
  lrank := lr
  uid := uid
  pc := BitVec.ofNat 64 (recCode e.record)
  s := Vector.ofFn fun i : Fin 64 =>
    if 1 ≤ i.val ∧ i.val ≤ 4 then BitVec.ofNat 64 (recArg e.record (i.val - 1))
    else if i.val = 5 then BitVec.ofNat 64 (recFrame e.record)
    else if i.val = 6 then BitVec.ofNat 64 (recJcell e.record) else 0
  v := Vector.replicate 32 0
  p := (Vector.replicate 16 0).set 0 (BitVec.allOnes 256)
  m := Vector.replicate 16 0
  sfull := BitVec.allOnes 64
  vfull := BitVec.allOnes 32
  spoison := 0
  summary := 0
  jcell := BitVec.ofNat 64 (recJcell e.record)
  prio := e.prio
  wait := .none
  waitSince := 0
  readySince := none
  held := false
  tahead := 0
  replay := false

/-- The wait of a strand as it goes on in a slot: a WAITGE waits on for what it read at issue (R50, R386). -/
def Wait.reloaded : Wait → Wait
  | .barrier l k d ds => .barrier l k d ds
  | .waitge o n f => .waitge o n f
  | _ => .none

/-- A strand that comes to a slot has met no match there (R253). -/
def unmatched (s : State) (tile slot : Nat) : State :=
  let x := s.tile tile
  if x.skip.contains slot || x.matches_.any fun m => m.slot == slot then
    s.putTile tile { x with skip := x.skip.filter (· != slot), matches_ := x.matches_.filter fun m => m.slot != slot }
  else s

/-- Puts a record's strand into a free slot (R33, R46, R50, R176). -/
def startRecord (s : State) (t : Team) (id lr tile slot : Nat) (e : QEntry) : State :=
  let s := unmatched (s.putTeam id { t with queued := t.queued.filter (· != e) }) tile slot
  match e.save with
  | some n =>
    match s.vtile? id lr with
    | none => s
    | some v =>
      match lookup n v.saves with
      | none => s
      | some i =>
        let k := strandOf s.mem (hbmKey (t.slotAddr lr n)) id lr i
        (s.putVtile id lr { v with saves := eraseAt n v.saves }).putAt tile slot
          { k with wait := k.wait.reloaded, prio := e.prio, held := false }
  | none =>
    let s := match e.target with
      | .vt _ => s
      | q => s.commit (hbmKey (t.qAddr q + 64 * e.idx)) (bytesOf 64 (recSet e.record 490 10 lr).toNat)
    let (uid, s) := s.number
    s.putAt tile slot (bornStrand id lr uid e)

/-- Whether a tile dispatches, parks and pushes: it runs, and its vtile is resident and not stopped (R180, R244). -/
def tileWorks (s : State) (tile : Nat) (v : Vtile) : Bool :=
  s.boot == .booted && (s.tile tile).dbg == .running && !(s.tile tile).fenced && v.div == .resident && v.stopped.isNone

/-- CONTINUATION_DISPATCH: a free slot takes a record (R162). -/
def execContinuationDispatch (tile slot : Nat) (s : State) : Out :=
  match s.standing tile with
  | none => .next s
  | some (id, lr, v) =>
    if tileWorks s tile v && slot < 8 && (s.strandAt tile slot).isNone then
      let s := recheckWaits s id lr
      match s.team? id with
      | none => .next s
      | some t =>
        match nextRecord t lr (s.queueClock t) with
        | none => .next s
        | some e => .next (startRecord s t id lr tile slot e)
    else .next s

/-- PUSH_MIGRATION: one unpinned record moves to the vtile that LOADG names, within one physical group (R48). DESIGN CHOICE: none
moves when that vtile is no longer resident in the group (log 37). -/
def execPushMigration (tile : Nat) (s : State) : Out :=
  match s.standing tile with
  | none => .next s
  | some (id, lr, v) =>
    match s.team? id with
    | none => .next s
    | some t =>
      let idle := field (s.tile tile).loadg.toNat 0 10
      let q := t.inQueue (.vt lr)
      let near := (s.vtile? id idle).any fun x => x.res && x.ptile / 16 == tile / 16
      if tileWorks s tile v && t.pusht != 0 && t.pusht < q.length && idle != lr && near && !t.qFull (.vt idle) then
        match lastOf (q.filter fun e => e.save.isNone && !recPin e.record) with
        | none => .next s
        | some e =>
          let r := recSet e.record 490 10 idle
          let idx := leastFree ((t.inQueue (.vt idle)).map (·.idx))
          let e' := { e with record := r, target := .vt idle, idx }
          .next ((s.putTeam id { t with queued := t.queued.filter (· != e) ++ [e'] }).commit
            (hbmKey (t.qAddr (.vt idle) + 64 * idx)) (bytesOf 64 r.toNat))
      else .next s

/-- Free strand slots of a tile. -/
def freeSlots (s : State) (tile : Nat) : Nat := ((List.range 8).filter fun i => (s.strandAt tile i).isNone).length

/-- The idlest resident vtile of a team in a physical group: free slots, records and local rank (R47). -/
def idlest (s : State) (t : Team) (id grp : Nat) : Option (Nat × Nat × Nat) :=
  let cs := (List.range t.size).filterMap fun lr =>
    match s.vtile? id lr with
    | some v => if v.res && v.ptile / 16 == grp then some (freeSlots s v.ptile, (t.inQueue (.vt lr)).length, lr) else none
    | none => none
  cs.find? fun c => cs.all fun x => x.1 < c.1 || (x.1 == c.1 && (c.2.1 < x.2.1 || (c.2.1 == x.2.1 && c.2.2 ≤ x.2.2)))

/-- LOADG_REFRESH (R47). -/
def execLoadgRefresh (tile : Nat) (s : State) : Out :=
  match s.standing tile with
  | none => .next s
  | some (id, _, _) =>
    match s.team? id with
    | none => .next s
    | some t =>
      match idlest s t id (tile / 16) with
      | none => .next s
      | some (free, depth, lr) =>
        .next (s.onTile tile fun x =>
          { x with loadg := BitVec.ofNat 64 (pack [10, 14, 20, 4] [lr, 0, min depth 0xFFFFF, free]) })

/-- Whether a strand waits in a WAITGE whose counter is below its target, or at a barrier (R49). -/
def waitsLong (s : State) (tile : Nat) (k : Strand) : Bool :=
  !k.held &&
    match k.wait with
    | .barrier _ _ _ _ => true
    | .waitge o n _ => !s.anyPoison (storeKey tile o) 8 && s.mem.num (storeKey tile o) 8 < n
    | _ => false

/-- The strand that park-on-wait saves: every slot waits, and this one has waited longest (R49). -/
def parkVictim (s : State) (id tile : Nat) : Option (Nat × Strand) :=
  let ks := (List.range 8).filterMap fun i => (s.strandAt tile i).map fun k => (i, k)
  if ks.length = 8 ∧ ks.all (fun c => c.2.team == id && waitsLong s tile c.2) then
    ks.find? fun c => ks.all fun x => c.2.waitSince < x.2.waitSince || (c.2.waitSince == x.2.waitSince && c.1 ≤ x.1)
  else none

/-- PARK_ON_WAIT: once the waits of parked records have been looked at again (R49, R50). -/
def execParkOnWait (tile : Nat) (s : State) : Out :=
  match s.standing tile with
  | none => .next s
  | some (id, lr, v) =>
    let s := recheckWaits s id lr
    match s.team? id with
    | none => .next s
    | some t =>
      if tileWorks s tile v && t.pow && (nextRecord t lr (s.queueClock t)).isSome
          && (t.inQueue (.vt lr)).length < t.cap (.vt lr) then
        match freeSave t v, parkVictim s id tile with
        | some n, some (i, k) =>
          let s := ((s.dropAt tile i).saveInto t n k .park).enqueue id (.vt lr) (resumableRec lr n k.prio) 0 k.prio (some n)
            true
          .next (recheckWaits s id lr)
        | _, _ => .next s
      else .next s

end Sys2Proof.Machine
end

