-- ==== Sys2Proof/Machine/Launch.lean ====
section
/-! DEFINITION. Launching: user queues and their hardware slots (R152 to R157), the launch engine (R158 to R160, R399), gangs
(R161) and the completion of a team (R55, R160). -/

namespace Sys2Proof.Machine

/-! ### A team and its vtiles as launch leaves them -/

/-- A team as it starts (R32, R158, R261). -/
def newTeam (packet : BitVec 1024) (prio queue start area : Nat) (map0 : List Nat) (uids : Table Word) : Team where
  packet := packet
  prio := prio
  queue := queue
  start := start
  area := area
  seq := 1
  ord := 0
  queued := []
  parked := []
  acct := Vector.replicate 21 0
  acctsat := 0
  fqw := 0
  lostc := 0
  lostMark := false
  imbSeq := 0
  rotation := false
  discard := 0
  peersDown := []
  peerUids := uids
  map0 := map0
  drawn := 0

/-- A vtile as launch places it (R125, R185). -/
def newVtile (ptile divIdx : Nat) : Vtile where
  res := true
  ptile := ptile
  accs := Vector.replicate 8 ⟨Vector.replicate 64 0, false, true⟩
  cbs := Vector.replicate 4 0
  curA := 0
  curB := 0
  mq := []
  fstat := 0
  saves := []
  cur := Vector.replicate 4 0
  imbal := 0
  divIdx := divIdx
  div := .resident
  log := none
  logW := 0
  logR := 0
  cutT := 0
  recs := []
  owed := []
  upds := []
  lost := false
  stopped := none
  restoreTo := none
  past := []
  race := ⟨0, [], [], [], []⟩
  cover := []

/-! ### Queue descriptors and rings (R152, R153) -/

/-- HBM address of a queue's descriptor. -/
def descAddr (s : State) (q : Nat) : Nat := s.qdbase.toNat + 64 * q

/-- A queue's descriptor, as it stands (log 8). One that system software has placed beyond HBM reads as zero, and is not valid
(R7; log 19). -/
def desc (s : State) (q : Nat) : Nat := if State.hbmHas (descAddr s q) 64 then s.hbm (descAddr s q) 64 else 0

def descBase (d : Nat) : Nat := field d 448 64
def descSize (d : Nat) : Nat := 2 ^ (field d 444 4 + 4)
def descPrio (d : Nat) : Nat := field d 439 5
def descAsid (d : Nat) : Nat := field d 424 12
def descHtlen (d : Nat) : Nat := field d 404 20
def descQuant (d : Nat) : Nat := if field d 384 16 = 0 then 100 else field d 384 16
def descHtbase (d : Nat) : Nat := field d 320 64

/-- Whether a descriptor is valid: V = 1, its reserved fields are zero, and HBM holds its ring (R7, R152; log 19). DESIGN CHOICE: the
reserved bytes 16 to 127 of the ring's header are not looked at; R4 calls a nonzero one malformed, and R153 names no fault for it
(log 37). -/
def descOk (d : Nat) : Bool :=
  bit d 438 && field d 436 2 == 0 && field d 400 4 == 0 && field d 32 288 == 0
    && State.hbmHas (descBase d) (128 + 128 * descSize d)

/-- WIDX as live, and RIDX (R153). -/
def widx (s : State) (d : Nat) : Nat := s.liveNum (hbmKey (descBase d)) 8
def ridx (s : State) (d : Nat) : Nat := s.mem.num (hbmKey (descBase d + 8)) 8

/-- Counts a packet that left no completion record (R152). -/
def countLost (s : State) (q : Nat) : State :=
  s.hbmPut (descAddr s q) 4 (min (field (desc s q) 0 32 + 1) 0xFFFFFFFF)

/-! ### Ringing and mapping (R154 to R156) -/

/-- READY when the ring holds packets, and IDLE when it holds none. -/
def restState (s : State) (d : Nat) : SlotState := if widx s d = ridx s d then .idle else .ready

/-- Puts a slot whose packet is done into READY or IDLE (R155). -/
def restSlot (s : State) (slot : Nat) : State :=
  match lookup slot s.qslots with
  | none => s
  | some x =>
    let st := restState s (desc s x.queue)
    { s with qslots := insertAt slot { x with st, idleSince := s.now } s.qslots }

/-- Marks a queue rung; a ring that finds it empty does nothing (R154). -/
def ring (s : State) (q : Nat) : State :=
  let d := desc s q
  if descOk d && widx s d == ridx s d then s
  else match s.qslots.find? fun x => x.2.queue == q with
  | some x => if x.2.st = .idle then { s with qslots := insertAt x.1 { x.2 with st := .ready } s.qslots } else s
  | none =>
    if s.pending.any fun p => p.queue == q then s
    else { s with pending := s.pending ++ [⟨q, descPrio d⟩] }

/-- A write to QDOOR; a write in team mode bears the team's ASID (R154). -/
def doorbell (s : State) (asid : Option Nat) (q : Nat) : State :=
  if s.qdlen ≤ q then s
  else match asid with
    | some a => if descOk (desc s q) && descAsid (desc s q) == a then ring s q else s
    | none => ring s q

/-- QDOOR written by a strand of a team (R154). -/
def execQdoor (team : Nat) (v : Word) (s : State) : Out :=
  match s.team? team with
  | none => .next s
  | some t => .next (doorbell s (if t.asid = 0 then none else some t.asid) (field v.toNat 0 16))

/-- Whether the host reaches the package: CXL link 0 is UP (R201). -/
def hostLink (s : State) : Bool := (s.cxlQuad false).any fun q => (s.quad q).st == .up

/-- HOST_DOORBELL_WRITE: a 32-bit access to the doorbell aperture; a write to offset 0 rings, other writes do nothing, and a read
answers zero (R201). -/
def execHostDoorbellWrite (ofs : Nat) (v : Option (BitVec 32)) (s : State) : Out :=
  if !hostLink s then .next s
  else match v with
    | none => .next (s.send (.hostData (bytesOf 4 0)))
    | some v => if ofs = 0 then .next (doorbell s none (field v.toNat 0 16)) else .next s

/-- HOST_HBM_ACCESS: a read answers the committed bytes and a write stores them (R201); engine work that still has to read the
bytes hears of it (R74, R223). -/
def execHostHbmAccess (addr n : Nat) (data : Option (List Byte)) (s : State) : Out :=
  if !hostLink s then .next s
  else match data with
  | none => if State.hbmHas addr n then .next (s.send (.hostData (s.mem.read (hbmKey addr) n))) else .next (s.miss (hbmKey addr))
  | some bs =>
    if State.hbmHas addr bs.length then
      let ks := interval (hbmKey addr) bs.length
      .next (((s.commit (hbmKey addr) bs).touchKeys ks).spoilDone s.doneCopies ks)
    else .next (s.miss (hbmKey addr))

/-- The pending queue that is next: highest PRIO, then the first rung (R154). -/
def nextPending (s : State) : Option Pending := s.pending.find? fun p => s.pending.all fun x => x.prio ≤ p.prio

/-- The slot for a pending queue of a priority (R156). DESIGN CHOICE: of several FREE slots, and of slots idle or mapped equally long,
it is the lowest-numbered (log 36). -/
def slotFor (s : State) (prio : Nat) : Option Nat :=
  let free := (List.range 128).find? fun i => (lookup i s.qslots).isNone
  let idle := s.qslots.filter fun x => x.2.st == .idle
  let old := idle.find? fun x => idle.all fun y => x.2.idleSince ≤ y.2.idleSince
  let spent := s.qslots.filter fun x => x.2.st == .ready && x.2.expired && x.2.prio ≤ prio
  let low := spent.find? fun x => spent.all fun y => x.2.prio < y.2.prio || (x.2.prio == y.2.prio && x.2.mapped ≤ y.2.mapped)
  free.or ((old.map (·.1)).or (low.map (·.1)))

/-- QUEUE_SLOT_MAP: a pending queue takes a slot; a queue that loses one returns to the list as rung (R155, R156). -/
def execQueueSlotMap (s : State) : Out :=
  match nextPending s with
  | none => .next s
  | some p =>
    match slotFor s p.prio with
    | none => .next s
    | some i =>
      let rest := s.pending.filter (· != p)
      let back := match lookup i s.qslots with
        | some x => if x.st = .ready then rest ++ [⟨x.queue, x.prio⟩] else rest
        | none => rest
      .next { s with pending := back, qslots := insertAt i ⟨.load, p.queue, p.prio, s.now, s.now, false⟩ s.qslots }

/-- DESCRIPTOR_LOAD: the descriptor and the ring header are read (R155). -/
def execDescriptorLoad (slot : Nat) (s : State) : Out :=
  match lookup slot s.qslots with
  | none => .next s
  | some x =>
    let d := desc s x.queue
    if x.st ≠ .load then .next s
    else if !descOk d then .next { s with qslots := eraseAt slot s.qslots }
    else .next { s with qslots := insertAt slot { x with st := restState s d, prio := descPrio d, idleSince := s.now } s.qslots }

/-- QUANTUM_EXPIRY: the quantum of a slot has run since it was mapped (R156). -/
def execQuantumExpiry (slot : Nat) (s : State) : Out :=
  match lookup slot s.qslots with
  | none => .next s
  | some x =>
    if x.st = .load ∨ s.now < x.mapped + 1000 * descQuant (desc s x.queue) then .next s
    else .next { s with qslots := insertAt slot { x with expired := true } s.qslots }

/-! ### Records of a team that ends (R160, R268, R269) -/

/-- An entry of an ASID's table that passes R62 for a packet's handle. -/
def packetEntry (s : State) (t : Team) (h lo n : Nat) (spaces : List Nat) (p : Perm) : Option HEntry :=
  match s.entryNow t h with
  | some e => if spaces.contains e.space && lo + n ≤ e.len && e.grants p then some e else none
  | none => none

/-- DONEH and DONEOFS of a packet. -/
def Team.doneh (t : Team) : Nat := t.f 352 32
def Team.doneofs (t : Team) : Nat := t.f 320 32

/-- Writes a completion record where DONEH says, or counts the packet lost when DONEH fails (R160); behind a CXL link that retrains
the record waits (R204). -/
def putRecord (s : State) (t : Team) (bs : List Byte) : State :=
  match packetEntry s t t.doneh t.doneofs 64 [4, 6] .w with
  | none => countLost s t.queue
  | some e =>
    if e.space = 6 ∧ s.cxlWaits e t.doneofs 64 then { s with doneRecs := s.doneRecs ++ [(t.queue, t.packet, bs)] }
    else if e.space = 6 ∧ !s.cxlOk e t.doneofs 64 then countLost s t.queue
    else s.commit (e.key 0 t.doneofs) bs

/-- Writes the completion record (R160). -/
def completionRecord (s : State) (t : Team) (status start faults discard defdrop : Nat) : State :=
  putRecord s t (bytesOf 64
    (pack [1, 39, 8, 16, 192, 32, 32, 64, 64, 64] [1, 0, status, t.teamid, 0, min defdrop 0xFFFFFFFF, min discard 0xFFFFFFFF, min faults (2 ^ 64 - 1), start,
      s.now]))

/-- Completion records that have waited are offered again, once a link has come up or gone down (R204). -/
def sendRecords (s : State) : State :=
  s.doneRecs.foldl (fun s r => putRecord s (newTeam r.2.1 0 r.1 0 0 [] []) r.2.2) { s with doneRecs := [] }

/-- A signed record: its bytes and the signature, r and then s (R266). -/
def signed (bs : List Byte) : List Byte := bs ++ bytesOf 96 (Config.sign bs).toNat

/-- A counter snapshot (R268). DESIGN CHOICE: SNAPSEQ is the count of those before it, so that the first bears 0 (log 36). -/
def counterRecord (s : State) (t : Team) (nonce : List Byte) : List Byte :=
  signed (bytesOf 4 0x50414E53 ++ bytesOf 2 1 ++ bytesOf 2 t.teamid ++ bytesOf 2 t.asid ++ bytesOf 6 0
    ++ bytesOf 8 packageUid.toNat ++ bytesOf 8 s.now ++ nonce ++ bytesOf 8 s.snapSeq ++ bytesOf 8 t.acctsat.toNat
    ++ t.acct.toList.flatMap (bytesOf 8) ++ bytesOf 24 0)

/-- Writes bytes to HBM outside any exchange; beyond HBM nothing is written (R7; log 19). -/
def hbmBytes (s : State) (a : Nat) (bs : List Byte) : State := if State.hbmHas a bs.length then s.commit (hbmKey a) bs else s

/-- The final snapshot of a team that completes (R269). -/
def finalSnapshot (s : State) (t : Team) : State :=
  let f := s.fsnap.toNat
  if bit f 63 then
    { (hbmBytes s (field f 12 40 * 2 ^ 12 + 384 * (s.snapSeq % 2 ^ field f 0 5)) (counterRecord s t (bytesOf 48 0))) with
      snapSeq := s.snapSeq + 1 }
  else s

/-! ### Checking a packet (R158, R159) -/

/-- The fields of a packet that step 1 calls malformed. -/
def packetMalformed (t : Team) : Bool :=
  let gang := t.f 416 32
  let kind := t.f 60 4
  t.f 384 32 != 0 || t.f 84 2 != 0 || t.f 48 2 != 0 || t.f 0 12 != 0 || 2 ≤ kind
    || (kind == 0 && (t.f 448 64 != 0 || gang != 0 || t.nP != 1)) || (kind == 1 && gang == 0)
    || t.nsave < 8 || 12 < t.f 280 4 || t.doneofs % 64 != 0 || t.nP ≤ t.pc
    || 2 ^ 20 < t.size * t.vqCap + t.nD * t.nG * t.gqCap + t.pqCap + t.ppCap

/-- ENTRY of a packet (R158). -/
def entryRec (t : Team) : BitVec 512 := BitVec.ofNat 512 (t.f 512 512)

/-- The status that step 1 of R159 gives a packet; 0 when it passes. -/
def packetStatus (s : State) (t : Team) (d : Nat) : Nat :=
  let r := entryRec t
  let live := (s.team? t.teamid).isSome || s.launches.any fun l => field l.packet.toNat 16 16 == t.teamid
  let ofs := t.f 288 32 * 4096
  if packetMalformed t || recMalformed t r (2 ^ 64) then 1
  else if t.asid != descAsid d || t.htbase != descHtbase d || t.htlen != descHtlen d then 2
  else if live then 3
  else match packetEntry s t t.codeh 0 0 [2, 3, 4] .x, packetEntry s t (t.f 192 32) ofs t.areaEnd [4] .rw with
    | some c, some _ => if jcellMalformed s t r then 4 else if recMalformed t r c.len then 1 else 0
    | _, _ => 4

/-! ### Choosing tiles (R14, R16, R159; log 14) -/

/-- Lays a team out over tiles that may be taken: D dies, G groups in each and T tiles in each group, the lowest first; the
tiles by local rank. -/
def layout (t : Team) (ok : Nat → Bool) : Option (List Nat) :=
  let mask := t.f 12 4
  let groups (d : Nat) : List (List Nat) :=
    (List.range 16).filterMap fun g =>
      let ts := (interval (256 * d + 16 * g) 16).filter ok
      if t.nT ≤ ts.length then some (ts.take t.nT) else none
  let dies := (List.range 4).filterMap fun d =>
    if mask = 0 ∨ bit mask d then
      let gs := groups d
      if t.nG ≤ gs.length then some (gs.take t.nG) else none
    else none
  if t.nD ≤ dies.length then some ((dies.take t.nD).flatMap List.flatten) else none

/-- Whether the package has a tile: its site works, or a spare stands for it (R14). -/
def tileThere (s : State) (i : Nat) : Bool := (s.lostSite.toList.getD (i / 16) none).map (·.val) != some (i % 16)

/-- Whether a tile serves no team now. -/
def tileFree (s : State) (i : Nat) : Bool :=
  let x := s.tile i
  x.owner.isNone && !x.reserved && !x.fenced && tileThere s i

/-- Diversion entries in use: a lost vtile's has fallen free (R178, R185). -/
def divUsed (s : State) : List Nat := (s.vtiles.filter fun v => !v.2.lost).map (·.2.divIdx)

/-- The tiles for a packet now; a team also needs its diversion entries (R185). -/
def tilesNow (s : State) (t : Team) : Option (List Nat) :=
  if (divUsed s).length + t.size ≤ 16384 then layout t (tileFree s) else none

/-! ### Starting, waiting, refusing -/

/-- Puts vtile `lr` of a team on a tile (R27, R185). The tile store begins as zeros (log 6). DESIGN CHOICE: LOADG on the tile keeps what
it held until the next refresh, be it another team's (R47; log 37). -/
def placeVtile (id : Nat) (s : State) (x : Nat × Nat) : State :=
  let (ptile, lr) := x
  let idx := leastFree (divUsed s)
  let s := { s with mem := s.mem.clear (storeKey ptile 0) storeSize }
  let s := s.clearPoison (granulesWhole (storeKey ptile 0) storeSize)
  let s := (s.putVtile id lr (newVtile ptile idx)).onTile ptile fun y => { y with owner := some (id, lr), reserved := false }
  s.putDivEntry id lr

/-- The entry of a packet's team area, where AREAH passes R62 now (R159). -/
def areaEntry (s : State) (t : Team) : Option HEntry := s.entryNow t (t.f 192 32)

/-- Step 4 of R159: the team map, the vtiles, empty queues and ENTRY. Tiles that a gang member has held are charged for that
time (R262). -/
def startTeam (s : State) (l : Launch) (e : HEntry) (tiles : List Nat) (start : Nat) (uids : Table Word) : State :=
  let base := newTeam l.packet (min (field l.packet.toNat 55 5) l.prio) l.queue start 0 tiles uids
  let id := base.teamid
  let s := { s with units := s.units.filter fun u => u.1 / 8192 != id }
  let s := s.putTeam id { base with area := e.base + base.f 288 32 * 4096 }
  let s := tiles.zipIdx.foldl (placeVtile id) s
  let s := if l.tiles.isSome then s.account id 17 (tiles.length * (s.now - l.since)) else s
  (s.spawnRec id (entryRec base)).2

/-- A packet is refused: its record is written, and a gang hears of it when it must (R160, R161). What the package has heard of
the gang goes with the packet. -/
def refuse (s : State) (l : Launch) (status : Nat) (abort : Bool) : State :=
  let t := newTeam l.packet 0 l.queue 0 0 [] []
  let g := t.f 416 32
  let s := if t.f 60 4 == 1 && g != 0 then
      let s := { s with gangs := eraseAt g s.gangs }
      if abort then s.tellPeers t.teamid (State.others t) fun q z => .gangAbort q z t.teamid g else s
    else s
  completionRecord s t status 0 0 0 0

/-- A packet with the bindings of its queue's descriptor in place of its own, so that a refusal is reported through the
descriptor's handle table (R159, R160). -/
def boundPacket (p : BitVec 1024) (d : Nat) : BitVec 1024 :=
  BitVec.ofNat 1024 (setField (setField (setField p.toNat 128 64 (descHtbase d)) 116 12 (descAsid d)) 96 20 (descHtlen d))

/-- Whether a packet is a gang member's, its gang and its TICK. -/
def Launch.isGang (l : Launch) : Bool := field l.packet.toNat 60 4 == 1
def Launch.gang (l : Launch) : Nat := field l.packet.toNat 416 32
def Launch.tick (l : Launch) : Nat := field l.packet.toNat 448 64

/-- Sends READY to every other member (R161, R270). -/
def sendReady (s : State) (l : Launch) : State :=
  let t := newTeam l.packet 0 0 0 0 [] []
  s.tellPeers t.teamid (State.others t) fun q z => .gangReady q z t.teamid l.gang t.pc packageUid

/-- Changes the state of a slot. -/
def setSlot (s : State) (slot : Nat) (st : SlotState) : State :=
  match lookup slot s.qslots with
  | some x => { s with qslots := insertAt slot { x with st } s.qslots }
  | none => s

/-- Gives a packet its tiles: a team starts, and a gang member keeps them, with its slot ACTIVE, until TICK (R155, R159, R161).
A team whose AREAH no longer passes is refused with 0x04. DESIGN CHOICE: R159 checks the packet once and does not say what
happens to it when the entry goes while it waits (log 36). -/
def grant (s : State) (l : Launch) (tiles : List Nat) : State :=
  let s := { s with launches := s.launches.filter (· != l) }
  if l.isGang then
    let s := { s with launches := s.launches ++ [{ l with tiles := some tiles, since := s.now }] }
    let s := tiles.foldl (fun s i => s.onTile i fun y => { y with reserved := true }) s
    sendReady (setSlot s l.slot .active) l
  else match areaEntry s (newTeam l.packet 0 l.queue 0 0 [] []) with
    | some e => restSlot (startTeam s l e tiles s.now []) l.slot
    | none => restSlot (refuse s l 4 true) l.slot

/-- What a package has heard of a gang. -/
def gangOf (s : State) (g : Nat) : Gang := (lookup g s.gangs).getD ⟨[], false⟩

/-- Steps 2 and 3 of R159 for a packet that passed step 1. -/
def allocate (s : State) (l : Launch) : State :=
  let t := newTeam l.packet 0 l.queue 0 0 [] []
  if (layout t (tileThere s)).isNone then restSlot (refuse s l 5 true) l.slot
  else if l.isGang && l.tick < s.now + 10000 then restSlot (refuse s l 6 true) l.slot
  else if l.isGang && (gangOf s l.gang).aborted then restSlot (refuse s l 7 false) l.slot
  else
    let ahead := s.launches.any fun x => x.tiles.isNone && l.prio ≤ x.prio
    match if ahead then none else tilesNow s t with
    | some tiles => grant s l tiles
    | none =>
      setSlot { s with launches := s.launches ++ [l] } l.slot .wait

/-- The READY slot that the launch engine takes: the highest PRIO, round robin within it (R157). DESIGN CHOICE: at a PRIO that has
not been served yet the round begins at the lowest-numbered slot (log 36). -/
def nextReady (s : State) : Option (Nat × QSlot) :=
  let rs := s.qslots.filter fun x => x.2.st == .ready
  let top := rs.filter fun x => rs.all fun y => y.2.prio ≤ x.2.prio
  match top with
  | [] => none
  | x :: _ =>
    let last := lookup x.2.prio s.served
    match last with
    | none => some x
    | some n => some ((top.find? fun y => n < y.1).getD x)

/-- LAUNCH_PACKET: the launch engine takes the head packet of a READY slot and checks it (R153, R157, R159). A slot whose
descriptor is valid no more falls free, as at its loading (log 8). -/
def execLaunchPacket (s : State) : Out :=
  match nextReady s with
  | none => .next s
  | some (slot, x) =>
    let d := desc s x.queue
    if !descOk d then .next { s with qslots := eraseAt slot s.qslots }
    else
      let i := ridx s d
      let packet : BitVec 1024 :=
        BitVec.ofNat 1024 (s.mem.num (hbmKey (descBase d + 128 + 128 * (i % descSize d))) 128)
      let s := s.commit (hbmKey (descBase d + 8)) (bytesOf 8 (i + 1))
      let s := { s with
        served := insertAt x.prio slot s.served
        qslots := insertAt slot { x with st := .active } s.qslots }
      let l : Launch := ⟨slot, x.queue, packet, x.prio, none, 0⟩
      let st := packetStatus s (newTeam packet 0 x.queue 0 0 [] []) d
      .next (if st = 0 then allocate s l else restSlot (refuse s { l with packet := boundPacket packet d } st true) slot)

/-- The waiting packet that tiles go to first: the highest PRIO, then the earliest (R159). -/
def nextWaiting (s : State) : Option Launch :=
  let ws := s.launches.filter fun l => l.tiles.isNone
  ws.find? fun l => ws.all fun x => x.prio ≤ l.prio

/-- TILE_GRANT: tiles that fell free go to the first waiting packet (R159). -/
def execTileGrant (s : State) : Out :=
  match nextWaiting s with
  | none => .next s
  | some l =>
    if l.isGang && l.tick < s.now + 10000 then .next s
    else match tilesNow s (newTeam l.packet 0 0 0 0 [] []) with
      | none => .next s
      | some tiles => .next (grant s l tiles)

/-! ### Gangs (R161) -/

/-- Takes a gang member out: its tiles or its place are released, and its packet is refused. -/
def quitGang (s : State) (l : Launch) (status : Nat) (abort : Bool) : State :=
  let s := { s with launches := s.launches.filter (· != l) }
  let s := (l.tiles.getD []).foldl (fun s i => s.onTile i fun y => { y with reserved := false }) s
  restSlot (refuse s l status abort) l.slot

/-- GANG_DEADLINE: TICK − 10,000 ns passes for a member without tiles. -/
def execGangDeadline (slot : Nat) (s : State) : Out :=
  match s.launches.find? fun l => l.slot == slot && l.tiles.isNone && l.isGang with
  | none => .next s
  | some l => if l.tick < s.now + 10000 then .next (quitGang s l 6 true) else .next s

/-- The packet of a gang that waits or holds its tiles here. -/
def gangLaunch (s : State) (gang : Nat) : Option Launch := s.launches.find? fun l => l.isGang && l.gang == gang

/-- Whether TICK of a gang has passed here: what comes later is not heeded (R161). -/
def tickGone (s : State) (gang : Nat) : Bool := (gangLaunch s gang).any fun l => l.tick < s.now

/-- GANG_READY from another member, with its PEERUID (R161, R270). -/
def execGangReady (gang pkg : Nat) (uid : Word) (s : State) : Out :=
  if tickGone s gang then .next s
  else
    let g := gangOf s gang
    .next { s with gangs := insertAt gang { g with heard := insertAt pkg uid g.heard } s.gangs }

/-- GANG_ABORT from another member (R161). -/
def execGangAbort (gang : Nat) (s : State) : Out :=
  if tickGone s gang then .next s
  else
    let g := gangOf s gang
    let s := { s with gangs := insertAt gang { g with aborted := true } s.gangs }
    match gangLaunch s gang with
    | none => .next s
    | some l => if s.now < l.tick then .next (quitGang s l 7 false) else .next s

/-- GANG_TICK: at TICK a member that heard every other one starts, and one that did not refuses (R161). DESIGN CHOICE: an ABORT that
arrives in the nanosecond TICK itself is held and refuses the member with 0x07, be some other member unheard or not (log 37). -/
def execGangTick (gang : Nat) (s : State) : Out :=
  match s.launches.find? fun l => l.isGang && l.gang == gang && l.tiles.isSome with
  | none => .next s
  | some l =>
    if s.now < l.tick then .next s
    else
      let t := newTeam l.packet 0 0 0 0 [] []
      let g := gangOf s gang
      let all := (List.range t.nP).all fun p => p == t.pc || (lookup p g.heard).isSome
      if all && !g.aborted then
        match areaEntry s t with
        | some e =>
          let s := { s with launches := s.launches.filter (· != l), gangs := eraseAt gang s.gangs }
          .next (restSlot (startTeam s l e (l.tiles.getD []) l.tick g.heard) l.slot)
        | none => .next (quitGang s l 4 true)
      else .next (quitGang s l (if g.aborted then 7 else 8) false)

/-! ### The end of a team (R55) -/

/-- Whether a phase of a team is full, so that its exchange and its completion are under way (R55, R87). -/
def phaseRuns (s : State) (id : Nat) (t : Team) : Bool :=
  s.units.any fun u =>
    u.1 / 8192 == id && match Scope.ofCode (u.1 / 1024 % 8), lookup u.2.step u.2.phases with
      | some l, some p => phaseFull t l (u.1 % 1024) p p.peers
      | _, _ => false

/-- Whether a team's work in this package is over (R55). Deferred writes that an exchange has sent to peers are no longer
waiting for it. -/
def teamIdle (s : State) (id : Nat) (t : Team) : Bool :=
  !(s.strands.any fun k => k.2.team == id)
    && (List.range t.size).all (fun lr => match s.vtile? id lr with
      | some v => v.saves.isEmpty && v.owed.isEmpty
      | none => true)
    && t.queued.isEmpty && !(t.parked.any fun p => p.released.isSome)
    && !(s.copies.any fun c => c.2.who.team == id && (c.2.step.isNone || c.2.pending != 0))
    && !(s.reds.any fun r => r.2.who.team == id && r.2.pending != 0) && !phaseRuns s id t
    && !(s.landings.any fun l => l.2.who.team == id) && !(s.incs.any fun i => i.2.who.team == id)
    && !(s.amos.any fun a => a.2.who.team == id) && !(s.stats.any fun a => a.2.who.team == id)
    && !(s.graphs.any fun g => g.2.who.team == id && g.2.st == .loading)
    && s.runs.all fun r => r.2.who.team != id || r.2.st == .complete || r.2.st == .failed

/-- Releases everything that a team held, the tiles that restores of it have reserved among it (R55, R179). -/
def releaseTeam (s : State) (id : Nat) (t : Team) : State :=
  let waits := s.vtiles.filterMap fun v => if v.1 / 1024 = id then v.2.restoreTo.map (·.1) else none
  let s := (List.range t.size).foldl (fun s lr =>
    (s.onVtile id lr fun v => { v with div := .free }).putDivEntry id lr) s
  let s := s.forgetUnits id
  State.settleOrder { s with
    teams := eraseAt id s.teams
    vtiles := s.vtiles.filter fun v => v.1 / 1024 != id
    units := s.units.filter fun u => u.1 / 8192 != id
    copies := s.copies.filter fun c => c.2.who.team != id
    doneCopies := s.doneCopies.filter fun c => c.who.team != id
    reds := s.reds.filter fun r => r.2.who.team != id
    fills := s.fills.filter fun f => f.2.who.team != id
    hops := (List.range t.size).foldl (fun h lr => eraseAt (imageHop (vtileKey id lr)) (eraseAt (logHop (vtileKey id lr)) h)) s.hops
    kept := if (eraseAt id s.teams).all fun c => c.2.nP == 1 then []
      else s.kept.map fun k => if k.team = id then { k with pod := false } else k
    graphs := s.graphs.filter fun g => g.2.who.team != id
    runs := s.runs.filter fun r => r.2.who.team != id
    staging := s.staging.filter fun c => c.far || c.team != id
    vreports := s.vreports.filter fun v => v.1.far || v.1.team != id
    tiles := s.tiles.map fun x =>
      let y := match x.2.owner with
        | some o => if o.1 = id then { x.2 with owner := none } else x.2
        | none => x.2
      (x.1, if waits.contains x.1 then { y with reserved := false } else y) }

/-- TEAM_COMPLETION: a team whose work is over in every package ends; the event says that the other packages' work is (R55,
R160, R218, R269; log 1). -/
def execTeamCompletion (id : Nat) (s : State) : Out :=
  match s.team? id with
  | none => .next s
  | some t =>
    if teamIdle s id t then
      let drop := (s.copies.filter fun c => c.2.who.team == id).length + (s.reds.filter fun r => r.2.who.team == id).length
      let s := finalSnapshot s t
      .next (releaseTeam (completionRecord s t 0 t.start t.fqw (t.discard + t.parked.length) drop) id t)
    else .next s

end Sys2Proof.Machine
end

