-- ==== Sys2Proof/Machine/Divert.lean ====
section
/-! DEFINITION. Vacating, diverting and restoring vtiles (R179 to R193), rotation (R182), and the loss of a vtile (R177,
R178). -/

namespace Sys2Proof.Machine

/-! ### The loss of a vtile (R177, R178) -/

/-- Whether an operation of a vtile has not left its tile: a copy with chunks to move that no home has accepted. -/
def CopyOp.atTile (c : CopyOp) : Bool := !c.accepted && chunkElems (shFormat c.src) * c.chunk < shCount c.src

/-- Whether an AMO or RED has left its tile: its packet is between dies, or a peer has been asked for it (R178). DEDUCED (log 25). -/
def State.underWay (s : State) (n : Nat) : Bool :=
  (lookup n s.hops).isSome || s.remotes.any fun r => match r.2.wait with
    | .amo i => i == n
    | .red is => is.contains n
    | _ => false

/-- Removes everything of a vtile that its loss releases or discards (R178). -/
def dropVtile (s : State) (t : Team) (id lr : Nat) (v : Vtile) : State :=
  let mine (w : Issuer) : Bool := w.team == id && w.lrank == lr
  let gone := (t.inQueue (.vt lr)).length + (t.parked.filter fun p => p.released.isSome && p.target == .vt lr).length
  let s := (List.range 9).foldl (fun s i =>
    match s.strandAt v.ptile i with
    | some k => if v.res && k.team == id && k.lrank == lr then s.dropAt v.ptile i else s
    | none => s) s
  let s := s.putTeam id { t with
    queued := t.queued.filter fun e => e.target != .vt lr
    parked := t.parked.filter fun p => !(p.released.isSome && p.target == .vt lr)
    discard := t.discard + gone }
  let s := s.putVtile id lr { v with
    res := false, saves := [], mq := [], past := [], div := .free, log := none, recs := [], owed := [], stopped := none
    restoreTo := none }
  let s := (s.putDivEntry id lr).onVtile id lr fun v => { v with lost := true }
  { s with
    doneCopies := s.doneCopies.filter fun c => !mine c.who
    copies := s.copies.filter fun c => !(mine c.2.who && c.2.atTile)
    amos := s.amos.filter fun a => !(mine a.2.who && !s.underWay a.1)
    reds := s.reds.filter fun r => !(mine r.2.who && !r.2.accepted && !s.underWay r.1)
    hops := eraseAt (imageHop (vtileKey id lr)) (eraseAt (logHop (vtileKey id lr)) s.hops)
    tiles := s.tiles.map fun x =>
      let x' := if x.2.owner = some (id, lr) then
          { x.2 with owner := none, port := [], serving := none, matches_ := [], skip := [] } else x.2
      (x.1, if (v.restoreTo.map (·.1)) = some x.1 then { x' with reserved := false } else x')
    units := s.units.map fun u =>
      if u.1 / 8192 = id then
        (u.1, { u.2 with stalled := u.2.stalled.filter fun x => !(x.lrank == lr && x.kind != .forced) })
      else u }

/-- A vtile is lost: what it holds goes, the record is written, and its arrivals are forced (R94, R177, R178, R193). A record
of 0x81 has no ADDR (R171). -/
def loseVtile (s : State) (id lr cause : Nat) : State :=
  match s.team? id, s.vtile? id lr with
  | some t, some v =>
    if v.lost then s
    else
      let s := dropVtile s t id lr v
      let s := (s.writeFault id lr
        { pc := 0, word := 0, addr := if cause = 0x81 then 0 else BitVec.ofNat 64 v.ptile, info := 0, info2 := 0, rank := t.rank lr, slot := 0, cause
          save := 0xFF, prio := 0, forced := true, held := false, oabs := false, iabs := true, eng := true }).2
      let s := [Scope.grp, .die, .pkg, .pod].foldl (fun s l => forceLost s t l (t.unitOf l lr)) s
      s.settleOrder
  | _, _ => s

/-- Restores that were to take a tile which is out of service now are given up, and so are those of their order (R178,
R179). -/
def dropRestores (s : State) (out : Nat → Bool) : State :=
  State.settleOrder { s with vtiles := s.vtiles.map fun v =>
    if (v.2.div == .saving || v.2.div == .diverting || v.2.div == .cut) && v.2.restoreTo.any fun r => out r.1 then
      (v.1, { v.2 with restoreTo := none })
    else v }

/-! ### Orders (R179) -/

/-- The vtiles of a team that an order may take, in ascending local rank. -/
def orderable (s : State) (t : Team) (id : Nat) (v : Word) (ok : Vtile → Bool) : List Nat :=
  (List.range t.size).filter fun lr =>
    match s.vtile? id lr with
    | some x => !x.lost && ok x && (!bit v.toNat 22 || x.ptile / 16 == field v.toNat 16 6)
    | none => false

/-- A vacate: the vtiles of highest local rank are to stop, those that a rotation has stopped among them (R179, R180). -/
def vacateSome (s : State) (t : Team) (id : Nat) (v : Word) : State :=
  let ls := (orderable s t id v fun x => x.div == .resident || x.div == .restoring).reverse
  (ls.take (field v.toNat 0 11)).foldl (fun s lr =>
    let (n, s) := s.number
    s.onVtile id lr fun x => { x with stopped := some n }) s

/-- The lowest free tile of a physical group (R179; log 14). -/
def freeTileIn (s : State) (grp : Nat) : Option Nat := (interval (16 * grp) 16).find? (tileFree s)

/-- The tile that a restore gives a vtile: the one that a rotation has named for it already, or a free one of its group (R179,
R182). -/
def restoreTile (s : State) (x : Vtile) : Option Nat :=
  match x.restoreTo with
  | some r => some r.1
  | none => freeTileIn s (x.ptile / 16)

/-- A restore: parked vtiles of lowest local rank are given free tiles of the groups they last stood in, those that a rotation has
named among them (R16, R179). -/
def restoreSome (s : State) (t : Team) (id : Nat) (v : Word) : State :=
  let ls := orderable s t id v fun x => x.div == .saving || x.div == .diverting
  (ls.foldl (fun (p : State × Nat) lr =>
    if p.2 = 0 then p
    else
      match (p.1.vtile? id lr).bind (restoreTile p.1) with
      | none => p
      | some i =>
        let q := p.1.number
        ((q.2.onTile i fun y => { y with reserved := true }).onVtile id lr fun x => { x with restoreTo := some (i, q.1) },
          p.2 - 1)) (s, field v.toNat 0 11)).1

/-- A write to VACATE: an order starts unless one is in progress (R179). -/
def vacateOrder (s : State) (v : Word) : State :=
  if bit s.vacateReg.toNat 63 || !bit v.toNat 63 then s
  else
    let lo := s.fresh
    let id := field v.toNat 32 16
    let s := { s with vacateReg := 0x8000000000000000 }
    let s := match s.team? id with
      | none => s
      | some t =>
        match field v.toNat 61 2 with
        | 0 => vacateSome s t id v
        | 1 => restoreSome s t id v
        | 2 => s.putTeam id { t with rotation := true }
        | _ => s.putTeam id { t with rotation := false }
    State.settleOrder { s with orderReqs := (lo, s.fresh) }

/-- VACATE: a write to the register with OP 0 (R179). -/
def execVacate (v : Word) (s : State) : Out := if field v.toNat 61 2 = 0 then .next (vacateOrder s v) else .next s

/-- RESTORE: a write with OP 1 (R179). -/
def execRestore (v : Word) (s : State) : Out := if field v.toNat 61 2 = 1 then .next (vacateOrder s v) else .next s

/-- ENABLE_ROTATION: a write with OP 2 (R179, R182). -/
def execEnableRotation (v : Word) (s : State) : Out :=
  if field v.toNat 61 2 = 2 then .next (vacateOrder s v) else .next s

/-- DISABLE_ROTATION: a write with OP 3 (R179, R182). -/
def execDisableRotation (v : Word) (s : State) : Out :=
  if field v.toNat 61 2 = 3 then .next (vacateOrder s v) else .next s

/-! ### Logs (R189) -/

/-- The lowest log that no entry holds. -/
def freeLog (s : State) : Option Nat := (List.range 64).find? fun i => !s.vtiles.any fun v => v.2.log == some i

/-- Whether an entry of the matrix queue is an ALD or ASCALE that has started: the cut waits for it (R301). -/
def MEntry.underWay (e : MEntry) : Bool :=
  e.started && match e.op with
    | .ald _ _ | .ascale _ _ _ _ => true
    | _ => false

/-- Whether only a log is wanting for the cut of a stopped vtile: it is resident on a tile that runs, and no ALD or ASCALE is
under way (R180, R246, R301). -/
def cutDue (s : State) (v : Vtile) : Bool :=
  v.div == .resident && (s.tile v.ptile).dbg == .running && !v.mq.any MEntry.underWay

/-- Whether a tile can take the vtile of a restore: nothing stands on it, and it runs (R185, R246). DESIGN CHOICE: R246 speaks of
rotation alone; a restore by order waits for a halted tile to run, too (log 29). -/
def tileTakes (x : Tile) : Bool := x.owner.isNone && !x.fenced && x.dbg == .running

/-- Requests that wait for a log: vacates of resident vtiles, and restores of diverted ones whose tile is free (R180). -/
def logWaiters (s : State) : List Nat :=
  s.vtiles.filterMap fun v =>
    match v.2.div with
    | .resident => if cutDue s v.2 then v.2.stopped else none
    | .diverting => match v.2.restoreTo with
      | some (i, n) => if tileTakes (s.tile i) then some n else none
      | none => none
    | _ => none

/-- Whether a request is the first of those that wait for a log. -/
def firstWaiter (s : State) (n : Nat) : Bool := (logWaiters s).all fun m => n ≤ m

/-! ### The cut (R180, R187) -/

/-- The wait that a vacate saves (R180): one that executes again at its instruction is kept only for its wait state. -/
def Wait.vacated : Wait → Wait
  | .fifth | .fence | .limit | .htinv _ => .none
  | w => w

/-- Saves the strand of slot `i` of a vtile into save slot `i`; a stalled arrival is withdrawn (R180). -/
def cutStrand (t : Team) (ptile : Nat) (s : State) (i : Nat) : State :=
  match s.strandAt ptile i with
  | none => s
  | some k =>
    let s := if k.wait = .fifth then
        { s with units := s.units.map fun u =>
            if u.1 / 8192 = t.teamid then
              (u.1, { u.2 with stalled := u.2.stalled.filter fun x => !(x.uid == k.uid && x.kind != .forced) })
            else u }
      else s
    (s.dropAt ptile i).saveInto t i { k with wait := k.wait.vacated } .vacate

/-- VACATE_CUT: a stopped vtile is cut when a log is free, and the saving begins in the next cycle (R180, R185, R187, R189).
A handler in the shadow slot is abandoned (log 25). -/
def execVacateCut (id lr : Nat) (s : State) : Out :=
  match s.team? id, s.vtile? id lr with
  | some t, some v =>
    match v.stopped, freeLog s with
    | some n, some g =>
      if !cutDue s v || !firstWaiter s n then .next s
      else
        let s := (List.range 8).foldl (cutStrand t v.ptile) s
        let s := (s.dropAt v.ptile 8).onTile v.ptile fun x =>
          { x with port := [], serving := none, matches_ := [], skip := [] }
        let s := s.onVtile id lr fun v =>
          { v with res := false, div := .cut, log := some g, logW := 0, logR := 0, recs := [], owed := [], cutT := s.now }
        .next (s.putDivEntry id lr)
    | _, _ => .next s
  | _, _ => .next s

/-! ### The vtile image (R183, R184) -/

/-- Copies a tile store with its poison marks. -/
def copyStore (s : State) (src dst : Nat) : State :=
  let bad := (s.poison.filter fun g => src / 64 ≤ g && g < (src + storeSize) / 64).map fun g => g - src / 64 + dst / 64
  let s := { s with mem := s.mem.copyRange src dst storeSize }
  let s := (s.settleLive dst storeSize).clearPoison (granulesWhole dst storeSize)
  s.markPoison bad

/-- The bytes of the accumulators in an image (R183). -/
def accBytes (v : Vtile) : List Byte := v.accs.toList.flatMap fun a => a.rows.toList.flatMap fun r => bytesOf 256 r.toNat

/-- A matrix-queue entry (R184; log 17): its word, the shape records it captured, completed k and its valid mark. How the
device writes the vectors that an ASCALE captured is its own, so that those bytes are free. -/
def entryBytes (s : State) (id : Nat) (x : MEntry × Nat) : List Byte :=
  let e := x.1
  let caught := match e.op with
    | .mma _ a b _ => bytesOf 32 a.toNat ++ bytesOf 32 b.toNat ++ bytesOf 48 (2 * e.bufB + e.bufA)
    | .ald _ a => bytesOf 32 a.toNat ++ bytesOf 80 0
    | .ascale _ _ _ _ => (List.range 14).flatMap fun i => bytesOf 8 (s.freeWordAt id (14 * x.2 + i)).toNat
    | _ => bytesOf 112 0
  bytesOf 8 e.who.word.toNat ++ caught ++ bytesOf 4 e.kdone ++ bytesOf 4 1

/-- The control block (R184). -/
def controlBlock (s : State) (t : Team) (id lr : Nat) (v : Vtile) : List Byte :=
  let flags (f : Acc → Bool) : Nat := ofLanes 1 (v.accs.toList.map fun a => (f a).nat)
  let u := s.unit id .tile lr
  let slot (i : Nat) : List Byte :=
    match lookup i v.saves with
    | some x => if x.why = .vacate then bytesOf 8 (i + 256 * x.held.nat) else bytesOf 8 0xFF
    | none => bytesOf 8 0xFF
  bytesOf 8 (pack [8, 8, 1, 1] [flags (·.rns), flags (·.full), v.curA, v.curB]) ++ bytesOf 8 v.fstat.toNat
    ++ v.cbs.toList.flatMap (fun c => bytesOf 16 c.toNat) ++ (List.range 4).flatMap (phaseBytes t u lr)
    ++ (List.range 8).flatMap slot ++ v.mq.zipIdx.flatMap (entryBytes s id) ++ bytesOf (128 * (16 - v.mq.length)) 0
    ++ (List.range 255).flatMap (fun i => bytesOf 1 (((lookup i v.saves).map (·.tahead)).getD 0)) ++ bytesOf 1585 0

/-- Writes the tile store and the accumulators of a vtile into its image (R183). -/
def writeImage (s : State) (t : Team) (lr : Nat) (v : Vtile) : State :=
  let a := hbmKey (t.img lr)
  (copyStore s (storeKey v.ptile 0) a).commit (a + 524288) (accBytes v)

/-- Writes the control block of a vtile as it stands now into its image (R183, R184). -/
def writeControl (s : State) (t : Team) (id lr : Nat) : State :=
  match s.vtile? id lr with
  | some v => (s.commit (hbmKey (t.img lr) + 655360) (controlBlock s t id lr v)).drew id 224
  | none => s

/-! ### Replay, and the switch (R185, R186, R190) -/

/-- Applies a landing or an increment of a log where a key function places the bytes (R186, R190). A swap that the log took
goes on now (R149). -/
def replayLand (key : Nat → Nat) (s : State) (l : Landing) : State :=
  let (back, s) := applyLanding (landTouch s l) key l
  match l.what with
  | .swap _ _ => landed (countLanding (sendBack s (s.homeSite (key 0)) back) l) l 1 back.length
  | _ => s

/-- Applies a counter increment of a log (R97, R186). -/
def replayCounter (key : Nat → Nat) (s : State) (i : Increment) : State :=
  let (ovf, s) := addCounter (s.touchStore i.who.team i.vt [(i.ofs, 8)]) (key i.ofs) i.amount
  match ovf with
  | some n => saturated s i n true
  | none => s

/-- Applies a log record to an image (R186). -/
def replayImage (t : Team) (lr : Nat) (s : State) : LogRec → State
  | .land l => replayLand (fun o => hbmKey (t.img lr) + o) s l
  | .counter i => replayCounter (fun o => hbmKey (t.img lr) + o) s i
  | .fill n r v psn => s.imageFill t lr n r v psn
  | .barrier n d ds v st => s.imageBarrier t lr n d ds v st
  | .summary n ctr bits fails => s.imageSummary t lr n ctr bits fails

/-- Everything that a log holds, and what senders have held since it was full, in order of arrival (R189). -/
def Vtile.logged (v : Vtile) : List LogRec := v.recs ++ v.owed

/-- The fault that an end of a move brings, when it fails (R168, R177, R185). -/
def moveCause : MoveEnd → Option Nat
  | .done => none
  | .imageError => some 0x80
  | .logError => some 0x81

/-- What a save or a restore moves in class 3 (R189, R238): the image with the strand images that go with it, to the place of a site
or from it, and the records of the log. Each packet with its key, its way and its flits (R210; log 13). -/
def moving (s : State) (t : Team) (id lr : Nat) (v : Vtile) : List (Nat × List Nat × Nat) :=
  let tile := tileSite v.ptile
  let img := s.homeSite (hbmKey (t.img lr))
  let out := v.div == .saving
  let strands := (v.saves.filter fun c => c.2.why == .vacate).length
  let log := if v.logged.isEmpty then [] else
    [(logHop (vtileKey id lr), sitePath (s.portSite .log t lr) (if out then img else tile), 1 + 2 * v.logged.length)]
  (imageHop (vtileKey id lr), if out then sitePath tile img else sitePath img tile, 1 + (659456 + 9728 * strands) / 64) :: log

/-- The image is written, the log is replayed into it, and the entry switches to DIVERTING (R185). -/
def saved (s : State) (t : Team) (id lr : Nat) (v : Vtile) : State :=
  let s := writeControl (v.logged.foldl (replayImage t lr) (writeImage s t lr v)) t id lr
  let s := s.onVtile id lr fun x =>
    { x with div := .diverting, log := none, recs := [], owed := [], logW := v.logW + v.owed.length
             logR := v.logW + v.owed.length, stopped := none }
  let s := (s.putDivEntry id lr).onTile v.ptile fun x => { x with owner := none }
  (recheckWaits s id lr).orderStep v.stopped true

/-- SAVE_COMPLETE: all of the image and of the log has come to the save area, and the save ends; or an error ends it and the vtile is
lost (R177, R185, R210). -/
def execSaveComplete (id lr : Nat) (how : MoveEnd) (s : State) : Out :=
  match s.team? id, s.vtile? id lr with
  | some t, some v =>
    if v.div ≠ .saving then .next s
    else match moveCause how with
      | some c => .next (loseVtile s id lr c)
      | none =>
        let x := s.crossAll 3 (moving s t id lr v)
        .next (if x.1 then saved x.2 t id lr v else x.2)
  | _, _ => .next s

/-! ### Restoring (R185, R190) -/

/-- RESTORE_START: a diverted vtile whose tile and log are free moves to RESTORING (R185). FSTAT comes from its image, and later
bits are added to it (R174, R190). DESIGN CHOICE: PTILE of the team-map entry shows the new tile from here on, as that of the
diversion entry does, while RES is still 0 (R27; log 37). -/
def execRestoreStart (id lr : Nat) (s : State) : Out :=
  match s.team? id, s.vtile? id lr with
  | some t, some v =>
    match v.restoreTo, freeLog s with
    | some (i, n), some g =>
      if v.div ≠ .diverting ∨ !tileTakes (s.tile i) ∨ !firstWaiter s n then .next s
      else
        let s := s.onTile i fun x => { x with owner := some (id, lr), reserved := false }
        let s := s.onVtile id lr fun x =>
          { x with div := .restoring, ptile := i, log := some g, logW := 0, logR := 0, recs := [], owed := []
                   fstat := BitVec.ofNat 64 (s.hbm (t.img lr + 655368) 8) }
        .next (s.putDivEntry id lr)
    | _, _ => .next s
  | _, _ => .next s

/-- An entry of the matrix queue as its 128 bytes in an image give it (R184, R190); none where it is not valid there. -/
def loadEntry (s : State) (b : Nat) (e : MEntry) : Option MEntry :=
  let w : Word := BitVec.ofNat 64 (s.hbm b 8)
  let m (o : Nat) : Shape := BitVec.ofNat 256 (s.hbm (b + o) 32)
  let bufs := s.hbm (b + 72) 1
  let was : Bool := match e.op with
    | .mma _ _ _ r => r
    | _ => false
  let got : MOp × ANum := match decode w with
    | .ok (.mma f) => (.mma f (m 8) (m 40) was, f.d)
    | .ok (.ald f) => (.ald f.fmt (m 8), f.d)
    | .ok (.azero f) => (.azero f.fmt, f.d)
    | _ => (e.op, e.d)
  if bit (s.hbm (b + 124) 1) 0 then
    some { e with op := got.1, d := got.2, who := { e.who with word := w }, kdone := s.hbm (b + 120) 4, bufA := field bufs 0 1
                  bufB := field bufs 1 1 }
  else none

/-- The accumulators and the control block of an image: flags, codebooks, the valid entries of the matrix queue, and the TAHEAD of
saved strands (R183, R184, R190). -/
def readImage (s : State) (t : Team) (lr : Nat) (v : Vtile) : Vtile :=
  let a := t.img lr
  let c := s.hbm (a + 655360) 8
  { v with
    accs := Vector.ofFn fun n : Fin 8 =>
      { rows := Vector.ofFn fun i : Fin 64 => BitVec.ofNat 2048 (s.hbm (a + 524288 + 16384 * n.val + 256 * i.val) 256)
        rns := bit c n.val, full := bit c (8 + n.val) }
    curA := field c 16 1
    curB := field c 17 1
    cbs := Vector.ofFn fun n : Fin 4 => BitVec.ofNat 128 (s.hbm (a + 655376 + 16 * n.val) 16)
    mq := v.mq.zipIdx.filterMap fun x => loadEntry s (a + 655568 + 128 * x.2) x.1
    saves := v.saves.map fun x => (x.1, { x.2 with tahead := field (s.hbm (a + 657616 + x.1) 1) 0 3 }) }

/-- An open tile phase as slot `j` of an image gives it, where that differs from what the unit holds (R184, R190; log 17). -/
def loadPhase (t : Team) (lr : Nat) (s : State) (j : Nat) : State :=
  let u := s.unit t.teamid .tile lr
  let bs := s.mem.read (hbmKey (t.img lr + 655440 + 16 * j)) 16
  if bs = phaseBytes t u lr j then s
  else
    let byte (i : Nat) : Nat := (bs.getD i 0).toNat
    let k := u.step + (j + 4 - u.step % 4) % 4
    let p := { State.phase u k with
      cnt := if byte 1 = 0 then none else some (byte 1)
      rop := if byte 0 = 0 ∧ byte 1 = 0 then none else BOp.ofCode (byte 2)
      arrivals := (List.range (byte 0)).map fun i =>
        ⟨i, if i = 0 then some (BitVec.ofNat 64 (ofBytes (bs.drop 8))) else none, 0, false, s.now, []⟩ }
    s.putUnit t.teamid .tile lr { u with phases := insertAt k p u.phases }

/-- The strand that the strand map of an image puts into slot `i`: its save slot, what the device kept of it, and HELD (R184,
R190). -/
def mapped (s : State) (t : Team) (lr : Nat) (v : Vtile) (i : Nat) : Option (Nat × SaveInfo × Bool) :=
  let w := s.hbm (t.img lr + 655504 + 8 * i) 8
  match lookup (field w 0 8) v.saves with
  | some x => if x.why = .vacate then some (field w 0 8, x, bit w 8) else none
  | none => none

/-- Strands of save slots 0 to 7 return to the strand slots that the strand map gives them (R190). -/
def returnStrands (s : State) (t : Team) (id lr : Nat) (v : Vtile) : State :=
  let s := (List.range 8).foldl (fun s i => match mapped s t lr v i with
    | some (n, x, held) =>
      let k := strandOf s.mem (hbmKey (t.slotAddr lr n)) id lr x
      (unmatched s v.ptile i).putAt v.ptile i { k with wait := k.wait.reloaded, held }
    | none => s) s
  s.onVtile id lr fun v => { v with saves := v.saves.filter fun c => c.2.why != .vacate }

/-- Changes the strand that a log record names by save slot: in its strand slot, or in its image (R186, R190). -/
def onReturned (s : State) (ptile id lr n : Nat) (f : Strand → Strand) (g : State → State) : State :=
  match if n < 8 then s.strandAt ptile n else none with
  | some k => if k.team == id && k.lrank == lr then s.putAt ptile n (f k) else s
  | none => g s

/-- Applies a log record to a vtile that has been loaded into its tile (R186, R190). -/
def replayTile (t : Team) (id lr ptile : Nat) (s : State) : LogRec → State
  | .land l => replayLand (storeKey ptile) s l
  | .counter i => replayCounter (storeKey ptile) s i
  | .fill n r v psn =>
    onReturned s ptile id lr n (fun k =>
      let k := k.wr r v
      if psn && r != 0 then { k with spoison := k.spoison ||| BitVec.ofNat 64 (2 ^ r.val) } else k)
      fun s => s.imageFill t lr n r v psn
  | .barrier n d ds v st =>
    onReturned s ptile id lr n (fun k => { (k.wr d v).wr ds st with wait := .none }) fun s => s.imageBarrier t lr n d ds v st
  | .summary n ctr bits fails =>
    onReturned s ptile id lr n
      (fun k => { k with summary := if fails then addFailure k.summary ctr bits else k.summary ||| bits })
      fun s => s.imageSummary t lr n ctr bits fails

/-- The image is loaded, the log replayed, and the entry switches to RESIDENT (R185, R190). -/
def restored (s : State) (t : Team) (id lr : Nat) (v : Vtile) : State :=
  let s := copyStore s (hbmKey (t.img lr)) (storeKey v.ptile 0)
  let w := readImage s t lr v
  let s := (List.range 4).foldl (loadPhase t lr) (returnStrands (s.putVtile id lr w) t id lr w)
  let s := v.logged.foldl (replayTile t id lr v.ptile) s
  let s := s.onVtile id lr fun x =>
    { x with res := true, div := .resident, log := none, recs := [], owed := [], logW := v.logW + v.owed.length
             logR := v.logW + v.owed.length, restoreTo := none }
  let s := (s.putDivEntry id lr).refreshHeld id lr
  (recheckWaits s id lr).orderStep (v.restoreTo.map (·.2)) true

/-- RESTORE_COMPLETE: all of the image and of the log has come to the tile, and the restore ends; or an error ends it and the vtile is
lost (R177, R185, R190, R210). -/
def execRestoreComplete (id lr : Nat) (how : MoveEnd) (s : State) : Out :=
  match s.team? id, s.vtile? id lr with
  | some t, some v =>
    if v.div ≠ .restoring then .next s
    else match moveCause how with
      | some c => .next (loseVtile s id lr c)
      | none =>
        let x := s.crossAll 3 (moving s t id lr v)
        .next (if x.1 then restored x.2 t id lr v else x.2)
  | _, _ => .next s

/-! ### Rotation (R182) -/

/-- Whether a vtile has an arrival at a superstep of a unit. -/
def hasArrived (s : State) (id : Nat) (l : Scope) (u k lr : Nat) : Bool :=
  (State.phase (s.unit id l u) k).arrivals.any fun a => a.who == lr

/-- Whether no strand of a resident vtile runs: each waits in BAR or BARW on the open phase (R182). -/
def noneRuns (s : State) (id lr ptile : Nat) (l : Scope) (k : Nat) : Bool :=
  (List.range 8).all fun i =>
    match s.strandAt ptile i with
    | none => true
    | some x => !(x.team == id && x.lrank == lr) || match x.wait with
      | .barrier m n _ _ => m == l && n == k
      | _ => false

/-- The vtiles that a rotation exchanges in a unit: A, which leaves its tile, and B, which takes it (R182). -/
def rotationPair (s : State) (t : Team) (id : Nat) (l : Scope) (u : Nat) : Option (Nat × Nat) :=
  let k := (s.unit id l u).step
  let ms := t.members l u
  let as := ms.filterMap fun a =>
    match s.vtile? id a with
    | some v => if v.div == .resident && (s.tile v.ptile).dbg == .running && v.stopped.isNone
          && hasArrived s id l u k a && noneRuns s id a v.ptile l k then
        some (a, v.ptile / 16) else none
    | none => none
  let bs := ms.filterMap fun b =>
    match s.vtile? id b with
    | some v => if (v.div == .cut || v.div == .saving || v.div == .diverting) && !v.lost && v.restoreTo.isNone
          && !hasArrived s id l u k b then
        some (b, v.ptile / 16) else none
    | none => none
  bs.findSome? fun b => (as.find? fun a => a.2 == b.2).map fun a => (a.1, b.1)

/-- ROTATION: at a barrier wait, a parked vtile is to take the tile of one that waits (R182). -/
def execRotation (id : Nat) (l : Scope) (u : Nat) (s : State) : Out :=
  match s.team? id with
  | none => .next s
  | some t =>
    if !t.rotation || l == .tile then .next s
    else match rotationPair s t id l u with
      | none => .next s
      | some (a, b) =>
        let p := ((s.vtile? id a).map (·.ptile)).getD 0
        let (n, s) := s.number
        let (m, s) := s.number
        let s := s.onVtile id a fun v => { v with stopped := some n }
        let s := s.onVtile id b fun v => { v with restoreTo := some (p, m) }
        .next (s.onTile p fun x => { x with reserved := true })

end Sys2Proof.Machine
end

