-- ==== Sys2Proof/Machine/Image.lean ====
section
/-! DEFINITION. The graph image (R211 to R216): its header, peers, groups, slots and nodes, and when it is malformed. -/

namespace Sys2Proof.Machine

/-- The number in `n` bytes at offset `o` of an image. -/
def imgNum (im : List Byte) (o n : Nat) : Nat := ofBytes ((im.drop o).take n)

/-- The header (R211). -/
structure GHead where
  magic : Nat
  nnodes : Nat
  nslot : Nat
  ver : Nat
  npeer : Nat
  npgrp : Nat
  ptofs : Nat
  pgofs : Nat
  slofs : Nat
  gtag : Nat
  len : Nat
  rsv : Nat
  deriving DecidableEq, Repr

/-- Reads the header of an image. -/
def graphHead (im : List Byte) : GHead :=
  let n := imgNum im 0 64
  { magic := field n 0 32, nnodes := field n 32 16, nslot := field n 48 8, ver := field n 56 8, npeer := field n 64 16
    npgrp := field n 80 16, ptofs := field n 96 32, pgofs := field n 128 32, slofs := field n 160 32
    gtag := field n 192 16, len := field n 224 32, rsv := field n 208 16 + field n 256 256 }

/-- A node (R214). `rsv` collects its reserved fields. -/
structure GNode where
  op : Nat
  tag : Nat
  dep : Nat
  succ : List Nat
  fall : Nat
  peer : Nat
  mode : Nat
  rop : Nat
  fmt : Nat
  sslot : Nat
  dslot : Nat
  aux2 : Nat
  aux : Nat
  sofs : Nat
  dofs : Nat
  len : Nat
  rsv : Nat
  deriving DecidableEq, Repr

/-- Reads node `i` of an image. -/
def nodeOf (im : List Byte) (i : Nat) : GNode :=
  let n := imgNum im (64 + 64 * i) 64
  { op := field n 0 4, tag := field n 16 16, dep := field n 264 8
    succ := [field n 272 12, field n 284 12, field n 296 12, field n 308 12], fall := field n 320 12
    peer := field n 332 16, mode := field n 348 4, rop := field n 352 4, fmt := field n 356 4, sslot := field n 360 6
    dslot := field n 366 6, aux2 := field n 372 12, aux := field n 384 16, sofs := field n 400 40, dofs := field n 440 40
    len := field n 480 32, rsv := field n 4 12 + field n 32 232 }

/-- The successors that a node names, each once (R214, R216). -/
def GNode.succs (n : GNode) : List Nat := (n.succ.filter (· != 0xFFF)).eraseDups

/-- Kind and value of entry `i` of the peer table (R212). -/
def peerOf (im : List Byte) (i : Nat) : Nat × Nat :=
  let e := imgNum im ((graphHead im).ptofs + 4 * i) 4
  (field e 30 2, field e 0 12)

/-- A peer group: whether its members carry START, and START and PIDX of each (R212). -/
structure GGroup where
  rag : Bool
  members : List (Nat × Nat)
  deriving DecidableEq, Repr

/-- Directory entry `g`. -/
def dirOf (im : List Byte) (g : Nat) : Nat := imgNum im ((graphHead im).pgofs + 8 * g) 8

/-- Reads group `g`. -/
def groupOf (im : List Byte) (g : Nat) : GGroup :=
  let e := dirOf im g
  { rag := bit e 48
    members := (List.range (field e 32 16)).map fun j =>
      let m := imgNum im (field e 0 32 + 8 * j) 8
      (field m 32 32, field m 0 16) }

/-- The shard indices whose member is this package. -/
def selves (im : List Byte) (g : GGroup) : List Nat :=
  (List.range g.members.length).filter fun j => (peerOf im (g.members.getD j (0, 0)).2).1 == 0

/-- This package's shard index in a group (R212). -/
def shardOf (im : List Byte) (g : GGroup) : Nat := (selves im g).headD 0

/-- START(s) of a group for a length (R228). -/
def GGroup.start (g : GGroup) (len s : Nat) : Nat :=
  if g.members.length ≤ s then len else if g.rag then (g.members.getD s (0, 0)).1 else s * len / g.members.length

/-- Elements of a segment (R228). -/
def GGroup.seg (g : GGroup) (len s : Nat) : Nat := g.start len (s + 1) - g.start len s

/-- USE of slot `s` (R213). -/
def useOf (im : List Byte) (s : Nat) : Nat := imgNum im ((graphHead im).slofs + 8 * s) 8

/-! ### What a node moves -/

/-- The format of the values that a node moves: ATT rows are f32 and A2A records 64-bit words (R215, R230, R232). -/
def GNode.format (n : GNode) : Fmt :=
  match n.op with
  | 4 => .f32
  | 5 => .i64
  | _ => (Fmt.ofCode n.fmt).getD .i8

/-- Bytes of one value. -/
def GNode.size (n : GNode) : Nat := n.format.bits / 8

/-- Words of an A2A record (R232). -/
def GNode.recWords (n : GNode) : Nat := 1 + n.aux2

/-- The values that a node reads at this shard: slot, byte offset and count (R215, R230, R232, R234). -/
def GNode.source (im : List Byte) (n : GNode) : Option (Nat × Nat × Nat) :=
  match n.op with
  | 1 | 3 | 7 => some (n.sslot, n.sofs, n.len)
  | 4 => some (n.sslot, n.sofs, n.len * (2 + n.aux))
  | 5 => some (n.sslot, n.sofs, n.len * n.recWords)
  | 6 => let g := groupOf im n.peer
         some (n.sslot, n.sofs, g.seg n.len (shardOf im g))
  | _ => none

/-- The values that a node can write at this shard (R215, R227, R230, R232, R234). -/
def GNode.dest (im : List Byte) (n : GNode) : Option (Nat × Nat × Nat) :=
  let g := groupOf im n.peer
  let s := shardOf im g
  match n.op with
  | 2 | 7 => some (n.dslot, n.dofs, n.len)
  | 3 =>
    if n.mode = 2 then some (n.dslot, n.dofs, g.seg n.len s)
    else if n.mode = 1 ∧ s ≠ 0 then none else some (n.dslot, n.dofs, n.len)
  | 4 => if n.mode = 1 ∧ s ≠ 0 then none else some (n.dslot, n.dofs, n.len * (2 + n.aux))
  | 5 => some (n.dslot, n.dofs, 1 + n.aux * n.recWords)
  | 6 => let h := groupOf im n.aux
         some (n.dslot, n.dofs, h.seg n.len (shardOf im h))
  | _ => none

/-- Whether a node exchanges data with a group (R225). -/
def GNode.grouped (n : GNode) : Bool := 3 ≤ n.op && n.op ≤ 6

/-! ### Malformed images (R216) -/

/-- Whether a byte range overlaps none of some others, empty ones left out. -/
def clear (r : Nat × Nat) (rs : List (Nat × Nat)) : Bool :=
  rs.all fun q => r.2 == 0 || q.2 == 0 || r.1 + r.2 ≤ q.1 || q.1 + q.2 ≤ r.1

/-- Whether byte ranges overlap none of one another. -/
def apart : List (Nat × Nat) → Bool
  | [] => true
  | r :: rs => clear r rs && apart rs

/-- The header's own fields and the places of the tables: the nodes, the peer table, the slot declarations, and the directory of
groups with its member lists, which may share members (R211; log 27). -/
def headBad (im : List Byte) : Bool :=
  let h := graphHead im
  let groups := (h.pgofs, 8 * h.npgrp) ::
    (List.range h.npgrp).map fun g => (field (dirOf im g) 0 32, 8 * field (dirOf im g) 32 16)
  let tables := [(64, 64 * h.nnodes), (h.ptofs, 4 * h.npeer), (h.slofs, 8 * h.nslot)]
  h.magic != 0x56475231 || h.ver != 1 || h.rsv != 0 || 2 ^ 20 < h.len || h.nnodes == 0 || 4095 < h.nnodes || h.nslot == 0
    || 64 < h.nslot || h.npeer == 0 || 4096 < h.npeer || 256 < h.npgrp || h.ptofs % 4 != 0 || h.pgofs % 8 != 0
    || h.slofs % 8 != 0 || !((tables ++ groups).all fun r => r.2 == 0 || r.1 + r.2 ≤ h.len) || !apart tables || !(groups.all fun r => clear r tables)

/-- A peer entry that breaks R212; `p` is P of the team. -/
def peerBad (im : List Byte) (p i : Nat) : Bool :=
  let e := imgNum im ((graphHead im).ptofs + 4 * i) 4
  let k := peerOf im i
  field e 12 18 != 0 || k.1 == 3 || (k.1 == 1 && p ≤ k.2) || (k.1 == 0 && k.2 != 0)

/-- A group that breaks R212. -/
def groupBad (im : List Byte) (g : Nat) : Bool :=
  let e := dirOf im g
  let x := groupOf im g
  field e 49 15 != 0 || x.members.isEmpty || 1024 < x.members.length || field e 0 32 % 8 != 0
    || !decide ((x.members.map (·.2)).Nodup)
    || (List.range x.members.length).any fun j =>
      let m := imgNum im (field e 0 32 + 8 * j) 8
      field m 16 16 != 0 || (graphHead im).npeer ≤ field m 0 16 || (!x.rag && field m 32 32 != 0)

/-- A slot declaration that breaks R213. -/
def slotBad (im : List Byte) (s : Nat) : Bool := 3 < useOf im s || (s == 0 && useOf im s != 3)

/-- A group's explicit table that breaks R228 for a length. -/
def GGroup.ragBad (g : GGroup) (len : Nat) : Bool :=
  let st := g.members.map (·.1)
  g.rag && (st.headD 0 != 0 || st.any (len < ·) || (st.zip (st.drop 1)).any fun c => c.2 < c.1)

/-- OP and FMT that a REDUCE may pair (R226). -/
def reducePair (op fmt : Nat) : Bool :=
  match Fmt.ofCode fmt with
  | some .i32 | some .n32 | some .i64 | some .n64 => op ≤ 5
  | some .f32 => op ≤ 2
  | some .rns => op == 0
  | _ => false

/-- Formats of a data node (R215). -/
def dataFmt (fmt : Nat) : Bool := fmt ≤ 12 || fmt == 14

/-- A group index that a node names, with one member of kind self and a table that suits the node (R212, R216). -/
def groupOk (im : List Byte) (g len : Nat) : Bool :=
  g < (graphHead im).npgrp && (selves im (groupOf im g)).length == 1 && !(groupOf im g).ragBad len

/-- The fields that a node's row of R215 leaves out, and the ranges of those that it names. -/
def fieldsOk (im : List Byte) (n : GNode) : Bool :=
  let h := graphHead im
  match n.op with
  | 1 => n.dslot == 0 && n.dofs == 0 && n.fall == 0 && n.mode == 0 && n.rop == 0 && n.aux == 0 && n.aux2 == 0
      && dataFmt n.fmt && n.peer < h.npeer && (peerOf im n.peer).1 != 0
  | 2 => n.sslot == 0 && n.sofs == 0 && n.fall == 0 && n.mode == 0 && n.rop == 0 && n.aux == 0 && n.aux2 == 0
      && dataFmt n.fmt && n.peer < h.npeer && (peerOf im n.peer).1 != 0
  | 3 => n.fall == 0 && n.aux == 0 && n.aux2 == 0 && n.mode ≤ 2 && reducePair n.rop n.fmt && groupOk im n.peer n.len
  | 4 => n.fall == 0 && n.rop == 0 && n.aux2 == 0 && n.fmt == 8 && n.mode ≤ 1 && 1 ≤ n.aux && n.aux ≤ 4094
      && groupOk im n.peer n.len
  | 5 => n.fmt == 0 && n.rop == 0 && n.mode ≤ 1 && 1 ≤ n.aux && n.aux2 ≤ 511 && groupOk im n.peer n.len
      && (n.fall == 0xFFF || (n.mode == 1 && n.fall < h.npgrp && !(groupOf im n.fall).ragBad n.len
        && (groupOf im n.fall).members.all fun m => (groupOf im n.peer).members.any fun x => x.2 == m.2))
  | 6 => n.fall == 0 && n.mode == 0 && n.rop == 0 && n.aux2 == 0 && dataFmt n.fmt && groupOk im n.peer n.len
      && groupOk im n.aux n.len
      && (groupOf im n.peer).members.map (·.2) == (groupOf im n.aux).members.map (·.2)
  | 7 => n.peer == 0 && n.fall == 0 && n.mode == 0 && n.rop == 0 && n.aux == 0 && n.aux2 == 0 && dataFmt n.fmt
  | 8 => n.sslot == 0 && n.sofs == 0 && n.dofs == 0 && n.peer == 0 && n.fall == 0 && n.mode == 0 && n.rop == 0 && n.fmt == 0
      && n.aux == 0 && n.aux2 == 0
  | 9 => n.dslot == 0 && n.sofs == 0 && n.dofs == 0 && n.peer == 0 && n.fall == 0 && n.mode == 0 && n.rop == 0 && n.fmt == 0
      && n.aux == 0 && n.aux2 == 0
  | _ => false

/-- Whether the slots that a node uses are declared for its use (R216). -/
def slotsOk (im : List Byte) (n : GNode) : Bool :=
  let has (s : Nat) (uses : List Nat) : Bool := s < (graphHead im).nslot && uses.contains (useOf im s)
  (match n.source im with
    | some r => has r.1 [0, 2]
    | none => n.op != 9 || has n.sslot [3])
  && (match n.dest im with
    | some r => has r.1 [1, 2]
    | none => n.op != 8 || has n.dslot [3])

/-- The nodes of an image. -/
def nodesOf (im : List Byte) : List GNode := (List.range (graphHead im).nnodes).map (nodeOf im)

/-- Whether node `i` breaks a rule by itself (R214 to R216). -/
def nodeBad (im : List Byte) (i : Nat) : Bool :=
  let ns := nodesOf im
  let n := nodeOf im i
  n.rsv != 0 || !fieldsOk im n || !slotsOk im n || (n.succs.any (ns.length ≤ ·))
    || n.dep != (ns.filter fun m => m.succs.contains i).length
    || (ns.take i).any fun m => m.tag == n.tag

/-- The nodes that stay when nodes without a predecessor among the rest are removed, round after round. -/
def cyclic (ns : List (Nat × List Nat)) : Nat → List (Nat × List Nat)
  | 0 => ns
  | f + 1 => cyclic (ns.filter fun x => ns.any fun y => y.2.contains x.1) f

/-- The lowest node that lies on a cycle or between two, where the edges form one (R216). -/
def cycleNode (im : List Byte) : Option Nat :=
  let es := (nodesOf im).zipIdx.map fun x => (x.2, x.1.succs)
  let left := cyclic es es.length
  let back := cyclic (left.map fun x => (x.1, (left.filter fun y => y.2.contains x.1).map (·.1))) left.length
  (back.map (·.1)).head?

/-- The first node of an image that breaks R211 to R216, 0xFFF for the header or a table; none when it is well formed. `p` is
P of the team. -/
def malformed (im : List Byte) (p : Nat) : Option Nat :=
  let h := graphHead im
  if headBad im || (List.range h.npeer).any (peerBad im p) || (List.range h.npgrp).any (groupBad im)
      || (List.range h.nslot).any (slotBad im) then some 0xFFF
  else match (List.range h.nnodes).find? (nodeBad im) with
    | some i => some i
    | none => cycleNode im

/-! ### Binding entries (R213) -/

/-- A binding entry. -/
abbrev Bind := BitVec 128

def Bind.f (b : Bind) (lo len : Nat) : Nat := field b.toNat lo len
def Bind.k (b : Bind) : Bool := b.f 127 1 == 1
def Bind.space (b : Bind) : Nat := b.f 112 3
def Bind.vt (b : Bind) : Nat := b.f 96 16
def Bind.hnd (b : Bind) : Nat := b.f 64 32
def Bind.ofs (b : Bind) : Nat := b.f 0 40
/-- The counter descriptor of a counter binding. -/
def Bind.desc (b : Bind) : Word := BitVec.ofNat 64 (b.f 0 40)
def Bind.basev (b : Bind) : Word := BitVec.ofNat 64 (b.f 40 64)

/-- A record that names the bytes of a data binding from its offset on. -/
def Bind.shape (b : Bind) : Shape :=
  BitVec.ofNat 256 (pack [3, 4, 9, 16, 32, 40, 16, 16, 16, 16] [b.space, 1, 0, b.vt, b.hnd, b.ofs, 1, 1, 1, 1])

/-- The slot of a binding's ranges among a graph's nodes: offset, bytes, size of a value, and whether it is written. -/
def usesOf (im : List Byte) (s : Nat) : List (Nat × Nat × Nat × Bool) :=
  (nodesOf im).flatMap fun n =>
    let one (r : Option (Nat × Nat × Nat)) (w : Bool) : List (Nat × Nat × Nat × Bool) :=
      match r with
      | some (slot, o, c) => if slot = s ∧ c ≠ 0 then [(o, c * n.size, n.size, w)] else []
      | none => []
    one (n.source im) false ++ one (n.dest im) true

/-- How nodes use a counter binding: whether a WAITX reads its counter, and whether a SIGNAL adds to it (R215). -/
def counterUse (im : List Byte) (s : Nat) : Bool × Bool :=
  ((nodesOf im).any fun n => n.op == 9 && n.sslot == s, (nodesOf im).any fun n => n.op == 8 && n.dslot == s)

/-- The bytes [lo, hi) that the nodes address through a binding, as an operand of R62 with the permissions of their uses; a
binding that no node addresses asks for those of its declaration (R219; log 27). -/
def Bind.opd (b : Bind) (im : List Byte) (s : Nat) : Opd :=
  let us := usesOf im s
  let lo := (us.map (·.1)).foldl min ((us.head?.map (·.1)).getD 0)
  let hi := (us.map fun u => u.1 + u.2.1).foldl max 0
  let r := if us.isEmpty then useOf im s != 1 else us.any fun u => !u.2.2.2
  let w := if us.isEmpty then useOf im s != 0 else us.any fun u => u.2.2.2
  { space := b.space, hnd := b.hnd, vt := b.vt, ilv := 0, lo := (b.ofs + lo : Nat)
    hi := if us.isEmpty then (b.ofs + lo : Nat) else (b.ofs + hi : Nat)
    perm := if r && w then .rw else if w then .w else .r
    named := false, aligned := us.all fun u => (b.ofs + u.1) % u.2.2.1 == 0, addr := shAddr b.shape }

end Sys2Proof.Machine
end

