-- ==== Sys2Proof/Machine/Virga.lean ====
section
/-! DEFINITION. Virga: COLL.LD, COLL.RUN and COLL.STAT (R217 to R220), runs and their nodes (R221 to R235), and failures
(R236, R237). Log 28 says how messages between shards are formed. -/

namespace Sys2Proof.Machine

/-! ### COLL.LD (R218) -/

/-- The image address of COLL.LD as R62 checks it: any space that an image can lie in (R29). An entry of space 5 is refused with
0x25, and any other fails check 2 of R62. DESIGN CHOICE: R218 does not say whether an image may lie in a peer's memory (log 36). -/
def imageOpd (s : State) (t : Team) (w : Word) (n : Nat) : Opd :=
  let e := s.entry t (awHnd w)
  wordOpd w (if [2, 3, 6].contains e.space then e.space else 4) n 64 .r

/-- The lowest graph number that is free (R218). -/
def freeGraph (s : State) : Option Nat := (interval 1 1023).find? fun g => (lookup g s.graphs).isNone

/-- COLL.LD (R217, R218). -/
def execCollLd (f : CollC) (s : State) : Out :=
  .next (issue (.collLd f) f.e { src := [f.a, f.b], dst := [f.d] }
    (fun k s => withTeam s k fun t => do
      let w := k.rd f.a
      let ctr := k.rd f.b
      checkAll s t [imageOpd s t w 64] ctr
      need (!ctrBad ctr) 0x27 (BitVec.ofNat 64 (ctrOfs ctr))
      match freeGraph s with
      | none => retire s (k.wr f.d 0)
      | some g =>
        let x : Graph :=
          { who := s.issuerOf k ((encode (.collLd f)).getD 0), st := .loading, addr := w, image := [], ctr
            amount := f.x.zeroExtend 64, cause := 0, node := 0, next := 1, count := 0, touched := [] }
        retire { s with graphs := insertAt g x s.graphs } (k.wr f.d (BitVec.ofNat 64 g))) s)

/-- The key of a byte at an offset of an address word, for the issuer's vtile (R29, R57). -/
def wordKey (s : State) (t : Team) (lr : Nat) (w : Word) : Nat → Nat :=
  if awHnd w = 0 then fun o => s.storeBase t.teamid lr + awOfs w + o
  else fun o => (s.entry t (awHnd w)).key (((s.vtile? t.teamid lr).map (·.ptile)).getD 0) (awOfs w + o)

/-- How an image can be read now: at once, not while its CXL link retrains, or not at all: where its group is fenced, or where
no window serves it, with the bit of the summary that says so (R178, R200, R204). -/
inductive Reach where
  | now | later
  | never (bits : Word)
  deriving DecidableEq, Repr

/-- How the bytes of an address word can be reached (R178, R200, R204). -/
def wordReach (s : State) (t : Team) (lr : Nat) (w : Word) (n : Nat) : Reach :=
  let p := ((s.vtile? t.teamid lr).map (·.ptile)).getD 0
  let e := s.entry t (awHnd w)
  if awHnd w = 0 then .now
  else if e.space = 2 ∧ s.fencedGroups.contains (p / 16) then .never (causeBits 0x41)
  else if e.space ≠ 6 then .now
  else if !s.cxlOk e (awOfs w) n then .never (causeBits 0x42)
  else if s.cxlWaits e (awOfs w) n then .later
  else .now

/-- The bytes of an image as Virga reads them; in a tile store, those that were changed while it loads are free (R8, R218). -/
def imageBytes (s : State) (t : Team) (x : Graph) (n : Nat) : List Byte :=
  let key := wordKey s t x.who.lrank x.addr
  (List.range n).map fun o =>
    if meets x.touched (storeVirt x.who.team x.who.lrank (awOfs x.addr + o)) 1 then s.freeByteAt x.who.team o
    else s.mem.byte (key o)

/-- Ends the load of a graph with a failure, and the bits of the summary that belong to it (R84, R218). -/
def failLoad (s : State) (g : Nat) (x : Graph) (cause node : Nat) (bits : Word := 0) : State :=
  ({ s with graphs := insertAt g { x with st := .failed, cause, node } s.graphs }).engineFault x.who 0x48 0 0 0
    (some (x.ctr, bits))

/-- The node whose bytes are poisoned first, 0xFFF for the header and the tables (R218). -/
def poisonedNode (s : State) (key : Nat → Nat) (im : List Byte) : Option Nat :=
  let n := im.length
  match (List.range n).find? fun o => s.poisoned (granule (key o)) with
  | none => none
  | some o => some (if 64 ≤ o ∧ o < 64 + 64 * (graphHead im).nnodes then (o - 64) / 64 else 0xFFF)

/-- Nodes of the graphs that the package holds (R218). -/
def loadedNodes (s : State) : Nat :=
  (s.graphs.map fun g => if g.2.st = .loaded then (graphHead g.2.image).nnodes else 0).sum

/-- Posts an increment of a counter descriptor, when it names a counter (R97); answers its number. `diverted` says that a landing of
its work was diverted (R193). -/
def post (s : State) (w : Issuer) (desc amount : Word) (diverted : Bool := false) : Option Nat × State :=
  if ctrNone desc then (none, s)
  else
    let (n, s) := s.number
    (some n, { s with incs := insertAt n ⟨w, ctrVt desc, ctrOfs desc, amount, diverted⟩ s.incs })

/-- Takes an image that can be read into a graph (R62, R216, R218). -/
def loadGraph (s : State) (t : Team) (g : Nat) (x : Graph) (im : List Byte) : State :=
  match poisonedNode s (wordKey s t x.who.lrank x.addr) im with
  | some n => failLoad s g x 0x26 n
  | none =>
    if awOfs x.addr % 64 ≠ 0 then failLoad s g x 0x48 0xFFF
    else match malformed im t.nP with
      | some n => failLoad s g x 0x48 n
      | none =>
        if 65536 < loadedNodes s + (graphHead im).nnodes then failLoad s g x 0x48 0xFFF
        else (post { s with graphs := insertAt g { x with st := .loaded, image := im } s.graphs } x.who x.ctr x.amount).2

/-- GRAPH_LOAD_COMPLETE: the image is read and checked (R62, R200, R216, R218). -/
def execGraphLoadComplete (g : Nat) (s : State) : Out :=
  match lookup g s.graphs with
  | none => .next s
  | some x =>
    match s.team? x.who.team with
    | none => .next s
    | some t =>
      if x.st ≠ .loading then .next s
      else
        let len := (graphHead (imageBytes s t x 64)).len
        match wordReach s t x.who.lrank x.addr (max 64 len), checkAll s t [imageOpd s t x.addr len] with
        | .later, _ => .next s
        | .never bits, _ => .next (failLoad s g x 0x48 0xFFF bits)
        | _, .error _ => .next (failLoad s g x 0x48 0xFFF)
        | .now, .ok _ =>
          if 2 ^ 20 < len then .next (failLoad s g x 0x48 0xFFF)
          else .next ((loadGraph s t g x (imageBytes s t x (max 64 len))).drew x.who.team
            (if x.touched.isEmpty then 0 else max 64 len))

/-! ### COLL.RUN (R219) -/

/-- The virtual key of a byte of a data binding: as physical memory for levels, by vtile for tile stores, which may move. -/
def bindKey (s : State) (t : Team) (lr : Nat) (b : Bind) : Nat → Nat :=
  if b.space = 1 then storeVirt t.teamid b.vt else s.operandKey t lr b.shape

/-- The key ranges of bytes [lo, lo + n) of a binding: one, or one in each bank (R61, R235). -/
def bindRanges (s : State) (t : Team) (lr : Nat) (b : Bind) (lo n : Nat) : List (Nat × Nat) :=
  let key := bindKey s t lr b
  let ilv := if b.space = 2 then (s.entry t b.hnd).ilv else 0
  if n = 0 then []
  else if ilv ≠ 2 then [(key lo, n)]
  else (List.range 16).filterMap fun i =>
    let hi := lo + n - 1
    let first := if lo / 256 % 16 = i then lo
      else if lo / 256 % 16 < i then lo / 4096 * 4096 + i * 256 else lo / 4096 * 4096 + 4096 + i * 256
    let last := if hi / 256 % 16 = i then hi
      else if i < hi / 256 % 16 then hi / 4096 * 4096 + i * 256 + 255
      else if hi < 4096 then 0 else hi / 4096 * 4096 - 4096 + i * 256 + 255
    if first ≤ last ∧ last ≤ hi then some (key first, key last + 1 - key first) else none

/-- The bound ranges of a run, and the entries of the table that they take: one for each binding that its nodes address
(R235). -/
def runRanges (s : State) (t : Team) (lr : Nat) (im : List Byte) (bs : List Bind) : List (Nat × Nat × Bool) × Nat :=
  let parts := bs.zipIdx.map fun x =>
    if x.1.k then
      let u := counterUse im x.2
      if ctrNone x.1.desc || !(u.1 || u.2) then [] else [(storeVirt t.teamid (ctrVt x.1.desc) (ctrOfs x.1.desc), 8, u.2)]
    else
      let us := usesOf im x.2
      if us.isEmpty then []
      else
        let o := x.1.opd im x.2
        (bindRanges s t lr x.1 o.lo.toNat (o.hi - o.lo).toNat).map fun r => (r.1, r.2, us.any fun u => u.2.2.2)
  (parts.flatten, (parts.filter fun l => !l.isEmpty).length)

/-- The virtual keys that a run's nodes read as data (R223). -/
def runReads (s : State) (t : Team) (lr : Nat) (im : List Byte) (bs : List Bind) : List (Nat × Nat) :=
  bs.zipIdx.flatMap fun x =>
    ((usesOf im x.2).filter fun u => !u.2.2.2).flatMap fun u => bindRanges s t lr x.1 (x.1.ofs + u.1) u.2.1

/-- Two runs conflict (R235). -/
def conflict (a b : Run) : Bool :=
  a.ranges.any fun x => b.ranges.any fun y => (x.2.2 || y.2.2) && State.overlap x.1 x.2.1 y.1 y.2.1

/-- Whether an earlier run that has not ended conflicts with a run (R235). -/
def conflicted (s : State) (id : Nat) (r : Run) : Bool := s.runs.any fun q => q.1 < id && q.2.open_ && conflict q.2 r

/-- Whether the bound-range table has no room for a run: runs that have waited for room go first, in issue order (R235). -/
def noRoom (s : State) (id : Nat) (r : Run) : Bool :=
  4096 < (s.runs.map fun q => if q.2.st = .running then q.2.slots else 0).sum + r.slots
    || (r.room && s.runs.any fun q => q.1 < id && q.2.st == .waiting && q.2.room)

/-- Whether a run must wait (R235). -/
def interlocked (s : State) (id : Nat) (r : Run) : Bool := conflicted s id r || noRoom s id r

/-- The binding entries of a run, as COLL.RUN reads them (R219). -/
def readBinds (s : State) (a n : Nat) : List Bind :=
  (List.range n).map fun i => BitVec.ofNat 128 (s.mem.num (tileKey s (a + 16 * i)) 16)

/-- The counter of a binding whose CVT is out of range (R143, R219). -/
def bindCvt (t : Team) (bs : List Bind) : Do Unit :=
  match bs with
  | [] => .ok ()
  | b :: r => do
    if b.k then chkCtrRank t b.desc else .ok ()
    bindCvt t r

/-- The counters of counter bindings are aligned (R58, R62). -/
def bindOfs (bs : List Bind) : Do Unit :=
  match bs with
  | [] => .ok ()
  | b :: r => do
    if b.k then chkCtrOfs b.desc else .ok ()
    bindOfs r

/-- A binding whose kind or reserved fields are wrong, or whose descriptor breaks R143 (R213, R219). -/
def bindBad (im : List Byte) (b : Bind) (s : Nat) : Bool :=
  let use := useOf im s
  if use = 3 then !b.k || b.f 104 23 != 0 || ctrBad b.desc
  else b.k || b.f 115 12 != 0 || b.f 40 24 != 0 || (b.space != 1 && b.vt != 0)

/-- The run number after another, which skips 0 (R219). -/
def nextRun (n : Nat) : Nat := if (n + 1) % 2 ^ 32 = 0 then 1 else n + 1

/-- Forgets what Virga no longer retains: all but the 64 most recent runs of a graph, where they have ended (R220). -/
def pruneRuns (s : State) (g : Nat) : State :=
  let mine := s.runs.filter fun r => r.2.g == g
  let old := (mine.take (mine.length - 64)).map (·.1)
  { s with runs := s.runs.filter fun r => r.2.open_ || !old.contains r.1 }

/-- COLL.RUN (R217, R219). -/
def execCollRun (f : CollC) (s : State) : Out :=
  .next (issue (.collRun f) f.e { src := [f.a, f.b], dst := [f.d] }
    (fun k s => withTeam s k fun t => do
      let a := memAddr k f.b f.x
      let g := (k.rd f.a).toNat
      let x := (lookup g s.graphs).filter fun x => x.st == .loaded && x.who.team == k.team
      let im := (x.map (·.image)).getD []
      let ns := if x.isSome then (graphHead im).nslot else 1
      checkAll s t [storeOpd a.toNat (16 * ns) 16]
      let bs := if x.isSome then readBinds s a.toNat ns else []
      let data := bs.zipIdx.filter fun b => !b.1.k && useOf im b.2 != 3
      need (data.all fun b => b.1.space != 0 && b.1.space != 5) 0x25 a
      bindCvt t bs
      checkAll s t (data.map fun b => b.1.opd im b.2)
      bindOfs bs
      need (!(bs.zipIdx.any fun b => bindBad im b.1 b.2)) 0x27 a
      need (!s.anyPoison (tileKey s a.toNat) (16 * ns)) 0x26 a
      match x with
      | none => raise 0x02
      | some x => do
        if 256 ≤ (s.runs.filter fun r => r.2.open_).length then .error (.wait .limit) else .ok ()
        let h := graphHead im
        let nth := ((s.graphs.filter fun y => y.2.who.team == k.team && (graphHead y.2.image).gtag == h.gtag).map
          (·.2.count)).sum + 1
        let (id, s) := s.number
        let ranges := runRanges s t k.lrank im bs
        let reads := runReads s t k.lrank im bs
        let rivals := ((s.vtile? k.team k.lrank).map fun v => v.race.rivals k.uid).getD []
        let r : Run :=
          { g, run := x.next, nth, who := s.issuerOf k ((encode (.collRun f)).getD 0), binds := bs, st := .waiting
            intlk := false, miss := false, cause := 0, node := 0, peer := 0, drops := 0
            nodes := (nodesOf im).map fun n => ⟨n.dep, .waiting, [], [], false, false, 0, none, []⟩
            addr := 0, moved := 0, diverted := false, ranges := ranges.1, slots := ranges.2, room := false, reads
            touched := (rivals.map fun x => (storeVirt k.team k.lrank x.1, x.2)).filter fun x => meets reads x.1 x.2 }
        let r := { r with intlk := interlocked s id r, room := !conflicted s id r && noRoom s id r }
        let s := { s with
          runs := insertAt id r s.runs
          graphs := insertAt g { x with next := nextRun x.next, count := x.count + 1 } s.graphs }
        retire (pruneRuns s g) (k.wr f.d (BitVec.ofNat 64 (g * 2 ^ 32 + r.run)))) s)

/-! ### COLL.STAT (R220) -/

/-- COLL.STAT (R217, R220). -/
def execCollStat (f : DaS) (s : State) : Out :=
  .next (issue (.collStat f) f.e { src := [f.a], dst := [f.d] }
    (fun k s => do
      if field (k.rd f.a).toNat 42 22 ≠ 0 then raise 0x02 else .ok ()
      let (id, s) := s.number
      let o : StatOp := ⟨s.issuerOf k ((encode (.collStat f)).getD 0), f.d, k.rd f.a⟩
      retire { s with stats := insertAt id o s.stats } (k.empty f.d)) s)

/-- The status word of a run (R220). -/
def Run.status (r : Run) : Word :=
  let st := match r.st with
    | .waiting => 1
    | .running => 2
    | .complete => 3
    | .failed => 4
  BitVec.ofNat 64 (pack [20, 16, 12, 8, 3, 1, 1, 3] [r.drops, r.peer, r.node, r.cause, 0, r.intlk.nat, r.miss.nat, st])

/-- The status word of a load (R220). -/
def Graph.status (g : Graph) : Word :=
  let st := match g.st with
    | .loading => 2
    | .loaded => 3
    | .failed => 4
  BitVec.ofNat 64 (pack [20, 16, 12, 8, 5, 3] [0, 0, g.node, g.cause, 0, st])

/-- The status word of a ticket for a team; 0 for one that Virga does not know (R220). -/
def statusOf (s : State) (team : Nat) (ticket : Word) : Word :=
  let g := field ticket.toNat 32 10
  let n := field ticket.toNat 0 32
  match lookup g s.graphs with
  | none => 0
  | some x =>
    if x.who.team ≠ team then 0
    else if n = 0 then x.status
    else
      let mine := s.runs.filter fun r => r.2.g == g
      match (mine.drop (mine.length - 64)).find? fun r => r.2.run == n with
      | some r => r.2.status
      | none => 0

/-- COLL_STAT_FILL: the status word reaches its register, wherever the strand stands (R101, R186, R220). -/
def execCollStatFill (id : Nat) (s : State) : Out :=
  match lookup id s.stats with
  | none => .next s
  | some o =>
    let logged := match s.vtile? o.who.team o.who.lrank with
      | some v => State.logging v
      | none => false
    if logged && s.logFull o.who.team o.who.lrank then .next s
    else .next (({ s with stats := eraseAt id s.stats }).deliverFill o.who.team o.who.lrank o.who.uid o.d
      (statusOf s o.who.team o.ticket) false)

/-! ### Changing runs and nodes -/

/-- Changes a run. -/
def onRun (s : State) (id : Nat) (f : Run → Run) : State :=
  match lookup id s.runs with
  | some r => { s with runs := insertAt id (f r) s.runs }
  | none => s

/-- Changes a node of a run. -/
def onNode (s : State) (id i : Nat) (f : NodeRun → NodeRun) : State :=
  onRun s id fun r => { r with nodes := modifyNth f i r.nodes }

/-- The image of a run's graph. -/
def runImage (s : State) (r : Run) : List Byte := ((lookup r.g s.graphs).map (·.image)).getD []

/-- A node of a run, where it is active. -/
def activeNode (s : State) (id i : Nat) : Option (Run × NodeRun) :=
  match lookup id s.runs with
  | none => none
  | some r =>
    match r.nodes[i]? with
    | some n => if r.st = .running ∧ n.st = .active then some (r, n) else none
    | none => none

/-- A run by graph and number, where it has not ended. -/
def openRun (s : State) (g run : Nat) : Option (Nat × Run) := s.runs.find? fun r => r.2.g == g && r.2.run == run && r.2.open_

/-- The operand record of a binding. -/
def Run.bind (r : Run) (slot : Nat) : Bind := r.binds.getD slot 0

/-! ### Shards and messages -/

/-- What the matching of nodes compares: size and format of a value, operation, mode, and the lengths that all shards share
(R225; log 28). -/
def GNode.sig (n : GNode) : Nat :=
  pack [8, 4, 4, 4, 12, 16, 32]
    [n.size, n.fmt, n.rop, n.mode, n.aux2, if n.op = 6 then 0 else n.aux, if n.op = 5 then 0 else n.len]

/-- Whether a node of opcode `a` sends to a node of opcode `b` (R225). -/
def compatible (a b : Nat) : Bool := (a == 1 && b == 2) || (a == b && 3 ≤ a && a ≤ 6)

/-- The members of a node: peer-table indices by shard; a SEND or RECV has one. -/
def GNode.members (im : List Byte) (n : GNode) : List Nat :=
  if n.grouped then (groupOf im n.peer).members.map (·.2) else if n.op = 1 ∨ n.op = 2 then [n.peer] else []

/-- This shard's index (R212). -/
def GNode.shard (im : List Byte) (n : GNode) : Nat := if n.grouped then shardOf im (groupOf im n.peer) else 0

/-- How a message to a peer leaves: by a quad, by one that retrains now, or not at all (R199, R204). -/
inductive Way where
  | via (quad : Nat)
  | later (quad : Nat)
  | dead
  deriving DecidableEq, Repr

/-- Whether a message has to wait. -/
def Way.waits : Way → Bool
  | .later _ => true
  | .via _ | .dead => false

/-- The way to a peer-table entry (R199, R212). -/
def wayTo (s : State) (r : Run) (im : List Byte) (pidx : Nat) : Way :=
  let p := peerOf im pidx
  if p.1 = 2 then
    match lookup p.2 s.uec with
    | none => .dead
    | some u =>
      let q := s.quad u.port
      if q.pers = 2 ∧ q.st = .up then .via u.port else if q.retraining then .later u.port else .dead
  else if s.routeWaits r.who.team p.2 then .later ((s.retrainer (Config.accOf r.who.team p.2)).getD 0)
  else match s.route r.who.team p.2 0 r.who.tile with
    | some q => .via q
    | none => .dead

/-- The names that a message to a peer bears: from another pod, TEAMID or job key, and sender (R225). -/
def nameFor (s : State) (t : Team) (im : List Byte) (pidx : Nat) : Bool × Nat × Nat :=
  let p := peerOf im pidx
  if p.1 = 2 then (true, ((lookup p.2 s.uec).map (·.key)).getD 0, 0) else (false, t.teamid, t.pc)

/-- A chunk of a node for a peer. -/
def chunkFor (s : State) (t : Team) (r : Run) (im : List Byte) (n : GNode) (pidx : Nat) (kind : ChunkKind)
    (elems : List (Nat × Bool)) : Chunk :=
  let w := nameFor s t im pidx
  { far := w.1, team := w.2.1, src := w.2.2, gtag := (graphHead im).gtag, run := r.nth, tag := n.tag, shard := n.shard im
    node := n.op, kind, sig := n.sig, elems }

/-- Sends a chunk, and notes the quad that carries it. -/
def sendChunk (t : Team) (id i : Nat) (n : GNode) (s : State) (m : Nat × ChunkKind × List (Nat × Bool)) : State :=
  match lookup id s.runs with
  | none => s
  | some r =>
    let im := runImage s r
    match wayTo s r im m.1 with
    | .via q =>
      onNode (s.send (.chunk ((peerOf im m.1).1 == 2) (peerOf im m.1).2 q (chunkFor s t r im n m.1 m.2.1 m.2.2))) id i fun x =>
        { x with quads := x.quads ++ [(q, m.1)] }
    | _ => s

/-- A report of a node to every other shard (R225, R236). -/
def reportAll (s : State) (t : Team) (r : Run) (im : List Byte) (n : GNode) (mism : Bool) : State :=
  ((n.members im).filter fun p => (peerOf im p).1 != 0).foldl (fun s p =>
    let w := nameFor s t im p
    let v : VirgaReport :=
      { far := w.1, team := w.2.1, src := w.2.2, gtag := (graphHead im).gtag, run := r.nth, tag := n.tag, shard := n.shard im }
    let far := (peerOf im p).1 == 2
    match wayTo s r im p with
    | .via q | .later q => s.send (if mism then .mismatch far (peerOf im p).2 q v else .failure far (peerOf im p).2 q v)
    | .dead => s) s

/-- Whether a node of a run is the one that a message names, and the message comes from a shard of it (R225). -/
def names (s : State) (r : Run) (i : Nat) (far : Bool) (team src gtag nth tag shard : Nat) : Bool :=
  let im := runImage s r
  let n := nodeOf im i
  let p := (n.members im).getD (if n.grouped then shard else 0) 0
  let pe := peerOf im p
  r.open_ && (graphHead im).gtag == gtag && r.nth == nth && n.tag == tag
    && (if far then pe == (2, src) && ((lookup src s.uec).map (·.key)).getD 0 == team
        else r.who.team == team && pe == (1, src))

/-- The run and node that a message names. -/
def findNode (s : State) (far : Bool) (team src gtag nth tag shard : Nat) (ok : GNode → Bool) : Option (Nat × Nat) :=
  s.runs.findSome? fun r =>
    ((List.range r.2.nodes.length).find? fun i =>
      names s r.2 i far team src gtag nth tag shard && ok (nodeOf (runImage s r.2) i)).map fun i => (r.1, i)

/-! ### The trees of REDUCE and ATT (R226, R231) -/

/-- In the merge tree over shards [a, a + m): the shards whose values shard `s` merges into its own, in order, and the shard
that takes the outcome; none at the root. -/
def treePart : Nat → Nat → Nat → Nat → List Nat × Option Nat
  | 0, _, _, _ => ([], none)
  | fuel + 1, a, m, s =>
    if m ≤ 1 then ([], none)
    else
      let h := (m + 1) / 2
      if s < a + h then
        let p := treePart fuel a h s
        if s = a then (p.1 ++ [a + h], none) else p
      else
        let p := treePart fuel (a + h) (m - h) s
        if s = a + h then (p.1, some a) else p

/-- Merges two values of REDUCE, or two rows of ATT, with their poison (R226, R229). -/
def combine (n : GNode) (x y : List (Nat × Bool)) : List (Nat × Bool) :=
  if n.op = 4 then
    let w := 2 + n.aux
    (List.range n.len).flatMap fun i =>
      let u := (x.drop (w * i)).take w
      let v := (y.drop (w * i)).take w
      let m := (u.headD (0, false)).2 || (v.headD (0, false)).2
      (attMerge (u.map (·.1)) (v.map (·.1))).zip ((u.zip v).map fun c => m || c.1.2 || c.2.2)
  else
    let op := [ROp.add, .min, .max, .and, .or, .xor].getD n.rop .add
    (x.zip y).map fun c => (op.apply n.format c.1.1 c.2.1, c.1.2 || c.2.2)

/-- The value that a node has received from a shard. -/
def NodeRun.got (x : NodeRun) (shard : Nat) (kind : ChunkKind) : Option (List (Nat × Bool)) :=
  (x.inbox.find? fun c => c.shard == shard && c.kind == kind).map (·.elems)

/-- The value of this shard's part of the tree, when every value for it is here. -/
def partValue (n : GNode) (x : NodeRun) : List Nat → List (Nat × Bool) → Option (List (Nat × Bool))
  | [], acc => some acc
  | q :: qs, acc => match x.got q .partVal with
    | some v => partValue n x qs (combine n acc v)
    | none => none

/-- The outcome of a tree as it is written: a NaN and a residue word are canonical, be it of one shard only (R109, R114). -/
def GNode.canonical (n : GNode) (l : List (Nat × Bool)) : List (Nat × Bool) :=
  l.map fun x => (match n.format.kind? with
    | some k => k.rne (k.value x.1)
    | none => if n.format = .rns then rnsAddWord x.1 0 else x.1, x.2)

/-- Whether a node has read its whole source (R66). -/
def NodeRun.hasRead (im : List Byte) (n : GNode) (x : NodeRun) : Bool :=
  match n.source im with
  | some d => d.2.2 ≤ x.src.length
  | none => true

/-- Values [a, b) of a list. -/
def slice (l : List (Nat × Bool)) (a b : Nat) : List (Nat × Bool) := (l.drop a).take (b - a)

/-- What a node owes its peers now, by peer-table index; none while it cannot send yet (R226, R227, R231 to R234). -/
def owed (im : List Byte) (n : GNode) (x : NodeRun) : Option (List (Nat × ChunkKind × List (Nat × Bool))) :=
  let ms := n.members im
  let me := n.shard im
  let others := ms.zipIdx.filter fun m => m.2 != me
  if !x.hasRead im n then none
  else match n.op with
  | 1 => some [(n.peer, .send, x.src)]
  | 3 | 4 =>
    let p := treePart ms.length 0 ms.length me
    match partValue n x p.1 x.src, p.2 with
    | none, _ => none
    | some v, some up => some [(ms.getD up 0, .partVal, v)]
    | some v, none =>
      let v := n.canonical v
      if n.op = 3 ∧ n.mode = 2 then
        let g := groupOf im n.peer
        some (others.map fun m => (m.1, .result, slice v (g.start n.len m.2) (g.start n.len (m.2 + 1))))
      else if n.mode = 0 then some (others.map fun m => (m.1, .result, v)) else some []
  | 5 => some (others.map fun m => (m.1, .tokens, x.src))
  | 6 =>
    let g := groupOf im n.peer
    let h := groupOf im n.aux
    let a := g.start n.len me
    let b := g.start n.len (me + 1)
    some ((others.filter fun m => max a (h.start n.len m.2) < min b (h.start n.len (m.2 + 1))).map fun m =>
      (m.1, .segment, slice x.src (max a (h.start n.len m.2) - a) (min b (h.start n.len (m.2 + 1)) - a)))
  | _ => some []

/-! ### Capacity-limited all-to-all (R232, R233) -/

/-- A token: source shard, destination, and record. -/
abbrev Token := Nat × Nat × List (Nat × Bool)

/-- The tokens of a shard, with the source shard written into each header (R232). -/
def tokensOf (n : GNode) (shard : Nat) (l : List (Nat × Bool)) : List Token :=
  (List.range (l.length / n.recWords)).map fun i =>
    let r := (l.drop (n.recWords * i)).take n.recWords
    let h := r.headD (0, false)
    (shard, field h.1 0 16, (setField h.1 16 16 shard, h.2) :: r.drop 1)

/-- Puts a token into the first shard of a list with room: the records of each shard, or none. -/
def place (cap : Nat) (b : List (List (List (Nat × Bool)))) (r : List (Nat × Bool)) :
    List Nat → Option (List (List (List (Nat × Bool))))
  | [] => none
  | d :: ds => if (b.getD d []).length < cap then some (modifyNth (· ++ [r]) d b) else place cap b r ds

/-- One pass of placement: `tries` gives the shards that a token tries, and those without room are left over (R233). -/
def passOver (cap : Nat) (tries : Token → List Nat) (b : List (List (List (Nat × Bool)))) (ts : List Token) :
    List (List (List (Nat × Bool))) × List Token :=
  ts.foldl (fun p t => match place cap p.1 t.2.2 (tries t) with
    | some b => (b, p.2)
    | none => (p.1, p.2 ++ [t])) (b, [])

/-- Placement of all tokens: the records of each shard, and the dropped tokens (R233). -/
def placeAll (n : GNode) (shards : Nat) (fall : List Nat) (ts : List Token) : List (List (List (Nat × Bool))) × List Token :=
  let (inside, outside) := ts.partition fun t => t.2.1 < shards
  let (b, more) := passOver n.aux (fun t => [t.2.1]) (List.replicate shards []) inside
  let (b, lost) := if n.mode = 1 then passOver n.aux (fun t => fall.filter (· != t.2.1)) b more else (b, more)
  (b, lost ++ outside)

/-- Members of the fallback group, as shards of the node's group (R233). -/
def fallShards (im : List Byte) (n : GNode) : List Nat :=
  if n.fall = 0xFFF then []
  else (groupOf im n.fall).members.filterMap fun m => (n.members im).findIdx? (· == m.2)

/-- What each shard has sent, this one's own source included. -/
def gathered (im : List Byte) (n : GNode) (x : NodeRun) (kind : ChunkKind) : Option (List (List (Nat × Bool))) :=
  (List.range (n.members im).length).mapM fun q => if q = n.shard im then some x.src else x.got q kind

/-! ### What a node writes -/

/-- The values that a node writes at its destination, when it has all of them, with the tokens of this shard that were dropped
(R222, R227, R231 to R234). -/
def output (im : List Byte) (n : GNode) (x : NodeRun) : Option (List (Nat × Bool) × Nat) :=
  let ms := n.members im
  let me := n.shard im
  match n.op with
  | 1 | 8 | 9 => some ([], 0)
  | 2 => (x.got 0 .send).map fun v => (v, 0)
  | 3 | 4 =>
    let p := treePart ms.length 0 ms.length me
    match p.2 with
    | none => (partValue n x p.1 x.src).map fun v =>
        let v := n.canonical v
        (if n.op = 3 ∧ n.mode = 2 then slice v 0 ((groupOf im n.peer).start n.len 1) else v, 0)
    | some _ => if n.mode = 1 then some ([], 0) else (x.got 0 .result).map fun v => (v, 0)
  | 5 =>
    (gathered im n x .tokens).map fun all =>
      let ts := all.zipIdx.flatMap fun l => tokensOf n l.2 l.1
      let (b, lost) := placeAll n ms.length (fallShards im n) ts
      let mine := b.getD me []
      ((mine.length, false) :: mine.flatten, (lost.filter fun t => t.1 == me).length)
  | 6 =>
    let g := groupOf im n.peer
    let h := groupOf im n.aux
    let a := h.start n.len me
    let b := h.start n.len (me + 1)
    let parts := (List.range ms.length).mapM fun q =>
      let lo := max a (g.start n.len q)
      let hi := min b (g.start n.len (q + 1))
      if hi ≤ lo then some []
      else if q = me then some (slice x.src (lo - g.start n.len q) (hi - g.start n.len q))
      else x.got q .segment
    parts.map fun l => (l.flatten, 0)
  | _ => some (x.src, 0)

/-- Values [from, from + count) of a binding that a node reads, with their poison; a byte that other work has changed since issue
is free (R223; log 11). -/
def readValues (s : State) (t : Team) (r : Run) (b : Bind) (ofs size first count : Nat) : List (Nat × Bool) × State :=
  let key := s.operandKey t r.who.lrank b.shape
  let vk := bindKey s t r.who.lrank b
  let xs := (interval first count).map fun e =>
    let os := interval (b.ofs + ofs + size * e) size
    let bytes := os.map fun o =>
      if meets r.touched (vk o) 1 then s.freeByteAt r.who.team o else s.mem.byte (key o)
    (ofBytes bytes, s.poison != [] && os.any fun o => s.poisoned (granule (key o)))
  (xs, if r.touched.isEmpty then s else s.drew r.who.team (b.ofs + ofs + size * (first + count)))

/-- Counts bytes of a node in a space (R262). -/
def countNode (s : State) (w : Issuer) (space n : Nat) : State :=
  s.accountReplay w.team (bytesIndex space) 20 n (s.replayOf w.team w.lrank w.uid)

/-- Values that go to one tile store: landings of at most 128 bytes, each of one poison (R78, R224). `chunk` numbers the chunk of
the node's transfer (R66, R69). PRESUMED: they come from edge die 0, since R10 says of Virga only that it stands at the edge dies
(log 7). -/
def landValues (s : State) (r : Run) (id i : Nat) (b : Bind) (ofs size chunk : Nat) (xs : List (Nat × Bool)) : State :=
  let a := b.ofs + ofs
  let placed := xs.zipIdx.map fun x => ((a + size * x.2, x.1.1), x.1.2)
  let runs := runsOf (128 / size) placed
  let clean := State.granulesCovered ((placed.filter fun x => !x.2).map fun x => (x.1.1, size))
  let whole := clean.filter fun g => !placed.any fun x => x.2 && (granulesOf x.1.1 size).contains g
  runs.foldl (fun s c =>
    let (m, s) := s.number
    let l : Landing :=
      { of_ := .run id i, who := r.who, vt := b.vt
        what := .bytes (c.1.flatMap fun x => (bytesOf size x.2).zipIdx.map fun y => (x.1 + y.2, 0xFF, y.1))
        poisoned := c.2, whole, chunk, back := false, home := edgeSite 0 }
    { s with landings := insertAt m l s.landings }) s

/-- Values that go to level memory: committed and live at once (R68, R69, R224). -/
def storeValues (s : State) (t : Team) (r : Run) (b : Bind) (ofs size : Nat) (xs : List (Nat × Bool)) : State :=
  let key := s.operandKey t r.who.lrank b.shape
  let cells (psn : Bool) : List (Nat × List Byte) := xs.zipIdx.flatMap fun x =>
    if x.1.2 = psn then (bytesOf size x.1.1).zipIdx.map fun y => (key (b.ofs + ofs + size * x.2 + y.2), [y.1]) else []
  let s := s.writeAll (cells false)
  let s := ((cells true).foldl (fun s c => s.update c.1 c.2) s).markPoison
    ((cells true).flatMap fun c => granulesOf c.1 1)
  let ks := (cells false ++ cells true).map (·.1)
  let s := ks.foldl (fun s k => s.settleLive k 1) s
  let s := (s.spoilDone s.doneCopies ks).touchKeysWork ks
  countNode s r.who b.space (size * xs.length)

/-! ### Failure (R225, R236, R237) -/

/-- Fills bytes of a node's destination with free ones, by their offsets in its binding, where the binding still names them (R8, R65,
R178). -/
def undefineAt (s : State) (t : Team) (r : Run) (im : List Byte) (n : GNode) (os : List Nat) : State :=
  match n.dest im with
  | none => s
  | some d =>
    let b := r.bind d.1
    let alive := if b.space = 1 then s.reachable t.teamid b.vt else (s.entryNow t b.hnd).isSome
    if alive then
      let ks := os.map (s.operandKey t r.who.lrank b.shape)
      ks.foldl (fun s k => s.settleLive k 1) (s.freeKeys t.teamid (ks.map fun k => (k, 0xFF)))
    else s

/-- Fills the bytes that a node may write with free ones (R8, R66, R203; log 28). -/
def undefineDest (s : State) (t : Team) (r : Run) (im : List Byte) (n : GNode) : State :=
  match n.dest im with
  | none => s
  | some d => undefineAt s t r im n (interval ((r.bind d.1).ofs + d.2.1) (d.2.2 * n.size))

/-- Which values of a node's source changed bytes concern (R223). -/
def changedSource (s : State) (t : Team) (r : Run) (im : List Byte) (n : GNode) (rs : List (Nat × Nat)) : List Bool :=
  match n.source im with
  | none => []
  | some d =>
    let vk := bindKey s t r.who.lrank (r.bind d.1)
    (List.range d.2.2).map fun e => (interval ((r.bind d.1).ofs + d.2.1 + n.size * e) n.size).any fun o => meets rs (vk o) 1

/-- Which values of a node's output depend on given values of its own source (R223, R227, R229, R231 to R234): those that stand where
they come to, a whole row of ATT that has another m, and all of what an A2A writes when a token's header is another. -/
def dependent (im : List Byte) (n : GNode) (x : NodeRun) (ts : List Bool) : List Bool :=
  let me := n.shard im
  let moved (x : NodeRun) : List Bool := ((output im n x).map fun o => o.1.map (·.2)).getD []
  let own : NodeRun := { x with src := (x.src.zip ts).map fun v => (v.1.1, v.2)
                                inbox := x.inbox.map fun c => { c with elems := c.elems.map fun v => (v.1, false) } }
  match n.op with
  | 3 => if n.mode = 2 then
      let g := groupOf im n.peer
      (ts.drop (g.start n.len me)).take (g.start n.len (me + 1) - g.start n.len me)
    else ts
  | 4 => ts.zipIdx.map fun v => v.1 || ts.getD (v.2 / (2 + n.aux) * (2 + n.aux)) false
  | 5 => if (List.range n.len).any fun k => ts.getD (n.recWords * k) false then (moved own).map fun _ => true else moved own
  | 6 => moved own
  | _ => ts

/-- The offsets in its binding of the output bytes of a node that depend on changed virtual keys (R223). -/
def spoiltOut (s : State) (t : Team) (r : Run) (im : List Byte) (n : GNode) (x : NodeRun) (rs : List (Nat × Nat)) : List Nat :=
  match n.dest im with
  | none => []
  | some d =>
    let ts := changedSource s t r im n rs
    if ts.contains true then
      (dependent im n x ts).zipIdx.flatMap fun v =>
        if v.1 then interval ((r.bind d.1).ofs + d.2.1 + n.size * v.2) n.size else []
    else []

/-- The output bytes of a run's nodes that depend on changed virtual keys, at one remove or more: by node, the offsets in its binding
(R223). -/
def spoiltOuts (s : State) (t : Team) (r : Run) (im : List Byte) (ns : List (GNode × NodeRun)) :
    Nat → List (Nat × Nat) → List (List Nat)
  | 0, rs => ns.map fun n => spoiltOut s t r im n.1 n.2 rs
  | fuel + 1, rs =>
    let out := ns.map fun n => spoiltOut s t r im n.1 n.2 rs
    let more := (ns.zip out).flatMap fun n => match n.1.1.dest im with
      | some d => n.2.map fun o => (bindKey s t r.who.lrank (r.bind d.1) o, 1)
      | none => []
    if more.all fun x => meets rs x.1 1 then out else spoiltOuts s t r im ns fuel (rs ++ more)

/-- A run whose sources were changed before its counter fires leaves the output elements that depend on them undefined (R223). -/
def spoilRun (s : State) (t : Team) (r : Run) : State :=
  if r.touched.isEmpty then s
  else
    let im := runImage s r
    let ns := (nodesOf im).zip r.nodes
    (ns.zip (spoiltOuts s t r im ns ns.length r.touched)).foldl (fun s n => undefineAt s t r im n.1.1 n.2) s

/-- What a failing node tells of its operand: the address word and the completed bytes (R66, R171). -/
structure Lost where
  addr : Word
  moved : Nat
  deriving DecidableEq, Repr

/-- The operand that a node tells of when a peer, a link or a vtile fails it (R171): its destination, the source of a SEND, and
the counter of a SIGNAL or a WAITX. DEDUCED: no handle has failed there, so the operand is the one whose bytes the failure keeps
from being written or accepted (log 28). -/
def lostAddr (r : Run) (im : List Byte) (n : GNode) : Word :=
  if n.op = 8 then BitVec.ofNat 64 (ctrOfs (r.bind n.dslot).desc)
  else if n.op = 9 then BitVec.ofNat 64 (ctrOfs (r.bind n.sslot).desc)
  else match n.dest im, n.source im with
    | some d, _ | none, some d => shAddr (r.bind d.1).shape
    | none, none => 0

/-- Bytes of a node's transfer that are complete: the chunks that have landed whole, once it has handed over its outputs (R66,
R171). -/
def landedOf (s : State) (id i : Nat) (x : NodeRun) : Nat :=
  if x.written then
    4096 * ((s.landings.filter fun l => l.2.of_ == .run id i).map (·.2.chunk)).foldl min x.wrote
  else 0

/-- What a node tells of its operand when a peer, a link or a vtile fails it (R171). -/
def lostOf (s : State) (r : Run) (im : List Byte) (id i : Nat) : Lost :=
  ⟨lostAddr r im (nodeOf im i), ((r.nodes[i]?).map (landedOf s id i)).getD 0⟩

/-- The causes whose fault tells of an operand (R171). -/
def tellsOperand (cause : Nat) : Bool := cause == 0x40 || cause == 0x41 || cause == 0x42 || cause == 0x44

/-- Ends a run: its counter, or its fault and the issuer's summary (R171, R193, R221, R222, R237). -/
def endRun (s : State) (id : Nat) : State :=
  match lookup id s.runs with
  | none => s
  | some r =>
    let desc := (r.bind 0).desc
    if r.st ≠ .running ∨ (r.nodes.any fun n => n.st == .active) then s
    else if r.cause ≠ 0 then
      let tells := tellsOperand r.cause
      (onRun s id fun r => { r with st := .failed }).engineFault r.who r.cause (if tells then r.addr else 0)
        (if tells then BitVec.ofNat 64 r.moved else 0) (if tells then desc else 0)
        (some (desc, causeBits r.cause ||| if r.diverted then sumDiv else 0))
    else if r.nodes.all fun n => n.st == .done then
      let s := match s.team? r.who.team with
        | some t => spoilRun s t r
        | none => s
      (post (onRun s id fun r => { r with st := .complete, nodes := r.nodes.map fun x => { x with src := [], inbox := [] } })
        r.who desc (r.bind 0).basev r.diverted).2
    else s

/-- A node fails: the first failure of a run decides its status, and the other shards hear of it (R225, R236, R237). `peer` is
the lowest-indexed lost peer; `what` tells of the operand whose check failed, where one did. -/
def failNode (s : State) (id i cause : Nat) (peer : Option Nat) (what : Option Lost := none) : State :=
  match lookup id s.runs with
  | none => s
  | some r =>
    match s.team? r.who.team with
    | none => s
    | some t =>
      let im := runImage s r
      let n := nodeOf im i
      let tree := n.op == 3 || n.op == 4
      let lost := peer.isSome
      let cause := if tree && lost then 0x41 else cause
      let what := what.getD (lostOf s r im id i)
      let s := { s with
        landings := s.landings.filter fun l => l.2.of_ != .run id i
        incs := s.incs.filter fun c => (r.nodes[i]?.bind (·.inc)) != some c.1 }
      let s := if cause = 0x48 ∨ (tree ∧ cause = 0x41) then s else undefineDest s t r im n
      let s := onNode s id i fun x => { x with st := .failed, inbox := [] }
      let s := if r.cause ≠ 0 then s
        else onRun s id fun r =>
          { r with cause, node := i, peer := peer.getD 0, miss := tree && lost, addr := what.addr, moved := what.moved }
      endRun (reportAll s t r im n (cause == 0x48)) id

/-- Whether a node has all that it needs of its peers, and has sent what it owes them. -/
def settledNode (im : List Byte) (n : GNode) (x : NodeRun) : Bool := x.sent && (output im n x).isSome

/-- The lowest-indexed member of a node that the team holds for unreachable (R236). -/
def downMember (t : Team) (im : List Byte) (n : GNode) : Option Nat :=
  ((n.members im).filter fun p => (peerOf im p).1 == 1 && (lookup (peerOf im p).2 t.peersDown).isSome).min?

/-- Sends what a node owes, when it has it: not while a quad retrains or a quiesce blocks its packets, and a peer without a way fails the node (R199, R204,
R236). -/
def progress (s : State) (t : Team) (id i : Nat) : State :=
  match activeNode s id i with
  | none => s
  | some (r, x) =>
    let im := runImage s r
    let n := nodeOf im i
    if x.sent then s
    else match owed im n x with
      | none => s
      | some ms =>
        let ways := ms.map fun m => (m.1, wayTo s r im m.1)
        match (ways.filter fun w => w.2 == .dead).map (·.1) with
        | p :: ps => failNode s id i 0x41 (some (ps.foldl min p))
        | [] =>
          if (ways.any fun w => w.2.waits) || (!ms.isEmpty && s.heldBack r.who.team r.who.tile) then s
          else onNode (ms.foldl (sendChunk t id i n) s) id i fun x => { x with sent := true }

/-- Gives a chunk to an active node: a chunk of another length, format or operation is a mismatch, which fails the node unless it has
handed over its whole result; the other shards hear of it (R225). -/
def deliver (s : State) (t : Team) (id i : Nat) (c : Chunk) : State :=
  match activeNode s id i with
  | none => s
  | some (r, x) =>
    let im := runImage s r
    if c.sig ≠ (nodeOf im i).sig then
      if x.written then reportAll s t r im (nodeOf im i) true else failNode s id i 0x48 none
    else progress (onNode s id i fun x => { x with inbox := x.inbox ++ [c] }) t id i

/-- A report about a node of a peer reaches an active node that has not handed over its whole result (R225, R236; log 28). -/
def reported (s : State) (id i : Nat) (v : VirgaReport) (mism : Bool) : State :=
  match activeNode s id i with
  | none => s
  | some (r, x) =>
    if x.written then s
    else
      let im := runImage s r
      let n := nodeOf im i
      if mism then failNode s id i 0x48 none
      else failNode s id i 0x41 (some ((n.members im).getD (if n.grouped then v.shard else 0) 0))

/-! ### The steps of a run -/

/-- RUN_START: the interlock lets the run start, and its nodes without predecessors are ready (R221, R235). One that finds only
the table full waits for room from then on, and has INTLK set as one that COLL.RUN finds so. DEDUCED: R235 has a run without room
wait in the same order as one that conflicts (log 28). -/
def execRunStart (g run : Nat) (s : State) : Out :=
  match openRun s g run with
  | none => .next s
  | some (id, r) =>
    if r.st ≠ .waiting ∨ conflicted s id r then .next s
    else if noRoom s id r then .next (onRun s id fun r => { r with room := true, intlk := true })
    else .next (onRun s id fun r => { r with
      st := .running, nodes := r.nodes.map fun n => if n.left = 0 then { n with st := .ready } else n })

/-- Whether a chunk is for node `i` of a run. -/
def chunkIs (s : State) (r : Run) (i : Nat) (c : Chunk) : Bool :=
  names s r i c.far c.team c.src c.gtag c.run c.tag c.shard && compatible c.node (nodeOf (runImage s r) i).op

/-- Hands an active node what came for it before it was ready (R225, R236). -/
def takeStaged (s : State) (t : Team) (id i : Nat) : State :=
  match lookup id s.runs with
  | none => s
  | some r =>
    let cs := s.staging.filter (chunkIs s r i)
    let vs := s.vreports.filter fun v => names s r i v.1.far v.1.team v.1.src v.1.gtag v.1.run v.1.tag v.1.shard
    let s := { s with
      staging := s.staging.filter fun c => !cs.contains c
      vreports := s.vreports.filter fun v => !vs.contains v }
    vs.foldl (fun s v => reported s id i v.1 v.2) (cs.foldl (fun s c => deliver s t id i c) s)

/-- Fails an active node that still needs a member which cannot be reached (R236). -/
def checkDown (s : State) (t : Team) (id i : Nat) : State :=
  match activeNode s id i with
  | none => s
  | some (r, x) =>
    let im := runImage s r
    let n := nodeOf im i
    if settledNode im n x && n.op != 1 then s
    else match downMember t im n with
      | some p => failNode s id i 0x41 (some p)
      | none => s

/-- Values in a chunk of 4,096 bytes (R66). -/
def GNode.chunkValues (n : GNode) : Nat := 4096 / n.size

/-- The bytes of chunk `k` of `count` values that a node has in a binding (R66). -/
def partChunk (r : Run) (n : GNode) (d : Nat × Nat × Nat) (k : Nat) : List (Nat × Nat) :=
  [((r.bind d.1).ofs + d.2.1 + n.size * n.chunkValues * k, n.size * min n.chunkValues (d.2.2 - n.chunkValues * k))]

/-- Why a chunk of a binding cannot be reached now, and its address word (R66, R171, R178, R200); with no chunk, its handle alone is
checked. -/
def partWhyNot (s : State) (t : Team) (r : Run) (n : GNode) (k : Option Nat) : Option (Nat × Nat × Nat) → Option (Nat × Word)
  | some d =>
    let b := r.bind d.1
    (whyNot s t r.who.lrank b.shape ((k.map (partChunk r n d)).getD [])).map fun c => (c, shAddr b.shape)
  | none => none

/-- Why a node cannot begin chunk `a` of its source or `b` of its destination: the handles of both are checked before each chunk,
and the window of a chunk in space 6 (R66, R200, R237). -/
def nodeWhyNot (s : State) (t : Team) (r : Run) (im : List Byte) (n : GNode) (a b : Option Nat) : Option (Nat × Word) :=
  match partWhyNot s t r n a (n.source im) with
  | some c => some c
  | none => partWhyNot s t r n b (n.dest im)

/-- Whether chunk `k` of a node's transfer waits for a CXL link that retrains (R204). -/
def nodeWaits (s : State) (t : Team) (r : Run) (n : GNode) (k : Nat) : Option (Nat × Nat × Nat) → Bool
  | some d => mustWait s t (r.bind d.1).shape (partChunk r n d k)
  | none => false

/-- Reads the next chunk of an active node's source, once its handles pass; then sends what it can (R66, R215, R223, R225). -/
def readChunk (s : State) (t : Team) (id i : Nat) : State :=
  match activeNode s id i with
  | none => s
  | some (r, x) =>
    let im := runImage s r
    let n := nodeOf im i
    match n.source im with
    | none => s
    | some d =>
      if d.2.2 ≤ x.src.length ∧ d.2.2 ≠ 0 then s
      else match nodeWhyNot s t r im n (some (x.src.length / n.chunkValues)) none with
        | some c => failNode s id i c.1 none (some ⟨c.2, n.size * x.src.length⟩)
        | none =>
          if nodeWaits s t r n (x.src.length / n.chunkValues) (some d) then s
          else
            let b := r.bind d.1
            let (xs, s) := readValues s t r b d.2.1 n.size x.src.length (min n.chunkValues (d.2.2 - x.src.length))
            let s := countNode (notePoison s r.who xs) r.who b.space (n.size * xs.length)
            onNode s id i fun x => { x with src := x.src ++ xs }

/-- A SIGNAL posts its addition, unless its counter's vtile is lost (R178, R222). -/
def postSignal (s : State) (id i : Nat) (r : Run) (n : GNode) : State :=
  let b := r.bind n.dslot
  if !ctrNone b.desc && !s.reachable r.who.team (ctrVt b.desc) then failNode s id i 0x41 none
  else
    let (m, s) := post s r.who b.desc (BitVec.ofNat 64 n.len)
    onNode s id i fun x => { x with inc := m }

/-- What an active node does after its handles have passed: it reads a chunk, or posts, and sends what it can. -/
def nodeMoves (s : State) (t : Team) (id i : Nat) (fresh : Bool) (r : Run) (n : GNode) : State :=
  let s := readChunk s t id i
  let s := if fresh && n.op == 8 then postSignal s id i r n else s
  checkDown (takeStaged (progress s t id i) t id i) t id i

/-- VIRGA_NODE_START: a ready node starts, and reads the first chunk of its source; for a node that has started, the next chunk
is read (R66, R215, R221, R223, R225). -/
def execVirgaNodeStart (g run i : Nat) (s : State) : Out :=
  match openRun s g run with
  | none => .next s
  | some (id, r) =>
    match s.team? r.who.team, r.nodes[i]? with
    | some t, some x =>
      let im := runImage s r
      let n := nodeOf im i
      if r.st ≠ .running ∨ s.heldBack r.who.team r.who.tile then .next s
      else if x.st = .active then .next (if x.hasRead im n then s else nodeMoves s t id i false r n)
      else if x.st ≠ .ready ∨ r.cause ≠ 0 then .next s
      else
        let s := onNode s id i fun x => { x with st := .active }
        match nodeWhyNot s t r im n none none with
        | some c => .next (failNode s id i c.1 none (some ⟨c.2, 0⟩))
        | none => .next (nodeMoves s t id i true r n)
    | _, _ => .next s

/-- A node is done: its successors' counts fall, and the run ends with its last node (R221). -/
def nodeDone (s : State) (id i : Nat) : State :=
  match lookup id s.runs with
  | none => s
  | some r =>
    let im := runImage s r
    let n := nodeOf im i
    let s := onNode s id i fun x => { x with st := .done }
    let s := if r.cause ≠ 0 then s
      else n.succs.foldl (fun s j => onNode s id j fun x =>
        { x with left := x.left - 1, st := if x.left ≤ 1 ∧ x.st = .waiting then .ready else x.st }) s
    endRun s id

/-- Whether WAITX's counter, read at its home, has come far enough (R222). -/
def waitxHolds (s : State) (t : Team) (b : Bind) (n : GNode) : Bool :=
  ctrNone b.desc || b.basev.toNat + n.len ≤ s.mem.num (s.storeBase t.teamid (ctrVt b.desc) + ctrOfs b.desc) 8

/-- Hands over a node's whole output of `chunks` chunks: to the fabric for a tile store, and into level memory at once, so that
no 64 bytes of it are seen half written (R66, R222, R224, R227). -/
def writeOut (s : State) (t : Team) (r : Run) (id i : Nat) (im : List Byte) (n : GNode) (chunks : Nat)
    (out : List (Nat × Bool)) (drops : Nat) : State :=
  let s := onNode s id i fun x => { x with written := true, wrote := chunks }
  let s := if drops = 0 then s else onRun s id fun r => { r with drops := min (r.drops + drops) 0xFFFFF }
  let s := notePoison s r.who out
  match n.dest im with
  | none => s
  | some d =>
    let b := r.bind d.1
    let c := n.chunkValues
    if b.space = 1 then
      (List.range chunks).foldl (fun s k =>
        landValues s r id i b (d.2.1 + n.size * c * k) n.size k (slice out (c * k) (c * (k + 1)))) s
    else storeValues s t r b d.2.1 n.size out

/-- Whether nothing of a node is in flight: its landings, or the addition of a SIGNAL (R222). -/
def nodeLanded (s : State) (id i : Nat) : Bool :=
  !(s.landings.any fun l => l.2.of_ == .run id i) &&
    match activeNode s id i with
    | some (_, x) => match x.inc with
      | some m => (lookup m s.incs).isNone
      | none => true
    | none => false

/-- Whether a node can no longer land: the vtile of its destination, or of the counter that a SIGNAL or a WAITX names, is lost
(R178). -/
def nodeLost (s : State) (r : Run) (im : List Byte) (n : GNode) (x : NodeRun) : Bool :=
  let gone (d : Word) : Bool := !ctrNone d && !s.reachable r.who.team (ctrVt d)
  (match n.dest im with
    | some d => (r.bind d.1).space == 1 && !s.reachable r.who.team (r.bind d.1).vt
    | none => false)
  || (n.op == 8 && (x.inc.any fun m => (lookup m s.incs).isSome) && gone (r.bind n.dslot).desc)
  || (n.op == 9 && gone (r.bind n.sslot).desc)

/-- Completes an active node that has sent what it owes: its handles are checked for the next chunk of its outputs, all of which
are handed over with the last chunk, and the node is done when they have landed (R66, R222). DESIGN CHOICE: a failed node whose
destination stays untouched (R225, R236) can have shown none of its chunks, so all of them become visible together (log 28). -/
def completeNode (s : State) (t : Team) (id i : Nat) (r : Run) (x : NodeRun) : State :=
  let im := runImage s r
  let n := nodeOf im i
  if nodeLost s r im n x then failNode s id i 0x41 none
  else if n.op == 9 && !waitxHolds s t (r.bind n.sslot) n then s
  else match output im n x with
    | none => s
    | some (out, drops) =>
      if !x.written then
        match (n.dest im).bind fun _ => nodeWhyNot s t r im n none (some x.wrote) with
        | some c => failNode s id i c.1 none (some ⟨c.2, 4096 * x.wrote⟩)
        | none =>
          if s.heldBack r.who.team r.who.tile || nodeWaits s t r n x.wrote (n.dest im) then s
          else if n.chunkValues * (x.wrote + 1) < out.length then onNode s id i fun x => { x with wrote := x.wrote + 1 }
          else
            let s := writeOut s t r id i im n (x.wrote + 1) out drops
            if nodeLanded s id i then nodeDone s id i else s
      else if nodeLanded s id i then nodeDone s id i
      else s

/-- VIRGA_NODE_COMPLETE: an active node that has what it needs moves on by a chunk of its outputs, and is done when all have
landed. For a SEND the step says that the peer has accepted its chunks (R66, R222; log 28). -/
def execVirgaNodeComplete (g run i : Nat) (s : State) : Out :=
  match openRun s g run with
  | none => .next s
  | some (id, r) =>
    match s.team? r.who.team with
    | none => .next s
    | some t =>
      let s := progress s t id i
      match activeNode s id i with
      | none => .next s
      | some (r, x) => .next (if x.sent then completeNode s t id i r x else s)

/-- Bytes of a chunk. -/
def chunkBytes (c : Chunk) : Nat := c.elems.length * field c.sig 0 8

/-- The teams of this package that a chunk of theirs or of their peers belongs to. -/
def chunkTeams (s : State) (c : Chunk) : List Nat :=
  if c.far then
    (s.runs.filter fun r => (graphHead (runImage s r.2)).gtag == c.gtag && r.2.nth == c.run).map fun r => r.2.who.team
  else [c.team]

/-- VIRGA_CHUNK_RECEIVE: a chunk from a peer reaches its active node, or is held in the staging while that has room (R225); its
buffers fall free when it has been taken (R210). While a quiesce holds its packets at the edge, the link keeps it (R195). -/
def execVirgaChunkReceive (x : ChunkIn) (s : State) : Out :=
  let c := x.chunk
  if (chunkTeams s c).any s.heldEdge then .next s else
  let taken (s : State) : State := s.freeBuffers x.quad 2 (Msg.chunk c.far 0 x.quad c).flits
  match findNode s c.far c.team c.src c.gtag c.run c.tag c.shard fun n => compatible c.node n.op with
  | some (id, i) =>
    match activeNode s id i, ((lookup id s.runs).bind fun r => s.team? r.who.team) with
    | some _, some t => .next (deliver (taken s) t id i c)
    | _, _ => .next (stage taken s)
  | none => .next (stage taken s)
where
  /-- Holds the chunk, unless 64 MiB are full: the sender then keeps it (R225). -/
  stage (taken : State → State) (s : State) : State :=
    if (s.staging.map chunkBytes).sum + chunkBytes x.chunk ≤ 2 ^ 26 then { taken s with staging := s.staging ++ [x.chunk] }
    else s

/-- Applies a report, or keeps it for a node that has not started. -/
def takeReport (s : State) (v : VirgaReport) (mism : Bool) : State :=
  match findNode s v.far v.team v.src v.gtag v.run v.tag v.shard fun _ => true with
  | some (id, i) =>
    match activeNode s id i, (lookup id s.runs).bind fun r => r.nodes[i]? with
    | some _, _ => reported s id i v mism
    | none, some x => if x.st = .waiting ∨ x.st = .ready then { s with vreports := s.vreports ++ [(v, mism)] } else s
    | none, none => s
  | none => { s with vreports := s.vreports ++ [(v, mism)] }

/-- VIRGA_MISMATCH_REPORT: a peer reports that a matched node disagrees with it (R225). -/
def execVirgaMismatchReport (v : VirgaReport) (s : State) : Out := .next (takeReport s v true)

/-- VIRGA_PEER_FAILURE: a peer's Virga reports that its own matched node failed, or its link is lost (R236). -/
def execVirgaPeerFailure (v : VirgaReport) (s : State) : Out := .next (takeReport s v false)

/-! ### Lost peers and links -/

/-- Applies a change to every node of the runs that have not ended. -/
def overNodes (s : State) (f : State → Nat → Nat → State) : State :=
  (s.runs.filter fun r => r.2.st == .running).foldl (fun s r =>
    (List.range r.2.nodes.length).foldl (fun s i => f s r.1 i) s) s

/-- PEER_UNREACHABLE: a member package has been unreachable for 20 µs: its arrivals are forced from now on (R94), and nodes
that need it fail (R236). -/
def execPeerUnreachable (id pkg : Nat) (s : State) : Out :=
  match s.team? id with
  | none => .next s
  | some t =>
    if pkg < t.nP && pkg != t.pc && (lookup pkg t.peersDown).isNone then
      let t := { t with peersDown := insertAt pkg s.now t.peersDown }
      .next (overNodes (s.putTeam id t) fun s r i => match lookup r s.runs with
        | some x => if x.who.team = id then checkDown s t r i else s
        | none => s)
    else .next s

/-- The lowest peer whose message of an active node over some quads is outstanding; none for a node that has all that it needs, is no
SEND and has handed over its whole result or lost no chunk (R202, R203, R236). `lost` names the nodes whose chunks are lost. -/
def nodeOut (s : State) (qs : List Nat) (lost : List (Nat × Nat)) (id i : Nat) : Option Nat :=
  match activeNode s id i with
  | some (r, x) =>
    let im := runImage s r
    let n := nodeOf im i
    if x.written || (settledNode im n x && n.op != 1 && !lost.contains (id, i)) then none
    else ((x.quads.filter fun q => qs.contains q.1).map (·.2)).min?
  | none => none

/-- The node of this package that a chunk comes from (R225). -/
def senderOf (s : State) (c : Chunk) : Option (Nat × Nat) :=
  s.runs.findSome? fun r =>
    let im := runImage s r.2
    let mine := r.2.open_ && (graphHead im).gtag == c.gtag && r.2.nth == c.run && (c.far || r.2.who.team == c.team)
    ((List.range r.2.nodes.length).find? fun i =>
      mine && (nodeOf im i).tag == c.tag && (nodeOf im i).op == c.node).map fun i => (r.1, i)

/-- Another quad for a chunk of a member package of the pod; an endpoint of Ultra Ethernet has one port (R199, R204). -/
def otherQuad (s : State) : Msg → Option Nat
  | .chunk far p _ c => if far then none else s.controlQuad (Config.accOf c.team p)
  | _ => none

/-- Chunks that wait at quads which go DOWN take another quad of their peer's mask, where there is one (R204). -/
def moveChunks (s : State) (qs : List Nat) : State :=
  s.outbox.foldl (fun s m => match m, otherQuad s m with
    | .chunk far p q c, some q' =>
      if qs.contains q then
        let s := { s with outbox := s.outbox.map fun x => if x = m then .chunk far p q' c else x }
        match senderOf s c with
        | some w =>
          let im := ((lookup w.1 s.runs).map (runImage s)).getD []
          let moved (y : Nat × Nat) : Nat × Nat := if y.1 == q && peerOf im y.2 == (1, p) then (q', y.2) else y
          onNode s w.1 w.2 fun x => { x with quads := x.quads.map moved }
        | none => s
      else s
    | _, _ => s) s

/-- The nodes whose chunks wait at quads which go DOWN and have no other way. -/
def lostChunks (s : State) (qs : List Nat) : List (Nat × Nat) :=
  s.outbox.filterMap fun m => match m, otherQuad s m with
    | .chunk _ _ q c, none => if qs.contains q then senderOf s c else none
    | _, _ => none

/-- Quads go DOWN with messages of active nodes outstanding: the peers that they went to count as failed (R203, R204, R236,
R237). -/
def failQuads (s : State) (qs : List Nat) (lost : List (Nat × Nat)) (cause : Nat) : State :=
  overNodes s fun s id i => match nodeOut s qs lost id i, activeNode s id i with
    | some p, some (r, _) =>
      let n := nodeOf (runImage s r) i
      if n.op = 3 ∨ n.op = 4 ∨ cause = 0x41 then failNode s id i 0x41 (some p) else failNode s id i cause none
    | _, _ => s

end Sys2Proof.Machine
end

