-- ==== Sys2Proof/Machine/Contain.lean ====
section
/-! DEFINITION. Errors and containment (R67, R177, R178), HTINV (R64, R65), and quiescing (R194, R195). -/

namespace Sys2Proof.Machine

/-! ### Fencing (R177, R178) -/

/-- Gives up what had been promised tiles that go out of service: restores, and gang members that hold one of them. A member
without its tiles is refused as one that did not get them. DESIGN CHOICE: R161 knows no tile that fails before TICK (log 36). -/
def giveUp (s : State) (out : Nat → Bool) : State :=
  let hit := s.launches.filter fun l => (l.tiles.getD []).any out
  hit.foldl (fun s l => quitGang s l 6 true) (dropRestores s out)

/-- Fences a tile: its vtile is lost. -/
def fenceTile (s : State) (tile : Nat) : State :=
  let owner := (s.tile tile).owner
  let s := giveUp (s.onTile tile fun x => { x with fenced := true }) (· == tile)
  match owner with
  | some o => loseVtile s o.1 o.2 0x70
  | none => s

/-- UNCORRECTABLE_TILE_ERROR: an error in a tile's control state, strand slots, matrix array or Sprue (R177). -/
def execUncorrectableTileError (tile : Nat) (s : State) : Out := .next (fenceTile s tile)

/-- TILE_RESPONSE_TIMEOUT: a tile has not answered its port for 1 ms (R177). -/
def execTileResponseTimeout (tile : Nat) (s : State) : Out := .next (fenceTile s tile)

/-- The vtiles that stand in a physical group or last stood there (log 25). -/
def vtilesIn (s : State) (grp : Nat) : List (Nat × Nat) :=
  (s.vtiles.filter fun v => v.2.ptile / 16 == grp && !v.2.lost).map fun v => (v.1 / 1024, v.1 % 1024)

/-- UNCORRECTABLE_GROUP_ERROR: an error in a group's SRAM controller, Anvil node or fabric: its tiles and its SRAM are fenced
and every vtile in it is lost (R177). -/
def execUncorrectableGroupError (grp : Nat) (s : State) : Out :=
  let lost := vtilesIn s grp
  let s := (interval (16 * grp) 16).foldl (fun s i => s.onTile i fun x => { x with fenced := true }) s
  let s := giveUp { s with fencedGroups := insertSorted grp s.fencedGroups } fun i => i / 16 == grp
  .next (lost.foldl (fun s x => loseVtile s x.1 x.2 0x71) s)

/-- GROUP_RESET: Lycel resets a group, and its fenced tiles return to service (R178). Vtiles that still stand in it are
lost. -/
def execGroupReset (grp : Nat) (s : State) : Out :=
  let s := giveUp s fun i => i / 16 == grp
  let s := (vtilesIn s grp).foldl (fun s x => loseVtile s x.1 x.2 0x71) s
  .next { s with
    fencedGroups := s.fencedGroups.filter (· != grp)
    tiles := s.tiles.filter fun x => x.1 / 16 != grp }

/-! ### Memory errors (R67, R260) -/

/-- The error counter of the memory that holds a key: corrected errors, one below the uncorrectable ones (R260). -/
def errIndex (key : Nat) : Fin 11 :=
  if key < 2 ^ 40 then 6
  else if key < 2 ^ 41 then 4
  else if key < 2 ^ 42 then 2
  else 0

/-- MEMORY_UNCORRECTABLE_ERROR: an error of the memory that holds a byte: a corrected one is counted, and any other poisons
the granule (R67). -/
def execMemoryUncorrectableError (key : Nat) (e : MemErr) (s : State) : Out :=
  match e with
  | .corrected => .next (s.countErr (errIndex key) 1)
  | .uncorrectable => .next (((s.countErr (errIndex key + 1) 1).uncover [granule key]).markPoison [granule key])
  | .cxl => .next (((s.countErr 8 1).uncover [granule key]).markPoison [granule key])

/-! ### HTINV (R64, R65) -/

/-- HTINV of one entry: checks use the entry as it stands from now on, as they always do here (log 8). The SYSWR that asked for
it retires when the work that passed its checks before has finished (R65, R363). -/
def execHtinv (_asid _slot : Nat) (s : State) : Out := .next s

/-- HTINV with ALL = 1 (R64; log 8). -/
def execHtinvAll (_asid : Nat) (s : State) : Out := .next s

/-! ### Quiescing (R195) -/

/-- A packet in a fabric: its team, and the places whose routers hold part of it: dies 0 to 3, and edge dies as 4 and 5 (R194). -/
structure Packet where
  team : Nat
  places : List Nat
  deriving DecidableEq, Repr

/-- A packet of a vtile's issuer or home on its way to the vtile's tile store, or to where that is diverted (R10, R194). One that
waits at the port of a halted tile, or that its sender still holds, is in no router (R189, R245). -/
def packetTo (s : State) (n id home lr flits : Nat) : List Packet :=
  let p := s.portOf id lr
  let out := match p with
    | .hold => true
    | .queue x => (s.tile x).port.contains n
    | _ => false
  match s.team? id with
  | some t => if out then [] else [⟨id, s.routersAt n (sitePath home (s.portSite p t lr)) flits⟩]
  | none => []

/-- The edge die of a quad, as a place. -/
def edgeOf (q : Nat) : Nat := 4 + q / 32

/-- The packets of a message that waits at a port: it stands in the routers on its way to the edge die, or at the edge die itself. -/
def msgPackets (s : State) (m : Msg) : List Packet :=
  let w := s.msgPath m
  let ps := if w.2.isEmpty then (m.port.map edgeOf).toList else s.routersAt w.1 w.2 m.flits
  match m with
  | .request _ _ _ _ team _ _ _ | .answer _ _ _ _ team _ _ | .podArrival _ _ team _ _ _ | .podSent _ _ team _ _
  | .podDone _ _ team _ _ _ | .gangReady _ _ team _ _ _ | .gangAbort _ _ team _ => [⟨team, ps⟩]
  | .chunk _ _ _ c => (chunkTeams s c).map fun i => ⟨i, ps⟩
  | _ => []

/-- An AMO or RED that has entered the fabric on its way to its home (R210). -/
def packetHome (s : State) (n : Nat) (w : Issuer) (m : Shape) (flits : Nat) : List Packet :=
  match lookup n s.hops, s.team? w.team with
  | some _, some t =>
    [⟨w.team, s.routersAt n (sitePath (tileSite w.tile) (s.homeSite (s.operandKey t w.lrank m (shOfs m)))) flits⟩]
  | _, _ => []

/-- A deferred copy that has entered the fabric on its way to its home (R210). -/
def packetCopy (s : State) (n : Nat) (c : CopyOp) : List Packet :=
  match lookup n s.hops, s.team? c.who.team with
  | some _, some t => [⟨c.who.team, s.routersAt n (deferredWay s t c).1 (deferredWay s t c).2⟩]
  | _, _ => []

/-- The image and the log of a vtile that is saved or restored (R189, R194). -/
def packetMove (s : State) (v : Nat × Vtile) : List Packet :=
  match s.team? (v.1 / 1024) with
  | some t => if v.2.div == .saving || v.2.div == .restoring then
      (moving s t (v.1 / 1024) (v.1 % 1024) v.2).map fun p => ⟨v.1 / 1024, s.routersAt p.1 p.2.1 p.2.2⟩
    else []
  | none => []

/-- The trace records of a tile that have entered the fabric on their way to its ring (R194, R258). -/
def packetTrace (s : State) (x : Nat × Tile) : List Packet :=
  match lookup (traceHop x.1) s.hops, x.2.owner with
  | some _, some o => [⟨o.1, s.routersAt (traceHop x.1) (s.traceWay x.1).1 (s.traceWay x.1).2⟩]
  | _, _ => []

/-- The packets that are in the fabrics, each with the places whose routers hold part of it (R10, R194): landings, increments, fills,
AMOs, REDs and deferred copies on their way, images, logs and trace records, peers' requests that have come
in, and what waits at the ports. What has left for a peer, and
work that a home holds for an exchange, is in no router. -/
def packets (s : State) : List Packet :=
  s.landings.flatMap (fun l => packetTo s l.1 l.2.who.team l.2.home l.2.vt (landFlits l.2))
    ++ s.incs.flatMap (fun i => packetTo s i.1 i.2.who.team (tileSite i.2.who.tile) i.2.vt 1)
    ++ s.fills.flatMap (fun f => match s.team? f.2.who.team with
      | some t => [⟨f.2.who.team,
          s.routersAt f.1 (sitePath f.2.home (s.portSite (s.fillPort f.2.who.team f.2.who.lrank) t f.2.who.lrank)) 1⟩]
      | none => [])
    ++ s.amos.flatMap (fun a => packetHome s a.1 a.2.who a.2.a 1)
    ++ s.reds.flatMap (fun r => packetHome s r.1 r.2.who r.2.d (redFlits r.2))
    ++ s.copies.flatMap (fun c => packetCopy s c.1 c.2)
    ++ s.vtiles.flatMap (packetMove s)
    ++ s.tiles.flatMap (packetTrace s)
    ++ s.inbound.map (fun r => ⟨r.team, s.routersAt (reqHop r.src r.tag) (requestWay s r) (requestFlits r)⟩)
    ++ s.outbox.flatMap (msgPackets s)

/-- The in-flight counter of a colour in the routers of a place (R194). -/
def routerCount (s : State) (colour place : Nat) : Nat :=
  ((packets s).filter fun p => s.colour p.team == colour && p.places.contains place).length

/-- The places of the partition of QUIESCE: the dies of DMASK, and with EDGE both edge dies (R195). -/
def partitionPlaces (s : State) : List Nat :=
  (List.range 6).filter fun p => bit s.quiesce.toNat (if p < 4 then 8 + p else 12)

/-- Whether packets of the colour are in flight in the partition (R195). -/
def inFlight (s : State) : Bool :=
  (partitionPlaces s).any fun p => routerCount s (field s.quiesce.toNat 0 6) p != 0

/-- A write to QUIESCE (R195): GO starts a drain, and HOLD written 0 releases the colour; a write while BUSY reads 1 is ignored
(R363). -/
def quiesceWrite (s : State) (v : Word) : State :=
  let fields := v.toNat % 2 ^ 6 + field v.toNat 8 5 * 2 ^ 8
  let old := s.quiesce.toNat
  if bit old 63 then s
  else if bit v.toNat 63 then { s with quiesce := BitVec.ofNat 64 (2 ^ 63 + 2 ^ 61 + fields), quiesceSince := s.now }
  else { s with quiesce := BitVec.ofNat 64 (field old 62 1 * 2 ^ 62 + (bit old 61 && bit v.toNat 61).nat * 2 ^ 61 + fields) }

/-- QUIESCE_START: a write with GO = 1 (R195). -/
def execQuiesceStart (v : Word) (s : State) : Out := if bit v.toNat 63 then .next (quiesceWrite s v) else .next s

/-- QUIESCE_DRAIN_COMPLETE: every router of the partition reads zero for the colour (R195). -/
def execQuiesceDrainComplete (s : State) : Out :=
  if bit s.quiesce.toNat 63 && !inFlight s then .next { s with quiesce := s.quiesce &&& 0x7FFFFFFFFFFFFFFF } else .next s

/-- QUIESCE_TIMEOUT: 10 ms pass before the drain; Lycel logs cause 0x82 (R195). -/
def execQuiesceTimeout (s : State) : Out :=
  if bit s.quiesce.toNat 63 && s.quiesceSince + 10000000 ≤ s.now then
    .next { s with quiesce := (s.quiesce &&& 0x7FFFFFFFFFFFFFFF) ||| 0x4000000000000000, lycelLog := s.lycelLog ++ [0x82] }
  else .next s

/-- QUIESCE_RELEASE: software writes HOLD to 0 (R195); a write while BUSY reads 1 is ignored (R363). -/
def execQuiesceRelease (s : State) : Out :=
  if bit s.quiesce.toNat 63 then .next s else .next { s with quiesce := s.quiesce &&& 0xDFFFFFFFFFFFFFFF }

end Sys2Proof.Machine
end

