-- ==== Sys2Proof/Machine/Control.lean ====
section
/-! DEFINITION. Branches and jumps (R316, R317, R336, R337), predicate logic and PSET (R348, R350). -/

namespace Sys2Proof.Machine

/-- The byte offset of a B-format target from the PC (R279). -/
def branchTarget (pc : Word) (x : BitVec 32) : Word := pc + 8 * sext32 x

/-- The record of a taken branch (R257, R317). -/
def traceBranch (s : State) (k : Strand) (target : Word) : State := s.trace s.at_.1 k.lrank s.at_.2 1 0 target.toNat

/-- A conditional branch over all 64 bits (R317). -/
def branch (i : Instr) (f : BrB) (c : Word → Word → Bool) (s : State) : State :=
  issue i f.e { src := [f.a, f.b] }
    (fun k s =>
      if c (k.rd f.a) (k.rd f.b) then
        .ok (traceBranch (s.put { k with pc := branchTarget k.pc f.x }) k (branchTarget k.pc f.x))
      else retire s k) s

/-- BEQ (R317). -/
def execBeq (f : BrB) (s : State) : Out := .next (branch (.beq f) f (fun a b => a == b) s)
/-- BNE (R317). -/
def execBne (f : BrB) (s : State) : Out := .next (branch (.bne f) f (fun a b => a != b) s)
/-- BLT (R317). -/
def execBlt (f : BrB) (s : State) : Out := .next (branch (.blt f) f (fun a b => a.slt b) s)
/-- BGE (R317). -/
def execBge (f : BrB) (s : State) : Out := .next (branch (.bge f) f (fun a b => !a.slt b) s)
/-- BLTN (R317). -/
def execBltn (f : BrB) (s : State) : Out := .next (branch (.bltn f) f (fun a b => a.ult b) s)
/-- BGEN (R317). -/
def execBgen (f : BrB) (s : State) : Out := .next (branch (.bgen f) f (fun a b => !a.ult b) s)

/-- JAL (R336). -/
def execJal (f : JalB) (s : State) : Out :=
  .next (issue (.jal f) f.e { dst := [f.d] }
    (fun k s =>
      let t := branchTarget k.pc f.x
      .ok (traceBranch (s.put { k.wr f.d (k.pc + 8) with pc := t }) k t)) s)

/-- JALR (R337). -/
def execJalr (f : JalrI) (s : State) : Out :=
  .next (issue (.jalr f) f.e { src := [f.a], dst := [f.d] }
    (fun k s => do
      let t := k.rd f.a + sext32 f.imm
      need (t.toNat % 8 == 0) 0x02
      .ok (traceBranch (s.put { k.wr f.d (k.pc + 8) with pc := t }) k t)) s)

/-- A predicate operation (R348). -/
def pred (i : Instr) (e : Bool) (d : PNum) (v : Strand → PReg) (s : State) : State :=
  issue i e {} (fun k s => retire s (k.wrP d (v k))) s

/-- PAND (R348). -/
def execPand (f : PredR) (s : State) : Out := .next (pred (.pand f) f.e f.d (fun k => k.rdP f.a &&& k.rdP f.b) s)
/-- POR (R348). -/
def execPor (f : PredR) (s : State) : Out := .next (pred (.por f) f.e f.d (fun k => k.rdP f.a ||| k.rdP f.b) s)
/-- PXOR (R348). -/
def execPxor (f : PredR) (s : State) : Out := .next (pred (.pxor f) f.e f.d (fun k => k.rdP f.a ^^^ k.rdP f.b) s)
/-- PNOT (R348). -/
def execPnot (f : PredU) (s : State) : Out := .next (pred (.pnot f) f.e f.d (fun k => ~~~k.rdP f.a) s)

/-- PSET (R350). -/
def execPset (f : PsetR) (s : State) : Out :=
  .next (issue (.pset f) f.e { src := [f.a] }
    (fun k s => retire s (k.wrP f.d (BitVec.ofNat 256 (2 ^ min (k.rd f.a).toNat (lanes f.ty) - 1)))) s)

end Sys2Proof.Machine
end

