-- ==== Sys2Proof/Machine/Link.lean ====
section
/-! DEFINITION. Edge links: personality switches (R196, R202, R203), retraining and the agreement exchange (R204 to R206),
pod time (R209) and flow control (R210). -/

namespace Sys2Proof.Machine

/-- The first quad of a group of four. -/
def groupFirst (q : Nat) : Nat := q / 4 * 4

/-- The quads of the link that a quad belongs to: a CXL link has four (R196). -/
def linkQuads (s : State) (q : Nat) : List Nat := if (s.quad q).pers = 3 then interval (groupFirst q) 4 else [q]

/-- Changes every quad of a link. -/
def onLink (s : State) (q : Nat) (f : Quad → Quad) : State := (linkQuads s q).foldl (fun s i => s.putQuad i (f (s.quad i))) s

/-! ### QCTL (R202) -/

/-- BUSY of QCTL. -/
def qctlBusy (s : State) : Bool := bit s.qctl.toNat 63

/-- Whether a quad belongs to the order in progress. -/
def ordered (s : State) (q : Nat) : Bool := s.qorder.any fun o => o.quads.contains q

/-- Ends the order in progress (R202). BUSY and FAIL tell of it unless an order has been refused since. -/
def endOrder (s : State) (failed : Bool) : State :=
  let s := { s with qorder := none }
  if qctlBusy s then
    { s with qctl := (s.qctl &&& 0x3FFFFFFFFFFFFFFF) ||| (if failed then 0x4000000000000000 else 0) }
  else s

/-- Ends the order in progress when each of its quads has reached UP or ended DOWN; it fails when one is DOWN that was to train
(R202). -/
def closeOrder (s : State) : State :=
  match s.qorder with
  | none => s
  | some o =>
    if o.quads.all fun q => (s.quad q).st == .up || (s.quad q).st == .down then
      endOrder s (o.newp != 0 && o.quads.any fun q => (s.quad q).st == .down)
    else s

/-- The quads that an order acts on: a CXL order, before or after the switch, acts on a whole group (R202). -/
def orderQuads (s : State) (q newp : Nat) : List Nat :=
  if newp = 3 ∨ (s.quad q).pers = 3 then interval (groupFirst q) 4 else [q]

/-- Whether a map of personalities keeps the limits of R196. -/
def mapOk (p : Nat → Nat) : Bool :=
  let n (k : Nat) : Nat := ((List.range 64).filter fun q => p q == k).length
  n 1 ≤ 48 && n 2 ≤ 12 && n 3 ≤ 8
    && (List.range 64).all fun q => p q != 3 || (interval (groupFirst q) 4).all fun r => p r == 3

/-- Removes quads from every routing mask (R202). -/
def unroute (s : State) (qs : List Nat) : State :=
  let keep : BitVec 64 := BitVec.ofNat 64 ((List.range 64).filter (fun q => !qs.contains q) |>.map (2 ^ ·)).sum
  { s with routes := s.routes.map fun r => (r.1, r.2 &&& keep) }

/-- Tells the peers of each team anew what the exchange of its pod superstep asks of them (R80). -/
def tellAgain (s : State) : State :=
  s.teams.foldl (fun s c =>
    let b := s.unit c.1 .pod 0
    let p := State.phase b b.step
    if p.sent && !p.exchanged then tellSent s c.1 b.step (State.others c.2) else s) s

/-- Answers every outstanding request of some quads in one way, and fails the nodes whose messages they carried; the peers hear
which requests of an exchange are no longer asked of them (R80, R203, R204, R236). -/
def failRemotes (s : State) (qs : List Nat) (nodes : List (Nat × Nat)) (a : RemoteAns) : State :=
  let lost := s.remotes.filter fun r => qs.contains r.2.quad
  let s := lost.foldl (fun s r => answered r.1 a s) s
  failQuads (if lost.isEmpty then s else tellAgain s) qs nodes ((ansCause a).getD 0x41)

/-- Quads end DOWN: what waits there takes another way or is lost, requests that are outstanding fail, and requests that peers sent
over them stay unanswered (R203, R204). -/
def loseQuads (s : State) (qs : List Nat) (a : RemoteAns) : State :=
  let s := moveChunks s qs
  let s' := { s with
    peerWork := s.peerWork.filter fun w => !qs.contains w.quad
    inbound := s.inbound.filter fun r => !qs.contains r.quad }.loseAt qs
  failRemotes s' qs (lostChunks s qs) a

/-- A quad in DOWN: no lane is used or turned round (R202, R207). -/
def Quad.downed (x : Quad) : Quad := { x with st := .down, retraining := false, rate := 0, txuse := 0, rxuse := 0, turn := false }

/-- The quads of an order at DOWN: they lose what is outstanding, and all of them take their new personality (R202, R203). -/
def orderDown (s : State) (o : QOrder) : State :=
  let s := loseQuads s o.quads .retired
  let s := o.quads.foldl (fun s i => s.putQuad i { Quad.initial i with
    st := if o.newp = 0 then .down else .reconfigure, pers := o.newp, delay := (s.quad i).delay }) s
  sendRecords (closeOrder s)

/-- A write to QCTL: the order starts, or is refused (R196, R202). Quads in UP are quiesced, and DRAIN follows in the next cycle;
any other goes DOWN at once, and all of them take the new personality when the last is DOWN. A write without GO is ignored while
BUSY reads 1 (R363). DESIGN CHOICE: a quad in TRAIN, AGREE or MAP, for which R202 gives no way to DOWN by an order, goes DOWN at once
and fails its held requests with 0x44; an order that still runs behind a refused one refuses the next too (log 36). -/
def qctlWrite (s : State) (v : Word) : State :=
  let q := field v.toNat 0 6
  let newp := field v.toNat 16 2
  let fields := v.toNat % 2 ^ 6 + newp * 2 ^ 16 + field v.toNat 32 8 * 2 ^ 32
  let refused := { s with qctl := BitVec.ofNat 64 (2 ^ 62 + fields) }
  if !bit v.toNat 63 then
    if qctlBusy s then s else { s with qctl := BitVec.ofNat 64 (field s.qctl.toNat 62 1 * 2 ^ 62 + fields) }
  else if s.qorder.isSome then refused
  else
    let qs := orderQuads s q newp
    let cxl := newp == 3 || (s.quad q).pers == 3
    let new (i : Nat) : Nat := if qs.contains i then newp else (s.quad i).pers
    if (cxl && q % 4 != 0) || !mapOk new then refused
    else
      let ups := qs.filter fun i => (s.quad i).st == .up
      let idle := qs.filter fun i => (s.quad i).st != .up
      let dto := if field v.toNat 32 8 = 0 then 100 else field v.toNat 32 8
      let o : QOrder := ⟨q, qs, newp, 1000 * dto, s.now⟩
      let s := unroute { s with qctl := BitVec.ofNat 64 (2 ^ 63 + fields), qorder := some o } qs
      if ups.isEmpty then orderDown s o
      else
        let s := (ups.filter fun i => (s.quad i).solsor).foldl (fun s i => s.send (.retire i)) s
        let s := ups.foldl (fun s i => s.putQuad i { s.quad i with st := .quiesce }) s
        if idle.isEmpty then s
        else idle.foldl (fun s i => s.putQuad i (s.quad i).downed) (loseQuads s idle .retired)

/-- PERSONALITY_SWITCH: a write to QCTL with GO = 1 (R202). -/
def execPersonalitySwitch (v : Word) (s : State) : Out := if bit v.toNat 63 then .next (qctlWrite s v) else .next s

/-- Whether anything is outstanding on some quads: requests of this package, requests of peers, messages that have not left, or chunks
of Virga's nodes (R202, R203, R236). -/
def linkBusy (s : State) (qs : List Nat) : Bool :=
  (s.remotes.any fun r => qs.contains r.2.quad) || (s.peerWork.any fun w => qs.contains w.quad)
    || (s.inbound.any fun r => qs.contains r.quad) || (s.outbox.any fun m => m.port.any fun q => qs.contains q)
    || s.runs.any fun r => r.2.st == .running && (List.range r.2.nodes.length).any fun i => (nodeOut s qs [] r.1 i).isSome

/-- DRAIN_COMPLETE: nothing is outstanding in either direction (R202). -/
def execDrainComplete (q : Nat) (s : State) : Out :=
  match s.qorder with
  | some o =>
    if ordered s q && (s.quad q).st == .drain && !linkBusy s o.quads then .next (orderDown s o) else .next s
  | none => .next s

/-- DRAIN_TIMEOUT: DTO expires, and what is outstanding fails with 0x44 (R202, R203). -/
def execDrainTimeout (q : Nat) (s : State) : Out :=
  match s.qorder with
  | some o =>
    if ordered s q && (s.quad q).st == .drain && o.since + o.dto ≤ s.now then .next (orderDown s o) else .next s
  | none => .next s

/-- RECONFIGURE_DONE (R202). -/
def execReconfigureDone (q : Nat) (s : State) : Out :=
  if (s.quad q).st = .reconfigure then .next (onLink s q fun x => { x with st := .train }) else .next s

/-! ### Training and agreement (R204 to R206) -/

/-- A quad goes DOWN after its third failed attempt: what it held or had sent fails, an order for it fails, FAIL is set, and
Lycel logs it (R202, R204, R205). -/
def trainFailed (s : State) (q : Nat) : State :=
  let ord := ordered s q
  let s := loseQuads (onLink s q Quad.downed) (linkQuads s q) .dead
  let s := { s with lycelLog := s.lycelLog ++ [0x100 + q], qctl := s.qctl ||| 0x4000000000000000 }
  sendRecords (if ord then closeOrder s else s)

/-- Counts a failed attempt: the quad trains again, or goes DOWN (R202, R205). -/
def attemptFailed (s : State) (q : Nat) : State :=
  let n := (s.quad q).att + 1
  let s := onLink s q fun x => { x with att := n, st := .train }
  if 3 ≤ n then trainFailed s q else s

/-- The lane rates of a personality (R197). -/
def rateOk (pers rate : Nat) : Bool :=
  match pers with
  | 1 => 1 ≤ rate && rate ≤ 4
  | 2 => 1 ≤ rate && rate ≤ 3
  | 3 => rate == 5
  | _ => false

/-- The agreement record that this end sends (R205). It offers rate 4 and lane turn-round on UALink. -/
def ownRecord (s : State) (x : Quad) : BitVec 128 :=
  BitVec.ofNat 128 (pack [17, 2, 1, 8, 8, 4, 2, 10, 12, 64]
    [0, x.att + 1, (x.pers == 1).nat, x.good.toNat % 16, x.good.toNat, x.offer, x.pers, s.image.accId.toNat,
      s.image.cfgGen.toNat, packageUid.toNat])

/-- TRAINING_DONE: lanes trained at a rate of the standard, within what the last attempt left, or training failed (R197, R202,
R205). -/
def execTrainingDone (q : Nat) (ok : Bool) (good : BitVec 8) (rate : BitVec 4) (s : State) : Out :=
  let offer := min (s.quad q).offer rate.toNat
  if (s.quad q).st ≠ .train then .next s
  else if !ok || !rateOk (s.quad q).pers offer then .next (attemptFailed s q)
  else
    let s := onLink s q fun x => { x with st := .agree, good := x.good &&& good, offer := offer }
    .next (s.send (.agreement q (ownRecord s (s.quad q))))

/-- The peer's lanes in this end's numbering: a lane that the peer drives is one that this end receives (log 26). -/
def mirrored (g : BitVec 8) : BitVec 8 := (g <<< 4) ||| (g >>> 4)

/-- The lanes of a set, lowest first. -/
def lanesOf (g : BitVec 8) : List Nat := (List.range 8).filter fun i => g.getLsbD i

/-- The set of some lanes. -/
def lanesSet (l : List Nat) : BitVec 8 := BitVec.ofNat 8 (l.map (2 ^ ·)).sum

/-- Lanes that transmit and receive when lanes are turned round: with G good lanes, floor and ceiling of G/2, and `low` says
that the extra one transmits (R206). -/
def turned (good : BitVec 8) (low : Bool) : BitVec 8 × BitVec 8 :=
  let tx := (lanesOf good).filter (· < 4)
  let rx := (lanesOf good).filter (4 ≤ ·)
  let n := tx.length + rx.length
  let want := if low then (n + 1) / 2 else n / 2
  let toRx := tx.take (tx.length - want)
  let toTx := rx.take (want - tx.length)
  (lanesSet (tx.drop (tx.length - want) ++ toTx), lanesSet (toRx ++ rx.drop (want - tx.length)))

/-- Lanes of one direction toward a peer that is no Solsor package: a width of 3 is used as 2 (R206). -/
def plainLanes (ls : List Nat) : BitVec 8 := lanesSet (if ls.length = 3 then ls.take 2 else ls)

/-- The lanes that an agreement uses, or none when a direction keeps no lane (R205, R206). -/
def agreed (good : BitVec 8) (both : Bool) (low : Bool) (solsor : Bool) : Option (BitVec 8 × BitVec 8) :=
  if both then if (lanesOf good).length < 2 then none else some (turned good low)
  else
    let tx := (lanesOf good).filter (· < 4)
    let rx := (lanesOf good).filter (4 ≤ ·)
    if tx.isEmpty || rx.isEmpty then none
    else if solsor then some (lanesSet tx, lanesSet rx) else some (plainLanes tx, plainLanes rx)

/-- AGREEMENT_RECORD: the peer's view arrives. Views that agree lead to MAP; a view that differs in lanes or rate, or in the lanes
that the peer proposes to drive, limits the next training to what both have; a view that differs in PERS or CFGGEN fails the
attempt. Rate 4 needs a Solsor package at both ends of a UALink quad (R197, R205; log 26). DESIGN CHOICE: bits [16:0] of the record,
which are reserved, are not looked at (R4; log 37). -/
def execAgreementRecord (q : Nat) (r : BitVec 128) (s : State) : Out :=
  let x := s.quad q
  let n := r.toNat
  if x.st ≠ .agree then .next s
  else
    let peer := field n 64 64
    let gen := field n 52 12
    let solsor := bit n 19
    let both := solsor && x.pers == 1
    let low := min x.offer (field n 36 4)
    let rate := if low = 4 ∧ !both then 3 else low
    let theirs := mirrored (BitVec.ofNat 8 (field n 28 8))
    let good := x.good &&& theirs &&& (0x0F ||| mirrored (BitVec.ofNat 8 (field n 20 8)))
    if field n 40 2 ≠ x.pers ∨ gen ≠ s.image.cfgGen.toNat ∨ !rateOk x.pers rate then .next (attemptFailed s q)
    else match agreed good both (decide (packageUid.toNat < peer)) solsor with
      | none => .next (attemptFailed s q)
      | some (tx, rx) =>
        if good ≠ x.good ∨ good ≠ theirs ∨ rate ≠ x.offer ∨ rate ≠ field n 36 4 then
          .next (attemptFailed (onLink s q fun x => { x with good := good, offer := rate }) q)
        else
          .next (onLink s q fun x => { x with
            st := .map, txuse := tx, rxuse := rx, rate := rate, turn := decide (tx &&& 0xF0 ≠ 0 ∨ rx &&& 0x0F ≠ 0)
            peer := BitVec.ofNat 64 peer, peerGen := BitVec.ofNat 12 gen, peerAcc := BitVec.ofNat 10 (field n 42 10)
            solsor := solsor })

/-- The UALink quads, as a mask. -/
def ualinkMask (s : State) : BitVec 64 :=
  BitVec.ofNat 64 (((List.range 64).filter fun q => (s.quad q).pers == 1).map (2 ^ ·)).sum

/-- Writes an entry of a table of R199, within the size of the table. -/
def mapEntry (s : State) : MapEntry → State
  | .route acc m => if acc < 1024 then { s with routes := insertAt acc (m &&& ualinkMask s) s.routes } else s
  | .uec i ip ep port key => if i < 4096 then { s with uec := insertAt i ⟨ip, ep, port, key⟩ s.uec } else s
  | .window i v => { s with cxlwin := s.cxlwin.set i (v &&& cxlwinMask) }

/-- MAP_DONE: the tables are written from the peer's view, and the quad is UP (R199, R202, R208). -/
def execMapDone (q : Nat) (entries : List MapEntry) (s : State) : Out :=
  if (s.quad q).st ≠ .map then .next s
  else
    let s := entries.foldl mapEntry s
    let ord := ordered s q
    let s := onLink s q fun x => { x with st := .up, att := 0, retraining := false, good := 0xFF, offer := 15 }
    .next (sendRecords (if ord then closeOrder s else s))

/-- RETIRE: a peer withdraws a quad, which leaves every mask of this package (R203). -/
def execRetire (q : Nat) (s : State) : Out := .next (unroute s [q])

/-- RETRAIN: a quad in UP has lost a lane, or a lane's corrected errors pass the limit of the configuration image; what it holds
waits (R204). -/
def execRetrain (e : LaneErrors) (s : State) : Out :=
  if (s.quad e.quad).st = .up ∧ (e.lost ∨ s.image.laneLimit < e.errors) then
    .next (onLink s e.quad fun x => { x with st := .train, retraining := true, att := 0, good := 0xFF, offer := 15 })
  else .next s

/-! ### Pod time (R209) -/

/-- The UP UALink quads. -/
def ualinks (s : State) : List Nat := (List.range 64).filter fun q => (s.quad q).pers == 1 && (s.quad q).st == .up

/-- POD_TIME_BEACON: a beacon that has not come before is forwarded with the measured delay, and says by how much PODTIME is to be
corrected; the time root takes none. Its rate, and never its value, is corrected (R209; log 13). -/
def execPodTimeBeacon (q : Nat) (b : Beacon) (s : State) : Out :=
  if s.image.timeRoot || b.origin.toNat ≤ s.beacon.toNat then .next s
  else
    let t := b.time + BitVec.ofNat 64 (s.quad q).delay
    let s := (ualinks s).foldl (fun s r => s.send (.beacon r b.origin t)) s
    let slew : Int := (t.toNat : Int) - s.podtime.toNat
    .next { s with beacon := b.origin, beaconAt := some s.now, slew, ptstat := s.ptstat && !(slew.natAbs ≤ 3) }

/-- BEACON_SEND: the time root sends its time on each UP UALink quad. -/
def execBeaconSend (s : State) : Out :=
  .next (if s.image.timeRoot then (ualinks s).foldl (fun s r => s.send (.beacon r s.podtime s.podtime)) s else s)

/-- LINK_DELAY_MEASURE: a two-way exchange measures a link's delay. -/
def execLinkDelayMeasure (q ns : Nat) (s : State) : Out :=
  if (s.quad q).st = .up then .next (onLink s q fun x => { x with delay := ns }) else .next s

/-- BEACON_LOSS: no beacon for 1 ms; the package runs free. -/
def execBeaconLoss (s : State) : Out :=
  .next (if s.image.timeRoot || s.beaconAt.any (fun b => s.now < b + 1000000) then s else { s with ptstat := true })

/-! ### Flow control (R210) -/

/-- The newest FREED that has come restores the allowance of a class (R210). -/
def takeFreed (s : State) (link cls : Nat) (freed : BitVec 32) : State :=
  { s with credits := insertAt (8 * link + cls) { s.credit link cls with lastFreed := freed } s.credits }

/-- FLOW_CONTROL_TOTALS_SEND: both totals go out in a control flit; both ends of a link between dies are in this package, so that
its sender has them at once. -/
def execFlowControlTotalsSend (link cls : Nat) (s : State) : Out :=
  let c := s.credit link cls
  .next (if link < 64 then s.send (.totals link cls c.sent c.freed) else takeFreed s link cls c.freed)

/-- FLOW_CONTROL_TOTALS: the peer's totals arrive; its FREED restores the allowance. -/
def execFlowControlTotals (link cls : Nat) (_sent freed : BitVec 32) (s : State) : Out :=
  .next (takeFreed s link cls freed)

/-- FLIT_CRC_ERROR: a flit that fails its CRC is sent again, and counted once (R210, R260); the peer of a quad is asked for it. -/
def execFlitCrcError (link : Nat) (s : State) : Out :=
  .next (if link < 64 then (s.countErr 9 1).send (.resend link) else s.countErr 9 1)

end Sys2Proof.Machine
end

