-- ==== Sys2Proof/Machine/Debug.lean ====
section
/-! DEFINITION. Debug: the words of the debug registers (R242, R243), halting, resuming and stepping (R244, R245, R255), halt
groups (R248, R249), PC matches (R253), trace times (R258) and snapshot latches (R259). -/

namespace Sys2Proof.Machine

/-! ### Register words -/

/-- DBGCTL as it reads (R242). -/
def dbgctlWord (x : Tile) : Word :=
  BitVec.ofNat 64 (pack [48, 4, 6, 1, 1, 1] [0, x.stslot, 0, x.uhalt.nat, x.bkh.nat, x.pass.nat])

/-- DBGSTAT (R243). -/
def dbgstatWord (x : Tile) : Word :=
  BitVec.ofNat 64 (pack [32, 16, 5, 1, 4, 4, 2]
    [0, min x.port.length 0xFFFF, x.group, 0, x.wphit.toNat, x.why, x.dbg.code])

/-- QSTAT of a quad (R207). -/
def qstatWord (x : Quad) : Word :=
  BitVec.ofNat 64 (pack [10, 14, 12, 4, 8, 8, 1, 2, 2, 3]
    [x.peerAcc.toNat, 0, x.peerGen.toNat, x.rate, x.rxuse.toNat, x.txuse.toNat, x.turn.nat, x.att, x.pers, x.st.code])

/-! ### Halting and resuming (R244, R245) -/

/-- HREQ: a tile halts on its own account; one that steps is HALTED at once, with nothing stepped (R244). -/
def haltRequest (s : State) (tile : Nat) : State := s.halt tile 0 0 0

/-- HREQ (R242, R244). -/
def execHreq (tile : Nat) (s : State) : Out := .next (haltRequest s tile)

/-- HALT_COMPLETE: every strand of the tile stands at an instruction boundary (R244). -/
def execHaltComplete (tile : Nat) (s : State) : Out :=
  let x := s.tile tile
  if x.dbg = .halting then .next (s.putTile tile { x with dbg := .halted }) else .next s

/-- Resumes a halted tile: queued landings are applied before any strand issues (R245), and a record is written (R257).
DESIGN CHOICE: its STRAND is 0, and LVT on a tile without an owner (log 29). -/
def resumeTile (s : State) (tile : Nat) : State :=
  let x := s.tile tile
  if x.dbg = .halted then
    let s := (s.putTile tile { x with dbg := .running, stepSlot := none, stepped := false }).trace tile ((x.owner.map (·.2)).getD 0) 0 9 31 0
    drainPort s tile
  else s

/-- RUN (R242, R244, R245). -/
def execRun (tile : Nat) (s : State) : Out := .next (resumeTile s tile)

/-- A halted tile steps a slot (R242, R255); a slot number above 7 names no strand. -/
def stepTile (s : State) (tile slot : Nat) : State :=
  let x := s.tile tile
  if x.dbg = .halted then
    s.putTile tile { x with
      dbg := .stepping, stslot := slot, stepSlot := if slot < 8 then some slot else none, stepped := false }
  else s

/-- STEP (R255). -/
def execStep (tile slot : Nat) (s : State) : Out := .next (stepTile s tile slot)

/-- STEP_COMPLETE: the stepped instruction has issued (R244, R255). DESIGN CHOICE: STRAND of its record is 0 (log 29). -/
def execStepComplete (tile : Nat) (s : State) : Out :=
  let x := s.tile tile
  if x.dbg = .stepping ∧ x.stepped then
    .next ((s.putTile tile { x with dbg := .halted, why := 5, wphit := 0, stepSlot := none, stepped := false }).trace tile
      ((x.owner.map (·.2)).getD 0) 0 9 5 0)
  else .next s

/-- Sets PASS; on a halted tile the queued landings are applied in arrival order (R245). -/
def setPass (s : State) (tile : Nat) (on : Bool) : State :=
  let s := s.onTile tile fun x => { x with pass := on }
  if on then drainPort s tile else s

/-- PASS_WRITE: a write that sets PASS (R245). -/
def execPassWrite (tile : Nat) (s : State) : Out := .next (setPass s tile true)

/-! ### Snapshots (R259) -/

/-- What a tile latches. -/
def tileItem (s : State) (i : Nat) (x : Tile) : SnapItem :=
  let v := s.standing i
  let steps : List Nat := match v with
    | some (id, lr, _) => match s.team? id with
      | some t => [Scope.tile, .grp, .die, .pkg, .pod].map fun l => s.stepOf t id l lr
      | none => []
    | none => []
  let strands : List Nat := (List.range 9).flatMap fun j => match s.strandAt i j with
    | some k => [j, k.pc.toNat, k.wait.code, k.sfull.toNat, k.vfull.toNat]
    | none => []
  ⟨0, i, [(dbgstatWord x).toNat, ((v.map fun (v : Nat × Nat × Vtile) => v.2.2.fstat).getD 0).toNat] ++ steps ++ strands⟩

/-- What the Sprue of a tile latches: its outstanding copies and the completed bytes of each, which are those that have landed. -/
def sprueItem (s : State) (i : Nat) : SnapItem :=
  let cs := s.copies.filter fun c => c.2.who.tile == i
  ⟨1, i, cs.length :: cs.map fun c => landedBytes s c.1 c.2⟩

/-- What the matrix unit of a tile latches. -/
def matrixItem (s : State) (i : Nat) : SnapItem :=
  match s.standing i with
  | some (_, _, v) =>
    ⟨2, i, [v.mq.length, (v.mq.head?.map fun e => if e.started then e.kdone else 0).getD 0]
      ++ v.accs.toList.flatMap fun a => [a.rns.nat, a.full.nat]⟩
  | none => ⟨2, i, [0, 0]⟩

/-- What the Anvil nodes latch: by unit and open phase, arrivals and the largest abort code. -/
def anvilItems (s : State) : List SnapItem :=
  s.units.flatMap fun u => u.2.phases.map fun p =>
    ⟨3, u.1, [p.1, p.2.arrivals.length, (p.2.arrivals.map fun a => a.code.toNat).foldl max 0]⟩

/-- What a quad latches: QSTAT, and SENT and FREED of each class. -/
def quadItem (s : State) (q : Nat) : SnapItem :=
  ⟨5, q, (qstatWord (s.quad q)).toNat :: (List.range 4).flatMap fun c =>
    [(s.credit q c).sent.toNat, (s.credit q c).freed.toNat]⟩

/-- Latches every block of the package into its bank (R259). Tiles that stand as at reset latch nothing. -/
def latch (s : State) : State :=
  { s with snaps := s.tiles.map (fun x => tileItem s x.1 x.2) ++ s.tiles.map (fun x => sprueItem s x.1)
      ++ s.tiles.map (fun x => matrixItem s x.1) ++ anvilItems s
      ++ [⟨4, 0, (s.runs.filter fun r => r.2.open_).map fun r => r.2.status.toNat⟩]
      ++ (List.range 64).map (quadItem s) }

/-- SNAPGO: a write of 1 to the register (R259). -/
def execSnapgo (s : State) : Out := .next (latch s)

/-! ### Halt groups (R248, R249) -/

/-- A trigger of a group: its members halt, and the group may latch the snapshots (R248, R249). -/
def groupTrigger (s : State) (g : Nat) : State :=
  let s := s.tiles.foldl (fun s x => if bit x.2.haltgrp.toNat g then s.halt x.1 1 0 g else s) s
  if bit s.hgcfg.toNat g then latch s else s

/-- HALT_GROUP_TRIGGER: the trigger of a tile that halted on its own account, sent on to the pod for a joined group; a tile
number from 1,024 on stands for a peer's trigger, which acts on a joined group alone (R248, R249). -/
def execHaltGroupTrigger (tile g : Nat) (s : State) : Out :=
  let x := s.tile tile
  let joined := bit s.hgcfg.toNat (32 + g)
  if 32 ≤ g then .next s
  else if 1024 ≤ tile then .next (if joined then groupTrigger s g else s)
  else if x.dbg ≠ .running ∧ x.ownHalt ∧ bit x.haltgrp.toNat (32 + g) then
    .next (groupTrigger (if joined then s.tellPod fun acc q => .haltTrigger acc q g else s) g)
  else .next s

/-- Resumes every member of the groups of a mask (R248). -/
def resumeGroups (s : State) (mask : Nat) : State :=
  s.tiles.foldl (fun s x => if x.2.haltgrp.toNat % 2 ^ 32 &&& mask ≠ 0 then resumeTile s x.1 else s) s

/-- A write to HGRUN, or with `peer` one in another package of the pod: members of the groups resume, and those of the joined
groups in every package (R248, R249). -/
def hgrun (s : State) (peer : Bool) (mask : Nat) : State :=
  let joined := mask &&& field s.hgcfg.toNat 32 32
  if peer then resumeGroups s joined
  else resumeGroups (if joined = 0 then s else s.tellPod fun acc q => .haltResume acc q (BitVec.ofNat 32 joined)) mask

/-- HGRUN (R248). -/
def execHgrun (x : GroupRun) (s : State) : Out := .next (hgrun s x.peer x.mask.toNat)

/-! ### PC matches and trace times -/

/-- PC_MATCH: a strand whose next instruction an enabled entry names tries to issue at once, and meets the match if it can (R252,
R253): `issuesTo` is where a match is met. What waits after its issue is matched no more (R83, R386; log 29). -/
def execPcMatch (tile slot : Nat) (s : State) : Out :=
  match s.strandAt tile slot with
  | none => .next s
  | some k =>
    if mayIssue s tile slot k && !k.issued && (matchEntry (s.tile tile) slot k.pc).isSome then
      .next { s with agenda := .issue tile slot :: s.agenda }
    else .next s

/-- TRACE_TIME_RECORD: every 1 ms while tracing is enabled (R258). DESIGN CHOICE: no strand causes it, and STRAND is 0; so is LVT on a
tile that no vtile owns (log 29). -/
def execTraceTimeRecord (tile : Nat) (s : State) : Out :=
  .next (s.trace tile (((s.tile tile).owner.map (·.2)).getD 0) 0 11 0 s.podtime.toNat)

end Sys2Proof.Machine
end

