-- ==== Sys2Proof/Machine/Regs.lean ====
section
/-! DEFINITION. The system registers (R294): who may read and write each, what each reads as, and what a write to it does
(R363). -/

namespace Sys2Proof.Machine

/-! ### Access (R294) -/

/-- Whether team mode may read a register. -/
def teamReads : SysReg → Bool
  | .teamid | .asid | .vtile | .ptile | .strand | .cycle | .podtime | .ptstat | .stepc _ | .loadg | .fstat | .imbal _
  | .replay | .acct _ | .acctsat | .dbgstat | .haltgrp => true
  | _ => false

/-- Whether team mode may write a register. -/
def teamWrites : SysReg → Bool
  | .fstat | .qdoor | .replay => true
  | _ => false

/-- A team of ASID 0 runs in system mode (R293). -/
def Team.system (t : Team) : Bool := t.asid == 0

/-! ### Reading -/

/-- A register as it stands, for a tile, a strand slot of it, and a team and local rank; a write-only register reads 0 (R294).
`mark` is the replay mark of the strand that reads. -/
def regRead (s : State) (tile slot : Nat) (who : Option (Nat × Nat)) (mark : Bool) (r : SysReg) : Word :=
  let x := s.tile tile
  let t := who.bind fun w => s.team? w.1
  let v := who.bind fun w => s.vtile? w.1 w.2
  let n (k : Nat) : Word := BitVec.ofNat 64 k
  match r with
  | .teamid => n ((t.map (·.teamid)).getD 0)
  | .asid => n ((t.map (·.asid)).getD 0)
  | .vtile => n ((t.map fun t => t.rank ((who.map (·.2)).getD 0)).getD 0)
  | .ptile => n tile
  | .strand => n slot
  | .cycle => s.cycleOf tile
  | .podtime => s.podtime
  | .ptstat => n s.ptstat.nat
  | .stepc l => n ((t.bind fun t => who.map fun w => s.stepOf t w.1 l w.2).getD 0)
  | .loadg => x.loadg
  | .fstat => (v.map (·.fstat)).getD 0
  | .imbal i => n ((v.map fun v => field v.imbal.toNat (64 * i.val) 64).getD 0)
  | .replay => n mark.nat
  | .acct i => n ((t.map fun t => t.acct.get i).getD 0)
  | .acctsat => n ((t.map fun t => t.acctsat.toNat).getD 0)
  | .dbgctl => dbgctlWord x
  | .dbgstat => dbgstatWord x
  | .haltgrp => x.haltgrp
  | .hgcfg => s.hgcfg
  | .wp i => x.wp.get i
  | .pcmt i => x.pcmt.get i
  | .pcmh => x.pcmh
  | .trctl => x.trctl
  | .trpos => x.trpos
  | .qdbase => s.qdbase
  | .qdlen => n s.qdlen
  | .vacate => s.vacateReg
  | .dtbase => s.dtbase
  | .dlbase => s.dlbase
  | .quiesce => s.quiesce
  | .qctl => s.qctl
  | .portw => s.portw
  | .cxlwin i => s.cxlwin.get i
  | .qstat i => qstatWord (s.quad i.val)
  | .qpeer i => (s.quad i.val).peer
  | .errc i => s.errc.get i
  | .snapreq => s.snapreq
  | .fsnap => s.fsnap
  | .pwrcap => s.pwrcap
  | .qdoor | .hgrun | .snapgo | .htinv | .acolor => 0

/-! ### Writing -/

/-- Registers that only hold what is written, reserved bits excepted, and clear what they must (R4, R363). While a team is live, a
write to QDBASE, QDLEN, DTBASE or DLBASE breaks the obligation of R294 and would change what other teams have there, which R7
rules out: it leaves them as they are. DESIGN CHOICE
(log 36): a QDLEN above 65,536 is held as 65,536, and the low bits of QDBASE, DTBASE and DLBASE, which their alignment makes
zero, are dropped; R294 asks for these values and does not say what another write leaves. -/
def plainWrite (s : State) (tile : Nat) (r : SysReg) (v : Word) : State :=
  match r with
  | .haltgrp => s.onTile tile fun x => { x with haltgrp := v }
  | .hgcfg => { s with hgcfg := v }
  | .wp i => s.onTile tile fun x => { x with wp := x.wp.set i (v &&& 0xFE0FFFFF0007FFFF) }
  | .pcmt i => s.onTile tile fun x => { x with pcmt := x.pcmt.set i (v &&& 0xCFFF00FFFFFFFFF8) }
  | .pcmh => s.onTile tile fun x => { x with pcmh := v &&& 0x000000FFFFFFFFF8 }
  | .trctl => s.onTile tile fun x => { x with
      trctl := v &&& 0xFFFFFFFFFFFFF000, trpos := if bit v.toNat 63 && !bit x.trctl.toNat 63 then 0 else x.trpos }
  | .qdbase => if !s.teams.isEmpty then s else { s with qdbase := v &&& 0xFFFFFFFFFFFFFFC0 }
  | .qdlen => if !s.teams.isEmpty then s else { s with qdlen := min (field v.toNat 0 17) 65536 }
  | .dtbase => if !s.teams.isEmpty then s else { s with dtbase := v &&& 0xFFFFFFFFFFFFF000 }
  | .dlbase => if !s.teams.isEmpty then s else { s with dlbase := v &&& 0xFFFFFFFFFFFFF000 }
  | .acolor => { s with acolor := insertAt (field v.toNat 32 12) (BitVec.ofNat 6 (field v.toNat 0 6)) s.acolor }
  | .portw => { s with portw := v &&& portwMask }
  | .cxlwin i => { s with cxlwin := s.cxlwin.set i (v &&& cxlwinMask) }
  | .fsnap => { s with fsnap := v &&& 0x800FFFFFFFFFF01F }
  | .pwrcap => { s with pwrcap := v &&& 0xFFFF }
  | _ => s

/-- Clears an error counter (R260). -/
def clearErr (s : State) (i : Fin 11) : State := { s with errc := s.errc.set i 0 }

/-- Clears W1C bits of FSTAT of a vtile (R6, R174). -/
def fstatWrite (s : State) (id lr : Nat) (v : Word) : State := s.clearFstat id lr (v &&& 0x73)

/-- A write to DBGCTL: its fields, and then HREQ, RUN or STEP, where HREQ alone acts if several are set (R242, R245). -/
def dbgctlWrite (s : State) (tile : Nat) (v : Word) : State :=
  let n := v.toNat
  let hreq := bit n 63
  let run := bit n 62
  let stp := bit n 61
  let s := s.onTile tile fun x => { x with bkh := bit n 59, uhalt := bit n 58, stslot := field n 48 4 }
  let s := setPass s tile (bit n 60)
  if hreq then haltRequest s tile
  else if run && stp then s
  else if run then resumeTile s tile
  else if stp then stepTile s tile (field n 48 4)
  else s

/-- A write to SNAPREQ: ignored while BUSY (R267). -/
def snapreqWrite (s : State) (v : Word) : State :=
  if bit s.snapreq.toNat 63 then s
  else
    let fail := if bit v.toNat 63 then 0 else field s.snapreq.toNat 62 1
    { s with snapreq := (v &&& 0x800FFFFFFFFFFFC0) ||| BitVec.ofNat 64 (fail * 2 ^ 62) }

/-- A write of a register by a strand of a team, or for a tile (R294, R363). A write to a read-only register is ignored. -/
def regWrite (s : State) (tile : Nat) (who : Option (Nat × Nat)) (r : SysReg) (v : Word) : State :=
  match r with
  | .fstat => match who with
    | some w => fstatWrite s w.1 w.2 v
    | none => s
  | .qdoor =>
    let asid := (who.bind fun w => s.team? w.1).bind fun t => if t.system then none else some t.asid
    doorbell s asid (field v.toNat 0 16)
  | .dbgctl => dbgctlWrite s tile v
  | .hgrun => hgrun s false (field v.toNat 0 32)
  | .snapgo => if bit v.toNat 0 then latch s else s
  | .vacate => vacateOrder s v
  | .quiesce => quiesceWrite s v
  | .qctl => qctlWrite s v
  | .errc i => clearErr s i
  | .snapreq => snapreqWrite s v
  | r => plainWrite s tile r v

end Sys2Proof.Machine
end

