-- ==== Sys2Proof/Machine/Lycel.lean ====
section
/-! DEFINITION. Lycel: signed records on request (R267, R268, R270), register writes that are steps of their own (R111, R260,
R264, R363), the management endpoint (R241), and boot, power and heat (R272 to R274). -/

namespace Sys2Proof.Machine

/-! ### Requests (R267) -/

/-- The request block that SNAPREQ names: 64 bytes of HBM. -/
def requestAddr (s : State) : Nat := field s.snapreq.toNat 6 46 * 64

/-- Ends a request. -/
def endRequest (s : State) (failed : Bool) : State :=
  { s with snapreq := BitVec.ofNat 64 (failed.nat * 2 ^ 62 + requestAddr s) }

/-- Serves a request of a kind with a record, where one runs: a request that R267 names fails, and writes nothing (log 30), and so
does one whose block lies beyond HBM (log 19). -/
def serve (s : State) (kind : Nat) (record : Team → List Byte → State → List Byte) (after : State → State) : State :=
  let a := requestAddr s
  if !bit s.snapreq.toNat 63 then s
  else if !State.hbmHas a 64 then endRequest s true
  else
    let k := s.hbm (a + 2) 1
    match s.team? (s.hbm a 2) with
    | none => endRequest s true
    | some t =>
      if 2 ≤ k ∨ s.hbm (a + 3) 5 ≠ 0 then endRequest s true
      else if k ≠ kind then s
      else
        let s' := hbmBytes s (s.hbm (a + 8) 8 / 128 * 128) (record t (s.mem.read (hbmKey (a + 16)) 48) s)
        endRequest (after s') false

/-- COUNTER_SNAPSHOT: a request of kind 0 (R267, R268). -/
def execCounterSnapshot (s : State) : Out :=
  .next (serve s 0 (fun t nonce s => counterRecord s t nonce) fun s => { s with snapSeq := s.snapSeq + 1 })

/-- A composition record (R270). -/
def compositionBytes (t : Team) (nonce : List Byte) : List Byte :=
  let member (i : Nat) : Word := if i = t.pc then packageUid else (lookup i t.peerUids).getD 0
  signed (bytesOf 4 0x504D4F43 ++ bytesOf 2 1 ++ bytesOf 2 t.teamid ++ bytesOf 4 (t.f 416 32) ++ bytesOf 2 t.nP
    ++ bytesOf 2 t.pc ++ bytesOf 8 t.start ++ bytesOf 8 packageUid.toNat ++ bytesOf 48 Config.firmwareMeasurement.toNat
    ++ bytesOf 48 Config.configMeasurement.toNat
    ++ sha384 (t.map0.flatMap fun i => bytesOf 2 (0x8000 + i))
    ++ nonce ++ bytesOf 4 (t.f 64 32) ++ bytesOf 4 0 ++ bytesOf 24 0
    ++ (List.range t.nP).flatMap fun i => bytesOf 8 (member i).toNat)

/-- COMPOSITION_RECORD: a request of kind 1 (R267, R270). -/
def execCompositionRecord (s : State) : Out := .next (serve s 1 (fun t nonce _ => compositionBytes t nonce) id)

/-! ### Register writes -/

/-- FSTAT_CLEAR: a write of ones clears W1C bits (R111, R174). -/
def execFstatClear (id lr : Nat) (v : Word) (s : State) : Out := .next (fstatWrite s id lr v)

/-- ERRC_CLEAR (R260). -/
def execErrcClear (i : Fin 11) (s : State) : Out := .next (clearErr s i)

/-- Sets or clears the replay mark of a strand (R264). -/
def markReplay (s : State) (tile slot : Nat) (v : Bool) : State :=
  match s.strandAt tile slot with
  | none => s
  | some k => s.putAt tile slot { k with replay := v }

/-- REPLAY_WRITE (R264). -/
def execReplayWrite (tile slot : Nat) (v : Bool) (s : State) : Out := .next (markReplay s tile slot v)

/-- SYSTEM_REGISTER_WRITE: a register that has no behaviour of its own (R363). -/
def execSystemRegisterWrite (tile : Nat) (r : SysReg) (v : Word) (s : State) : Out := .next (plainWrite s tile r v)

/-! ### The management endpoint (R241) -/

/-- Answers bytes through the endpoint. -/
def reply (s : State) (bs : List Byte) : State := s.send (.mgmt bs)

/-- A strand of a halted tile. -/
def haltedStrand (s : State) (tile slot : Nat) : Option Strand :=
  if (s.tile tile).dbg = .halted then s.strandAt tile slot else none

/-- A strand with the full bit of a vector register set or cleared (R101). -/
def Strand.setFullV (k : Strand) (r : VNum) (full : Bool) : Strand :=
  let m := BitVec.ofNat 32 (2 ^ r.val)
  { k with vfull := if full then k.vfull ||| m else k.vfull &&& ~~~m }

/-- Reads something of a halted strand; an empty answer says that there is none. -/
def readHalted (s : State) (tile slot : Nat) (f : Strand → List Byte) : State :=
  reply s (((haltedStrand s tile slot).map f).getD [])

/-- Changes a halted strand. -/
def writeHalted (s : State) (tile slot : Nat) (f : Strand → Strand) : State :=
  match haltedStrand s tile slot with
  | some k => s.putAt tile slot (f k)
  | none => s

/-- The image bytes [ofs, ofs + n) of a vtile's save area (R183). -/
def imagePart (s : State) (id lr ofs n : Nat) : Option Nat :=
  match s.team? id with
  | some t => if lr < t.size ∧ ofs + n ≤ t.saveSize then some (hbmKey (t.img lr + ofs)) else none
  | none => none

/-- MANAGEMENT_ENDPOINT_ACCESS: every register that system mode reaches, of any tile, the store and the strands of a halted tile, save images, team-map
entries, snapshot banks, and what Lycel keeps (R241, R259, R266, R272, R293). -/
def execManagementEndpointAccess (m : Mgmt) (s : State) : Out :=
  match m with
  | .readReg tile slot r =>
    let mark := ((s.strandAt tile slot).map (·.replay)).getD false
    .next (reply s (bytesOf 8 (regRead s tile slot (s.tile tile).owner mark r).toNat))
  | .writeReg tile slot r v =>
    .next (match r with
      | .replay => markReplay s tile slot (v.getLsbD 0)
      | .qdoor => doorbell s none (field v.toNat 0 16)
      | r => regWrite s tile (s.tile tile).owner r v)
  | .readPc tile slot => .next (readHalted s tile slot fun k => bytesOf 8 k.pc.toNat)
  | .writePc tile slot pc => .next (writeHalted s tile slot fun k => { k with pc, wait := if k.issued then .none else k.wait })
  | .readStore tile o n =>
    .next (reply s (if (s.tile tile).dbg = .halted ∧ o + n ≤ storeSize then s.mem.read (storeKey tile o) n else []))
  | .writeStore tile o bs =>
    .next (if (s.tile tile).dbg = .halted ∧ o + bs.length ≤ storeSize then s.write (storeKey tile o) bs else s)
  | .readImage id lr o n =>
    .next (reply s (((imagePart s id lr o n).map fun a => s.mem.read a n).getD []))
  | .writeImage id lr o bs =>
    .next (match imagePart s id lr o bs.length with
      | some a => s.commit a bs
      | none => s)
  | .readScalar tile slot r => .next (readHalted s tile slot fun k => bytesOf 8 (k.rd r).toNat ++ [BitVec.ofNat 8 (k.full r).nat])
  | .writeScalar tile slot r v full =>
    .next (writeHalted s tile slot fun k => if full then k.wr r v else (k.wr r v).empty r)
  | .readVector tile slot r =>
    .next (readHalted s tile slot fun k => bytesOf 256 (k.rdV r).toNat ++ [BitVec.ofNat 8 (k.fullV r).nat])
  | .writeVector tile slot r v full => .next (writeHalted s tile slot fun k => (k.wrV r v).setFullV r full)
  | .readPred tile slot r => .next (readHalted s tile slot fun k => bytesOf 32 (k.rdP r).toNat)
  | .writePred tile slot r v => .next (writeHalted s tile slot fun k => k.wrP r v)
  | .readShape tile slot r => .next (readHalted s tile slot fun k => bytesOf 32 (k.rdM r).toNat)
  | .writeShape tile slot r v => .next (writeHalted s tile slot fun k => k.wrM r v)
  | .readMap id lr =>
    .next (reply s (((s.vtile? id lr).map fun v => bytesOf 2 (v.res.nat * 2 ^ 15 + v.ptile)).getD []))
  | .writeMap id lr v =>
    .next (s.onVtile id lr fun x => { x with res := bit v.toNat 15, ptile := field v.toNat 0 10 })
  | .readBank i => .next (reply s (((s.snaps[i]?).map fun x => x.words.flatMap (bytesOf 8)).getD []))
  | .readBoot => .next (reply s (match s.boot with
      | .reset n => [BitVec.ofNat 8 n]
      | _ => []))
  | .readCertificate => .next (reply s Config.certificate)

/-! ### Boot, power and heat (R272 to R274) -/

/-- Whether boot takes the configuration image: its signature holds, and its CFGGEN is not below the fused minimum (R271). -/
def imageTaken (m : Config.Image) : Bool := m.signed && m.minGen.toNat ≤ m.cfgGen.toNat

/-- The steps at which boot fails by what the image holds: verifying it is step 2 (R271). DEDUCED: a personality map beyond the
limits of R196 fails step 4, where the quads take their personalities (log 30). -/
def imageFails (m : Config.Image) : Option Nat :=
  if !imageTaken m then some 2 else if !mapOk fun q => ((m.map.toList.getD q 0).val) then some 4 else none

/-- The step at which boot fails, when an error befalls step `failed` (R272). -/
def bootFails (m : Config.Image) (failed : Option Nat) : Option Nat :=
  match failed, imageFails m with
  | some n, some k => some (min n k)
  | some n, none => some n
  | none, k => k

/-- POWER_ON: Lycel boots the package, or stops at a failed step, whose number can be read (R272). The spare-tile map is applied
(R14), quads with a personality train, and pod time is acquired as `x.time`, or the package runs free unless it is the time root
(R209). -/
def execPowerOn (x : PowerUp) (s : State) : Out :=
  match s.boot with
  | .reset _ =>
    match bootFails s.image x.failed with
    | some n => .next { s with boot := .reset n }
    | none =>
      let s := { s with
        boot := .booted, spare := s.image.spare, lostSite := s.image.failed
        podtime := x.time.getD s.podtime, beaconAt := x.time.map (·.toNat)
        ptstat := x.time.isNone && !s.image.timeRoot }
      .next ((List.range 64).foldl
        (fun s q => if (s.quad q).pers = 0 then s else s.putQuad q { s.quad q with st := .train }) s)
  | _ => .next s

/-- Sets the clock of a die. -/
def setClock (s : State) (die mhz : Nat) : State :=
  if h : die < 4 then { s with clocks := s.clocks.set die mhz } else s

/-- POWER_CAP_THROTTLE: Lycel lowers the clock of a die by steps of 100 MHz, down to 1.5 GHz (R273). No value depends on it
(log 13). -/
def execPowerCapThrottle (die mhz : Nat) (s : State) : Out :=
  .next (if 1500 ≤ mhz ∧ mhz % 100 = 0 ∧ mhz < s.clocks.toList.getD die 0 then setClock s die mhz else s)

/-- THERMAL_THROTTLE: 1.5 GHz at 105 °C (R274). -/
def execThermalThrottle (die : Nat) (s : State) : Out :=
  .next (if h : die < 4 then { setClock s die 1500 with hot := s.hot.set die true } else s)

/-- THERMAL_RECOVERY: below 100 °C a throttled die is released (R274). -/
def execThermalRecovery (die : Nat) (s : State) : Out :=
  .next (if h : die < 4 then
      (if s.hot[die] then { setClock s die 3000 with hot := s.hot.set die false } else s) else s)

/-- THERMAL_SHUTDOWN: at 115 °C the package logs the event and powers down (R274). -/
def execThermalShutdown (s : State) : Out := .next { s with lycelLog := s.lycelLog ++ [0x200], boot := .off }

end Sys2Proof.Machine
end

