-- ==== Sys2Proof/Machine/Matrix.lean ====
section
/-! DEFINITION. The matrix unit: accumulators (R125, R126), the matrix queue (R136, R301), MMA (R133 to R140), codebooks
(R141), ALD, AST, AZERO and ASCALE (R304 to R314). -/

namespace Sys2Proof.Machine

/-! ### Arithmetic (R117 to R120, R135) -/

/-- B_K of R117 and R118. -/
def blockSize : Fmt → Nat
  | .bf16 | .f16 => 32
  | .f32 => 8
  | _ => 64

/-- A float operand element, negated when asked; padding is exact zero. DESIGN CHOICE: R131 gives that zero no sign; it is +0, and −0
when it is negated (log 36). -/
def floatElem (k : FKind) (neg : Bool) : Option Nat → FVal
  | none => if neg then .fin true 0 0 else .fin false 0 0
  | some x => if neg then (k.value x).neg else k.value x

/-- An integer operand element: an i8, or a c4 code decoded by a codebook (R113). -/
def intElem (t : Fmt) (cb : BitVec 128) (neg : Bool) : Option Nat → Int
  | none => 0
  | some x =>
    let v := if t = .c4 then toSigned 8 (field cb.toNat (8 * x) 8) else toSigned 8 x
    if neg then -v else v

/-- One output after a k-block: `first` says that the block is the first of an MMA with AD = 1. -/
def blockOut (f : MmaM) (cba cbb : BitVec 128) (first : Bool) (old : Nat) (xs ys : List (Option Nat)) : Nat :=
  match f.fmt.kind? with
  | some k =>
    let t := blockRound ((xs.zip ys).map fun p => (floatElem k f.na p.1).mul (floatElem k f.nb p.2))
    if first then t else FKind.f32.addBits old t
  | none =>
    let z := ((xs.zip ys).map fun p => intElem f.fmt cba f.na p.1 * intElem f.fmt cbb f.nb p.2).sum
    if first then rnsEncode z else rnsAdd old z

/-- The tag that an MMA of a format requires: true for rns (R134). -/
def needsRns (t : Fmt) : Bool := t == .i8 || t == .c4

/-! ### The queue -/

/-- Whether a queue entry is an ALD into an accumulator. -/
def MEntry.isAld (e : MEntry) (d : ANum) : Bool :=
  match e.op with
  | .ald _ _ => e.d == d
  | _ => false

/-- An entry that lets the next one start (R301). -/
def MEntry.finished (e : MEntry) : Bool :=
  match e.op with
  | .mma _ _ _ _ => e.started && e.kEnd ≤ e.kdone
  | _ => false

/-- Whether an incomplete MMA decodes with a codebook buffer (R141). -/
def MEntry.usesBuf (e : MEntry) (second : Bool) (n : Nat) : Bool :=
  match e.op with
  | .mma f _ _ _ => f.fmt == .c4 && (if second then e.bufB else e.bufA) == n
  | _ => false

/-- Cuts a queue at the first entry with a property. -/
def cutAt (p : MEntry → Bool) : List MEntry → Option (List MEntry × MEntry × List MEntry)
  | [] => none
  | e :: r =>
    if p e then some ([], e, r)
    else match cutAt p r with
      | some (x, y, z) => some (e :: x, y, z)
      | none => none

/-- The entry of an instruction that issues now. -/
def newEntry (s : State) (k : Strand) (word : Word) (op : MOp) (d : ANum) : MEntry :=
  { op, d, who := s.issuerOf k word, started := false, kdone := 0, bufA := 0, bufB := 0, touched := [] }

/-- The wait of an instruction that finds the matrix queue full (R136). -/
def needRoom (v : Vtile) : Do Unit := if v.mq.length < 16 then .ok () else .error (.wait .limit)

/-- Puts an entry at the end of the matrix queue, and the strand goes on. -/
def enqueueMatrix (s : State) (k : Strand) (e : MEntry) (g : Vtile → Vtile) : Do State :=
  retire (s.onVtile k.team k.lrank fun v => let v := g v; { v with mq := v.mq ++ [e] }) k

/-! ### Issue -/

/-- Accumulators that an MMA waits for: its destination, when an ALD into it is pending (R136). -/
def mmaWaits (s : State) (d : ANum) : List ANum :=
  match s.strand? with
  | none => []
  | some k => match s.vtile? k.team k.lrank with
    | none => []
    | some v => if v.mq.any fun e => e.isAld d then [d] else []

/-- MMA (R133 to R137). -/
def execMma (f : MmaM) (s : State) : Out :=
  .next (issue (.mma f) f.e { a := mmaWaits s f.d }
    (fun k s => withVtile s k fun t v => do
      let a := k.rdM f.a
      let b := k.rdM f.b
      checkAll s t [matOpd a .r, matOpd b .r]
      need (shapeOk a && shSpace a == 0 && shFmt a == f.fmt.code) 0x27 (shAddr a)
      need (mmaBOk f b) 0x27 (shAddr b)
      need (mmaAOk f a b) 0x27 (shAddr a)
      let tag := (v.accs.get f.d).rns
      need (f.ad || tag == needsRns f.fmt) 0x10
      needRoom v
      let e := { newEntry s k ((encode (.mma f)).getD 0) (.mma f a b (tag != needsRns f.fmt)) f.d with
        kdone := f.kst.toNat * 8, bufA := v.curA, bufB := v.curB
        touched := (MOp.mma f a b false).hit (v.race.rivals k.uid) }
      enqueueMatrix s k e fun v => v.onAcc f.d fun x => { x with rns := needsRns f.fmt, full := false }) s)

/-- The conditions of ALD and AST on their record that fail with 0x27 (R304, R312). -/
def accShapeOk (m : Shape) : Bool :=
  shapeOk m && shSpace m == 0 && !shUnf m && shIlv m == 0 && 1 ≤ shE m 0 && shE m 0 ≤ 64 && 1 ≤ shE m 1 && shE m 1 ≤ 64
    && shE m 2 == 1 && shE m 3 == 1

/-- Element indexes of a record modulo 8, over the dimensions that address elements (R129, R131). -/
def indexMods (m : Shape) : List Nat :=
  (List.range (shDims m)).foldl (fun rs d =>
    (rs.flatMap fun r => (List.range (min (shE m d) 8)).map fun i => (((r : Int) + i * shS m d) % 8).toNat).eraseDups) [0]

/-- The record's operand of an ALD or AST: every element is 4-aligned (R304, R312). Eight elements take a multiple of 4 bytes in
every format (R112). -/
def accOpd (m : Shape) (p : Perm) : Opd :=
  shapeOpd m (shDims m) p ((indexMods m).all fun n => elemOfs (shFormat m) (shOfs m) n % 4 == 0)

/-- The source elements of an ALD, by rows. -/
def aldElems (mem : Memory) (base : Nat) (m : Shape) : List (List (Option Nat)) :=
  (List.range (shE m 1)).map fun i => readElems mem base m (accRow m i)

/-- ALD (R304, R305). -/
def execAld (f : AldM) (s : State) : Out :=
  .next (issue (.ald f) f.e { a := [f.d] }
    (fun k s => withVtile s k fun t v => do
      let m := k.rdM f.a
      checkAll s t [accOpd m .r]
      need (accShapeOk m && shFmt m == f.fmt.code) 0x27 (shAddr m)
      needRoom v
      let e := { newEntry s k ((encode (.ald f)).getD 0) (.ald f.fmt m) f.d with
        touched := (MOp.ald f.fmt m).hit (v.race.rivals k.uid) }
      enqueueMatrix s k e fun v => v.onAcc f.d fun x => { x with rns := f.fmt == .rns, full := false }) s)

/-- AST (R312, R313). -/
def execAst (f : AstM) (s : State) : Out :=
  .next (issue (.ast f) f.e { a := [f.a] }
    (fun k s => withVtile s k fun t v => do
      let m := k.rdM f.d
      let x := v.accs.get f.a
      checkAll s t [accOpd m .w]
      need (accShapeOk m) 0x27 (shAddr m)
      need (shFmt m == (if x.rns then Fmt.rns.code else Fmt.f32.code)) 0x10
      if v.mq.any fun e => e.writes f.a then .error (.wait .limit) else .ok ()
      let ws := (List.range (shE m 1)).flatMap fun i => (List.range (shE m 0)).map fun j =>
        let y := x.elem i j
        (elemKey 0 m (shIndex2 m j i), bytesOf 4 (if x.rns then rnsAddWord y 0 else y))
      retire (s.storing k (ws.map fun w => (w.1, 4)) fun s =>
        s.writeAll (ws.map fun w => (storeKey v.ptile w.1, w.2))) k) s)

/-- AZERO (R314). -/
def execAzero (f : AzeroM) (s : State) : Out :=
  .next (issue (.azero f) f.e { a := [f.d] }
    (fun k s => withVtile s k fun _ v => do
      needRoom v
      enqueueMatrix s k (newEntry s k ((encode (.azero f)).getD 0) (.azero f.fmt) f.d)
        fun v => v.onAcc f.d fun x => { x with rns := f.fmt == .rns }) s)

/-- ASCALE (R310, R311). -/
def execAscale (f : AscaleM) (s : State) : Out :=
  .next (issue (.ascale f) f.e { a := [f.a, f.d], v := [f.b, f.sc] }
    (fun k s => withVtile s k fun _ v => do
      need (!(v.accs.get f.d).rns && (v.accs.get f.a).rns == (f.fmt == .rns)) 0x10
      needRoom v
      enqueueMatrix s k
        (newEntry s k ((encode (.ascale f)).getD 0) (.ascale f.fmt f.a (k.rdV f.b) (k.rdV f.sc)) f.d) id) s)

/-- CBLD (R141, R320). -/
def execCbld (f : CbldC) (s : State) : Out :=
  .next (issue (.cbld f) f.e { src := [f.a] }
    (fun k s => withVtile s k fun _ v => do
      let a := memAddr k f.a f.x
      needStore a 16 16
      need (!s.anyPoison (tileKey s a.toNat) 16) 0x26 a
      needRoom v
      let second := f.d == 1
      let n := 1 - (if second then v.curB else v.curA)
      if v.mq.any fun e => e.usesBuf second n then .error (.wait .limit) else .ok ()
      let x := BitVec.ofNat 128 (s.mem.num (tileKey s a.toNat) 16)
      enqueueMatrix s k (newEntry s k ((encode (.cbld f)).getD 0) .cbld 0) fun v =>
        if second then { v with curB := n, cbs := v.cbs.set (Fin.ofNat 4 (2 + n)) x }
        else { v with curA := n, cbs := v.cbs.set (Fin.ofNat 4 n) x }) s)

/-! ### Execution -/

/-- A mask from flags, flag 0 in bit 0. -/
def maskOf (l : List Bool) : Word := BitVec.ofNat 64 (ofLanes 1 (l.map Bool.nat))

/-- An entry of an accumulator whose outputs have all been replaced: changes of its operands bear on nothing (R137). -/
def forgotten (d : ANum) (e : MEntry) : MEntry := if e.d = d then { e with touched := [] } else e

/-- MATRIX_QUEUE_START: the first entry that has not started, when those ahead of it have finished (R301). AZERO and CBLD
take no time and leave the queue (R314, R320). -/
def execMatrixQueueStart (tile : Nat) (s : State) : Out :=
  match s.standing tile with
  | none => .next s
  | some (id, lr, v) =>
    match cutAt (fun e => !e.started) v.mq with
    | none => .next s
    | some (pre, e, post) =>
      if !pre.all MEntry.finished || s.stopsNow v || (s.tile tile).fenced then .next s
      else
        let go := { v with mq := pre ++ { e with started := true } :: post }
        .next (s.putVtile id lr (match e.op with
          | .mma f a b true =>
            let d := mmaDims f a b
            go.onAcc e.d fun x => x.setAll fun i j => if i < d.1 && j < d.2.1 then x.elem i j else 0
          | .azero _ => { v with mq := pre.map (forgotten e.d) ++ post }.forgetPast e.d |>.onAcc e.d fun x =>
              x.setAll fun _ _ => 0
          | .cbld => { v with mq := pre ++ post }
          | _ => go))

/-- The MACs of an MMA from its first k to `k` (R262). -/
def macs (f : MmaM) (a b : Shape) (k : Nat) : Nat :=
  let d := mmaDims f a b
  d.1 * d.2.1 * (k - f.kst.toNat * 8)

/-- An accumulator whose M x N region holds no block: what an MMA with AD = 1 leaves that stops at its first block, so that a reissue
with AD = 0 produces the bits of an unpoisoned run. That is -0 in f32, to which adding any value gives that value (R118, R120,
R140). -/
def Acc.noBlock (x : Acc) (f : MmaM) (d : Nat × Nat × Nat) : Acc :=
  x.setAll fun i j => if i < d.1 && j < d.2.1 then (if f.fmt.kind?.isSome then 0x80000000 else 0) else x.elem i j

/-- MMA_K_BLOCK: the next block of the streaming MMA, or its stop at a poisoned one (R118, R135, R140). DESIGN CHOICE: a discarded
later MMA with AD = 1 of another format has set the tag at its issue, and the accumulator keeps that tag (R134; log 37). -/
def execMmaKBlock (tile : Nat) (s : State) : Out :=
  match s.standing tile with
  | none => .next s
  | some (id, lr, v) =>
    match cutAt (fun e => e.started && e.kdone < e.kEnd) v.mq with
    | none => .next s
    | some (pre, e, post) =>
      if s.stopsNow v || (s.tile tile).fenced then .next s
      else match e.op with
        | .mma f a b _ =>
          let base := storeKey tile 0
          let d := mmaDims f a b
          let bk := blockSize f.fmt
          let part {α : Type} (l : List α) : List α := (l.drop e.kdone).take bk
          let ra := (List.range d.1).map fun i => part (rowIdx f a d.2.2 i)
          let cb := (List.range d.2.1).map fun j => part (colIdx b d.2.2 j)
          let pr := ra.map (elemsPoisoned s base a)
          let pc := cb.map (elemsPoisoned s base b)
          if pr.contains true || pc.contains true then
            let gone := (post.filter fun x => x.isMma e.d).length
            let first := f.ad && e.kdone == f.kst.toNat * 8
            let v' := ({ v with mq := pre ++ post.filter fun x : MEntry => !x.isMma e.d }.onAcc e.d fun x =>
              { e.spoilAcc s e.touched e.kdone (if first then x.noBlock f d else x) with full := true }).forgetPast e.d
            let s := ((s.putVtile id lr v').drewAcc id [!e.touched.isEmpty]).accountReplay id (macIndex f.fmt) 18 (macs f a b e.kdone)
              (s.replayOf id lr e.who.uid)
            .next (s.engineFault e.who 0x43 (maskOf pr) (maskOf pc)
              (BitVec.ofNat 64 (gone * 2 ^ 19 + e.kdone * 8 + e.d.val)) none)
          else
            let xs := ra.map (readElems s.mem base a)
            let ys := cb.map (readElems s.mem base b)
            let cba := v.cbs.toList.getD e.bufA 0
            let cbb := v.cbs.toList.getD (2 + e.bufB) 0
            let first := f.ad && e.kdone == f.kst.toNat * 8
            let all := first && d.1 == 64 && d.2.1 == 64
            let v := if all then v.forgetPast e.d else v
            let pre := if all then pre.map (forgotten e.d) else pre
            .next (s.putVtile id lr ({ v with mq := pre ++ { e with kdone := min d.2.2 (e.kdone + bk) } :: post }.onAcc e.d
              fun x => x.setAll fun i j =>
                if i < d.1 && j < d.2.1 then blockOut f cba cbb first (x.elem i j) (xs.getD i []) (ys.getD j [])
                else x.elem i j))
        | _ => .next s

/-- MMA_COMPLETE: the first MMA whose last k has entered the array (R126, R139, R262). -/
def execMmaComplete (tile : Nat) (s : State) : Out :=
  match s.standing tile with
  | none => .next s
  | some (id, lr, v) =>
    match cutAt MEntry.finished v.mq with
    | none => .next s
    | some (pre, e, post) =>
      if (s.tile tile).fenced then .next s
      else match e.op with
        | .mma f a b _ =>
          let rest := pre ++ post
          let chained := rest.any fun y => y.isMma e.d
          let v := if chained then { v with past := v.past ++ [{ e with touched := [] }] } else v.forgetPast e.d
          let v' := { v with mq := rest }.onAcc e.d fun x => { e.spoilAcc s e.touched e.kEnd x with full := !chained }
          .next (((s.putVtile id lr v').drewAcc id [!e.touched.isEmpty]).accountReplay id (macIndex f.fmt) 18
            (macs f a b e.kEnd) (s.replayOf id lr e.who.uid))
        | _ => .next s

/-- ALD_COMPLETE: the first ALD that has started (R305). -/
def execAldComplete (tile : Nat) (s : State) : Out :=
  match s.standing tile with
  | none => .next s
  | some (id, lr, v) =>
    match cutAt (fun e => e.started && e.isAld e.d) v.mq with
    | none => .next s
    | some (pre, e, post) =>
      if (s.tile tile).fenced then .next s
      else match e.op with
        | .ald fmt m =>
          let base := storeKey tile 0
          let pr := (List.range (shE m 1)).map fun i => elemsPoisoned s base m (accRow m i)
          if pr.contains true then
            let gone := (post.filter fun x => x.isMma e.d).length
            let v' := { v with mq := pre ++ post.filter fun x : MEntry => !x.isMma e.d }.onAcc e.d fun x =>
              { x.setAll (fun _ _ => 0) with full := true }
            .next ((s.putVtile id lr v').engineFault e.who 0x43 (maskOf pr) 0
              (BitVec.ofNat 64 (gone * 2 ^ 19 + e.d.val)) none)
          else
            let xs := aldElems s.mem base m
            let val (i j : Nat) : Nat :=
              match (xs.getD i []).getD j none with
              | none => 0
              | some y =>
                if elemsMeet e.touched m [some (shIndex2 m j i)] then freeElem s id e.d i j
                else if fmt = .rns then rnsAddWord y 0 else y
            let v' := { v with mq := pre ++ post }.onAcc e.d fun x => { x.setAll val with full := true }
            .next ((s.putVtile id lr v').drewAcc id [!e.touched.isEmpty])
        | _ => .next s

/-- One element of ASCALE (R124). -/
def scaleElem (rns : Bool) (x sr sc d : Nat) : Nat :=
  let fx := if rns then rne32 (.fin (rnsValue x < 0) (rnsValue x).natAbs 0) else x
  FKind.f32.addBits d (FKind.f32.mulBits (FKind.f32.mulBits fx sr) sc)

/-- ASCALE_COMPLETE: the first ASCALE that has started (R124, R311). -/
def execAscaleComplete (tile : Nat) (s : State) : Out :=
  match s.standing tile with
  | none => .next s
  | some (id, lr, v) =>
    match cutAt (fun e => e.started && match e.op with
        | .ascale _ _ _ _ => true
        | _ => false) v.mq with
    | none => .next s
    | some (pre, e, post) =>
      if (s.tile tile).fenced then .next s
      else match e.op with
        | .ascale fmt x sr sc =>
          let src := v.accs.get x
          let v' := { v with mq := pre ++ post }.onAcc e.d fun a => a.setAll fun i j =>
            scaleElem (fmt == Fmt.rns) (src.elem i j) (lane 32 sr i) (lane 32 sc j) (a.elem i j)
          .next ((s.putVtile id lr v').accountReplay id 7 19 12288 (s.replayOf id lr e.who.uid))
        | _ => .next s

end Sys2Proof.Machine
end

