-- ==== Sys2Proof/Machine/Scalar.lean ====
section
/-! DEFINITION. The scalar integer instructions (R287, R302) and the scalar float instructions (R328 to R334). -/

namespace Sys2Proof.Machine

/-- The R form: a result of the type from two operand values (R300, R302). -/
def intR (i : Instr) (f : IntR) (op : Int → Int → Int) (s : State) : State :=
  issue i f.e { src := [f.a, f.b], dst := [f.d] }
    (fun k s => retire s (k.wr f.d (extend f.ty (op (opnd f.ty (k.rd f.a)) (opnd f.ty (k.rd f.b)))))) s

/-- The I form: the second operand is the immediate (R278, R302). -/
def intI (i : Instr) (f : IntI) (op : Int → Int → Int) (s : State) : State :=
  issue i f.e { src := [f.a], dst := [f.d] }
    (fun k s => retire s (k.wr f.d (extend f.ty (op (opnd f.ty (k.rd f.a)) (opnd f.ty (immOf f.ty f.imm)))))) s

/-- The form of one source. -/
def intU (i : Instr) (f : IntU) (op : Nat → Nat → Nat) (s : State) : State :=
  issue i f.e { src := [f.a], dst := [f.d] }
    (fun k s => retire s (k.wr f.d (extend f.ty (op f.ty.bits ((k.rd f.a).toNat % 2 ^ f.ty.bits))))) s

/-- A bitwise operation on the low bits of two operands (R309). -/
def bitwise (t : Fmt) (op : Nat → Nat → Nat) (a b : Int) : Int := op (wrapNat t.bits a) (wrapNat t.bits b)

/-- The quotient truncated toward zero, −1 for a zero divisor (R326). -/
def quot (a b : Int) : Int := if b = 0 then -1 else a.tdiv b

/-- The remainder, the dividend for a zero divisor (R326). -/
def remn (a b : Int) : Int := if b = 0 then a else a - a.tdiv b * b

/-- The shift count (R356). -/
def shiftCount (t : Fmt) (b : Int) : Nat := wrapNat t.bits b % t.bits

/-- The shifts, before narrowing (R356). -/
def shl (t : Fmt) (a b : Int) : Int := wrapNat t.bits a * 2 ^ shiftCount t b
def shr (t : Fmt) (a b : Int) : Int := (wrapNat t.bits a / 2 ^ shiftCount t b : Nat)
def sra (t : Fmt) (a b : Int) : Int := toSigned t.bits (wrapNat t.bits a) / (2 ^ shiftCount t b : Nat)

/-- Number of one bits among the low `w` bits. -/
def popCount (w n : Nat) : Nat := ((List.range w).filter fun i => bit n i).length

/-- ADD (R303). -/
def execAddR (f : IntR) (s : State) : Out := .next (intR (.addR f) f (· + ·) s)
/-- ADD with an immediate (R303). -/
def execAddI (f : IntI) (s : State) : Out := .next (intI (.addI f) f (· + ·) s)
/-- SUB (R360). -/
def execSub (f : IntR) (s : State) : Out := .next (intR (.sub f) f (· - ·) s)
/-- MUL (R345). -/
def execMulR (f : IntR) (s : State) : Out := .next (intR (.mulR f) f (· * ·) s)
/-- MUL with an immediate (R345). -/
def execMulI (f : IntI) (s : State) : Out := .next (intI (.mulI f) f (· * ·) s)
/-- MULH: the high half of the double-width product (R345). -/
def execMulh (f : IntR) (s : State) : Out := .next (intR (.mulh f) f (fun a b => a * b / (2 ^ f.ty.bits : Nat)) s)
/-- DIV (R326). -/
def execDiv (f : IntR) (s : State) : Out := .next (intR (.div f) f quot s)
/-- REM (R326). -/
def execRem (f : IntR) (s : State) : Out := .next (intR (.rem f) f remn s)
/-- AND (R309). -/
def execAndR (f : IntR) (s : State) : Out := .next (intR (.andR f) f (bitwise f.ty (· &&& ·)) s)
/-- AND with an immediate (R309). -/
def execAndI (f : IntI) (s : State) : Out := .next (intI (.andI f) f (bitwise f.ty (· &&& ·)) s)
/-- OR (R347). -/
def execOrR (f : IntR) (s : State) : Out := .next (intR (.orR f) f (bitwise f.ty (· ||| ·)) s)
/-- OR with an immediate (R347). -/
def execOrI (f : IntI) (s : State) : Out := .next (intI (.orI f) f (bitwise f.ty (· ||| ·)) s)
/-- XOR (R387). -/
def execXorR (f : IntR) (s : State) : Out := .next (intR (.xorR f) f (bitwise f.ty (· ^^^ ·)) s)
/-- XOR with an immediate (R387). -/
def execXorI (f : IntI) (s : State) : Out := .next (intI (.xorI f) f (bitwise f.ty (· ^^^ ·)) s)
/-- SHL (R356). -/
def execShlR (f : IntR) (s : State) : Out := .next (intR (.shlR f) f (shl f.ty) s)
/-- SHL with an immediate (R356). -/
def execShlI (f : IntI) (s : State) : Out := .next (intI (.shlI f) f (shl f.ty) s)
/-- SHR (R356). -/
def execShrR (f : IntR) (s : State) : Out := .next (intR (.shrR f) f (shr f.ty) s)
/-- SHR with an immediate (R356). -/
def execShrI (f : IntI) (s : State) : Out := .next (intI (.shrI f) f (shr f.ty) s)
/-- SRA (R356). -/
def execSraR (f : IntR) (s : State) : Out := .next (intR (.sraR f) f (sra f.ty) s)
/-- SRA with an immediate (R356). -/
def execSraI (f : IntI) (s : State) : Out := .next (intI (.sraI f) f (sra f.ty) s)
/-- SLT (R357). -/
def execSltR (f : IntR) (s : State) : Out := .next (intR (.sltR f) f (fun a b => if a < b then 1 else 0) s)
/-- SLT with an immediate (R357). -/
def execSltI (f : IntI) (s : State) : Out := .next (intI (.sltI f) f (fun a b => if a < b then 1 else 0) s)
/-- MIN (R341). -/
def execMinR (f : IntR) (s : State) : Out := .next (intR (.minR f) f min s)
/-- MIN with an immediate (R341). -/
def execMinI (f : IntI) (s : State) : Out := .next (intI (.minI f) f min s)
/-- MAX (R341). -/
def execMaxR (f : IntR) (s : State) : Out := .next (intR (.maxR f) f max s)
/-- MAX with an immediate (R341). -/
def execMaxI (f : IntI) (s : State) : Out := .next (intI (.maxI f) f max s)
/-- CLZ (R321). -/
def execClz (f : IntU) (s : State) : Out := .next (intU (.clz f) f (fun w n => w - bitLen n) s)
/-- POPC (R349). -/
def execPopc (f : IntU) (s : State) : Out := .next (intU (.popc f) f popCount s)

/-- CSEL (R324). -/
def execCsel (f : SelR) (s : State) : Out :=
  .next (issue (.csel f) f.e { src := [f.a, f.b, f.c], dst := [f.d] }
    (fun k s => retire s (k.wr f.d (if k.rd f.c ≠ 0 then k.rd f.a else k.rd f.b))) s)

/-- LI (R340). -/
def execLi (f : IntI) (s : State) : Out :=
  .next (issue (.li f) f.e { src := [f.a], dst := [f.d] }
    (fun k s => retire s (k.wr f.d
      (if f.a = 0 then immOf f.ty f.imm else (k.rd f.a <<< 32) ||| f.imm.zeroExtend 64))) s)

/-! ### Scalar float (R328) -/

/-- The float kind that WD selects. -/
def wdKind (wd : Bool) : FKind := if wd then .f64 else .f32

/-- FIn (R328). -/
def fIn (wd : Bool) (w : Word) : FVal := (wdKind wd).value (if wd then w.toNat else w.toNat % 2 ^ 32)

/-- FPut's value (R328). -/
def fOut (wd : Bool) (v : FVal) : Word := BitVec.ofNat 64 ((wdKind wd).rne v)

/-- A scalar float instruction of two sources (R329). -/
def floatR (i : Instr) (f : FloatR) (op : FVal → FVal → FVal) (s : State) : State :=
  issue i f.e { src := [f.a, f.b], dst := [f.d] }
    (fun k s => retire s (k.wr f.d (fOut f.wd (op (fIn f.wd (k.rd f.a)) (fIn f.wd (k.rd f.b)))))) s

/-- FADD (R329). -/
def execFadd (f : FloatR) (s : State) : Out := .next (floatR (.fadd f) f FVal.add s)
/-- FSUB (R329). -/
def execFsub (f : FloatR) (s : State) : Out := .next (floatR (.fsub f) f (fun a b => a.add b.neg) s)
/-- FMUL (R329). -/
def execFmul (f : FloatR) (s : State) : Out := .next (floatR (.fmul f) f FVal.mul s)
/-- FMIN (R329). -/
def execFmin (f : FloatR) (s : State) : Out := .next (floatR (.fmin f) f FVal.min s)
/-- FMAX (R329). -/
def execFmax (f : FloatR) (s : State) : Out := .next (floatR (.fmax f) f FVal.max s)

/-- FFMA (R334). -/
def execFfma (f : FmaR) (s : State) : Out :=
  .next (issue (.ffma f) f.e { src := [f.a, f.b, f.c], dst := [f.d] }
    (fun k s => retire s (k.wr f.d
      (fOut f.wd (((fIn f.wd (k.rd f.a)).mul (fIn f.wd (k.rd f.b))).add (fIn f.wd (k.rd f.c)))))) s)

/-- FCMP (R330). -/
def execFcmp (f : FcmpR) (s : State) : Out :=
  .next (issue (.fcmp f) f.e { src := [f.a, f.b], dst := [f.d] }
    (fun k s => retire s (k.wr f.d
      (if f.cc.holds ((fIn f.wd (k.rd f.a)).cmp (fIn f.wd (k.rd f.b))) then 1 else 0))) s)

/-- The source bits of a conversion (R331). -/
def cvtBits (t : SType) (w : Word) : Nat :=
  match t with
  | .f64 => w.toNat
  | .el f => w.toNat % 2 ^ f.bits

/-- How a converted value stands in sD (R332). -/
def cvtPut (t : SType) (n : Nat) : Word :=
  match t with
  | .el .i32 => extend .i32 n
  | _ => BitVec.ofNat 64 n

/-- FCVT (R331, R332). -/
def execFcvt (f : FcvtR) (s : State) : Out :=
  .next (issue (.fcvt f) f.e { src := [f.a], dst := [f.d] }
    (fun k s =>
      let r := f.dst.write (f.src.read (cvtBits f.src (k.rd f.a)))
      .ok ((s.put (k.wr f.d (cvtPut f.dst r.1)).next).setSat k.team k.lrank r.2)) s)

end Sys2Proof.Machine
end

