-- ==== Sys2Proof/Machine/System.lean ====
section
/-! DEFINITION. NOP (R346), SYSRD and SYSWR (R362, R363), RESUME (R355), TRAP (R364), BKPT (R318) and HALT (R335). The mode
check comes before the registers (R292). -/

namespace Sys2Proof.Machine

/-- Whether the current strand runs in team mode (R293). -/
def teamMode (s : State) : Bool :=
  match s.strand? with
  | none => false
  | some k => match s.team? k.team with
    | some t => !t.system
    | none => false

/-- NOP (R346). -/
def execNop (s : State) : Out := .next (issue .nop false {} (fun k s => retire s k) s)

/-- SYSRD (R294, R362, R363). -/
def execSysrd (f : SysrdY) (s : State) : Out :=
  if teamMode s && !teamReads f.srn then .next (issue (.sysrd f) false {} (fun _ _ => raise 0x01) s)
  else
    .next (issue (.sysrd f) f.e { dst := [f.d] }
      (fun k s => retire s (k.wr f.d (regRead s s.at_.1 s.at_.2 (some (k.team, k.lrank)) k.replay f.srn))) s)

/-- Whether work that passed its checks before a write to HTINV was accepted, which names the entry, has yet to finish: chunks of
copies and of collective nodes whose bytes are on their way, and AMOs and REDs with a peer (R64, R65). Work that waits for an
exchange checks again there. -/
def htinvDue (s : State) (v : Word) (upto : Nat) : Bool :=
  let n := v.toNat
  let mine (w : Issuer) : Bool := (s.team? w.team).any fun t => t.asid == field n 32 12
  let names (m : Shape) : Bool := 2 ≤ shSpace m && (bit n 63 || shHnd m % 2 ^ 20 == field n 0 20)
  let asked (c : Nat) : Bool := s.remotes.any fun r => match r.2.wait with
    | .copyRead i _ _ | .copyWrite i _ => i == c
    | _ => false
  (s.copies.any fun c => c.1 < upto && mine c.2.who && (names c.2.src || names c.2.dst)
      && (asked c.1 || s.landings.any fun l => l.2.ofCopy c.1))
    || (s.landings.any fun l => l.1 < upto && mine l.2.who && match l.2.of_ with
        | .run _ _ => true
        | .copy _ => false)
    || (s.amos.any fun a => a.1 < upto && mine a.2.who && names a.2.a && s.remotes.any fun r => r.2.wait == .amo a.1)
    || s.reds.any fun r => r.1 < upto && mine r.2.who && names r.2.d && r.2.pending != 0

/-- The number below which work bears a number that was given out before the current strand's write to HTINV was accepted. -/
def htinvUpto (s : State) : Nat :=
  match s.strand? with
  | some k => match k.wait with
    | .htinv n => n
    | _ => s.fresh
  | none => s.fresh

/-- SYSWR: the strand moves on, and the register accepts the value; a write to HTINV retires when the work of R65 has finished
(R65, R294, R362, R363). -/
def execSyswr (f : SyswrY) (s : State) : Out :=
  if teamMode s && !teamWrites f.srn then .next (issue (.syswr f) false {} (fun _ _ => raise 0x01) s)
  else
    .next (issue (.syswr f) f.e { src := [f.a] }
      (fun k s =>
        let v := k.rd f.a
        if f.srn = .htinv ∧ htinvDue s v (htinvUpto s) then .error (.wait (.htinv (htinvUpto s))) else
        let k' := if f.srn = .replay then { k with replay := v.getLsbD 0 } else k
        (retire s k').map fun s => regWrite s s.at_.1 (some (k.team, k.lrank)) f.srn v) s)

/-- A designator's fields that RESUME refuses (R175, R176). -/
def designatorBad (t : Team) (d : Nat) : Bool :=
  let save := field d 0 8
  field d 24 40 != 0 || field d 8 2 != 0 || t.size ≤ field d 10 10 || 7 < field d 20 4 || save < 8
    || (t.nsave ≤ save && save != 0xFF)

/-- RESUME (R175, R176, R355). -/
def execResume (f : ResumeY) (s : State) : Out :=
  .next (issue (.resume f) f.e { src := [f.a], dst := [f.d] }
    (fun k s => withTeam s k fun t => do
      let d := (k.rd f.a).toNat
      need (!designatorBad t d) 0x02
      let (st, s) := s.resumeStrand t k.team (field d 10 10) (field d 0 8) (field d 20 4) f.skip f.drop
      retire s (k.wr f.d (BitVec.ofNat 64 st))) s)

/-- TRAP (R364). -/
def execTrap (imm : BitVec 16) (s : State) : Out :=
  .next (issue (.trap imm) false {} (fun _ _ => .error (.fault 0x08 0 (imm.zeroExtend 64))) s)

/-- BKPT (R318, R247). -/
def execBkpt (imm : BitVec 16) (s : State) : Out :=
  .next (issue (.bkpt imm) false {}
    (fun k s =>
      if (s.tile s.at_.1).bkh then (retire s k).map fun s => s.halt s.at_.1 3 0 0
      else .error (.fault 0x09 0 (imm.zeroExtend 64))) s)

/-- HALT (R247, R335). -/
def execHalt (s : State) : Out :=
  .next (issue .halt false {}
    (fun k s =>
      if teamMode s && !(s.tile s.at_.1).uhalt then raise 0x01
      else (retire s k).map fun s => s.halt s.at_.1 2 0 0) s)

end Sys2Proof.Machine
end

