-- ==== Sys2Proof/Machine/Dispatch.lean ====
section
/-! DEFINITION. The meaning of every instruction and step, one arm for each constructor. -/

namespace Sys2Proof.Machine

/-- Runs one instruction of the current strand, or one step of an engine. -/
def exec (i : Instr) (s : State) : Host.Outcome State Fault Refusal :=
  match i with
  | .addR f => Sys2Proof.Machine.execAddR f s
  | .addI f => Sys2Proof.Machine.execAddI f s
  | .sub f => Sys2Proof.Machine.execSub f s
  | .mulR f => Sys2Proof.Machine.execMulR f s
  | .mulI f => Sys2Proof.Machine.execMulI f s
  | .mulh f => Sys2Proof.Machine.execMulh f s
  | .div f => Sys2Proof.Machine.execDiv f s
  | .rem f => Sys2Proof.Machine.execRem f s
  | .andR f => Sys2Proof.Machine.execAndR f s
  | .andI f => Sys2Proof.Machine.execAndI f s
  | .orR f => Sys2Proof.Machine.execOrR f s
  | .orI f => Sys2Proof.Machine.execOrI f s
  | .xorR f => Sys2Proof.Machine.execXorR f s
  | .xorI f => Sys2Proof.Machine.execXorI f s
  | .shlR f => Sys2Proof.Machine.execShlR f s
  | .shlI f => Sys2Proof.Machine.execShlI f s
  | .shrR f => Sys2Proof.Machine.execShrR f s
  | .shrI f => Sys2Proof.Machine.execShrI f s
  | .sraR f => Sys2Proof.Machine.execSraR f s
  | .sraI f => Sys2Proof.Machine.execSraI f s
  | .sltR f => Sys2Proof.Machine.execSltR f s
  | .sltI f => Sys2Proof.Machine.execSltI f s
  | .minR f => Sys2Proof.Machine.execMinR f s
  | .minI f => Sys2Proof.Machine.execMinI f s
  | .maxR f => Sys2Proof.Machine.execMaxR f s
  | .maxI f => Sys2Proof.Machine.execMaxI f s
  | .clz f => Sys2Proof.Machine.execClz f s
  | .popc f => Sys2Proof.Machine.execPopc f s
  | .csel f => Sys2Proof.Machine.execCsel f s
  | .li f => Sys2Proof.Machine.execLi f s
  | .fadd f => Sys2Proof.Machine.execFadd f s
  | .fsub f => Sys2Proof.Machine.execFsub f s
  | .fmul f => Sys2Proof.Machine.execFmul f s
  | .ffma f => Sys2Proof.Machine.execFfma f s
  | .fmin f => Sys2Proof.Machine.execFmin f s
  | .fmax f => Sys2Proof.Machine.execFmax f s
  | .fcmp f => Sys2Proof.Machine.execFcmp f s
  | .fcvt f => Sys2Proof.Machine.execFcvt f s
  | .beq f => Sys2Proof.Machine.execBeq f s
  | .bne f => Sys2Proof.Machine.execBne f s
  | .blt f => Sys2Proof.Machine.execBlt f s
  | .bge f => Sys2Proof.Machine.execBge f s
  | .bltn f => Sys2Proof.Machine.execBltn f s
  | .bgen f => Sys2Proof.Machine.execBgen f s
  | .jal f => Sys2Proof.Machine.execJal f s
  | .jalr f => Sys2Proof.Machine.execJalr f s
  | .ld f => Sys2Proof.Machine.execLd f s
  | .st f => Sys2Proof.Machine.execSt f s
  | .mld f => Sys2Proof.Machine.execMld f s
  | .mst f => Sys2Proof.Machine.execMst f s
  | .mset f => Sys2Proof.Machine.execMset f s
  | .pand f => Sys2Proof.Machine.execPand f s
  | .por f => Sys2Proof.Machine.execPor f s
  | .pxor f => Sys2Proof.Machine.execPxor f s
  | .pnot f => Sys2Proof.Machine.execPnot f s
  | .pset f => Sys2Proof.Machine.execPset f s
  | .vabs f => Sys2Proof.Machine.execVabs f s
  | .vneg f => Sys2Proof.Machine.execVneg f s
  | .vadd f => Sys2Proof.Machine.execVadd f s
  | .vsub f => Sys2Proof.Machine.execVsub f s
  | .vmul f => Sys2Proof.Machine.execVmul f s
  | .vmin f => Sys2Proof.Machine.execVmin f s
  | .vmax f => Sys2Proof.Machine.execVmax f s
  | .vand f => Sys2Proof.Machine.execVand f s
  | .vor f => Sys2Proof.Machine.execVor f s
  | .vxor f => Sys2Proof.Machine.execVxor f s
  | .vnot f => Sys2Proof.Machine.execVnot f s
  | .vshl f => Sys2Proof.Machine.execVshl f s
  | .vshr f => Sys2Proof.Machine.execVshr f s
  | .vsra f => Sys2Proof.Machine.execVsra f s
  | .vattm f => Sys2Proof.Machine.execVattm f s
  | .vbcast f => Sys2Proof.Machine.execVbcast f s
  | .vidx f => Sys2Proof.Machine.execVidx f s
  | .vcmp f => Sys2Proof.Machine.execVcmp f s
  | .vcvt f => Sys2Proof.Machine.execVcvt f s
  | .vexp2 f => Sys2Proof.Machine.execVexp2 f s
  | .vext f => Sys2Proof.Machine.execVext f s
  | .vfma f => Sys2Proof.Machine.execVfma f s
  | .vgath f => Sys2Proof.Machine.execVgath f s
  | .vscat f => Sys2Proof.Machine.execVscat f s
  | .vld f => Sys2Proof.Machine.execVld f s
  | .vst f => Sys2Proof.Machine.execVst f s
  | .vlog2 f => Sys2Proof.Machine.execVlog2 f s
  | .vrcp f => Sys2Proof.Machine.execVrcp f s
  | .vrsq f => Sys2Proof.Machine.execVrsq f s
  | .vperm f => Sys2Proof.Machine.execVperm f s
  | .vred f => Sys2Proof.Machine.execVred f s
  | .vsel f => Sys2Proof.Machine.execVsel f s
  | .mma f => Sys2Proof.Machine.execMma f s
  | .ald f => Sys2Proof.Machine.execAld f s
  | .ast f => Sys2Proof.Machine.execAst f s
  | .azero f => Sys2Proof.Machine.execAzero f s
  | .ascale f => Sys2Proof.Machine.execAscale f s
  | .cbld f => Sys2Proof.Machine.execCbld f s
  | .cpy f => Sys2Proof.Machine.execCpy f s
  | .cpya f => Sys2Proof.Machine.execCpya f s
  | .amo f => Sys2Proof.Machine.execAmo f s
  | .red f => Sys2Proof.Machine.execRed f s
  | .fence f => Sys2Proof.Machine.execFence f s
  | .ctradd f => Sys2Proof.Machine.execCtradd f s
  | .waitge f => Sys2Proof.Machine.execWaitge f s
  | .bar f => Sys2Proof.Machine.execBar f s
  | .bara f => Sys2Proof.Machine.execBara f s
  | .barw f => Sys2Proof.Machine.execBarw f s
  | .spawn f => Sys2Proof.Machine.execSpawn f s
  | .join f => Sys2Proof.Machine.execJoin f s
  | .susp f => Sys2Proof.Machine.execSusp f s
  | .exit => Sys2Proof.Machine.execExit s
  | .cancel f => Sys2Proof.Machine.execCancel f s
  | .collLd f => Sys2Proof.Machine.execCollLd f s
  | .collRun f => Sys2Proof.Machine.execCollRun f s
  | .collStat f => Sys2Proof.Machine.execCollStat f s
  | .nop => Sys2Proof.Machine.execNop s
  | .sysrd f => Sys2Proof.Machine.execSysrd f s
  | .syswr f => Sys2Proof.Machine.execSyswr f s
  | .resume f => Sys2Proof.Machine.execResume f s
  | .trap imm => Sys2Proof.Machine.execTrap imm s
  | .bkpt imm => Sys2Proof.Machine.execBkpt imm s
  | .halt => Sys2Proof.Machine.execHalt s
  | .releasedRecordEnqueue team q => Sys2Proof.Machine.execReleasedRecordEnqueue team q s
  | .continuationDispatch tile slot => Sys2Proof.Machine.execContinuationDispatch tile slot s
  | .pushMigration tile => Sys2Proof.Machine.execPushMigration tile s
  | .loadgRefresh tile => Sys2Proof.Machine.execLoadgRefresh tile s
  | .parkOnWait tile => Sys2Proof.Machine.execParkOnWait tile s
  | .barrierExchange team scope unit peers => Sys2Proof.Machine.execBarrierExchange team scope unit peers s
  | .barrierCompletion team scope unit => Sys2Proof.Machine.execBarrierCompletion team scope unit s
  | .peerUnreachable team pkg => Sys2Proof.Machine.execPeerUnreachable team pkg s
  | .copyChunk copy => Sys2Proof.Machine.execCopyChunk copy s
  | .landing id => Sys2Proof.Machine.execLanding id s
  | .counterIncrement id => Sys2Proof.Machine.execCounterIncrement id s
  | .amoPerform id => Sys2Proof.Machine.execAmoPerform id s
  | .amoFill id => Sys2Proof.Machine.execAmoFill id s
  | .redAccept id => Sys2Proof.Machine.execRedAccept id s
  | .remoteRequest r => Sys2Proof.Machine.execRemoteRequest r s
  | .remoteResponse tag a => Sys2Proof.Machine.execRemoteResponse tag a s
  | .matrixQueueStart tile => Sys2Proof.Machine.execMatrixQueueStart tile s
  | .mmaKBlock tile => Sys2Proof.Machine.execMmaKBlock tile s
  | .mmaComplete tile => Sys2Proof.Machine.execMmaComplete tile s
  | .aldComplete tile => Sys2Proof.Machine.execAldComplete tile s
  | .ascaleComplete tile => Sys2Proof.Machine.execAscaleComplete tile s
  | .graphLoadComplete g => Sys2Proof.Machine.execGraphLoadComplete g s
  | .runStart g run => Sys2Proof.Machine.execRunStart g run s
  | .virgaNodeStart g run node => Sys2Proof.Machine.execVirgaNodeStart g run node s
  | .virgaNodeComplete g run node => Sys2Proof.Machine.execVirgaNodeComplete g run node s
  | .virgaChunkReceive c => Sys2Proof.Machine.execVirgaChunkReceive c s
  | .virgaMismatchReport r => Sys2Proof.Machine.execVirgaMismatchReport r s
  | .virgaPeerFailure r => Sys2Proof.Machine.execVirgaPeerFailure r s
  | .qdoor team v => Sys2Proof.Machine.execQdoor team v s
  | .hostDoorbellWrite ofs v => Sys2Proof.Machine.execHostDoorbellWrite ofs v s
  | .hostHbmAccess addr n data => Sys2Proof.Machine.execHostHbmAccess addr n data s
  | .queueSlotMap => Sys2Proof.Machine.execQueueSlotMap s
  | .descriptorLoad slot => Sys2Proof.Machine.execDescriptorLoad slot s
  | .quantumExpiry slot => Sys2Proof.Machine.execQuantumExpiry slot s
  | .launchPacket => Sys2Proof.Machine.execLaunchPacket s
  | .tileGrant => Sys2Proof.Machine.execTileGrant s
  | .gangDeadline slot => Sys2Proof.Machine.execGangDeadline slot s
  | .gangReady gang pkg uid => Sys2Proof.Machine.execGangReady gang pkg uid s
  | .gangAbort gang => Sys2Proof.Machine.execGangAbort gang s
  | .gangTick gang => Sys2Proof.Machine.execGangTick gang s
  | .teamCompletion team => Sys2Proof.Machine.execTeamCompletion team s
  | .vacate v => Sys2Proof.Machine.execVacate v s
  | .restore v => Sys2Proof.Machine.execRestore v s
  | .enableRotation v => Sys2Proof.Machine.execEnableRotation v s
  | .disableRotation v => Sys2Proof.Machine.execDisableRotation v s
  | .vacateCut team lrank => Sys2Proof.Machine.execVacateCut team lrank s
  | .saveComplete team lrank how => Sys2Proof.Machine.execSaveComplete team lrank how s
  | .restoreStart team lrank => Sys2Proof.Machine.execRestoreStart team lrank s
  | .restoreComplete team lrank how => Sys2Proof.Machine.execRestoreComplete team lrank how s
  | .rotation team scope unit => Sys2Proof.Machine.execRotation team scope unit s
  | .uncorrectableTileError tile => Sys2Proof.Machine.execUncorrectableTileError tile s
  | .tileResponseTimeout tile => Sys2Proof.Machine.execTileResponseTimeout tile s
  | .uncorrectableGroupError grp => Sys2Proof.Machine.execUncorrectableGroupError grp s
  | .memoryUncorrectableError key e => Sys2Proof.Machine.execMemoryUncorrectableError key e s
  | .groupReset grp => Sys2Proof.Machine.execGroupReset grp s
  | .htinv asid slot => Sys2Proof.Machine.execHtinv asid slot s
  | .htinvAll asid => Sys2Proof.Machine.execHtinvAll asid s
  | .quiesceStart v => Sys2Proof.Machine.execQuiesceStart v s
  | .quiesceDrainComplete => Sys2Proof.Machine.execQuiesceDrainComplete s
  | .quiesceTimeout => Sys2Proof.Machine.execQuiesceTimeout s
  | .quiesceRelease => Sys2Proof.Machine.execQuiesceRelease s
  | .personalitySwitch v => Sys2Proof.Machine.execPersonalitySwitch v s
  | .drainComplete quad => Sys2Proof.Machine.execDrainComplete quad s
  | .drainTimeout quad => Sys2Proof.Machine.execDrainTimeout quad s
  | .reconfigureDone quad => Sys2Proof.Machine.execReconfigureDone quad s
  | .trainingDone quad ok good rate => Sys2Proof.Machine.execTrainingDone quad ok good rate s
  | .agreementRecord quad r => Sys2Proof.Machine.execAgreementRecord quad r s
  | .mapDone quad entries => Sys2Proof.Machine.execMapDone quad entries s
  | .retire quad => Sys2Proof.Machine.execRetire quad s
  | .retrain x => Sys2Proof.Machine.execRetrain x s
  | .podTimeBeacon quad b => Sys2Proof.Machine.execPodTimeBeacon quad b s
  | .beaconSend => Sys2Proof.Machine.execBeaconSend s
  | .linkDelayMeasure quad ns => Sys2Proof.Machine.execLinkDelayMeasure quad ns s
  | .beaconLoss => Sys2Proof.Machine.execBeaconLoss s
  | .flowControlTotalsSend link cls => Sys2Proof.Machine.execFlowControlTotalsSend link cls s
  | .flowControlTotals link cls sent freed => Sys2Proof.Machine.execFlowControlTotals link cls sent freed s
  | .flitCrcError link => Sys2Proof.Machine.execFlitCrcError link s
  | .hreq tile => Sys2Proof.Machine.execHreq tile s
  | .run tile => Sys2Proof.Machine.execRun tile s
  | .step tile slot => Sys2Proof.Machine.execStep tile slot s
  | .stepComplete tile => Sys2Proof.Machine.execStepComplete tile s
  | .haltComplete tile => Sys2Proof.Machine.execHaltComplete tile s
  | .haltGroupTrigger tile group => Sys2Proof.Machine.execHaltGroupTrigger tile group s
  | .hgrun x => Sys2Proof.Machine.execHgrun x s
  | .snapgo => Sys2Proof.Machine.execSnapgo s
  | .pcMatch tile slot => Sys2Proof.Machine.execPcMatch tile slot s
  | .traceTimeRecord tile => Sys2Proof.Machine.execTraceTimeRecord tile s
  | .counterSnapshot => Sys2Proof.Machine.execCounterSnapshot s
  | .compositionRecord => Sys2Proof.Machine.execCompositionRecord s
  | .fstatClear team lrank v => Sys2Proof.Machine.execFstatClear team lrank v s
  | .errcClear n => Sys2Proof.Machine.execErrcClear n s
  | .replayWrite tile slot v => Sys2Proof.Machine.execReplayWrite tile slot v s
  | .systemRegisterWrite tile r v => Sys2Proof.Machine.execSystemRegisterWrite tile r v s
  | .managementEndpointAccess m => Sys2Proof.Machine.execManagementEndpointAccess m s
  | .powerOn x => Sys2Proof.Machine.execPowerOn x s
  | .powerCapThrottle die mhz => Sys2Proof.Machine.execPowerCapThrottle die mhz s
  | .thermalThrottle die => Sys2Proof.Machine.execThermalThrottle die s
  | .thermalRecovery die => Sys2Proof.Machine.execThermalRecovery die s
  | .thermalShutdown => Sys2Proof.Machine.execThermalShutdown s
  | .collStatFill id => Sys2Proof.Machine.execCollStatFill id s
  | .passWrite tile => Sys2Proof.Machine.execPassWrite tile s

end Sys2Proof.Machine
end

