-- ==== Sys2Proof/Machine/Step.lean ====
section
/-! DEFINITION. One step of the machine (log 2), and the placing of an instruction for the next step (log 18). -/

namespace Sys2Proof.Machine

/-- An access to a physical address that does not exist stops the machine (log 19). -/
def checked : Out → Out
  | .next s => match s.absent with
    | some a => .fault (.absentAddress a)
    | none => .next s
  | o => o

/-- Whether a step of an agent can come about: while the package has not booted, Lycel alone acts, and nothing does after it has
powered down (R272, R274). -/
def comesAbout (i : Instr) (s : State) : Bool :=
  match s.boot with
  | .booted => true
  | .off => false
  | .reset _ => match i with
    | .powerOn _ | .managementEndpointAccess _ => true
    | _ => false

/-- One step: the next turn of the agenda, or, with an empty agenda, one port's turn of the tile in focus (log 2). -/
def step (s : State) : Host.Outcome State Fault Refusal :=
  match s.absent with
  | some a => .fault (.absentAddress a)
  | none =>
    match s.agenda with
    | [] => if s.boot = .booted then checked (tileTurn exec s) else .next s
    | t :: rest =>
      let s := { s with agenda := rest }
      match t with
      | .issue tile slot => checked (issueWith exec s tile slot)
      | .event i => if i.hasWord || !WellFormed i || !comesAbout i s then .next s else checked (exec i s)
      | .advance c n => .next (if s.boot = .booted then s.advance c n else s)

/-- The launch packet of the one-vtile team that `withFetchWord` places: ASID 0, code handle 0x0010_0000 (log 18). -/
def fetchPacket : BitVec 1024 :=
  BitVec.ofNat 1024 (pack [16, 16, 32, 10, 2, 4, 4, 2, 10, 20, 12, 64, 32, 32, 8, 120, 640]
    [0, 1, 0, 0, 0, 0, 0, 0, 0, 1, 0, 0x1000, 0x00100000, 0x00100000, 8, 0, 0])

/-- The strand that `withFetchWord` places: a fresh strand at code offset 0 (R33; log 18). -/
def fetchStrand : Strand where
  team := 1
  lrank := 0
  uid := 0
  pc := 0
  s := Vector.replicate 64 0
  v := Vector.replicate 32 0
  p := (Vector.replicate 16 0).set 0 (BitVec.allOnes 256)
  m := Vector.replicate 16 0
  sfull := BitVec.allOnes 64
  vfull := BitVec.allOnes 32
  spoison := 0
  summary := 0
  jcell := 0
  prio := 0
  wait := .none
  waitSince := 0
  readySince := none
  held := false
  tahead := 0
  replay := false

/-- The handle-table entry of the code: generation 1, HBM from 0x2000, 4 KiB, every permission (R60; log 18). -/
def fetchEntry : Nat := pack [64, 64, 3, 4, 1, 2, 1, 1, 1, 1, 2, 4, 12] [0x2000, 0x1000, 4, 0, 1, 0, 1, 1, 1, 1, 0, 0, 1]

/-- The state with an instruction word placed where the next step fetches: a booted package with a team of one vtile, its
code handle and the word in HBM, its strand in slot 0 of tile 0, and that slot's turn next (log 18). -/
def State.withFetchWord (s : State) (_nbits w : Nat) : State :=
  { s with
    boot := .booted
    mem := (s.mem.put (hbmKey 0x1000) (bytesOf 32 fetchEntry)).put (hbmKey 0x2000) (bytesOf 8 w)
    teams := insertAt 1 (newTeam fetchPacket 0 0 0 0x100000 [0] []) s.teams
    vtiles := insertAt (vtileKey 1 0) (newVtile 0 0) s.vtiles
    tiles := insertAt 0 { s.tile 0 with owner := some (1, 0) } s.tiles
    strands := insertAt (strandKey 0 0) fetchStrand s.strands
    agenda := [.issue 0 0] }

end Sys2Proof.Machine
end

