-- ==== Sys2Proof/Safety.lean ====
section
/-! DEFINITION. What counts as a safe state and a safe run, and the words in which the statements say what an instruction
does: when nothing holds it back, and what it leaves of a strand and of the machine. -/

namespace Sys2Proof

/-- A safe state: memory is in its canonical form (log 5). -/
def Machine.State.ok (s : Machine.State) : Prop := s.mem.wf

/-- A run of `n` steps that neither faults nor is refused, each state safe. -/
def SafeRun : Nat → Machine.State → Prop
  | 0, s => s.ok
  | n + 1, s => s.ok ∧ ∃ t, Machine.step s = .next t ∧ SafeRun n t

end Sys2Proof

namespace Sys2Proof.Machine

/-! ### When an instruction is held back by nothing but its own conditions -/

/-- `k` is the strand that issues, every register that the instruction names is full, and no scalar source of it is poisoned
(R68, R101, R102). -/
abbrev Issues (s : State) (k : Strand) (n : Names) : Prop :=
  s.strand? = some k ∧ namesFull s k n = true ∧ n.src.any k.bad = false

/-- The team and the vtile of a strand are `t` and `v`. -/
abbrev Serves (s : State) (k : Strand) (t : Team) (v : Vtile) : Prop :=
  s.team? k.team = some t ∧ s.vtile? k.team k.lrank = some v

/-- The tile of the issuing strand writes no trace record (R256). -/
abbrev Untraced (s : State) : Prop := (s.tile s.at_.1).trctl.getLsbD 63 = false

/-- No watchpoint of the issuing strand's tile is enabled (R250). -/
abbrev Unwatched (s : State) : Prop := ∀ i : Fin 4, ((s.tile s.at_.1).wp.get i).getLsbD 63 = false

/-- `n` bytes at an address lie in the tile store at the alignment that R58 asks. -/
abbrev InStore (a : Word) (n align : Nat) : Prop := a.toNat % align = 0 ∧ a.toNat + n ≤ 0x80000

/-- A strand as its instruction finds it: it waits for nothing (R102). -/
abbrev Strand.issuing (k : Strand) : Strand := { k with wait := .none }

/-- The registers that an instruction names, and whether it is strict; the steps of agents and the instructions of the last
line name none. An MMA names its accumulator while an ALD into it stands in the queue (R101, R136). -/
def namesOf (s : State) : Instr → Names × Bool
  | .addR f | .sub f | .mulR f | .mulh f | .div f | .rem f | .andR f | .orR f | .xorR f | .shlR f | .shrR f | .sraR f | .sltR f
  | .minR f | .maxR f => ({ src := [f.a, f.b], dst := [f.d] }, f.e)
  | .addI f | .mulI f | .andI f | .orI f | .xorI f | .shlI f | .shrI f | .sraI f | .sltI f | .minI f | .maxI f | .li f | .ld f =>
    ({ src := [f.a], dst := [f.d] }, f.e)
  | .st f => ({ src := [f.a, f.d] }, f.e)
  | .clz f | .popc f => ({ src := [f.a], dst := [f.d] }, f.e)
  | .csel f => ({ src := [f.a, f.b, f.c], dst := [f.d] }, f.e)
  | .fadd f | .fsub f | .fmul f | .fmin f | .fmax f => ({ src := [f.a, f.b], dst := [f.d] }, f.e)
  | .ffma f => ({ src := [f.a, f.b, f.c], dst := [f.d] }, f.e)
  | .fcmp f => ({ src := [f.a, f.b], dst := [f.d] }, f.e)
  | .fcvt f => ({ src := [f.a], dst := [f.d] }, f.e)
  | .beq f | .bne f | .blt f | .bge f | .bltn f | .bgen f => ({ src := [f.a, f.b] }, f.e)
  | .jal f => ({ dst := [f.d] }, f.e)
  | .jalr f => ({ src := [f.a], dst := [f.d] }, f.e)
  | .mld f | .mst f => ({ src := [f.a] }, f.e)
  | .mset f => ({ src := [f.a] }, f.e)
  | .pset f => ({ src := [f.a] }, f.e)
  | .vabs f | .vneg f | .vnot f | .vexp2 f | .vlog2 f | .vrcp f | .vrsq f => ({ v := [f.a, f.d] }, f.e)
  | .vadd f | .vsub f | .vmul f | .vmin f | .vmax f | .vand f | .vor f | .vxor f | .vshl f | .vshr f | .vsra f | .vattm f
  | .vperm f | .vsel f => ({ v := [f.a, f.b, f.d] }, f.e)
  | .vbcast f => ({ src := [f.a], v := [f.d] }, f.e)
  | .vidx f => ({ v := [f.d] }, f.e)
  | .vcmp f => ({ v := [f.a, f.b] }, f.e)
  | .vcvt f => ({ v := [f.a, f.d] }, f.e)
  | .vext f => ({ src := [f.b], dst := [f.d], v := [f.a] }, f.e)
  | .vfma f => ({ v := [f.a, f.b, f.c, f.d] }, f.e)
  | .vgath f | .vscat f => ({ src := [f.a], v := [f.b, f.d] }, f.e)
  | .vld f | .vst f => ({ src := [f.a], v := [f.d] }, f.e)
  | .vred f => ({ dst := [f.d], v := [f.a] }, f.e)
  | .mma f => ({ a := mmaWaits s f.d }, f.e)
  | .ald f => ({ a := [f.d] }, f.e)
  | .ast f => ({ a := [f.a] }, f.e)
  | .azero f => ({ a := [f.d] }, f.e)
  | .ascale f => ({ a := [f.a, f.d], v := [f.b, f.sc] }, f.e)
  | .cbld f => ({ src := [f.a] }, f.e)
  | .cpy f => ({ src := [f.b] }, f.e)
  | .cpya f => ({ src := [f.b] }, f.e)
  | .amo f => ({ src := [f.b], dst := [f.d] }, f.e)
  | .red f => (if f.vec then { v := [Fin.ofNat 32 f.b.val] } else { src := [f.b] }, f.e)
  | .fence f => ({ dst := [f.d] }, false)
  | .ctradd f => ({ src := [f.a, f.b] }, f.e)
  | .waitge f => ({ src := [f.a, f.b], dst := [f.d] }, f.e)
  | .bar f => ({ src := [f.a, f.b], dst := [f.d, f.ds] }, f.e)
  | .bara f => ({ src := [f.a, f.b], dst := [f.d] }, f.e)
  | .barw f => ({ src := [f.a], dst := [f.d, f.ds] }, f.e)
  | .spawn f => ({ src := [f.a], dst := [f.d] }, f.e)
  | .join f => ({ src := [f.a] }, f.e)
  | .susp f => ({ src := [f.a, f.b] }, f.e)
  | .cancel f | .collStat f => ({ src := [f.a], dst := [f.d] }, f.e)
  | .collLd f | .collRun f => ({ src := [f.a, f.b], dst := [f.d] }, f.e)
  | .sysrd f => ({ dst := [f.d] }, f.e)
  | .syswr f => ({ src := [f.a] }, f.e)
  | .resume f => ({ src := [f.a], dst := [f.d] }, f.e)
  | _ => ({}, false)

/-- Whether the mode of the issuing strand lets it reach the system register that an instruction names (R294, R363). -/
def reaches (s : State) : Instr → Bool
  | .sysrd f => !teamMode s || teamReads f.srn
  | .syswr f => !teamMode s || teamWrites f.srn
  | _ => true

/-! ### What an instruction leaves of its strand -/

/-- The strand has moved past its instruction (R275) and nothing else of it has changed. -/
abbrev Moved (k k' : Strand) : Prop := k' = { k with wait := .none, pc := k.pc + 8 }

/-- The strand has moved past its instruction and has written scalar `d` with `v`; s0 reads 0 and discards the write, and
every other register and everything else of the strand is as it was (R101, R283). -/
structure WroteScalar (k k' : Strand) (d : SReg) (v : Word) : Prop where
  pc : k'.pc = k.pc + 8
  wait : k'.wait = .none
  value : k'.rd d = if d = 0 then 0 else v
  full : k'.full d = true
  clean : d ≠ 0 → k'.bad d = false
  others : ∀ r, r ≠ d → k'.rd r = k.rd r ∧ k'.full r = k.full r ∧ k'.bad r = k.bad r
  rest : { k' with pc := k.pc, wait := k.wait, s := k.s, sfull := k.sfull, spoison := k.spoison } = k

/-- The strand has moved past its instruction and has written vector `d` with `v`, and nothing else. -/
structure WroteVector (k k' : Strand) (d : VNum) (v : VReg) : Prop where
  pc : k'.pc = k.pc + 8
  wait : k'.wait = .none
  value : k'.rdV d = v
  others : ∀ r, r ≠ d → k'.rdV r = k.rdV r
  rest : { k' with pc := k.pc, wait := k.wait, v := k.v } = k

/-- The strand has moved past its instruction and has written predicate `d` with `v`; p0 reads all ones and discards the
write (R283). -/
structure WrotePredicate (k k' : Strand) (d : PNum) (v : PReg) : Prop where
  pc : k'.pc = k.pc + 8
  wait : k'.wait = .none
  value : k'.rdP d = if d = 0 then BitVec.allOnes 256 else v
  others : ∀ r, r ≠ d → k'.rdP r = k.rdP r
  rest : { k' with pc := k.pc, wait := k.wait, p := k.p } = k

/-- The strand has moved past its instruction and has written shape register `d` with `v`, and nothing else. -/
structure WroteShape (k k' : Strand) (d : PNum) (v : Shape) : Prop where
  pc : k'.pc = k.pc + 8
  wait : k'.wait = .none
  value : k'.rdM d = v
  others : ∀ r, r ≠ d → k'.rdM r = k.rdM r
  rest : { k' with pc := k.pc, wait := k.wait, m := k.m } = k

/-- A save image keeps a strand's PC, failure summary, JCELL and registers; of an empty register it keeps that it is empty
(R52). -/
structure SameStrand (k k' : Strand) : Prop where
  pc : k'.pc = k.pc
  summary : k'.summary = k.summary
  jcell : k'.jcell = k.jcell
  scalars : ∀ r, k'.full r = k.full r ∧ (k.full r = true → k'.rd r = k.rd r)
  vectors : ∀ r, k'.fullV r = k.fullV r ∧ (k.fullV r = true → k'.rdV r = k.rdV r)
  predicates : ∀ r, k'.rdP r = k.rdP r
  shapes : ∀ r, k'.rdM r = k.rdM r

/-! ### What an instruction leaves of the machine -/

/-- Everything but the issuing strand is as it was. -/
abbrev OnlyStrand (s t : State) (k' : Strand) : Prop := t = s.put k'

/-- The issuing strand is now `k'`; no other strand, no byte of memory, no poison mark and no live value has changed. What
may have changed is what the manual counts and flags: of a team its accounting counters with their saturation bits (R262, R263), and
of a vtile FSTAT (R174). -/
structure CountsOnly (s t : State) (k' : Strand) : Prop where
  strands : t.strands = (s.put k').strands
  bytes : ∀ a, t.mem.byte a = s.mem.byte a
  poison : t.poison = s.poison
  live : t.live = s.live
  teams : ∀ id, (t.team? id).map (fun T => { T with acct := Vector.replicate 21 0, acctsat := 0 }) =
    (s.team? id).map fun T => { T with acct := Vector.replicate 21 0, acctsat := 0 }
  vtiles : ∀ id lr, (t.vtile? id lr).map (fun v => { v with fstat := 0 }) =
    (s.vtile? id lr).map fun v => { v with fstat := 0 }
  rest : { t with strands := s.strands, teams := s.teams, vtiles := s.vtiles } = s

/-- A log record without the values of a landing. -/
def LogRec.blank : LogRec → LogRec
  | .land l => .land { l with what := .bytes [] }
  | r => r

/-- A vtile without the values of the landings in its log. -/
def Vtile.blankLog (v : Vtile) : Vtile := { v with recs := v.recs.map LogRec.blank, owed := v.owed.map LogRec.blank }

/-- What becomes of a vtile when bytes of its tile store change: queued matrix work remembers the bytes, accumulators whose
MMAs read them may lose outputs (R137), landings in its log may lose values (R144), and the order among stores is kept (R72).
Nothing else of it changes, and with no matrix work none of its accumulators does. -/
structure Touched (v w : Vtile) : Prop where
  queue : w.mq.map (fun e => { e with touched := [] }) = v.mq.map fun e => { e with touched := [] }
  accs : v.past = [] → w.accs = v.accs
  rest : { w.blankLog with mq := v.mq, accs := v.accs, race := v.race } = v.blankLog

/-- Strand `k` has moved past its instruction, which stored to the ranges `rs` of its tile store, whose first byte has the key
`base`. No byte changes outside them but those that the manual lets become undefined: what performed copies made of bytes of
`rs` while their counters have not advanced (`spoilt`, R144) and join cells whose operations race with the store
(`racedCells`, R38). Engine work notes the bytes that it has yet to read (R74, R137, R218, R223), poison marks can only go
(R69), and nothing else changes. -/
structure StoresOnly (s t : State) (k : Strand) (base : Nat) (rs : List (Nat × Nat)) : Prop where
  strands : t.strands = (s.put { k with wait := .none, pc := k.pc + 8 }).strands
  bytes : ∀ b, (∀ r ∈ rs, b < base + r.1 ∨ base + r.1 + r.2 ≤ b) → (∀ x ∈ s.spoilt k.team k.lrank rs none, x.1 ≠ b) →
    (∀ x ∈ s.racedCells k rs, x.1 ≠ b) → t.mem.byte b = s.mem.byte b
  poison : ∀ g, t.poisoned g = true → s.poisoned g = true
  vtile : ∀ v, s.vtile? k.team k.lrank = some v → ∃ w, t.vtile? k.team k.lrank = some w ∧ Touched v w
  vtiles : ∀ id lr, vtileKey id lr ≠ vtileKey k.team k.lrank →
    (t.vtile? id lr).map Vtile.blankLog = (s.vtile? id lr).map Vtile.blankLog
  teams : ∀ id, (t.team? id).map (fun T => { T with drawn := 0 }) = (s.team? id).map fun T => { T with drawn := 0 }
  copies : t.copies.map (fun c => (c.1, { c.2 with touched := [] })) = s.copies.map fun c => (c.1, { c.2 with touched := [] })
  landings : t.landings.map (fun l => (l.1, { l.2 with what := .bytes [] })) =
    s.landings.map fun l => (l.1, { l.2 with what := .bytes [] })
  graphs : t.graphs.map (fun g => (g.1, { g.2 with touched := [] })) = s.graphs.map fun g => (g.1, { g.2 with touched := [] })
  runs : t.runs.map (fun r => (r.1, { r.2 with touched := [] })) = s.runs.map fun r => (r.1, { r.2 with touched := [] })
  rest : { t with strands := s.strands, mem := s.mem, poison := s.poison, vtiles := s.vtiles, teams := s.teams
                  copies := s.copies, landings := s.landings, graphs := s.graphs, runs := s.runs } = s

/-- Instruction `i`, when nothing holds it back, completes and writes scalar `d`; nothing outside its strand changes. -/
def Computes (i : Instr) (n : Names) (d : SReg) (v : Strand → Word) : Prop :=
  ∀ s k, WellFormed i = true → Issues s k n →
    ∃ k', exec i s = .next (s.put k') ∧ WroteScalar k k' d (v k)

/-- Instruction `i` completes and writes predicate `d`. -/
def ComputesPredicate (i : Instr) (n : Names) (d : PNum) (v : Strand → PReg) : Prop :=
  ∀ s k, WellFormed i = true → Issues s k n →
    ∃ k', exec i s = .next (s.put k') ∧ WrotePredicate k k' d (v k)

/-- Instruction `i` completes and writes shape register `d`. -/
def ComputesShape (i : Instr) (n : Names) (d : PNum) (v : Strand → Shape) : Prop :=
  ∀ s k, WellFormed i = true → Issues s k n →
    ∃ k', exec i s = .next (s.put k') ∧ WroteShape k k' d (v k)

/-- Lane `i` of vector `v` has `w` bits, and `r` holds in each lane what R366 says: the result where the predicate enables
the lane, and elsewhere 0 under ZM and else what `old` held. -/
def LanesBy (k : Strand) (t : Fmt) (q : VPred) (old v : VReg) (f : Nat → Nat) : Prop :=
  ∀ i, i < 2048 / t.bits → lane t.bits v i =
    if laneOn k q i then f i % 2 ^ t.bits else if q.zm then 0 else lane t.bits old i

/-- Vector instruction `i` completes and writes vector `d` lane by lane; of the rest only counts and flags may change. -/
def ComputesLanes (i : Instr) (n : Names) (t : Fmt) (q : VPred) (d : VNum) (f : Strand → Nat → Nat) : Prop :=
  ∀ s k, WellFormed i = true → Issues s k n →
    (∀ v, s.vtile? k.team k.lrank = some v → v.div = .resident) →
    ∃ t' k' r, exec i s = .next t' ∧ CountsOnly s t' k' ∧ WroteVector k k' d r ∧ LanesBy k t q (k.rdV d) r (f k)

/-! ### Integers as bit vectors (R285) -/

/-- A 64-bit value as an integer type holds it: the low 32 bits sign- or zero-extended for i32 and n32 (R285). -/
def narrow (t : Fmt) (x : Word) : Word :=
  match t with
  | .i32 => (x.truncate 32).signExtend 64
  | .n32 => (x.truncate 32).zeroExtend 64
  | _ => x

/-- Whether a scalar integer type is signed. -/
def signedType (t : Fmt) : Bool := t == .i32 || t == .i64

/-- The high half of the product of two 64-bit values of a scalar integer type (R345). -/
def highProduct (t : Fmt) (x y : Word) : Word :=
  match t with
  | .i32 | .n32 => narrow t ((narrow t x * narrow t y) >>> 32)
  | .i64 => ((x.signExtend 128 * y.signExtend 128) >>> 64).truncate 64
  | _ => ((x.zeroExtend 128 * y.zeroExtend 128) >>> 64).truncate 64

/-- The quotient of R326. -/
def quotientOf (t : Fmt) (x y : Word) : Word :=
  if narrow t y = 0 then narrow t (BitVec.allOnes 64)
  else if signedType t then narrow t ((narrow t x).sdiv (narrow t y)) else narrow t x / narrow t y

/-- The remainder of R326. -/
def remainderOf (t : Fmt) (x y : Word) : Word :=
  if narrow t y = 0 then narrow t x
  else if signedType t then narrow t ((narrow t x).srem (narrow t y)) else narrow t x % narrow t y

/-- The low bits of a type, the rest zero. -/
def lowBits (t : Fmt) (x : Word) : Word := if t.bits = 32 then (x.truncate 32).zeroExtend 64 else x

/-- The shift count of R356: the low 5 or 6 bits of the second operand. -/
def countOf (t : Fmt) (y : Word) : Nat := if t.bits = 32 then (y.truncate 5).toNat else (y.truncate 6).toNat

/-- The three shifts of R356. -/
def leftOf (t : Fmt) (x y : Word) : Word := narrow t (x <<< countOf t y)
def rightOf (t : Fmt) (x y : Word) : Word := narrow t (lowBits t x >>> countOf t y)
def arithmeticOf (t : Fmt) (x y : Word) : Word :=
  narrow t ((if t.bits = 32 then (x.truncate 32).signExtend 64 else x).sshiftRight (countOf t y))

/-- Whether one value of a type lies below another (R357). -/
def below (t : Fmt) (x y : Word) : Bool :=
  if signedType t then (narrow t x).slt (narrow t y) else (narrow t x).ult (narrow t y)

/-! ### Lanes (R369 to R371) -/

/-- Sum, difference and product of two lanes (R370). -/
def laneSum (t : Fmt) (x y : Nat) : Nat :=
  match t.kind? with
  | some g => g.rne ((g.value x).add (g.value y))
  | none => if t = .rns then rnsAddWord x y else x + y
def laneDifference (t : Fmt) (x y : Nat) : Nat :=
  match t.kind? with
  | some g => g.rne ((g.value x).add (g.value y).neg)
  | none => if t = .rns then rnsSubWord x y else x + (2 ^ t.bits - y)
def laneProduct (t : Fmt) (x y : Nat) : Nat :=
  match t.kind? with
  | some g => g.rne ((g.value x).mul (g.value y))
  | none => x * y

/-- The smaller and the larger of two lanes (R370). -/
def laneSmaller (t : Fmt) (x y : Nat) : Nat :=
  match t.kind? with
  | some g => g.rne ((g.value x).min (g.value y))
  | none => if t.intValue y < t.intValue x then y else x
def laneLarger (t : Fmt) (x y : Nat) : Nat :=
  match t.kind? with
  | some g => g.rne ((g.value x).max (g.value y))
  | none => if t.intValue y < t.intValue x then x else y

/-- The magnitude and the negative of a lane (R369): the most negative integer stays as it is, a NaN becomes canonical. -/
def laneMagnitude (t : Fmt) (x : Nat) : Nat :=
  match t.kind? with
  | some g => g.rne (g.value x).abs
  | none => if x < 2 ^ (t.bits - 1) then x else 2 ^ t.bits - x
def laneNegative (t : Fmt) (x : Nat) : Nat :=
  match t.kind? with
  | some g => g.rne (g.value x).neg
  | none => 2 ^ t.bits - x

/-- Lane `i` of vector register `r`, in lanes of type `t`. -/
abbrev Strand.at_ (k : Strand) (t : Fmt) (r : VNum) (i : Nat) : Nat := lane t.bits (k.rdV r) i

/-- The address of a vector load or store, and of lane `i` of a gather or scatter (R379, R381). -/
def vectorAddress (f : VmemV) (k : Strand) : Word := k.rd f.a + f.imm.signExtend 64
def laneAddress (f : VgsV) (k : Strand) (i : Nat) : Word :=
  k.rd f.a + (BitVec.ofNat 32 (lane 32 (k.rdV f.b) i)).signExtend 64 + f.imm.signExtend 64

/-- The lanes that a gather or scatter moves (R379). -/
abbrev Moves (f : VgsV) (k : Strand) (i : Nat) : Prop := i < 64 ∧ i < 2048 / f.ty.bits ∧ laneOn k f.q i = true

end Sys2Proof.Machine
end

