-- ==== Sys2Proof/Certificates/Slice0/Obligations.lean ====
section
/-! DEFINITION. The statements for the provers. Hypotheses speak of the state and the operands alone; `s.ok` says that memory is
in its canonical form, which `MemoryStaysCanonical` keeps. Numbers of logs stand for notes/assumptions. An address s[A] + X wraps
modulo 2^64 in them all, which is the model's choice for sums that pass 2^64; COUNT of a join cell is the low half of its word, and
the counts in a status word and in an imbalance record are their low 11 bits, which are its choices too (log 36). -/

section
open Sys2Proof Sys2Proof.Machine

/-- R300, R303, R345, R360: ADD, SUB, MUL and MULH in every form write the narrowed sum, difference, low product and high
product of their operands, and change nothing else. -/
def Obligations.IntegerSums : Prop :=
  let opc (i : Instr) (n : Nat) : Prop := ∀ w, encode i = some w → w.toNat % 256 = n
  (∀ f : IntR,
    opc (.addR f) 0x01 ∧ opc (.sub f) 0x02 ∧ opc (.mulR f) 0x03 ∧ opc (.mulh f) 0x04 ∧
    Computes (.addR f) { src := [f.a, f.b], dst := [f.d] } f.d (fun k => narrow f.ty (k.rd f.a + k.rd f.b)) ∧
    Computes (.sub f) { src := [f.a, f.b], dst := [f.d] } f.d (fun k => narrow f.ty (k.rd f.a - k.rd f.b)) ∧
    Computes (.mulR f) { src := [f.a, f.b], dst := [f.d] } f.d (fun k => narrow f.ty (k.rd f.a * k.rd f.b)) ∧
    Computes (.mulh f) { src := [f.a, f.b], dst := [f.d] } f.d (fun k => highProduct f.ty (k.rd f.a) (k.rd f.b))) ∧
  (∀ f : IntI,
    opc (.addI f) 0x14 ∧ opc (.mulI f) 0x15 ∧
    Computes (.addI f) { src := [f.a], dst := [f.d] } f.d (fun k => narrow f.ty (k.rd f.a + immOf f.ty f.imm)) ∧
    Computes (.mulI f) { src := [f.a], dst := [f.d] } f.d (fun k => narrow f.ty (k.rd f.a * immOf f.ty f.imm)))

/-- R326: DIV and REM, truncated toward zero, with all ones and the dividend for a zero divisor; ordinary data never stops
them. -/
def Obligations.IntegerDivision : Prop :=
  let opc (i : Instr) (n : Nat) : Prop := ∀ w, encode i = some w → w.toNat % 256 = n
  ∀ f : IntR,
    opc (.div f) 0x05 ∧ opc (.rem f) 0x06 ∧
    Computes (.div f) { src := [f.a, f.b], dst := [f.d] } f.d (fun k => quotientOf f.ty (k.rd f.a) (k.rd f.b)) ∧
    Computes (.rem f) { src := [f.a, f.b], dst := [f.d] } f.d (fun k => remainderOf f.ty (k.rd f.a) (k.rd f.b))

/-- R309, R347, R387: AND, OR and XOR act bit by bit. -/
def Obligations.IntegerLogic : Prop :=
  let opc (i : Instr) (n : Nat) : Prop := ∀ w, encode i = some w → w.toNat % 256 = n
  (∀ f : IntR,
    opc (.andR f) 0x07 ∧ opc (.orR f) 0x08 ∧ opc (.xorR f) 0x09 ∧
    Computes (.andR f) { src := [f.a, f.b], dst := [f.d] } f.d (fun k => narrow f.ty (k.rd f.a &&& k.rd f.b)) ∧
    Computes (.orR f) { src := [f.a, f.b], dst := [f.d] } f.d (fun k => narrow f.ty (k.rd f.a ||| k.rd f.b)) ∧
    Computes (.xorR f) { src := [f.a, f.b], dst := [f.d] } f.d (fun k => narrow f.ty (k.rd f.a ^^^ k.rd f.b))) ∧
  (∀ f : IntI,
    opc (.andI f) 0x16 ∧ opc (.orI f) 0x17 ∧ opc (.xorI f) 0x18 ∧
    Computes (.andI f) { src := [f.a], dst := [f.d] } f.d (fun k => narrow f.ty (k.rd f.a &&& immOf f.ty f.imm)) ∧
    Computes (.orI f) { src := [f.a], dst := [f.d] } f.d (fun k => narrow f.ty (k.rd f.a ||| immOf f.ty f.imm)) ∧
    Computes (.xorI f) { src := [f.a], dst := [f.d] } f.d (fun k => narrow f.ty (k.rd f.a ^^^ immOf f.ty f.imm)))

/-- R356: the shifts, whose count is never out of range. -/
def Obligations.IntegerShifts : Prop :=
  let opc (i : Instr) (n : Nat) : Prop := ∀ w, encode i = some w → w.toNat % 256 = n
  (∀ f : IntR,
    opc (.shlR f) 0x0A ∧ opc (.shrR f) 0x0B ∧ opc (.sraR f) 0x0C ∧
    Computes (.shlR f) { src := [f.a, f.b], dst := [f.d] } f.d (fun k => leftOf f.ty (k.rd f.a) (k.rd f.b)) ∧
    Computes (.shrR f) { src := [f.a, f.b], dst := [f.d] } f.d (fun k => rightOf f.ty (k.rd f.a) (k.rd f.b)) ∧
    Computes (.sraR f) { src := [f.a, f.b], dst := [f.d] } f.d (fun k => arithmeticOf f.ty (k.rd f.a) (k.rd f.b))) ∧
  (∀ f : IntI,
    opc (.shlI f) 0x19 ∧ opc (.shrI f) 0x1A ∧ opc (.sraI f) 0x1B ∧
    Computes (.shlI f) { src := [f.a], dst := [f.d] } f.d (fun k => leftOf f.ty (k.rd f.a) (immOf f.ty f.imm)) ∧
    Computes (.shrI f) { src := [f.a], dst := [f.d] } f.d (fun k => rightOf f.ty (k.rd f.a) (immOf f.ty f.imm)) ∧
    Computes (.sraI f) { src := [f.a], dst := [f.d] } f.d (fun k => arithmeticOf f.ty (k.rd f.a) (immOf f.ty f.imm)))

/-- R341, R357: SLT, MIN and MAX compare signed or unsigned by the type. -/
def Obligations.IntegerOrder : Prop :=
  let opc (i : Instr) (n : Nat) : Prop := ∀ w, encode i = some w → w.toNat % 256 = n
  (∀ f : IntR,
    opc (.sltR f) 0x0D ∧ opc (.minR f) 0x0E ∧ opc (.maxR f) 0x0F ∧
    Computes (.sltR f) { src := [f.a, f.b], dst := [f.d] } f.d (fun k => if below f.ty (k.rd f.a) (k.rd f.b) then 1 else 0) ∧
    Computes (.minR f) { src := [f.a, f.b], dst := [f.d] } f.d
      (fun k => narrow f.ty (if below f.ty (k.rd f.b) (k.rd f.a) then k.rd f.b else k.rd f.a)) ∧
    Computes (.maxR f) { src := [f.a, f.b], dst := [f.d] } f.d
      (fun k => narrow f.ty (if below f.ty (k.rd f.b) (k.rd f.a) then k.rd f.a else k.rd f.b))) ∧
  (∀ f : IntI,
    opc (.sltI f) 0x1C ∧ opc (.minI f) 0x1D ∧ opc (.maxI f) 0x1E ∧
    Computes (.sltI f) { src := [f.a], dst := [f.d] } f.d
      (fun k => if below f.ty (k.rd f.a) (immOf f.ty f.imm) then 1 else 0) ∧
    Computes (.minI f) { src := [f.a], dst := [f.d] } f.d
      (fun k => narrow f.ty (if below f.ty (immOf f.ty f.imm) (k.rd f.a) then immOf f.ty f.imm else k.rd f.a)) ∧
    Computes (.maxI f) { src := [f.a], dst := [f.d] } f.d
      (fun k => narrow f.ty (if below f.ty (immOf f.ty f.imm) (k.rd f.a) then k.rd f.a else immOf f.ty f.imm)))

/-- R321, R349, R324, R340: CLZ counts the zeros above the highest one bit of the operand's low bits, POPC its one bits, CSEL
selects by a scalar, and LI builds a constant. -/
def Obligations.CountsAndConstants : Prop :=
  let opc (i : Instr) (n : Nat) : Prop := ∀ w, encode i = some w → w.toNat % 256 = n
  (∀ f : IntU,
    opc (.clz f) 0x10 ∧ opc (.popc f) 0x11 ∧
    Computes (.clz f) { src := [f.a], dst := [f.d] } f.d
      (fun k => BitVec.ofNat 64 ((List.range f.ty.bits).takeWhile
        fun i => !(k.rd f.a).getLsbD (f.ty.bits - 1 - i)).length) ∧
    Computes (.popc f) { src := [f.a], dst := [f.d] } f.d
      (fun k => BitVec.ofNat 64 ((List.range f.ty.bits).countP fun i => (k.rd f.a).getLsbD i))) ∧
  (∀ f : SelR, opc (.csel f) 0x12 ∧ Computes (.csel f) { src := [f.a, f.b, f.c], dst := [f.d] } f.d
    (fun k => if k.rd f.c = 0 then k.rd f.b else k.rd f.a)) ∧
  (∀ f : IntI, opc (.li f) 0x1F ∧ (WellFormed (.li f) = true → (f.ty = .i64 ∧ f.a = 0) ∨ f.ty = .n64) ∧ Computes (.li f) { src := [f.a], dst := [f.d] } f.d
    (fun k => if f.a = 0 then (if f.ty = .i64 then f.imm.signExtend 64 else f.imm.zeroExtend 64)
      else f.imm.zeroExtend 64 ||| ((k.rd f.a).truncate 32).zeroExtend 64 <<< 32))

/-- R328 to R330, R334: the scalar float instructions round the exact result of their decoded operands once, to nearest even,
in f64 or f32 by WD, and FCMP writes 1 or 0. -/
def Obligations.FloatArithmetic : Prop :=
  (∀ f : FloatR,
    Computes (.fadd f) { src := [f.a, f.b], dst := [f.d] } f.d
      (fun k => fOut f.wd ((fIn f.wd (k.rd f.a)).add (fIn f.wd (k.rd f.b)))) ∧
    Computes (.fsub f) { src := [f.a, f.b], dst := [f.d] } f.d
      (fun k => fOut f.wd ((fIn f.wd (k.rd f.a)).add (fIn f.wd (k.rd f.b)).neg)) ∧
    Computes (.fmul f) { src := [f.a, f.b], dst := [f.d] } f.d
      (fun k => fOut f.wd ((fIn f.wd (k.rd f.a)).mul (fIn f.wd (k.rd f.b)))) ∧
    Computes (.fmin f) { src := [f.a, f.b], dst := [f.d] } f.d
      (fun k => fOut f.wd ((fIn f.wd (k.rd f.a)).min (fIn f.wd (k.rd f.b)))) ∧
    Computes (.fmax f) { src := [f.a, f.b], dst := [f.d] } f.d
      (fun k => fOut f.wd ((fIn f.wd (k.rd f.a)).max (fIn f.wd (k.rd f.b))))) ∧
  (∀ f : FmaR, Computes (.ffma f) { src := [f.a, f.b, f.c], dst := [f.d] } f.d
    (fun k => fOut f.wd (((fIn f.wd (k.rd f.a)).mul (fIn f.wd (k.rd f.b))).add (fIn f.wd (k.rd f.c))))) ∧
  (∀ f : FcmpR, Computes (.fcmp f) { src := [f.a, f.b], dst := [f.d] } f.d
    (fun k => if f.cc.holds ((fIn f.wd (k.rd f.a)).cmp (fIn f.wd (k.rd f.b))) then 1 else 0))

/-- R111, R331, R332: FCVT writes the source value rounded, or clamped, into the destination type, and sets SAT of its vtile
exactly when the conversion saturated. -/
def Obligations.FloatConversion : Prop :=
  ∀ (f : FcvtR) s k t v, WellFormed (.fcvt f) = true → Issues s k { src := [f.a], dst := [f.d] } → Serves s k t v →
    v.div = .resident →
    ∃ t' k' v', exec (.fcvt f) s = .next t' ∧ CountsOnly s t' k' ∧
      WroteScalar k k' f.d (cvtPut f.dst (f.dst.write (f.src.read (cvtBits f.src (k.rd f.a)))).1) ∧
      t'.vtile? k.team k.lrank = some v' ∧
      v'.fstat = if (f.dst.write (f.src.read (cvtBits f.src (k.rd f.a)))).2 then v.fstat ||| 1 else v.fstat

/-- R316, R317: a conditional branch moves the PC by eight bytes for each instruction of its offset when its condition holds
over all 64 bits, and else to the next instruction. -/
def Obligations.Branches : Prop :=
  ∀ (f : BrB) s k, Issues s k { src := [f.a, f.b] } →
    let go (i : Instr) (c : Bool) : Prop :=
      ∃ t, exec i s = .next t ∧
        t.strand? = some { k with wait := .none, pc := if c then k.pc + 8 * f.x.signExtend 64 else k.pc + 8 } ∧
        (Untraced s ∨ c = false → ∃ k', t = s.put k')
    go (.beq f) (k.rd f.a == k.rd f.b) ∧ go (.bne f) (k.rd f.a != k.rd f.b) ∧
    go (.blt f) ((k.rd f.a).slt (k.rd f.b)) ∧ go (.bge f) ((k.rd f.b).sle (k.rd f.a)) ∧
    go (.bltn f) ((k.rd f.a).ult (k.rd f.b)) ∧ go (.bgen f) ((k.rd f.b).ule (k.rd f.a))

/-- R336, R337: JAL and JALR write the address of the next instruction and jump; a JALR whose target is no multiple of 8
raises 0x02 instead and writes no register. -/
def Obligations.Jumps : Prop :=
  (∀ (f : JalB) s k, Issues s k { dst := [f.d] } →
    ∃ t k', exec (.jal f) s = .next t ∧ t.strand? = some { k' with pc := k.pc + 8 * f.x.signExtend 64 } ∧
      WroteScalar k k' f.d (k.pc + 8) ∧ (Untraced s → ∃ k'', t = s.put k'')) ∧
  (∀ (f : JalrI) s k, Issues s k { src := [f.a], dst := [f.d] } →
    (k.rd f.a + f.imm.signExtend 64).toNat % 8 = 0 →
    ∃ t k', exec (.jalr f) s = .next t ∧ t.strand? = some { k' with pc := k.rd f.a + f.imm.signExtend 64 } ∧
      WroteScalar k k' f.d (k.pc + 8) ∧ (Untraced s → ∃ k'', t = s.put k'')) ∧
  (∀ (f : JalrI) s k, Issues s k { src := [f.a], dst := [f.d] } →
    (k.rd f.a + f.imm.signExtend 64).toNat % 8 ≠ 0 →
    exec (.jalr f) s = .next (s.takeFault s.at_.1 s.at_.2 k 0x02 0 0 ((encode (.jalr f)).getD 0)))

/-- R58, R339, R342: LD and MLD read the issuing tile's store at an address that is aligned and inside it. -/
def Obligations.Loads : Prop :=
  (∀ (f : IntI) s k, WellFormed (.ld f) = true → Issues s k { src := [f.a], dst := [f.d] } → Unwatched s →
    let a := k.rd f.a + f.imm.signExtend 64
    InStore a (f.ty.bits / 8) (f.ty.bits / 8) → s.anyPoison (storeKey s.at_.1 a.toNat) (f.ty.bits / 8) = false →
    ∃ k', exec (.ld f) s = .next (s.put k') ∧
      WroteScalar k k' f.d (wordOfInt (f.ty.intValue (s.mem.num (storeKey s.at_.1 a.toNat) (f.ty.bits / 8))))) ∧
  (∀ (f : ShapeI) s k, Issues s k { src := [f.a] } →
    let a := k.rd f.a + f.imm.signExtend 64
    InStore a 32 32 → s.anyPoison (storeKey s.at_.1 a.toNat) 32 = false →
    ∃ k', exec (.mld f) s = .next (s.put k') ∧
      WroteShape k k' f.d (BitVec.ofNat 256 (s.mem.num (storeKey s.at_.1 a.toNat) 32)))

/-- R58, R359, R342: ST and MST store to the issuing tile's store: exactly the bytes of the operand change, what they then
read as is the register's low bytes, lowest first, and work under way hears of it. -/
def Obligations.Stores : Prop :=
  (∀ (f : IntI) s k, WellFormed (.st f) = true → Issues s k { src := [f.a, f.d] } → Unwatched s → s.ok →
    let a := k.rd f.a + f.imm.signExtend 64
    let n := f.ty.bits / 8
    InStore a n n →
    ∃ t, exec (.st f) s = .next t ∧ StoresOnly s t k (storeKey s.at_.1 0) [(a.toNat, n)] ∧
      ((∀ x ∈ s.racedCells k [(a.toNat, n)], x.1 < storeKey s.at_.1 a.toNat ∨ storeKey s.at_.1 a.toNat + n ≤ x.1) →
        t.mem.num (storeKey s.at_.1 a.toNat) n = (k.rd f.d).toNat % 2 ^ f.ty.bits)) ∧
  (∀ (f : ShapeI) s k, Issues s k { src := [f.a] } →
    let a := k.rd f.a + f.imm.signExtend 64
    InStore a 32 32 → s.ok →
    ∃ t, exec (.mst f) s = .next t ∧ StoresOnly s t k (storeKey s.at_.1 0) [(a.toNat, 32)] ∧
      ((∀ x ∈ s.racedCells k [(a.toNat, 32)], x.1 < storeKey s.at_.1 a.toNat ∨ storeKey s.at_.1 a.toNat + 32 ≤ x.1) →
        t.mem.num (storeKey s.at_.1 a.toNat) 32 = (k.rdM f.d).toNat))

/-- R58, R292: an access to the tile store by LD, ST, MLD, MST, VLD, VST, VGATH, VSCAT, CTRADD, WAITGE, CBLD, AST, SPAWN or SUSP
that is misaligned or not inside it raises 0x20 with its address, in a gather or scatter the address of the first lane of which
that holds; memory keeps every byte until the fault's own record is written. -/
def Obligations.TileStoreFaults : Prop :=
  let faults (i : Instr) (s : State) (k : Strand) (a : Word) : Prop :=
    exec i s = .next (s.takeFault s.at_.1 s.at_.2 k 0x20 a 0 ((encode i).getD 0))
  ((∀ (f : IntI) s k, WellFormed (.ld f) = true → Issues s k { src := [f.a], dst := [f.d] } →
     let a := k.rd f.a + f.imm.signExtend 64
     ¬ InStore a (f.ty.bits / 8) (f.ty.bits / 8) → faults (.ld f) s k a) ∧
   (∀ (f : IntI) s k, WellFormed (.st f) = true → Issues s k { src := [f.a, f.d] } →
     let a := k.rd f.a + f.imm.signExtend 64
     ¬ InStore a (f.ty.bits / 8) (f.ty.bits / 8) → faults (.st f) s k a) ∧
   (∀ (f : ShapeI) s k, Issues s k { src := [f.a] } →
     let a := k.rd f.a + f.imm.signExtend 64
     ¬ InStore a 32 32 → faults (.mld f) s k a ∧ faults (.mst f) s k a)) ∧
  ((∀ (f : VmemV) s k, Issues s k { src := [f.a], v := [f.d] } → ¬ InStore (vectorAddress f k) 256 256 →
     faults (.vld f) s k (vectorAddress f k) ∧ faults (.vst f) s k (vectorAddress f k)) ∧
   (∀ (f : VgsV) (i : Nat) s k, Issues s k { src := [f.a], v := [f.b, f.d] } →
     let b := f.ty.bits / 8
     Moves f k i → ¬ InStore (laneAddress f k i) b b → (∀ j, j < i → Moves f k j → InStore (laneAddress f k j) b b) →
     faults (.vgath f) s k (laneAddress f k i) ∧ faults (.vscat f) s k (laneAddress f k i))) ∧
  ((∀ (f : CtrC) s k, Issues s k { src := [f.a, f.b] } →
     let a := k.rd f.a + f.x.signExtend 64
     ¬ InStore a 8 8 → faults (.ctradd f) s k a) ∧
   (∀ (f : WaitC) s k, Issues s k { src := [f.a, f.b], dst := [f.d] } → (∀ o m g, k.wait ≠ .waitge o m g) →
     let a := k.rd f.a + f.x.signExtend 64
     ¬ InStore a 8 8 → faults (.waitge f) s k a) ∧
   (∀ (f : CbldC) s k t v, Issues s k { src := [f.a] } → Serves s k t v →
     let a := k.rd f.a + f.x.signExtend 64
     ¬ InStore a 16 16 → faults (.cbld f) s k a) ∧
   (∀ (f : AstM) s k t v, Issues s k { a := [f.a] } → Serves s k t v →
     let o := accOpd (k.rdM f.d) .w
     o.space = 0 → o.hnd = 0 → o.lo < o.hi → ¬(o.aligned = true ∧ 0 ≤ o.lo ∧ o.hi ≤ 0x80000) →
     faults (.ast f) s k (shAddr (k.rdM f.d)))) ∧
  ((∀ (f : SpawnS) s k t, Issues s k { src := [f.a], dst := [f.d] } → s.team? k.team = some t →
     let a := k.rd f.a + f.x.signExtend 64
     checkAll s t [codeOpd s t] = .ok () → ¬ InStore a 64 8 → faults (.spawn f) s k a) ∧
   (∀ (f : SuspS) s k t, Issues s k { src := [f.a, f.b] } → s.team? k.team = some t →
     let a := k.rd f.b + f.x.signExtend 64
     checkAll s t [codeOpd s t, cellOpd (k.rd f.a)] = .ok () → ¬ InStore a 64 8 → faults (.susp f) s k a))

/-- R344: MSET replaces one field of a shape record by the low bits of s[A] + IMM and keeps every other bit. R348, R350:
predicate logic, and PSET, whose low lanes, as many as s[A] says, are ones. -/
def Obligations.ShapesAndPredicates : Prop :=
  (∀ (f : MsetI) s k, Issues s k { src := [f.a] } →
     ∃ k' v, exec (.mset f) s = .next (s.put k') ∧ WroteShape k k' f.d v ∧
       ∀ i, i < 256 → v.getLsbD i =
         if (MField.place f.field).1 ≤ i ∧ i < (MField.place f.field).1 + (MField.place f.field).2 then
           (k.rd f.a + f.imm.signExtend 64).getLsbD (i - (MField.place f.field).1)
         else (k.rdM f.d).getLsbD i) ∧
  ((∀ f : PredR,
     ComputesPredicate (.pand f) {} f.d (fun k => k.rdP f.a &&& k.rdP f.b) ∧
     ComputesPredicate (.por f) {} f.d (fun k => k.rdP f.a ||| k.rdP f.b) ∧
     ComputesPredicate (.pxor f) {} f.d (fun k => k.rdP f.a ^^^ k.rdP f.b)) ∧
   (∀ f : PredU, ComputesPredicate (.pnot f) {} f.d (fun k => k.rdP f.a ^^^ BitVec.allOnes 256)) ∧
   (∀ (f : PsetR) s k, WellFormed (.pset f) = true → Issues s k { src := [f.a] } →
     ∃ k' v, exec (.pset f) s = .next (s.put k') ∧ WrotePredicate k k' f.d v ∧
       ∀ i, i < 256 → (v.getLsbD i = true ↔ i < 2048 / f.ty.bits ∧ i < (k.rd f.a).toNat)))

/-- R366, R369, R370: VADD, VSUB, VMUL, VMIN, VMAX, VABS and VNEG, lane by lane, on every lane type they take. -/
def Obligations.VectorArithmetic : Prop :=
  (∀ f : VecR,
    ComputesLanes (.vadd f) { v := [f.a, f.b, f.d] } f.ty f.q f.d (fun k i => laneSum f.ty (k.at_ f.ty f.a i) (k.at_ f.ty f.b i)) ∧
    ComputesLanes (.vsub f) { v := [f.a, f.b, f.d] } f.ty f.q f.d
      (fun k i => laneDifference f.ty (k.at_ f.ty f.a i) (k.at_ f.ty f.b i)) ∧
    ComputesLanes (.vmul f) { v := [f.a, f.b, f.d] } f.ty f.q f.d
      (fun k i => laneProduct f.ty (k.at_ f.ty f.a i) (k.at_ f.ty f.b i)) ∧
    ComputesLanes (.vmin f) { v := [f.a, f.b, f.d] } f.ty f.q f.d
      (fun k i => laneSmaller f.ty (k.at_ f.ty f.a i) (k.at_ f.ty f.b i)) ∧
    ComputesLanes (.vmax f) { v := [f.a, f.b, f.d] } f.ty f.q f.d
      (fun k i => laneLarger f.ty (k.at_ f.ty f.a i) (k.at_ f.ty f.b i))) ∧
  (∀ f : VecU,
    ComputesLanes (.vabs f) { v := [f.a, f.d] } f.ty f.q f.d (fun k i => laneMagnitude f.ty (k.at_ f.ty f.a i)) ∧
    ComputesLanes (.vneg f) { v := [f.a, f.d] } f.ty f.q f.d (fun k i => laneNegative f.ty (k.at_ f.ty f.a i)))

/-- R366, R371: the bitwise operations and shifts on lane bit patterns. -/
def Obligations.VectorLogic : Prop :=
  (∀ f : VecR,
    ComputesLanes (.vand f) { v := [f.a, f.b, f.d] } f.ty f.q f.d (fun k i => k.at_ f.ty f.a i &&& k.at_ f.ty f.b i) ∧
    ComputesLanes (.vor f) { v := [f.a, f.b, f.d] } f.ty f.q f.d (fun k i => k.at_ f.ty f.a i ||| k.at_ f.ty f.b i) ∧
    ComputesLanes (.vxor f) { v := [f.a, f.b, f.d] } f.ty f.q f.d (fun k i => k.at_ f.ty f.a i ^^^ k.at_ f.ty f.b i) ∧
    ComputesLanes (.vshl f) { v := [f.a, f.b, f.d] } f.ty f.q f.d
      (fun k i => k.at_ f.ty f.a i <<< (k.at_ f.ty f.b i % f.ty.bits)) ∧
    ComputesLanes (.vshr f) { v := [f.a, f.b, f.d] } f.ty f.q f.d
      (fun k i => k.at_ f.ty f.a i >>> (k.at_ f.ty f.b i % f.ty.bits)) ∧
    ComputesLanes (.vsra f) { v := [f.a, f.b, f.d] } f.ty f.q f.d
      (fun k i => ((BitVec.ofNat f.ty.bits (k.at_ f.ty f.a i)).sshiftRight (k.at_ f.ty f.b i % f.ty.bits)).toNat)) ∧
  (∀ f : VecU,
    ComputesLanes (.vnot f) { v := [f.a, f.d] } f.ty f.q f.d (fun k i => (~~~BitVec.ofNat f.ty.bits (k.at_ f.ty f.a i)).toNat))

/-- R123, R372, R376, R378, R382: VFMA rounds the exact a·b + c once; VEXP2, VLOG2, VRCP and VRSQ are the functions of the
manual lane by lane; VATTM merges two attention triples. -/
def Obligations.VectorFunctions : Prop :=
  (∀ f : VecF, ComputesLanes (.vfma f) { v := [f.a, f.b, f.c, f.d] } f.ty f.q f.d (fun k i =>
    let g := f.ty.kind?.getD .f32
    g.rne (((g.value (k.at_ f.ty f.a i)).mul (g.value (k.at_ f.ty f.b i))).add (g.value (k.at_ f.ty f.c i))))) ∧
  (∀ f : VecU,
    ComputesLanes (.vexp2 f) { v := [f.a, f.d] } f.ty f.q f.d (fun k i => exp2F (k.at_ f.ty f.a i)) ∧
    ComputesLanes (.vlog2 f) { v := [f.a, f.d] } f.ty f.q f.d (fun k i => log2F (k.at_ f.ty f.a i)) ∧
    ComputesLanes (.vrcp f) { v := [f.a, f.d] } f.ty f.q f.d (fun k i => rcpF (k.at_ f.ty f.a i)) ∧
    ComputesLanes (.vrsq f) { v := [f.a, f.d] } f.ty f.q f.d (fun k i => rsqF (k.at_ f.ty f.a i))) ∧
  (∀ f : VecR, ComputesLanes (.vattm f) { v := [f.a, f.b, f.d] } f.ty f.q f.d (fun k i =>
    (attMerge ((List.range 64).map (k.at_ .f32 f.a)) ((List.range 64).map (k.at_ .f32 f.b))).getD i 0))

/-- R373, R377, R383, R385: VBCAST, VIDX, VPERM, VSEL and VEXT move lanes; an rns lane is written canonical. -/
def Obligations.VectorMoves : Prop :=
  (∀ f : VbcV, ComputesLanes (.vbcast f) { src := [f.a], v := [f.d] } f.ty f.q f.d
    (fun k _ => canon f.ty ((k.rd f.a).toNat % 2 ^ f.ty.bits))) ∧
  (∀ f : VidxV, ComputesLanes (.vidx f) { v := [f.d] } f.ty f.q f.d (fun _ i => i)) ∧
  (∀ f : VecR, ComputesLanes (.vperm f) { v := [f.a, f.b, f.d] } f.ty f.q f.d
    (fun k i => canon f.ty (k.at_ f.ty f.a (k.at_ f.ty f.b i % (2048 / f.ty.bits))))) ∧
  (∀ (f : VecR) s k, WellFormed (.vsel f) = true → Issues s k { v := [f.a, f.b, f.d] } →
    ∃ k' r, exec (.vsel f) s = .next (s.put k') ∧ WroteVector k k' f.d r ∧
      ∀ i, i < 2048 / f.ty.bits → lane f.ty.bits r i =
        canon f.ty (if laneOn k f.q i then k.at_ f.ty f.a i else k.at_ f.ty f.b i)) ∧
  (∀ f : VextV, Computes (.vext f) { src := [f.b], dst := [f.d], v := [f.a] } f.d
    (fun k => laneWord f.ty (k.at_ f.ty f.a ((k.rd f.b).toNat % (2048 / f.ty.bits)))))

/-- R374, R384: VCMP writes a bit for each enabled lane and clears or keeps the bits of the others; VRED combines the enabled
lanes into a scalar. R110, R375: VCVT converts lane by lane; a narrowing one governs only the lanes of its part and keeps the
others. -/
def Obligations.VectorTestsAndConversion : Prop :=
  ((∀ (f : VcmpV) s k, WellFormed (.vcmp f) = true → Issues s k { v := [f.a, f.b] } →
     ∃ t k' r, exec (.vcmp f) s = .next t ∧ CountsOnly s t k' ∧ WrotePredicate k k' f.d r ∧
       ∀ i, i < 256 → r.getLsbD i =
         if 2048 / f.ty.bits ≤ i then (k.rdP f.d).getLsbD i
         else if laneOn k f.q i then laneCmp f.ty f.cc (k.at_ f.ty f.a i) (k.at_ f.ty f.b i)
         else !f.q.zm && (k.rdP f.d).getLsbD i) ∧
   (∀ (f : VredV) s k, WellFormed (.vred f) = true → Issues s k { dst := [f.d], v := [f.a] } →
     ∃ t k', exec (.vred f) s = .next t ∧ CountsOnly s t k' ∧
       WroteScalar k k' f.d (redLanes f.ty f.op ((List.range (2048 / f.ty.bits)).map fun i =>
         if laneOn k f.q i then some (k.at_ f.ty f.a i) else none))) ∧
   (∀ (f : VredV) s k, WellFormed (.vred f) = true → Issues s k { dst := [f.d], v := [f.a] } → f.ty.isLaneInt = true →
     f.op = .add →
     ∃ t k', exec (.vred f) s = .next t ∧
       WroteScalar k k' f.d (BitVec.ofInt 64 (((List.range (2048 / f.ty.bits)).map fun i =>
         if laneOn k f.q i then f.ty.intValue (k.at_ f.ty f.a i) else 0).sum)))) ∧
  (∀ (f : VcvtV) s k, WellFormed (.vcvt f) = true → Issues s k { v := [f.a, f.d] } →
     (∀ v, s.vtile? k.team k.lrank = some v → v.div = .resident) →
     let wide := 2048 / f.dst.bits
     let narrowed := 2048 / f.src.bits
     let conv (j : Nat) : Nat := ((SType.el f.dst).write ((SType.el f.src).read (k.at_ f.src f.a j))).1
     ∃ t k' r, exec (.vcvt f) s = .next t ∧ CountsOnly s t k' ∧ WroteVector k k' f.d r ∧
       ∀ i, i < wide → lane f.dst.bits r i =
         if f.dst.bits < f.src.bits ∧ (i < f.part.val * narrowed ∨ f.part.val * narrowed + narrowed ≤ i) then
           k.at_ f.dst f.d i
         else if laneOn k f.q i then
           conv (if f.dst.bits < f.src.bits then i - f.part.val * narrowed
             else if f.src.bits < f.dst.bits then f.part.val * wide + i else i) % 2 ^ f.dst.bits
         else if f.q.zm then 0 else k.at_ f.dst f.d i)

/-- R58, R68, R114, R381: VLD and VST move the enabled lanes of 256 aligned bytes, an rns word canonical; a store changes no
byte of a disabled lane and no byte outside. -/
def Obligations.VectorMemory : Prop :=
  (∀ (f : VmemV) s k, WellFormed (.vld f) = true → Issues s k { src := [f.a], v := [f.d] } → Unwatched s →
    let a := vectorAddress f k
    let b := f.ty.bits / 8
    InStore a 256 256 →
    (∀ i, i < 2048 / f.ty.bits → laneOn k f.q i = true → s.anyPoison (storeKey s.at_.1 (a.toNat + i * b)) b = false) →
    ∃ k' r, exec (.vld f) s = .next (s.put k') ∧ WroteVector k k' f.d r ∧
      LanesBy k f.ty f.q (k.rdV f.d) r (fun i => canon f.ty (s.mem.num (storeKey s.at_.1 (a.toNat + i * b)) b))) ∧
  (∀ (f : VmemV) s k, WellFormed (.vst f) = true → Issues s k { src := [f.a], v := [f.d] } → Unwatched s → s.ok →
    let a := vectorAddress f k
    let b := f.ty.bits / 8
    let rs := laneRanges k f.q f.ty (fun i => a.toNat + i * b) (2048 / f.ty.bits)
    InStore a 256 256 →
    ∃ t, exec (.vst f) s = .next t ∧ StoresOnly s t k (storeKey s.at_.1 0) rs ∧
      ((∀ x ∈ s.racedCells k rs, x.1 < storeKey s.at_.1 a.toNat ∨ storeKey s.at_.1 a.toNat + 256 ≤ x.1) →
        ∀ i, i < 2048 / f.ty.bits → laneOn k f.q i = true →
          t.mem.num (storeKey s.at_.1 (a.toNat + i * b)) b = canon f.ty (k.at_ f.ty f.d i)))

/-- R58, R114, R379, R380: VGATH and VSCAT move each enabled lane at its own address, an rns word canonical; of lanes that
cover the same bytes the highest prevails in a scatter, and no other byte changes. -/
def Obligations.GatherScatter : Prop :=
  (∀ (f : VgsV) s k, WellFormed (.vgath f) = true → Issues s k { src := [f.a], v := [f.b, f.d] } → Unwatched s →
    let b := f.ty.bits / 8
    (∀ i, Moves f k i → InStore (laneAddress f k i) b b ∧
      s.anyPoison (storeKey s.at_.1 (laneAddress f k i).toNat) b = false) →
    ∃ k' r, exec (.vgath f) s = .next (s.put k') ∧ WroteVector k k' f.d r ∧
      ∀ i, i < 2048 / f.ty.bits → lane f.ty.bits r i =
        if Moves f k i then canon f.ty (s.mem.num (storeKey s.at_.1 (laneAddress f k i).toNat) b)
        else if f.q.zm then 0 else k.at_ f.ty f.d i) ∧
  (∀ (f : VgsV) s k, WellFormed (.vscat f) = true → Issues s k { src := [f.a], v := [f.b, f.d] } → Unwatched s → s.ok →
    let b := f.ty.bits / 8
    (∀ i, Moves f k i → InStore (laneAddress f k i) b b) →
    let rs := laneRanges k f.q f.ty (fun i => (laneAddress f k i).toNat) (min 64 (2048 / f.ty.bits))
    ∃ t, exec (.vscat f) s = .next t ∧ StoresOnly s t k (storeKey s.at_.1 0) rs ∧
      (s.racedCells k rs = [] →
        ∀ i, Moves f k i → (∀ j, Moves f k j → i < j → laneAddress f k j ≠ laneAddress f k i) →
          t.mem.num (storeKey s.at_.1 (laneAddress f k i).toNat) b = canon f.ty (k.at_ f.ty f.d i)))

/-- R125, R126, R132, R136, R304, R310, R314: MMA, ALD, AZERO and ASCALE, when their records are well formed and the queue
has room, take the next place in the matrix queue with what they copied at issue; MMA and ALD empty their accumulator, and
MMA, ALD and AZERO set its tag. Nothing else changes. -/
def Obligations.MatrixIssue : Prop :=
  (∀ (f : MmaM) s k t v, WellFormed (.mma f) = true → Issues s k { a := mmaWaits s f.d } → Serves s k t v →
    checkAll s t [matOpd (k.rdM f.a) .r, matOpd (k.rdM f.b) .r] = .ok () → mmaAOk f (k.rdM f.a) (k.rdM f.b) = true →
    mmaBOk f (k.rdM f.b) = true → (f.ad = true ∨ (v.accs.get f.d).rns = needsRns f.fmt) → v.mq.length < 16 →
    ∃ e retag, exec (.mma f) s = .next ((s.putVtile k.team k.lrank { v with
        mq := v.mq ++ [e]
        accs := v.accs.set f.d { v.accs.get f.d with rns := needsRns f.fmt, full := false } }).put
          { k with wait := .none, pc := k.pc + 8 }) ∧
      e.op = .mma f (k.rdM f.a) (k.rdM f.b) retag ∧ retag = ((v.accs.get f.d).rns != needsRns f.fmt) ∧ e.d = f.d ∧
      e.started = false ∧ e.kdone = 8 * f.kst.toNat ∧ e.bufA = v.curA ∧ e.bufB = v.curB ∧ e.who.pc = k.pc ∧ e.who.uid = k.uid) ∧
  (∀ (f : AldM) s k t v, WellFormed (.ald f) = true → Issues s k { a := [f.d] } → Serves s k t v →
    checkAll s t [accOpd (k.rdM f.a) .r] = .ok () → accShapeOk (k.rdM f.a) = true → shFmt (k.rdM f.a) = f.fmt.code →
    v.mq.length < 16 →
    ∃ e, exec (.ald f) s = .next ((s.putVtile k.team k.lrank { v with
        mq := v.mq ++ [e]
        accs := v.accs.set f.d { v.accs.get f.d with rns := f.fmt == .rns, full := false } }).put
          { k with wait := .none, pc := k.pc + 8 }) ∧
      e.op = .ald f.fmt (k.rdM f.a) ∧ e.d = f.d ∧ e.started = false) ∧
  (∀ (f : AzeroM) s k t v, WellFormed (.azero f) = true → Issues s k { a := [f.d] } → Serves s k t v →
    v.mq.length < 16 →
    ∃ e, exec (.azero f) s = .next ((s.putVtile k.team k.lrank { v with
        mq := v.mq ++ [e]
        accs := v.accs.set f.d { v.accs.get f.d with rns := f.fmt == .rns } }).put { k with wait := .none, pc := k.pc + 8 }) ∧
      e.op = .azero f.fmt ∧ e.d = f.d ∧ e.started = false) ∧
  (∀ (f : AscaleM) s k t v, WellFormed (.ascale f) = true → Issues s k { a := [f.a, f.d], v := [f.b, f.sc] } →
    Serves s k t v → (v.accs.get f.d).rns = false → (v.accs.get f.a).rns = (f.fmt == .rns) → v.mq.length < 16 →
    ∃ e, exec (.ascale f) s = .next ((s.putVtile k.team k.lrank { v with mq := v.mq ++ [e] }).put
          { k with wait := .none, pc := k.pc + 8 }) ∧
      e.op = .ascale f.fmt f.a (k.rdV f.b) (k.rdV f.sc) ∧ e.d = f.d ∧ e.started = false)

/-- R126, R134, R310, R313: an accumulator tag that MMA, ASCALE or AST does not take raises 0x10; ALD and AZERO take any tag
and set it. A full matrix queue holds the strand at MMA, ALD, AZERO, ASCALE and CBLD (R136). R88, R91: in BAR and BARA a
completion code of 0xFF00 or above raises 0x64, and a stated phase slot that is not the superstep's raises 0x62. -/
def Obligations.EngineRefusals : Prop :=
  let faults (i : Instr) (s : State) (k : Strand) (cause : Nat) : Prop :=
    exec i s = .next (s.takeFault s.at_.1 s.at_.2 k cause 0 0 ((encode i).getD 0))
  let held (i : Instr) (s : State) (k : Strand) : Prop :=
    ∃ since, exec i s = .next (s.put { k with wait := .limit, waitSince := since })
  ((∀ (f : MmaM) s k t v, WellFormed (.mma f) = true → Issues s k { a := mmaWaits s f.d } → Serves s k t v →
     checkAll s t [matOpd (k.rdM f.a) .r, matOpd (k.rdM f.b) .r] = .ok () → mmaAOk f (k.rdM f.a) (k.rdM f.b) = true →
     mmaBOk f (k.rdM f.b) = true →
     (f.ad = false → (v.accs.get f.d).rns ≠ needsRns f.fmt → faults (.mma f) s k 0x10) ∧
     ((f.ad = true ∨ (v.accs.get f.d).rns = needsRns f.fmt) → v.mq.length = 16 → held (.mma f) s k)) ∧
   (∀ (f : AscaleM) s k t v, WellFormed (.ascale f) = true → Issues s k { a := [f.a, f.d], v := [f.b, f.sc] } →
     Serves s k t v →
     ((v.accs.get f.d).rns = true ∨ (v.accs.get f.a).rns ≠ (f.fmt == .rns) → faults (.ascale f) s k 0x10) ∧
     ((v.accs.get f.d).rns = false → (v.accs.get f.a).rns = (f.fmt == .rns) → v.mq.length = 16 → held (.ascale f) s k)) ∧
   (∀ (f : AstM) s k t v, WellFormed (.ast f) = true → Issues s k { a := [f.a] } → Serves s k t v →
     checkAll s t [accOpd (k.rdM f.d) .w] = .ok () → accShapeOk (k.rdM f.d) = true →
     shFmt (k.rdM f.d) ≠ (if (v.accs.get f.a).rns then 14 else 8) → faults (.ast f) s k 0x10)) ∧
  ((∀ (f : AldM) s k t v, WellFormed (.ald f) = true → Issues s k { a := [f.d] } → Serves s k t v →
     checkAll s t [accOpd (k.rdM f.a) .r] = .ok () → accShapeOk (k.rdM f.a) = true → shFmt (k.rdM f.a) = f.fmt.code →
     v.mq.length = 16 → held (.ald f) s k) ∧
   (∀ (f : AzeroM) s k t v, WellFormed (.azero f) = true → Issues s k { a := [f.d] } → Serves s k t v →
     v.mq.length = 16 → held (.azero f) s k) ∧
   (∀ (f : CbldC) s k t v, WellFormed (.cbld f) = true → Issues s k { src := [f.a] } → Serves s k t v →
     let a := k.rd f.a + f.x.signExtend 64
     InStore a 16 16 → s.anyPoison (storeKey s.at_.1 a.toNat) 16 = false → v.mq.length = 16 → held (.cbld f) s k)) ∧
  let words (i : Instr) (s : State) (k : Strand) (t : Team) (l : Scope) (b : SReg) : Prop :=
    let w := (k.rd b).toNat
    (0xFF00 ≤ field w 0 16 → faults i s k 0x64) ∧
    (field w 0 16 < 0xFF00 → l ≠ .tile → bit w 18 = true → s.target t k.team k.lrank l k.tahead % 4 ≠ field w 16 2 →
      faults i s k 0x62)
  (∀ (f : BarS) s k t, WellFormed (.bar f) = true → Issues s k { src := [f.a, f.b], dst := [f.d, f.ds] } →
     s.team? k.team = some t → words (.bar f) s k t f.scope f.b) ∧
  (∀ (f : BaraS) s k t, WellFormed (.bara f) = true → Issues s k { src := [f.a, f.b], dst := [f.d] } →
     s.team? k.team = some t → words (.bara f) s k t f.scope f.b)

/-- R141, R320: CBLD copies sixteen bytes of the tile store into the buffer of CBA or CBB that is not current, and makes it
current. R312, R313: AST writes each element of the accumulator to its place in the tile store, an rns element canonical, and
no other byte. -/
def Obligations.MatrixLoadsAndStores : Prop :=
  (∀ (f : CbldC) s k t v, WellFormed (.cbld f) = true → Issues s k { src := [f.a] } → Serves s k t v →
    let a := k.rd f.a + f.x.signExtend 64
    let n := 1 - (if f.d = 1 then v.curB else v.curA)
    let x := BitVec.ofNat 128 (s.mem.num (storeKey s.at_.1 a.toNat) 16)
    InStore a 16 16 → s.anyPoison (storeKey s.at_.1 a.toNat) 16 = false → v.mq.length < 16 → (∀ e ∈ v.mq, e.usesBuf (f.d == 1) n = false) →
    ∃ e, e.op = .cbld ∧ exec (.cbld f) s = .next ((s.putVtile k.team k.lrank
      (if f.d = 1 then { v with mq := v.mq ++ [e], curB := n, cbs := v.cbs.set (Fin.ofNat 4 (2 + n)) x }
        else { v with mq := v.mq ++ [e], curA := n, cbs := v.cbs.set (Fin.ofNat 4 n) x })).put
      { k with wait := .none, pc := k.pc + 8 })) ∧
  (∀ (f : AstM) s k t v, WellFormed (.ast f) = true → Issues s k { a := [f.a] } → Serves s k t v →
    let m := k.rdM f.d
    let x := v.accs.get f.a
    let key (i j : Nat) : Nat := elemKey (storeKey v.ptile 0) m (shIndex2 m j i)
    let rs := (List.range (shE m 1)).flatMap fun i => (List.range (shE m 0)).map fun j => (elemKey 0 m (shIndex2 m j i), 4)
    checkAll s t [accOpd m .w] = .ok () → accShapeOk m = true → shFmt m = (if x.rns then 14 else 8) →
    (∀ e ∈ v.mq, e.writes f.a = false) → s.ok →
    ∃ t', exec (.ast f) s = .next t' ∧ StoresOnly s t' k (storeKey v.ptile 0) rs ∧
      (s.racedCells k rs = [] → ∀ i j, i < shE m 1 → j < shE m 0 →
        (∀ i' j', i' < shE m 1 → j' < shE m 0 → (i', j') ≠ (i, j) → key i' j' ≠ key i j) →
        t'.mem.num (key i j) 4 = if x.rns then rnsAddWord (x.elem i j) 0 % 2 ^ 32 else x.elem i j))

/-- R142 to R150: CPY and CPYA hand the copy to Sprue with the records, the counter descriptor and the amount that they
named, and the strand goes on; no byte moves yet. A copy from level memory to a tile store takes the source as it stands when
the instruction issues (R73). -/
def Obligations.CopyIssue : Prop :=
  (∀ (f : CpyC) s k t v, WellFormed (.cpy f) = true → Issues s k { src := [f.b] } → Serves s k t v → v.div = .resident →
    let d := k.rdM f.d
    let a := k.rdM f.a
    checkAll s t [copyOpd a .r, copyOpd d .w] (k.rd f.b) = .ok () → shapeOk a = true → shUnf a = false → shapeOk d = true →
    shUnf d = false → ctrBad (k.rd f.b) = false → shCount a = shCount d → shFmt a = shFmt d → c4Even a = true →
    c4Even d = true → s.copiesOf s.at_.1 < 32 →
    ∃ t' c, exec (.cpy f) s = .next t' ∧ t'.strand? = some { k with wait := .none, pc := k.pc + 8 } ∧
      lookup s.fresh t'.copies = some c ∧ c.dst = d ∧ c.src = a ∧ c.ctr = k.rd f.b ∧ c.amount = f.amt.zeroExtend 64 ∧
      c.op = none ∧ c.chunk = 0 ∧ c.pending = 0 ∧ c.accepted = false ∧ c.who.uid = k.uid ∧ c.who.pc = k.pc ∧
      (shSpace d < 2 → c.step = none) ∧
      (2 ≤ shSpace d → c.step = some (State.levelOf (shSpace d), s.levelStep k.team k.lrank (shSpace d))) ∧
      (2 ≤ shSpace a → shSpace a ≠ 5 → shSpace d < 2 → c.snap = readRange s (s.operandKey t k.lrank a) a 0 (shCount a)) ∧
      (∀ id, id ≠ s.fresh → lookup id t'.copies = lookup id s.copies) ∧
      { t' with strands := s.strands, vtiles := s.vtiles, copies := s.copies, fresh := s.fresh } = s) ∧
  (∀ (f : CpyaC) s k t v, WellFormed (.cpya f) = true → Issues s k { src := [f.b] } → Serves s k t v → v.div = .resident →
    let d := k.rdM f.d
    let a := k.rdM f.a
    shSpace d ≠ 6 → checkAll s t [copyOpd a .r, copyOpd d .a] (k.rd f.b) = .ok () → shapeOk a = true → shUnf a = false →
    shapeOk d = true → shUnf d = false → ctrBad (k.rd f.b) = false → shCount a = shCount d → shFmt a = shFmt d →
    c4Even a = true → c4Even d = true → cpyaOk f.op (shFormat d) = true → elemAligned d = true →
    (f.op = .swap → (shSpace a = 0 ∨ (shSpace a = 1 ∧ shVt a = k.lrank)) ∧ shSpace d ≤ 1) → s.copiesOf s.at_.1 < 32 →
    ∃ t' c, exec (.cpya f) s = .next t' ∧ t'.strand? = some { k with wait := .none, pc := k.pc + 8 } ∧
      lookup s.fresh t'.copies = some c ∧ c.dst = d ∧ c.src = a ∧ c.ctr = k.rd f.b ∧ c.amount = f.amt.zeroExtend 64 ∧
      c.op = some f.op ∧ c.chunk = 0 ∧ c.who.uid = k.uid ∧
      (∀ id, id ≠ s.fresh → lookup id t'.copies = lookup id s.copies) ∧
      { t' with strands := s.strands, vtiles := s.vtiles, copies := s.copies, fresh := s.fresh } = s)

/-- R101, R306, R307: AMO empties its destination register and goes to the home of its operand. R351 to R353: RED joins the
pending set of its strand, with a scalar or the lanes of a vector. -/
def Obligations.AtomicIssue : Prop :=
  (∀ (f : AmoC) s k t v, WellFormed (.amo f) = true → Issues s k { src := [f.b], dst := [f.d] } → Serves s k t v →
    v.div = .resident →
    let m := k.rdM f.a
    2 ≤ shSpace m → checkAll s t [copyOpd m .a] = .ok () → shapeOk m = true → shUnf m = false → shCount m = 1 →
    shFmt m = f.ty.code → shOfs m % (f.ty.bits / 8) = 0 → s.amosOf k.uid < 16 →
    ∃ t' k' o, exec (.amo f) s = .next t' ∧ t'.strand? = some k' ∧ k'.pc = k.pc + 8 ∧
      (∀ r, k'.full r = (k.full r && (r == 0 || r != f.d))) ∧ k'.s = k.s ∧ lookup s.fresh t'.amos = some o ∧
      o.ty = f.ty ∧ o.op = f.op ∧ o.a = m ∧ o.d = f.d ∧ o.v = BitVec.ofNat 64 ((k.rd f.b).toNat % 2 ^ f.ty.bits) ∧
      { t' with strands := s.strands, vtiles := s.vtiles, amos := s.amos, fresh := s.fresh } = s) ∧
  (∀ (f : RedC) s k t v, WellFormed (.red f) = true →
    Issues s k (if f.vec then { v := [Fin.ofNat 32 f.b.val] } else { src := [f.b] }) → Serves s k t v → v.div = .resident →
    let m := k.rdM f.d
    2 ≤ shSpace m → shSpace m ≠ 6 → checkAll s t [redOpd m f.wd] = .ok () → shapeOk m = true → shUnf m = false →
    shFmt m = f.ty.code → (if f.vec then shCount m ≤ 64 else shCount m = 1) → shOfs m % redBytes f.ty f.wd = 0 →
    s.redsOf s.at_.1 < 64 →
    ∃ t' o, exec (.red f) s = .next t' ∧ t'.strand? = some { k with wait := .none, pc := k.pc + 8 } ∧
      lookup s.fresh t'.reds = some o ∧ o.d = m ∧ o.ty = f.ty ∧ o.op = f.op ∧ o.wd = f.wd ∧ o.vec = f.vec ∧
      o.v = (if f.vec then k.rdV (Fin.ofNat 32 f.b.val) else (k.rd f.b).zeroExtend 2048) ∧
      o.step = s.levelStep k.team k.lrank (shSpace m) ∧ o.accepted = false ∧
      { t' with strands := s.strands, vtiles := s.vtiles, reds := s.reds, fresh := s.fresh } = s)

/-- R82 to R84: FENCE waits while the strand has work outstanding in its scope, and else writes the failure summary to sD and
clears it. -/
def Obligations.FenceWaits : Prop :=
  ∀ (f : FenceC) s k, Issues s k { dst := [f.d] } →
    (outstanding s k.uid (Scope.code f.scope) = false →
      ∃ k', exec (.fence f) s = .next ((fenced s k.uid (Scope.code f.scope)).put { k' with summary := 0 }) ∧
        WroteScalar k k' f.d k.summary) ∧
    (outstanding s k.uid (Scope.code f.scope) = true →
      ∃ k', exec (.fence f) s = .next (s.put k') ∧ k'.wait = .fence ∧ k'.pc = k.pc ∧ k'.s = k.s ∧ k'.summary = k.summary)

/-- R97 to R100, R72: CTRADD adds to a counter of its tile store, which saturates with CSAT and fault 0x60; WAITGE completes
with the counter's value once it has reached the target, having observed the CTRADDs on it, and waits until then for the counter
and the target that it read when it issued. R386: what it observes of a counter that a store has lowered too early is a free
value, and a counter with a poisoned byte raises 0x26 with its address; a misaligned one is `TileStoreFaults`'. In the part on CTRADD `s₁` is the state in which engine work has noted that the counter changes (R74, R137, R144), in that
on WAITGE the state after what it observes has been drawn. -/
def Obligations.CounterInstructions : Prop :=
  (∀ (f : CtrC) s k, Issues s k { src := [f.a, f.b] } →
    let a := k.rd f.a + f.x.signExtend 64
    let c := storeKey s.at_.1 a.toNat
    let s₁ := s.touchStore k.team k.lrank [(a.toNat, 8)]
    let n := s₁.mem.num c 8 + (k.rd f.b).toNat
    InStore a 8 8 → s.ok →
    ((∀ x ∈ s.spoilt k.team k.lrank [(a.toNat, 8)] none, x.1 < c ∨ c + 8 ≤ x.1) → s₁.mem.num c 8 = s.mem.num c 8) ∧
    (n < 2 ^ 64 → ∃ z, exec (.ctradd f) s = .next (recheckWaits z k.team k.lrank) ∧ z.mem.num c 8 = n ∧
      StoresOnly s z k (storeKey s.at_.1 0) [(a.toNat, 8)]) ∧
    (2 ^ 64 ≤ n →
      exec (.ctradd f) s = .next (((s₁.update c (List.replicate 8 0xFF)).orFstat k.team k.lrank 0x20).takeFault s.at_.1
        s.at_.2 { k with wait := .none } 0x60 a (BitVec.ofNat 64 (n - (2 ^ 64 - 1))) ((encode (.ctradd f)).getD 0)))) ∧
  (∀ (f : WaitC) s k, Issues s k { src := [f.a, f.b], dst := [f.d] } →
    ∀ (a : Word) (m : Nat),
      (a, m) = (match k.wait with
        | .waitge o m _ => (BitVec.ofNat 64 o, m)
        | _ => (k.rd f.a + f.x.signExtend 64, (k.rd f.b).toNat)) →
    let key := storeKey s.at_.1 a.toNat
    let n := (observed s k key a.toNat).1
    let s₁ := (observed s k key a.toNat).2
    InStore a 8 8 →
    (s.anyPoison key 8 = true →
      exec (.waitge f) s = .next (s.takeFault s.at_.1 s.at_.2 k 0x26 a 0 ((encode (.waitge f)).getD 0))) ∧
    (s.loweredAt k a.toNat = false → n = BitVec.ofNat 64 (s.mem.num key 8) ∧ s₁ = s) ∧
    (s.anyPoison key 8 = false →
    (m ≤ n.toNat →
      ∃ k', exec (.waitge f) s = .next ((s₁.onRace k.team k.lrank fun r => r.observe k.uid a.toNat).put k') ∧
        WroteScalar k k' f.d n) ∧
    (n.toNat < m →
      ∃ k', exec (.waitge f) s = .next (s.put k') ∧ k'.wait = .waitge a.toNat m f ∧ k'.pc = k.pc ∧ k'.s = k.s)))

/-- R19, R72, R87 to R91: BAR and BARA record the arrival of their vtile, or at tile scope of their strand with the stores that
it knows, at the superstep where it arrives next. BAR waits past its instruction with sD and sDS empty; BARA writes the superstep to
sD and goes on. R20: an arrival at the fourth superstep after the lowest open one is not recorded, and its strand stalls at its
instruction. R88: an arrival that disagrees with the operation that its phase has fixed, or at tile scope with its count, is recorded
as forced with completion code 0xFF00, and its instruction raises 0x61. -/
def Obligations.BarrierArrival : Prop :=
  let stated (l : Scope) (w n : Nat) : Prop := field w 0 16 < 0xFF00 ∧ (l = .tile ∨ bit w 18 = false ∨ n % 4 = field w 16 2)
  let open_ (s : State) (k : Strand) (t : Team) (l : Scope) (n : Nat) : Prop :=
    n < (s.unit k.team l (t.unitOf l k.lrank)).step + 4
  let odd (s : State) (k : Strand) (t : Team) (l : Scope) (n : Nat) (rop : BOp) (cnt : Nat) : Prop :=
    let p := State.phase (s.unit k.team l (t.unitOf l k.lrank)) n
    (∃ o, p.rop = some o ∧ o ≠ rop) ∨ (l = .tile ∧ ∃ c, p.cnt = some c ∧ c ≠ cnt)
  let may (s : State) (k : Strand) (t : Team) (l : Scope) (w : Nat) (n : Nat) (rop : BOp) (cnt : Nat) : Prop :=
    stated l w n ∧ open_ s k t l n ∧ ¬ odd s k t l n rop cnt
  let noted (s t' : State) (k : Strand) (t : Team) (l : Scope) (n : Nat) (v : Option Word) (code : Nat) (forced : Bool) : Prop :=
    (State.phase (t'.unit k.team l (t.unitOf l k.lrank)) n).arrivals =
      (State.phase (s.unit k.team l (t.unitOf l k.lrank)) n).arrivals ++
        [⟨if l = .tile then k.uid else k.lrank, v, BitVec.ofNat 16 code, forced, s.podtime.toNat,
          match l, s.vtile? k.team (t.unitOf l k.lrank) with
          | .tile, some x => if x.race.stores = [] then [] else x.race.knows k.uid
          | _, _ => []⟩]
  let recorded (s t' : State) (k : Strand) (t : Team) (l : Scope) (n : Nat) (v : Word) (code : Nat) : Prop :=
    noted s t' k t l n (some v) code false
  let turned (i : Instr) (what : StallKind) (s : State) (k : Strand) (t : Team) (l : Scope) (n w : Nat) (v : Word) (rop : BOp)
      (cnt : Nat) : Prop :=
    let u := t.unitOf l k.lrank
    let b := s.unit k.team l u
    stated l w n →
    (¬ open_ s k t l n → exec i s = .next ((s.putUnit k.team l u { b with stalled := b.stalled ++
        [⟨what, k.lrank, k.uid, n, l != .tile && bit w 18, rop, cnt, v, BitVec.ofNat 16 (field w 0 16)⟩] }).put
      { k with wait := .fifth, waitSince := s.cycle.toNat })) ∧
    (open_ s k t l n → odd s k t l n rop cnt →
      ∃ z k', exec i s = .next (z.takeFault s.at_.1 s.at_.2 k' 0x61 0 0 ((encode i).getD 0) true) ∧
        noted s z k t l n none 0xFF00 true ∧ z.strands = s.strands ∧ k' = { k with wait := .none, tahead := k'.tahead } ∧
        k'.tahead = if l = .tile then k.tahead + 1 else k.tahead)
  (∀ (f : BarS) s k t, WellFormed (.bar f) = true → Issues s k { src := [f.a, f.b], dst := [f.d, f.ds] } →
    s.team? k.team = some t →
    let n := s.target t k.team k.lrank f.scope k.tahead
    may s k t f.scope (k.rd f.b).toNat n f.rop f.cnt.val →
    ∃ t' k', exec (.bar f) s = .next t' ∧ t'.strand? = some k' ∧ k'.pc = k.pc + 8 ∧
      k'.wait = .barrier f.scope n f.d f.ds ∧ k'.s = k.s ∧
      (∀ r, k'.full r = (k.full r && (r == 0 || (r != f.d && r != f.ds)))) ∧
      k'.tahead = (if f.scope = .tile then k.tahead + 1 else k.tahead) ∧
      recorded s t' k t f.scope n (k.rd f.a) (field (k.rd f.b).toNat 0 16)) ∧
  (∀ (f : BarS) s k t, WellFormed (.bar f) = true → Issues s k { src := [f.a, f.b], dst := [f.d, f.ds] } →
    s.team? k.team = some t →
    turned (.bar f) (.bar f.d f.ds) s k t f.scope (s.target t k.team k.lrank f.scope k.tahead) (k.rd f.b).toNat (k.rd f.a) f.rop
      f.cnt.val) ∧
  (∀ (f : BaraS) s k t, WellFormed (.bara f) = true → Issues s k { src := [f.a, f.b], dst := [f.d] } →
    s.team? k.team = some t →
    turned (.bara f) (.bara f.d) s k t f.scope (s.target t k.team k.lrank f.scope k.tahead) (k.rd f.b).toNat (k.rd f.a) f.rop
      f.cnt.val) ∧
  (∀ (f : BaraS) s k t, WellFormed (.bara f) = true → Issues s k { src := [f.a, f.b], dst := [f.d] } →
    s.team? k.team = some t →
    let n := s.target t k.team k.lrank f.scope k.tahead
    may s k t f.scope (k.rd f.b).toNat n f.rop f.cnt.val →
    ∃ t' k', exec (.bara f) s = .next t' ∧ t'.strand? = some k' ∧ k'.pc = k.pc + 8 ∧ k'.wait = .none ∧
      k'.rd f.d = (if f.d = 0 then 0 else BitVec.ofNat 64 n) ∧ (∀ r, r ≠ f.d → k'.rd r = k.rd r) ∧
      recorded s t' k t f.scope n (k.rd f.a) (field (k.rd f.b).toNat 0 16))

/-- R92, R93: BARW waits for a superstep that has not completed, delivers the results that its phase slot still keeps, and
raises 0x64 for a superstep too far ahead and 0x63 for one whose results are gone. -/
def Obligations.BarrierResults : Prop :=
  ∀ (f : BarwS) s k t, WellFormed (.barw f) = true → Issues s k { src := [f.a], dst := [f.d, f.ds] } →
    s.team? k.team = some t →
    let u := s.unit k.team f.scope (t.unitOf f.scope k.lrank)
    let n := (k.rd f.a).toNat
    (u.step ≤ n → n < u.step + 4 →
      ∃ k', exec (.barw f) s = .next (s.put k') ∧ k'.pc = k.pc + 8 ∧ k'.wait = .barrier f.scope n f.d f.ds ∧ k'.s = k.s ∧
        (∀ r, k'.full r = (k.full r && (r == 0 || (r != f.d && r != f.ds))))) ∧
    (n < u.step → u.step ≤ n + 4 → f.d ≠ f.ds → ∀ r, lookup n u.results = some r →
      ∃ t' k', exec (.barw f) s = .next t' ∧ t'.strand? = some k' ∧ k'.pc = k.pc + 8 ∧
        k'.rd f.d = (if f.d = 0 then 0 else r.value) ∧ k'.rd f.ds = (if f.ds = 0 then 0 else r.status) ∧
        (∀ q, q ≠ f.d → q ≠ f.ds → k'.rd q = k.rd q) ∧
        (Untraced s → t' = (knowResult s k.team k.lrank k.uid f.scope r).put k')) ∧
    (u.step + 4 ≤ n →
      exec (.barw f) s = .next (s.takeFault s.at_.1 s.at_.2 k 0x64 0 0 ((encode (.barw f)).getD 0))) ∧
    (n + 4 < u.step →
      exec (.barw f) s = .next (s.takeFault s.at_.1 s.at_.2 k 0x63 0 0 ((encode (.barw f)).getD 0)))

/-- R40, R42, R358, R361: SPAWN completes the record at its address with TEAM and a fresh SEQ, puts it into the queue that
the record names and writes the ticket; a full queue raises 0x67. SUSP does the same and ends the strand when the cell's COUNT
is zero; else it parks the record, writes its ticket into PARK of the cell, and the strand ends. A cell on which a record is
parked raises 0x69. That an occupied cell comes before a full queue, and that only the queue or pool which the record would enter is
looked at, is the model's choice (log 37, DESIGN CHOICE). R31: a malformed record raises 0x66 with its address, and enqueues
nothing. `s₁` is the state in which the operation on the cell has been noted (R38). -/
def Obligations.SpawnAndSuspend : Prop :=
  let malformed (s : State) (t : Team) (r : BitVec 512) (e : HEntry) : Prop :=
    recKind r ≠ 0 ∨ field r.toNat 488 2 ≠ 0 ∨ recQs r = 3 ∨ (recPin r = true ∧ recQs r ≠ 0) ∨ t.size ≤ recHint r ∨
      recCode r % 8 ≠ 0 ∨ e.len ≤ recCode r ∨ (recJcell r ≠ 0 ∧ recJcell r % 16 ≠ 0) ∨
      (recJcell r ≠ 0 ∧ recJcell r < 2 ^ 32 ∧ recPin r = false) ∨
      (2 ^ 32 ≤ recJcell r ∧ checkAll s t [wordOpd (BitVec.ofNat 64 (recJcell r)) 2 16 16 .wa] ≠ .ok ())
  (∀ (f : SpawnS) s k t r, Issues s k { src := [f.a], dst := [f.d] } → s.team? k.team = some t →
    let a := k.rd f.a + f.x.signExtend 64
    readRecord s t a none = .ok r →
    (t.qFull (recTarget t r) = false →
      ∃ t' k' T e, exec (.spawn f) s = .next t' ∧ t'.strand? = some k' ∧
        WroteScalar k k' f.d (BitVec.ofNat 64 (recQs r * 2 ^ 62 + recHint r * 2 ^ 52 + t.takeSeq.1)) ∧
        t'.team? k.team = some T ∧ T.queued = t.queued ++ [e] ∧ e.target = recTarget t r ∧ e.seq = t.takeSeq.1 ∧
        e.prio = min (recPrio r) t.prio ∧ e.save = none ∧
        e.record = recSet (recSet r 472 16 t.teamid) 448 24 t.takeSeq.1 ∧ T.parked = t.parked) ∧
    (t.qFull (recTarget t r) = true →
      exec (.spawn f) s = .next (s.takeFault s.at_.1 s.at_.2 k 0x67 a 0 ((encode (.spawn f)).getD 0)))) ∧
  (∀ (f : SpawnS) s k t e, Issues s k { src := [f.a], dst := [f.d] } → s.team? k.team = some t →
    let a := k.rd f.a + f.x.signExtend 64
    let key := storeKey s.at_.1 a.toNat
    checkAll s t [codeOpd s t, storeOpd a.toNat 64 8] = .ok () → s.anyPoison key 64 = false → codeEntry s t a = .ok e →
    malformed s t (BitVec.ofNat 512 (s.mem.num key 64)) e →
    exec (.spawn f) s = .next (s.takeFault s.at_.1 s.at_.2 k 0x66 a 0 ((encode (.spawn f)).getD 0))) ∧
  (∀ (f : SuspS) s k t e, Issues s k { src := [f.a, f.b] } → s.team? k.team = some t →
    let a := k.rd f.b + f.x.signExtend 64
    let key := storeKey s.at_.1 a.toNat
    checkAll s t [codeOpd s t, cellOpd (k.rd f.a), storeOpd a.toNat 64 8] = .ok () → chkCell (k.rd f.a) = .ok () →
    s.anyPoison key 64 = false → codeEntry s t a = .ok e → malformed s t (BitVec.ofNat 512 (s.mem.num key 64)) e →
    exec (.susp f) s = .next (s.takeFault s.at_.1 s.at_.2 k 0x66 a 0 ((encode (.susp f)).getD 0))) ∧
  (∀ (f : SuspS) s k t r, Issues s k { src := [f.a, f.b] } → s.team? k.team = some t →
    let w := k.rd f.a
    readRecord s t (k.rd f.b + f.x.signExtend 64) (some w) = .ok r →
    let key := cellKey s t s.at_.1 w
    let s₁ := cellTouch s k w key
    (cellPark s₁ key = 0 → cellCount s₁ key = 0 → t.qFull (recTarget t r) = false →
      ∃ t' T e, exec (.susp f) s = .next t' ∧ t'.strand? = none ∧ t'.team? k.team = some T ∧
        T.queued = t.queued ++ [e] ∧ e.seq = t.takeSeq.1 ∧ e.target = recTarget t r) ∧
    (cellPark s₁ key = 0 → cellCount s₁ key ≠ 0 → t.parked.length < t.ppCap →
      (awHnd w = 0 → ∀ a, key ≤ a → a < key + 16 → lookup a s.live = none) → s.ok →
      ∃ t' T p, exec (.susp f) s = .next t' ∧ t'.strand? = none ∧ t'.team? k.team = some T ∧
        T.parked = t.parked ++ [p] ∧ T.queued = t.queued ∧ p.seq = t.takeSeq.1 ∧ p.target = recTarget t r ∧
        p.record = recSet (recSet r 472 16 t.teamid) 448 24 t.takeSeq.1 ∧
        p.ticket = BitVec.ofNat 64 (recQs r * 2 ^ 62 + recHint r * 2 ^ 52 + t.takeSeq.1) ∧ p.released = none ∧
        p.cell = (if awHnd w = 0 then none else some key) ∧ cellPark t' key = p.ticket.toNat) ∧
    (cellPark s₁ key ≠ 0 →
      exec (.susp f) s = .next (s.takeFault s.at_.1 s.at_.2 k 0x69 w 0 ((encode (.susp f)).getD 0))))

/-- R41, R43, R338, R327: JOIN lowers COUNT of its cell by X. When COUNT reaches zero, the record parked there leaves the cell,
whose PARK becomes 0, and enters its queue, or waits in the pool while the queue is full (R42); X above COUNT raises 0x68.
EXIT ends the strand, after it has lowered its JCELL, when it keeps one, by one in the same way. In the shadow slot it ends the
handler (R253). `s₁` is the state in which the operation on the cell has been noted (R38). -/
def Obligations.JoinAndExit : Prop :=
  let plain (s : State) (k : Strand) (t : Team) (w : Word) (key : Nat) : Prop :=
    (awHnd w = 0 → ∀ a, key ≤ a → a < key + 16 → lookup a s.live = none) ∧ s.ok ∧
      (∀ v, s.vtile? k.team k.lrank = some v → v.div = .resident) ∧ checkAll s t [cellOpd w] = .ok () ∧ chkCell w = .ok ()
  let releases (t' : State) (k : Strand) (t : Team) (key : Nat) (p : Parked) : Prop :=
    cellCount t' key = 0 ∧ cellPark t' key = 0 ∧
    ((t.qFull p.target = false ∧
      ∃ T e, t'.team? k.team = some T ∧ T.queued = t.queued ++ [e] ∧ e.record = p.record ∧ e.seq = p.seq ∧
        e.target = p.target ∧ ∀ x ∈ T.parked, x ∈ t.parked ∧ ¬(x.ticket = p.ticket ∧ x.released = none)) ∨
     (t.qFull p.target = true ∧
      ∃ T, t'.team? k.team = some T ∧ T.queued = t.queued ∧ { p with released := some t.ord } ∈ T.parked))
  let parks (s₁ : State) (t : Team) (key : Nat) (p : Parked) : Prop :=
    cellPark s₁ key ≠ 0 ∧
    t.parked.find? (fun q => q.ticket == BitVec.ofNat 64 (cellPark s₁ key) && q.released.isNone) = some p ∧
    State.hbmHas (t.qAddr p.target + 64 * leastFree ((t.inQueue p.target).map (·.idx))) 64 = true
  (∀ (f : JoinS) s k t, WellFormed (.join f) = true → Issues s k { src := [f.a] } → s.team? k.team = some t →
    let w := k.rd f.a
    let key := cellKey s t s.at_.1 w
    let s₁ := cellTouch s k w key
    plain s k t w key →
    (f.x.toNat < cellCount s₁ key ∨ (f.x.toNat = cellCount s₁ key ∧ cellPark s₁ key = 0) →
      ∃ t', exec (.join f) s = .next t' ∧ t'.strand? = some { k with wait := .none, pc := k.pc + 8 } ∧
        cellCount t' key = cellCount s₁ key - f.x.toNat ∧ cellPark t' key = cellPark s₁ key ∧ t'.teams = s₁.teams) ∧
    (∀ p, f.x.toNat = cellCount s₁ key → parks s₁ t key p →
      ∃ t', exec (.join f) s = .next t' ∧ t'.strand? = some { k with wait := .none, pc := k.pc + 8 } ∧
        releases t' k t key p) ∧
    (cellCount s₁ key < f.x.toNat →
      exec (.join f) s = .next (s.takeFault s.at_.1 s.at_.2 k 0x68 w 0 ((encode (.join f)).getD 0)))) ∧
  (∀ s k t, Issues s k {} → s.team? k.team = some t → s.at_.2 ≠ 8 → k.jcell = 0 →
    ∃ t', exec .exit s = .next t' ∧ t'.strand? = none ∧ (Untraced s → t' = s.dropAt s.at_.1 s.at_.2)) ∧
  (∀ s k t, Issues s k {} → s.team? k.team = some t → s.at_.2 ≠ 8 → k.jcell ≠ 0 →
    let w := k.jcell
    let key := cellKey s t s.at_.1 w
    let s₁ := cellTouch s k w key
    plain s k t w key →
    (1 < cellCount s₁ key ∨ (cellCount s₁ key = 1 ∧ cellPark s₁ key = 0) →
      ∃ t', exec .exit s = .next t' ∧ t'.strand? = none ∧ cellCount t' key = cellCount s₁ key - 1 ∧
        cellPark t' key = cellPark s₁ key ∧ t'.teams = s₁.teams) ∧
    (∀ p, cellCount s₁ key = 1 → parks s₁ t key p →
      ∃ t', exec .exit s = .next t' ∧ t'.strand? = none ∧ releases t' k t key p) ∧
    (cellCount s₁ key = 0 →
      exec .exit s = .next (s.takeFault s.at_.1 s.at_.2 k 0x68 w 0 ((encode .exit).getD 0)))) ∧
  (∀ s k t, Issues s k {} → s.team? k.team = some t → s.at_.2 = 8 → Untraced s →
    exec .exit s = .next (s.endShadow s.at_.1 false))

/-- R44, R319: CANCEL removes the queued record of its ticket and writes 0, or finds none and writes 1; a ticket with
reserved bits raises 0x02. -/
def Obligations.CancelRecord : Prop :=
  ∀ (f : DaS) s k t, Issues s k { src := [f.a], dst := [f.d] } → s.team? k.team = some t →
    let w := k.rd f.a
    (∀ e, field w.toNat 24 28 = 0 → cancelled t w = some e →
      ∃ k', exec (.cancel f) s = .next ((s.putTeam k.team { t with queued := t.queued.filter (· != e) }).put k') ∧
        WroteScalar k k' f.d 0) ∧
    (field w.toNat 24 28 = 0 → cancelled t w = none →
      ∃ k', exec (.cancel f) s = .next (s.put k') ∧ WroteScalar k k' f.d 1) ∧
    (field w.toNat 24 28 ≠ 0 →
      exec (.cancel f) s = .next (s.takeFault s.at_.1 s.at_.2 k 0x02 0 0 ((encode (.cancel f)).getD 0)))

/-- R217 to R220: COLL.LD gives the load the lowest free graph number, or 0 when none is free; COLL.RUN gives the run the
next number of its graph; COLL.STAT empties sD until Virga answers. -/
def Obligations.CollectiveIssue : Prop :=
  (∀ (f : CollC) s k t, Issues s k { src := [f.a, f.b], dst := [f.d] } → s.team? k.team = some t →
    checkAll s t [imageOpd s t (k.rd f.a) 64] (k.rd f.b) = .ok () → ctrBad (k.rd f.b) = false →
    (∀ g, freeGraph s = some g →
      ∃ k' x, exec (.collLd f) s = .next ({ s with graphs := insertAt g x s.graphs }.put k') ∧
        WroteScalar k k' f.d (BitVec.ofNat 64 g) ∧ x.st = .loading ∧ x.addr = k.rd f.a ∧ x.ctr = k.rd f.b ∧
        x.amount = f.x.zeroExtend 64 ∧ x.next = 1) ∧
    (freeGraph s = none → ∃ k', exec (.collLd f) s = .next (s.put k') ∧ WroteScalar k k' f.d 0)) ∧
  (∀ (f : CollC) s k t x, Issues s k { src := [f.a, f.b], dst := [f.d] } → s.team? k.team = some t →
    let a := k.rd f.b + f.x.signExtend 64
    let g := (k.rd f.a).toNat
    let ns := (graphHead x.image).nslot
    lookup g s.graphs = some x → x.st = .loaded → x.who.team = k.team → checkAll s t [storeOpd a.toNat (16 * ns) 16] = .ok () →
    (∀ b ∈ (readBinds s a.toNat ns).zipIdx, bindBad x.image b.1 b.2 = false) →
    (let data := (readBinds s a.toNat ns).zipIdx.filter fun b => !b.1.k && useOf x.image b.2 != 3
     (∀ b ∈ data, b.1.space ≠ 0 ∧ b.1.space ≠ 5) ∧ checkAll s t (data.map fun b => b.1.opd x.image b.2) = .ok ()) →
    bindCvt t (readBinds s a.toNat ns) = .ok () → bindOfs (readBinds s a.toNat ns) = .ok () → s.anyPoison (storeKey s.at_.1 a.toNat) (16 * ns) = false →
    (s.runs.filter fun r => r.2.open_).length < 256 →
    ∃ t' k' r y, exec (.collRun f) s = .next t' ∧ t'.strand? = some k' ∧
      WroteScalar k k' f.d (BitVec.ofNat 64 (g * 2 ^ 32 + x.next)) ∧ lookup s.fresh t'.runs = some r ∧ r.g = g ∧
      r.run = x.next ∧ r.st = .waiting ∧ r.binds = readBinds s a.toNat ns ∧ lookup g t'.graphs = some y ∧
      y.next = nextRun x.next ∧ t'.mem = s.mem) ∧
  (∀ (f : DaS) s k, Issues s k { src := [f.a], dst := [f.d] } → field (k.rd f.a).toNat 42 22 = 0 →
    ∃ t' k' o, exec (.collStat f) s = .next t' ∧ t'.strand? = some k' ∧ k'.pc = k.pc + 8 ∧ k'.s = k.s ∧
      (∀ r, k'.full r = (k.full r && (r == 0 || r != f.d))) ∧ lookup s.fresh t'.stats = some o ∧ o.d = f.d ∧
      o.ticket = k.rd f.a ∧ { t' with strands := s.strands, stats := s.stats, fresh := s.fresh } = s)

/-- R65, R293, R294, R362, R363: SYSRD writes what its register reads as. In team mode a register that team mode may not read,
or write, raises 0x01. SYSWR hands its scalar to the register and the strand goes on; one of HTINV waits for the work that R65
names. R293, R294: what a strand reads of itself and its place. -/
def Obligations.SystemRegisters : Prop :=
  ((∀ (f : SysrdY) s k t, Issues s k { dst := [f.d] } → s.team? k.team = some t → (t.asid = 0 ∨ teamReads f.srn = true) →
     ∃ k', exec (.sysrd f) s = .next (s.put k') ∧
       WroteScalar k k' f.d (regRead s s.at_.1 s.at_.2 (some (k.team, k.lrank)) k.replay f.srn)) ∧
   (∀ (f : SysrdY) s k t, s.strand? = some k → s.team? k.team = some t → t.asid ≠ 0 → teamReads f.srn = false →
     exec (.sysrd f) s = .next (s.takeFault s.at_.1 s.at_.2 k 0x01 0 0 ((encode (.sysrd f)).getD 0))) ∧
   (∀ (f : SyswrY) s k t, Issues s k { src := [f.a] } → s.team? k.team = some t → (t.asid = 0 ∨ teamWrites f.srn = true) →
     f.srn ≠ .replay → (f.srn = .htinv → htinvDue s (k.rd f.a) (htinvUpto s) = false) →
     exec (.syswr f) s = .next (regWrite (s.put { k with wait := .none, pc := k.pc + 8 }) s.at_.1 (some (k.team, k.lrank))
       f.srn (k.rd f.a))) ∧
   (∀ (f : SyswrY) s k t, Issues s k { src := [f.a] } → s.team? k.team = some t → t.asid = 0 → f.srn = .htinv →
     htinvDue s (k.rd f.a) (htinvUpto s) = true →
     ∃ k', exec (.syswr f) s = .next (s.put k') ∧ k'.wait = .htinv (htinvUpto s) ∧ k'.pc = k.pc ∧ k'.s = k.s) ∧
   (∀ (f : SyswrY) s k, Issues s k { src := [f.a] } → f.srn = .replay →
     exec (.syswr f) s = .next (s.put { k with wait := .none, pc := k.pc + 8, replay := (k.rd f.a).getLsbD 0 })) ∧
   (∀ (f : SyswrY) s k t, s.strand? = some k → s.team? k.team = some t → t.asid ≠ 0 → teamWrites f.srn = false →
     exec (.syswr f) s = .next (s.takeFault s.at_.1 s.at_.2 k 0x01 0 0 ((encode (.syswr f)).getD 0)))) ∧
  (∀ s k t d, Issues s k { dst := [d] } → s.team? k.team = some t → d ≠ 0 →
     let reads (r : SysReg) (v : Word) : Prop :=
       ∃ k', exec (.sysrd ⟨false, r, d⟩) s = .next (s.put k') ∧ k'.rd d = v
     reads .teamid (BitVec.ofNat 64 t.teamid) ∧ reads .asid (BitVec.ofNat 64 t.asid) ∧
     reads .vtile (BitVec.ofNat 64 (t.pc * (t.nD * t.nG * t.nT) + k.lrank)) ∧ reads .ptile (BitVec.ofNat 64 s.at_.1) ∧
     reads .strand (BitVec.ofNat 64 s.at_.2) ∧ reads .cycle (s.cycleOf s.at_.1) ∧ reads .podtime s.podtime ∧
     (∀ l, reads (.stepc l) (BitVec.ofNat 64 (s.unit k.team l (t.unitOf l k.lrank)).step)) ∧
     reads .replay (if k.replay then 1 else 0))

/-- R364, R318, R335, R346, R247: NOP moves on. TRAP raises 0x08 and BKPT, with BKH clear, 0x09, each with its immediate in
INFO. BKPT with BKH set, and HALT in system mode or with UHALT set, move on and begin to halt the tile; HALT in team mode
without UHALT raises 0x01. A tile that steps is halted at once (R244). R250, R251: a load or store that touches a byte under an
enabled watchpoint of its kind with ACT 1 or 2 does not issue: the strand stays at it, and the tile begins to halt. -/
def Obligations.TrapsAndHalts : Prop :=
  let halts (x : Tile) (d : DbgState) : Prop := (x.dbg = .running ∧ d = .halting) ∨ (x.dbg = .stepping ∧ d = .halted)
  let watched (i : Instr) (sel : Nat) (rs : List (Nat × Nat)) (s : State) (k : Strand) : Prop :=
    let x := s.tile s.at_.1
    ∀ (n : Fin 4) (d : DbgState) (r : Nat × Nat),
      let w := x.wp.get n
      let base := field w.toNat 0 19
      w.getLsbD 63 = true → w.getLsbD sel = true → field w.toNat 32 20 ≠ 0 → (field w.toNat 61 2 = 1 ∨ field w.toNat 61 2 = 2) → r ∈ rs →
      base < r.1 + r.2 → r.1 < base + field w.toNat 32 20 → halts x d →
      ∃ t, exec i s = .next t ∧ t.strand? = some k ∧ (t.tile s.at_.1).dbg = d ∧ (t.tile s.at_.1).why = 4 ∧
        (t.tile s.at_.1).wphit.getLsbD n.val = true ∧
        (Untraced s → { t with tiles := s.tiles, agenda := s.agenda } = s)
  (∀ s k, Issues s k {} → exec .nop s = .next (s.put { k with wait := .none, pc := k.pc + 8 })) ∧
  (∀ imm s k, Issues s k {} →
    exec (.trap imm) s = .next (s.takeFault s.at_.1 s.at_.2 k 0x08 0 (imm.zeroExtend 64) ((encode (.trap imm)).getD 0))) ∧
  (∀ imm s k, Issues s k {} → (s.tile s.at_.1).bkh = false →
    exec (.bkpt imm) s = .next (s.takeFault s.at_.1 s.at_.2 k 0x09 0 (imm.zeroExtend 64) ((encode (.bkpt imm)).getD 0))) ∧
  (∀ imm s k, Issues s k {} → (s.tile s.at_.1).bkh = true → ∀ d, halts (s.tile s.at_.1) d →
    ∃ t, exec (.bkpt imm) s = .next t ∧ t.strand? = some { k with wait := .none, pc := k.pc + 8 } ∧
      (t.tile s.at_.1).dbg = d ∧ (t.tile s.at_.1).why = 3) ∧
  (∀ s k t, Issues s k {} → s.team? k.team = some t → (t.asid = 0 ∨ (s.tile s.at_.1).uhalt = true) →
    ∀ d, halts (s.tile s.at_.1) d →
    ∃ t', exec .halt s = .next t' ∧ t'.strand? = some { k with wait := .none, pc := k.pc + 8 } ∧
      (t'.tile s.at_.1).dbg = d ∧ (t'.tile s.at_.1).why = 2) ∧
  (∀ s k t, Issues s k {} → s.team? k.team = some t → t.asid ≠ 0 → (s.tile s.at_.1).uhalt = false →
    exec .halt s = .next (s.takeFault s.at_.1 s.at_.2 k 0x01 0 0 ((encode .halt).getD 0))) ∧
  (∀ (f : IntI) s k, WellFormed (.ld f) = true → Issues s k { src := [f.a], dst := [f.d] } →
    let a := k.rd f.a + f.imm.signExtend 64
    let n := f.ty.bits / 8
    InStore a n n → s.anyPoison (storeKey s.at_.1 a.toNat) n = false → watched (.ld f) 60 [(a.toNat, n)] s k) ∧
  (∀ (f : IntI) s k, WellFormed (.st f) = true → Issues s k { src := [f.a, f.d] } →
    let a := k.rd f.a + f.imm.signExtend 64
    let n := f.ty.bits / 8
    InStore a n n → watched (.st f) 59 [(a.toNat, n)] s k) ∧
  (∀ (f : VmemV) s k, WellFormed (.vld f) = true → Issues s k { src := [f.a], v := [f.d] } →
    let a := vectorAddress f k
    let b := f.ty.bits / 8
    let rs := laneRanges k f.q f.ty (fun i => a.toNat + i * b) (2048 / f.ty.bits)
    InStore a 256 256 →
    ((∀ r ∈ rs, s.anyPoison (storeKey s.at_.1 r.1) r.2 = false) → watched (.vld f) 60 rs s k) ∧ watched (.vst f) 59 rs s k) ∧
  (∀ (f : VgsV) s k, WellFormed (.vgath f) = true → Issues s k { src := [f.a], v := [f.b, f.d] } →
    let b := f.ty.bits / 8
    let rs := laneRanges k f.q f.ty (fun i => (laneAddress f k i).toNat) (min 64 (2048 / f.ty.bits))
    (∀ i, Moves f k i → InStore (laneAddress f k i) b b) →
    ((∀ r ∈ rs, s.anyPoison (storeKey s.at_.1 r.1) r.2 = false) → watched (.vgath f) 60 rs s k) ∧ watched (.vscat f) 59 rs s k)

/-- R175, R176, R264, R355: RESUME of a strand held in place lets it go on under the replay mark, past its instruction with
SKIP, or ends it with DROP, and writes 0. Of a strand that a fault has saved it moves the PC of the image with SKIP and queues
the resumable record at the strand's vtile, or frees the save slot with DROP, and writes 0; it writes 2 and does nothing where
that queue is full, and 1 where no strand is held or saved so. A designator with a field out of range raises 0x02. -/
def Obligations.ResumeHeld : Prop :=
  (∀ (f : ResumeY) s k t, Issues s k { src := [f.a], dst := [f.d] } → s.team? k.team = some t →
    designatorBad t (k.rd f.a).toNat = true →
    exec (.resume f) s = .next (s.takeFault s.at_.1 s.at_.2 k 0x02 0 0 ((encode (.resume f)).getD 0))) ∧
  (∀ (f : ResumeY) s k t v h, Issues s k { src := [f.a], dst := [f.d] } → s.team? k.team = some t →
    let w := (k.rd f.a).toNat
    let lr := field w 10 10
    let slot := field w 20 4
    designatorBad t w = false → field w 0 8 = 0xFF → s.vtile? k.team lr = some v → v.res = true → v.div = .resident →
    s.strandAt v.ptile slot = some h → h.held = true → h.team = k.team → h.lrank = lr → strandKey v.ptile slot ≠ strandKey s.at_.1 s.at_.2 →
    ∃ t' k', exec (.resume f) s = .next t' ∧ t'.strand? = some k' ∧ WroteScalar k k' f.d 0 ∧ t'.mem = s.mem ∧
      t'.strandAt v.ptile slot = if f.drop then none
        else some { h with held := false, replay := true, pc := if f.skip then h.pc + 8 else h.pc }) ∧
  (∀ (f : ResumeY) s k t v, Issues s k { src := [f.a], dst := [f.d] } → s.team? k.team = some t →
    let w := (k.rd f.a).toNat
    let slot := field w 20 4
    designatorBad t w = false → field w 0 8 = 0xFF → s.vtile? k.team (field w 10 10) = some v → v.res = true →
    s.strandAt v.ptile slot = none → lookup slot v.saves = none →
    ∃ k', exec (.resume f) s = .next (s.put k') ∧ WroteScalar k k' f.d 1) ∧
  (∀ (f : ResumeY) s k t v, Issues s k { src := [f.a], dst := [f.d] } → s.team? k.team = some t → t.teamid = k.team →
    let w := (k.rd f.a).toNat
    let n := field w 0 8
    let lr := field w 10 10
    let pc := hbmKey (t.slotAddr lr n + 8192)
    designatorBad t w = false → n ≠ 0xFF → s.vtile? k.team lr = some v → s.ok →
    (State.savedByFault v n = false → ∃ k', exec (.resume f) s = .next (s.put k') ∧ WroteScalar k k' f.d 1) ∧
    ∀ i, lookup n v.saves = some i → i.why = .fault → i.resumed = false →
      (f.drop = false → t.qFull (.vt lr) = true → ∃ k', exec (.resume f) s = .next (s.put k') ∧ WroteScalar k k' f.d 2) ∧
      (f.drop = false → t.qFull (.vt lr) = false →
        ∃ t' k' T V e, exec (.resume f) s = .next t' ∧ t'.strand? = some k' ∧ WroteScalar k k' f.d 0 ∧
          t'.mem.num pc 8 = (if f.skip then (s.mem.num pc 8 + 8) % 2 ^ 64 else s.mem.num pc 8) ∧
          t'.team? k.team = some T ∧ T.queued = t.queued ++ [e] ∧ e.save = some n ∧ e.target = .vt lr ∧ e.prio = i.prio ∧
          e.waiting = false ∧ e.record = resumableRec lr n i.prio ∧ recKind e.record = 1 ∧ recPin e.record = true ∧
          t'.vtile? k.team lr = some V ∧ lookup n V.saves = some { i with resumed := true, held := false, replay := true }) ∧
      (f.drop = true →
        ∃ t' k' V, exec (.resume f) s = .next t' ∧ t'.strand? = some k' ∧ WroteScalar k k' f.d 0 ∧ t'.teams = s.teams ∧
          t'.vtile? k.team lr = some V ∧ lookup n V.saves = none))

/-- R101, R102: any instruction that names an empty register waits at its instruction, and raises 0x65 when it is strict. R68: any
instruction that reads a scalar which a fill from a poisoned granule wrote raises 0x26, or one of the causes that come before it
(R292); ADD raises 0x26. A load from a poisoned granule raises 0x26 with the address. What an instruction names is `namesOf`. Of
SYSRD and SYSWR this holds where the mode lets them reach their register: else they raise 0x01 first. -/
def Obligations.HeldByRegisters : Prop :=
  (∀ (i : Instr) s k, i.hasWord = true → s.strand? = some k → reaches s i = true →
     let n := (namesOf s i).1
     let strict := (namesOf s i).2
     (namesFull s k n = false → strict = false →
       ∃ k', exec i s = .next (s.put k') ∧ k'.wait = .empty ∧ k' = { k with wait := k'.wait, waitSince := k'.waitSince }) ∧
     (namesFull s k n = false → strict = true →
       exec i s = .next (s.takeFault s.at_.1 s.at_.2 k 0x65 0 0 ((encode i).getD 0))) ∧
     (namesFull s k n = true → n.src.any k.bad = true →
       ∃ c a x, (0x20 ≤ c ∧ c ≤ 0x27 ∨ c = 0x10) ∧ exec i s = .next (s.takeFault s.at_.1 s.at_.2 k c a x ((encode i).getD 0)))) ∧
  ((∀ (f : IntR) s k, s.strand? = some k → namesFull s k { src := [f.a, f.b], dst := [f.d] } = true →
     (k.bad f.a || k.bad f.b) = true →
     exec (.addR f) s = .next (s.takeFault s.at_.1 s.at_.2 k 0x26 0 0 ((encode (.addR f)).getD 0))) ∧
   (∀ (f : IntI) s k, WellFormed (.ld f) = true → Issues s k { src := [f.a], dst := [f.d] } →
     let a := k.rd f.a + f.imm.signExtend 64
     InStore a (f.ty.bits / 8) (f.ty.bits / 8) → s.anyPoison (storeKey s.at_.1 a.toNat) (f.ty.bits / 8) = true →
     exec (.ld f) s = .next (s.takeFault s.at_.1 s.at_.2 k 0x26 a 0 ((encode (.ld f)).getD 0))))

/-- R52, R94, R167, R169 to R172: a precise fault of an ordinary strand records the forced arrivals, when its cause forces them:
one of the strand at tile scope and one of its vtile at every scope from group to pod, each at the superstep where it arrives
next when that phase is open. When the fault ring has room it writes a record of 64 bytes there and advances FQW by one, and
the strand's slot falls free and its registers go to the lowest free save slot from 8 on, or, where none is free, the strand is
held in its slot and FSTAT says so. When the ring is full the record is counted as lost, and the strand ends. `extra` stands for a
forced arrival that the instruction has recorded itself (R88). R173: when ARM is 1, the record clears it and queues a copy of the
template with the record's number in ARG0, unless the template is malformed or its queue is full; that the reserved bytes of the
fault-queue header are not looked at is the model's choice (log 37, DESIGN CHOICE). -/
def Obligations.PreciseFault : Prop :=
  (∀ (s : State) (tile slot : Nat) (k : Strand) (t : Team) (v : Vtile) (cause : Nat) (addr info word : Word) (extra : Bool),
    s.team? k.team = some t → s.vtile? k.team k.lrank = some v → v.ptile = tile → slot < 8 → k.lrank < 1024 →
    s.strandAt tile slot = some k → (s.tile tile).trctl.getLsbD 63 = false → s.liveNum (hbmKey t.area + 24) 8 ≠ 1 → s.ok →
    let fq := hbmKey t.area
    let forced := decide (cause < 0x40 ∧ cause ≠ 8 ∧ cause ≠ 9)
    let r := if forced then s.forceAll t k.team k.lrank k.uid k.tahead else (s, k.tahead)
    let k₁ := { k with tahead := r.2, wait := .none }
    let t' := s.takeFault tile slot k cause addr info word extra
    let recorded (save : Nat) (held : Bool) : Prop :=
      t'.mem.num (fq + 128 + 64 * (t.fqw % t.fqCap)) 64 =
        FaultRec.bits { pc := k.pc, word, addr, info, info2 := 0, rank := t.rank k.lrank, slot, cause, save, prio := k.prio
                        forced := forced || extra, held, oabs := false, iabs := false, eng := false } t.teamid (t.fqw + 1) s.now t.lostMark ∧
      t'.mem.num fq 8 = (t.fqw + 1) % 2 ^ 64 ∧
      ∃ T, t'.team? k.team = some T ∧ T.fqw = t.fqw + 1 ∧ T.lostc = t.lostc ∧ T.lostMark = false
    (t'.units = r.1.units ∧
     (forced = true →
       (∀ l, l ≠ .tile →
         let n := s.target t k.team k.lrank l 0
         n < (s.unit k.team l (t.unitOf l k.lrank)).step + 4 →
         (State.phase (t'.unit k.team l (t.unitOf l k.lrank)) n).arrivals =
           (State.phase (s.unit k.team l (t.unitOf l k.lrank)) n).arrivals ++ [⟨k.lrank, none, 0xFF00, true, s.now, []⟩]) ∧
       (let n := s.target t k.team k.lrank .tile k.tahead
        n < (s.unit k.team .tile k.lrank).step + 4 →
        r.2 = k.tahead + 1 ∧ ∃ a, (State.phase (t'.unit k.team .tile k.lrank) n).arrivals =
            (State.phase (s.unit k.team .tile k.lrank) n).arrivals ++ [a] ∧
          a.who = k.uid ∧ a.value = none ∧ a.code = 0xFF00 ∧ a.forced = true ∧ a.time = s.now))) ∧
    (t.fqw - s.liveNum (fq + 8) 8 ≠ t.fqCap → ∀ n, freeSave t v = some n →
      recorded n false ∧ t'.strandAt tile slot = none ∧
      (∃ V, t'.vtile? k.team k.lrank = some V ∧ lookup n V.saves = some (SaveInfo.of k₁ .fault)) ∧
      t'.mem.read (hbmKey (t.slotAddr k.lrank n)) 9728 = imageOf (r.1.imaged k₁) ∧
      let K := strandOf t'.mem (hbmKey (t.slotAddr k.lrank n)) k.team k.lrank (SaveInfo.of k₁ .fault)
      SameStrand k K ∧ K.uid = k.uid ∧ K.prio = k.prio ∧ K.tahead = r.2) ∧
    (t.fqw - s.liveNum (fq + 8) 8 ≠ t.fqCap → freeSave t v = none →
      recorded 0xFF true ∧ t'.strandAt tile slot = some { k₁ with held := true } ∧
      ∃ V, t'.vtile? k.team k.lrank = some V ∧ V.fstat = v.fstat ||| fstatHeld) ∧
    (t.fqw - s.liveNum (fq + 8) 8 = t.fqCap →
      t'.strandAt tile slot = none ∧ t'.mem.num (fq + 16) 8 = (t.lostc + 1) % 2 ^ 64 ∧
      ∃ T, t'.team? k.team = some T ∧ T.fqw = t.fqw ∧ T.lostc = t.lostc + 1 ∧ T.lostMark = true)) ∧
  (∀ (s : State) (tile slot n : Nat) (k : Strand) (t : Team) (v : Vtile) (cause : Nat) (addr info word : Word) (e : HEntry),
    s.team? k.team = some t → s.vtile? k.team k.lrank = some v → slot < 8 → s.strandAt tile slot = some k →
    (s.tile tile).trctl.getLsbD 63 = false → s.ok → freeSave t v = some n →
    let fq := hbmKey t.area
    let entry := t.htbase + 32 * (t.codeh % 2 ^ 20)
    let r := recSet (BitVec.ofNat 512 (s.mem.num (fq + 64) 64)) 192 64 (t.fqw + 1)
    let well := recMalformed t r e.len = false ∧ e.x = true ∧ t.qFull (recTarget t r) = false
    t.fqw - s.liveNum (fq + 8) 8 ≠ t.fqCap → s.liveNum (fq + 24) 8 = 1 → codeEntry s t 0 = .ok e → recJcell r < 2 ^ 32 →
    State.overlap entry 32 t.area (128 + 64 * t.fqCap) = false → State.overlap entry 32 (t.slotAddr k.lrank n) 9728 = false →
    let t' := s.takeFault tile slot k cause addr info word
    t'.liveNum (fq + 24) 8 = 0 ∧
    (well → ∃ T q, t'.team? k.team = some T ∧ T.queued = t.queued ++ [q] ∧ q.target = recTarget t r ∧ q.save = none ∧
      q.seq = t.takeSeq.1 ∧ q.record = recSet (recSet r 472 16 t.teamid) 448 24 t.takeSeq.1) ∧
    (¬ well → ∃ T, t'.team? k.team = some T ∧ T.queued = t.queued))

/-- R33, R42, R46, R48, R162: a released record enters its queue when it has room; a free slot takes the record that leaves
first, and a fresh strand begins with its arguments, FRAME and JCELL in s1 to s6 and every register full; an overfull queue
pushes one unpinned record to the vtile that LOADG names, if that stands in the same physical group. R47, R49, R50: LOADG takes
the idlest vtile of the physical group with its free slots and its queue's depth; park-on-wait, once the waits of parked records
have been looked at again, saves the strand that has waited longest and queues its resumable record at its own vtile. -/
def Obligations.QueueAndParkSteps : Prop :=
  ((∀ (id : Nat) (q : QTarget) (s : State) (t : Team) (p : Parked), s.team? id = some t →
     (t.inQueue q).length < t.cap q → p ∈ t.parked → p.released.isSome → p.target = q →
     (∀ x ∈ t.parked, x.released.isSome → x.target = q → x ≠ p → p.released.getD 0 < x.released.getD 0) →
     ∃ t' T e, exec (.releasedRecordEnqueue id q) s = .next t' ∧ t'.team? id = some T ∧ T.queued = t.queued ++ [e] ∧
       T.parked = t.parked.filter (· != p) ∧ e.record = p.record ∧ e.seq = p.seq ∧ e.ord = p.ord ∧ e.target = q) ∧
   (∀ (tile slot : Nat) (s : State) (id lr : Nat) (v : Vtile) (t : Team) (e : QEntry),
     s.standing tile = some (id, lr, v) → s.team? id = some t → tileWorks s tile v = true → slot < 8 →
     s.strandAt tile slot = none → v.saves = [] → nextRecord t lr (s.queueClock t) = some e → e.save = none →
     ∃ t' T k, exec (.continuationDispatch tile slot) s = .next t' ∧ t'.team? id = some T ∧
       T.queued = t.queued.filter (· != e) ∧ t'.strandAt tile slot = some k ∧ k.team = id ∧ k.lrank = lr ∧
       k.pc = BitVec.ofNat 64 (recCode e.record) ∧
       (∀ i : Fin 4, k.s.get ⟨i.val + 1, by omega⟩ = BitVec.ofNat 64 (recArg e.record i.val)) ∧
       k.rd 5 = BitVec.ofNat 64 (recFrame e.record) ∧ k.rd 6 = BitVec.ofNat 64 (recJcell e.record) ∧
       (∀ r : SReg, 7 ≤ r.val → k.rd r = 0) ∧ (∀ r, k.full r = true) ∧ (∀ r, k.fullV r = true) ∧ (∀ r, k.rdV r = 0) ∧
       (∀ r, k.rdP r = if r = 0 then BitVec.allOnes 256 else 0) ∧ (∀ r, k.rdM r = 0) ∧ k.summary = 0 ∧
       k.jcell = BitVec.ofNat 64 (recJcell e.record) ∧ k.prio = e.prio ∧ k.wait = .none) ∧
   (∀ (tile : Nat) (s : State) (id lr : Nat) (v : Vtile) (t : Team) (e : QEntry),
     s.standing tile = some (id, lr, v) → s.team? id = some t → tileWorks s tile v = true → t.pusht ≠ 0 →
     t.pusht < (t.inQueue (.vt lr)).length →
     let idle := field (s.tile tile).loadg.toNat 0 10
     idle ≠ lr → (∃ x, s.vtile? id idle = some x ∧ x.res = true ∧ x.ptile / 16 = tile / 16) → t.qFull (.vt idle) = false →
     lastOf ((t.inQueue (.vt lr)).filter fun e => e.save.isNone && !recPin e.record) = some e →
     ∃ t' T e', exec (.pushMigration tile) s = .next t' ∧ t'.team? id = some T ∧
       T.queued = t.queued.filter (· != e) ++ [e'] ∧ e'.target = .vt idle ∧ e'.seq = e.seq ∧ e'.ord = e.ord ∧
       e'.record = recSet e.record 490 10 idle)) ∧
  ((∀ (tile : Nat) (s : State) (id lr : Nat) (v : Vtile) (t : Team) (free depth best : Nat),
     s.standing tile = some (id, lr, v) → s.team? id = some t → idlest s t id (tile / 16) = some (free, depth, best) →
     exec (.loadgRefresh tile) s = .next (s.onTile tile fun x =>
       { x with loadg := BitVec.ofNat 64 (best % 2 ^ 10 + min depth 0xFFFFF * 2 ^ 24 + free % 2 ^ 4 * 2 ^ 44) })) ∧
   (∀ (tile : Nat) (s : State) (id lr : Nat) (v : Vtile) (t : Team) (n i : Nat) (k : Strand),
     let z := recheckWaits s id lr
     s.standing tile = some (id, lr, v) → z.team? id = some t → tileWorks z tile v = true → t.pow = true →
     (nextRecord t lr (z.queueClock t)).isSome → (t.inQueue (.vt lr)).length < t.cap (.vt lr) → freeSave t v = some n →
     parkVictim z id tile = some (i, k) → k.team = id → k.lrank = lr →
     ∃ t' T V x e, exec (.parkOnWait tile) s = .next t' ∧ t'.strandAt tile i = none ∧ t'.team? id = some T ∧
       t'.vtile? id lr = some V ∧ lookup n V.saves = some x ∧ x.uid = k.uid ∧ x.why = .park ∧ x.wait = k.wait ∧
       e ∈ T.queued ∧ e.save = some n ∧ e.target = .vt lr ∧ recKind e.record = 1 ∧ recPin e.record = true ∧
       e.prio = k.prio))

/-- R71, R80, R87: when every participant has arrived, the exchange of the unit's superstep runs once. It commits the live
values that the unit's AMOs have reached, and no others. R74, R75: it performs the deferred copies of the superstep in ascending
rank and issue order, from sources as they stood before it, a later byte over an earlier one, and posts their counters; R148: a
CPYA combines its elements in place. R77: each address of REDs of one operation and format takes the value of their tree. R63,
R80, R87, R199: at pod scope a package notes what peers tell of their arrivals; its exchange first says what it has sent to each
member, waits until each has said the same and all of it is here, and then performs the peers' writes and REDs and answers them.
The clauses take one kind of work at a time. The model's choices here: that step 1 commits what the unit's own AMOs have reached, and
not every live word of the unit's level memory (log 22, DEDUCED), and the two passes of a pod exchange, in which each package first
says what it has sent and then what its exchange came to (log 31, DEDUCED). R18, R23, R90, R92, R93: the completion then advances
the superstep counter and keeps its value and status in the phase slot, unless a log lacks room for the results or an outer scope
has completed in this CYCLE; at pod scope when the members have told what the exchange came to (R81). -/
def Obligations.BarrierSteps : Prop :=
  let masked (ws : List (Nat × Byte × Byte)) (a : Nat) (x : Byte) : Byte :=
    ws.foldl (fun b w => if w.1 = a then (b &&& ~~~w.2.1) ||| (w.2.2 &&& w.2.1) else b) x
  let due (s : State) (t : Team) (id : Nat) (l : Scope) (u : Nat) : Prop :=
    let b := s.unit id l u
    s.team? id = some t ∧ t.teamid = id ∧ (State.phase b b.step).exchanged = false ∧
    phaseFull t l u (State.phase b b.step) (State.phase b b.step).peers = true ∧ (t.unitsOf l).contains u = true ∧
    s.doneCopies = [] ∧ s.ok
  let ran (s t' : State) (id : Nat) (l : Scope) (u : Nat) : Prop :=
    let b := s.unit id l u
    (t'.unit id l u).step = b.step ∧ (State.phase (t'.unit id l u) b.step).exchanged = true ∧
    (State.phase (t'.unit id l u) b.step).arrivals = (State.phase b b.step).arrivals
  (∀ (id : Nat) (l : Scope) (u : Nat) (peers : List PodPart) (s : State) (t : Team), l ≠ .pod → due s t id l u →
    let k := (s.unit id l u).step
    exCopies s t l u k = [] → exReds s t l u k = [] → (s.live.map (·.1)).Nodup →
    ∃ t', exec (.barrierExchange id l u peers) s = .next t' ∧ ran s t' id l u ∧
      (∀ a c us, lookup a s.live = some (c, us) → us.contains (unitKey id l u) = true →
        t'.mem.byte a = c ∧ lookup a t'.live = none) ∧
      (∀ a c us, lookup a s.live = some (c, us) → us.contains (unitKey id l u) = false →
        t'.mem.byte a = s.mem.byte a ∧ lookup a t'.live = some (c, us)) ∧
      (∀ a, lookup a s.live = none → t'.mem.byte a = s.mem.byte a)) ∧
  (∀ (id : Nat) (l : Scope) (u : Nat) (peers : List PodPart) (s : State) (t : Team), l ≠ .pod → due s t id l u →
    let k := (s.unit id l u).step
    let cs := exCopies s t l u k
    let xs (c : CopyOp) : List (Nat × Bool) := (copySource s t c 0 (shCount c.src)).1
    let key (c : CopyOp) : Nat → Nat := s.operandKey t c.who.lrank c.dst
    exReds s t l u k = [] → s.live = [] → s.poison = [] → exchangeWaits s t l cs [] = false → (s.copies.map (·.1)).Nodup →
    (∀ x ∈ cs, x.2.fetched = true ∧ shCount x.2.src = shCount x.2.dst ∧ shSpace x.2.dst ≠ 5 ∧ x.2.touched = [] ∧ (overlapOfs s t x.2).1 = [] ∧
      badChunk s t x.2 = none ∧ (∀ y ∈ xs x.2, y.2 = false) ∧
      ∀ o ∈ shBytes x.2.dst, key x.2 o < t.htbase ∨ t.htbase + 32 * t.htlen ≤ key x.2 o) →
    ((∀ x ∈ cs, x.2.op = none) →
      ∃ t', exec (.barrierExchange id l u peers) s = .next t' ∧ ran s t' id l u ∧
        (∀ a, t'.mem.byte a = masked (cs.flatMap fun x => (xs x.2).zipIdx.flatMap fun y =>
          (elemCells x.2.dst y.2 y.1.1).map fun c => (key x.2 c.1, c.2)) a (s.mem.byte a)) ∧
        ∀ x ∈ cs, lookup x.1 t'.copies = none ∧ (x.2.posted = none → ctrNone x.2.ctr = false →
          ∃ n, lookup n t'.incs = some ⟨x.2.who, ctrVt x.2.ctr, ctrOfs x.2.ctr, x.2.amount, x.2.diverted⟩)) ∧
    (∀ i c op, cs = [(i, c)] → c.op = some op → shFormat c.dst ≠ .c4 → ((shBytes c.dst).map (key c)).Nodup →
      ∃ t', exec (.barrierExchange id l u peers) s = .next t' ∧ ran s t' id l u ∧ lookup i t'.copies = none ∧
        (∀ j y, (xs c)[j]? = some y → elemVal t'.mem (key c) c.dst j =
          op.apply (shFormat c.dst) (elemVal s.mem (key c) c.dst j) y.1 % 2 ^ (8 * elemBytes (shFormat c.dst))) ∧
        ∀ a, a ∉ (shBytes c.dst).map (key c) → t'.mem.byte a = s.mem.byte a)) ∧
  (∀ (id : Nat) (l : Scope) (u : Nat) (peers : List PodPart) (s : State) (t : Team), l ≠ .pod → due s t id l u →
    let k := (s.unit id l u).step
    let rs := exReds s t l u k
    let cs := rs.flatMap fun r => contribs s t r.1 r.2
    exCopies s t l u k = [] → s.live = [] → exchangeWaits s t l [] rs = false →
    (∀ r ∈ rs, shSpace r.2.d ≠ 5 ∧ whyNot s t r.2.who.lrank r.2.d [] = none) →
    (∀ x ∈ cs, ∀ y ∈ cs, x.meets y = true → x.joins y = true) →
    ∃ t', exec (.barrierExchange id l u peers) s = .next t' ∧ ran s t' id l u ∧ (∀ r ∈ rs, lookup r.1 t'.reds = none) ∧
      (∀ c ∈ cs, ∀ v, scopeVal t (redApply c.op c.ty c.wd) (vtileVal cs c) l u = some v →
        t'.mem.num c.key (redBytes c.ty c.wd) =
          redApply c.op c.ty c.wd (s.mem.num c.key (redBytes c.ty c.wd)) v % 2 ^ (8 * redBytes c.ty c.wd)) ∧
      ∀ a, (∀ c ∈ cs, a < c.key ∨ c.key + redBytes c.ty c.wd ≤ a) → t'.mem.byte a = s.mem.byte a) ∧
  ((∀ (id : Nat) (x : PodPart) (s : State) (t : Team), s.team? id = some t →
     let b := s.unit id .pod 0
     let b' := b.hear t [x]
     let p := State.phase b' b'.step
     b.step ≤ x.step → x.step ≤ b.step + 4 → (State.others t).contains x.pkg = true → lookup x.pkg t.peersDown = none →
     (p.exchanged = true ∨ phaseFull t .pod 0 p p.peers = false) →
     exec (.barrierExchange id .pod 0 [x]) s = .next (s.putUnit id .pod 0 b') ∧ b'.step = b.step ∧
       x ∈ (State.phase b' x.step).peers ∧ (∀ y ∈ (State.phase b' x.step).peers, y.pkg = x.pkg → y = x) ∧
       (State.phase b' x.step).rop = (State.phase b x.step).rop.or x.rop) ∧
   (∀ (id : Nat) (s : State) (t : Team), due s t id .pod 0 →
     let b := s.unit id .pod 0
     let k := b.step
     let p := State.phase b k
     exCopies s t .pod 0 k = [] → exReds s t .pod 0 k = [] → s.heldEdge id = false →
     (p.sent = false → exec (.barrierExchange id .pod 0 []) s =
       .next (tellSent (s.putUnit id .pod 0 { b with phases := insertAt k { p with sent := true } b.phases }) id k
         (State.others t))) ∧
     (p.sent = true → podReady s t p = false → exec (.barrierExchange id .pod 0 []) s = .next s) ∧
     ∀ w, p.sent = true → podReady s t p = true → s.peerWork = [w] → podWork s t k = [w] → s.live = [] → s.poison = [] →
       let e := mirrorEntry s t w.hnd w.ofs (remoteNeeds w.kind).1 (remoteNeeds w.kind).2
       let done (t' : State) (a : RemoteAns) : Prop :=
         exec (.barrierExchange id .pod 0 []) s = .next t' ∧ ran s t' id .pod 0 ∧ t'.peerWork = [] ∧
           t'.outbox = (s.reply w.src w.quad w.cls w.tag w.team (remoteSite s w.quad w.ofs e) a).outbox
       (e = none → ∃ t', done t' .refused ∧ ∀ a, t'.mem.byte a = s.mem.byte a) ∧
       (∀ h r o cs, e = some h → w.kind = .write k r o cs false →
         ∃ t', done t' .done ∧
           ∀ a, t'.mem.byte a = masked (cs.map fun c => (h.key 0 (w.ofs + c.1), c.2)) a (s.mem.byte a)) ∧
       ∀ cs, peerContribs s t w = some cs → (∀ x ∈ cs, ∀ y ∈ cs, x.meets y = true → x.joins y = true) →
         ∃ t', done t' .done ∧
           (∀ c ∈ cs, ∀ v, podVal t cs c = some v → t'.mem.num c.key (redBytes c.ty c.wd) =
             redApply c.op c.ty c.wd (s.mem.num c.key (redBytes c.ty c.wd)) v % 2 ^ (8 * redBytes c.ty c.wd)) ∧
           ∀ a, (∀ c ∈ cs, a < c.key ∨ c.key + redBytes c.ty c.wd ≤ a) → t'.mem.byte a = s.mem.byte a)) ∧
  (∀ (id : Nat) (l : Scope) (u : Nat) (s : State) (t : Team), s.team? id = some t → t.teamid = id →
    let b := s.unit id l u
    let p := State.phase b b.step
    p.exchanged = true → (l = .pod → exCopies s t l u b.step = [] ∧ exReds s t l u b.step = []) →
    (l = .pod → p.told = false → exec (.barrierCompletion id l u) s = .next (tellDone s t b.step)) ∧
    ((l = .pod → p.told = true ∧ podAnswered t p = true) → canDeliver s t l u b.step = true → outerNow s t l u = false →
    ∃ t' r, exec (.barrierCompletion id l u) s = .next t' ∧ (t'.unit id l u).step = b.step + 1 ∧
      lookup b.step (t'.unit id l u).results = some r ∧ r.value = phaseRoot t l u p (p.rop.getD .none) ∧
      r.status = statusWord (tally t l b b.step p s.podtime.toNat) b.step ∧ r.time = s.podtime.toNat ∧
      r.cycle = s.cycle.toNat)) ∧
  (∀ (t : Team) (p : Phase) (x y : Arrival), p.arrivals = [x, y] → x.value.isSome → y.value.isSome →
    phaseRoot t .tile 0 p .addI64 = x.value.getD 0 + y.value.getD 0 ∧ phaseRoot t .tile 0 p .and = x.value.getD 0 &&& y.value.getD 0 ∧
    phaseRoot t .tile 0 p .none = 0)

/-- R66, R83, R195, R204, R210: a deferred copy is accepted by its home once it has come through the links between dies on its way,
and any other copy moves its next chunk into the fabric, when
no quiesce holds it back and no link of it retrains: the new landings carry, in order, the elements of the chunk as the source
holds them, in pieces of 128 bytes (R78, R150), where the operands do not overlap. R78, R146, R147: a landing that has come
through stores its bytes under their masks in the tile store of its vtile, or combines its elements there. R97: an increment adds
to its counter. No other byte changes but those that the change of the tile store leaves undefined (R144); `s₁` is the state in
which engine work has noted that change. The pieces in which bytes land and the links between dies that they cross on their way
(`arrives`) are the model's (logs 7, 10, 13). -/
def Obligations.CopySteps : Prop :=
  let free (s : State) (c : CopyOp) : Prop := s.heldBack c.who.team c.who.tile = false ∨
    (s.acrossFabric c.who.team c.who.tile c.src = false ∧ s.acrossFabric c.who.team c.who.tile c.dst = false)
  let unwatched (s : State) (x : Nat) : Prop := ∀ i : Fin 4, ((s.tile x).wp.get i).getLsbD 63 = false
  (∀ (id : Nat) (s : State) (c : CopyOp) (t : Team) (l : Scope) (k : Nat), lookup id s.copies = some c →
    s.team? c.who.team = some t → free s c → c.step = some (l, k) →
    let w := deferredWay s t c
    let x := s.cross id w.1 0 w.2
    (c.accepted = true → exec (.copyChunk id) s = .next s) ∧
    (c.accepted = false → x.1 = true →
      exec (.copyChunk id) s = .next { x.2 with copies := insertAt id { c with accepted := true } s.copies }) ∧
    (c.accepted = false → x.1 = false → exec (.copyChunk id) s = .next x.2)) ∧
  (∀ (id : Nat) (s : State) (c : CopyOp) (t : Team), lookup id s.copies = some c → s.team? c.who.team = some t →
    free s c → c.step = none → shSpace c.src ≠ 5 →
    let lo := chunkElems (shFormat c.src) * c.chunk
    let n := min (chunkElems (shFormat c.src)) (shCount c.src - lo)
    let rs := elemRanges c.src lo n
    lo < shCount c.src → whyNot s t c.who.lrank c.src rs = none → whyNot s t c.who.lrank c.dst [] = none →
    mustWait s t c.src rs = false → (overlapOfs s t c).1 = [] →
    let xs := (copySource s t c lo n).1
    ((∀ y ∈ xs, y.2 = false) ∨ ∃ p i k, s.locate c.who.team c.who.lrank c.who.uid = .slot p i k) →
    let ls := chunkLandings c (copyHome s t c 0) lo xs
    (isStore c.src = true → c.touched = [] → xs = readRange s (s.operandKey t c.who.lrank c.src) c.src lo n) ∧
    (isStore c.src = false → xs = (c.snap.drop lo).take n) ∧
    (c.op = none → (ls.flatMap fun l => match l.what with
        | .bytes cs => cs
        | _ => []) = xs.zipIdx.flatMap fun x => elemCells c.dst (lo + x.2) x.1.1) ∧
    ∃ t' c', exec (.copyChunk id) s = .next t' ∧ lookup id t'.copies = some c' ∧ c'.chunk = c.chunk + 1 ∧
      c'.pending = c.pending + ls.length ∧ c'.dst = c.dst ∧ c'.ctr = c.ctr ∧
      (∀ i l, ls[i]? = some l → lookup (s.fresh + i) t'.landings = some { l with of_ := .copy id }) ∧
      ∀ m, m < s.fresh ∨ s.fresh + ls.length ≤ m → lookup m t'.landings = lookup m s.landings) ∧
  (∀ (n : Nat) (s : State) (l : Landing) (t : Team) (x : Nat), lookup n s.landings = some l → s.team? l.who.team = some t →
    s.portOf l.who.team l.vt (splitLanding l).length = .tile x →
    (∀ m l', lookup m s.landings = some l' → m < n → l'.of_ ≠ l.of_) → (s.landings.map (·.1)).Nodup → s.ok → unwatched s x →
    let c := s.arrives n l.home (.tile x) t l.vt (if l.of_.isCopy then 1 else 2) (landFlits l)
    c.1 = true →
    let out := { c.2 with landings := eraseAt n c.2.landings }
    let s₁ := landTouch out l
    let own : Option Nat := match l.of_ with
      | .copy id => some id
      | .run _ _ => none
    (∀ a, (∀ k ∈ out.spoilt l.who.team l.vt (landRanges l).2 own, k.1 ≠ a) → s₁.mem.byte a = s.mem.byte a) ∧
    (∀ cs, l.what = .bytes cs →
      ∃ t', exec (.landing n) s = .next t' ∧ lookup n t'.landings = none ∧
        ∀ a, t'.mem.byte a = cs.foldl (fun b y => if storeKey x y.1 = a then (b &&& ~~~y.2.1) ||| (y.2.2 &&& y.2.1) else b)
          (s₁.mem.byte a)) ∧
    (∀ op f es, l.what = .combine op f es →
      es.Pairwise (fun y z => State.overlap y.1 (f.bits / 8) z.1 (f.bits / 8) = false) →
      ∃ t', exec (.landing n) s = .next t' ∧ lookup n t'.landings = none ∧
        (∀ y ∈ es, t'.mem.num (storeKey x y.1) (f.bits / 8) =
          op.apply f (s₁.mem.num (storeKey x y.1) (f.bits / 8)) y.2 % 2 ^ (8 * (f.bits / 8))) ∧
        ∀ a, (∀ y ∈ es, a < storeKey x y.1 ∨ storeKey x y.1 + f.bits / 8 ≤ a) → t'.mem.byte a = s₁.mem.byte a)) ∧
  (∀ (n : Nat) (s : State) (i : Increment) (t : Team) (x : Nat), lookup n s.incs = some i → s.team? i.who.team = some t →
    s.portOf i.who.team i.vt = .tile x → unwatched s x →
    let c := s.arrives n (tileSite i.who.tile) (.tile x) t i.vt (incClass s n) 1
    c.1 = true →
    let out := incDone { c.2 with incs := eraseAt n c.2.incs } n
    let s₁ := out.touchStore i.who.team i.vt [(i.ofs, 8)]
    s₁.mem.num (storeKey x i.ofs) 8 + i.amount.toNat < 2 ^ 64 → s.ok →
    (∀ a, (∀ k ∈ out.spoilt i.who.team i.vt [(i.ofs, 8)] none, k.1 ≠ a) → s₁.mem.byte a = s.mem.byte a) ∧
    ∃ t', exec (.counterIncrement n) s = .next t' ∧ lookup n t'.incs = none ∧
      t'.mem.num (storeKey x i.ofs) 8 = s₁.mem.num (storeKey x i.ofs) 8 + i.amount.toNat ∧
      (∀ a, a < storeKey x i.ofs ∨ storeKey x i.ofs + 8 ≤ a → t'.mem.byte a = s₁.mem.byte a))

/-- R76, R101, R307: an AMO at its home changes the live value alone and sends the old one to its register, which becomes
full; R37: one that brings COUNT of a join cell in group SRAM to zero releases the record parked there. R83: the home accepts a
RED. An operation reaches its home, and a fill its register, when it has come through the links between dies on its way (R210;
logs 7 and 13). -/
def Obligations.AtomicSteps : Prop :=
  let free (s : State) (w : Issuer) (m : Shape) : Prop :=
    s.heldBack w.team w.tile = false ∨ s.acrossFabric w.team w.tile m = false
  let way (s : State) (w : Issuer) (key : Nat) : List Nat := sitePath (tileSite w.tile) (s.homeSite key)
  (∀ (id : Nat) (s : State) (o : AmoOp) (t : Team) (p : Parked), lookup id s.amos = some o → s.team? o.who.team = some t →
    t.teamid = o.who.team → free s o.who o.a → shSpace o.a = 2 →
    whyNot s t o.who.lrank o.a [(shOfs o.a, o.ty.bits / 8)] = none → o.ty.bits = 32 →
    let cell := s.operandKey t o.who.lrank o.a (shOfs o.a)
    (s.cross id (way s o.who cell) 0 1).1 = true → cell % 16 = 0 → s.liveNum cell 4 ≠ 0 → o.op.apply o.ty (s.liveNum cell 4) o.v.toNat % 2 ^ 32 = 0 →
    t.parked.find? (fun q => q.ticket == BitVec.ofNat 64 (s.liveNum (cell + 8) 8) && q.released.isNone) = some p →
    p.cell = some cell → t.qFull p.target = false →
    ∃ t' T e, exec (.amoPerform id) s = .next t' ∧ t'.team? o.who.team = some T ∧ T.queued = t.queued ++ [e] ∧
      e.record = p.record ∧ e.seq = p.seq ∧ e.target = p.target) ∧
  (∀ (id : Nat) (s : State) (o : AmoOp) (t : Team), lookup id s.amos = some o → s.team? o.who.team = some t →
    free s o.who o.a → shSpace o.a ≠ 5 → whyNot s t o.who.lrank o.a [(shOfs o.a, o.ty.bits / 8)] = none →
    mustWait s t o.a [(shOfs o.a, o.ty.bits / 8)] = false → o.d ≠ 0 → o.ty.isAmo = true →
    let key := s.operandKey t o.who.lrank o.a (shOfs o.a)
    let n := o.ty.bits / 8
    (s.cross id (way s o.who key) 0 1).1 = true →
    (shSpace o.a = 2 → ∀ p ∈ t.parked, p.cell ≠ some (key / 16 * 16) ∨ p.released.isSome) →
    ∃ t', exec (.amoPerform id) s = .next t' ∧ lookup id t'.amos = none ∧ t'.mem = s.mem ∧
      t'.liveNum key n = o.op.apply o.ty (s.liveNum key n) o.v.toNat % 2 ^ o.ty.bits ∧
      lookup s.fresh t'.fills = some ⟨o.who, o.d, amoPut o.ty (s.liveNum key n), s.anyPoison key n, s.homeSite key⟩) ∧
  (∀ (id : Nat) (s : State) (o : FillOp) (t : Team) (v : Vtile) (p i : Nat) (k : Strand), lookup id s.fills = some o →
    s.team? o.who.team = some t → s.vtile? o.who.team o.who.lrank = some v → State.logging v = false →
    s.locate o.who.team o.who.lrank o.who.uid = .slot p i k → o.d ≠ 0 →
    (s.arrives id o.home (s.fillPort o.who.team o.who.lrank) t o.who.lrank 0 1).1 = true →
    ∃ t' k', exec (.amoFill id) s = .next t' ∧ lookup id t'.fills = none ∧ t'.strandAt p i = some k' ∧ k'.rd o.d = o.v ∧
      k'.full o.d = true ∧ k'.bad o.d = o.poisoned ∧ (∀ r, r ≠ o.d → k'.rd r = k.rd r ∧ k'.full r = k.full r) ∧
      k'.pc = k.pc ∧ k'.wait = k.wait ∧ t'.mem = s.mem) ∧
  (∀ (id : Nat) (s : State) (o : RedOp) (t : Team) (v : Vtile), lookup id s.reds = some o → s.team? o.who.team = some t →
    s.vtile? o.who.team o.who.lrank = some v → free s o.who o.d → shSpace o.d ≠ 5 →
    (shSpace o.d = 2 → s.fencedGroups.contains (v.ptile / 16) = false) →
    let c := s.cross id (way s o.who (s.operandKey t o.who.lrank o.d (shOfs o.d))) 0
      (1 + (shCount o.d * redBytes o.ty o.wd + 63) / 64)
    (c.1 = true → exec (.redAccept id) s = .next { c.2 with reds := insertAt id { o with accepted := true } s.reds }) ∧
    (c.1 = false → exec (.redAccept id) s = .next c.2)) ∧
  (∀ (id : Nat) (s : State) (o : StatOp) (t : Team) (v : Vtile) (p i : Nat) (k : Strand), lookup id s.stats = some o →
    s.team? o.who.team = some t → s.vtile? o.who.team o.who.lrank = some v → State.logging v = false →
    s.locate o.who.team o.who.lrank o.who.uid = .slot p i k → o.d ≠ 0 →
    ∃ t' k', exec (.collStatFill id) s = .next t' ∧ lookup id t'.stats = none ∧ t'.strandAt p i = some k' ∧
      k'.rd o.d = statusOf s o.who.team o.ticket ∧ k'.full o.d = true ∧ (∀ r, r ≠ o.d → k'.rd r = k.rd r))

/-- R63, R73, R199, R203: the requests and answers of peers complete. A request first comes through the links between dies on its
way from the edge to its home (R210). A peer's read of mirrored HBM is then answered with the bytes
as they stood when the pod exchanges of its superstep had run and at the pod time that it names, as the oldest exchange since
then tells, an AMO updates the live value and is answered with the old one, and a write, a RED or a read of a superstep to
come waits for the pod exchange. A read or an AMO that the mirror entry does not grant, and a request for more than 256 bytes
(R198), is refused. An answer takes the quad and the class of its request, and none goes out when that quad has gone DOWN. While a
quiesce holds the team's packets at the edge, the link keeps a request that has not entered (R195). An answer ends what waited for
it: an AMO sends the old value, or zero when it failed, to its register, the bytes of a read complete a chunk, and the last answer
to a copy or a RED ends it. That a read is ordered against pod exchanges by its superstep, and against the exchanges of a package by
the pod time that it names, is the model's choice (log 31, DEDUCED): R24 and R73 say only that it comes before or after them. -/
def Obligations.RemoteSteps : Prop :=
  let site (s : State) (r : RemoteReq) : Nat := requestSite s r.team r.quad r.hnd r.ofs r.kind
  let flits (r : RemoteReq) : Nat := (Msg.request 0 0 0 0 0 0 0 r.kind).flits
  let come (s : State) (r : RemoteReq) : Bool × State := s.cross (reqHop r.src r.tag) (sitePath (edgeSite r.quad) (site s r)) r.cls (flits r)
  let enters (s : State) (r : RemoteReq) : Prop := s.heldEdge r.team = false ∨ s.inbound.contains r = true
  let goes (s : State) (r : RemoteReq) : Prop := enters s r ∧ (come s r).1 = true
  let freed (s : State) (r : RemoteReq) : State :=
    { (come s r).2 with inbound := s.inbound.filter (· != r) }.freeBuffers r.quad r.cls (flits r)
  let sent (s : State) (r : RemoteReq) (a : RemoteAns) : List Msg :=
    s.outbox ++ if s.carries r.quad then [.answer r.src r.quad r.cls r.tag r.team (site s r) a] else []
  let hold (s : State) (r : RemoteReq) : State :=
    { freed s r with peerWork := s.peerWork ++ [⟨r.src, r.quad, r.cls, r.tag, r.team, r.hnd, r.ofs, r.kind⟩] }
  let taken (s : State) (tag : Nat) (r : Remote) (a : RemoteAns) : State :=
    { s.freeBuffers r.quad r.cls (Msg.answer 0 0 0 0 0 0 a).flits with remotes := eraseAt tag s.remotes }
  ((∀ (r : RemoteReq) (s : State), s.heldEdge r.team = true → s.inbound.contains r = false →
     exec (.remoteRequest r) s = .next s) ∧
   (∀ (r : RemoteReq) (s : State), enters s r → (come s r).1 = false →
     exec (.remoteRequest r) s = .next { (come s r).2 with inbound := s.inbound.filter (· != r) ++ [r] }) ∧
   (∀ (r : RemoteReq) (s : State) (t : Team) (e : HEntry) (step time n : Nat), goes s r →
     s.team? r.team = some t → r.kind = .read step time n → n ≤ 256 → mirrorEntry s t r.hnd r.ofs n .r = some e →
     (step ≤ podDone s t → exec (.remoteRequest r) s = .next { freed s r with
        outbox := sent s r (.data ((interval (e.key 0 r.ofs) n).map (byteAtPod s r.team step time))) }) ∧
     (podDone s t < step → exec (.remoteRequest r) s = .next (hold s r))) ∧
   (∀ (s : State) (id n time a : Nat),
     ((∀ k ∈ s.kept, (if k.pod = true ∧ k.team = id then n ≤ k.step else time < k.time) → lookup a k.cells = none) →
       byteAtPod s id n time a = (s.mem.byte a, s.poisoned (granule a))) ∧
     ∀ pre k post b, s.kept = pre ++ k :: post →
       (∀ x ∈ pre, (if x.pod = true ∧ x.team = id then n ≤ x.step else time < x.time) → lookup a x.cells = none) →
       (if k.pod = true ∧ k.team = id then n ≤ k.step else time < k.time) → lookup a k.cells = some b →
       byteAtPod s id n time a = b) ∧
   (∀ (r : RemoteReq) (s : State) (t : Team) (e : HEntry) (op : ROp) (ty : Fmt) (v : Word), goes s r →
     s.team? r.team = some t → r.kind = .amo op ty v → ty.isAmo = true →
     mirrorEntry s t r.hnd r.ofs (ty.bits / 8) .a = some e →
     let key := e.key 0 r.ofs
     let n := ty.bits / 8
     ∃ t', exec (.remoteRequest r) s = .next t' ∧ t'.mem = s.mem ∧
       t'.liveNum key n = op.apply ty (s.liveNum key n) v.toNat % 2 ^ ty.bits ∧
       t'.outbox = sent s r (.data ((bytesOf n (s.liveNum key n)).map fun b => (b, s.anyPoison key n)))) ∧
   (∀ (r : RemoteReq) (s : State) (t : Team), goes s r → s.team? r.team = some t →
     (∀ step time n, r.kind ≠ .read step time n) → (∀ op ty v, r.kind ≠ .amo op ty v) → remoteBytes r.kind ≤ 256 →
     podDone s t ≤ remoteStep r.kind → exec (.remoteRequest r) s = .next (hold s r)) ∧
   (∀ (r : RemoteReq) (s : State), goes s r →
     (256 < remoteBytes r.kind ∨ ∀ t, s.team? r.team = some t →
       ((∃ step time n, r.kind = .read step time n) ∨ ∃ op ty v, r.kind = .amo op ty v) ∧
       mirrorEntry s t r.hnd r.ofs (remoteNeeds r.kind).1 (remoteNeeds r.kind).2 = none) →
     exec (.remoteRequest r) s = .next { freed s r with outbox := sent s r .refused })) ∧
  ((∀ (tag : Nat) (a : RemoteAns) (s : State), ∃ t', exec (.remoteResponse tag a) s = .next t') ∧
   (∀ (tag : Nat) (a : RemoteAns) (s : State), lookup tag s.remotes = none → exec (.remoteResponse tag a) s = .next s) ∧
   (∀ (tag id : Nat) (a : RemoteAns) (s : State) (r : Remote) (o : AmoOp), lookup tag s.remotes = some r →
     r.wait = .amo id → lookup id s.amos = some o → o.d ≠ 0 →
     (∀ bs, a = .data bs →
       ∃ t', exec (.remoteResponse tag a) s = .next t' ∧ lookup tag t'.remotes = none ∧ lookup id t'.amos = none ∧
         lookup s.fresh t'.fills = some ⟨o.who, o.d, amoPut o.ty (ofBytes (bs.map (·.1))), bs.any (·.2), edgeSite r.quad⟩) ∧
     (∀ cause, ansCause a = some cause →
       ∃ t' n home, exec (.remoteResponse tag a) s = .next t' ∧ lookup n t'.fills = some ⟨o.who, o.d, 0, false, home⟩)) ∧
   (∀ (tag id i : Nat) (a : RemoteAns) (s : State) (r : Remote) (c : CopyOp), lookup tag s.remotes = some r →
     r.wait = .copyWrite id i → lookup id s.copies = some c → ansCause a = none →
     (2 ≤ c.pending → exec (.remoteResponse tag a) s = .next { taken s tag r a with
        copies := insertAt id { c with pending := c.pending - 1 } s.copies }) ∧
     (c.pending = 1 → ∃ t', exec (.remoteResponse tag a) s = .next t' ∧ lookup tag t'.remotes = none ∧
       lookup id t'.copies = none ∧ (c.posted = none → ctrNone c.ctr = false →
         lookup s.fresh t'.incs = some ⟨c.who, ctrVt c.ctr, ctrOfs c.ctr, c.amount, c.diverted⟩))) ∧
   (∀ (tag id chunk ofs : Nat) (bs : List (Byte × Bool)) (s : State) (r : Remote) (c : CopyOp) (t : Team),
     lookup tag s.remotes = some r → r.wait = .copyRead id chunk ofs → lookup id s.copies = some c →
     s.team? c.who.team = some t →
     ((taken s tag r (.data bs)).chunkAsked id chunk = true →
       ∃ t' c', exec (.remoteResponse tag (.data bs)) s = .next t' ∧ lookup id t'.copies = some c' ∧
         c'.chunk = c.chunk ∧ t'.mem = s.mem) ∧
     ((taken s tag r (.data bs)).chunkAsked id chunk = false →
       ∃ t' c', exec (.remoteResponse tag (.data bs)) s = .next t' ∧ lookup id t'.copies = some c' ∧
         c'.chunk = c.chunk + 1)) ∧
   (∀ (tag id : Nat) (a : RemoteAns) (s : State) (r : Remote) (o : RedOp), lookup tag s.remotes = some r →
     r.wait = .red [id] → lookup id s.reds = some o → ansCause a = none →
     (2 ≤ o.pending → ∃ t', exec (.remoteResponse tag a) s = .next t' ∧ lookup tag t'.remotes = none ∧
       lookup id t'.reds = some { o with pending := o.pending - 1 }) ∧
     (o.pending = 1 → ∃ t', exec (.remoteResponse tag a) s = .next t' ∧ lookup tag t'.remotes = none ∧
       lookup id t'.reds = none)))

/-- R117 to R120, R126, R135, R137, R139, R301, R305, R311, R314: what the matrix unit does to an accumulator, whose operands
nothing has touched while an MMA or ALD completes (R137). AZERO clears it as
it starts; a k-block adds its rounded block sum to every output; the last block makes the accumulator full; ALD fills it from
the tile store; ASCALE scales a source into it. -/
def Obligations.MatrixSteps : Prop :=
  (∀ (tile : Nat) (s : State) (id lr : Nat) (v : Vtile) (pre post : List MEntry) (e : MEntry),
    s.standing tile = some (id, lr, v) → v.mq = pre ++ e :: post → e.started = false →
    (∀ x ∈ pre, x.finished = true) → v.stopped = none → (s.tile tile).fenced = false →
    (∀ fmt, e.op = .azero fmt → ∃ V, exec (.matrixQueueStart tile) s = .next (s.putVtile id lr V) ∧
      V.mq = pre.map (forgotten e.d) ++ post ∧
      (∀ i j, i < 64 → j < 64 → (V.accs.get e.d).elem i j = 0) ∧ (V.accs.get e.d).full = (v.accs.get e.d).full) ∧
    (∀ f a b, e.op = .mma f a b false → exec (.matrixQueueStart tile) s =
      .next (s.putVtile id lr { v with mq := pre ++ { e with started := true } :: post }))) ∧
  (∀ (tile : Nat) (s : State) (id lr : Nat) (v : Vtile) (pre post : List MEntry) (e : MEntry) (f : MmaM) (a b : Shape)
      (retag : Bool),
    s.standing tile = some (id, lr, v) → v.mq = pre ++ e :: post → e.op = .mma f a b retag → e.started = true →
    e.kdone < shE b 1 → (∀ x ∈ pre, x.finished = true) → v.stopped = none → (s.tile tile).fenced = false → s.poison = [] →
    (mmaDims f a b).1 ≤ 64 → (mmaDims f a b).2.1 ≤ 64 →
    let d := mmaDims f a b
    let all := f.ad && e.kdone == f.kst.toNat * 8 && d.1 == 64 && d.2.1 == 64
    let part {α : Type} (l : List α) : List α := (l.drop e.kdone).take (blockSize f.fmt)
    ∃ V, exec (.mmaKBlock tile) s = .next (s.putVtile id lr V) ∧
      V.mq = (if all then pre.map (forgotten e.d) else pre) ++
        { e with kdone := min d.2.2 (e.kdone + blockSize f.fmt) } :: post ∧
      ∀ i j, i < d.1 → j < d.2.1 → (V.accs.get e.d).elem i j =
        blockOut f (v.cbs.toList.getD e.bufA 0) (v.cbs.toList.getD (2 + e.bufB) 0) (f.ad && e.kdone == f.kst.toNat * 8)
          ((v.accs.get e.d).elem i j) (readElems s.mem (storeKey tile 0) a (part (rowIdx f a d.2.2 i)))
          (readElems s.mem (storeKey tile 0) b (part (colIdx b d.2.2 j))) % 2 ^ 32) ∧
  (∀ (tile : Nat) (s : State) (id lr : Nat) (v : Vtile) (e : MEntry) (post : List MEntry) (f : MmaM) (a b : Shape)
      (retag : Bool),
    s.standing tile = some (id, lr, v) → v.mq = e :: post → e.op = .mma f a b retag → e.started = true → shE b 1 ≤ e.kdone →
    (s.tile tile).fenced = false → e.touched = [] →
    ∃ t' V, exec (.mmaComplete tile) s = .next t' ∧ t'.vtile? id lr = some V ∧ V.mq = post ∧
      (V.accs.get e.d).rows = (v.accs.get e.d).rows ∧ ((V.accs.get e.d).full = true ↔ ∀ x ∈ post, x.isMma e.d = false)) ∧
  (∀ (tile : Nat) (s : State) (id lr : Nat) (v : Vtile) (e : MEntry) (post : List MEntry) (m : Shape),
    s.standing tile = some (id, lr, v) → v.mq = e :: post → e.op = .ald .f32 m → e.started = true → s.poison = [] →
    (s.tile tile).fenced = false → shFormat m = .f32 → e.touched = [] →
    ∃ V, exec (.aldComplete tile) s = .next (s.putVtile id lr V) ∧ V.mq = post ∧ (V.accs.get e.d).full = true ∧
      ∀ i j, i < 64 → j < 64 → (V.accs.get e.d).elem i j =
        if i < shE m 1 ∧ j < shE m 0 then readElem s.mem (storeKey tile 0) m (shIndex2 m j i) else 0) ∧
  (∀ (tile : Nat) (s : State) (id lr : Nat) (v : Vtile) (e : MEntry) (post : List MEntry) (fmt : Fmt) (x : ANum) (sr sc : VReg),
    s.standing tile = some (id, lr, v) → v.mq = e :: post → e.op = .ascale fmt x sr sc → e.started = true →
    (s.tile tile).fenced = false →
    ∃ t' V, exec (.ascaleComplete tile) s = .next t' ∧ t'.vtile? id lr = some V ∧ V.mq = post ∧
      ∀ i j, i < 64 → j < 64 → (V.accs.get e.d).elem i j =
        scaleElem (fmt == Fmt.rns) ((v.accs.get x).elem i j) (lane 32 sr i) (lane 32 sc j) ((v.accs.get e.d).elem i j) % 2 ^ 32)

/-- R154 to R157, R201: a doorbell puts its queue on the list of rung queues unless its ring is empty, and in team mode only a
queue of the team's own ASID; the first rung queue of the highest priority takes a free slot, the lowest of them (log 36, DESIGN
CHOICE); its descriptor then makes it IDLE or READY, or frees the slot again, whatever the reserved bytes of the ring's header hold
(log 37, DESIGN CHOICE); and a quantum that has run is marked. While CXL
link 0 is UP the host reads and writes HBM bytes and rings through offset 0 of the aperture, whose other offsets take no write
and which reads as zero. -/
def Obligations.QueueSteps : Prop :=
  let rung (s : State) (q : Nat) : State :=
    if descOk (desc s q) = true ∧ widx s (desc s q) = ridx s (desc s q) then s
    else { s with pending := s.pending ++ [⟨q, descPrio (desc s q)⟩] }
  (∀ (team : Nat) (v : Word) (s : State) (t : Team), s.team? team = some t →
    let q := field v.toNat 0 16
    q < s.qdlen → (∀ x ∈ s.qslots, x.2.queue ≠ q) → (∀ p ∈ s.pending, p.queue ≠ q) →
    ((t.asid = 0 ∨ descOk (desc s q) = true ∧ descAsid (desc s q) = t.asid) →
      exec (.qdoor team v) s = .next (rung s q)) ∧
    (t.asid ≠ 0 → descAsid (desc s q) ≠ t.asid → exec (.qdoor team v) s = .next s)) ∧
  ((∀ (v : BitVec 32) (s : State), hostLink s = true →
     let q := field v.toNat 0 16
     q < s.qdlen → (∀ x ∈ s.qslots, x.2.queue ≠ q) → (∀ p ∈ s.pending, p.queue ≠ q) →
     exec (.hostDoorbellWrite 0 (some v)) s = .next (rung s q)) ∧
   (∀ (ofs : Nat) (v : BitVec 32) (s : State), ofs ≠ 0 → exec (.hostDoorbellWrite ofs (some v)) s = .next s) ∧
   (∀ (ofs : Nat) (s : State), hostLink s = true →
     exec (.hostDoorbellWrite ofs none) s = .next (s.send (.hostData (List.replicate 4 0)))) ∧
   (∀ (ofs addr n : Nat) (v : Option (BitVec 32)) (d : Option (List Byte)) (s : State), hostLink s = false →
     exec (.hostDoorbellWrite ofs v) s = .next s ∧ exec (.hostHbmAccess addr n d) s = .next s)) ∧
  (∀ (addr n : Nat) (s : State), hostLink s = true → State.hbmHas addr n = true →
    exec (.hostHbmAccess addr n none) s = .next (s.send (.hostData (s.mem.read (hbmKey addr) n)))) ∧
  (∀ (addr n : Nat) (bs : List Byte) (s : State), s.ok → hostLink s = true → State.hbmHas addr bs.length = true →
    ∃ z : State, exec (.hostHbmAccess addr n (some bs)) s = .next (z.spoilDone s.doneCopies (interval (hbmKey addr) bs.length)) ∧
      z.mem.read (hbmKey addr) bs.length = bs ∧
      (∀ a, a < hbmKey addr ∨ hbmKey addr + bs.length ≤ a → z.mem.byte a = s.mem.byte a) ∧
      { z with mem := s.mem, poison := s.poison, live := s.live, copies := s.copies, graphs := s.graphs, runs := s.runs } = s) ∧
  (∀ (s : State) (pre post : List Pending) (p : Pending) (i : Nat), s.pending = pre ++ p :: post →
    (∀ x ∈ pre, x.prio < p.prio) → (∀ x ∈ post, x.prio ≤ p.prio) → i < 128 → lookup i s.qslots = none →
    (∀ j, j < i → (lookup j s.qslots).isSome) →
    exec .queueSlotMap s = .next { s with
      pending := s.pending.filter (· != p), qslots := insertAt i ⟨.load, p.queue, p.prio, s.now, s.now, false⟩ s.qslots }) ∧
  (∀ (slot : Nat) (s : State) (x : QSlot), lookup slot s.qslots = some x → x.st = .load →
    let d := desc s x.queue
    (descOk d = true →
      exec (.descriptorLoad slot) s = .next { s with qslots := insertAt slot { x with
        st := if widx s d = ridx s d then .idle else .ready, prio := descPrio d, idleSince := s.now } s.qslots }) ∧
    (descOk d = false → exec (.descriptorLoad slot) s = .next { s with qslots := eraseAt slot s.qslots })) ∧
  (∀ (slot : Nat) (s : State) (x : QSlot), lookup slot s.qslots = some x → x.st ≠ .load →
    (x.mapped + 1000 * descQuant (desc s x.queue) ≤ s.now →
      exec (.quantumExpiry slot) s = .next { s with qslots := insertAt slot { x with expired := true } s.qslots }) ∧
    (s.now < x.mapped + 1000 * descQuant (desc s x.queue) → exec (.quantumExpiry slot) s = .next s))

/-- R153, R157 to R161, R55: a packet that passes its checks and finds tiles starts its team there, with its first record in
its queue; one that finds no tiles waits; tiles that fall free go to the packet that waits. A gang member with its tiles
starts at TICK when it has heard every other member; it quits on an ABORT or when its deadline passes, and what comes after TICK
is not heeded. A team whose work is over is released. The model's choices here: which READY slot is served first at a PRIO that none
has been served at (log 36, DESIGN CHOICE), and which of the tiles that keep R16 a packet takes, the lowest die, group and tile
first (log 14, DESIGN CHOICE). -/
def Obligations.LaunchSteps : Prop :=
  let started (t' : State) (packet : BitVec 1024) (tiles : List Nat) (start : Nat) : Prop :=
    ∃ T e, t'.team? (field packet.toNat 16 16) = some T ∧ T.packet = packet ∧ T.start = start ∧ T.parked = [] ∧
      T.queued = [e] ∧ e.seq = 1 ∧ recCode e.record = field packet.toNat 512 64 ∧
      ∀ (lr p : Nat), tiles[lr]? = some p → lr < 1024 →
        ∃ v, t'.vtile? (field packet.toNat 16 16) lr = some v ∧ v.res = true ∧ v.ptile = p ∧ v.div = .resident ∧ v.saves = [] ∧
          v.mq = [] ∧ ∀ (a : ANum) (i j : Nat), i < 64 → j < 64 →
            (v.accs.get a).elem i j = 0 ∧ (v.accs.get a).full = true ∧ (v.accs.get a).rns = false
  let quits (s t' : State) (l : Launch) : Prop :=
    t'.launches = s.launches.filter (· != l) ∧ t'.teams = s.teams ∧ lookup l.gang t'.gangs = none ∧
      ∀ p ∈ l.tiles.getD [], (t'.tile p).reserved = false
  (∀ (s : State) (slot : Nat) (x : QSlot) (tiles : List Nat), nextReady s = some (slot, x) → s.ok →
    let d := desc s x.queue
    let i := ridx s d
    let packet : BitVec 1024 := BitVec.ofNat 1024 (s.mem.num (hbmKey (descBase d + 128 + 128 * (i % descSize d))) 128)
    let t := newTeam packet 0 x.queue 0 0 [] []
    let s1 := { s.commit (hbmKey (descBase d + 8)) (bytesOf 8 (i + 1)) with
      served := insertAt x.prio slot s.served, qslots := insertAt slot { x with st := .active } s.qslots }
    descOk d = true → packetStatus s1 t d = 0 → (layout t (tileThere s)).isSome → field packet.toNat 60 4 = 0 →
    (∀ l ∈ s.launches, l.tiles = none → l.prio < x.prio) →
    (tilesNow s1 t = some tiles → ∃ t', exec .launchPacket s = .next t' ∧ started t' packet tiles s.now) ∧
    (tilesNow s1 t = none → ∃ t', exec .launchPacket s = .next t' ∧ t'.teams = s.teams ∧
      t'.launches = s.launches ++ [⟨slot, x.queue, packet, x.prio, none, 0⟩] ∧
      lookup slot t'.qslots = some { x with st := .wait } ∧
      t'.mem.num (hbmKey (descBase d + 8)) 8 = (i + 1) % 2 ^ 64)) ∧
  (∀ (s : State) (l : Launch) (tiles : List Nat) (e : HEntry), nextWaiting s = some l → l.isGang = false →
    let t := newTeam l.packet (min (field l.packet.toNat 55 5) l.prio) l.queue s.now 0 tiles []
    tilesNow s (newTeam l.packet 0 0 0 0 [] []) = some tiles → s.entryNow t (field l.packet.toNat 192 32) = some e →
    ∃ t', exec .tileGrant s = .next t' ∧ t'.launches = s.launches.filter (· != l) ∧ started t' l.packet tiles s.now) ∧
  (∀ (slot : Nat) (s : State) (l : Launch), s.launches.find? (fun l => l.slot == slot && l.tiles.isNone && l.isGang) = some l →
    l.gang ≠ 0 → l.tick < s.now + 10000 → ∃ t', exec (.gangDeadline slot) s = .next t' ∧ quits s t' l) ∧
  (∀ (gang pkg : Nat) (uid : Word) (s : State), tickGone s gang = true →
    exec (.gangReady gang pkg uid) s = .next s ∧ exec (.gangAbort gang) s = .next s) ∧
  (∀ (gang pkg : Nat) (uid : Word) (s : State), tickGone s gang = false →
    ∃ t', exec (.gangReady gang pkg uid) s = .next t' ∧ lookup pkg (gangOf t' gang).heard = some uid ∧
      (∀ p, p ≠ pkg → lookup p (gangOf t' gang).heard = lookup p (gangOf s gang).heard) ∧ { t' with gangs := s.gangs } = s) ∧
  (∀ (gang : Nat) (s : State) (l : Launch), s.launches.find? (fun l => l.isGang && l.gang == gang) = some l → gang ≠ 0 →
    s.now < l.tick → ∃ t', exec (.gangAbort gang) s = .next t' ∧ quits s t' l) ∧
  (∀ (gang : Nat) (s : State) (l : Launch) (tiles : List Nat) (e : HEntry),
    s.launches.find? (fun l => l.isGang && l.gang == gang && l.tiles.isSome) = some l → l.tiles = some tiles → l.tick ≤ s.now →
    let t := newTeam l.packet (min (field l.packet.toNat 55 5) l.prio) l.queue l.tick 0 tiles (gangOf s gang).heard
    (∀ p, p < t.nP → p ≠ t.pc → (lookup p (gangOf s gang).heard).isSome) → (gangOf s gang).aborted = false →
    s.entryNow t (field l.packet.toNat 192 32) = some e →
    ∃ t', exec (.gangTick gang) s = .next t' ∧ started t' l.packet tiles l.tick) ∧
  (∀ (id : Nat) (s : State) (t : Team), s.team? id = some t → teamIdle s id t = true →
    ∃ t', exec (.teamCompletion id) s = .next t' ∧ t'.team? id = none ∧ (∀ lr, lr < 1024 → t'.vtile? id lr = none) ∧
      (∀ x, ((t'.tile x).owner.map (·.1)) ≠ some id) ∧
      (∀ j, j ≠ id → t'.team? j = s.team? j))

/-- R179 to R182, R185, R190: an order of VACATE stops the vtiles of highest local rank, those that a rotation has stopped among
them, gives vtiles that are SAVING or DIVERTING, of lowest local rank, free tiles of their groups, or the tile that a rotation has named for
them, or turns rotation on and off.
The cut saves every strand with its registers (R52) and parks the vtile (CUT). Saving writes the tile store, the accumulators and
the control block into the image (R183, R184), with what the log holds replayed into it (R186, R188): landings store their bytes,
increments add, fills reach the saved strand; it ends in DIVERTING with the tile free. A restore takes its tile and FSTAT from
the image; it loads the image, returns the strands to the slots of the strand map, replays the log, and brings the vtile back to
RESIDENT. PTILE of a vtile that is being restored names its new tile, in the team map too (log 37, DESIGN CHOICE). Each ends when
all that it moves has come through the links between dies (R210, R238; logs 13 and 25). A rotation pairs a vtile that waits with a
parked one. -/
def Obligations.DiversionSteps : Prop :=
  let cells (rs : List LogRec) : List (Nat × Byte × Byte) := rs.flatMap fun r => match r with
    | .land l => match l.what with
      | .bytes cs => cs
      | _ => []
    | _ => []
  let masked (ws : List (Nat × Byte × Byte)) (a : Nat) (x : Byte) : Byte :=
    ws.foldl (fun b w => if w.1 = a then (b &&& ~~~w.2.1) ||| (w.2.2 &&& w.2.1) else b) x
  let plain (s : State) (v : Vtile) : Prop :=
    (∀ r ∈ v.logged, ∃ l cs, r = .land l ∧ l.what = .bytes cs ∧ ∀ c ∈ cs, c.1 < 0x80000) ∧
    (v.logged ≠ [] → s.copies = [] ∧ s.doneCopies = [] ∧ v.mq = [] ∧ v.past = [])
  let apart (s : State) (t : Team) (v : Vtile) (lr : Nat) : Prop :=
    s.ok ∧ State.hbmHas (t.img lr) t.saveSize = true ∧
      State.overlap (t.img lr) t.saveSize (s.dtbase.toNat + 32 * v.divIdx) 32 = false
  (∀ (v : Word) (s : State) (t : Team), s.team? (field v.toNat 32 16) = some t → bit s.vacateReg.toNat 63 = false →
    bit v.toNat 63 = true →
    let id := field v.toNat 32 16
    let may := (List.range t.size).filter fun lr => match s.vtile? id lr with
      | some x => !x.lost && (x.div == .resident || x.div == .restoring)
          && (!bit v.toNat 22 || x.ptile / 16 == field v.toNat 16 6)
      | none => false
    let taken := may.reverse.take (field v.toNat 0 11)
    (field v.toNat 61 2 = 0 →
      ∃ t', exec (.vacate v) s = .next t' ∧ t'.strands = s.strands ∧ t'.mem = s.mem ∧
        (bit t'.vacateReg.toNat 63 = true ↔ taken ≠ []) ∧
        ∀ lr x, lr < t.size → s.vtile? id lr = some x →
          ∃ y, t'.vtile? id lr = some y ∧ (lr ∈ taken → y.stopped.isSome) ∧ (lr ∉ taken → y = x)) ∧
    (field v.toNat 61 2 = 2 → exec (.enableRotation v) s = .next { s.putTeam id { t with rotation := true } with
      vacateReg := 0, orderReqs := (s.fresh, s.fresh) }) ∧
    (field v.toNat 61 2 = 3 → exec (.disableRotation v) s = .next { s.putTeam id { t with rotation := false } with
      vacateReg := 0, orderReqs := (s.fresh, s.fresh) })) ∧
  (∀ (v : Word) (s : State) (t : Team) (x : Vtile) (lr i : Nat) (rest : List Nat),
    let id := field v.toNat 32 16
    s.team? id = some t → bit s.vacateReg.toNat 63 = false → bit v.toNat 63 = true → field v.toNat 61 2 = 1 →
    orderable s t id v (fun x => x.div == .saving || x.div == .diverting) = lr :: rest →
    s.vtile? id lr = some x → (x.restoreTo.map (·.1) = some i ∨ (x.restoreTo = none ∧ freeTileIn s (x.ptile / 16) = some i)) →
    field v.toNat 0 11 ≠ 0 →
    ∃ t' y, exec (.restore v) s = .next t' ∧ t'.vtile? id lr = some y ∧ y = { x with restoreTo := some (i, s.fresh) } ∧
      (t'.tile i).reserved = true ∧ (t'.tile i).owner = (s.tile i).owner) ∧
  (∀ (id lr : Nat) (s : State) (t : Team) (v : Vtile) (n g : Nat), s.team? id = some t → t.teamid = id →
    s.vtile? id lr = some v → v.stopped = some n → freeLog s = some g → cutDue s v = true → firstWaiter s n = true →
    (∀ i k, i < 8 → s.strandAt v.ptile i = some k → k.team = id ∧ k.lrank = lr) → apart s t v lr → 8 ≤ t.nsave →
    ∃ t' V, exec (.vacateCut id lr) s = .next t' ∧ t'.vtile? id lr = some V ∧ V.res = false ∧ V.div = .cut ∧
      V.log = some g ∧ V.recs = [] ∧ V.cutT = s.now ∧ (∀ i, i < 9 → t'.strandAt v.ptile i = none) ∧
      (∀ i k, i < 8 → s.strandAt v.ptile i = some k → ∃ x, lookup i V.saves = some x ∧ x.uid = k.uid ∧ x.why = .vacate ∧
        x.held = k.held ∧ x.prio = k.prio ∧ SameStrand k (strandOf t'.mem (hbmKey (t.slotAddr lr i)) id lr x)) ∧
      V.accs = v.accs ∧ V.mq = v.mq) ∧
  (∀ (id lr : Nat) (s : State) (t : Team) (v : Vtile), s.team? id = some t → t.teamid = id → s.vtile? id lr = some v →
    v.div = .saving → apart s t v lr → v.res = false → v.mq.length ≤ 16 →
    let c := s.crossAll 3 (moving s t id lr v)
    (c.1 = false → exec (.saveComplete id lr .done) s = .next c.2) ∧
    (c.1 = true →
    let a := hbmKey (t.img lr)
    let ends (t' : State) : Prop :=
      exec (.saveComplete id lr .done) s = .next t' ∧ (t'.tile v.ptile).owner = none ∧ t'.strands = s.strands ∧
        ∃ V, t'.vtile? id lr = some V ∧ V.div = .diverting ∧ V.log = none ∧ V.stopped = none ∧ V.recs = [] ∧ V.owed = []
    (plain s v →
      ∃ t' V, ends t' ∧ t'.vtile? id lr = some V ∧ V.accs = v.accs ∧ V.mq = v.mq ∧
        (∀ o, o < 0x80000 → t'.mem.byte (a + o) = masked (cells v.logged) o (s.mem.byte (storeKey v.ptile o))) ∧
        (∀ (n : Fin 8) (i : Fin 64), t'.mem.num (a + 524288 + 16384 * n.val + 256 * i.val) 256 =
          ((v.accs.get n).rows.get i).toNat) ∧
        (∀ n : Fin 8, (t'.mem.num (a + 655360) 8).testBit n.val = (v.accs.get n).rns ∧
          (t'.mem.num (a + 655360) 8).testBit (8 + n.val) = (v.accs.get n).full) ∧
        t'.mem.num (a + 655368) 8 = v.fstat.toNat ∧
        (∀ n : Fin 4, t'.mem.num (a + 655376 + 16 * n.val) 16 = (v.cbs.get n).toNat) ∧
        ∀ i, i < 8 → t'.mem.num (a + 655504 + 8 * i) 8 = match lookup i v.saves with
          | some x => if x.why = .vacate then i + 256 * x.held.nat else 0xFF
          | none => 0xFF) ∧
    (∀ i : Increment, v.logged = [.counter i] → s.copies = [] → s.doneCopies = [] → v.mq = [] → v.past = [] →
      i.ofs + 8 ≤ 0x80000 → s.mem.num (storeKey v.ptile i.ofs) 8 + i.amount.toNat < 2 ^ 64 →
      ∃ t', ends t' ∧ t'.mem.num (a + i.ofs) 8 = s.mem.num (storeKey v.ptile i.ofs) 8 + i.amount.toNat) ∧
    (∀ n r x psn y, v.logged = [.fill n r x psn] → r ≠ 0 → n < t.nsave → lookup n v.saves = some y →
      let k := strandOf s.mem (hbmKey (t.slotAddr lr n)) id lr y
      ∃ t', ends t' ∧
        let K := strandOf t'.mem (hbmKey (t.slotAddr lr n)) id lr y
        K.rd r = x ∧ K.full r = true ∧ ∀ q, q ≠ r → K.rd q = k.rd q ∧ K.full q = k.full q))) ∧
  (∀ (id lr : Nat) (s : State) (t : Team) (v : Vtile) (i n g : Nat), s.team? id = some t → s.vtile? id lr = some v →
    v.restoreTo = some (i, n) → freeLog s = some g → v.div = .diverting → tileTakes (s.tile i) = true →
    firstWaiter s n = true →
    ∃ t' V, exec (.restoreStart id lr) s = .next t' ∧ t'.vtile? id lr = some V ∧ V.div = .restoring ∧ V.ptile = i ∧
      V.fstat = BitVec.ofNat 64 (s.hbm (t.img lr + 655368) 8) ∧
      V.log = some g ∧ V.recs = [] ∧ (t'.tile i).owner = some (id, lr) ∧ (t'.tile i).reserved = false ∧
      t'.strands = s.strands) ∧
  (∀ (id lr : Nat) (s : State) (t : Team) (v : Vtile), s.team? id = some t → t.teamid = id → s.vtile? id lr = some v →
    v.div = .restoring → apart s t v lr → (s.tile v.ptile).dbg = .running → (v.saves.map (·.1)).Nodup →
    (∀ i, i < 8 → s.strandAt v.ptile i = none) →
    let c := s.crossAll 3 (moving s t id lr v)
    (c.1 = false → exec (.restoreComplete id lr .done) s = .next c.2) ∧
    (c.1 = true →
    let a := hbmKey (t.img lr)
    let map (i : Nat) : Nat := s.mem.num (a + 655504 + 8 * i) 8
    let saved (i : Nat) (x : SaveInfo) : Prop := lookup (field (map i) 0 8) v.saves = some x ∧ x.why = .vacate
    let ends (t' : State) : Prop :=
      exec (.restoreComplete id lr .done) s = .next t' ∧
        ∃ V, t'.vtile? id lr = some V ∧ V.res = true ∧ V.div = .resident ∧ V.log = none ∧ V.restoreTo = none ∧ V.ptile = v.ptile ∧
          V.recs = [] ∧ V.owed = [] ∧ ∀ c ∈ V.saves, c.2.why ≠ .vacate
    (plain s v →
      ∃ t' V, ends t' ∧ t'.vtile? id lr = some V ∧
        (∀ o, o < 0x80000 → t'.mem.byte (storeKey v.ptile o) = masked (cells v.logged) o (s.mem.byte (a + o))) ∧
        (∀ (n : Fin 8) (i : Fin 64), ((V.accs.get n).rows.get i).toNat =
          s.mem.num (a + 524288 + 16384 * n.val + 256 * i.val) 256) ∧
        (∀ n : Fin 8, (V.accs.get n).rns = (s.mem.num (a + 655360) 8).testBit n.val ∧
          (V.accs.get n).full = (s.mem.num (a + 655360) 8).testBit (8 + n.val)) ∧
        (∀ n : Fin 4, (V.cbs.get n).toNat = s.mem.num (a + 655376 + 16 * n.val) 16) ∧
        (∀ i x, i < 8 → saved i x → ∃ K, t'.strandAt v.ptile i = some K ∧ K.uid = x.uid ∧ K.prio = x.prio ∧
          K.held = (map i).testBit 8 ∧ K.wait = x.wait.reloaded ∧
          SameStrand (strandOf s.mem (hbmKey (t.slotAddr lr (field (map i) 0 8))) id lr x) K) ∧
        ∀ i, i < 8 → (∀ x, ¬saved i x) → t'.strandAt v.ptile i = none) ∧
    (∀ n r w psn x, v.logged = [.fill n r w psn] → r ≠ 0 → n < 8 → saved n x →
      ∃ t' K, ends t' ∧ t'.strandAt v.ptile n = some K ∧ K.rd r = w ∧ K.full r = true))) ∧
  (∀ (id : Nat) (l : Scope) (u : Nat) (s : State) (t : Team) (a b : Nat) (x y : Vtile), s.team? id = some t →
    t.rotation = true → l ≠ .tile → rotationPair s t id l u = some (a, b) → s.vtile? id a = some x → s.vtile? id b = some y →
    ∃ t', exec (.rotation id l u) s = .next t' ∧ t'.vtile? id a = some { x with stopped := some s.fresh } ∧
      t'.vtile? id b = some { y with restoreTo := some (x.ptile, s.fresh + 1) } ∧ (t'.tile x.ptile).reserved = true ∧
      t'.strands = s.strands ∧ t'.mem = s.mem)

/-- R67, R177, R178, R195, R260: an uncorrectable error of a tile, or its silence, fences it and loses its vtile; one of
a group fences its tiles, until a reset returns them, and loses every vtile in it. That it loses a parked vtile too, whose last
tile is in the group, is the model's reading (log 25, DEDUCED). An error of a memory is counted, and poisons its granule
when it is uncorrectable. A quiesce starts, ends when nothing of its colour is in flight in its partition, or fails after 10 ms,
and is released. That HTINV and HTINV ALL change nothing is the model's reading of R64 (log 8, DEDUCED): its checks always use the
entry as it stands. -/
def Obligations.ContainmentSteps : Prop :=
  (∀ (tile : Nat) (s : State) (id lr : Nat) (t : Team) (v : Vtile) (i : Instr),
    i = .uncorrectableTileError tile ∨ i = .tileResponseTimeout tile → (s.tile tile).owner = some (id, lr) →
    s.team? id = some t → s.vtile? id lr = some v → v.lost = false → v.ptile = tile → v.res = true →
    ∃ t' V, exec i s = .next t' ∧ (t'.tile tile).fenced = true ∧ (t'.tile tile).owner = none ∧ t'.vtile? id lr = some V ∧
      V.lost = true ∧ V.res = false ∧ V.saves = [] ∧ V.mq = [] ∧ V.div = .free ∧
      ∀ j k, j < 9 → t'.strandAt tile j = some k → k.team ≠ id ∨ k.lrank ≠ lr) ∧
  (∀ (tile : Nat) (s : State) (i : Instr), i = .uncorrectableTileError tile ∨ i = .tileResponseTimeout tile →
    (s.tile tile).owner = none → (∀ l ∈ s.launches, tile ∉ l.tiles.getD []) →
    (∀ v ∈ s.vtiles, v.2.restoreTo.map (·.1) ≠ some tile) →
    exec i s = .next (State.settleOrder (s.onTile tile fun x => { x with fenced := true }))) ∧
  (∀ (grp : Nat) (s : State),
    ∃ t', exec (.uncorrectableGroupError grp) s = .next t' ∧ grp ∈ t'.fencedGroups ∧
      (∀ x, x / 16 = grp → (t'.tile x).fenced = true) ∧
      ∀ id lr v t, s.team? id = some t → s.vtile? id lr = some v → lr < 1024 → v.ptile / 16 = grp →
        ∃ V, t'.vtile? id lr = some V ∧ V.lost = true) ∧
  (∀ (grp : Nat) (s : State),
    ∃ t', exec (.groupReset grp) s = .next t' ∧ grp ∉ t'.fencedGroups ∧ ∀ x, x / 16 = grp → t'.tile x = Tile.initial) ∧
  (∀ (key : Nat) (s : State), ((s.errc.get (errIndex key)).toNat < 2 ^ 64 - 1 →
      exec (.memoryUncorrectableError key .corrected) s =
        .next { s with errc := s.errc.set (errIndex key) (s.errc.get (errIndex key) + 1) }) ∧
    ∃ t', exec (.memoryUncorrectableError key .uncorrectable) s = .next t' ∧ t'.anyPoison key 1 = true ∧ t'.mem = s.mem ∧
      (∀ g, g ≠ granule key → t'.poisoned g = s.poisoned g) ∧
      (∀ id lr v, s.vtile? id lr = some v → ∃ c, t'.vtile? id lr = some { v with cover := c } ∧ ∀ x ∈ c, x ∈ v.cover) ∧
      { t' with poison := s.poison, errc := s.errc, vtiles := s.vtiles } = s) ∧
  (∀ (asid slot : Nat) (s : State), exec (.htinv asid slot) s = .next s ∧ exec (.htinvAll asid) s = .next s) ∧
  (∀ (v : Word) (s : State), bit s.quiesce.toNat 63 = false → bit v.toNat 63 = true →
    exec (.quiesceStart v) s = .next { s with
      quiesce := BitVec.ofNat 64 (2 ^ 63 + 2 ^ 61 + field v.toNat 8 5 * 2 ^ 8 + field v.toNat 0 6)
      quiesceSince := s.now }) ∧
  (∀ s : State, s.quiesce.getLsbD 63 = true →
    (inFlight s = false → ∃ q, exec .quiesceDrainComplete s = .next { s with quiesce := q } ∧
      ∀ i, q.getLsbD i = (decide (i ≠ 63) && s.quiesce.getLsbD i)) ∧
    (inFlight s = true → exec .quiesceDrainComplete s = .next s) ∧
    (s.quiesceSince + 10000000 ≤ s.now →
      ∃ q, exec .quiesceTimeout s = .next { s with quiesce := q, lycelLog := s.lycelLog ++ [0x82] } ∧
        ∀ i, q.getLsbD i = (decide (i = 62) || decide (i ≠ 63) && s.quiesce.getLsbD i)) ∧
    (s.now < s.quiesceSince + 10000000 → exec .quiesceTimeout s = .next s) ∧ exec .quiesceRelease s = .next s) ∧
  (∀ s : State, s.quiesce.getLsbD 63 = false → ∃ q, exec .quiesceRelease s = .next { s with quiesce := q } ∧
    ∀ i, q.getLsbD i = (decide (i ≠ 61) && s.quiesce.getLsbD i))

/-- R196, R202, R203: a write to QCTL withdraws its quad from every mask and quiesces it, or gives a quad that is not UP its new
personality at once, one that trains among them (log 36, DESIGN CHOICE); a write while an order runs is refused, also behind a
refused one whose BUSY reads 0 (log 36, DESIGN CHOICE). A drain that ends, or times out after DTO, hands the quads of its order to
their new personality; an order to UNUSED has ended then. R197, R204 to R206, R208: training leads to the agreement and MAP to UP,
which ends the order; a failed attempt trains again, and the third one leaves the quad DOWN with FAIL set; a quad retrains when it
has lost a lane or its errors pass the limit of the configuration image. How the two views are compared (mirrored lanes, the lower
rate, which lanes are used) is the model's reading (log 26, DEDUCED); that the reserved bits of the peer's record are not looked
at is its choice (log 37, DESIGN CHOICE). -/
def Obligations.LinkSteps : Prop :=
  let one (s : State) (q : Nat) : Prop := (s.quad q).pers ≠ 3
  (∀ (v : Word) (s : State), bit v.toNat 63 = true → s.qorder = none →
    let q := field v.toNat 0 6
    let newp := field v.toNat 16 2
    let dto := if field v.toNat 32 8 = 0 then 100 else field v.toNat 32 8
    one s q → newp ≠ 3 → mapOk (fun i => if i = q then newp else (s.quad i).pers) = true →
    ((s.quad q).st = .up → ∃ t, exec (.personalitySwitch v) s = .next t ∧ (t.quad q).st = .quiesce ∧ qctlBusy t = true ∧
      t.qorder = some ⟨q, [q], newp, 1000 * dto, s.now⟩ ∧ (∀ i, i ≠ q → t.quad i = s.quad i) ∧
      (∀ acc m, lookup acc t.routes = some m → m.getLsbD q = false) ∧ t.strands = s.strands ∧ t.mem = s.mem) ∧
    ((s.quad q).st ≠ .up → ∃ t, exec (.personalitySwitch v) s = .next t ∧ (t.quad q).pers = newp ∧
      ((t.quad q).st = if newp = 0 then .down else .reconfigure) ∧ (newp = 0 → t.qorder = none ∧ qctlBusy t = false))) ∧
  (∀ (v : Word) (s : State), bit v.toNat 63 = true → s.qorder.isSome →
    ∃ c : Word, exec (.personalitySwitch v) s = .next { s with qctl := c } ∧ c.getLsbD 62 = true ∧ c.getLsbD 63 = false) ∧
  (∀ (q : Nat) (s : State) (i : Instr) (o : QOrder), i = .drainComplete q ∨ i = .drainTimeout q → s.qorder = some o →
    q ∈ o.quads → (s.quad q).st = .drain → (i = .drainComplete q → linkBusy s o.quads = false) →
    (i = .drainTimeout q → o.since + o.dto ≤ s.now) →
    ∃ t, exec i s = .next t ∧ ∀ j ∈ o.quads, (t.quad j).pers = o.newp ∧
      ((t.quad j).st = if o.newp = 0 then .down else .reconfigure) ∧ (o.newp = 0 → t.qorder = none)) ∧
  (∀ (q : Nat) (s : State) (o : QOrder), s.qorder = some o → s.now < o.since + o.dto →
    exec (.drainTimeout q) s = .next s) ∧
  (∀ (q : Nat) (s : State), one s q → (s.quad q).st = .reconfigure →
    exec (.reconfigureDone q) s = .next (s.putQuad q { s.quad q with st := .train })) ∧
  (∀ (q : Nat) (ok : Bool) (good : BitVec 8) (rate : BitVec 4) (s : State), one s q → (s.quad q).st = .train →
    let offer := min (s.quad q).offer rate.toNat
    let y := { s.quad q with st := .agree, good := (s.quad q).good &&& good, offer }
    let able := ok && rateOk (s.quad q).pers offer
    (able = true →
      exec (.trainingDone q ok good rate) s = .next ((s.putQuad q y).send (.agreement q (ownRecord s y)))) ∧
    (able = false → (s.quad q).att + 1 < 3 → exec (.trainingDone q ok good rate) s =
      .next (s.putQuad q { s.quad q with att := (s.quad q).att + 1, st := .train })) ∧
    (able = false → 3 ≤ (s.quad q).att + 1 → (∀ o, s.qorder = some o → o.newp ≠ 0) → ∃ t, exec (.trainingDone q ok good rate) s = .next t ∧
      (t.quad q).st = .down ∧ t.lycelLog.contains (0x100 + q) = true ∧ t.qctl.getLsbD 62 = true)) ∧
  (∀ (q : Nat) (r : BitVec 128) (s : State), one s q → (s.quad q).st = .agree →
    let x := s.quad q
    let n := r.toNat
    let solsor := n.testBit 19
    let both := solsor && x.pers == 1
    (∀ tx rx, field n 40 2 = x.pers → field n 52 12 = s.image.cfgGen.toNat →
      mirrored (BitVec.ofNat 8 (field n 28 8)) = x.good → x.good &&& (0x0F ||| mirrored (BitVec.ofNat 8 (field n 20 8))) = x.good →
      field n 36 4 = x.offer → rateOk x.pers x.offer = true → (x.offer = 4 → both = true) →
      agreed x.good both (decide (packageUid.toNat < field n 64 64)) solsor = some (tx, rx) →
      ∃ t, exec (.agreementRecord q r) s = .next t ∧ (t.quad q).st = .map ∧ (t.quad q).txuse = tx ∧ (t.quad q).rxuse = rx ∧
        (t.quad q).rate = x.offer ∧ (t.quad q).peer = BitVec.ofNat 64 (field n 64 64) ∧
        (t.quad q).peerAcc = BitVec.ofNat 10 (field n 42 10) ∧ { t with quads := s.quads } = s) ∧
    (field n 40 2 ≠ x.pers ∨ field n 52 12 ≠ s.image.cfgGen.toNat → x.att + 1 < 3 → exec (.agreementRecord q r) s =
      .next (s.putQuad q { x with att := x.att + 1, st := .train }))) ∧
  (∀ (q acc : Nat) (m : BitVec 64) (s : State), one s q → (s.quad q).st = .map → acc < 1024 →
    ∃ t, exec (.mapDone q [.route acc m]) s = .next t ∧ (t.quad q).st = .up ∧ (t.quad q).att = 0 ∧
      lookup acc t.routes = some (m &&& ualinkMask s) ∧ (∀ a, a ≠ acc → lookup a t.routes = lookup a s.routes) ∧
      (∀ o, s.qorder = some o → o.quads = [q] → t.qorder = none ∧ qctlBusy t = false)) ∧
  (∀ (q : Nat) (s : State), ∃ t, exec (.retire q) s = .next t ∧ { t with routes := s.routes } = s ∧
    ∀ acc m, lookup acc s.routes = some m → ∃ m', lookup acc t.routes = some m' ∧
      ∀ i, m'.getLsbD i = (decide (i ≠ q) && m.getLsbD i)) ∧
  (∀ (q errors : Nat) (lost : Bool) (s : State), one s q → (s.quad q).st = .up →
    (lost = true ∨ s.image.laneLimit < errors → exec (.retrain ⟨q, lost, errors⟩) s = .next (s.putQuad q { s.quad q with
      st := .train, retraining := true, att := 0, good := 0xFF, offer := 15 })) ∧
    (lost = false → errors ≤ s.image.laneLimit → exec (.retrain ⟨q, lost, errors⟩) s = .next s))

/-- R209, R210, R238, R260: a beacon that has not come before goes on to every UP UALink quad with the measured delay and says by
how much the pod time is to be corrected, without moving it; the root sends its own time; without beacons for 1 ms the package
runs free. Totals are exchanged by link and class, on a link between dies of the package at once (log 13, DESIGN CHOICE), a class
sends within its allowance, and a flit that fails its check is counted and, on an edge link, asked for again. A control message goes
ahead of the data that waits at its port; that resend requests and agreement records count as control is the model's choice (log
36, DESIGN CHOICE). -/
def Obligations.TimeAndFlowSteps : Prop :=
  (∀ (q : Nat) (origin time : Word) (s : State),
    let at_ := time + BitVec.ofNat 64 (s.quad q).delay
    (s.image.timeRoot = false → s.beacon.toNat < origin.toNat → ∃ t, exec (.podTimeBeacon q ⟨origin, time⟩) s = .next t ∧
      (∀ r ∈ ualinks s, Msg.beacon r origin at_ ∈ t.outbox) ∧ t.beacon = origin ∧ t.beaconAt = some s.now ∧
      t.slew = (at_.toNat : Int) - s.podtime.toNat ∧
      t.ptstat = (s.ptstat && !(decide (s.podtime.toNat ≤ at_.toNat + 3) && decide (at_.toNat ≤ s.podtime.toNat + 3))) ∧
      { t with outbox := s.outbox, beacon := s.beacon, beaconAt := s.beaconAt, slew := s.slew, ptstat := s.ptstat } = s) ∧
    (s.image.timeRoot = true ∨ origin.toNat ≤ s.beacon.toNat → exec (.podTimeBeacon q ⟨origin, time⟩) s = .next s)) ∧
  (∀ s : State, ∃ t, exec .beaconSend s = .next t ∧ { t with outbox := s.outbox } = s ∧
    (s.image.timeRoot = true → ∀ r ∈ ualinks s, Msg.beacon r s.podtime s.podtime ∈ t.outbox) ∧
    (s.image.timeRoot = false → t = s)) ∧
  (∀ s : State, exec .beaconLoss s = .next { s with
    ptstat := s.ptstat || (!s.image.timeRoot && !s.beaconAt.any fun b => decide (s.now < b + 1000000)) }) ∧
  (∀ (q ns : Nat) (s : State), (s.quad q).pers ≠ 3 → (s.quad q).st = .up →
    exec (.linkDelayMeasure q ns) s = .next (s.putQuad q { s.quad q with delay := ns })) ∧
  (∀ (link cls : Nat) (s : State), link < 64 → exec (.flowControlTotalsSend link cls) s =
    .next (s.send (.totals link cls (s.credit link cls).sent (s.credit link cls).freed))) ∧
  (∀ (link cls : Nat) (s : State), 64 ≤ link → ∃ t, exec (.flowControlTotalsSend link cls) s = .next t ∧
    t.credit link cls = { s.credit link cls with lastFreed := (s.credit link cls).freed } ∧
    { t with credits := s.credits } = s) ∧
  (∀ (link cls : Nat) (sent freed : BitVec 32) (s : State),
    ∃ t, exec (.flowControlTotals link cls sent freed) s = .next t ∧
      t.credit link cls = { s.credit link cls with lastFreed := freed } ∧ { t with credits := s.credits } = s) ∧
  (∀ (link cls flits : Nat) (s : State),
    let used (z : State) : Nat := ((z.credit link cls).sent - (z.credit link cls).lastFreed).toNat
    let z := (s.spend link cls flits).2
    used s ≤ s.bufs.toList.getD cls 0 → used z ≤ s.bufs.toList.getD cls 0 ∧ { z with credits := s.credits } = s) ∧
  (∀ (m : Msg) (s : State), m.control = true → ∃ pre post, s.outbox = pre ++ post ∧ (s.send m).outbox = pre ++ m :: post ∧
    ∀ x ∈ pre, x.port = m.port → x.control = true) ∧
  (∀ (link : Nat) (s : State), (s.errc.get 9).toNat < 2 ^ 64 - 1 →
    ∃ t, exec (.flitCrcError link) s = .next t ∧ t.errc = s.errc.set 9 (s.errc.get 9 + 1) ∧
      (link < 64 → Msg.resend link ∈ t.outbox) ∧
      { t with errc := s.errc, outbox := s.outbox } = s)

/-- R243 to R245, R248, R249, R252, R253, R255, R258, R259: halting, resuming and stepping a tile; the trigger of a halt
group halts its running members, and HGRUN resumes them; SNAPGO latches every block; a strand whose next instruction an entry names and
that could issue it meets the match instead, whose handler starts in the shadow slot, and ONCE disables the entry; the periodic time record is written. The model's choices here: the record bears STRAND
0, and LVT 0 on a tile that no vtile owns (log 29, DESIGN CHOICE), and a halt message takes the quad that the hash of address 0
and tile 0 picks (log 36, DESIGN CHOICE). -/
def Obligations.DebugSteps : Prop :=
  let quiet (s : State) (tile : Nat) : Prop := (s.tile tile).trctl.getLsbD 63 = false ∧ (s.tile tile).port = []
  (∀ (tile : Nat) (s : State), (s.tile tile).trctl.getLsbD 63 = false →
    (∀ d, (s.tile tile).dbg = .running ∧ d = .halting ∨ (s.tile tile).dbg = .stepping ∧ d = .halted →
      ∃ t, exec (.hreq tile) s = .next t ∧
      t.tile tile = { s.tile tile with dbg := d, why := 0, wphit := 0, group := 0, stepSlot := none, stepped := false } ∧
      t.agenda = ((List.range 32).filter fun g => (s.tile tile).haltgrp.getLsbD (32 + g)).map
        (fun g => Turn.event (.haltGroupTrigger tile g)) ++ s.agenda ∧
      { t with tiles := s.tiles, agenda := s.agenda } = s) ∧
    ((s.tile tile).dbg = .stepping → (s.tile tile).stepped = true → exec (.stepComplete tile) s =
      .next (s.putTile tile { s.tile tile with dbg := .halted, why := 5, wphit := 0, stepSlot := none, stepped := false })) ∧
    ((s.tile tile).stepped = false → exec (.stepComplete tile) s = .next s)) ∧
  (∀ (tile : Nat) (s : State), (s.tile tile).dbg = .halting →
    exec (.haltComplete tile) s = .next (s.putTile tile { s.tile tile with dbg := .halted })) ∧
  (∀ (tile : Nat) (s : State), quiet s tile →
    ((s.tile tile).dbg = .halted →
      exec (.run tile) s = .next (s.putTile tile { s.tile tile with dbg := .running, stepSlot := none, stepped := false }) ∧
      ∀ slot, slot < 8 → exec (.step tile slot) s =
        .next (s.putTile tile { s.tile tile with dbg := .stepping, stslot := slot, stepSlot := some slot, stepped := false })) ∧
    exec (.passWrite tile) s = .next (s.putTile tile { s.tile tile with pass := true })) ∧
  (∀ (tile g : Nat) (s : State), tile < 1024 → g < 32 → (s.tile tile).dbg ≠ .running → (s.tile tile).ownHalt = true →
    (s.tile tile).haltgrp.getLsbD (32 + g) = true →
    ∃ t, exec (.haltGroupTrigger tile g) s = .next t ∧ t.strands = s.strands ∧
      (∀ y x, lookup y s.tiles = some x → x.dbg = .running → x.haltgrp.getLsbD g = true →
        (t.tile y).dbg = .halting ∧ (t.tile y).why = 1 ∧ (t.tile y).group = g) ∧
      (s.hgcfg.getLsbD (32 + g) = true →
        ∀ r ∈ s.routes, ∀ q, s.controlQuad r.1 = some q → .haltTrigger r.1 q g ∈ t.outbox)) ∧
  (∀ (mask : BitVec 32) (s : State), (∀ x ∈ s.tiles, x.2.port = []) →
    let joined := mask &&& (s.hgcfg >>> 32).truncate 32
    (∃ t, exec (.hgrun ⟨false, mask⟩) s = .next t ∧
      (∀ y x, lookup y s.tiles = some x → x.dbg = .halted → (x.haltgrp.truncate 32 &&& mask) ≠ 0 → (t.tile y).dbg = .running) ∧
      (joined ≠ 0 → ∀ r ∈ s.routes, ∀ q, s.controlQuad r.1 = some q → .haltResume r.1 q joined ∈ t.outbox)) ∧
    ∃ t, exec (.hgrun ⟨true, mask⟩) s = .next t ∧
      ∀ y x, lookup y s.tiles = some x → x.dbg = .halted → (x.haltgrp.truncate 32 &&& joined) ≠ 0 →
        (t.tile y).dbg = .running) ∧
  (∀ s : State, ∃ t, exec .snapgo s = .next t ∧ { t with snaps := s.snaps } = s ∧
    (∀ x ∈ s.tiles, tileItem s x.1 x.2 ∈ t.snaps ∧ sprueItem s x.1 ∈ t.snaps ∧ matrixItem s x.1 ∈ t.snaps) ∧
    (∀ q, q < 64 → quadItem s q ∈ t.snaps) ∧ ∀ i ∈ anvilItems s, i ∈ t.snaps) ∧
  (∀ (tile slot e : Nat) (s : State) (k : Strand), s.strandAt tile slot = some k → mayIssue s tile slot k = true →
    k.issued = false → matchEntry (s.tile tile) slot k.pc = some e →
    exec (.pcMatch tile slot) s = .next { s with agenda := .issue tile slot :: s.agenda }) ∧
  (∀ (tile slot e : Nat) (s : State) (k : Strand) (t : Team) (i : Instr) (u : State), s.strandAt tile slot = some k →
    mayIssue s tile slot k = true → k.issued = false → matchEntry (s.tile tile) slot k.pc = some e → s.team? k.team = some t →
    nextInstr { s with at_ := (tile, slot) } tile slot k = .ok i → exec i { s with at_ := (tile, slot) } = .next u →
    (State.waits s tile slot u = true → issueWith exec s tile slot = .next u) ∧
    (State.waits s tile slot u = false → (s.tile tile).serving = none → (s.tile tile).matches_ = [] →
    ∃ t' z, issueWith exec s tile slot = .next t' ∧ t'.mem = s.mem ∧
      t'.strandAt tile slot = some { k with wait := .none } ∧ (t'.tile tile).serving = some ⟨slot, e, k.pc⟩ ∧
      (t'.tile tile).matches_ = [] ∧ t'.strandAt tile 8 = some z ∧ z.team = k.team ∧ z.lrank = k.lrank ∧
      z.pc = BitVec.ofNat 64 (field (s.tile tile).pcmh.toNat 3 37 * 8) ∧ z.rd 1 = k.pc ∧
      z.rd 5 = BitVec.ofNat 64 (t.rank k.lrank) ∧ (∀ r : SReg, 5 < r.val → z.rd r = 0) ∧ (∀ r, z.full r = true) ∧
      (∀ i : Fin 16, ((t'.tile tile).pcmt.get i).getLsbD 63 =
        (((s.tile tile).pcmt.get i).getLsbD 63 && !(decide (i.val = e) && ((s.tile tile).pcmt.get i).getLsbD 62))))) ∧
  (∀ (tile : Nat) (s : State),
    let x := s.tile tile
    let a := field x.trctl.toNat 12 40 * 2 ^ 12 + 16 * (x.trpos.toNat % 2 ^ (field x.trctl.toNat 52 6 + 8))
    s.ok → x.trctl.getLsbD 63 = true → State.hbmHas a 16 = true → x.trbuf = [] → x.trdrop = 0 →
    (∀ o, x.owner = some o → s.heldBack o.1 tile = false) →
    let c := s.cross (traceHop tile) (sitePath (tileSite tile) (s.homeSite (hbmKey a))) 1 2
    let r := pack [5, 5, 4, 10, 40, 64] [11, 0, 0, (x.owner.map (·.2)).getD 0, s.now, s.podtime.toNat]
    (c.1 = true → ∃ t, exec (.traceTimeRecord tile) s = .next t ∧ (t.tile tile).trpos = x.trpos + 1 ∧
      t.mem.num (hbmKey a) 16 = r ∧ ∀ b, b < hbmKey a ∨ hbmKey a + 16 ≤ b → t.mem.byte b = s.mem.byte b) ∧
    (c.1 = false → ∃ t, exec (.traceTimeRecord tile) s = .next t ∧ (t.tile tile).trpos = x.trpos ∧
      (t.tile tile).trbuf = [r] ∧ t.mem = s.mem))

/-- R241, R260, R264, R267 to R270, R272 to R274, R294, R363: a signed record is written on request and ends it; a write of a
register clears, sets or holds what its map says; the management endpoint reads and writes registers, and the store and the
strands of a halted tile; a boot whose configuration image Lycel takes ends in a booted package, and one whose image it refuses
stops at its second step (R271, R272); power and heat set the clocks. The model's choices here: QDBASE, DTBASE and DLBASE read back
without their low bits (log 36, DESIGN CHOICE) and keep their value while a team is live (log 36, DEDUCED from R7 and R294); the low
7 bits of a record's address count for nothing and a die recovers to 3,000 MHz (log 30, DESIGN CHOICE); an image whose
personality map breaks the limits of R196 stops the boot at step 4 (log 30, DEDUCED); SNAPSEQ in a snapshot counts those before it
(log 36, DESIGN CHOICE). -/
def Obligations.LycelSteps : Prop :=
  (∀ (s : State) (t : Team),
    let a := requestAddr s
    let nonce := s.mem.read (hbmKey (a + 16)) 48
    let b := s.hbm (a + 8) 8 / 128 * 128
    s.ok → s.snapreq.getLsbD 63 = true → State.hbmHas a 64 = true → s.team? (s.hbm a 2) = some t → s.hbm (a + 3) 5 = 0 →
    (s.hbm (a + 2) 1 = 0 → State.hbmHas b (counterRecord s t nonce).length = true →
      ∃ t', exec .counterSnapshot s = .next t' ∧ t'.snapSeq = s.snapSeq + 1 ∧ t'.snapreq.getLsbD 63 = false ∧
        t'.snapreq.getLsbD 62 = false ∧
        t'.mem.read (hbmKey b) (counterRecord s t nonce).length = counterRecord s t nonce) ∧
    (s.hbm (a + 2) 1 = 1 → State.hbmHas b (compositionBytes t nonce).length = true →
      ∃ t', exec .compositionRecord s = .next t' ∧ t'.snapSeq = s.snapSeq ∧ t'.snapreq.getLsbD 63 = false ∧
        t'.mem.read (hbmKey b) (compositionBytes t nonce).length = compositionBytes t nonce)) ∧
  (∀ (id lr : Nat) (v : Word) (s : State) (t : Team) (x : Vtile), s.team? id = some t → s.vtile? id lr = some x →
    x.div = .resident →
    exec (.fstatClear id lr v) s = .next (s.putVtile id lr { x with fstat := x.fstat &&& ~~~(v &&& 0x73) })) ∧
  (∀ (i : Fin 11) (s : State), exec (.errcClear i) s = .next { s with errc := s.errc.set i 0 }) ∧
  (∀ (tile slot : Nat) (v : Bool) (s : State) (k : Strand), s.strandAt tile slot = some k →
    exec (.replayWrite tile slot v) s = .next (s.putAt tile slot { k with replay := v })) ∧
  (∀ (tile slot : Nat) (who : Option (Nat × Nat)) (m : Bool) (v : Word) (s : State),
    let reads (r : SysReg) (w : Word) : Prop :=
      ∃ t, exec (.systemRegisterWrite tile r v) s = .next t ∧ regRead t tile slot who m r = w ∧ t.mem = s.mem ∧
        t.strands = s.strands
    reads .hgcfg v ∧ reads .haltgrp v ∧
      (s.teams = [] → reads .qdbase (v &&& 0xFFFFFFFFFFFFFFC0) ∧ reads .dtbase (v &&& 0xFFFFFFFFFFFFF000) ∧
        reads .dlbase (v &&& 0xFFFFFFFFFFFFF000)) ∧
      (s.teams ≠ [] → ∀ r : SysReg, r = .qdbase ∨ r = .qdlen ∨ r = .dtbase ∨ r = .dlbase →
        exec (.systemRegisterWrite tile r v) s = .next s) ∧
      reads .portw (v &&& 0xFFFFFFFF) ∧ reads .pwrcap (v &&& 0xFFFF) ∧
      reads .pcmh (v &&& 0xFFFFFFFFF8) ∧ (∀ i, reads (.wp i) (v &&& 0xFE0FFFFF0007FFFF)) ∧ reads .cycle (s.cycleOf tile) ∧
      reads .podtime s.podtime) ∧
  (∀ (tile slot : Nat) (r : SysReg) (s : State), exec (.managementEndpointAccess (.readReg tile slot r)) s =
    .next (s.send (.mgmt (bytesOf 8 (regRead s tile slot (s.tile tile).owner
      (((s.strandAt tile slot).map (·.replay)).getD false) r).toNat)))) ∧
  (∀ (tile slot : Nat) (r : SysReg) (v : Word) (s : State), r ≠ .replay → r ≠ .qdoor →
    exec (.managementEndpointAccess (.writeReg tile slot r v)) s = .next (regWrite s tile (s.tile tile).owner r v)) ∧
  (∀ (tile ofs : Nat) (bs : List Byte) (s : State), s.ok → (s.tile tile).dbg = .halted → ofs + bs.length ≤ storeSize →
    ∃ t, exec (.managementEndpointAccess (.writeStore tile ofs bs)) s = .next t ∧
      t.mem.read (storeKey tile ofs) bs.length = bs ∧ t.strands = s.strands ∧
      ∀ b, b < storeKey tile ofs ∨ storeKey tile ofs + bs.length ≤ b → t.mem.byte b = s.mem.byte b) ∧
  (∀ (tile slot : Nat) (r : SReg) (v : Word) (s : State) (k : Strand), (s.tile tile).dbg = .halted →
    s.strandAt tile slot = some k → r ≠ 0 →
    ∃ k', exec (.managementEndpointAccess (.writeScalar tile slot r v true)) s = .next (s.putAt tile slot k') ∧ k'.rd r = v ∧
      k'.full r = true ∧ k'.pc = k.pc ∧ ∀ q, q ≠ r → k'.rd q = k.rd q) ∧
  (∀ (s : State) (n m : Nat) (time : Option Word), s.boot = .reset n →
    (imageTaken s.image = true → mapOk (fun q => (s.image.map.toList.getD q 0).val) = true →
      (∃ t, exec (.powerOn ⟨none, time⟩) s = .next t ∧ t.boot = .booted ∧ t.spare = s.image.spare ∧ t.lostSite = s.image.failed ∧
        t.podtime = time.getD s.podtime ∧ t.beaconAt = time.map (·.toNat) ∧
        t.ptstat = (time.isNone && !s.image.timeRoot) ∧
        (∀ q, q < 64 → (s.quad q).pers ≠ 0 → (t.quad q).st = .train) ∧
        { t with boot := s.boot, quads := s.quads, spare := s.spare, lostSite := s.lostSite, podtime := s.podtime
                 beaconAt := s.beaconAt, ptstat := s.ptstat } = s) ∧
      exec (.powerOn ⟨some m, time⟩) s = .next { s with boot := .reset m }) ∧
    (imageTaken s.image = false → exec (.powerOn ⟨none, time⟩) s = .next { s with boot := .reset 2 }) ∧
    (imageTaken s.image = true → mapOk (fun q => (s.image.map.toList.getD q 0).val) = false →
      exec (.powerOn ⟨none, time⟩) s = .next { s with boot := .reset 4 })) ∧
  (∀ (die : Fin 4) (mhz : Nat) (s : State),
    (1500 ≤ mhz → mhz % 100 = 0 → mhz < s.clocks.get die →
      exec (.powerCapThrottle die.val mhz) s = .next { s with clocks := s.clocks.set die.val mhz }) ∧
    exec (.thermalThrottle die.val) s = .next { s with clocks := s.clocks.set die.val 1500, hot := s.hot.set die.val true } ∧
    (s.hot.get die = true → exec (.thermalRecovery die.val) s =
      .next { s with clocks := s.clocks.set die.val 3000, hot := s.hot.set die.val false }) ∧
    ∃ t, exec .thermalShutdown s = .next t ∧ t.boot = .off ∧ t.mem = s.mem)

/-- R218, R221 to R223, R225, R235 to R237: a graph that passes its checks is loaded, and one that does not has failed; a run
starts when nothing that it conflicts with is open and its ranges have room; a node that starts reads the first chunk of its
source (R66); a node that has what it needs is done and its successors come nearer; a chunk joins its node or the staging, or
waits at the edge of a partition that a quiesce holds (R195); a chunk that does not match, a report of a mismatch and a peer's
failure end the node with 0x48 or 0x41, unless it has handed over its whole result (log 28, DEDUCED); an unreachable package is
noted once. That INTLK is set on a run that waits for room alone is the model's reading (log 28, DEDUCED). -/
def Obligations.VirgaSteps : Prop :=
  (∀ (g : Nat) (s : State) (x : Graph) (t : Team), lookup g s.graphs = some x → s.team? x.who.team = some t → x.st = .loading →
    let key := wordKey s t x.who.lrank x.addr
    let len := (graphHead (imageBytes s t x 64)).len
    let im := imageBytes s t x (max 64 len)
    (x.touched = [] → ∀ n, imageBytes s t x n = (List.range n).map fun o => s.mem.byte (key o)) ∧
    (wordReach s t x.who.lrank x.addr (max 64 len) = .now → checkAll s t [imageOpd s t x.addr len] = .ok () → len ≤ 2 ^ 20 → poisonedNode s key im = none → awOfs x.addr % 64 = 0 →
    (malformed im t.nP = none → loadedNodes s + (graphHead im).nnodes ≤ 65536 →
      ∃ t', exec (.graphLoadComplete g) s = .next t' ∧
        t'.graphs = insertAt g { x with st := .loaded, image := im } s.graphs ∧ t'.mem = s.mem ∧
        (ctrNone x.ctr = false →
          lookup s.fresh t'.incs = some ⟨x.who, ctrVt x.ctr, ctrOfs x.ctr, x.amount, false⟩)) ∧
    (∀ n, malformed im t.nP = some n → ∃ t', exec (.graphLoadComplete g) s = .next t' ∧
      lookup g t'.graphs = some { x with st := .failed, cause := 0x48, node := n }))) ∧
  (∀ (g run id : Nat) (s : State) (r : Run), openRun s g run = some (id, r) → lookup id s.runs = some r → r.st = .waiting →
    (conflicted s id r = false → noRoom s id r = false → exec (.runStart g run) s = .next { s with runs := insertAt id { r with
      st := .running, nodes := r.nodes.map fun n => if n.left = 0 then { n with st := .ready } else n } s.runs }) ∧
    (conflicted s id r = false → noRoom s id r = true →
      exec (.runStart g run) s = .next { s with runs := insertAt id { r with room := true, intlk := true } s.runs }) ∧
    (conflicted s id r = true → exec (.runStart g run) s = .next s)) ∧
  (∀ (g run i id : Nat) (s : State) (r : Run) (x : NodeRun) (t : Team), openRun s g run = some (id, r) →
    lookup id s.runs = some r → s.team? r.who.team = some t → r.nodes[i]? = some x → r.st = .running → x.st = .ready →
    r.cause = 0 → s.heldBack r.who.team r.who.tile = false → s.staging = [] → s.vreports = [] → s.poison = [] →
    let im := runImage s r
    let n := nodeOf im i
    n.op = 7 → x.src = [] → nodeWhyNot s t r im n none none = none → nodeWhyNot s t r im n (some 0) none = none →
    (∀ d, n.source im = some d → nodeWaits s t r n 0 (some d) = false) →
    ∃ t' r' y d, exec (.virgaNodeStart g run i) s = .next t' ∧ lookup id t'.runs = some r' ∧ r'.nodes[i]? = some y ∧
      n.source im = some d ∧ y.st = .active ∧
      y.src = (readValues s t r (r.bind d.1) d.2.1 n.size 0 (min n.chunkValues d.2.2)).1 ∧ t'.mem = s.mem) ∧
  (∀ (g run i id : Nat) (s : State) (r : Run) (x : NodeRun) (t : Team), openRun s g run = some (id, r) →
    lookup id s.runs = some r → s.team? r.who.team = some t → r.nodes[i]? = some x → r.st = .running → x.st = .active →
    x.sent = true → x.inc = none → r.cause = 0 → (∀ l ∈ s.landings, l.2.of_ ≠ .run id i) →
    let im := runImage s r
    let n := nodeOf im i
    n.op = 9 → waitxHolds s t (r.bind n.sslot) n = true → s.heldBack r.who.team r.who.tile = false →
    ctrNone (r.bind n.sslot).desc = true ∨ s.reachable r.who.team (ctrVt (r.bind n.sslot).desc) = true →
    ∃ t' r' y, exec (.virgaNodeComplete g run i) s = .next t' ∧ lookup id t'.runs = some r' ∧ r'.nodes[i]? = some y ∧
      y.st = .done ∧ ∀ j z, j ≠ i → n.succs.count j = 1 → r.nodes[j]? = some z → ∃ z', r'.nodes[j]? = some z' ∧
        z'.left = z.left - 1 ∧ (z.left = 1 → z.st = .waiting → z'.st = .ready)) ∧
  (∀ (quad : Nat) (c : Chunk) (s : State), (chunkTeams s c).any s.heldEdge = true →
    exec (.virgaChunkReceive ⟨quad, c⟩) s = .next s) ∧
  (∀ (quad : Nat) (c : Chunk) (s : State), (chunkTeams s c).any s.heldEdge = false →
    let found := findNode s c.far c.team c.src c.gtag c.run c.tag c.shard fun n => compatible c.node n.op
    (found = none → (s.staging.map chunkBytes).sum + chunkBytes c ≤ 2 ^ 26 →
      exec (.virgaChunkReceive ⟨quad, c⟩) s = .next { s.freeBuffers quad 2 (Msg.chunk c.far 0 quad c).flits with
        staging := s.staging ++ [c] }) ∧
    (∀ id i r x t, found = some (id, i) → activeNode s id i = some (r, x) → s.team? r.who.team = some t →
      (x.sent = true → c.sig = (nodeOf (runImage s r) i).sig →
        ∃ t' r' y, exec (.virgaChunkReceive ⟨quad, c⟩) s = .next t' ∧ lookup id t'.runs = some r' ∧ r'.nodes[i]? = some y ∧
          y.inbox = x.inbox ++ [c] ∧ y.st = .active) ∧
      (r.cause = 0 → x.written = false → c.sig ≠ (nodeOf (runImage s r) i).sig →
        ∃ t' r' y, exec (.virgaChunkReceive ⟨quad, c⟩) s = .next t' ∧ lookup id t'.runs = some r' ∧ r'.nodes[i]? = some y ∧
          y.st = .failed ∧ r'.cause = 0x48 ∧ r'.node = i) ∧
      (x.written = true → c.sig ≠ (nodeOf (runImage s r) i).sig →
        ∃ t', exec (.virgaChunkReceive ⟨quad, c⟩) s = .next t' ∧ t'.runs = s.runs ∧ t'.landings = s.landings ∧ t'.mem = s.mem))) ∧
  (∀ (v : VirgaReport) (s : State) (id i : Nat) (r : Run) (x : NodeRun) (t : Team),
    findNode s v.far v.team v.src v.gtag v.run v.tag v.shard (fun _ => true) = some (id, i) →
    activeNode s id i = some (r, x) → s.team? r.who.team = some t → x.written = false → r.cause = 0 →
    (∃ t' r' y, exec (.virgaMismatchReport v) s = .next t' ∧ lookup id t'.runs = some r' ∧ r'.nodes[i]? = some y ∧
      y.st = .failed ∧ r'.cause = 0x48 ∧ r'.node = i) ∧
    (∃ t' r' y, exec (.virgaPeerFailure v) s = .next t' ∧ lookup id t'.runs = some r' ∧ r'.nodes[i]? = some y ∧
      y.st = .failed ∧ r'.cause = 0x41 ∧ r'.node = i)) ∧
  (∀ (id pkg : Nat) (s : State) (t : Team), s.team? id = some t → pkg < t.nP → pkg ≠ t.pc →
    lookup pkg t.peersDown = none →
    ∃ t' T, exec (.peerUnreachable id pkg) s = .next t' ∧ t'.team? id = some T ∧ T.peersDown = insertAt pkg s.now t.peersDown)

/-- R275 to R292: what the encoder writes for a well-formed instruction, the decoder reads back, for every instruction and
every operand that the encoding admits. -/
def Obligations.DecodeOfEncode : Prop :=
  ∀ (i : Instr) (w : Word), WellFormed i = true → encode i = some w → decode w = .ok i

/-- R275 to R292: a word that decodes stands for a well-formed instruction, and the encoder gives that same word: no bit of a
word that is executed is dropped, and no two words stand for one instruction. -/
def Obligations.EncodeOfDecode : Prop :=
  ∀ (i : Instr) (w : Word), decode w = .ok i → WellFormed i = true ∧ encode i = some w

/-- R275 to R291: a word of each family, written out from its encoding, decodes to its instruction; an opcode of the table's
gaps, a reserved field and an instruction that cannot be strict do not decode. -/
def Obligations.DecodedWords : Prop :=
  decode 0x4000000000810C05 = .ok (.div ⟨false, .i32, 2, 1, 3⟩) ∧
  decode 0x8000000300811023 = .ok (.ffma ⟨false, false, 3, 2, 1, 4⟩) ∧
  decode 0x00000000003F0037 = .ok (.jalr ⟨false, 0, 63, 0⟩) ∧
  decode 0x0000000600850C40 = .ok (.ld ⟨false, .i16, 6, 5, 3⟩) ∧
  decode 0x8000000000070C54 = .ok (.pset ⟨false, .f32, 7, 3⟩) ∧
  decode 0x8000000040012476 = .ok (.vred ⟨false, .f32, .add, ⟨4, false, false⟩, 1, 9⟩) ∧
  decode 0x94040000014408A0 = .ok (.mma ⟨false, .bf16, true, false, false, 64, 0, 5, 4, 2⟩) ∧
  decode 0x0000000102420CB0 = .ok (.cpy ⟨false, 1, 9, 2, 3⟩) ∧
  decode 0x0000584A00C228C0 = .ok (.bar ⟨false, 11, 0, .addF32, .grp, 3, 2, 10⟩) ∧
  decode 0x0000004000021CC8 = .ok (.spawn ⟨false, 64, 2, 7⟩) ∧
  decode 0x00000000018330D1 = .ok (.collRun ⟨false, 0, 6, 3, 12⟩) ∧
  decode 0x00000022000024E1 = .ok (.sysrd ⟨false, .stepc .grp, 9⟩) ∧
  decode 0x00000000000000FF = .error .reservedOpcode ∧ decode 0x7800000000810C05 = .error .reservedField ∧
  decode 0x00000000000001E0 = .error .strict

/-- R164, R253, R272, R273, R275, R276: when the turn is a slot's and the word at its strand's PC, read through the code handle,
decodes to an instruction, a step runs exactly that instruction at that place; what it adds is the end of a match or of a debug
step, and the stop at a physical address that does not exist (log 19). A WAITGE that waits runs again without a fetch (R386). A
fetch that fails raises its cause with IWORD 0: 0x21 for an entry that is not there, malformed or of a space that holds no code
(5 and 6 among them: log 36, DESIGN CHOICE), 0x22 for another generation, 0x23 beyond the entry, 0x24 without X, 0x26 for a poisoned
word. R254, R291: a word that does not decode, or that the shadow slot may not run, raises 0x00 with the word in IWORD. When the
turn is an event of the device, a step runs that event, and nothing when the package is not in the phase of its boot for it. A turn
that lets time pass changes the clocks and the accounts alone when nothing else is due in it. -/
def Obligations.StepRunsDecoded : Prop :=
  let turn (s b : State) (rest : List Turn) (tile slot : Nat) (k : Strand) : Prop :=
    s.absent = none ∧ s.agenda = .issue tile slot :: rest ∧ s.strandAt tile slot = some k ∧ mayIssue s tile slot k = true ∧
      matchEntry (s.tile tile) slot k.pc = none ∧ b = { s with agenda := rest, at_ := (tile, slot) }
  let faults (s b : State) (tile slot : Nat) (k : Strand) (cause : Nat) (addr word : Word) : Prop :=
    let u := b.takeFault tile slot k cause addr 0 word
    step s = checked (.next (if k.issued then u else u.afterIssue tile slot))
  (∀ (s b : State) (rest : List Turn) (tile slot : Nat) (k : Strand) (t : Team) (w : Word) (i : Instr),
    turn s b rest tile slot k → s.team? k.team = some t → (∀ o m f, k.wait ≠ .waitge o m f) → fetch b t tile k.pc = .ok w →
    decode w = .ok i → (slot = 8 → shadowLegal i = true) →
    ∃ u : State, exec i b = .next u ∧
      step s = checked (.next (if b.stuck tile slot u || k.issued then u else u.afterIssue tile slot)) ∧
      (slot ∉ (u.tile tile).skip → (u.tile tile).dbg = .running → u.absent = none → step s = .next u)) ∧
  (∀ (s b : State) (rest : List Turn) (tile slot : Nat) (k : Strand) (o m : Nat) (f : WaitC), turn s b rest tile slot k →
    k.wait = .waitge o m f → step s = checked (exec (.waitge f) b)) ∧
  (∀ (s b : State) (rest : List Turn) (tile slot : Nat) (k : Strand) (t : Team), turn s b rest tile slot k →
    s.team? k.team = some t → (∀ o m f, k.wait ≠ .waitge o m f) →
    let e := b.entry t t.codeh
    let there := t.codeh % 2 ^ 20 < t.htlen ∧ e.ok = true ∧ e.space ≤ 4
    let a := codeAddr t k.pc
    (¬ there → faults s b tile slot k 0x21 a 0) ∧
    (there → e.gen ≠ t.codeh / 2 ^ 20 → faults s b tile slot k 0x22 a 0) ∧
    (there → e.gen = t.codeh / 2 ^ 20 →
      (e.len < k.pc.toNat + 8 → faults s b tile slot k 0x23 a 0) ∧
      (k.pc.toNat + 8 ≤ e.len → e.x = false → faults s b tile slot k 0x24 a 0) ∧
      (k.pc.toNat + 8 ≤ e.len → e.x = true → b.entryPoison e tile k.pc.toNat 8 = true → faults s b tile slot k 0x26 a 0)) ∧
    ∀ w, fetch b t tile k.pc = .ok w →
      ((∃ r, decode w = .error r) ∨ slot = 8 ∧ ∃ i, decode w = .ok i ∧ shadowLegal i = false) → faults s b tile slot k 0 0 w) ∧
  (∀ (s : State) (rest : List Turn) (i : Instr), s.absent = none → s.agenda = .event i :: rest → i.hasWord = false →
    WellFormed i = true → (comesAbout i s = true → step s = checked (exec i { s with agenda := rest })) ∧
      (comesAbout i s = false → step s = .next { s with agenda := rest })) ∧
  (∀ (s : State) (rest : List Turn) (c n : Nat), s.absent = none → s.agenda = .advance c n :: rest → s.boot ≠ .booted →
    step s = .next { s with agenda := rest }) ∧
  (∀ (s : State) (rest : List Turn) (c n : Nat), s.absent = none → s.agenda = .advance c n :: rest → s.boot = .booted →
    s.slew = 0 → s.outbox = [] → (∀ x ∈ s.tiles, x.2.trbuf = []) → (∀ x ∈ s.vtiles, x.2.div ≠ .cut) →
    (∀ x ∈ s.quads, x.2.st ≠ .quiesce) →
    ∃ t, step s = .next t ∧ t.cycle = s.cycle + BitVec.ofNat 64 c ∧ t.podtime = s.podtime + BitVec.ofNat 64 n ∧
      (∀ d : Fin 4, s.clocks.get d = 3000 → s.dieFrac.get d = 0 → t.dieCycle.get d = s.dieCycle.get d + BitVec.ofNat 64 c) ∧
      t.mem = s.mem ∧ t.strands = s.strands ∧ t.vtiles = s.vtiles ∧ t.agenda = rest)

/-- R6, R47, R179, R195, R200, R202, R207, R239, R242, R243, R248, R250, R252, R256, R267, R269: after reset every register whose
map gives its fields a reset value reads so, fields that are reserved among them, the superstep counters stand at 0 (R18), the
package is not yet booted (R272), and memory is in its canonical form. -/
def Obligations.ResetState : Prop :=
  State.reset.ok ∧ State.reset.boot = .reset 0 ∧ State.reset.strands = [] ∧ State.reset.teams = [] ∧
  (∀ id l u, (State.reset.unit id l u).step = 0) ∧
  (∀ tile slot who m, ∀ r ∈ [SysReg.dbgctl, .dbgstat, .haltgrp, .trctl, .vacate, .quiesce, .qctl, .snapreq,
    .fsnap, .loadg], regRead State.reset tile slot who m r = 0) ∧
  (∀ tile slot who m i, regRead State.reset tile slot who m (.wp i) = 0) ∧
  (∀ tile slot who m i, regRead State.reset tile slot who m (.pcmt i) = 0) ∧
  (∀ tile slot who m i, (regRead State.reset tile slot who m (.qstat i)) &&& 0xE7FFFFFFFFFFFFFF = 0) ∧
  (∀ tile slot who m, field (regRead State.reset tile slot who m .portw).toNat 32 32 = 0) ∧
  (∀ tile slot who m i, field (regRead State.reset tile slot who m (.cxlwin i)).toNat 52 10 = 0 ∧
    field (regRead State.reset tile slot who m (.cxlwin i)).toNat 6 6 = 0)

/-- Memory keeps its canonical form in every step, from every state that has it: keys rise, and no cell holds what an
unlisted byte reads as (the model's own form, log 5). -/
def Obligations.MemoryStaysCanonical : Prop :=
  ∀ s t : State, s.ok → step s = .next t → t.ok

end
end

