-- ==== Sys2Proof/Laws/Tables.lean ====
section
/-! SUPPORT. Lists keyed by numbers, and the bytes of a number: what reading gives after a change. -/

namespace Sys2Proof

set_option Elab.async false

@[simp] theorem lookup_nil {α : Type} (k : Nat) : lookup k ([] : List (Nat × α)) = none := rfl

@[simp] theorem lookup_insertAt_self {α : Type} (k : Nat) (x : α) (l : List (Nat × α)) :
    lookup k (insertAt k x l) = some x := by
  induction l with
  | nil => simp [insertAt, lookup]
  | cons c r ih =>
    obtain ⟨j, y⟩ := c
    unfold insertAt
    split
    · rw [lookup, if_neg (by omega), ih]
    · split <;> simp [lookup]

theorem lookup_insertAt_of_ne {α : Type} {k j : Nat} (h : j ≠ k) (x : α) (l : List (Nat × α)) :
    lookup j (insertAt k x l) = lookup j l := by
  induction l with
  | nil => simp [insertAt, lookup, Ne.symm h]
  | cons c r ih =>
    obtain ⟨i, y⟩ := c
    unfold insertAt
    split
    · simp only [lookup, ih]
    · split
      · next hi => subst hi; simp [lookup, Ne.symm h]
      · simp [lookup, Ne.symm h]

/-- Reading a table after putting a value at a key. -/
theorem lookup_insertAt {α : Type} (j k : Nat) (x : α) (l : List (Nat × α)) :
    lookup j (insertAt k x l) = if j = k then some x else lookup j l := by
  split
  · next h => subst h; exact lookup_insertAt_self _ _ _
  · next h => exact lookup_insertAt_of_ne h _ _

@[simp] theorem lookup_eraseAt_self {α : Type} (k : Nat) (l : List (Nat × α)) : lookup k (eraseAt k l) = none := by
  induction l with
  | nil => rfl
  | cons c r ih =>
    obtain ⟨j, y⟩ := c
    by_cases h : j = k
    · simpa [eraseAt, h] using ih
    · have : eraseAt k ((j, y) :: r) = (j, y) :: eraseAt k r := by simp [eraseAt, h]
      rw [this, lookup, if_neg h, ih]

theorem lookup_eraseAt_of_ne {α : Type} {k j : Nat} (h : j ≠ k) (l : List (Nat × α)) :
    lookup j (eraseAt k l) = lookup j l := by
  induction l with
  | nil => rfl
  | cons c r ih =>
    obtain ⟨i, y⟩ := c
    by_cases hi : i = k
    · subst hi
      have : eraseAt i ((i, y) :: r) = eraseAt i r := by simp [eraseAt]
      rw [this, ih, lookup, if_neg (Ne.symm h)]
    · have : eraseAt k ((i, y) :: r) = (i, y) :: eraseAt k r := by simp [eraseAt, hi]
      rw [this, lookup, lookup, ih]

/-- Reading a table after removing a key. -/
theorem lookup_eraseAt {α : Type} (j k : Nat) (l : List (Nat × α)) :
    lookup j (eraseAt k l) = if j = k then none else lookup j l := by
  split
  · next h => subst h; exact lookup_eraseAt_self _ _
  · next h => exact lookup_eraseAt_of_ne h _

/-- Reading a table whose values have been changed. -/
theorem lookup_map {α β : Type} (k : Nat) (f : α → β) (l : List (Nat × α)) :
    lookup k (l.map fun c => (c.1, f c.2)) = (lookup k l).map f := by
  induction l with
  | nil => rfl
  | cons c r ih =>
    obtain ⟨j, x⟩ := c
    rw [List.map_cons, lookup, lookup]
    split
    · rfl
    · exact ih

@[simp] theorem interval_zero (a : Nat) : interval a 0 = [] := rfl

theorem interval_succ (a n : Nat) : interval a (n + 1) = a :: interval (a + 1) n := by
  simp only [interval, List.range_succ_eq_map, List.map_cons, List.map_map, Nat.add_zero]
  congr 1
  apply List.map_congr_left
  intro i _
  simp only [Function.comp, Nat.succ_eq_add_one]
  omega

@[simp] theorem length_interval (a n : Nat) : (interval a n).length = n := by simp [interval]

theorem mem_interval {a n x : Nat} : x ∈ interval a n ↔ a ≤ x ∧ x < a + n := by
  simp only [interval, List.mem_map, List.mem_range]
  constructor
  · rintro ⟨i, h, rfl⟩; omega
  · intro h; exact ⟨x - a, by omega, by omega⟩

@[simp] theorem length_bytesOf (n v : Nat) : (bytesOf n v).length = n := by
  induction n generalizing v with
  | zero => rfl
  | succ n ih => simp [bytesOf, ih]

/-- The number of the bytes of a number (R3). -/
theorem ofBytes_bytesOf (n v : Nat) : ofBytes (bytesOf n v) = v % 256 ^ n := by
  induction n generalizing v with
  | zero => simp [bytesOf, ofBytes, Nat.mod_one]
  | succ n ih =>
    simp only [bytesOf, ofBytes, ih, BitVec.toNat_ofNat]
    rw [show 2 ^ 8 = 256 from rfl, Nat.pow_succ', Nat.mod_mul]

theorem ofBytes_lt (l : List Byte) : ofBytes l < 256 ^ l.length := by
  induction l with
  | nil => simp [ofBytes]
  | cons b r ih =>
    have := b.isLt
    simp only [ofBytes, List.length_cons, Nat.pow_succ']
    omega

end Sys2Proof
end

