-- ==== Sys2Proof/Laws/State.lean ====
section
/-! SUPPORT. What each plain update of the state leaves of each field: one lemma per field and update, so that no proof
unfolds a record; then what the lookups give after an update. -/

set_option Elab.async false

namespace Sys2Proof.Machine.State

/-! ### putAt -/

@[simp] theorem putAt_mem (s : State) (tile slot : Nat) (k : Strand) : (s.putAt tile slot k).mem = s.mem := by rfl
@[simp] theorem putAt_live (s : State) (tile slot : Nat) (k : Strand) : (s.putAt tile slot k).live = s.live := by rfl
@[simp] theorem putAt_poison (s : State) (tile slot : Nat) (k : Strand) : (s.putAt tile slot k).poison = s.poison := by rfl
@[simp] theorem putAt_vtiles (s : State) (tile slot : Nat) (k : Strand) : (s.putAt tile slot k).vtiles = s.vtiles := by rfl
@[simp] theorem putAt_teams (s : State) (tile slot : Nat) (k : Strand) : (s.putAt tile slot k).teams = s.teams := by rfl
@[simp] theorem putAt_units (s : State) (tile slot : Nat) (k : Strand) : (s.putAt tile slot k).units = s.units := by rfl
@[simp] theorem putAt_tiles (s : State) (tile slot : Nat) (k : Strand) : (s.putAt tile slot k).tiles = s.tiles := by rfl
@[simp] theorem putAt_copies (s : State) (tile slot : Nat) (k : Strand) : (s.putAt tile slot k).copies = s.copies := by rfl
@[simp] theorem putAt_doneCopies (s : State) (tile slot : Nat) (k : Strand) : (s.putAt tile slot k).doneCopies = s.doneCopies := by rfl
@[simp] theorem putAt_landings (s : State) (tile slot : Nat) (k : Strand) : (s.putAt tile slot k).landings = s.landings := by rfl
@[simp] theorem putAt_incs (s : State) (tile slot : Nat) (k : Strand) : (s.putAt tile slot k).incs = s.incs := by rfl
@[simp] theorem putAt_amos (s : State) (tile slot : Nat) (k : Strand) : (s.putAt tile slot k).amos = s.amos := by rfl
@[simp] theorem putAt_fills (s : State) (tile slot : Nat) (k : Strand) : (s.putAt tile slot k).fills = s.fills := by rfl
@[simp] theorem putAt_reds (s : State) (tile slot : Nat) (k : Strand) : (s.putAt tile slot k).reds = s.reds := by rfl
@[simp] theorem putAt_stats (s : State) (tile slot : Nat) (k : Strand) : (s.putAt tile slot k).stats = s.stats := by rfl
@[simp] theorem putAt_remotes (s : State) (tile slot : Nat) (k : Strand) : (s.putAt tile slot k).remotes = s.remotes := by rfl
@[simp] theorem putAt_peerWork (s : State) (tile slot : Nat) (k : Strand) : (s.putAt tile slot k).peerWork = s.peerWork := by rfl
@[simp] theorem putAt_kept (s : State) (tile slot : Nat) (k : Strand) : (s.putAt tile slot k).kept = s.kept := by rfl
@[simp] theorem putAt_graphs (s : State) (tile slot : Nat) (k : Strand) : (s.putAt tile slot k).graphs = s.graphs := by rfl
@[simp] theorem putAt_runs (s : State) (tile slot : Nat) (k : Strand) : (s.putAt tile slot k).runs = s.runs := by rfl
@[simp] theorem putAt_staging (s : State) (tile slot : Nat) (k : Strand) : (s.putAt tile slot k).staging = s.staging := by rfl
@[simp] theorem putAt_vreports (s : State) (tile slot : Nat) (k : Strand) : (s.putAt tile slot k).vreports = s.vreports := by rfl
@[simp] theorem putAt_fencedGroups (s : State) (tile slot : Nat) (k : Strand) : (s.putAt tile slot k).fencedGroups = s.fencedGroups := by rfl
@[simp] theorem putAt_qslots (s : State) (tile slot : Nat) (k : Strand) : (s.putAt tile slot k).qslots = s.qslots := by rfl
@[simp] theorem putAt_pending (s : State) (tile slot : Nat) (k : Strand) : (s.putAt tile slot k).pending = s.pending := by rfl
@[simp] theorem putAt_doneRecs (s : State) (tile slot : Nat) (k : Strand) : (s.putAt tile slot k).doneRecs = s.doneRecs := by rfl
@[simp] theorem putAt_launches (s : State) (tile slot : Nat) (k : Strand) : (s.putAt tile slot k).launches = s.launches := by rfl
@[simp] theorem putAt_gangs (s : State) (tile slot : Nat) (k : Strand) : (s.putAt tile slot k).gangs = s.gangs := by rfl
@[simp] theorem putAt_served (s : State) (tile slot : Nat) (k : Strand) : (s.putAt tile slot k).served = s.served := by rfl
@[simp] theorem putAt_quads (s : State) (tile slot : Nat) (k : Strand) : (s.putAt tile slot k).quads = s.quads := by rfl
@[simp] theorem putAt_credits (s : State) (tile slot : Nat) (k : Strand) : (s.putAt tile slot k).credits = s.credits := by rfl
@[simp] theorem putAt_hops (s : State) (tile slot : Nat) (k : Strand) : (s.putAt tile slot k).hops = s.hops := by rfl
@[simp] theorem putAt_inbound (s : State) (tile slot : Nat) (k : Strand) : (s.putAt tile slot k).inbound = s.inbound := by rfl
@[simp] theorem putAt_bufs (s : State) (tile slot : Nat) (k : Strand) : (s.putAt tile slot k).bufs = s.bufs := by rfl
@[simp] theorem putAt_routes (s : State) (tile slot : Nat) (k : Strand) : (s.putAt tile slot k).routes = s.routes := by rfl
@[simp] theorem putAt_uec (s : State) (tile slot : Nat) (k : Strand) : (s.putAt tile slot k).uec = s.uec := by rfl
@[simp] theorem putAt_cycle (s : State) (tile slot : Nat) (k : Strand) : (s.putAt tile slot k).cycle = s.cycle := by rfl
@[simp] theorem putAt_cycleFrac (s : State) (tile slot : Nat) (k : Strand) : (s.putAt tile slot k).cycleFrac = s.cycleFrac := by rfl
@[simp] theorem putAt_dieCycle (s : State) (tile slot : Nat) (k : Strand) : (s.putAt tile slot k).dieCycle = s.dieCycle := by rfl
@[simp] theorem putAt_dieFrac (s : State) (tile slot : Nat) (k : Strand) : (s.putAt tile slot k).dieFrac = s.dieFrac := by rfl
@[simp] theorem putAt_podtime (s : State) (tile slot : Nat) (k : Strand) : (s.putAt tile slot k).podtime = s.podtime := by rfl
@[simp] theorem putAt_ptstat (s : State) (tile slot : Nat) (k : Strand) : (s.putAt tile slot k).ptstat = s.ptstat := by rfl
@[simp] theorem putAt_beacon (s : State) (tile slot : Nat) (k : Strand) : (s.putAt tile slot k).beacon = s.beacon := by rfl
@[simp] theorem putAt_beaconAt (s : State) (tile slot : Nat) (k : Strand) : (s.putAt tile slot k).beaconAt = s.beaconAt := by rfl
@[simp] theorem putAt_slew (s : State) (tile slot : Nat) (k : Strand) : (s.putAt tile slot k).slew = s.slew := by rfl
@[simp] theorem putAt_slewFrac (s : State) (tile slot : Nat) (k : Strand) : (s.putAt tile slot k).slewFrac = s.slewFrac := by rfl
@[simp] theorem putAt_image (s : State) (tile slot : Nat) (k : Strand) : (s.putAt tile slot k).image = s.image := by rfl
@[simp] theorem putAt_spare (s : State) (tile slot : Nat) (k : Strand) : (s.putAt tile slot k).spare = s.spare := by rfl
@[simp] theorem putAt_lostSite (s : State) (tile slot : Nat) (k : Strand) : (s.putAt tile slot k).lostSite = s.lostSite := by rfl
@[simp] theorem putAt_qdbase (s : State) (tile slot : Nat) (k : Strand) : (s.putAt tile slot k).qdbase = s.qdbase := by rfl
@[simp] theorem putAt_qdlen (s : State) (tile slot : Nat) (k : Strand) : (s.putAt tile slot k).qdlen = s.qdlen := by rfl
@[simp] theorem putAt_dtbase (s : State) (tile slot : Nat) (k : Strand) : (s.putAt tile slot k).dtbase = s.dtbase := by rfl
@[simp] theorem putAt_dlbase (s : State) (tile slot : Nat) (k : Strand) : (s.putAt tile slot k).dlbase = s.dlbase := by rfl
@[simp] theorem putAt_vacateReg (s : State) (tile slot : Nat) (k : Strand) : (s.putAt tile slot k).vacateReg = s.vacateReg := by rfl
@[simp] theorem putAt_orderReqs (s : State) (tile slot : Nat) (k : Strand) : (s.putAt tile slot k).orderReqs = s.orderReqs := by rfl
@[simp] theorem putAt_acolor (s : State) (tile slot : Nat) (k : Strand) : (s.putAt tile slot k).acolor = s.acolor := by rfl
@[simp] theorem putAt_quiesce (s : State) (tile slot : Nat) (k : Strand) : (s.putAt tile slot k).quiesce = s.quiesce := by rfl
@[simp] theorem putAt_quiesceSince (s : State) (tile slot : Nat) (k : Strand) : (s.putAt tile slot k).quiesceSince = s.quiesceSince := by rfl
@[simp] theorem putAt_qctl (s : State) (tile slot : Nat) (k : Strand) : (s.putAt tile slot k).qctl = s.qctl := by rfl
@[simp] theorem putAt_qorder (s : State) (tile slot : Nat) (k : Strand) : (s.putAt tile slot k).qorder = s.qorder := by rfl
@[simp] theorem putAt_portw (s : State) (tile slot : Nat) (k : Strand) : (s.putAt tile slot k).portw = s.portw := by rfl
@[simp] theorem putAt_cxlwin (s : State) (tile slot : Nat) (k : Strand) : (s.putAt tile slot k).cxlwin = s.cxlwin := by rfl
@[simp] theorem putAt_hgcfg (s : State) (tile slot : Nat) (k : Strand) : (s.putAt tile slot k).hgcfg = s.hgcfg := by rfl
@[simp] theorem putAt_errc (s : State) (tile slot : Nat) (k : Strand) : (s.putAt tile slot k).errc = s.errc := by rfl
@[simp] theorem putAt_snapreq (s : State) (tile slot : Nat) (k : Strand) : (s.putAt tile slot k).snapreq = s.snapreq := by rfl
@[simp] theorem putAt_fsnap (s : State) (tile slot : Nat) (k : Strand) : (s.putAt tile slot k).fsnap = s.fsnap := by rfl
@[simp] theorem putAt_pwrcap (s : State) (tile slot : Nat) (k : Strand) : (s.putAt tile slot k).pwrcap = s.pwrcap := by rfl
@[simp] theorem putAt_snapSeq (s : State) (tile slot : Nat) (k : Strand) : (s.putAt tile slot k).snapSeq = s.snapSeq := by rfl
@[simp] theorem putAt_snaps (s : State) (tile slot : Nat) (k : Strand) : (s.putAt tile slot k).snaps = s.snaps := by rfl
@[simp] theorem putAt_clocks (s : State) (tile slot : Nat) (k : Strand) : (s.putAt tile slot k).clocks = s.clocks := by rfl
@[simp] theorem putAt_hot (s : State) (tile slot : Nat) (k : Strand) : (s.putAt tile slot k).hot = s.hot := by rfl
@[simp] theorem putAt_boot (s : State) (tile slot : Nat) (k : Strand) : (s.putAt tile slot k).boot = s.boot := by rfl
@[simp] theorem putAt_lycelLog (s : State) (tile slot : Nat) (k : Strand) : (s.putAt tile slot k).lycelLog = s.lycelLog := by rfl
@[simp] theorem putAt_outbox (s : State) (tile slot : Nat) (k : Strand) : (s.putAt tile slot k).outbox = s.outbox := by rfl
@[simp] theorem putAt_gone (s : State) (tile slot : Nat) (k : Strand) : (s.putAt tile slot k).gone = s.gone := by rfl
@[simp] theorem putAt_fresh (s : State) (tile slot : Nat) (k : Strand) : (s.putAt tile slot k).fresh = s.fresh := by rfl
@[simp] theorem putAt_agenda (s : State) (tile slot : Nat) (k : Strand) : (s.putAt tile slot k).agenda = s.agenda := by rfl
@[simp] theorem putAt_focus (s : State) (tile slot : Nat) (k : Strand) : (s.putAt tile slot k).focus = s.focus := by rfl
@[simp] theorem putAt_enginePort (s : State) (tile slot : Nat) (k : Strand) : (s.putAt tile slot k).enginePort = s.enginePort := by rfl
@[simp] theorem putAt_mainUid (s : State) (tile slot : Nat) (k : Strand) : (s.putAt tile slot k).mainUid = s.mainUid := by rfl
@[simp] theorem putAt_at (s : State) (tile slot : Nat) (k : Strand) : (s.putAt tile slot k).at_ = s.at_ := by rfl
@[simp] theorem putAt_absent (s : State) (tile slot : Nat) (k : Strand) : (s.putAt tile slot k).absent = s.absent := by rfl

/-! ### put -/

@[simp] theorem put_mem (s : State) (k : Strand) : (s.put k).mem = s.mem := by rfl
@[simp] theorem put_live (s : State) (k : Strand) : (s.put k).live = s.live := by rfl
@[simp] theorem put_poison (s : State) (k : Strand) : (s.put k).poison = s.poison := by rfl
@[simp] theorem put_vtiles (s : State) (k : Strand) : (s.put k).vtiles = s.vtiles := by rfl
@[simp] theorem put_teams (s : State) (k : Strand) : (s.put k).teams = s.teams := by rfl
@[simp] theorem put_units (s : State) (k : Strand) : (s.put k).units = s.units := by rfl
@[simp] theorem put_tiles (s : State) (k : Strand) : (s.put k).tiles = s.tiles := by rfl
@[simp] theorem put_copies (s : State) (k : Strand) : (s.put k).copies = s.copies := by rfl
@[simp] theorem put_doneCopies (s : State) (k : Strand) : (s.put k).doneCopies = s.doneCopies := by rfl
@[simp] theorem put_landings (s : State) (k : Strand) : (s.put k).landings = s.landings := by rfl
@[simp] theorem put_incs (s : State) (k : Strand) : (s.put k).incs = s.incs := by rfl
@[simp] theorem put_amos (s : State) (k : Strand) : (s.put k).amos = s.amos := by rfl
@[simp] theorem put_fills (s : State) (k : Strand) : (s.put k).fills = s.fills := by rfl
@[simp] theorem put_reds (s : State) (k : Strand) : (s.put k).reds = s.reds := by rfl
@[simp] theorem put_stats (s : State) (k : Strand) : (s.put k).stats = s.stats := by rfl
@[simp] theorem put_remotes (s : State) (k : Strand) : (s.put k).remotes = s.remotes := by rfl
@[simp] theorem put_peerWork (s : State) (k : Strand) : (s.put k).peerWork = s.peerWork := by rfl
@[simp] theorem put_kept (s : State) (k : Strand) : (s.put k).kept = s.kept := by rfl
@[simp] theorem put_graphs (s : State) (k : Strand) : (s.put k).graphs = s.graphs := by rfl
@[simp] theorem put_runs (s : State) (k : Strand) : (s.put k).runs = s.runs := by rfl
@[simp] theorem put_staging (s : State) (k : Strand) : (s.put k).staging = s.staging := by rfl
@[simp] theorem put_vreports (s : State) (k : Strand) : (s.put k).vreports = s.vreports := by rfl
@[simp] theorem put_fencedGroups (s : State) (k : Strand) : (s.put k).fencedGroups = s.fencedGroups := by rfl
@[simp] theorem put_qslots (s : State) (k : Strand) : (s.put k).qslots = s.qslots := by rfl
@[simp] theorem put_pending (s : State) (k : Strand) : (s.put k).pending = s.pending := by rfl
@[simp] theorem put_doneRecs (s : State) (k : Strand) : (s.put k).doneRecs = s.doneRecs := by rfl
@[simp] theorem put_launches (s : State) (k : Strand) : (s.put k).launches = s.launches := by rfl
@[simp] theorem put_gangs (s : State) (k : Strand) : (s.put k).gangs = s.gangs := by rfl
@[simp] theorem put_served (s : State) (k : Strand) : (s.put k).served = s.served := by rfl
@[simp] theorem put_quads (s : State) (k : Strand) : (s.put k).quads = s.quads := by rfl
@[simp] theorem put_credits (s : State) (k : Strand) : (s.put k).credits = s.credits := by rfl
@[simp] theorem put_hops (s : State) (k : Strand) : (s.put k).hops = s.hops := by rfl
@[simp] theorem put_inbound (s : State) (k : Strand) : (s.put k).inbound = s.inbound := by rfl
@[simp] theorem put_bufs (s : State) (k : Strand) : (s.put k).bufs = s.bufs := by rfl
@[simp] theorem put_routes (s : State) (k : Strand) : (s.put k).routes = s.routes := by rfl
@[simp] theorem put_uec (s : State) (k : Strand) : (s.put k).uec = s.uec := by rfl
@[simp] theorem put_cycle (s : State) (k : Strand) : (s.put k).cycle = s.cycle := by rfl
@[simp] theorem put_cycleFrac (s : State) (k : Strand) : (s.put k).cycleFrac = s.cycleFrac := by rfl
@[simp] theorem put_dieCycle (s : State) (k : Strand) : (s.put k).dieCycle = s.dieCycle := by rfl
@[simp] theorem put_dieFrac (s : State) (k : Strand) : (s.put k).dieFrac = s.dieFrac := by rfl
@[simp] theorem put_podtime (s : State) (k : Strand) : (s.put k).podtime = s.podtime := by rfl
@[simp] theorem put_ptstat (s : State) (k : Strand) : (s.put k).ptstat = s.ptstat := by rfl
@[simp] theorem put_beacon (s : State) (k : Strand) : (s.put k).beacon = s.beacon := by rfl
@[simp] theorem put_beaconAt (s : State) (k : Strand) : (s.put k).beaconAt = s.beaconAt := by rfl
@[simp] theorem put_slew (s : State) (k : Strand) : (s.put k).slew = s.slew := by rfl
@[simp] theorem put_slewFrac (s : State) (k : Strand) : (s.put k).slewFrac = s.slewFrac := by rfl
@[simp] theorem put_image (s : State) (k : Strand) : (s.put k).image = s.image := by rfl
@[simp] theorem put_spare (s : State) (k : Strand) : (s.put k).spare = s.spare := by rfl
@[simp] theorem put_lostSite (s : State) (k : Strand) : (s.put k).lostSite = s.lostSite := by rfl
@[simp] theorem put_qdbase (s : State) (k : Strand) : (s.put k).qdbase = s.qdbase := by rfl
@[simp] theorem put_qdlen (s : State) (k : Strand) : (s.put k).qdlen = s.qdlen := by rfl
@[simp] theorem put_dtbase (s : State) (k : Strand) : (s.put k).dtbase = s.dtbase := by rfl
@[simp] theorem put_dlbase (s : State) (k : Strand) : (s.put k).dlbase = s.dlbase := by rfl
@[simp] theorem put_vacateReg (s : State) (k : Strand) : (s.put k).vacateReg = s.vacateReg := by rfl
@[simp] theorem put_orderReqs (s : State) (k : Strand) : (s.put k).orderReqs = s.orderReqs := by rfl
@[simp] theorem put_acolor (s : State) (k : Strand) : (s.put k).acolor = s.acolor := by rfl
@[simp] theorem put_quiesce (s : State) (k : Strand) : (s.put k).quiesce = s.quiesce := by rfl
@[simp] theorem put_quiesceSince (s : State) (k : Strand) : (s.put k).quiesceSince = s.quiesceSince := by rfl
@[simp] theorem put_qctl (s : State) (k : Strand) : (s.put k).qctl = s.qctl := by rfl
@[simp] theorem put_qorder (s : State) (k : Strand) : (s.put k).qorder = s.qorder := by rfl
@[simp] theorem put_portw (s : State) (k : Strand) : (s.put k).portw = s.portw := by rfl
@[simp] theorem put_cxlwin (s : State) (k : Strand) : (s.put k).cxlwin = s.cxlwin := by rfl
@[simp] theorem put_hgcfg (s : State) (k : Strand) : (s.put k).hgcfg = s.hgcfg := by rfl
@[simp] theorem put_errc (s : State) (k : Strand) : (s.put k).errc = s.errc := by rfl
@[simp] theorem put_snapreq (s : State) (k : Strand) : (s.put k).snapreq = s.snapreq := by rfl
@[simp] theorem put_fsnap (s : State) (k : Strand) : (s.put k).fsnap = s.fsnap := by rfl
@[simp] theorem put_pwrcap (s : State) (k : Strand) : (s.put k).pwrcap = s.pwrcap := by rfl
@[simp] theorem put_snapSeq (s : State) (k : Strand) : (s.put k).snapSeq = s.snapSeq := by rfl
@[simp] theorem put_snaps (s : State) (k : Strand) : (s.put k).snaps = s.snaps := by rfl
@[simp] theorem put_clocks (s : State) (k : Strand) : (s.put k).clocks = s.clocks := by rfl
@[simp] theorem put_hot (s : State) (k : Strand) : (s.put k).hot = s.hot := by rfl
@[simp] theorem put_boot (s : State) (k : Strand) : (s.put k).boot = s.boot := by rfl
@[simp] theorem put_lycelLog (s : State) (k : Strand) : (s.put k).lycelLog = s.lycelLog := by rfl
@[simp] theorem put_outbox (s : State) (k : Strand) : (s.put k).outbox = s.outbox := by rfl
@[simp] theorem put_gone (s : State) (k : Strand) : (s.put k).gone = s.gone := by rfl
@[simp] theorem put_fresh (s : State) (k : Strand) : (s.put k).fresh = s.fresh := by rfl
@[simp] theorem put_agenda (s : State) (k : Strand) : (s.put k).agenda = s.agenda := by rfl
@[simp] theorem put_focus (s : State) (k : Strand) : (s.put k).focus = s.focus := by rfl
@[simp] theorem put_enginePort (s : State) (k : Strand) : (s.put k).enginePort = s.enginePort := by rfl
@[simp] theorem put_mainUid (s : State) (k : Strand) : (s.put k).mainUid = s.mainUid := by rfl
@[simp] theorem put_at (s : State) (k : Strand) : (s.put k).at_ = s.at_ := by rfl
@[simp] theorem put_absent (s : State) (k : Strand) : (s.put k).absent = s.absent := by rfl

/-! ### dropAt -/

@[simp] theorem dropAt_mem (s : State) (tile slot : Nat) : (s.dropAt tile slot).mem = s.mem := by rfl
@[simp] theorem dropAt_live (s : State) (tile slot : Nat) : (s.dropAt tile slot).live = s.live := by rfl
@[simp] theorem dropAt_poison (s : State) (tile slot : Nat) : (s.dropAt tile slot).poison = s.poison := by rfl
@[simp] theorem dropAt_vtiles (s : State) (tile slot : Nat) : (s.dropAt tile slot).vtiles = s.vtiles := by rfl
@[simp] theorem dropAt_teams (s : State) (tile slot : Nat) : (s.dropAt tile slot).teams = s.teams := by rfl
@[simp] theorem dropAt_units (s : State) (tile slot : Nat) : (s.dropAt tile slot).units = s.units := by rfl
@[simp] theorem dropAt_tiles (s : State) (tile slot : Nat) : (s.dropAt tile slot).tiles = s.tiles := by rfl
@[simp] theorem dropAt_copies (s : State) (tile slot : Nat) : (s.dropAt tile slot).copies = s.copies := by rfl
@[simp] theorem dropAt_doneCopies (s : State) (tile slot : Nat) : (s.dropAt tile slot).doneCopies = s.doneCopies := by rfl
@[simp] theorem dropAt_landings (s : State) (tile slot : Nat) : (s.dropAt tile slot).landings = s.landings := by rfl
@[simp] theorem dropAt_incs (s : State) (tile slot : Nat) : (s.dropAt tile slot).incs = s.incs := by rfl
@[simp] theorem dropAt_amos (s : State) (tile slot : Nat) : (s.dropAt tile slot).amos = s.amos := by rfl
@[simp] theorem dropAt_fills (s : State) (tile slot : Nat) : (s.dropAt tile slot).fills = s.fills := by rfl
@[simp] theorem dropAt_reds (s : State) (tile slot : Nat) : (s.dropAt tile slot).reds = s.reds := by rfl
@[simp] theorem dropAt_stats (s : State) (tile slot : Nat) : (s.dropAt tile slot).stats = s.stats := by rfl
@[simp] theorem dropAt_remotes (s : State) (tile slot : Nat) : (s.dropAt tile slot).remotes = s.remotes := by rfl
@[simp] theorem dropAt_peerWork (s : State) (tile slot : Nat) : (s.dropAt tile slot).peerWork = s.peerWork := by rfl
@[simp] theorem dropAt_kept (s : State) (tile slot : Nat) : (s.dropAt tile slot).kept = s.kept := by rfl
@[simp] theorem dropAt_graphs (s : State) (tile slot : Nat) : (s.dropAt tile slot).graphs = s.graphs := by rfl
@[simp] theorem dropAt_runs (s : State) (tile slot : Nat) : (s.dropAt tile slot).runs = s.runs := by rfl
@[simp] theorem dropAt_staging (s : State) (tile slot : Nat) : (s.dropAt tile slot).staging = s.staging := by rfl
@[simp] theorem dropAt_vreports (s : State) (tile slot : Nat) : (s.dropAt tile slot).vreports = s.vreports := by rfl
@[simp] theorem dropAt_fencedGroups (s : State) (tile slot : Nat) : (s.dropAt tile slot).fencedGroups = s.fencedGroups := by rfl
@[simp] theorem dropAt_qslots (s : State) (tile slot : Nat) : (s.dropAt tile slot).qslots = s.qslots := by rfl
@[simp] theorem dropAt_pending (s : State) (tile slot : Nat) : (s.dropAt tile slot).pending = s.pending := by rfl
@[simp] theorem dropAt_doneRecs (s : State) (tile slot : Nat) : (s.dropAt tile slot).doneRecs = s.doneRecs := by rfl
@[simp] theorem dropAt_launches (s : State) (tile slot : Nat) : (s.dropAt tile slot).launches = s.launches := by rfl
@[simp] theorem dropAt_gangs (s : State) (tile slot : Nat) : (s.dropAt tile slot).gangs = s.gangs := by rfl
@[simp] theorem dropAt_served (s : State) (tile slot : Nat) : (s.dropAt tile slot).served = s.served := by rfl
@[simp] theorem dropAt_quads (s : State) (tile slot : Nat) : (s.dropAt tile slot).quads = s.quads := by rfl
@[simp] theorem dropAt_credits (s : State) (tile slot : Nat) : (s.dropAt tile slot).credits = s.credits := by rfl
@[simp] theorem dropAt_hops (s : State) (tile slot : Nat) : (s.dropAt tile slot).hops = s.hops := by rfl
@[simp] theorem dropAt_inbound (s : State) (tile slot : Nat) : (s.dropAt tile slot).inbound = s.inbound := by rfl
@[simp] theorem dropAt_bufs (s : State) (tile slot : Nat) : (s.dropAt tile slot).bufs = s.bufs := by rfl
@[simp] theorem dropAt_routes (s : State) (tile slot : Nat) : (s.dropAt tile slot).routes = s.routes := by rfl
@[simp] theorem dropAt_uec (s : State) (tile slot : Nat) : (s.dropAt tile slot).uec = s.uec := by rfl
@[simp] theorem dropAt_cycle (s : State) (tile slot : Nat) : (s.dropAt tile slot).cycle = s.cycle := by rfl
@[simp] theorem dropAt_cycleFrac (s : State) (tile slot : Nat) : (s.dropAt tile slot).cycleFrac = s.cycleFrac := by rfl
@[simp] theorem dropAt_dieCycle (s : State) (tile slot : Nat) : (s.dropAt tile slot).dieCycle = s.dieCycle := by rfl
@[simp] theorem dropAt_dieFrac (s : State) (tile slot : Nat) : (s.dropAt tile slot).dieFrac = s.dieFrac := by rfl
@[simp] theorem dropAt_podtime (s : State) (tile slot : Nat) : (s.dropAt tile slot).podtime = s.podtime := by rfl
@[simp] theorem dropAt_ptstat (s : State) (tile slot : Nat) : (s.dropAt tile slot).ptstat = s.ptstat := by rfl
@[simp] theorem dropAt_beacon (s : State) (tile slot : Nat) : (s.dropAt tile slot).beacon = s.beacon := by rfl
@[simp] theorem dropAt_beaconAt (s : State) (tile slot : Nat) : (s.dropAt tile slot).beaconAt = s.beaconAt := by rfl
@[simp] theorem dropAt_slew (s : State) (tile slot : Nat) : (s.dropAt tile slot).slew = s.slew := by rfl
@[simp] theorem dropAt_slewFrac (s : State) (tile slot : Nat) : (s.dropAt tile slot).slewFrac = s.slewFrac := by rfl
@[simp] theorem dropAt_image (s : State) (tile slot : Nat) : (s.dropAt tile slot).image = s.image := by rfl
@[simp] theorem dropAt_spare (s : State) (tile slot : Nat) : (s.dropAt tile slot).spare = s.spare := by rfl
@[simp] theorem dropAt_lostSite (s : State) (tile slot : Nat) : (s.dropAt tile slot).lostSite = s.lostSite := by rfl
@[simp] theorem dropAt_qdbase (s : State) (tile slot : Nat) : (s.dropAt tile slot).qdbase = s.qdbase := by rfl
@[simp] theorem dropAt_qdlen (s : State) (tile slot : Nat) : (s.dropAt tile slot).qdlen = s.qdlen := by rfl
@[simp] theorem dropAt_dtbase (s : State) (tile slot : Nat) : (s.dropAt tile slot).dtbase = s.dtbase := by rfl
@[simp] theorem dropAt_dlbase (s : State) (tile slot : Nat) : (s.dropAt tile slot).dlbase = s.dlbase := by rfl
@[simp] theorem dropAt_vacateReg (s : State) (tile slot : Nat) : (s.dropAt tile slot).vacateReg = s.vacateReg := by rfl
@[simp] theorem dropAt_orderReqs (s : State) (tile slot : Nat) : (s.dropAt tile slot).orderReqs = s.orderReqs := by rfl
@[simp] theorem dropAt_acolor (s : State) (tile slot : Nat) : (s.dropAt tile slot).acolor = s.acolor := by rfl
@[simp] theorem dropAt_quiesce (s : State) (tile slot : Nat) : (s.dropAt tile slot).quiesce = s.quiesce := by rfl
@[simp] theorem dropAt_quiesceSince (s : State) (tile slot : Nat) : (s.dropAt tile slot).quiesceSince = s.quiesceSince := by rfl
@[simp] theorem dropAt_qctl (s : State) (tile slot : Nat) : (s.dropAt tile slot).qctl = s.qctl := by rfl
@[simp] theorem dropAt_qorder (s : State) (tile slot : Nat) : (s.dropAt tile slot).qorder = s.qorder := by rfl
@[simp] theorem dropAt_portw (s : State) (tile slot : Nat) : (s.dropAt tile slot).portw = s.portw := by rfl
@[simp] theorem dropAt_cxlwin (s : State) (tile slot : Nat) : (s.dropAt tile slot).cxlwin = s.cxlwin := by rfl
@[simp] theorem dropAt_hgcfg (s : State) (tile slot : Nat) : (s.dropAt tile slot).hgcfg = s.hgcfg := by rfl
@[simp] theorem dropAt_errc (s : State) (tile slot : Nat) : (s.dropAt tile slot).errc = s.errc := by rfl
@[simp] theorem dropAt_snapreq (s : State) (tile slot : Nat) : (s.dropAt tile slot).snapreq = s.snapreq := by rfl
@[simp] theorem dropAt_fsnap (s : State) (tile slot : Nat) : (s.dropAt tile slot).fsnap = s.fsnap := by rfl
@[simp] theorem dropAt_pwrcap (s : State) (tile slot : Nat) : (s.dropAt tile slot).pwrcap = s.pwrcap := by rfl
@[simp] theorem dropAt_snapSeq (s : State) (tile slot : Nat) : (s.dropAt tile slot).snapSeq = s.snapSeq := by rfl
@[simp] theorem dropAt_snaps (s : State) (tile slot : Nat) : (s.dropAt tile slot).snaps = s.snaps := by rfl
@[simp] theorem dropAt_clocks (s : State) (tile slot : Nat) : (s.dropAt tile slot).clocks = s.clocks := by rfl
@[simp] theorem dropAt_hot (s : State) (tile slot : Nat) : (s.dropAt tile slot).hot = s.hot := by rfl
@[simp] theorem dropAt_boot (s : State) (tile slot : Nat) : (s.dropAt tile slot).boot = s.boot := by rfl
@[simp] theorem dropAt_lycelLog (s : State) (tile slot : Nat) : (s.dropAt tile slot).lycelLog = s.lycelLog := by rfl
@[simp] theorem dropAt_outbox (s : State) (tile slot : Nat) : (s.dropAt tile slot).outbox = s.outbox := by rfl
@[simp] theorem dropAt_gone (s : State) (tile slot : Nat) : (s.dropAt tile slot).gone = s.gone := by rfl
@[simp] theorem dropAt_fresh (s : State) (tile slot : Nat) : (s.dropAt tile slot).fresh = s.fresh := by rfl
@[simp] theorem dropAt_agenda (s : State) (tile slot : Nat) : (s.dropAt tile slot).agenda = s.agenda := by rfl
@[simp] theorem dropAt_focus (s : State) (tile slot : Nat) : (s.dropAt tile slot).focus = s.focus := by rfl
@[simp] theorem dropAt_enginePort (s : State) (tile slot : Nat) : (s.dropAt tile slot).enginePort = s.enginePort := by rfl
@[simp] theorem dropAt_mainUid (s : State) (tile slot : Nat) : (s.dropAt tile slot).mainUid = s.mainUid := by rfl
@[simp] theorem dropAt_at (s : State) (tile slot : Nat) : (s.dropAt tile slot).at_ = s.at_ := by rfl
@[simp] theorem dropAt_absent (s : State) (tile slot : Nat) : (s.dropAt tile slot).absent = s.absent := by rfl

/-! ### putTeam -/

@[simp] theorem putTeam_mem (s : State) (id : Nat) (t : Team) : (s.putTeam id t).mem = s.mem := by rfl
@[simp] theorem putTeam_live (s : State) (id : Nat) (t : Team) : (s.putTeam id t).live = s.live := by rfl
@[simp] theorem putTeam_poison (s : State) (id : Nat) (t : Team) : (s.putTeam id t).poison = s.poison := by rfl
@[simp] theorem putTeam_strands (s : State) (id : Nat) (t : Team) : (s.putTeam id t).strands = s.strands := by rfl
@[simp] theorem putTeam_vtiles (s : State) (id : Nat) (t : Team) : (s.putTeam id t).vtiles = s.vtiles := by rfl
@[simp] theorem putTeam_units (s : State) (id : Nat) (t : Team) : (s.putTeam id t).units = s.units := by rfl
@[simp] theorem putTeam_tiles (s : State) (id : Nat) (t : Team) : (s.putTeam id t).tiles = s.tiles := by rfl
@[simp] theorem putTeam_copies (s : State) (id : Nat) (t : Team) : (s.putTeam id t).copies = s.copies := by rfl
@[simp] theorem putTeam_doneCopies (s : State) (id : Nat) (t : Team) : (s.putTeam id t).doneCopies = s.doneCopies := by rfl
@[simp] theorem putTeam_landings (s : State) (id : Nat) (t : Team) : (s.putTeam id t).landings = s.landings := by rfl
@[simp] theorem putTeam_incs (s : State) (id : Nat) (t : Team) : (s.putTeam id t).incs = s.incs := by rfl
@[simp] theorem putTeam_amos (s : State) (id : Nat) (t : Team) : (s.putTeam id t).amos = s.amos := by rfl
@[simp] theorem putTeam_fills (s : State) (id : Nat) (t : Team) : (s.putTeam id t).fills = s.fills := by rfl
@[simp] theorem putTeam_reds (s : State) (id : Nat) (t : Team) : (s.putTeam id t).reds = s.reds := by rfl
@[simp] theorem putTeam_stats (s : State) (id : Nat) (t : Team) : (s.putTeam id t).stats = s.stats := by rfl
@[simp] theorem putTeam_remotes (s : State) (id : Nat) (t : Team) : (s.putTeam id t).remotes = s.remotes := by rfl
@[simp] theorem putTeam_peerWork (s : State) (id : Nat) (t : Team) : (s.putTeam id t).peerWork = s.peerWork := by rfl
@[simp] theorem putTeam_kept (s : State) (id : Nat) (t : Team) : (s.putTeam id t).kept = s.kept := by rfl
@[simp] theorem putTeam_graphs (s : State) (id : Nat) (t : Team) : (s.putTeam id t).graphs = s.graphs := by rfl
@[simp] theorem putTeam_runs (s : State) (id : Nat) (t : Team) : (s.putTeam id t).runs = s.runs := by rfl
@[simp] theorem putTeam_staging (s : State) (id : Nat) (t : Team) : (s.putTeam id t).staging = s.staging := by rfl
@[simp] theorem putTeam_vreports (s : State) (id : Nat) (t : Team) : (s.putTeam id t).vreports = s.vreports := by rfl
@[simp] theorem putTeam_fencedGroups (s : State) (id : Nat) (t : Team) : (s.putTeam id t).fencedGroups = s.fencedGroups := by rfl
@[simp] theorem putTeam_qslots (s : State) (id : Nat) (t : Team) : (s.putTeam id t).qslots = s.qslots := by rfl
@[simp] theorem putTeam_pending (s : State) (id : Nat) (t : Team) : (s.putTeam id t).pending = s.pending := by rfl
@[simp] theorem putTeam_doneRecs (s : State) (id : Nat) (t : Team) : (s.putTeam id t).doneRecs = s.doneRecs := by rfl
@[simp] theorem putTeam_launches (s : State) (id : Nat) (t : Team) : (s.putTeam id t).launches = s.launches := by rfl
@[simp] theorem putTeam_gangs (s : State) (id : Nat) (t : Team) : (s.putTeam id t).gangs = s.gangs := by rfl
@[simp] theorem putTeam_served (s : State) (id : Nat) (t : Team) : (s.putTeam id t).served = s.served := by rfl
@[simp] theorem putTeam_quads (s : State) (id : Nat) (t : Team) : (s.putTeam id t).quads = s.quads := by rfl
@[simp] theorem putTeam_credits (s : State) (id : Nat) (t : Team) : (s.putTeam id t).credits = s.credits := by rfl
@[simp] theorem putTeam_hops (s : State) (id : Nat) (t : Team) : (s.putTeam id t).hops = s.hops := by rfl
@[simp] theorem putTeam_inbound (s : State) (id : Nat) (t : Team) : (s.putTeam id t).inbound = s.inbound := by rfl
@[simp] theorem putTeam_bufs (s : State) (id : Nat) (t : Team) : (s.putTeam id t).bufs = s.bufs := by rfl
@[simp] theorem putTeam_routes (s : State) (id : Nat) (t : Team) : (s.putTeam id t).routes = s.routes := by rfl
@[simp] theorem putTeam_uec (s : State) (id : Nat) (t : Team) : (s.putTeam id t).uec = s.uec := by rfl
@[simp] theorem putTeam_cycle (s : State) (id : Nat) (t : Team) : (s.putTeam id t).cycle = s.cycle := by rfl
@[simp] theorem putTeam_cycleFrac (s : State) (id : Nat) (t : Team) : (s.putTeam id t).cycleFrac = s.cycleFrac := by rfl
@[simp] theorem putTeam_dieCycle (s : State) (id : Nat) (t : Team) : (s.putTeam id t).dieCycle = s.dieCycle := by rfl
@[simp] theorem putTeam_dieFrac (s : State) (id : Nat) (t : Team) : (s.putTeam id t).dieFrac = s.dieFrac := by rfl
@[simp] theorem putTeam_podtime (s : State) (id : Nat) (t : Team) : (s.putTeam id t).podtime = s.podtime := by rfl
@[simp] theorem putTeam_ptstat (s : State) (id : Nat) (t : Team) : (s.putTeam id t).ptstat = s.ptstat := by rfl
@[simp] theorem putTeam_beacon (s : State) (id : Nat) (t : Team) : (s.putTeam id t).beacon = s.beacon := by rfl
@[simp] theorem putTeam_beaconAt (s : State) (id : Nat) (t : Team) : (s.putTeam id t).beaconAt = s.beaconAt := by rfl
@[simp] theorem putTeam_slew (s : State) (id : Nat) (t : Team) : (s.putTeam id t).slew = s.slew := by rfl
@[simp] theorem putTeam_slewFrac (s : State) (id : Nat) (t : Team) : (s.putTeam id t).slewFrac = s.slewFrac := by rfl
@[simp] theorem putTeam_image (s : State) (id : Nat) (t : Team) : (s.putTeam id t).image = s.image := by rfl
@[simp] theorem putTeam_spare (s : State) (id : Nat) (t : Team) : (s.putTeam id t).spare = s.spare := by rfl
@[simp] theorem putTeam_lostSite (s : State) (id : Nat) (t : Team) : (s.putTeam id t).lostSite = s.lostSite := by rfl
@[simp] theorem putTeam_qdbase (s : State) (id : Nat) (t : Team) : (s.putTeam id t).qdbase = s.qdbase := by rfl
@[simp] theorem putTeam_qdlen (s : State) (id : Nat) (t : Team) : (s.putTeam id t).qdlen = s.qdlen := by rfl
@[simp] theorem putTeam_dtbase (s : State) (id : Nat) (t : Team) : (s.putTeam id t).dtbase = s.dtbase := by rfl
@[simp] theorem putTeam_dlbase (s : State) (id : Nat) (t : Team) : (s.putTeam id t).dlbase = s.dlbase := by rfl
@[simp] theorem putTeam_vacateReg (s : State) (id : Nat) (t : Team) : (s.putTeam id t).vacateReg = s.vacateReg := by rfl
@[simp] theorem putTeam_orderReqs (s : State) (id : Nat) (t : Team) : (s.putTeam id t).orderReqs = s.orderReqs := by rfl
@[simp] theorem putTeam_acolor (s : State) (id : Nat) (t : Team) : (s.putTeam id t).acolor = s.acolor := by rfl
@[simp] theorem putTeam_quiesce (s : State) (id : Nat) (t : Team) : (s.putTeam id t).quiesce = s.quiesce := by rfl
@[simp] theorem putTeam_quiesceSince (s : State) (id : Nat) (t : Team) : (s.putTeam id t).quiesceSince = s.quiesceSince := by rfl
@[simp] theorem putTeam_qctl (s : State) (id : Nat) (t : Team) : (s.putTeam id t).qctl = s.qctl := by rfl
@[simp] theorem putTeam_qorder (s : State) (id : Nat) (t : Team) : (s.putTeam id t).qorder = s.qorder := by rfl
@[simp] theorem putTeam_portw (s : State) (id : Nat) (t : Team) : (s.putTeam id t).portw = s.portw := by rfl
@[simp] theorem putTeam_cxlwin (s : State) (id : Nat) (t : Team) : (s.putTeam id t).cxlwin = s.cxlwin := by rfl
@[simp] theorem putTeam_hgcfg (s : State) (id : Nat) (t : Team) : (s.putTeam id t).hgcfg = s.hgcfg := by rfl
@[simp] theorem putTeam_errc (s : State) (id : Nat) (t : Team) : (s.putTeam id t).errc = s.errc := by rfl
@[simp] theorem putTeam_snapreq (s : State) (id : Nat) (t : Team) : (s.putTeam id t).snapreq = s.snapreq := by rfl
@[simp] theorem putTeam_fsnap (s : State) (id : Nat) (t : Team) : (s.putTeam id t).fsnap = s.fsnap := by rfl
@[simp] theorem putTeam_pwrcap (s : State) (id : Nat) (t : Team) : (s.putTeam id t).pwrcap = s.pwrcap := by rfl
@[simp] theorem putTeam_snapSeq (s : State) (id : Nat) (t : Team) : (s.putTeam id t).snapSeq = s.snapSeq := by rfl
@[simp] theorem putTeam_snaps (s : State) (id : Nat) (t : Team) : (s.putTeam id t).snaps = s.snaps := by rfl
@[simp] theorem putTeam_clocks (s : State) (id : Nat) (t : Team) : (s.putTeam id t).clocks = s.clocks := by rfl
@[simp] theorem putTeam_hot (s : State) (id : Nat) (t : Team) : (s.putTeam id t).hot = s.hot := by rfl
@[simp] theorem putTeam_boot (s : State) (id : Nat) (t : Team) : (s.putTeam id t).boot = s.boot := by rfl
@[simp] theorem putTeam_lycelLog (s : State) (id : Nat) (t : Team) : (s.putTeam id t).lycelLog = s.lycelLog := by rfl
@[simp] theorem putTeam_outbox (s : State) (id : Nat) (t : Team) : (s.putTeam id t).outbox = s.outbox := by rfl
@[simp] theorem putTeam_gone (s : State) (id : Nat) (t : Team) : (s.putTeam id t).gone = s.gone := by rfl
@[simp] theorem putTeam_fresh (s : State) (id : Nat) (t : Team) : (s.putTeam id t).fresh = s.fresh := by rfl
@[simp] theorem putTeam_agenda (s : State) (id : Nat) (t : Team) : (s.putTeam id t).agenda = s.agenda := by rfl
@[simp] theorem putTeam_focus (s : State) (id : Nat) (t : Team) : (s.putTeam id t).focus = s.focus := by rfl
@[simp] theorem putTeam_enginePort (s : State) (id : Nat) (t : Team) : (s.putTeam id t).enginePort = s.enginePort := by rfl
@[simp] theorem putTeam_mainUid (s : State) (id : Nat) (t : Team) : (s.putTeam id t).mainUid = s.mainUid := by rfl
@[simp] theorem putTeam_at (s : State) (id : Nat) (t : Team) : (s.putTeam id t).at_ = s.at_ := by rfl
@[simp] theorem putTeam_absent (s : State) (id : Nat) (t : Team) : (s.putTeam id t).absent = s.absent := by rfl

/-! ### putVtile -/

@[simp] theorem putVtile_mem (s : State) (id lr : Nat) (v : Vtile) : (s.putVtile id lr v).mem = s.mem := by rfl
@[simp] theorem putVtile_live (s : State) (id lr : Nat) (v : Vtile) : (s.putVtile id lr v).live = s.live := by rfl
@[simp] theorem putVtile_poison (s : State) (id lr : Nat) (v : Vtile) : (s.putVtile id lr v).poison = s.poison := by rfl
@[simp] theorem putVtile_strands (s : State) (id lr : Nat) (v : Vtile) : (s.putVtile id lr v).strands = s.strands := by rfl
@[simp] theorem putVtile_teams (s : State) (id lr : Nat) (v : Vtile) : (s.putVtile id lr v).teams = s.teams := by rfl
@[simp] theorem putVtile_units (s : State) (id lr : Nat) (v : Vtile) : (s.putVtile id lr v).units = s.units := by rfl
@[simp] theorem putVtile_tiles (s : State) (id lr : Nat) (v : Vtile) : (s.putVtile id lr v).tiles = s.tiles := by rfl
@[simp] theorem putVtile_copies (s : State) (id lr : Nat) (v : Vtile) : (s.putVtile id lr v).copies = s.copies := by rfl
@[simp] theorem putVtile_doneCopies (s : State) (id lr : Nat) (v : Vtile) : (s.putVtile id lr v).doneCopies = s.doneCopies := by rfl
@[simp] theorem putVtile_landings (s : State) (id lr : Nat) (v : Vtile) : (s.putVtile id lr v).landings = s.landings := by rfl
@[simp] theorem putVtile_incs (s : State) (id lr : Nat) (v : Vtile) : (s.putVtile id lr v).incs = s.incs := by rfl
@[simp] theorem putVtile_amos (s : State) (id lr : Nat) (v : Vtile) : (s.putVtile id lr v).amos = s.amos := by rfl
@[simp] theorem putVtile_fills (s : State) (id lr : Nat) (v : Vtile) : (s.putVtile id lr v).fills = s.fills := by rfl
@[simp] theorem putVtile_reds (s : State) (id lr : Nat) (v : Vtile) : (s.putVtile id lr v).reds = s.reds := by rfl
@[simp] theorem putVtile_stats (s : State) (id lr : Nat) (v : Vtile) : (s.putVtile id lr v).stats = s.stats := by rfl
@[simp] theorem putVtile_remotes (s : State) (id lr : Nat) (v : Vtile) : (s.putVtile id lr v).remotes = s.remotes := by rfl
@[simp] theorem putVtile_peerWork (s : State) (id lr : Nat) (v : Vtile) : (s.putVtile id lr v).peerWork = s.peerWork := by rfl
@[simp] theorem putVtile_kept (s : State) (id lr : Nat) (v : Vtile) : (s.putVtile id lr v).kept = s.kept := by rfl
@[simp] theorem putVtile_graphs (s : State) (id lr : Nat) (v : Vtile) : (s.putVtile id lr v).graphs = s.graphs := by rfl
@[simp] theorem putVtile_runs (s : State) (id lr : Nat) (v : Vtile) : (s.putVtile id lr v).runs = s.runs := by rfl
@[simp] theorem putVtile_staging (s : State) (id lr : Nat) (v : Vtile) : (s.putVtile id lr v).staging = s.staging := by rfl
@[simp] theorem putVtile_vreports (s : State) (id lr : Nat) (v : Vtile) : (s.putVtile id lr v).vreports = s.vreports := by rfl
@[simp] theorem putVtile_fencedGroups (s : State) (id lr : Nat) (v : Vtile) : (s.putVtile id lr v).fencedGroups = s.fencedGroups := by rfl
@[simp] theorem putVtile_qslots (s : State) (id lr : Nat) (v : Vtile) : (s.putVtile id lr v).qslots = s.qslots := by rfl
@[simp] theorem putVtile_pending (s : State) (id lr : Nat) (v : Vtile) : (s.putVtile id lr v).pending = s.pending := by rfl
@[simp] theorem putVtile_doneRecs (s : State) (id lr : Nat) (v : Vtile) : (s.putVtile id lr v).doneRecs = s.doneRecs := by rfl
@[simp] theorem putVtile_launches (s : State) (id lr : Nat) (v : Vtile) : (s.putVtile id lr v).launches = s.launches := by rfl
@[simp] theorem putVtile_gangs (s : State) (id lr : Nat) (v : Vtile) : (s.putVtile id lr v).gangs = s.gangs := by rfl
@[simp] theorem putVtile_served (s : State) (id lr : Nat) (v : Vtile) : (s.putVtile id lr v).served = s.served := by rfl
@[simp] theorem putVtile_quads (s : State) (id lr : Nat) (v : Vtile) : (s.putVtile id lr v).quads = s.quads := by rfl
@[simp] theorem putVtile_credits (s : State) (id lr : Nat) (v : Vtile) : (s.putVtile id lr v).credits = s.credits := by rfl
@[simp] theorem putVtile_hops (s : State) (id lr : Nat) (v : Vtile) : (s.putVtile id lr v).hops = s.hops := by rfl
@[simp] theorem putVtile_inbound (s : State) (id lr : Nat) (v : Vtile) : (s.putVtile id lr v).inbound = s.inbound := by rfl
@[simp] theorem putVtile_bufs (s : State) (id lr : Nat) (v : Vtile) : (s.putVtile id lr v).bufs = s.bufs := by rfl
@[simp] theorem putVtile_routes (s : State) (id lr : Nat) (v : Vtile) : (s.putVtile id lr v).routes = s.routes := by rfl
@[simp] theorem putVtile_uec (s : State) (id lr : Nat) (v : Vtile) : (s.putVtile id lr v).uec = s.uec := by rfl
@[simp] theorem putVtile_cycle (s : State) (id lr : Nat) (v : Vtile) : (s.putVtile id lr v).cycle = s.cycle := by rfl
@[simp] theorem putVtile_cycleFrac (s : State) (id lr : Nat) (v : Vtile) : (s.putVtile id lr v).cycleFrac = s.cycleFrac := by rfl
@[simp] theorem putVtile_dieCycle (s : State) (id lr : Nat) (v : Vtile) : (s.putVtile id lr v).dieCycle = s.dieCycle := by rfl
@[simp] theorem putVtile_dieFrac (s : State) (id lr : Nat) (v : Vtile) : (s.putVtile id lr v).dieFrac = s.dieFrac := by rfl
@[simp] theorem putVtile_podtime (s : State) (id lr : Nat) (v : Vtile) : (s.putVtile id lr v).podtime = s.podtime := by rfl
@[simp] theorem putVtile_ptstat (s : State) (id lr : Nat) (v : Vtile) : (s.putVtile id lr v).ptstat = s.ptstat := by rfl
@[simp] theorem putVtile_beacon (s : State) (id lr : Nat) (v : Vtile) : (s.putVtile id lr v).beacon = s.beacon := by rfl
@[simp] theorem putVtile_beaconAt (s : State) (id lr : Nat) (v : Vtile) : (s.putVtile id lr v).beaconAt = s.beaconAt := by rfl
@[simp] theorem putVtile_slew (s : State) (id lr : Nat) (v : Vtile) : (s.putVtile id lr v).slew = s.slew := by rfl
@[simp] theorem putVtile_slewFrac (s : State) (id lr : Nat) (v : Vtile) : (s.putVtile id lr v).slewFrac = s.slewFrac := by rfl
@[simp] theorem putVtile_image (s : State) (id lr : Nat) (v : Vtile) : (s.putVtile id lr v).image = s.image := by rfl
@[simp] theorem putVtile_spare (s : State) (id lr : Nat) (v : Vtile) : (s.putVtile id lr v).spare = s.spare := by rfl
@[simp] theorem putVtile_lostSite (s : State) (id lr : Nat) (v : Vtile) : (s.putVtile id lr v).lostSite = s.lostSite := by rfl
@[simp] theorem putVtile_qdbase (s : State) (id lr : Nat) (v : Vtile) : (s.putVtile id lr v).qdbase = s.qdbase := by rfl
@[simp] theorem putVtile_qdlen (s : State) (id lr : Nat) (v : Vtile) : (s.putVtile id lr v).qdlen = s.qdlen := by rfl
@[simp] theorem putVtile_dtbase (s : State) (id lr : Nat) (v : Vtile) : (s.putVtile id lr v).dtbase = s.dtbase := by rfl
@[simp] theorem putVtile_dlbase (s : State) (id lr : Nat) (v : Vtile) : (s.putVtile id lr v).dlbase = s.dlbase := by rfl
@[simp] theorem putVtile_vacateReg (s : State) (id lr : Nat) (v : Vtile) : (s.putVtile id lr v).vacateReg = s.vacateReg := by rfl
@[simp] theorem putVtile_orderReqs (s : State) (id lr : Nat) (v : Vtile) : (s.putVtile id lr v).orderReqs = s.orderReqs := by rfl
@[simp] theorem putVtile_acolor (s : State) (id lr : Nat) (v : Vtile) : (s.putVtile id lr v).acolor = s.acolor := by rfl
@[simp] theorem putVtile_quiesce (s : State) (id lr : Nat) (v : Vtile) : (s.putVtile id lr v).quiesce = s.quiesce := by rfl
@[simp] theorem putVtile_quiesceSince (s : State) (id lr : Nat) (v : Vtile) : (s.putVtile id lr v).quiesceSince = s.quiesceSince := by rfl
@[simp] theorem putVtile_qctl (s : State) (id lr : Nat) (v : Vtile) : (s.putVtile id lr v).qctl = s.qctl := by rfl
@[simp] theorem putVtile_qorder (s : State) (id lr : Nat) (v : Vtile) : (s.putVtile id lr v).qorder = s.qorder := by rfl
@[simp] theorem putVtile_portw (s : State) (id lr : Nat) (v : Vtile) : (s.putVtile id lr v).portw = s.portw := by rfl
@[simp] theorem putVtile_cxlwin (s : State) (id lr : Nat) (v : Vtile) : (s.putVtile id lr v).cxlwin = s.cxlwin := by rfl
@[simp] theorem putVtile_hgcfg (s : State) (id lr : Nat) (v : Vtile) : (s.putVtile id lr v).hgcfg = s.hgcfg := by rfl
@[simp] theorem putVtile_errc (s : State) (id lr : Nat) (v : Vtile) : (s.putVtile id lr v).errc = s.errc := by rfl
@[simp] theorem putVtile_snapreq (s : State) (id lr : Nat) (v : Vtile) : (s.putVtile id lr v).snapreq = s.snapreq := by rfl
@[simp] theorem putVtile_fsnap (s : State) (id lr : Nat) (v : Vtile) : (s.putVtile id lr v).fsnap = s.fsnap := by rfl
@[simp] theorem putVtile_pwrcap (s : State) (id lr : Nat) (v : Vtile) : (s.putVtile id lr v).pwrcap = s.pwrcap := by rfl
@[simp] theorem putVtile_snapSeq (s : State) (id lr : Nat) (v : Vtile) : (s.putVtile id lr v).snapSeq = s.snapSeq := by rfl
@[simp] theorem putVtile_snaps (s : State) (id lr : Nat) (v : Vtile) : (s.putVtile id lr v).snaps = s.snaps := by rfl
@[simp] theorem putVtile_clocks (s : State) (id lr : Nat) (v : Vtile) : (s.putVtile id lr v).clocks = s.clocks := by rfl
@[simp] theorem putVtile_hot (s : State) (id lr : Nat) (v : Vtile) : (s.putVtile id lr v).hot = s.hot := by rfl
@[simp] theorem putVtile_boot (s : State) (id lr : Nat) (v : Vtile) : (s.putVtile id lr v).boot = s.boot := by rfl
@[simp] theorem putVtile_lycelLog (s : State) (id lr : Nat) (v : Vtile) : (s.putVtile id lr v).lycelLog = s.lycelLog := by rfl
@[simp] theorem putVtile_outbox (s : State) (id lr : Nat) (v : Vtile) : (s.putVtile id lr v).outbox = s.outbox := by rfl
@[simp] theorem putVtile_gone (s : State) (id lr : Nat) (v : Vtile) : (s.putVtile id lr v).gone = s.gone := by rfl
@[simp] theorem putVtile_fresh (s : State) (id lr : Nat) (v : Vtile) : (s.putVtile id lr v).fresh = s.fresh := by rfl
@[simp] theorem putVtile_agenda (s : State) (id lr : Nat) (v : Vtile) : (s.putVtile id lr v).agenda = s.agenda := by rfl
@[simp] theorem putVtile_focus (s : State) (id lr : Nat) (v : Vtile) : (s.putVtile id lr v).focus = s.focus := by rfl
@[simp] theorem putVtile_enginePort (s : State) (id lr : Nat) (v : Vtile) : (s.putVtile id lr v).enginePort = s.enginePort := by rfl
@[simp] theorem putVtile_mainUid (s : State) (id lr : Nat) (v : Vtile) : (s.putVtile id lr v).mainUid = s.mainUid := by rfl
@[simp] theorem putVtile_at (s : State) (id lr : Nat) (v : Vtile) : (s.putVtile id lr v).at_ = s.at_ := by rfl
@[simp] theorem putVtile_absent (s : State) (id lr : Nat) (v : Vtile) : (s.putVtile id lr v).absent = s.absent := by rfl

/-! ### putTile -/

@[simp] theorem putTile_mem (s : State) (i : Nat) (x : Tile) : (s.putTile i x).mem = s.mem := by rfl
@[simp] theorem putTile_live (s : State) (i : Nat) (x : Tile) : (s.putTile i x).live = s.live := by rfl
@[simp] theorem putTile_poison (s : State) (i : Nat) (x : Tile) : (s.putTile i x).poison = s.poison := by rfl
@[simp] theorem putTile_strands (s : State) (i : Nat) (x : Tile) : (s.putTile i x).strands = s.strands := by rfl
@[simp] theorem putTile_vtiles (s : State) (i : Nat) (x : Tile) : (s.putTile i x).vtiles = s.vtiles := by rfl
@[simp] theorem putTile_teams (s : State) (i : Nat) (x : Tile) : (s.putTile i x).teams = s.teams := by rfl
@[simp] theorem putTile_units (s : State) (i : Nat) (x : Tile) : (s.putTile i x).units = s.units := by rfl
@[simp] theorem putTile_copies (s : State) (i : Nat) (x : Tile) : (s.putTile i x).copies = s.copies := by rfl
@[simp] theorem putTile_doneCopies (s : State) (i : Nat) (x : Tile) : (s.putTile i x).doneCopies = s.doneCopies := by rfl
@[simp] theorem putTile_landings (s : State) (i : Nat) (x : Tile) : (s.putTile i x).landings = s.landings := by rfl
@[simp] theorem putTile_incs (s : State) (i : Nat) (x : Tile) : (s.putTile i x).incs = s.incs := by rfl
@[simp] theorem putTile_amos (s : State) (i : Nat) (x : Tile) : (s.putTile i x).amos = s.amos := by rfl
@[simp] theorem putTile_fills (s : State) (i : Nat) (x : Tile) : (s.putTile i x).fills = s.fills := by rfl
@[simp] theorem putTile_reds (s : State) (i : Nat) (x : Tile) : (s.putTile i x).reds = s.reds := by rfl
@[simp] theorem putTile_stats (s : State) (i : Nat) (x : Tile) : (s.putTile i x).stats = s.stats := by rfl
@[simp] theorem putTile_remotes (s : State) (i : Nat) (x : Tile) : (s.putTile i x).remotes = s.remotes := by rfl
@[simp] theorem putTile_peerWork (s : State) (i : Nat) (x : Tile) : (s.putTile i x).peerWork = s.peerWork := by rfl
@[simp] theorem putTile_kept (s : State) (i : Nat) (x : Tile) : (s.putTile i x).kept = s.kept := by rfl
@[simp] theorem putTile_graphs (s : State) (i : Nat) (x : Tile) : (s.putTile i x).graphs = s.graphs := by rfl
@[simp] theorem putTile_runs (s : State) (i : Nat) (x : Tile) : (s.putTile i x).runs = s.runs := by rfl
@[simp] theorem putTile_staging (s : State) (i : Nat) (x : Tile) : (s.putTile i x).staging = s.staging := by rfl
@[simp] theorem putTile_vreports (s : State) (i : Nat) (x : Tile) : (s.putTile i x).vreports = s.vreports := by rfl
@[simp] theorem putTile_fencedGroups (s : State) (i : Nat) (x : Tile) : (s.putTile i x).fencedGroups = s.fencedGroups := by rfl
@[simp] theorem putTile_qslots (s : State) (i : Nat) (x : Tile) : (s.putTile i x).qslots = s.qslots := by rfl
@[simp] theorem putTile_pending (s : State) (i : Nat) (x : Tile) : (s.putTile i x).pending = s.pending := by rfl
@[simp] theorem putTile_doneRecs (s : State) (i : Nat) (x : Tile) : (s.putTile i x).doneRecs = s.doneRecs := by rfl
@[simp] theorem putTile_launches (s : State) (i : Nat) (x : Tile) : (s.putTile i x).launches = s.launches := by rfl
@[simp] theorem putTile_gangs (s : State) (i : Nat) (x : Tile) : (s.putTile i x).gangs = s.gangs := by rfl
@[simp] theorem putTile_served (s : State) (i : Nat) (x : Tile) : (s.putTile i x).served = s.served := by rfl
@[simp] theorem putTile_quads (s : State) (i : Nat) (x : Tile) : (s.putTile i x).quads = s.quads := by rfl
@[simp] theorem putTile_credits (s : State) (i : Nat) (x : Tile) : (s.putTile i x).credits = s.credits := by rfl
@[simp] theorem putTile_hops (s : State) (i : Nat) (x : Tile) : (s.putTile i x).hops = s.hops := by rfl
@[simp] theorem putTile_inbound (s : State) (i : Nat) (x : Tile) : (s.putTile i x).inbound = s.inbound := by rfl
@[simp] theorem putTile_bufs (s : State) (i : Nat) (x : Tile) : (s.putTile i x).bufs = s.bufs := by rfl
@[simp] theorem putTile_routes (s : State) (i : Nat) (x : Tile) : (s.putTile i x).routes = s.routes := by rfl
@[simp] theorem putTile_uec (s : State) (i : Nat) (x : Tile) : (s.putTile i x).uec = s.uec := by rfl
@[simp] theorem putTile_cycle (s : State) (i : Nat) (x : Tile) : (s.putTile i x).cycle = s.cycle := by rfl
@[simp] theorem putTile_cycleFrac (s : State) (i : Nat) (x : Tile) : (s.putTile i x).cycleFrac = s.cycleFrac := by rfl
@[simp] theorem putTile_dieCycle (s : State) (i : Nat) (x : Tile) : (s.putTile i x).dieCycle = s.dieCycle := by rfl
@[simp] theorem putTile_dieFrac (s : State) (i : Nat) (x : Tile) : (s.putTile i x).dieFrac = s.dieFrac := by rfl
@[simp] theorem putTile_podtime (s : State) (i : Nat) (x : Tile) : (s.putTile i x).podtime = s.podtime := by rfl
@[simp] theorem putTile_ptstat (s : State) (i : Nat) (x : Tile) : (s.putTile i x).ptstat = s.ptstat := by rfl
@[simp] theorem putTile_beacon (s : State) (i : Nat) (x : Tile) : (s.putTile i x).beacon = s.beacon := by rfl
@[simp] theorem putTile_beaconAt (s : State) (i : Nat) (x : Tile) : (s.putTile i x).beaconAt = s.beaconAt := by rfl
@[simp] theorem putTile_slew (s : State) (i : Nat) (x : Tile) : (s.putTile i x).slew = s.slew := by rfl
@[simp] theorem putTile_slewFrac (s : State) (i : Nat) (x : Tile) : (s.putTile i x).slewFrac = s.slewFrac := by rfl
@[simp] theorem putTile_image (s : State) (i : Nat) (x : Tile) : (s.putTile i x).image = s.image := by rfl
@[simp] theorem putTile_spare (s : State) (i : Nat) (x : Tile) : (s.putTile i x).spare = s.spare := by rfl
@[simp] theorem putTile_lostSite (s : State) (i : Nat) (x : Tile) : (s.putTile i x).lostSite = s.lostSite := by rfl
@[simp] theorem putTile_qdbase (s : State) (i : Nat) (x : Tile) : (s.putTile i x).qdbase = s.qdbase := by rfl
@[simp] theorem putTile_qdlen (s : State) (i : Nat) (x : Tile) : (s.putTile i x).qdlen = s.qdlen := by rfl
@[simp] theorem putTile_dtbase (s : State) (i : Nat) (x : Tile) : (s.putTile i x).dtbase = s.dtbase := by rfl
@[simp] theorem putTile_dlbase (s : State) (i : Nat) (x : Tile) : (s.putTile i x).dlbase = s.dlbase := by rfl
@[simp] theorem putTile_vacateReg (s : State) (i : Nat) (x : Tile) : (s.putTile i x).vacateReg = s.vacateReg := by rfl
@[simp] theorem putTile_orderReqs (s : State) (i : Nat) (x : Tile) : (s.putTile i x).orderReqs = s.orderReqs := by rfl
@[simp] theorem putTile_acolor (s : State) (i : Nat) (x : Tile) : (s.putTile i x).acolor = s.acolor := by rfl
@[simp] theorem putTile_quiesce (s : State) (i : Nat) (x : Tile) : (s.putTile i x).quiesce = s.quiesce := by rfl
@[simp] theorem putTile_quiesceSince (s : State) (i : Nat) (x : Tile) : (s.putTile i x).quiesceSince = s.quiesceSince := by rfl
@[simp] theorem putTile_qctl (s : State) (i : Nat) (x : Tile) : (s.putTile i x).qctl = s.qctl := by rfl
@[simp] theorem putTile_qorder (s : State) (i : Nat) (x : Tile) : (s.putTile i x).qorder = s.qorder := by rfl
@[simp] theorem putTile_portw (s : State) (i : Nat) (x : Tile) : (s.putTile i x).portw = s.portw := by rfl
@[simp] theorem putTile_cxlwin (s : State) (i : Nat) (x : Tile) : (s.putTile i x).cxlwin = s.cxlwin := by rfl
@[simp] theorem putTile_hgcfg (s : State) (i : Nat) (x : Tile) : (s.putTile i x).hgcfg = s.hgcfg := by rfl
@[simp] theorem putTile_errc (s : State) (i : Nat) (x : Tile) : (s.putTile i x).errc = s.errc := by rfl
@[simp] theorem putTile_snapreq (s : State) (i : Nat) (x : Tile) : (s.putTile i x).snapreq = s.snapreq := by rfl
@[simp] theorem putTile_fsnap (s : State) (i : Nat) (x : Tile) : (s.putTile i x).fsnap = s.fsnap := by rfl
@[simp] theorem putTile_pwrcap (s : State) (i : Nat) (x : Tile) : (s.putTile i x).pwrcap = s.pwrcap := by rfl
@[simp] theorem putTile_snapSeq (s : State) (i : Nat) (x : Tile) : (s.putTile i x).snapSeq = s.snapSeq := by rfl
@[simp] theorem putTile_snaps (s : State) (i : Nat) (x : Tile) : (s.putTile i x).snaps = s.snaps := by rfl
@[simp] theorem putTile_clocks (s : State) (i : Nat) (x : Tile) : (s.putTile i x).clocks = s.clocks := by rfl
@[simp] theorem putTile_hot (s : State) (i : Nat) (x : Tile) : (s.putTile i x).hot = s.hot := by rfl
@[simp] theorem putTile_boot (s : State) (i : Nat) (x : Tile) : (s.putTile i x).boot = s.boot := by rfl
@[simp] theorem putTile_lycelLog (s : State) (i : Nat) (x : Tile) : (s.putTile i x).lycelLog = s.lycelLog := by rfl
@[simp] theorem putTile_outbox (s : State) (i : Nat) (x : Tile) : (s.putTile i x).outbox = s.outbox := by rfl
@[simp] theorem putTile_gone (s : State) (i : Nat) (x : Tile) : (s.putTile i x).gone = s.gone := by rfl
@[simp] theorem putTile_fresh (s : State) (i : Nat) (x : Tile) : (s.putTile i x).fresh = s.fresh := by rfl
@[simp] theorem putTile_agenda (s : State) (i : Nat) (x : Tile) : (s.putTile i x).agenda = s.agenda := by rfl
@[simp] theorem putTile_focus (s : State) (i : Nat) (x : Tile) : (s.putTile i x).focus = s.focus := by rfl
@[simp] theorem putTile_enginePort (s : State) (i : Nat) (x : Tile) : (s.putTile i x).enginePort = s.enginePort := by rfl
@[simp] theorem putTile_mainUid (s : State) (i : Nat) (x : Tile) : (s.putTile i x).mainUid = s.mainUid := by rfl
@[simp] theorem putTile_at (s : State) (i : Nat) (x : Tile) : (s.putTile i x).at_ = s.at_ := by rfl
@[simp] theorem putTile_absent (s : State) (i : Nat) (x : Tile) : (s.putTile i x).absent = s.absent := by rfl

/-! ### putQuad -/

@[simp] theorem putQuad_mem (s : State) (q : Nat) (x : Quad) : (s.putQuad q x).mem = s.mem := by rfl
@[simp] theorem putQuad_live (s : State) (q : Nat) (x : Quad) : (s.putQuad q x).live = s.live := by rfl
@[simp] theorem putQuad_poison (s : State) (q : Nat) (x : Quad) : (s.putQuad q x).poison = s.poison := by rfl
@[simp] theorem putQuad_strands (s : State) (q : Nat) (x : Quad) : (s.putQuad q x).strands = s.strands := by rfl
@[simp] theorem putQuad_vtiles (s : State) (q : Nat) (x : Quad) : (s.putQuad q x).vtiles = s.vtiles := by rfl
@[simp] theorem putQuad_teams (s : State) (q : Nat) (x : Quad) : (s.putQuad q x).teams = s.teams := by rfl
@[simp] theorem putQuad_units (s : State) (q : Nat) (x : Quad) : (s.putQuad q x).units = s.units := by rfl
@[simp] theorem putQuad_tiles (s : State) (q : Nat) (x : Quad) : (s.putQuad q x).tiles = s.tiles := by rfl
@[simp] theorem putQuad_copies (s : State) (q : Nat) (x : Quad) : (s.putQuad q x).copies = s.copies := by rfl
@[simp] theorem putQuad_doneCopies (s : State) (q : Nat) (x : Quad) : (s.putQuad q x).doneCopies = s.doneCopies := by rfl
@[simp] theorem putQuad_landings (s : State) (q : Nat) (x : Quad) : (s.putQuad q x).landings = s.landings := by rfl
@[simp] theorem putQuad_incs (s : State) (q : Nat) (x : Quad) : (s.putQuad q x).incs = s.incs := by rfl
@[simp] theorem putQuad_amos (s : State) (q : Nat) (x : Quad) : (s.putQuad q x).amos = s.amos := by rfl
@[simp] theorem putQuad_fills (s : State) (q : Nat) (x : Quad) : (s.putQuad q x).fills = s.fills := by rfl
@[simp] theorem putQuad_reds (s : State) (q : Nat) (x : Quad) : (s.putQuad q x).reds = s.reds := by rfl
@[simp] theorem putQuad_stats (s : State) (q : Nat) (x : Quad) : (s.putQuad q x).stats = s.stats := by rfl
@[simp] theorem putQuad_remotes (s : State) (q : Nat) (x : Quad) : (s.putQuad q x).remotes = s.remotes := by rfl
@[simp] theorem putQuad_peerWork (s : State) (q : Nat) (x : Quad) : (s.putQuad q x).peerWork = s.peerWork := by rfl
@[simp] theorem putQuad_kept (s : State) (q : Nat) (x : Quad) : (s.putQuad q x).kept = s.kept := by rfl
@[simp] theorem putQuad_graphs (s : State) (q : Nat) (x : Quad) : (s.putQuad q x).graphs = s.graphs := by rfl
@[simp] theorem putQuad_runs (s : State) (q : Nat) (x : Quad) : (s.putQuad q x).runs = s.runs := by rfl
@[simp] theorem putQuad_staging (s : State) (q : Nat) (x : Quad) : (s.putQuad q x).staging = s.staging := by rfl
@[simp] theorem putQuad_vreports (s : State) (q : Nat) (x : Quad) : (s.putQuad q x).vreports = s.vreports := by rfl
@[simp] theorem putQuad_fencedGroups (s : State) (q : Nat) (x : Quad) : (s.putQuad q x).fencedGroups = s.fencedGroups := by rfl
@[simp] theorem putQuad_qslots (s : State) (q : Nat) (x : Quad) : (s.putQuad q x).qslots = s.qslots := by rfl
@[simp] theorem putQuad_pending (s : State) (q : Nat) (x : Quad) : (s.putQuad q x).pending = s.pending := by rfl
@[simp] theorem putQuad_doneRecs (s : State) (q : Nat) (x : Quad) : (s.putQuad q x).doneRecs = s.doneRecs := by rfl
@[simp] theorem putQuad_launches (s : State) (q : Nat) (x : Quad) : (s.putQuad q x).launches = s.launches := by rfl
@[simp] theorem putQuad_gangs (s : State) (q : Nat) (x : Quad) : (s.putQuad q x).gangs = s.gangs := by rfl
@[simp] theorem putQuad_served (s : State) (q : Nat) (x : Quad) : (s.putQuad q x).served = s.served := by rfl
@[simp] theorem putQuad_credits (s : State) (q : Nat) (x : Quad) : (s.putQuad q x).credits = s.credits := by rfl
@[simp] theorem putQuad_hops (s : State) (q : Nat) (x : Quad) : (s.putQuad q x).hops = s.hops := by rfl
@[simp] theorem putQuad_inbound (s : State) (q : Nat) (x : Quad) : (s.putQuad q x).inbound = s.inbound := by rfl
@[simp] theorem putQuad_bufs (s : State) (q : Nat) (x : Quad) : (s.putQuad q x).bufs = s.bufs := by rfl
@[simp] theorem putQuad_routes (s : State) (q : Nat) (x : Quad) : (s.putQuad q x).routes = s.routes := by rfl
@[simp] theorem putQuad_uec (s : State) (q : Nat) (x : Quad) : (s.putQuad q x).uec = s.uec := by rfl
@[simp] theorem putQuad_cycle (s : State) (q : Nat) (x : Quad) : (s.putQuad q x).cycle = s.cycle := by rfl
@[simp] theorem putQuad_cycleFrac (s : State) (q : Nat) (x : Quad) : (s.putQuad q x).cycleFrac = s.cycleFrac := by rfl
@[simp] theorem putQuad_dieCycle (s : State) (q : Nat) (x : Quad) : (s.putQuad q x).dieCycle = s.dieCycle := by rfl
@[simp] theorem putQuad_dieFrac (s : State) (q : Nat) (x : Quad) : (s.putQuad q x).dieFrac = s.dieFrac := by rfl
@[simp] theorem putQuad_podtime (s : State) (q : Nat) (x : Quad) : (s.putQuad q x).podtime = s.podtime := by rfl
@[simp] theorem putQuad_ptstat (s : State) (q : Nat) (x : Quad) : (s.putQuad q x).ptstat = s.ptstat := by rfl
@[simp] theorem putQuad_beacon (s : State) (q : Nat) (x : Quad) : (s.putQuad q x).beacon = s.beacon := by rfl
@[simp] theorem putQuad_beaconAt (s : State) (q : Nat) (x : Quad) : (s.putQuad q x).beaconAt = s.beaconAt := by rfl
@[simp] theorem putQuad_slew (s : State) (q : Nat) (x : Quad) : (s.putQuad q x).slew = s.slew := by rfl
@[simp] theorem putQuad_slewFrac (s : State) (q : Nat) (x : Quad) : (s.putQuad q x).slewFrac = s.slewFrac := by rfl
@[simp] theorem putQuad_image (s : State) (q : Nat) (x : Quad) : (s.putQuad q x).image = s.image := by rfl
@[simp] theorem putQuad_spare (s : State) (q : Nat) (x : Quad) : (s.putQuad q x).spare = s.spare := by rfl
@[simp] theorem putQuad_lostSite (s : State) (q : Nat) (x : Quad) : (s.putQuad q x).lostSite = s.lostSite := by rfl
@[simp] theorem putQuad_qdbase (s : State) (q : Nat) (x : Quad) : (s.putQuad q x).qdbase = s.qdbase := by rfl
@[simp] theorem putQuad_qdlen (s : State) (q : Nat) (x : Quad) : (s.putQuad q x).qdlen = s.qdlen := by rfl
@[simp] theorem putQuad_dtbase (s : State) (q : Nat) (x : Quad) : (s.putQuad q x).dtbase = s.dtbase := by rfl
@[simp] theorem putQuad_dlbase (s : State) (q : Nat) (x : Quad) : (s.putQuad q x).dlbase = s.dlbase := by rfl
@[simp] theorem putQuad_vacateReg (s : State) (q : Nat) (x : Quad) : (s.putQuad q x).vacateReg = s.vacateReg := by rfl
@[simp] theorem putQuad_orderReqs (s : State) (q : Nat) (x : Quad) : (s.putQuad q x).orderReqs = s.orderReqs := by rfl
@[simp] theorem putQuad_acolor (s : State) (q : Nat) (x : Quad) : (s.putQuad q x).acolor = s.acolor := by rfl
@[simp] theorem putQuad_quiesce (s : State) (q : Nat) (x : Quad) : (s.putQuad q x).quiesce = s.quiesce := by rfl
@[simp] theorem putQuad_quiesceSince (s : State) (q : Nat) (x : Quad) : (s.putQuad q x).quiesceSince = s.quiesceSince := by rfl
@[simp] theorem putQuad_qctl (s : State) (q : Nat) (x : Quad) : (s.putQuad q x).qctl = s.qctl := by rfl
@[simp] theorem putQuad_qorder (s : State) (q : Nat) (x : Quad) : (s.putQuad q x).qorder = s.qorder := by rfl
@[simp] theorem putQuad_portw (s : State) (q : Nat) (x : Quad) : (s.putQuad q x).portw = s.portw := by rfl
@[simp] theorem putQuad_cxlwin (s : State) (q : Nat) (x : Quad) : (s.putQuad q x).cxlwin = s.cxlwin := by rfl
@[simp] theorem putQuad_hgcfg (s : State) (q : Nat) (x : Quad) : (s.putQuad q x).hgcfg = s.hgcfg := by rfl
@[simp] theorem putQuad_errc (s : State) (q : Nat) (x : Quad) : (s.putQuad q x).errc = s.errc := by rfl
@[simp] theorem putQuad_snapreq (s : State) (q : Nat) (x : Quad) : (s.putQuad q x).snapreq = s.snapreq := by rfl
@[simp] theorem putQuad_fsnap (s : State) (q : Nat) (x : Quad) : (s.putQuad q x).fsnap = s.fsnap := by rfl
@[simp] theorem putQuad_pwrcap (s : State) (q : Nat) (x : Quad) : (s.putQuad q x).pwrcap = s.pwrcap := by rfl
@[simp] theorem putQuad_snapSeq (s : State) (q : Nat) (x : Quad) : (s.putQuad q x).snapSeq = s.snapSeq := by rfl
@[simp] theorem putQuad_snaps (s : State) (q : Nat) (x : Quad) : (s.putQuad q x).snaps = s.snaps := by rfl
@[simp] theorem putQuad_clocks (s : State) (q : Nat) (x : Quad) : (s.putQuad q x).clocks = s.clocks := by rfl
@[simp] theorem putQuad_hot (s : State) (q : Nat) (x : Quad) : (s.putQuad q x).hot = s.hot := by rfl
@[simp] theorem putQuad_boot (s : State) (q : Nat) (x : Quad) : (s.putQuad q x).boot = s.boot := by rfl
@[simp] theorem putQuad_lycelLog (s : State) (q : Nat) (x : Quad) : (s.putQuad q x).lycelLog = s.lycelLog := by rfl
@[simp] theorem putQuad_outbox (s : State) (q : Nat) (x : Quad) : (s.putQuad q x).outbox = s.outbox := by rfl
@[simp] theorem putQuad_gone (s : State) (q : Nat) (x : Quad) : (s.putQuad q x).gone = s.gone := by rfl
@[simp] theorem putQuad_fresh (s : State) (q : Nat) (x : Quad) : (s.putQuad q x).fresh = s.fresh := by rfl
@[simp] theorem putQuad_agenda (s : State) (q : Nat) (x : Quad) : (s.putQuad q x).agenda = s.agenda := by rfl
@[simp] theorem putQuad_focus (s : State) (q : Nat) (x : Quad) : (s.putQuad q x).focus = s.focus := by rfl
@[simp] theorem putQuad_enginePort (s : State) (q : Nat) (x : Quad) : (s.putQuad q x).enginePort = s.enginePort := by rfl
@[simp] theorem putQuad_mainUid (s : State) (q : Nat) (x : Quad) : (s.putQuad q x).mainUid = s.mainUid := by rfl
@[simp] theorem putQuad_at (s : State) (q : Nat) (x : Quad) : (s.putQuad q x).at_ = s.at_ := by rfl
@[simp] theorem putQuad_absent (s : State) (q : Nat) (x : Quad) : (s.putQuad q x).absent = s.absent := by rfl

/-! ### putUnit -/

@[simp] theorem putUnit_mem (s : State) (id : Nat) (l : Scope) (u : Nat) (x : BarUnit) : (s.putUnit id l u x).mem = s.mem := by rfl
@[simp] theorem putUnit_live (s : State) (id : Nat) (l : Scope) (u : Nat) (x : BarUnit) : (s.putUnit id l u x).live = s.live := by rfl
@[simp] theorem putUnit_poison (s : State) (id : Nat) (l : Scope) (u : Nat) (x : BarUnit) : (s.putUnit id l u x).poison = s.poison := by rfl
@[simp] theorem putUnit_strands (s : State) (id : Nat) (l : Scope) (u : Nat) (x : BarUnit) : (s.putUnit id l u x).strands = s.strands := by rfl
@[simp] theorem putUnit_vtiles (s : State) (id : Nat) (l : Scope) (u : Nat) (x : BarUnit) : (s.putUnit id l u x).vtiles = s.vtiles := by rfl
@[simp] theorem putUnit_teams (s : State) (id : Nat) (l : Scope) (u : Nat) (x : BarUnit) : (s.putUnit id l u x).teams = s.teams := by rfl
@[simp] theorem putUnit_tiles (s : State) (id : Nat) (l : Scope) (u : Nat) (x : BarUnit) : (s.putUnit id l u x).tiles = s.tiles := by rfl
@[simp] theorem putUnit_copies (s : State) (id : Nat) (l : Scope) (u : Nat) (x : BarUnit) : (s.putUnit id l u x).copies = s.copies := by rfl
@[simp] theorem putUnit_doneCopies (s : State) (id : Nat) (l : Scope) (u : Nat) (x : BarUnit) : (s.putUnit id l u x).doneCopies = s.doneCopies := by rfl
@[simp] theorem putUnit_landings (s : State) (id : Nat) (l : Scope) (u : Nat) (x : BarUnit) : (s.putUnit id l u x).landings = s.landings := by rfl
@[simp] theorem putUnit_incs (s : State) (id : Nat) (l : Scope) (u : Nat) (x : BarUnit) : (s.putUnit id l u x).incs = s.incs := by rfl
@[simp] theorem putUnit_amos (s : State) (id : Nat) (l : Scope) (u : Nat) (x : BarUnit) : (s.putUnit id l u x).amos = s.amos := by rfl
@[simp] theorem putUnit_fills (s : State) (id : Nat) (l : Scope) (u : Nat) (x : BarUnit) : (s.putUnit id l u x).fills = s.fills := by rfl
@[simp] theorem putUnit_reds (s : State) (id : Nat) (l : Scope) (u : Nat) (x : BarUnit) : (s.putUnit id l u x).reds = s.reds := by rfl
@[simp] theorem putUnit_stats (s : State) (id : Nat) (l : Scope) (u : Nat) (x : BarUnit) : (s.putUnit id l u x).stats = s.stats := by rfl
@[simp] theorem putUnit_remotes (s : State) (id : Nat) (l : Scope) (u : Nat) (x : BarUnit) : (s.putUnit id l u x).remotes = s.remotes := by rfl
@[simp] theorem putUnit_peerWork (s : State) (id : Nat) (l : Scope) (u : Nat) (x : BarUnit) : (s.putUnit id l u x).peerWork = s.peerWork := by rfl
@[simp] theorem putUnit_kept (s : State) (id : Nat) (l : Scope) (u : Nat) (x : BarUnit) : (s.putUnit id l u x).kept = s.kept := by rfl
@[simp] theorem putUnit_graphs (s : State) (id : Nat) (l : Scope) (u : Nat) (x : BarUnit) : (s.putUnit id l u x).graphs = s.graphs := by rfl
@[simp] theorem putUnit_runs (s : State) (id : Nat) (l : Scope) (u : Nat) (x : BarUnit) : (s.putUnit id l u x).runs = s.runs := by rfl
@[simp] theorem putUnit_staging (s : State) (id : Nat) (l : Scope) (u : Nat) (x : BarUnit) : (s.putUnit id l u x).staging = s.staging := by rfl
@[simp] theorem putUnit_vreports (s : State) (id : Nat) (l : Scope) (u : Nat) (x : BarUnit) : (s.putUnit id l u x).vreports = s.vreports := by rfl
@[simp] theorem putUnit_fencedGroups (s : State) (id : Nat) (l : Scope) (u : Nat) (x : BarUnit) : (s.putUnit id l u x).fencedGroups = s.fencedGroups := by rfl
@[simp] theorem putUnit_qslots (s : State) (id : Nat) (l : Scope) (u : Nat) (x : BarUnit) : (s.putUnit id l u x).qslots = s.qslots := by rfl
@[simp] theorem putUnit_pending (s : State) (id : Nat) (l : Scope) (u : Nat) (x : BarUnit) : (s.putUnit id l u x).pending = s.pending := by rfl
@[simp] theorem putUnit_doneRecs (s : State) (id : Nat) (l : Scope) (u : Nat) (x : BarUnit) : (s.putUnit id l u x).doneRecs = s.doneRecs := by rfl
@[simp] theorem putUnit_launches (s : State) (id : Nat) (l : Scope) (u : Nat) (x : BarUnit) : (s.putUnit id l u x).launches = s.launches := by rfl
@[simp] theorem putUnit_gangs (s : State) (id : Nat) (l : Scope) (u : Nat) (x : BarUnit) : (s.putUnit id l u x).gangs = s.gangs := by rfl
@[simp] theorem putUnit_served (s : State) (id : Nat) (l : Scope) (u : Nat) (x : BarUnit) : (s.putUnit id l u x).served = s.served := by rfl
@[simp] theorem putUnit_quads (s : State) (id : Nat) (l : Scope) (u : Nat) (x : BarUnit) : (s.putUnit id l u x).quads = s.quads := by rfl
@[simp] theorem putUnit_credits (s : State) (id : Nat) (l : Scope) (u : Nat) (x : BarUnit) : (s.putUnit id l u x).credits = s.credits := by rfl
@[simp] theorem putUnit_hops (s : State) (id : Nat) (l : Scope) (u : Nat) (x : BarUnit) : (s.putUnit id l u x).hops = s.hops := by rfl
@[simp] theorem putUnit_inbound (s : State) (id : Nat) (l : Scope) (u : Nat) (x : BarUnit) : (s.putUnit id l u x).inbound = s.inbound := by rfl
@[simp] theorem putUnit_bufs (s : State) (id : Nat) (l : Scope) (u : Nat) (x : BarUnit) : (s.putUnit id l u x).bufs = s.bufs := by rfl
@[simp] theorem putUnit_routes (s : State) (id : Nat) (l : Scope) (u : Nat) (x : BarUnit) : (s.putUnit id l u x).routes = s.routes := by rfl
@[simp] theorem putUnit_uec (s : State) (id : Nat) (l : Scope) (u : Nat) (x : BarUnit) : (s.putUnit id l u x).uec = s.uec := by rfl
@[simp] theorem putUnit_cycle (s : State) (id : Nat) (l : Scope) (u : Nat) (x : BarUnit) : (s.putUnit id l u x).cycle = s.cycle := by rfl
@[simp] theorem putUnit_cycleFrac (s : State) (id : Nat) (l : Scope) (u : Nat) (x : BarUnit) : (s.putUnit id l u x).cycleFrac = s.cycleFrac := by rfl
@[simp] theorem putUnit_dieCycle (s : State) (id : Nat) (l : Scope) (u : Nat) (x : BarUnit) : (s.putUnit id l u x).dieCycle = s.dieCycle := by rfl
@[simp] theorem putUnit_dieFrac (s : State) (id : Nat) (l : Scope) (u : Nat) (x : BarUnit) : (s.putUnit id l u x).dieFrac = s.dieFrac := by rfl
@[simp] theorem putUnit_podtime (s : State) (id : Nat) (l : Scope) (u : Nat) (x : BarUnit) : (s.putUnit id l u x).podtime = s.podtime := by rfl
@[simp] theorem putUnit_ptstat (s : State) (id : Nat) (l : Scope) (u : Nat) (x : BarUnit) : (s.putUnit id l u x).ptstat = s.ptstat := by rfl
@[simp] theorem putUnit_beacon (s : State) (id : Nat) (l : Scope) (u : Nat) (x : BarUnit) : (s.putUnit id l u x).beacon = s.beacon := by rfl
@[simp] theorem putUnit_beaconAt (s : State) (id : Nat) (l : Scope) (u : Nat) (x : BarUnit) : (s.putUnit id l u x).beaconAt = s.beaconAt := by rfl
@[simp] theorem putUnit_slew (s : State) (id : Nat) (l : Scope) (u : Nat) (x : BarUnit) : (s.putUnit id l u x).slew = s.slew := by rfl
@[simp] theorem putUnit_slewFrac (s : State) (id : Nat) (l : Scope) (u : Nat) (x : BarUnit) : (s.putUnit id l u x).slewFrac = s.slewFrac := by rfl
@[simp] theorem putUnit_image (s : State) (id : Nat) (l : Scope) (u : Nat) (x : BarUnit) : (s.putUnit id l u x).image = s.image := by rfl
@[simp] theorem putUnit_spare (s : State) (id : Nat) (l : Scope) (u : Nat) (x : BarUnit) : (s.putUnit id l u x).spare = s.spare := by rfl
@[simp] theorem putUnit_lostSite (s : State) (id : Nat) (l : Scope) (u : Nat) (x : BarUnit) : (s.putUnit id l u x).lostSite = s.lostSite := by rfl
@[simp] theorem putUnit_qdbase (s : State) (id : Nat) (l : Scope) (u : Nat) (x : BarUnit) : (s.putUnit id l u x).qdbase = s.qdbase := by rfl
@[simp] theorem putUnit_qdlen (s : State) (id : Nat) (l : Scope) (u : Nat) (x : BarUnit) : (s.putUnit id l u x).qdlen = s.qdlen := by rfl
@[simp] theorem putUnit_dtbase (s : State) (id : Nat) (l : Scope) (u : Nat) (x : BarUnit) : (s.putUnit id l u x).dtbase = s.dtbase := by rfl
@[simp] theorem putUnit_dlbase (s : State) (id : Nat) (l : Scope) (u : Nat) (x : BarUnit) : (s.putUnit id l u x).dlbase = s.dlbase := by rfl
@[simp] theorem putUnit_vacateReg (s : State) (id : Nat) (l : Scope) (u : Nat) (x : BarUnit) : (s.putUnit id l u x).vacateReg = s.vacateReg := by rfl
@[simp] theorem putUnit_orderReqs (s : State) (id : Nat) (l : Scope) (u : Nat) (x : BarUnit) : (s.putUnit id l u x).orderReqs = s.orderReqs := by rfl
@[simp] theorem putUnit_acolor (s : State) (id : Nat) (l : Scope) (u : Nat) (x : BarUnit) : (s.putUnit id l u x).acolor = s.acolor := by rfl
@[simp] theorem putUnit_quiesce (s : State) (id : Nat) (l : Scope) (u : Nat) (x : BarUnit) : (s.putUnit id l u x).quiesce = s.quiesce := by rfl
@[simp] theorem putUnit_quiesceSince (s : State) (id : Nat) (l : Scope) (u : Nat) (x : BarUnit) : (s.putUnit id l u x).quiesceSince = s.quiesceSince := by rfl
@[simp] theorem putUnit_qctl (s : State) (id : Nat) (l : Scope) (u : Nat) (x : BarUnit) : (s.putUnit id l u x).qctl = s.qctl := by rfl
@[simp] theorem putUnit_qorder (s : State) (id : Nat) (l : Scope) (u : Nat) (x : BarUnit) : (s.putUnit id l u x).qorder = s.qorder := by rfl
@[simp] theorem putUnit_portw (s : State) (id : Nat) (l : Scope) (u : Nat) (x : BarUnit) : (s.putUnit id l u x).portw = s.portw := by rfl
@[simp] theorem putUnit_cxlwin (s : State) (id : Nat) (l : Scope) (u : Nat) (x : BarUnit) : (s.putUnit id l u x).cxlwin = s.cxlwin := by rfl
@[simp] theorem putUnit_hgcfg (s : State) (id : Nat) (l : Scope) (u : Nat) (x : BarUnit) : (s.putUnit id l u x).hgcfg = s.hgcfg := by rfl
@[simp] theorem putUnit_errc (s : State) (id : Nat) (l : Scope) (u : Nat) (x : BarUnit) : (s.putUnit id l u x).errc = s.errc := by rfl
@[simp] theorem putUnit_snapreq (s : State) (id : Nat) (l : Scope) (u : Nat) (x : BarUnit) : (s.putUnit id l u x).snapreq = s.snapreq := by rfl
@[simp] theorem putUnit_fsnap (s : State) (id : Nat) (l : Scope) (u : Nat) (x : BarUnit) : (s.putUnit id l u x).fsnap = s.fsnap := by rfl
@[simp] theorem putUnit_pwrcap (s : State) (id : Nat) (l : Scope) (u : Nat) (x : BarUnit) : (s.putUnit id l u x).pwrcap = s.pwrcap := by rfl
@[simp] theorem putUnit_snapSeq (s : State) (id : Nat) (l : Scope) (u : Nat) (x : BarUnit) : (s.putUnit id l u x).snapSeq = s.snapSeq := by rfl
@[simp] theorem putUnit_snaps (s : State) (id : Nat) (l : Scope) (u : Nat) (x : BarUnit) : (s.putUnit id l u x).snaps = s.snaps := by rfl
@[simp] theorem putUnit_clocks (s : State) (id : Nat) (l : Scope) (u : Nat) (x : BarUnit) : (s.putUnit id l u x).clocks = s.clocks := by rfl
@[simp] theorem putUnit_hot (s : State) (id : Nat) (l : Scope) (u : Nat) (x : BarUnit) : (s.putUnit id l u x).hot = s.hot := by rfl
@[simp] theorem putUnit_boot (s : State) (id : Nat) (l : Scope) (u : Nat) (x : BarUnit) : (s.putUnit id l u x).boot = s.boot := by rfl
@[simp] theorem putUnit_lycelLog (s : State) (id : Nat) (l : Scope) (u : Nat) (x : BarUnit) : (s.putUnit id l u x).lycelLog = s.lycelLog := by rfl
@[simp] theorem putUnit_outbox (s : State) (id : Nat) (l : Scope) (u : Nat) (x : BarUnit) : (s.putUnit id l u x).outbox = s.outbox := by rfl
@[simp] theorem putUnit_gone (s : State) (id : Nat) (l : Scope) (u : Nat) (x : BarUnit) : (s.putUnit id l u x).gone = s.gone := by rfl
@[simp] theorem putUnit_fresh (s : State) (id : Nat) (l : Scope) (u : Nat) (x : BarUnit) : (s.putUnit id l u x).fresh = s.fresh := by rfl
@[simp] theorem putUnit_agenda (s : State) (id : Nat) (l : Scope) (u : Nat) (x : BarUnit) : (s.putUnit id l u x).agenda = s.agenda := by rfl
@[simp] theorem putUnit_focus (s : State) (id : Nat) (l : Scope) (u : Nat) (x : BarUnit) : (s.putUnit id l u x).focus = s.focus := by rfl
@[simp] theorem putUnit_enginePort (s : State) (id : Nat) (l : Scope) (u : Nat) (x : BarUnit) : (s.putUnit id l u x).enginePort = s.enginePort := by rfl
@[simp] theorem putUnit_mainUid (s : State) (id : Nat) (l : Scope) (u : Nat) (x : BarUnit) : (s.putUnit id l u x).mainUid = s.mainUid := by rfl
@[simp] theorem putUnit_at (s : State) (id : Nat) (l : Scope) (u : Nat) (x : BarUnit) : (s.putUnit id l u x).at_ = s.at_ := by rfl
@[simp] theorem putUnit_absent (s : State) (id : Nat) (l : Scope) (u : Nat) (x : BarUnit) : (s.putUnit id l u x).absent = s.absent := by rfl

/-! ### send -/

@[simp] theorem send_mem (s : State) (msg : Msg) : (s.send msg).mem = s.mem := by rfl
@[simp] theorem send_live (s : State) (msg : Msg) : (s.send msg).live = s.live := by rfl
@[simp] theorem send_poison (s : State) (msg : Msg) : (s.send msg).poison = s.poison := by rfl
@[simp] theorem send_strands (s : State) (msg : Msg) : (s.send msg).strands = s.strands := by rfl
@[simp] theorem send_vtiles (s : State) (msg : Msg) : (s.send msg).vtiles = s.vtiles := by rfl
@[simp] theorem send_teams (s : State) (msg : Msg) : (s.send msg).teams = s.teams := by rfl
@[simp] theorem send_units (s : State) (msg : Msg) : (s.send msg).units = s.units := by rfl
@[simp] theorem send_tiles (s : State) (msg : Msg) : (s.send msg).tiles = s.tiles := by rfl
@[simp] theorem send_copies (s : State) (msg : Msg) : (s.send msg).copies = s.copies := by rfl
@[simp] theorem send_doneCopies (s : State) (msg : Msg) : (s.send msg).doneCopies = s.doneCopies := by rfl
@[simp] theorem send_landings (s : State) (msg : Msg) : (s.send msg).landings = s.landings := by rfl
@[simp] theorem send_incs (s : State) (msg : Msg) : (s.send msg).incs = s.incs := by rfl
@[simp] theorem send_amos (s : State) (msg : Msg) : (s.send msg).amos = s.amos := by rfl
@[simp] theorem send_fills (s : State) (msg : Msg) : (s.send msg).fills = s.fills := by rfl
@[simp] theorem send_reds (s : State) (msg : Msg) : (s.send msg).reds = s.reds := by rfl
@[simp] theorem send_stats (s : State) (msg : Msg) : (s.send msg).stats = s.stats := by rfl
@[simp] theorem send_remotes (s : State) (msg : Msg) : (s.send msg).remotes = s.remotes := by rfl
@[simp] theorem send_peerWork (s : State) (msg : Msg) : (s.send msg).peerWork = s.peerWork := by rfl
@[simp] theorem send_kept (s : State) (msg : Msg) : (s.send msg).kept = s.kept := by rfl
@[simp] theorem send_graphs (s : State) (msg : Msg) : (s.send msg).graphs = s.graphs := by rfl
@[simp] theorem send_runs (s : State) (msg : Msg) : (s.send msg).runs = s.runs := by rfl
@[simp] theorem send_staging (s : State) (msg : Msg) : (s.send msg).staging = s.staging := by rfl
@[simp] theorem send_vreports (s : State) (msg : Msg) : (s.send msg).vreports = s.vreports := by rfl
@[simp] theorem send_fencedGroups (s : State) (msg : Msg) : (s.send msg).fencedGroups = s.fencedGroups := by rfl
@[simp] theorem send_qslots (s : State) (msg : Msg) : (s.send msg).qslots = s.qslots := by rfl
@[simp] theorem send_pending (s : State) (msg : Msg) : (s.send msg).pending = s.pending := by rfl
@[simp] theorem send_doneRecs (s : State) (msg : Msg) : (s.send msg).doneRecs = s.doneRecs := by rfl
@[simp] theorem send_launches (s : State) (msg : Msg) : (s.send msg).launches = s.launches := by rfl
@[simp] theorem send_gangs (s : State) (msg : Msg) : (s.send msg).gangs = s.gangs := by rfl
@[simp] theorem send_served (s : State) (msg : Msg) : (s.send msg).served = s.served := by rfl
@[simp] theorem send_quads (s : State) (msg : Msg) : (s.send msg).quads = s.quads := by rfl
@[simp] theorem send_credits (s : State) (msg : Msg) : (s.send msg).credits = s.credits := by rfl
@[simp] theorem send_hops (s : State) (msg : Msg) : (s.send msg).hops = s.hops := by rfl
@[simp] theorem send_inbound (s : State) (msg : Msg) : (s.send msg).inbound = s.inbound := by rfl
@[simp] theorem send_bufs (s : State) (msg : Msg) : (s.send msg).bufs = s.bufs := by rfl
@[simp] theorem send_routes (s : State) (msg : Msg) : (s.send msg).routes = s.routes := by rfl
@[simp] theorem send_uec (s : State) (msg : Msg) : (s.send msg).uec = s.uec := by rfl
@[simp] theorem send_cycle (s : State) (msg : Msg) : (s.send msg).cycle = s.cycle := by rfl
@[simp] theorem send_cycleFrac (s : State) (msg : Msg) : (s.send msg).cycleFrac = s.cycleFrac := by rfl
@[simp] theorem send_dieCycle (s : State) (msg : Msg) : (s.send msg).dieCycle = s.dieCycle := by rfl
@[simp] theorem send_dieFrac (s : State) (msg : Msg) : (s.send msg).dieFrac = s.dieFrac := by rfl
@[simp] theorem send_podtime (s : State) (msg : Msg) : (s.send msg).podtime = s.podtime := by rfl
@[simp] theorem send_ptstat (s : State) (msg : Msg) : (s.send msg).ptstat = s.ptstat := by rfl
@[simp] theorem send_beacon (s : State) (msg : Msg) : (s.send msg).beacon = s.beacon := by rfl
@[simp] theorem send_beaconAt (s : State) (msg : Msg) : (s.send msg).beaconAt = s.beaconAt := by rfl
@[simp] theorem send_slew (s : State) (msg : Msg) : (s.send msg).slew = s.slew := by rfl
@[simp] theorem send_slewFrac (s : State) (msg : Msg) : (s.send msg).slewFrac = s.slewFrac := by rfl
@[simp] theorem send_image (s : State) (msg : Msg) : (s.send msg).image = s.image := by rfl
@[simp] theorem send_spare (s : State) (msg : Msg) : (s.send msg).spare = s.spare := by rfl
@[simp] theorem send_lostSite (s : State) (msg : Msg) : (s.send msg).lostSite = s.lostSite := by rfl
@[simp] theorem send_qdbase (s : State) (msg : Msg) : (s.send msg).qdbase = s.qdbase := by rfl
@[simp] theorem send_qdlen (s : State) (msg : Msg) : (s.send msg).qdlen = s.qdlen := by rfl
@[simp] theorem send_dtbase (s : State) (msg : Msg) : (s.send msg).dtbase = s.dtbase := by rfl
@[simp] theorem send_dlbase (s : State) (msg : Msg) : (s.send msg).dlbase = s.dlbase := by rfl
@[simp] theorem send_vacateReg (s : State) (msg : Msg) : (s.send msg).vacateReg = s.vacateReg := by rfl
@[simp] theorem send_orderReqs (s : State) (msg : Msg) : (s.send msg).orderReqs = s.orderReqs := by rfl
@[simp] theorem send_acolor (s : State) (msg : Msg) : (s.send msg).acolor = s.acolor := by rfl
@[simp] theorem send_quiesce (s : State) (msg : Msg) : (s.send msg).quiesce = s.quiesce := by rfl
@[simp] theorem send_quiesceSince (s : State) (msg : Msg) : (s.send msg).quiesceSince = s.quiesceSince := by rfl
@[simp] theorem send_qctl (s : State) (msg : Msg) : (s.send msg).qctl = s.qctl := by rfl
@[simp] theorem send_qorder (s : State) (msg : Msg) : (s.send msg).qorder = s.qorder := by rfl
@[simp] theorem send_portw (s : State) (msg : Msg) : (s.send msg).portw = s.portw := by rfl
@[simp] theorem send_cxlwin (s : State) (msg : Msg) : (s.send msg).cxlwin = s.cxlwin := by rfl
@[simp] theorem send_hgcfg (s : State) (msg : Msg) : (s.send msg).hgcfg = s.hgcfg := by rfl
@[simp] theorem send_errc (s : State) (msg : Msg) : (s.send msg).errc = s.errc := by rfl
@[simp] theorem send_snapreq (s : State) (msg : Msg) : (s.send msg).snapreq = s.snapreq := by rfl
@[simp] theorem send_fsnap (s : State) (msg : Msg) : (s.send msg).fsnap = s.fsnap := by rfl
@[simp] theorem send_pwrcap (s : State) (msg : Msg) : (s.send msg).pwrcap = s.pwrcap := by rfl
@[simp] theorem send_snapSeq (s : State) (msg : Msg) : (s.send msg).snapSeq = s.snapSeq := by rfl
@[simp] theorem send_snaps (s : State) (msg : Msg) : (s.send msg).snaps = s.snaps := by rfl
@[simp] theorem send_clocks (s : State) (msg : Msg) : (s.send msg).clocks = s.clocks := by rfl
@[simp] theorem send_hot (s : State) (msg : Msg) : (s.send msg).hot = s.hot := by rfl
@[simp] theorem send_boot (s : State) (msg : Msg) : (s.send msg).boot = s.boot := by rfl
@[simp] theorem send_lycelLog (s : State) (msg : Msg) : (s.send msg).lycelLog = s.lycelLog := by rfl
@[simp] theorem send_gone (s : State) (msg : Msg) : (s.send msg).gone = s.gone := by rfl
@[simp] theorem send_fresh (s : State) (msg : Msg) : (s.send msg).fresh = s.fresh := by rfl
@[simp] theorem send_agenda (s : State) (msg : Msg) : (s.send msg).agenda = s.agenda := by rfl
@[simp] theorem send_focus (s : State) (msg : Msg) : (s.send msg).focus = s.focus := by rfl
@[simp] theorem send_enginePort (s : State) (msg : Msg) : (s.send msg).enginePort = s.enginePort := by rfl
@[simp] theorem send_mainUid (s : State) (msg : Msg) : (s.send msg).mainUid = s.mainUid := by rfl
@[simp] theorem send_at (s : State) (msg : Msg) : (s.send msg).at_ = s.at_ := by rfl
@[simp] theorem send_absent (s : State) (msg : Msg) : (s.send msg).absent = s.absent := by rfl

/-! ### miss -/

@[simp] theorem miss_mem (s : State) (a : Nat) : (s.miss a).mem = s.mem := by rfl
@[simp] theorem miss_live (s : State) (a : Nat) : (s.miss a).live = s.live := by rfl
@[simp] theorem miss_poison (s : State) (a : Nat) : (s.miss a).poison = s.poison := by rfl
@[simp] theorem miss_strands (s : State) (a : Nat) : (s.miss a).strands = s.strands := by rfl
@[simp] theorem miss_vtiles (s : State) (a : Nat) : (s.miss a).vtiles = s.vtiles := by rfl
@[simp] theorem miss_teams (s : State) (a : Nat) : (s.miss a).teams = s.teams := by rfl
@[simp] theorem miss_units (s : State) (a : Nat) : (s.miss a).units = s.units := by rfl
@[simp] theorem miss_tiles (s : State) (a : Nat) : (s.miss a).tiles = s.tiles := by rfl
@[simp] theorem miss_copies (s : State) (a : Nat) : (s.miss a).copies = s.copies := by rfl
@[simp] theorem miss_doneCopies (s : State) (a : Nat) : (s.miss a).doneCopies = s.doneCopies := by rfl
@[simp] theorem miss_landings (s : State) (a : Nat) : (s.miss a).landings = s.landings := by rfl
@[simp] theorem miss_incs (s : State) (a : Nat) : (s.miss a).incs = s.incs := by rfl
@[simp] theorem miss_amos (s : State) (a : Nat) : (s.miss a).amos = s.amos := by rfl
@[simp] theorem miss_fills (s : State) (a : Nat) : (s.miss a).fills = s.fills := by rfl
@[simp] theorem miss_reds (s : State) (a : Nat) : (s.miss a).reds = s.reds := by rfl
@[simp] theorem miss_stats (s : State) (a : Nat) : (s.miss a).stats = s.stats := by rfl
@[simp] theorem miss_remotes (s : State) (a : Nat) : (s.miss a).remotes = s.remotes := by rfl
@[simp] theorem miss_peerWork (s : State) (a : Nat) : (s.miss a).peerWork = s.peerWork := by rfl
@[simp] theorem miss_kept (s : State) (a : Nat) : (s.miss a).kept = s.kept := by rfl
@[simp] theorem miss_graphs (s : State) (a : Nat) : (s.miss a).graphs = s.graphs := by rfl
@[simp] theorem miss_runs (s : State) (a : Nat) : (s.miss a).runs = s.runs := by rfl
@[simp] theorem miss_staging (s : State) (a : Nat) : (s.miss a).staging = s.staging := by rfl
@[simp] theorem miss_vreports (s : State) (a : Nat) : (s.miss a).vreports = s.vreports := by rfl
@[simp] theorem miss_fencedGroups (s : State) (a : Nat) : (s.miss a).fencedGroups = s.fencedGroups := by rfl
@[simp] theorem miss_qslots (s : State) (a : Nat) : (s.miss a).qslots = s.qslots := by rfl
@[simp] theorem miss_pending (s : State) (a : Nat) : (s.miss a).pending = s.pending := by rfl
@[simp] theorem miss_doneRecs (s : State) (a : Nat) : (s.miss a).doneRecs = s.doneRecs := by rfl
@[simp] theorem miss_launches (s : State) (a : Nat) : (s.miss a).launches = s.launches := by rfl
@[simp] theorem miss_gangs (s : State) (a : Nat) : (s.miss a).gangs = s.gangs := by rfl
@[simp] theorem miss_served (s : State) (a : Nat) : (s.miss a).served = s.served := by rfl
@[simp] theorem miss_quads (s : State) (a : Nat) : (s.miss a).quads = s.quads := by rfl
@[simp] theorem miss_credits (s : State) (a : Nat) : (s.miss a).credits = s.credits := by rfl
@[simp] theorem miss_hops (s : State) (a : Nat) : (s.miss a).hops = s.hops := by rfl
@[simp] theorem miss_inbound (s : State) (a : Nat) : (s.miss a).inbound = s.inbound := by rfl
@[simp] theorem miss_bufs (s : State) (a : Nat) : (s.miss a).bufs = s.bufs := by rfl
@[simp] theorem miss_routes (s : State) (a : Nat) : (s.miss a).routes = s.routes := by rfl
@[simp] theorem miss_uec (s : State) (a : Nat) : (s.miss a).uec = s.uec := by rfl
@[simp] theorem miss_cycle (s : State) (a : Nat) : (s.miss a).cycle = s.cycle := by rfl
@[simp] theorem miss_cycleFrac (s : State) (a : Nat) : (s.miss a).cycleFrac = s.cycleFrac := by rfl
@[simp] theorem miss_dieCycle (s : State) (a : Nat) : (s.miss a).dieCycle = s.dieCycle := by rfl
@[simp] theorem miss_dieFrac (s : State) (a : Nat) : (s.miss a).dieFrac = s.dieFrac := by rfl
@[simp] theorem miss_podtime (s : State) (a : Nat) : (s.miss a).podtime = s.podtime := by rfl
@[simp] theorem miss_ptstat (s : State) (a : Nat) : (s.miss a).ptstat = s.ptstat := by rfl
@[simp] theorem miss_beacon (s : State) (a : Nat) : (s.miss a).beacon = s.beacon := by rfl
@[simp] theorem miss_beaconAt (s : State) (a : Nat) : (s.miss a).beaconAt = s.beaconAt := by rfl
@[simp] theorem miss_slew (s : State) (a : Nat) : (s.miss a).slew = s.slew := by rfl
@[simp] theorem miss_slewFrac (s : State) (a : Nat) : (s.miss a).slewFrac = s.slewFrac := by rfl
@[simp] theorem miss_image (s : State) (a : Nat) : (s.miss a).image = s.image := by rfl
@[simp] theorem miss_spare (s : State) (a : Nat) : (s.miss a).spare = s.spare := by rfl
@[simp] theorem miss_lostSite (s : State) (a : Nat) : (s.miss a).lostSite = s.lostSite := by rfl
@[simp] theorem miss_qdbase (s : State) (a : Nat) : (s.miss a).qdbase = s.qdbase := by rfl
@[simp] theorem miss_qdlen (s : State) (a : Nat) : (s.miss a).qdlen = s.qdlen := by rfl
@[simp] theorem miss_dtbase (s : State) (a : Nat) : (s.miss a).dtbase = s.dtbase := by rfl
@[simp] theorem miss_dlbase (s : State) (a : Nat) : (s.miss a).dlbase = s.dlbase := by rfl
@[simp] theorem miss_vacateReg (s : State) (a : Nat) : (s.miss a).vacateReg = s.vacateReg := by rfl
@[simp] theorem miss_orderReqs (s : State) (a : Nat) : (s.miss a).orderReqs = s.orderReqs := by rfl
@[simp] theorem miss_acolor (s : State) (a : Nat) : (s.miss a).acolor = s.acolor := by rfl
@[simp] theorem miss_quiesce (s : State) (a : Nat) : (s.miss a).quiesce = s.quiesce := by rfl
@[simp] theorem miss_quiesceSince (s : State) (a : Nat) : (s.miss a).quiesceSince = s.quiesceSince := by rfl
@[simp] theorem miss_qctl (s : State) (a : Nat) : (s.miss a).qctl = s.qctl := by rfl
@[simp] theorem miss_qorder (s : State) (a : Nat) : (s.miss a).qorder = s.qorder := by rfl
@[simp] theorem miss_portw (s : State) (a : Nat) : (s.miss a).portw = s.portw := by rfl
@[simp] theorem miss_cxlwin (s : State) (a : Nat) : (s.miss a).cxlwin = s.cxlwin := by rfl
@[simp] theorem miss_hgcfg (s : State) (a : Nat) : (s.miss a).hgcfg = s.hgcfg := by rfl
@[simp] theorem miss_errc (s : State) (a : Nat) : (s.miss a).errc = s.errc := by rfl
@[simp] theorem miss_snapreq (s : State) (a : Nat) : (s.miss a).snapreq = s.snapreq := by rfl
@[simp] theorem miss_fsnap (s : State) (a : Nat) : (s.miss a).fsnap = s.fsnap := by rfl
@[simp] theorem miss_pwrcap (s : State) (a : Nat) : (s.miss a).pwrcap = s.pwrcap := by rfl
@[simp] theorem miss_snapSeq (s : State) (a : Nat) : (s.miss a).snapSeq = s.snapSeq := by rfl
@[simp] theorem miss_snaps (s : State) (a : Nat) : (s.miss a).snaps = s.snaps := by rfl
@[simp] theorem miss_clocks (s : State) (a : Nat) : (s.miss a).clocks = s.clocks := by rfl
@[simp] theorem miss_hot (s : State) (a : Nat) : (s.miss a).hot = s.hot := by rfl
@[simp] theorem miss_boot (s : State) (a : Nat) : (s.miss a).boot = s.boot := by rfl
@[simp] theorem miss_lycelLog (s : State) (a : Nat) : (s.miss a).lycelLog = s.lycelLog := by rfl
@[simp] theorem miss_outbox (s : State) (a : Nat) : (s.miss a).outbox = s.outbox := by rfl
@[simp] theorem miss_gone (s : State) (a : Nat) : (s.miss a).gone = s.gone := by rfl
@[simp] theorem miss_fresh (s : State) (a : Nat) : (s.miss a).fresh = s.fresh := by rfl
@[simp] theorem miss_agenda (s : State) (a : Nat) : (s.miss a).agenda = s.agenda := by rfl
@[simp] theorem miss_focus (s : State) (a : Nat) : (s.miss a).focus = s.focus := by rfl
@[simp] theorem miss_enginePort (s : State) (a : Nat) : (s.miss a).enginePort = s.enginePort := by rfl
@[simp] theorem miss_mainUid (s : State) (a : Nat) : (s.miss a).mainUid = s.mainUid := by rfl
@[simp] theorem miss_at (s : State) (a : Nat) : (s.miss a).at_ = s.at_ := by rfl

/-! ### update -/

@[simp] theorem update_live (s : State) (a : Nat) (bs : List Byte) : (s.update a bs).live = s.live := by rfl
@[simp] theorem update_poison (s : State) (a : Nat) (bs : List Byte) : (s.update a bs).poison = s.poison := by rfl
@[simp] theorem update_strands (s : State) (a : Nat) (bs : List Byte) : (s.update a bs).strands = s.strands := by rfl
@[simp] theorem update_vtiles (s : State) (a : Nat) (bs : List Byte) : (s.update a bs).vtiles = s.vtiles := by rfl
@[simp] theorem update_teams (s : State) (a : Nat) (bs : List Byte) : (s.update a bs).teams = s.teams := by rfl
@[simp] theorem update_units (s : State) (a : Nat) (bs : List Byte) : (s.update a bs).units = s.units := by rfl
@[simp] theorem update_tiles (s : State) (a : Nat) (bs : List Byte) : (s.update a bs).tiles = s.tiles := by rfl
@[simp] theorem update_copies (s : State) (a : Nat) (bs : List Byte) : (s.update a bs).copies = s.copies := by rfl
@[simp] theorem update_doneCopies (s : State) (a : Nat) (bs : List Byte) : (s.update a bs).doneCopies = s.doneCopies := by rfl
@[simp] theorem update_landings (s : State) (a : Nat) (bs : List Byte) : (s.update a bs).landings = s.landings := by rfl
@[simp] theorem update_incs (s : State) (a : Nat) (bs : List Byte) : (s.update a bs).incs = s.incs := by rfl
@[simp] theorem update_amos (s : State) (a : Nat) (bs : List Byte) : (s.update a bs).amos = s.amos := by rfl
@[simp] theorem update_fills (s : State) (a : Nat) (bs : List Byte) : (s.update a bs).fills = s.fills := by rfl
@[simp] theorem update_reds (s : State) (a : Nat) (bs : List Byte) : (s.update a bs).reds = s.reds := by rfl
@[simp] theorem update_stats (s : State) (a : Nat) (bs : List Byte) : (s.update a bs).stats = s.stats := by rfl
@[simp] theorem update_remotes (s : State) (a : Nat) (bs : List Byte) : (s.update a bs).remotes = s.remotes := by rfl
@[simp] theorem update_peerWork (s : State) (a : Nat) (bs : List Byte) : (s.update a bs).peerWork = s.peerWork := by rfl
@[simp] theorem update_kept (s : State) (a : Nat) (bs : List Byte) : (s.update a bs).kept = s.kept := by rfl
@[simp] theorem update_graphs (s : State) (a : Nat) (bs : List Byte) : (s.update a bs).graphs = s.graphs := by rfl
@[simp] theorem update_runs (s : State) (a : Nat) (bs : List Byte) : (s.update a bs).runs = s.runs := by rfl
@[simp] theorem update_staging (s : State) (a : Nat) (bs : List Byte) : (s.update a bs).staging = s.staging := by rfl
@[simp] theorem update_vreports (s : State) (a : Nat) (bs : List Byte) : (s.update a bs).vreports = s.vreports := by rfl
@[simp] theorem update_fencedGroups (s : State) (a : Nat) (bs : List Byte) : (s.update a bs).fencedGroups = s.fencedGroups := by rfl
@[simp] theorem update_qslots (s : State) (a : Nat) (bs : List Byte) : (s.update a bs).qslots = s.qslots := by rfl
@[simp] theorem update_pending (s : State) (a : Nat) (bs : List Byte) : (s.update a bs).pending = s.pending := by rfl
@[simp] theorem update_doneRecs (s : State) (a : Nat) (bs : List Byte) : (s.update a bs).doneRecs = s.doneRecs := by rfl
@[simp] theorem update_launches (s : State) (a : Nat) (bs : List Byte) : (s.update a bs).launches = s.launches := by rfl
@[simp] theorem update_gangs (s : State) (a : Nat) (bs : List Byte) : (s.update a bs).gangs = s.gangs := by rfl
@[simp] theorem update_served (s : State) (a : Nat) (bs : List Byte) : (s.update a bs).served = s.served := by rfl
@[simp] theorem update_quads (s : State) (a : Nat) (bs : List Byte) : (s.update a bs).quads = s.quads := by rfl
@[simp] theorem update_credits (s : State) (a : Nat) (bs : List Byte) : (s.update a bs).credits = s.credits := by rfl
@[simp] theorem update_hops (s : State) (a : Nat) (bs : List Byte) : (s.update a bs).hops = s.hops := by rfl
@[simp] theorem update_inbound (s : State) (a : Nat) (bs : List Byte) : (s.update a bs).inbound = s.inbound := by rfl
@[simp] theorem update_bufs (s : State) (a : Nat) (bs : List Byte) : (s.update a bs).bufs = s.bufs := by rfl
@[simp] theorem update_routes (s : State) (a : Nat) (bs : List Byte) : (s.update a bs).routes = s.routes := by rfl
@[simp] theorem update_uec (s : State) (a : Nat) (bs : List Byte) : (s.update a bs).uec = s.uec := by rfl
@[simp] theorem update_cycle (s : State) (a : Nat) (bs : List Byte) : (s.update a bs).cycle = s.cycle := by rfl
@[simp] theorem update_cycleFrac (s : State) (a : Nat) (bs : List Byte) : (s.update a bs).cycleFrac = s.cycleFrac := by rfl
@[simp] theorem update_dieCycle (s : State) (a : Nat) (bs : List Byte) : (s.update a bs).dieCycle = s.dieCycle := by rfl
@[simp] theorem update_dieFrac (s : State) (a : Nat) (bs : List Byte) : (s.update a bs).dieFrac = s.dieFrac := by rfl
@[simp] theorem update_podtime (s : State) (a : Nat) (bs : List Byte) : (s.update a bs).podtime = s.podtime := by rfl
@[simp] theorem update_ptstat (s : State) (a : Nat) (bs : List Byte) : (s.update a bs).ptstat = s.ptstat := by rfl
@[simp] theorem update_beacon (s : State) (a : Nat) (bs : List Byte) : (s.update a bs).beacon = s.beacon := by rfl
@[simp] theorem update_beaconAt (s : State) (a : Nat) (bs : List Byte) : (s.update a bs).beaconAt = s.beaconAt := by rfl
@[simp] theorem update_slew (s : State) (a : Nat) (bs : List Byte) : (s.update a bs).slew = s.slew := by rfl
@[simp] theorem update_slewFrac (s : State) (a : Nat) (bs : List Byte) : (s.update a bs).slewFrac = s.slewFrac := by rfl
@[simp] theorem update_image (s : State) (a : Nat) (bs : List Byte) : (s.update a bs).image = s.image := by rfl
@[simp] theorem update_spare (s : State) (a : Nat) (bs : List Byte) : (s.update a bs).spare = s.spare := by rfl
@[simp] theorem update_lostSite (s : State) (a : Nat) (bs : List Byte) : (s.update a bs).lostSite = s.lostSite := by rfl
@[simp] theorem update_qdbase (s : State) (a : Nat) (bs : List Byte) : (s.update a bs).qdbase = s.qdbase := by rfl
@[simp] theorem update_qdlen (s : State) (a : Nat) (bs : List Byte) : (s.update a bs).qdlen = s.qdlen := by rfl
@[simp] theorem update_dtbase (s : State) (a : Nat) (bs : List Byte) : (s.update a bs).dtbase = s.dtbase := by rfl
@[simp] theorem update_dlbase (s : State) (a : Nat) (bs : List Byte) : (s.update a bs).dlbase = s.dlbase := by rfl
@[simp] theorem update_vacateReg (s : State) (a : Nat) (bs : List Byte) : (s.update a bs).vacateReg = s.vacateReg := by rfl
@[simp] theorem update_orderReqs (s : State) (a : Nat) (bs : List Byte) : (s.update a bs).orderReqs = s.orderReqs := by rfl
@[simp] theorem update_acolor (s : State) (a : Nat) (bs : List Byte) : (s.update a bs).acolor = s.acolor := by rfl
@[simp] theorem update_quiesce (s : State) (a : Nat) (bs : List Byte) : (s.update a bs).quiesce = s.quiesce := by rfl
@[simp] theorem update_quiesceSince (s : State) (a : Nat) (bs : List Byte) : (s.update a bs).quiesceSince = s.quiesceSince := by rfl
@[simp] theorem update_qctl (s : State) (a : Nat) (bs : List Byte) : (s.update a bs).qctl = s.qctl := by rfl
@[simp] theorem update_qorder (s : State) (a : Nat) (bs : List Byte) : (s.update a bs).qorder = s.qorder := by rfl
@[simp] theorem update_portw (s : State) (a : Nat) (bs : List Byte) : (s.update a bs).portw = s.portw := by rfl
@[simp] theorem update_cxlwin (s : State) (a : Nat) (bs : List Byte) : (s.update a bs).cxlwin = s.cxlwin := by rfl
@[simp] theorem update_hgcfg (s : State) (a : Nat) (bs : List Byte) : (s.update a bs).hgcfg = s.hgcfg := by rfl
@[simp] theorem update_errc (s : State) (a : Nat) (bs : List Byte) : (s.update a bs).errc = s.errc := by rfl
@[simp] theorem update_snapreq (s : State) (a : Nat) (bs : List Byte) : (s.update a bs).snapreq = s.snapreq := by rfl
@[simp] theorem update_fsnap (s : State) (a : Nat) (bs : List Byte) : (s.update a bs).fsnap = s.fsnap := by rfl
@[simp] theorem update_pwrcap (s : State) (a : Nat) (bs : List Byte) : (s.update a bs).pwrcap = s.pwrcap := by rfl
@[simp] theorem update_snapSeq (s : State) (a : Nat) (bs : List Byte) : (s.update a bs).snapSeq = s.snapSeq := by rfl
@[simp] theorem update_snaps (s : State) (a : Nat) (bs : List Byte) : (s.update a bs).snaps = s.snaps := by rfl
@[simp] theorem update_clocks (s : State) (a : Nat) (bs : List Byte) : (s.update a bs).clocks = s.clocks := by rfl
@[simp] theorem update_hot (s : State) (a : Nat) (bs : List Byte) : (s.update a bs).hot = s.hot := by rfl
@[simp] theorem update_boot (s : State) (a : Nat) (bs : List Byte) : (s.update a bs).boot = s.boot := by rfl
@[simp] theorem update_lycelLog (s : State) (a : Nat) (bs : List Byte) : (s.update a bs).lycelLog = s.lycelLog := by rfl
@[simp] theorem update_outbox (s : State) (a : Nat) (bs : List Byte) : (s.update a bs).outbox = s.outbox := by rfl
@[simp] theorem update_gone (s : State) (a : Nat) (bs : List Byte) : (s.update a bs).gone = s.gone := by rfl
@[simp] theorem update_fresh (s : State) (a : Nat) (bs : List Byte) : (s.update a bs).fresh = s.fresh := by rfl
@[simp] theorem update_agenda (s : State) (a : Nat) (bs : List Byte) : (s.update a bs).agenda = s.agenda := by rfl
@[simp] theorem update_focus (s : State) (a : Nat) (bs : List Byte) : (s.update a bs).focus = s.focus := by rfl
@[simp] theorem update_enginePort (s : State) (a : Nat) (bs : List Byte) : (s.update a bs).enginePort = s.enginePort := by rfl
@[simp] theorem update_mainUid (s : State) (a : Nat) (bs : List Byte) : (s.update a bs).mainUid = s.mainUid := by rfl
@[simp] theorem update_at (s : State) (a : Nat) (bs : List Byte) : (s.update a bs).at_ = s.at_ := by rfl
@[simp] theorem update_absent (s : State) (a : Nat) (bs : List Byte) : (s.update a bs).absent = s.absent := by rfl

/-! ### Lookups after an update -/

theorem strandAt_putAt (s : State) (tile slot : Nat) (k : Strand) (a b : Nat) :
    (s.putAt tile slot k).strandAt a b = if strandKey a b = strandKey tile slot then some k else s.strandAt a b := by
  simp only [strandAt, putAt, lookup_insertAt]

@[simp] theorem strandAt_putAt_self (s : State) (tile slot : Nat) (k : Strand) :
    (s.putAt tile slot k).strandAt tile slot = some k := by simp [strandAt_putAt]

@[simp] theorem strand?_put (s : State) (k : Strand) : (s.put k).strand? = some k := by
  simp [strand?, put, putAt]

theorem strandAt_dropAt (s : State) (tile slot a b : Nat) :
    (s.dropAt tile slot).strandAt a b = if strandKey a b = strandKey tile slot then none else s.strandAt a b := by
  simp only [strandAt, dropAt, lookup_eraseAt]

theorem team?_putTeam (s : State) (id : Nat) (t : Team) (j : Nat) :
    (s.putTeam id t).team? j = if j = id then some t else s.team? j := by
  simp only [team?, putTeam, lookup_insertAt]

@[simp] theorem team?_putTeam_self (s : State) (id : Nat) (t : Team) : (s.putTeam id t).team? id = some t := by
  simp [team?_putTeam]

theorem vtile?_putVtile (s : State) (id lr : Nat) (v : Vtile) (j r : Nat) :
    (s.putVtile id lr v).vtile? j r = if vtileKey j r = vtileKey id lr then some v else s.vtile? j r := by
  simp only [vtile?, putVtile, lookup_insertAt]

@[simp] theorem vtile?_putVtile_self (s : State) (id lr : Nat) (v : Vtile) :
    (s.putVtile id lr v).vtile? id lr = some v := by simp [vtile?_putVtile]

theorem tile_putTile (s : State) (i : Nat) (x : Tile) (j : Nat) :
    (s.putTile i x).tile j = if j = i then x else s.tile j := by
  simp only [tile, putTile, lookup_insertAt]; split <;> rfl

@[simp] theorem tile_putTile_self (s : State) (i : Nat) (x : Tile) : (s.putTile i x).tile i = x := by simp [tile_putTile]

theorem quad_putQuad (s : State) (q : Nat) (x : Quad) (j : Nat) :
    (s.putQuad q x).quad j = if j = q then x else s.quad j := by
  simp only [quad, putQuad, lookup_insertAt]; split <;> rfl

@[simp] theorem quad_putQuad_self (s : State) (q : Nat) (x : Quad) : (s.putQuad q x).quad q = x := by simp [quad_putQuad]

theorem unit_putUnit (s : State) (id : Nat) (l : Scope) (u : Nat) (x : BarUnit) (j : Nat) (m : Scope) (w : Nat) :
    (s.putUnit id l u x).unit j m w = if unitKey j m w = unitKey id l u then x else s.unit j m w := by
  simp only [unit, putUnit, lookup_insertAt]; split <;> rfl

@[simp] theorem unit_putUnit_self (s : State) (id : Nat) (l : Scope) (u : Nat) (x : BarUnit) :
    (s.putUnit id l u x).unit id l u = x := by simp [unit_putUnit]

/-! What reads one table is the same after an update of another. -/

@[simp] theorem team?_putAt (s : State) (tile slot : Nat) (k : Strand) (j : Nat) : (s.putAt tile slot k).team? j = s.team? j := by rfl
@[simp] theorem vtile?_putAt (s : State) (tile slot : Nat) (k : Strand) (j r : Nat) : (s.putAt tile slot k).vtile? j r = s.vtile? j r := by rfl
@[simp] theorem tile_putAt (s : State) (tile slot : Nat) (k : Strand) (j : Nat) : (s.putAt tile slot k).tile j = s.tile j := by rfl
@[simp] theorem quad_putAt (s : State) (tile slot : Nat) (k : Strand) (j : Nat) : (s.putAt tile slot k).quad j = s.quad j := by rfl
@[simp] theorem unit_putAt (s : State) (tile slot : Nat) (k : Strand) (j : Nat) (m : Scope) (w : Nat) : (s.putAt tile slot k).unit j m w = s.unit j m w := by rfl
@[simp] theorem anyPoison_putAt (s : State) (tile slot : Nat) (k : Strand) (p n : Nat) : (s.putAt tile slot k).anyPoison p n = s.anyPoison p n := by rfl
@[simp] theorem team?_put (s : State) (k : Strand) (j : Nat) : (s.put k).team? j = s.team? j := by rfl
@[simp] theorem vtile?_put (s : State) (k : Strand) (j r : Nat) : (s.put k).vtile? j r = s.vtile? j r := by rfl
@[simp] theorem tile_put (s : State) (k : Strand) (j : Nat) : (s.put k).tile j = s.tile j := by rfl
@[simp] theorem quad_put (s : State) (k : Strand) (j : Nat) : (s.put k).quad j = s.quad j := by rfl
@[simp] theorem unit_put (s : State) (k : Strand) (j : Nat) (m : Scope) (w : Nat) : (s.put k).unit j m w = s.unit j m w := by rfl
@[simp] theorem anyPoison_put (s : State) (k : Strand) (p n : Nat) : (s.put k).anyPoison p n = s.anyPoison p n := by rfl
@[simp] theorem team?_dropAt (s : State) (tile slot : Nat) (j : Nat) : (s.dropAt tile slot).team? j = s.team? j := by rfl
@[simp] theorem vtile?_dropAt (s : State) (tile slot : Nat) (j r : Nat) : (s.dropAt tile slot).vtile? j r = s.vtile? j r := by rfl
@[simp] theorem tile_dropAt (s : State) (tile slot : Nat) (j : Nat) : (s.dropAt tile slot).tile j = s.tile j := by rfl
@[simp] theorem quad_dropAt (s : State) (tile slot : Nat) (j : Nat) : (s.dropAt tile slot).quad j = s.quad j := by rfl
@[simp] theorem unit_dropAt (s : State) (tile slot : Nat) (j : Nat) (m : Scope) (w : Nat) : (s.dropAt tile slot).unit j m w = s.unit j m w := by rfl
@[simp] theorem anyPoison_dropAt (s : State) (tile slot : Nat) (p n : Nat) : (s.dropAt tile slot).anyPoison p n = s.anyPoison p n := by rfl
@[simp] theorem strand?_putTeam (s : State) (id : Nat) (t : Team)  : (s.putTeam id t).strand? = s.strand? := by rfl
@[simp] theorem strandAt_putTeam (s : State) (id : Nat) (t : Team) (a b : Nat) : (s.putTeam id t).strandAt a b = s.strandAt a b := by rfl
@[simp] theorem vtile?_putTeam (s : State) (id : Nat) (t : Team) (j r : Nat) : (s.putTeam id t).vtile? j r = s.vtile? j r := by rfl
@[simp] theorem tile_putTeam (s : State) (id : Nat) (t : Team) (j : Nat) : (s.putTeam id t).tile j = s.tile j := by rfl
@[simp] theorem quad_putTeam (s : State) (id : Nat) (t : Team) (j : Nat) : (s.putTeam id t).quad j = s.quad j := by rfl
@[simp] theorem unit_putTeam (s : State) (id : Nat) (t : Team) (j : Nat) (m : Scope) (w : Nat) : (s.putTeam id t).unit j m w = s.unit j m w := by rfl
@[simp] theorem anyPoison_putTeam (s : State) (id : Nat) (t : Team) (p n : Nat) : (s.putTeam id t).anyPoison p n = s.anyPoison p n := by rfl
@[simp] theorem strand?_putVtile (s : State) (id lr : Nat) (v : Vtile)  : (s.putVtile id lr v).strand? = s.strand? := by rfl
@[simp] theorem strandAt_putVtile (s : State) (id lr : Nat) (v : Vtile) (a b : Nat) : (s.putVtile id lr v).strandAt a b = s.strandAt a b := by rfl
@[simp] theorem team?_putVtile (s : State) (id lr : Nat) (v : Vtile) (j : Nat) : (s.putVtile id lr v).team? j = s.team? j := by rfl
@[simp] theorem tile_putVtile (s : State) (id lr : Nat) (v : Vtile) (j : Nat) : (s.putVtile id lr v).tile j = s.tile j := by rfl
@[simp] theorem quad_putVtile (s : State) (id lr : Nat) (v : Vtile) (j : Nat) : (s.putVtile id lr v).quad j = s.quad j := by rfl
@[simp] theorem unit_putVtile (s : State) (id lr : Nat) (v : Vtile) (j : Nat) (m : Scope) (w : Nat) : (s.putVtile id lr v).unit j m w = s.unit j m w := by rfl
@[simp] theorem anyPoison_putVtile (s : State) (id lr : Nat) (v : Vtile) (p n : Nat) : (s.putVtile id lr v).anyPoison p n = s.anyPoison p n := by rfl
@[simp] theorem strand?_putTile (s : State) (i : Nat) (x : Tile)  : (s.putTile i x).strand? = s.strand? := by rfl
@[simp] theorem strandAt_putTile (s : State) (i : Nat) (x : Tile) (a b : Nat) : (s.putTile i x).strandAt a b = s.strandAt a b := by rfl
@[simp] theorem team?_putTile (s : State) (i : Nat) (x : Tile) (j : Nat) : (s.putTile i x).team? j = s.team? j := by rfl
@[simp] theorem vtile?_putTile (s : State) (i : Nat) (x : Tile) (j r : Nat) : (s.putTile i x).vtile? j r = s.vtile? j r := by rfl
@[simp] theorem quad_putTile (s : State) (i : Nat) (x : Tile) (j : Nat) : (s.putTile i x).quad j = s.quad j := by rfl
@[simp] theorem unit_putTile (s : State) (i : Nat) (x : Tile) (j : Nat) (m : Scope) (w : Nat) : (s.putTile i x).unit j m w = s.unit j m w := by rfl
@[simp] theorem anyPoison_putTile (s : State) (i : Nat) (x : Tile) (p n : Nat) : (s.putTile i x).anyPoison p n = s.anyPoison p n := by rfl
@[simp] theorem strand?_putQuad (s : State) (q : Nat) (x : Quad)  : (s.putQuad q x).strand? = s.strand? := by rfl
@[simp] theorem strandAt_putQuad (s : State) (q : Nat) (x : Quad) (a b : Nat) : (s.putQuad q x).strandAt a b = s.strandAt a b := by rfl
@[simp] theorem team?_putQuad (s : State) (q : Nat) (x : Quad) (j : Nat) : (s.putQuad q x).team? j = s.team? j := by rfl
@[simp] theorem vtile?_putQuad (s : State) (q : Nat) (x : Quad) (j r : Nat) : (s.putQuad q x).vtile? j r = s.vtile? j r := by rfl
@[simp] theorem tile_putQuad (s : State) (q : Nat) (x : Quad) (j : Nat) : (s.putQuad q x).tile j = s.tile j := by rfl
@[simp] theorem unit_putQuad (s : State) (q : Nat) (x : Quad) (j : Nat) (m : Scope) (w : Nat) : (s.putQuad q x).unit j m w = s.unit j m w := by rfl
@[simp] theorem anyPoison_putQuad (s : State) (q : Nat) (x : Quad) (p n : Nat) : (s.putQuad q x).anyPoison p n = s.anyPoison p n := by rfl
@[simp] theorem strand?_putUnit (s : State) (id : Nat) (l : Scope) (u : Nat) (x : BarUnit)  : (s.putUnit id l u x).strand? = s.strand? := by rfl
@[simp] theorem strandAt_putUnit (s : State) (id : Nat) (l : Scope) (u : Nat) (x : BarUnit) (a b : Nat) : (s.putUnit id l u x).strandAt a b = s.strandAt a b := by rfl
@[simp] theorem team?_putUnit (s : State) (id : Nat) (l : Scope) (u : Nat) (x : BarUnit) (j : Nat) : (s.putUnit id l u x).team? j = s.team? j := by rfl
@[simp] theorem vtile?_putUnit (s : State) (id : Nat) (l : Scope) (u : Nat) (x : BarUnit) (j r : Nat) : (s.putUnit id l u x).vtile? j r = s.vtile? j r := by rfl
@[simp] theorem tile_putUnit (s : State) (id : Nat) (l : Scope) (u : Nat) (x : BarUnit) (j : Nat) : (s.putUnit id l u x).tile j = s.tile j := by rfl
@[simp] theorem quad_putUnit (s : State) (id : Nat) (l : Scope) (u : Nat) (x : BarUnit) (j : Nat) : (s.putUnit id l u x).quad j = s.quad j := by rfl
@[simp] theorem anyPoison_putUnit (s : State) (id : Nat) (l : Scope) (u : Nat) (x : BarUnit) (p n : Nat) : (s.putUnit id l u x).anyPoison p n = s.anyPoison p n := by rfl
@[simp] theorem strand?_send (s : State) (msg : Msg)  : (s.send msg).strand? = s.strand? := by rfl
@[simp] theorem strandAt_send (s : State) (msg : Msg) (a b : Nat) : (s.send msg).strandAt a b = s.strandAt a b := by rfl
@[simp] theorem team?_send (s : State) (msg : Msg) (j : Nat) : (s.send msg).team? j = s.team? j := by rfl
@[simp] theorem vtile?_send (s : State) (msg : Msg) (j r : Nat) : (s.send msg).vtile? j r = s.vtile? j r := by rfl
@[simp] theorem tile_send (s : State) (msg : Msg) (j : Nat) : (s.send msg).tile j = s.tile j := by rfl
@[simp] theorem quad_send (s : State) (msg : Msg) (j : Nat) : (s.send msg).quad j = s.quad j := by rfl
@[simp] theorem unit_send (s : State) (msg : Msg) (j : Nat) (m : Scope) (w : Nat) : (s.send msg).unit j m w = s.unit j m w := by rfl
@[simp] theorem anyPoison_send (s : State) (msg : Msg) (p n : Nat) : (s.send msg).anyPoison p n = s.anyPoison p n := by rfl
@[simp] theorem strand?_miss (s : State) (q : Nat)  : (s.miss q).strand? = s.strand? := by rfl
@[simp] theorem strandAt_miss (s : State) (q : Nat) (a b : Nat) : (s.miss q).strandAt a b = s.strandAt a b := by rfl
@[simp] theorem team?_miss (s : State) (q : Nat) (j : Nat) : (s.miss q).team? j = s.team? j := by rfl
@[simp] theorem vtile?_miss (s : State) (q : Nat) (j r : Nat) : (s.miss q).vtile? j r = s.vtile? j r := by rfl
@[simp] theorem tile_miss (s : State) (q : Nat) (j : Nat) : (s.miss q).tile j = s.tile j := by rfl
@[simp] theorem quad_miss (s : State) (q : Nat) (j : Nat) : (s.miss q).quad j = s.quad j := by rfl
@[simp] theorem unit_miss (s : State) (q : Nat) (j : Nat) (m : Scope) (w : Nat) : (s.miss q).unit j m w = s.unit j m w := by rfl
@[simp] theorem anyPoison_miss (s : State) (q : Nat) (p n : Nat) : (s.miss q).anyPoison p n = s.anyPoison p n := by rfl
@[simp] theorem strand?_update (s : State) (q : Nat) (bs : List Byte)  : (s.update q bs).strand? = s.strand? := by rfl
@[simp] theorem strandAt_update (s : State) (q : Nat) (bs : List Byte) (a b : Nat) : (s.update q bs).strandAt a b = s.strandAt a b := by rfl
@[simp] theorem team?_update (s : State) (q : Nat) (bs : List Byte) (j : Nat) : (s.update q bs).team? j = s.team? j := by rfl
@[simp] theorem vtile?_update (s : State) (q : Nat) (bs : List Byte) (j r : Nat) : (s.update q bs).vtile? j r = s.vtile? j r := by rfl
@[simp] theorem tile_update (s : State) (q : Nat) (bs : List Byte) (j : Nat) : (s.update q bs).tile j = s.tile j := by rfl
@[simp] theorem quad_update (s : State) (q : Nat) (bs : List Byte) (j : Nat) : (s.update q bs).quad j = s.quad j := by rfl
@[simp] theorem unit_update (s : State) (q : Nat) (bs : List Byte) (j : Nat) (m : Scope) (w : Nat) : (s.update q bs).unit j m w = s.unit j m w := by rfl
@[simp] theorem anyPoison_update (s : State) (q : Nat) (bs : List Byte) (p n : Nat) : (s.update q bs).anyPoison p n = s.anyPoison p n := by rfl

end Sys2Proof.Machine.State
end

