-- ==== Sys2Proof/Laws/Fabric.lean ====
section
/-! SUPPORT. Packets between dies (R10, R210): what moving one changes, and when all of it comes through at once. -/

namespace Sys2Proof.Machine.State

set_option Elab.async false

/-- Moving flits over links changes nothing but the totals of the links. -/
theorem crossLinks_eq (cls n : Nat) (ls ds : List Nat) (s : State) :
    ∃ c, (crossLinks cls n ls ds s).2 = { s with credits := c } := by
  induction ls generalizing n ds s with
  | nil => exact ⟨s.credits, rfl⟩
  | cons l r ih =>
    obtain ⟨c, h⟩ := ih (ds.headD 0 + min (s.bufs.toList.getD cls 0 - ((s.credit l cls).sent - (s.credit l cls).lastFreed).toNat)
      (n - ds.headD 0)) ds.tail
      { s with credits := insertAt (8 * l + cls) { s.credit l cls with
          sent := (s.credit l cls).sent + BitVec.ofNat 32 (min (s.bufs.toList.getD cls 0
            - ((s.credit l cls).sent - (s.credit l cls).lastFreed).toNat) (n - ds.headD 0))
          freed := (s.credit l cls).freed + BitVec.ofNat 32 (min (s.bufs.toList.getD cls 0
            - ((s.credit l cls).sent - (s.credit l cls).lastFreed).toNat) (n - ds.headD 0)) } s.credits }
    exact ⟨c, h⟩

/-- Moving a packet changes nothing but the totals of links and the progress of packets. -/
theorem cross_eq (s : State) (n : Nat) (path : List Nat) (cls flits : Nat) :
    ∃ c h, (s.cross n path cls flits).2 = { s with credits := c, hops := h } := by
  unfold cross
  split
  · exact ⟨s.credits, s.hops, rfl⟩
  · obtain ⟨c, h⟩ := crossLinks_eq cls flits (pathLinks path) ((lookup n s.hops).getD []) s
    dsimp only
    split
    · exact ⟨c, _, by rw [h]⟩
    · exact ⟨c, _, by rw [h]⟩

section Frame

variable (s : State) (n : Nat) (path : List Nat) (cls flits : Nat)

@[simp] theorem cross_mem : (s.cross n path cls flits).2.mem = s.mem := by
  obtain ⟨c, h, e⟩ := s.cross_eq n path cls flits; rw [e]
@[simp] theorem cross_poison : (s.cross n path cls flits).2.poison = s.poison := by
  obtain ⟨c, h, e⟩ := s.cross_eq n path cls flits; rw [e]
@[simp] theorem cross_live : (s.cross n path cls flits).2.live = s.live := by
  obtain ⟨c, h, e⟩ := s.cross_eq n path cls flits; rw [e]
@[simp] theorem cross_strands : (s.cross n path cls flits).2.strands = s.strands := by
  obtain ⟨c, h, e⟩ := s.cross_eq n path cls flits; rw [e]
@[simp] theorem cross_teams : (s.cross n path cls flits).2.teams = s.teams := by
  obtain ⟨c, h, e⟩ := s.cross_eq n path cls flits; rw [e]
@[simp] theorem cross_vtiles : (s.cross n path cls flits).2.vtiles = s.vtiles := by
  obtain ⟨c, h, e⟩ := s.cross_eq n path cls flits; rw [e]
@[simp] theorem cross_tiles : (s.cross n path cls flits).2.tiles = s.tiles := by
  obtain ⟨c, h, e⟩ := s.cross_eq n path cls flits; rw [e]
@[simp] theorem cross_units : (s.cross n path cls flits).2.units = s.units := by
  obtain ⟨c, h, e⟩ := s.cross_eq n path cls flits; rw [e]

end Frame

/-- Flits of a class that a link takes now (R210). -/
def room (s : State) (link cls : Nat) : Nat :=
  s.bufs.toList.getD cls 0 - ((s.credit link cls).sent - (s.credit link cls).lastFreed).toNat

/-- Over links that have room for all of a packet, all of it comes through at once. -/
theorem crossLinks_room (cls n : Nat) (ls : List Nat) (s : State) (hd : ls.Nodup) (hr : ∀ l ∈ ls, n ≤ s.room l cls) :
    (crossLinks cls n ls [] s).1 = ls.map fun _ => n := by
  induction ls generalizing s with
  | nil => rfl
  | cons l r ih =>
    have h : min (s.room l cls) (n - 0) = n := by have := hr l (by simp); omega
    obtain ⟨hl, hd⟩ := List.nodup_cons.1 hd
    unfold room at h
    simp only [crossLinks, List.headD_nil, List.tail_nil, h, Nat.zero_add, List.map_cons]
    refine congrArg (n :: ·) (ih _ hd fun x hx => ?_)
    have hn : 8 * x + cls ≠ 8 * l + cls := fun e => hl (by rwa [show l = x by omega])
    have := hr x (List.mem_cons_of_mem _ hx)
    simpa only [room, credit, lookup_insertAt, if_neg hn] using this

theorem le_getLastD (n : Nat) (l : List Nat) (a : Nat) (h : l ≠ [] ∨ n ≤ a) : n ≤ (l.map fun _ => n).getLastD a := by
  induction l generalizing a with
  | nil => simpa using h
  | cons x r ih => rw [List.map_cons, List.getLastD_cons]; exact ih n (.inr (Nat.le_refl n))

/-- A packet that has not set out comes through at once when every link of its way has room for all of it (R210). -/
theorem cross_room {s : State} {n : Nat} {path : List Nat} {cls flits : Nat} (hn : lookup n s.hops = none)
    (hd : (pathLinks path).Nodup) (hr : ∀ l ∈ pathLinks path, flits ≤ s.room l cls) :
    (s.cross n path cls flits).1 = true := by
  unfold cross
  split
  · rfl
  · next hne =>
    have h := crossLinks_room cls flits (pathLinks path) s hd hr
    have hl : flits ≤ ((pathLinks path).map fun _ => flits).getLastD 0 := le_getLastD flits _ _ (.inl hne)
    simp only [hn, Option.getD_none, h, if_pos hl]

/-- A packet that has crossed every link of its way stays across. -/
theorem le_crossLinks (f cls n : Nat) (ls ds : List Nat) (s : State) (a : Nat) (hd : ∀ i < ls.length, f ≤ ds.getD i 0)
    (h : ls ≠ [] ∨ f ≤ a) : f ≤ (crossLinks cls n ls ds s).1.getLastD a := by
  induction ls generalizing n ds s a with
  | nil => simpa [crossLinks] using h
  | cons l r ih =>
    have h0 : f ≤ ds.headD 0 := by simpa [List.headD_eq_head?_getD, List.head?_eq_getElem?] using hd 0 (by simp)
    simp only [crossLinks, List.getLastD_cons]
    refine ih _ _ _ _ (fun i hi => ?_) (.inr (Nat.le_trans h0 (Nat.le_add_right _ _)))
    simpa [List.getElem?_tail] using hd (i + 1) (by simpa using hi)

/-- A packet all of which has come to the end of its way comes through (R210). -/
theorem cross_come {s : State} {n : Nat} {path : List Nat} {cls flits : Nat} {ds : List Nat} (hn : lookup n s.hops = some ds)
    (hd : ∀ i < (pathLinks path).length, flits ≤ ds.getD i 0) : (s.cross n path cls flits).1 = true := by
  unfold cross
  split
  · rfl
  · next hne =>
    have h := le_crossLinks flits cls flits (pathLinks path) ds s 0 hd (.inl hne)
    simp only [hn, Option.getD_some, if_pos h]

/-- Moving one packet leaves the progress of another. -/
theorem cross_lookup (s : State) {n m : Nat} (path : List Nat) (cls flits : Nat) (h : m ≠ n) :
    lookup m (s.cross n path cls flits).2.hops = lookup m s.hops := by
  unfold cross
  split
  · rfl
  · obtain ⟨c, e⟩ := crossLinks_eq cls flits (pathLinks path) ((lookup n s.hops).getD []) s
    dsimp only
    split <;> simp [e, h, lookup_insertAt, lookup_eraseAt]

/-- Packets all of which have come to the ends of their ways come through together (R210). -/
theorem crossAll_come {s : State} {cls : Nat} {ps : List (Nat × List Nat × Nat)} (hk : (ps.map (·.1)).Nodup)
    (h : ∀ p ∈ ps, ∃ ds, lookup p.1 s.hops = some ds ∧ ∀ i < (pathLinks p.2.1).length, p.2.2 ≤ ds.getD i 0) :
    (s.crossAll cls ps).1 = true := by
  have key : ∀ (ps : List (Nat × List Nat × Nat)) (r : List (Nat × List Nat × Nat) × State), (ps.map (·.1)).Nodup →
      (∀ p ∈ ps, ∃ ds, lookup p.1 r.2.hops = some ds ∧ ∀ i < (pathLinks p.2.1).length, p.2.2 ≤ ds.getD i 0) →
      (ps.foldl (fun (r : List (Nat × List Nat × Nat) × State) p =>
        let x := r.2.cross p.1 p.2.1 cls p.2.2
        (if x.1 then r.1 ++ [p] else r.1, x.2)) r).1 = r.1 ++ ps := by
    intro ps
    induction ps with
    | nil => intro r _ _; simp
    | cons p q ih =>
      intro r hk h
      obtain ⟨hp, hq⟩ := List.nodup_cons.1 hk
      obtain ⟨ds, hn, hd⟩ := h p (by simp)
      rw [List.foldl_cons, ih _ hq fun x hx => ?_]
      · simp [cross_come hn hd]
      · have hx' : x.1 ≠ p.1 := fun e => hp (List.mem_map.2 ⟨x, hx, e⟩)
        rw [cross_lookup _ _ _ _ hx']
        exact h x (by simp [hx])
  unfold crossAll
  rw [if_pos (by rw [key ps ([], s) hk h]; simp)]

/-- The links of a way are fewer than its places. -/
theorem length_pathLinks (p : List Nat) : (pathLinks p).length ≤ p.length - 1 := by
  induction p with
  | nil => exact Nat.le_refl 0
  | cons a r ih => cases r with
    | nil => exact Nat.le_refl 0
    | cons b r => simpa [pathLinks] using ih

/-- No way within the package has more than three links (R10). -/
theorem length_sitePath (x y : Nat) : (pathLinks (sitePath x y)).length ≤ 3 := by
  refine Nat.le_trans (length_pathLinks _) (Nat.sub_le_of_le_add ?_)
  unfold sitePath placePath
  repeat' split
  all_goals simp

end Sys2Proof.Machine.State
end

