-- ==== Sys2Proof/Laws/Memory.lean ====
section
/-! SUPPORT. Memory: a read after a write, every other byte, and the canonical form, which each operation keeps (log 5). -/

namespace Sys2Proof.Machine

set_option Elab.async false

/-- A byte that no cell lists reads as an unlisted one. -/
theorem Memory.byte_absent (m : Memory) (x : Nat) (h : ∀ c ∈ m, c.1 ≠ x) : m.byte x = Memory.unlisted := by
  induction m with
  | nil => rfl
  | cons c r ih =>
    rw [Memory.byte, if_neg (h c (by simp)), ih (fun d hd => h d (by simp [hd]))]

theorem Memory.byte_append_left (m n : Memory) (x : Nat) (h : ∀ c ∈ n, c.1 ≠ x) : Memory.byte (m ++ n) x = m.byte x := by
  induction m with
  | nil => simpa [Memory.byte] using Memory.byte_absent n x h
  | cons c r ih => simp only [List.cons_append, Memory.byte, ih]

theorem Memory.byte_append_right (m n : Memory) (x : Nat) (h : ∀ c ∈ m, c.1 ≠ x) : Memory.byte (m ++ n) x = n.byte x := by
  induction m with
  | nil => rfl
  | cons c r ih =>
    rw [List.cons_append, Memory.byte, if_neg (h c (by simp)), ih (fun d hd => h d (by simp [hd]))]

theorem Memory.wf_nil : Memory.wf [] := by simp [Memory.wf]

theorem Memory.wf_append {m n : Memory} (hm : m.wf) (hn : n.wf) (h : ∀ c ∈ m, ∀ d ∈ n, c.1 < d.1) :
    Memory.wf (m ++ n) := by
  refine ⟨List.pairwise_append.2 ⟨hm.1, hn.1, h⟩, ?_⟩
  intro c hc
  rcases List.mem_append.1 hc with hc | hc
  · exact hm.2 c hc
  · exact hn.2 c hc

theorem Memory.wf_sublist {m n : Memory} (h : m.Sublist n) (hn : n.wf) : m.wf :=
  ⟨hn.1.sublist h, fun c hc => hn.2 c (h.subset hc)⟩

theorem Memory.wf_tail {c : Host.Cell} {m : Memory} (h : Memory.wf (c :: m)) : m.wf :=
  Memory.wf_sublist (List.sublist_cons_self c m) h

/-- The cells below a key. -/
theorem Memory.mem_takeWhile {m : Memory} {a : Nat} {c : Host.Cell}
    (h : c ∈ m.takeWhile (fun c => decide (c.1 < a))) : c.1 < a := by
  simpa using List.mem_takeWhile_imp h

/-- In a canonical memory the cells from a key on are those that dropping leaves. -/
theorem Memory.mem_dropWhile {m : Memory} {a : Nat} (hm : m.wf) {c : Host.Cell}
    (h : c ∈ m.dropWhile (fun c => decide (c.1 < a))) : a ≤ c.1 := by
  induction m with
  | nil => simp at h
  | cons d r ih =>
    rw [List.dropWhile_cons] at h
    split at h
    · exact ih (Memory.wf_tail hm) h
    · next hd =>
      have hd : a ≤ d.1 := by simpa using hd
      rcases List.mem_cons.1 h with rfl | hc
      · exact hd
      · exact le_of_lt (lt_of_le_of_lt hd (List.rel_of_pairwise_cons hm.1 hc))

theorem Memory.byte_takeWhile {m : Memory} (hm : m.wf) (a x : Nat) :
    Memory.byte (m.takeWhile (fun c => decide (c.1 < a))) x = if x < a then m.byte x else Memory.unlisted := by
  induction m with
  | nil => simp [Memory.byte]
  | cons c r ih =>
    rw [List.takeWhile_cons]
    by_cases hc : c.1 < a
    · simp only [hc, decide_true, if_true, Memory.byte, ih (Memory.wf_tail hm)]
      split
      · next h => subst h; simp [hc]
      · rfl
    · simp only [hc, decide_false, Bool.false_eq_true, if_false, Memory.byte]
      split
      · next hx =>
        rw [if_neg (by omega), Memory.byte_absent]
        intro d hd
        have := List.rel_of_pairwise_cons hm.1 hd
        omega
      · rfl

theorem Memory.byte_dropWhile {m : Memory} (hm : m.wf) (a x : Nat) :
    Memory.byte (m.dropWhile (fun c => decide (c.1 < a))) x = if a ≤ x then m.byte x else Memory.unlisted := by
  induction m with
  | nil => simp [Memory.byte]
  | cons c r ih =>
    rw [List.dropWhile_cons]
    by_cases hc : c.1 < a
    · simp only [hc, decide_true, if_true, Memory.byte, ih (Memory.wf_tail hm)]
      split
      · rw [if_neg (by omega)]
      · rfl
    · simp only [hc, decide_false, Bool.false_eq_true, if_false]
      split
      · rfl
      · next hx =>
        apply Memory.byte_absent
        intro d hd
        rcases List.mem_cons.1 hd with rfl | hd
        · omega
        · have := List.rel_of_pairwise_cons hm.1 hd
          omega

/-! ### The cells of consecutive bytes -/

theorem mem_cellsOf {a : Nat} {bs : List Byte} {c : Host.Cell} (h : c ∈ cellsOf a bs) :
    a ≤ c.1 ∧ c.1 < a + bs.length ∧ c.2 ≠ Memory.unlisted := by
  induction bs generalizing a with
  | nil => simp [cellsOf] at h
  | cons b r ih =>
    simp only [cellsOf] at h
    split at h
    · have := ih h; simp only [List.length_cons]; exact ⟨by omega, by omega, this.2.2⟩
    · next hb =>
      rcases List.mem_cons.1 h with rfl | h
      · simp only [List.length_cons]; exact ⟨by omega, by omega, hb⟩
      · have := ih h; simp only [List.length_cons]; exact ⟨by omega, by omega, this.2.2⟩

theorem wf_cellsOf (a : Nat) (bs : List Byte) : Memory.wf (cellsOf a bs) := by
  refine ⟨?_, fun c hc => (mem_cellsOf hc).2.2⟩
  induction bs generalizing a with
  | nil => simp [cellsOf]
  | cons b r ih =>
    simp only [cellsOf]
    split
    · exact ih _
    · refine List.pairwise_cons.2 ⟨fun c hc => ?_, ih _⟩
      have := mem_cellsOf hc
      show a < c.1
      omega

theorem byte_cellsOf (a : Nat) (bs : List Byte) (x : Nat) :
    Memory.byte (cellsOf a bs) x = if a ≤ x then (bs[x - a]?).getD Memory.unlisted else Memory.unlisted := by
  induction bs generalizing a with
  | nil => simp [cellsOf, Memory.byte]
  | cons b r ih =>
    have step : (if a ≤ x then ((b :: r)[x - a]?).getD Memory.unlisted else Memory.unlisted) =
        if a = x then b else if a + 1 ≤ x then (r[x - (a + 1)]?).getD Memory.unlisted else Memory.unlisted := by
      by_cases h : a = x
      · subst h; simp
      · by_cases h2 : a ≤ x
        · rw [if_pos h2, if_neg h, if_pos (by omega), show x - a = x - (a + 1) + 1 by omega, List.getElem?_cons_succ]
        · rw [if_neg h2, if_neg h, if_neg (by omega)]
    rw [step, cellsOf]
    split
    · next hb =>
      rw [ih]
      split
      · rw [if_neg (by omega)]
      · simp [hb]
    · simp only [Memory.byte, ih]

/-! ### Storing -/

theorem Memory.wf_put {m : Memory} (hm : m.wf) (a : Nat) (bs : List Byte) : (m.put a bs).wf := by
  unfold Memory.put
  have h1 := Memory.wf_sublist (List.takeWhile_sublist (fun c => decide (c.1 < a))) hm
  have h2 := wf_cellsOf a bs
  have h3 := Memory.wf_sublist (List.dropWhile_sublist (fun c => decide (c.1 < a + bs.length))) hm
  refine Memory.wf_append (Memory.wf_append h1 h2 ?_) h3 ?_
  · intro c hc d hd
    have := Memory.mem_takeWhile hc
    have := (mem_cellsOf hd).1
    omega
  · intro c hc d hd
    have hd := Memory.mem_dropWhile hm hd
    rcases List.mem_append.1 hc with hc | hc
    · have := Memory.mem_takeWhile hc; omega
    · have := (mem_cellsOf hc).2.1; omega

/-- Every byte after a store: the stored bytes, and every other byte as it was. -/
theorem Memory.byte_put {m : Memory} (hm : m.wf) (a : Nat) (bs : List Byte) (x : Nat) :
    (m.put a bs).byte x = if a ≤ x ∧ x < a + bs.length then (bs[x - a]?).getD Memory.unlisted else m.byte x := by
  unfold Memory.put
  by_cases h1 : x < a
  · rw [List.append_assoc, Memory.byte_append_left, Memory.byte_takeWhile hm, if_pos h1, if_neg (by omega)]
    intro c hc
    rcases List.mem_append.1 hc with hc | hc
    · have := (mem_cellsOf hc).1; omega
    · have := Memory.mem_dropWhile hm hc; omega
  · by_cases h2 : x < a + bs.length
    · rw [Memory.byte_append_left, Memory.byte_append_right, byte_cellsOf, if_pos (by omega), if_pos ⟨by omega, h2⟩]
      · intro c hc; have := Memory.mem_takeWhile hc; omega
      · intro c hc; have := Memory.mem_dropWhile hm hc; omega
    · rw [Memory.byte_append_right, Memory.byte_dropWhile hm, if_pos (by omega), if_neg (by omega)]
      intro c hc
      rcases List.mem_append.1 hc with hc | hc
      · have := Memory.mem_takeWhile hc; omega
      · have := (mem_cellsOf hc).2.1; omega

theorem Memory.byte_put_outside {m : Memory} (hm : m.wf) {a x : Nat} {bs : List Byte}
    (h : x < a ∨ a + bs.length ≤ x) : (m.put a bs).byte x = m.byte x := by
  rw [Memory.byte_put hm, if_neg (by omega)]

theorem Memory.read_congr {m n : Memory} {a k : Nat} (h : ∀ x, a ≤ x → x < a + k → m.byte x = n.byte x) :
    m.read a k = n.read a k := by
  unfold Memory.read
  apply List.map_congr_left
  intro x hx
  have := mem_interval.1 hx
  exact h x this.1 this.2

theorem Memory.length_read (m : Memory) (a n : Nat) : (m.read a n).length = n := by simp [Memory.read]

/-- A read after a store to the same place gives what was stored. -/
theorem Memory.read_put {m : Memory} (hm : m.wf) (a : Nat) (bs : List Byte) : (m.put a bs).read a bs.length = bs := by
  apply List.ext_getElem
  · exact Memory.length_read _ _ _
  · intro i h1 h2
    simp only [Memory.read, interval, List.getElem_map, List.getElem_range]
    rw [Memory.byte_put hm, if_pos ⟨by omega, by omega⟩, show a + i - a = i by omega]
    simp [h2]

/-- A number after it is stored. -/
theorem Memory.num_put {m : Memory} (hm : m.wf) (a n v : Nat) : (m.put a (bytesOf n v)).num a n = v % 256 ^ n := by
  have h := Memory.read_put hm a (bytesOf n v)
  rw [length_bytesOf] at h
  rw [Memory.num, h, ofBytes_bytesOf]

/-- A number elsewhere after a store. -/
theorem Memory.num_put_outside {m : Memory} (hm : m.wf) {a b n : Nat} {bs : List Byte}
    (h : b + n ≤ a ∨ a + bs.length ≤ b) : (m.put a bs).num b n = m.num b n := by
  unfold Memory.num
  congr 1
  exact Memory.read_congr fun x h1 h2 => Memory.byte_put_outside hm (by omega)

theorem Memory.wf_clear {m : Memory} (hm : m.wf) (a n : Nat) : (m.clear a n).wf := by
  unfold Memory.clear
  refine Memory.wf_append (Memory.wf_sublist (List.takeWhile_sublist _) hm)
    (Memory.wf_sublist (List.dropWhile_sublist _) hm) ?_
  intro c hc d hd
  have := Memory.mem_takeWhile hc
  have := Memory.mem_dropWhile hm hd
  omega

/-- Every byte after a range is cleared. -/
theorem Memory.byte_clear {m : Memory} (hm : m.wf) (a n x : Nat) :
    (m.clear a n).byte x = if a ≤ x ∧ x < a + n then Memory.unlisted else m.byte x := by
  unfold Memory.clear
  by_cases h1 : x < a
  · rw [Memory.byte_append_left, Memory.byte_takeWhile hm, if_pos h1, if_neg (by omega)]
    intro c hc
    have := Memory.mem_dropWhile hm hc; omega
  · rw [Memory.byte_append_right, Memory.byte_dropWhile hm]
    · split <;> split <;> first | rfl | omega
    · intro c hc; have := Memory.mem_takeWhile hc; omega

/-- The cells of a range, moved. -/
def moved (m : Memory) (src dst n : Nat) : Memory :=
  ((m.dropWhile (fun c => c.1 < src)).takeWhile (fun c => c.1 < src + n)).map (fun c => (c.1 - src + dst, c.2))

theorem mem_moved {m : Memory} (hm : m.wf) {src dst n : Nat} {c : Host.Cell} (h : c ∈ moved m src dst n) :
    dst ≤ c.1 ∧ c.1 < dst + n ∧ c.2 ≠ Memory.unlisted := by
  obtain ⟨d, hd, rfl⟩ := List.mem_map.1 h
  have hdrop := (List.takeWhile_sublist _).subset hd
  have h1 := Memory.mem_dropWhile hm hdrop
  have h2 := Memory.mem_takeWhile hd
  have h3 := hm.2 d ((List.dropWhile_sublist _).subset hdrop)
  exact ⟨by simp, by simp; omega, h3⟩

theorem wf_moved {m : Memory} (hm : m.wf) (src dst n : Nat) : Memory.wf (moved m src dst n) := by
  refine ⟨?_, fun c hc => (mem_moved hm hc).2.2⟩
  unfold moved
  refine List.pairwise_map.2 ?_
  have hd := Memory.wf_sublist (List.dropWhile_sublist (fun c => decide (c.1 < src))) hm
  have ht := Memory.wf_sublist (List.takeWhile_sublist (fun c => decide (c.1 < src + n))) hd
  refine ht.1.imp_of_mem ?_
  intro c d hc _ hcd
  have := Memory.mem_dropWhile hm ((List.takeWhile_sublist _).subset hc)
  show c.1 - src + dst < d.1 - src + dst
  omega

theorem byte_moved {m : Memory} (hm : m.wf) (src dst n x : Nat) :
    Memory.byte (moved m src dst n) x = if dst ≤ x ∧ x < dst + n then m.byte (x - dst + src) else Memory.unlisted := by
  have key : ∀ l : Memory, (∀ c ∈ l, src ≤ c.1) →
      Memory.byte (l.map (fun c => (c.1 - src + dst, c.2))) x =
        if dst ≤ x then l.byte (x - dst + src) else Memory.unlisted := by
    intro l hl
    induction l with
    | nil => simp [Memory.byte]
    | cons c r ih =>
      have hc := hl c (by simp)
      simp only [List.map_cons, Memory.byte, ih (fun d hd => hl d (by simp [hd]))]
      split
      · rw [if_pos (by omega), if_pos (by omega)]
      · split
        · rw [if_neg (by omega)]
        · rfl
  have hd := Memory.wf_sublist (List.dropWhile_sublist (fun c => decide (c.1 < src))) hm
  have hx := key ((m.dropWhile (fun c => decide (c.1 < src))).takeWhile (fun c => decide (c.1 < src + n)))
    (fun c hc => Memory.mem_dropWhile hm ((List.takeWhile_sublist _).subset hc))
  unfold moved
  rw [hx, Memory.byte_takeWhile hd, Memory.byte_dropWhile hm]
  split
  · split
    · rw [if_pos (by omega), if_pos (by omega)]
    · rw [if_neg (by omega)]
  · rw [if_neg (by omega)]

theorem Memory.wf_copyRange {m : Memory} (hm : m.wf) (src dst n : Nat) : (m.copyRange src dst n).wf := by
  show Memory.wf (m.takeWhile (fun c => c.1 < dst) ++ moved m src dst n ++ m.dropWhile (fun c => c.1 < dst + n))
  refine Memory.wf_append (Memory.wf_append (Memory.wf_sublist (List.takeWhile_sublist _) hm) (wf_moved hm _ _ _) ?_)
    (Memory.wf_sublist (List.dropWhile_sublist _) hm) ?_
  · intro c hc d hd
    have := Memory.mem_takeWhile hc
    have := (mem_moved hm hd).1
    omega
  · intro c hc d hd
    have hd := Memory.mem_dropWhile hm hd
    rcases List.mem_append.1 hc with hc | hc
    · have := Memory.mem_takeWhile hc; omega
    · have := (mem_moved hm hc).2.1; omega

/-- Every byte after a range is copied: the destination holds what the source held, every other byte is as it was. -/
theorem Memory.byte_copyRange {m : Memory} (hm : m.wf) (src dst n x : Nat) :
    (m.copyRange src dst n).byte x = if dst ≤ x ∧ x < dst + n then m.byte (x - dst + src) else m.byte x := by
  show Memory.byte (m.takeWhile (fun c => c.1 < dst) ++ moved m src dst n ++ m.dropWhile (fun c => c.1 < dst + n)) x = _
  by_cases h1 : x < dst
  · rw [List.append_assoc, Memory.byte_append_left, Memory.byte_takeWhile hm, if_pos h1, if_neg (by omega)]
    intro c hc
    rcases List.mem_append.1 hc with hc | hc
    · have := (mem_moved hm hc).1; omega
    · have := Memory.mem_dropWhile hm hc; omega
  · by_cases h2 : x < dst + n
    · rw [Memory.byte_append_left, Memory.byte_append_right, byte_moved hm, if_pos ⟨by omega, h2⟩, if_pos ⟨by omega, h2⟩]
      · intro c hc; have := Memory.mem_takeWhile hc; omega
      · intro c hc; have := Memory.mem_dropWhile hm hc; omega
    · rw [Memory.byte_append_right, Memory.byte_dropWhile hm, if_pos (by omega), if_neg (by omega)]
      intro c hc
      rcases List.mem_append.1 hc with hc | hc
      · have := Memory.mem_takeWhile hc; omega
      · have := (mem_moved hm hc).2.1; omega

/-- Two canonical memories that read alike are one list: equal memories are equal data. -/
theorem Memory.ext_byte {m n : Memory} (hm : m.wf) (hn : n.wf) (h : ∀ x, m.byte x = n.byte x) : m = n := by
  have gone : ∀ {c : Host.Cell} {r : Memory}, Memory.wf (c :: r) → ∀ x, x ≤ c.1 → Memory.byte r x = Memory.unlisted := by
    intro c r hw x hx
    apply Memory.byte_absent
    intro d hd
    have := List.rel_of_pairwise_cons hw.1 hd
    omega
  have low : ∀ {c : Host.Cell} {r : Memory}, Memory.wf (c :: r) → ∀ x, x < c.1 → Memory.byte (c :: r) x = Memory.unlisted := by
    intro c r hw x hx
    rw [Memory.byte, if_neg (by omega)]
    exact gone hw x (by omega)
  have here : ∀ {c : Host.Cell} {r : Memory}, Memory.byte (c :: r) c.1 = c.2 := by
    intro c r; simp [Memory.byte]
  induction m generalizing n with
  | nil =>
    cases n with
    | nil => rfl
    | cons d r => exact absurd (here.symm.trans (h d.1).symm) (hn.2 d (by simp))
  | cons c r ih =>
    cases n with
    | nil => exact absurd (here.symm.trans (h c.1)) (hm.2 c (by simp))
    | cons d q =>
      have hcd : c.1 = d.1 := by
        rcases Nat.lt_trichotomy c.1 d.1 with hlt | heq | hgt
        · exact absurd (here.symm.trans ((h c.1).trans (low hn c.1 hlt))) (hm.2 c (by simp))
        · exact heq
        · exact absurd (here.symm.trans ((h d.1).symm.trans (low hm d.1 hgt))) (hn.2 d (by simp))
      have hv : c.2 = d.2 := by
        have := h c.1
        rw [here] at this
        rw [this, hcd, here]
      have hc : c = d := Prod.ext hcd hv
      subst hc
      congr 1
      apply ih (Memory.wf_tail hm) (Memory.wf_tail hn)
      intro x
      have hx := h x
      simp only [Memory.byte] at hx
      by_cases hxc : c.1 = x
      · rw [gone hm x (by omega), gone hn x (by omega)]
      · simpa [hxc] using hx

end Sys2Proof.Machine
end

