-- ==== Sys2Proof/Laws/Canonical.lean ====
section
/-! SUPPORT. Memory under the shared operations: which bytes each changes, and that each keeps the canonical form (log 5).
`issue_ok` says it once for every instruction. -/

namespace Sys2Proof.Machine.State

set_option Elab.async false

theorem ok_of_mem {s t : State} (h : t.mem = s.mem) (hs : s.ok) : t.ok := by unfold ok; rw [h]; exact hs

/-! ### Memory and marks -/

@[simp] theorem markPoison_mem (s : State) (gs : List Nat) : (s.markPoison gs).mem = s.mem := rfl
@[simp] theorem markPoison_strands (s : State) (gs : List Nat) : (s.markPoison gs).strands = s.strands := rfl
@[simp] theorem clearPoison_mem (s : State) (gs : List Nat) : (s.clearPoison gs).mem = s.mem := by
  unfold clearPoison; split <;> rfl
@[simp] theorem clearPoison_strands (s : State) (gs : List Nat) : (s.clearPoison gs).strands = s.strands := by
  unfold clearPoison; split <;> rfl
@[simp] theorem settleLive_mem (s : State) (a n : Nat) : (s.settleLive a n).mem = s.mem := by
  unfold settleLive; split <;> rfl
@[simp] theorem settleLive_strands (s : State) (a n : Nat) : (s.settleLive a n).strands = s.strands := by
  unfold settleLive; split <;> rfl
@[simp] theorem write_mem (s : State) (a : Nat) (bs : List Byte) : (s.write a bs).mem = s.mem.put a bs := by
  simp [write]
@[simp] theorem write_strands (s : State) (a : Nat) (bs : List Byte) : (s.write a bs).strands = s.strands := by
  simp [write]
@[simp] theorem writePoisoned_mem (s : State) (a : Nat) (bs : List Byte) :
    (s.writePoisoned a bs).mem = s.mem.put a bs := by simp [writePoisoned]
@[simp] theorem update_mem (s : State) (a : Nat) (bs : List Byte) : (s.update a bs).mem = s.mem.put a bs := rfl
@[simp] theorem commit_mem (s : State) (a : Nat) (bs : List Byte) : (s.commit a bs).mem = s.mem.put a bs := by
  simp [commit]
@[simp] theorem commit_strands (s : State) (a : Nat) (bs : List Byte) : (s.commit a bs).strands = s.strands := by
  simp [commit]

theorem write_ok {s : State} (h : s.ok) (a : Nat) (bs : List Byte) : (s.write a bs).ok := by
  unfold ok; rw [write_mem]; exact Memory.wf_put h a bs
theorem writePoisoned_ok {s : State} (h : s.ok) (a : Nat) (bs : List Byte) : (s.writePoisoned a bs).ok := by
  unfold ok; rw [writePoisoned_mem]; exact Memory.wf_put h a bs
theorem update_ok {s : State} (h : s.ok) (a : Nat) (bs : List Byte) : (s.update a bs).ok := Memory.wf_put h a bs
theorem commit_ok {s : State} (h : s.ok) (a : Nat) (bs : List Byte) : (s.commit a bs).ok := by
  unfold ok; rw [commit_mem]; exact Memory.wf_put h a bs

/-- A clean store outside a byte leaves it. -/
theorem write_byte {s : State} (h : s.ok) {a x : Nat} {bs : List Byte} (hx : x < a ∨ a + bs.length ≤ x) :
    (s.write a bs).mem.byte x = s.mem.byte x := by
  rw [write_mem]; exact Memory.byte_put_outside h hx

/-- A number after a clean store of it. -/
theorem write_num {s : State} (h : s.ok) (a n v : Nat) :
    (s.write a (bytesOf n v)).mem.num a n = v % 256 ^ n := by
  rw [write_mem]; exact Memory.num_put h a n v

theorem commit_byte {s : State} (h : s.ok) {a x : Nat} {bs : List Byte} (hx : x < a ∨ a + bs.length ≤ x) :
    (s.commit a bs).mem.byte x = s.mem.byte x := by
  rw [commit_mem]; exact Memory.byte_put_outside h hx

theorem commit_num {s : State} (h : s.ok) (a n v : Nat) :
    (s.commit a (bytesOf n v)).mem.num a n = v % 256 ^ n := by
  rw [commit_mem]; exact Memory.num_put h a n v

theorem writeAll_ok {s : State} (h : s.ok) (ws : List (Nat × List Byte)) : (s.writeAll ws).ok := by
  unfold writeAll ok
  rw [clearPoison_mem]
  induction ws generalizing s with
  | nil => exact h
  | cons w r ih => exact ih (update_ok h w.1 w.2)

@[simp] theorem writeLive_mem (bs : List Byte) (s : State) (u : List Nat) (a : Nat) : (writeLive s u a bs).mem = s.mem := by
  induction bs generalizing s a with
  | nil => rfl
  | cons b r ih => rw [writeLive, ih]

@[simp] theorem writeLive_strands (bs : List Byte) (s : State) (u : List Nat) (a : Nat) : (writeLive s u a bs).strands = s.strands := by
  induction bs generalizing s a with
  | nil => rfl
  | cons b r ih => rw [writeLive, ih]

theorem hbmPut_ok {s : State} (h : s.ok) (a n v : Nat) : (s.hbmPut a n v).ok := by
  unfold hbmPut; split
  · exact commit_ok h _ _
  · exact h

/-- A device write to HBM that exists: the number, and every other byte as it was. -/
theorem hbmPut_num {s : State} (h : s.ok) {a n : Nat} (v : Nat) (ha : hbmHas a n = true) :
    (s.hbmPut a n v).mem.num (hbmKey a) n = v % 256 ^ n := by
  rw [hbmPut, if_pos ha]; exact commit_num h _ _ _

theorem hbmPut_byte {s : State} (h : s.ok) {a n v x : Nat} (hx : x < hbmKey a ∨ hbmKey a + n ≤ x) :
    (s.hbmPut a n v).mem.byte x = s.mem.byte x := by
  unfold hbmPut; split
  · exact commit_byte h (by rw [length_bytesOf]; exact hx)
  · rfl

@[simp] theorem hbmPut_strands (s : State) (a n v : Nat) : (s.hbmPut a n v).strands = s.strands := by
  unfold hbmPut; split <;> simp

/-! ### Teams and vtiles -/

@[simp] theorem onTeam_mem (s : State) (id : Nat) (f : Team → Team) : (s.onTeam id f).mem = s.mem := by
  unfold onTeam; split <;> rfl
@[simp] theorem onTeam_strands (s : State) (id : Nat) (f : Team → Team) : (s.onTeam id f).strands = s.strands := by
  unfold onTeam; split <;> rfl
@[simp] theorem onVtile_mem (s : State) (id lr : Nat) (f : Vtile → Vtile) : (s.onVtile id lr f).mem = s.mem := by
  unfold onVtile; split <;> rfl
@[simp] theorem onVtile_strands (s : State) (id lr : Nat) (f : Vtile → Vtile) :
    (s.onVtile id lr f).strands = s.strands := by
  unfold onVtile; split <;> rfl
@[simp] theorem account_mem (s : State) (id i n : Nat) : (s.account id i n).mem = s.mem := by simp [account]
@[simp] theorem account_strands (s : State) (id i n : Nat) : (s.account id i n).strands = s.strands := by simp [account]
@[simp] theorem accountReplay_mem (s : State) (id i kind n : Nat) (r : Bool) :
    (s.accountReplay id i kind n r).mem = s.mem := by unfold accountReplay; split <;> simp
@[simp] theorem accountReplay_strands (s : State) (id i kind n : Nat) (r : Bool) :
    (s.accountReplay id i kind n r).strands = s.strands := by unfold accountReplay; split <;> simp

theorem orFstat_ok {s : State} (h : s.ok) (id lr : Nat) (b : Word) : (s.orFstat id lr b).ok := by
  unfold orFstat
  split
  · dsimp only; split
    · exact commit_ok (s := s.putVtile _ _ _) h _ _
    · exact h
  · exact h

theorem clearFstat_ok {s : State} (h : s.ok) (id lr : Nat) (b : Word) : (s.clearFstat id lr b).ok := by
  unfold clearFstat
  split
  · dsimp only; split
    · exact commit_ok (s := s.putVtile _ _ _) h _ _
    · exact h
  · exact h

/-- On a resident vtile, ORing bits into FSTAT changes that vtile alone. -/
theorem orFstat_resident {s : State} {id lr : Nat} {t : Team} {v : Vtile} (b : Word) (ht : s.team? id = some t)
    (hv : s.vtile? id lr = some v) (hd : v.div ≠ .diverting) :
    s.orFstat id lr b = s.putVtile id lr { v with fstat := v.fstat ||| b } := by
  simp [orFstat, ht, hv, hd]

theorem setSat_ok {s : State} (h : s.ok) (id lr : Nat) (b : Bool) : (s.setSat id lr b).ok := by
  unfold setSat; split
  · exact orFstat_ok h _ _ _
  · exact h

theorem noteUpdate_ok {s : State} (h : s.ok) (id lr : Nat) (u : Upd) : (s.noteUpdate id lr u).ok := by
  unfold noteUpdate
  split
  · exact h
  · dsimp only; split
    · exact orFstat_ok (s := s.putVtile _ _ _) h _ _ _
    · exact h

/-! ### Traces and arrivals -/

theorem hbmPuts_ok (l : List (Nat × Nat)) (a : Nat × Nat → Nat) {s : State} (h : s.ok) :
    (l.foldl (fun s r => s.hbmPut (a r) 16 r.1) s).ok := by
  induction l generalizing s with
  | nil => exact h
  | cons x r ih => exact ih (hbmPut_ok h _ _ _)

theorem hbmPuts_strands (l : List (Nat × Nat)) (a : Nat × Nat → Nat) (s : State) :
    (l.foldl (fun s r => s.hbmPut (a r) 16 r.1) s).strands = s.strands := by
  induction l generalizing s with
  | nil => rfl
  | cons x r ih => exact (ih _).trans (hbmPut_strands _ _ _ _)

theorem storeTrace_ok {s : State} (h : s.ok) (tile : Nat) : (s.storeTrace tile).ok :=
  ok_of_mem (putTile_mem _ _ _) (hbmPuts_ok _ _ h)

@[simp] theorem storeTrace_strands (s : State) (tile : Nat) : (s.storeTrace tile).strands = s.strands :=
  (putTile_strands _ _ _).trans (hbmPuts_strands _ _ s)

theorem flushTrace_ok {s : State} (h : s.ok) (tile : Nat) : (s.flushTrace tile).ok := by
  have hc (n : Nat) (p : List Nat) (cls flits : Nat) : (s.cross n p cls flits).2.ok := ok_of_mem (cross_mem s n p cls flits) h
  unfold flushTrace; dsimp only
  split <;> split
  all_goals first
    | exact h
    | (split
       · exact storeTrace_ok (hc _ _ _ _) _
       · exact hc _ _ _ _)

@[simp] theorem flushTrace_strands (s : State) (tile : Nat) : (s.flushTrace tile).strands = s.strands := by
  unfold flushTrace; dsimp only
  split <;> split
  all_goals first
    | rfl
    | (split <;> simp)

theorem trace_ok {s : State} (h : s.ok) (tile lvt slot kind info data : Nat) :
    (s.trace tile lvt slot kind info data).ok := by
  unfold trace; dsimp only; split
  · exact flushTrace_ok (ok_of_mem (putTile_mem _ _ _) h) _
  · exact h

/-- A tile whose trace is disabled writes no record (R256). -/
theorem trace_off {s : State} {tile : Nat} (h : (s.tile tile).trctl.getLsbD 63 = false) (lvt slot kind info data : Nat) :
    s.trace tile lvt slot kind info data = s := by
  have hb : bit (s.tile tile).trctl.toNat 63 = false := by
    rw [← h, BitVec.getLsbD, Nat.testBit_eq_decide_div_mod_eq]; rfl
  simp [trace, hb]

@[simp] theorem trace_strands (s : State) (tile lvt slot kind info data : Nat) :
    (s.trace tile lvt slot kind info data).strands = s.strands := by
  unfold trace; dsimp only; split <;> simp

theorem traceVt_ok {s : State} (h : s.ok) (id lr slot kind info data : Nat) :
    (s.traceVt id lr slot kind info data).ok := by
  unfold traceVt
  split
  · split
    · exact trace_ok h _ _ _ _ _ _
    · exact h
  · exact h

@[simp] theorem tellPeers_mem (s : State) (id : Nat) (ps : List Nat) (m : Nat → Nat → Msg) :
    (s.tellPeers id ps m).mem = s.mem := by
  unfold tellPeers
  induction ps generalizing s with
  | nil => rfl
  | cons p r ih => rw [List.foldl_cons, ih]; split <;> rfl

@[simp] theorem tellPeers_strands (s : State) (id : Nat) (ps : List Nat) (m : Nat → Nat → Msg) :
    (s.tellPeers id ps m).strands = s.strands := by
  unfold tellPeers
  induction ps generalizing s with
  | nil => rfl
  | cons p r ih => rw [List.foldl_cons, ih]; split <;> rfl

@[simp] theorem record_mem (s : State) (id : Nat) (l : Scope) (u k : Nat) (a : Arrival) (rop : BOp) (cnt : Nat) :
    (s.record id l u k a rop cnt).mem = s.mem := by
  unfold record; dsimp only; repeat (first | rfl | rw [tellPeers_mem] | split)

@[simp] theorem record_strands (s : State) (id : Nat) (l : Scope) (u k : Nat) (a : Arrival) (rop : BOp) (cnt : Nat) :
    (s.record id l u k a rop cnt).strands = s.strands := by
  unfold record; dsimp only; repeat (first | rfl | rw [tellPeers_strands] | split)

theorem record_ok {s : State} (h : s.ok) (id : Nat) (l : Scope) (u k : Nat) (a : Arrival) (rop : BOp) (cnt : Nat) :
    (s.record id l u k a rop cnt).ok := ok_of_mem (record_mem _ _ _ _ _ _ _ _) h

theorem forceVtile_ok {s : State} (h : s.ok) (t : Team) (id lr : Nat) (l : Scope) (c : BitVec 16) :
    (s.forceVtile t id lr l c).ok := by
  unfold forceVtile; dsimp only; split
  · exact traceVt_ok (ok_of_mem (onVtile_mem _ _ _ _) (record_ok h _ _ _ _ _ _ _)) _ _ _ _ _ _
  · exact h

theorem forceStrand_ok {s : State} (h : s.ok) (t : Team) (id lr uid ta : Nat) : (s.forceStrand t id lr uid ta).1.ok := by
  unfold forceStrand; dsimp only; split
  · exact traceVt_ok (record_ok h _ _ _ _ _ _ _) _ _ _ _ _ _
  · exact h

theorem forceAll_ok {s : State} (h : s.ok) (t : Team) (id lr uid ta : Nat) : (s.forceAll t id lr uid ta).1.ok := by
  have h1 := forceStrand_ok h t id lr uid ta
  unfold forceAll
  generalize s.forceStrand t id lr uid ta = x at h1 ⊢
  obtain ⟨y, z⟩ := x
  have step : ∀ (ls : List Scope) (y : State), y.ok → (ls.foldl (fun s l => s.forceVtile t id lr l 0xFF00) y).ok := by
    intro ls
    induction ls with
    | nil => exact fun _ hy => hy
    | cons l r ih => exact fun _ hy => ih _ (forceVtile_ok hy _ _ _ _ _)
  exact step _ y h1

/-! ### Records, images and logs -/

theorem enqueue_ok {s : State} (h : s.ok) (id : Nat) (q : QTarget) (r : BitVec 512) (seq prio : Nat) (sv : Option Nat)
    (w : Bool) : (s.enqueue id q r seq prio sv w).ok := by
  unfold enqueue
  split
  · exact h
  · exact commit_ok (s := s.putTeam _ _) h _ _

theorem spawnRec_ok {s : State} (h : s.ok) (id : Nat) (r : BitVec 512) : (s.spawnRec id r).2.ok := by
  unfold spawnRec
  split
  · exact h
  · exact enqueue_ok (s := s.putTeam _ _) h _ _ _ _ _ _ _

theorem release_ok {s : State} (h : s.ok) (id : Nat) (k : Word) : (s.release id k).ok := by
  unfold release
  split
  · exact h
  · split
    · exact h
    · split
      · exact h
      · exact commit_ok (ok_of_mem (onTeam_mem _ _ _) (ok_of_mem (putTeam_mem _ _ _) h)) _ _

theorem saveInto_ok {s : State} (h : s.ok) (t : Team) (n : Nat) (k : Strand) (w : SaveWhy) : (s.saveInto t n k w).ok :=
  ok_of_mem (onVtile_mem _ _ _ _) (ok_of_mem (onTeam_mem _ _ _) (commit_ok h _ _))

theorem putDivEntry_ok {s : State} (h : s.ok) (id lr : Nat) : (s.putDivEntry id lr).ok := by
  unfold putDivEntry
  split
  · split
    · exact h
    · exact hbmPut_ok h _ _ _
  · exact h

theorem appendLog_ok {s : State} (h : s.ok) (id lr : Nat) (r : LogRec) : (s.appendLog id lr r).ok := by
  unfold appendLog
  split
  · exact h
  · split
    · exact h
    · exact putDivEntry_ok (ok_of_mem (putVtile_mem _ _ _ _) (hbmPut_ok h _ _ _)) _ _

theorem imageFill_ok {s : State} (h : s.ok) (t : Team) (lr n : Nat) (r : SReg) (v : Word) (p : Bool) :
    (s.imageFill t lr n r v p).ok := by
  unfold imageFill; split
  · exact h
  · exact ok_of_mem (onVtile_mem _ _ _ _) (commit_ok (commit_ok h _ _) _ _)

@[simp] theorem readyRecord_mem (s : State) (id lr n : Nat) : (s.readyRecord id lr n).mem = s.mem := by simp [readyRecord]

theorem imageBarrier_ok {s : State} (h : s.ok) (t : Team) (lr n : Nat) (d ds : SReg) (v st : Word) :
    (s.imageBarrier t lr n d ds v st).ok := by
  unfold imageBarrier
  exact ok_of_mem (readyRecord_mem _ _ _ _) (ok_of_mem (onVtile_mem _ _ _ _)
    (commit_ok (imageFill_ok (imageFill_ok h _ _ _ _ _ _) _ _ _ _ _ _) _ _))

theorem imageSummary_ok {s : State} (h : s.ok) (t : Team) (lr n : Nat) (c b : Word) (f : Bool) :
    (s.imageSummary t lr n c b f).ok := commit_ok h _ _

theorem deliverFill_ok {s : State} (h : s.ok) (id lr uid : Nat) (r : SReg) (v : Word) (p : Bool) :
    (s.deliverFill id lr uid r v p).ok := by
  unfold deliverFill
  split
  · split
    · exact h
    · split
      · exact appendLog_ok h _ _ _
      · exact imageFill_ok h _ _ _ _ _ _
    · exact h
  · exact h

@[simp] theorem statusFor_mem (s : State) (id : Nat) (d ds : SReg) (st : Word) :
    (s.statusFor id d ds st).2.mem = s.mem := by
  unfold statusFor; split
  · exact onTeam_mem _ _ _
  · rfl

theorem deliverBarrier_ok {s : State} (h : s.ok) (id lr uid : Nat) (d ds : SReg) (v st : Word) :
    (s.deliverBarrier id lr uid d ds v st).ok := by
  have h' : (s.statusFor id d ds st).2.ok := ok_of_mem (statusFor_mem _ _ _ _ _) h
  unfold deliverBarrier
  dsimp only
  split
  · split
    · exact h'
    · split
      · exact appendLog_ok h' _ _ _
      · exact imageBarrier_ok h' _ _ _ _ _ _ _
    · exact h'
  · exact h'

theorem deliverSummary_ok {s : State} (h : s.ok) (id lr uid : Nat) (c b : Word) (f : Bool) :
    (s.deliverSummary id lr uid c b f).ok := by
  unfold deliverSummary
  split
  · split
    · exact h
    · split
      · exact appendLog_ok h _ _ _
      · exact imageSummary_ok h _ _ _ _ _ _
    · exact h
  · exact h

@[simp] theorem settleOrder_mem (s : State) : s.settleOrder.mem = s.mem := by unfold settleOrder; split <;> rfl
@[simp] theorem orderStep_mem (s : State) (r : Option Nat) (b : Bool) : (s.orderStep r b).mem = s.mem := by
  unfold orderStep; split <;> simp

/-! ### Faults -/

theorem readyHandler_ok {s : State} (h : s.ok) (id n : Nat) : (s.readyHandler id n).ok := by
  unfold readyHandler
  split
  · exact h
  · dsimp only
    split
    · split
      · exact ok_of_mem (writeLive_mem _ _ _ _) h
      · split
        · exact ok_of_mem (writeLive_mem _ _ _ _) h
        · exact spawnRec_ok (ok_of_mem (writeLive_mem _ _ _ _) h) _ _
    · exact h

theorem writeFault_ok {s : State} (h : s.ok) (id lr : Nat) (f : FaultRec) (src : Nat := lr) :
    (s.writeFault id lr f src).2.ok := by
  unfold writeFault
  split
  · exact h
  · dsimp only
    split
    · exact orFstat_ok (commit_ok (s := s.putTeam _ _) h _ _) _ _ _
    · apply readyHandler_ok
      have h1 := commit_ok (commit_ok (s := s.putTeam id { ‹Team› with fqw := ‹Team›.fqw + 1, lostMark := false }) h
        (hbmKey ‹Team›.area + 128 + 64 * (‹Team›.fqw % ‹Team›.fqCap))
        (bytesOf 64 (f.bits ‹Team›.teamid (‹Team›.fqw + 1)
          (s.putTeam id { ‹Team› with fqw := ‹Team›.fqw + 1, lostMark := false }).now ‹Team›.lostMark)))
        (hbmKey ‹Team›.area) (bytesOf 8 (‹Team›.fqw + 1))
      split <;> split
      · exact orFstat_ok (orFstat_ok h1 _ _ _) _ _ _
      · exact orFstat_ok h1 _ _ _
      · exact orFstat_ok h1 _ _ _
      · exact h1

theorem refreshHeld_ok {s : State} (h : s.ok) (id lr : Nat) : (s.refreshHeld id lr).ok := by
  unfold refreshHeld
  split
  · exact h
  · dsimp only; split
    · exact orFstat_ok h _ _ _
    · exact clearFstat_ok h _ _ _

@[simp] theorem startShadow_mem (s : State) (tile : Nat) : (s.startShadow tile).mem = s.mem := by
  unfold startShadow; dsimp only
  repeat (first | rfl | split)

@[simp] theorem endShadow_mem (s : State) (tile : Nat) (b : Bool) : (s.endShadow tile b).mem = s.mem := by
  unfold endShadow; dsimp only
  split
  · rfl
  · rw [startShadow_mem]; rfl

theorem takeFault_ok {s : State} (h : s.ok) (tile slot : Nat) (k : Strand) (cause : Nat) (addr info word : Word)
    (extra : Bool) : (s.takeFault tile slot k cause addr info word extra).ok := by
  unfold takeFault
  split
  · dsimp only
    have h1 := trace_ok h tile k.lrank slot 7 0 (cause * 2 ^ 56 + k.pc.toNat % 2 ^ 56)
    split
    · exact ok_of_mem (endShadow_mem _ _ _) (writeFault_ok h1 _ _ _)
    · generalize hp : (if (decide (cause < 64) && cause != 8 && cause != 9) = true then _ else _ : State × Nat) = p
      have h2 : p.1.ok := by
        rw [← hp]; split
        · exact forceAll_ok h1 _ _ _ _ _
        · exact h1
      split
      · have h3 := saveInto_ok (s := p.1.dropAt tile slot) h2 ‹Team› ‹Nat›
            { k with tahead := p.2, wait := .none } .fault
        split
        · exact writeFault_ok h3 _ _ _
        · exact ok_of_mem (onVtile_mem _ _ _ _) (writeFault_ok h3 _ _ _)
      · have h3 := orFstat_ok (s := p.1.putAt tile slot { k with tahead := p.2, wait := .none, held := true }) h2
            k.team k.lrank fstatHeld
        split
        · exact writeFault_ok h3 _ _ _
        · exact refreshHeld_ok (ok_of_mem (dropAt_mem _ _ _) (writeFault_ok h3 _ _ _)) _ _
  · exact h

theorem engineFault_ok {s : State} (h : s.ok) (w : Issuer) (cause : Nat) (addr info info2 : Word)
    (sm : Option (Word × Word)) : (s.engineFault w cause addr info info2 sm).ok := by
  unfold engineFault
  split
  · exact h
  · dsimp only
    split <;> split <;> first
      | exact deliverSummary_ok (writeFault_ok (traceVt_ok h _ _ _ _ _ _) _ _ _) _ _ _ _ _ _
      | exact writeFault_ok (traceVt_ok h _ _ _ _ _ _) _ _ _

theorem imageSlot_ok {s : State} (h : s.ok) (t : Team) (lr n v : Nat) : (s.imageSlot t lr n v).ok := by
  unfold imageSlot
  split
  · split
    · exact commit_ok h _ _
    · exact commit_ok h _ _
    · exact h
  · exact h

theorem resumeSaved_ok {s : State} (h : s.ok) (t : Team) (lr n : Nat) (skip : Bool) : (s.resumeSaved t lr n skip).ok := by
  unfold resumeSaved; dsimp only
  refine ok_of_mem (onVtile_mem _ _ _ _) ?_
  have h1 (a : Nat) (b : List Byte) : (if skip then s.commit a b else s).ok := by
    split
    · exact commit_ok h _ _
    · exact h
  split
  · exact imageSlot_ok (h1 _ _) _ _ _ _
  · exact h1 _ _

end Sys2Proof.Machine.State

namespace Sys2Proof.Machine

set_option Elab.async false

/-- Ending an attempt to issue keeps the canonical form when the effect does. -/
theorem settle_canonical {s : State} (h : s.ok) (k : Strand) (w : Word) (r : Do State) (hr : ∀ t, r = .ok t → t.ok) :
    (settle s k w r).ok := by
  match r with
  | .ok t => exact hr t rfl
  | .error (.fault c a i) => exact State.takeFault_ok h _ _ _ _ _ _ _ _
  | .error (.wait x) => exact h

/-- An instruction keeps the canonical form when its effect does, whatever holds it back. -/
theorem issue_ok {s : State} (h : s.ok) (i : Instr) (e : Bool) (n : Names) (body : Strand → State → Do State)
    (hb : ∀ k t, s.strand? = some k → body k.issuing s = .ok t → t.ok) : (issue i e n body s).ok := by
  unfold issue
  split
  · exact h
  · next k hk =>
    dsimp only
    split
    · refine settle_canonical h _ _ _ fun t ht => ?_
      unfold poisonCheck at ht
      split at ht
      · split at ht
        · split at ht <;> cases ht
        · cases ht
      · exact hb k t hk ht
    · refine settle_canonical h _ _ _ fun t ht => ?_
      split at ht <;> cases ht

end Sys2Proof.Machine
end

