-- ==== Sys2Proof/Laws/Strand.lean ====
section
/-! SUPPORT. The registers of a strand: what each reads after a write of one of them (R101, R283), and the frame that each
write keeps. -/

namespace Sys2Proof.Machine

set_option Elab.async false

theorem getLsbD_two_pow (w : Nat) (i j : Nat) (hi : i < w) :
    (BitVec.ofNat w (2 ^ i)).getLsbD j = decide (i = j) := by
  have h : 2 ^ i < 2 ^ w := Nat.pow_lt_pow_right (by omega) hi
  rw [BitVec.getLsbD, BitVec.toNat_ofNat, Nat.mod_eq_of_lt h, Nat.testBit_two_pow]

/-- An element of a vector after another is set. -/
theorem get_set {α : Type} {n : Nat} (xs : Vector α n) (i j : Fin n) (x : α) :
    (xs.set i x).get j = if j = i then x else xs.get j := by
  show (xs.set i x)[j.val] = if j = i then x else xs[j.val]
  rw [Vector.getElem_set]
  by_cases h : i.val = j.val
  · rw [if_pos h, if_pos (Fin.ext h.symm)]
  · rw [if_neg h, if_neg fun e => h (by rw [e])]

namespace Strand

variable (k : Strand) (r d : SReg) (v : Word)

@[simp] theorem rd_zero : k.rd 0 = 0 := by simp [rd]
@[simp] theorem full_zero : k.full 0 = true := by simp [full]
@[simp] theorem wr_zero : k.wr 0 v = k := by simp [wr]

@[simp] theorem wr_pc : (k.wr d v).pc = k.pc := by unfold wr; split <;> rfl
@[simp] theorem wr_wait : (k.wr d v).wait = k.wait := by unfold wr; split <;> rfl
@[simp] theorem wr_v : (k.wr d v).v = k.v := by unfold wr; split <;> rfl
@[simp] theorem wr_p : (k.wr d v).p = k.p := by unfold wr; split <;> rfl
@[simp] theorem wr_m : (k.wr d v).m = k.m := by unfold wr; split <;> rfl
@[simp] theorem wr_team : (k.wr d v).team = k.team := by unfold wr; split <;> rfl
@[simp] theorem wr_lrank : (k.wr d v).lrank = k.lrank := by unfold wr; split <;> rfl
@[simp] theorem wr_uid : (k.wr d v).uid = k.uid := by unfold wr; split <;> rfl
@[simp] theorem wr_vfull : (k.wr d v).vfull = k.vfull := by unfold wr; split <;> rfl
@[simp] theorem wr_summary : (k.wr d v).summary = k.summary := by unfold wr; split <;> rfl

/-- A scalar after a write: the destination holds the value, s0 reads 0, the others are as they were. -/
theorem rd_wr : (k.wr d v).rd r = if r = 0 then 0 else if r = d then v else k.rd r := by
  unfold wr rd
  by_cases hr : r = 0
  · simp [hr]
  · by_cases hd : d = 0
    · subst hd; simp [hr]
    · simp only [hd, hr, if_false]
      exact get_set _ _ _ _

@[simp] theorem full_wr_self : (k.wr d v).full d = true := by
  unfold wr full
  by_cases hd : d = 0
  · simp [hd]
  · simp only [hd, if_false]
    rw [BitVec.getLsbD_or, getLsbD_two_pow _ _ _ d.isLt]; simp

theorem full_wr_of_ne (h : r ≠ d) : (k.wr d v).full r = k.full r := by
  have hv : d.val ≠ r.val := fun e => h (Fin.ext e.symm)
  unfold wr full
  by_cases hd : d = 0
  · simp [hd]
  · simp only [hd, if_false]
    rw [BitVec.getLsbD_or, getLsbD_two_pow _ _ _ d.isLt]; simp [hv]

theorem bad_wr_self (h : d ≠ 0) : (k.wr d v).bad d = false := by
  unfold wr bad
  simp only [h, if_false]
  rw [BitVec.getLsbD_and, BitVec.getLsbD_not, getLsbD_two_pow _ _ _ d.isLt]; simp

theorem bad_wr_of_ne (h : r ≠ d) : (k.wr d v).bad r = k.bad r := by
  have hv : d.val ≠ r.val := fun e => h (Fin.ext e.symm)
  unfold wr bad
  by_cases hd : d = 0
  · simp [hd]
  · simp only [hd, if_false]
    rw [BitVec.getLsbD_and, BitVec.getLsbD_not, getLsbD_two_pow _ _ _ d.isLt]; simp [hv, r.isLt]

theorem rdV_wrV (k : Strand) (r d : VNum) (x : VReg) : (k.wrV d x).rdV r = if r = d then x else k.rdV r := by
  unfold wrV rdV
  exact get_set _ _ _ _

theorem rdM_wrM (k : Strand) (r d : PNum) (x : Shape) : (k.wrM d x).rdM r = if r = d then x else k.rdM r := by
  unfold wrM rdM
  exact get_set _ _ _ _

theorem rdP_wrP (k : Strand) (r d : PNum) (x : PReg) :
    (k.wrP d x).rdP r = if r = 0 then BitVec.allOnes 256 else if r = d then x else k.rdP r := by
  unfold wrP rdP
  by_cases hr : r = 0
  · simp [hr]
  · by_cases hd : d = 0
    · subst hd; simp [hr]
    · simp only [hd, hr, if_false]
      exact get_set _ _ _ _

end Strand

/-- Retiring with a scalar written is what `WroteScalar` says. -/
theorem wroteScalar_wr (k : Strand) (d : SReg) (v : Word) : WroteScalar k (k.issuing.wr d v).next d v where
  pc := by simp [Strand.next]
  wait := by simp [Strand.next]
  value := by
    have h : ∀ j : Strand, j.next.rd d = j.rd d := fun _ => rfl
    rw [h, Strand.rd_wr]; simp
  full := Strand.full_wr_self k.issuing d v
  clean := fun h => Strand.bad_wr_self k.issuing d v h
  others := by
    intro r hr
    have h1 : ∀ j : Strand, j.next.rd r = j.rd r := fun _ => rfl
    refine ⟨?_, Strand.full_wr_of_ne k.issuing r d v hr, Strand.bad_wr_of_ne k.issuing r d v hr⟩
    rw [h1, Strand.rd_wr]
    by_cases h0 : r = 0
    · simp [h0]
    · simp only [h0, hr, if_false]; rfl
  rest := by unfold Strand.wr Strand.next; split <;> rfl

theorem wroteVector_wrV (k : Strand) (d : VNum) (v : VReg) : WroteVector k (k.issuing.wrV d v).next d v where
  pc := rfl
  wait := rfl
  value := by
    have h : ∀ j : Strand, j.next.rdV d = j.rdV d := fun _ => rfl
    rw [h, Strand.rdV_wrV, if_pos rfl]
  others := by
    intro r hr
    have h : ∀ j : Strand, j.next.rdV r = j.rdV r := fun _ => rfl
    rw [h, Strand.rdV_wrV, if_neg hr]; rfl
  rest := rfl

theorem wroteShape_wrM (k : Strand) (d : PNum) (v : Shape) : WroteShape k (k.issuing.wrM d v).next d v where
  pc := rfl
  wait := rfl
  value := by
    have h : ∀ j : Strand, j.next.rdM d = j.rdM d := fun _ => rfl
    rw [h, Strand.rdM_wrM, if_pos rfl]
  others := by
    intro r hr
    have h : ∀ j : Strand, j.next.rdM r = j.rdM r := fun _ => rfl
    rw [h, Strand.rdM_wrM, if_neg hr]; rfl
  rest := rfl

theorem wrotePredicate_wrP (k : Strand) (d : PNum) (v : PReg) : WrotePredicate k (k.issuing.wrP d v).next d v where
  pc := by unfold Strand.wrP Strand.next; split <;> rfl
  wait := by unfold Strand.wrP Strand.next; split <;> rfl
  value := by
    have h : ∀ j : Strand, j.next.rdP d = j.rdP d := fun _ => rfl
    rw [h, Strand.rdP_wrP]; simp
  others := by
    intro r hr
    have h : ∀ j : Strand, j.next.rdP r = j.rdP r := fun _ => rfl
    rw [h, Strand.rdP_wrP]
    by_cases h0 : r = 0
    · simp [h0, Strand.rdP]
    · simp only [h0, hr, if_false]; rfl
  rest := by unfold Strand.wrP Strand.next; split <;> rfl

/-! ### The frame of an instruction (R102, R292) -/

/-- An instruction that nothing holds back runs its own checks and effect. -/
theorem issue_of_issues {s : State} {k : Strand} {n : Names} (h : Issues s k n) (i : Instr) (e : Bool)
    (body : Strand → State → Do State) :
    issue i e n body s = settle s k ((encode i).getD 0) (body k.issuing s) := by
  obtain ⟨h1, h2, h3⟩ := h
  simp [issue, h1, h2, h3, poisonCheck]

/-- Without a strand at the current place an instruction does nothing (log 3). -/
theorem issue_none {s : State} (h : s.strand? = none) (i : Instr) (e : Bool) (n : Names)
    (body : Strand → State → Do State) : issue i e n body s = s := by
  simp [issue, h]

/-- An instruction that names an empty register waits, or with E takes 0x65 (R102). -/
theorem issue_empty {s : State} {k : Strand} {n : Names} (h : s.strand? = some k) (hf : namesFull s k n = false) (i : Instr)
    (e : Bool) (body : Strand → State → Do State) :
    issue i e n body s = if e then s.takeFault s.at_.1 s.at_.2 k 0x65 0 0 ((encode i).getD 0)
      else s.put (k.waiting .empty s.cycle.toNat) := by
  cases e <;> simp [issue, h, hf, settle, raise]

@[simp] theorem settle_ok (s : State) (k : Strand) (w : Word) (t : State) : settle s k w (.ok t) = t := rfl
@[simp] theorem settle_fault (s : State) (k : Strand) (w : Word) (c : Nat) (a i : Word) :
    settle s k w (.error (.fault c a i)) = s.takeFault s.at_.1 s.at_.2 k c a i w := rfl
@[simp] theorem settle_wait (s : State) (k : Strand) (w : Word) (x : Wait) :
    settle s k w (.error (.wait x)) = s.put (k.waiting x s.cycle.toNat) := rfl

/-- An instruction that computes a scalar and retires is what `Computes` says. -/
theorem computes_of_issue {i : Instr} {e : Bool} {n : Names} {d : SReg} {v : Strand → Word}
    (h : ∀ s, exec i s = .next (issue i e n (fun k s => retire s (k.wr d (v k))) s))
    (hv : ∀ k : Strand, v k.issuing = v k) : Computes i n d v := by
  intro s k _ hk
  refine ⟨(k.issuing.wr d (v k)).next, ?_, wroteScalar_wr k d (v k)⟩
  rw [h, issue_of_issues hk, hv]; rfl

/-- An instruction that computes a predicate and retires is what `ComputesPredicate` says. -/
theorem computesPredicate_of_issue {i : Instr} {e : Bool} {n : Names} {d : PNum} {v : Strand → PReg}
    (h : ∀ s, exec i s = .next (issue i e n (fun k s => retire s (k.wrP d (v k))) s))
    (hv : ∀ k : Strand, v k.issuing = v k) : ComputesPredicate i n d v := by
  intro s k _ hk
  refine ⟨(k.issuing.wrP d (v k)).next, ?_, wrotePredicate_wrP k d (v k)⟩
  rw [h, issue_of_issues hk, hv]; rfl

end Sys2Proof.Machine
end

