-- ==== Sys2Proof/Laws/Checks.lean ====
section
/-! SUPPORT. The checks of an operand (R58, R62) and the access to the tile store: when each passes, and with what cause it
fails. Lanes and fields: what each reads after it is built. -/

namespace Sys2Proof.Machine

set_option Elab.async false

@[simp] theorem need_true (c : Nat) (a : Word) : need true c a = .ok () := rfl
@[simp] theorem need_false (c : Nat) (a : Word) : need false c a = .error (.fault c a 0) := rfl

theorem need_ok_iff {b : Bool} {c : Nat} {a : Word} : need b c a = .ok () ↔ b = true := by
  cases b <;> simp

/-- A check over a list passes when it passes for each operand. -/
theorem forAll_ok_iff {os : List Opd} {c : Opd → Do Unit} : forAll os c = .ok () ↔ ∀ o ∈ os, c o = .ok () := by
  induction os with
  | nil => simp [forAll]
  | cons o r ih =>
    rw [forAll]
    cases h : c o with
    | error e => simp [bind, Except.bind, h]
    | ok u => simp [bind, Except.bind, h, ih]

/-- R62 passes when each of its checks passes for each operand. -/
theorem checkAll_ok_iff {s : State} {t : Team} {os : List Opd} {ctr : Word} :
    checkAll s t os ctr = .ok () ↔
      (∀ o ∈ os, chkSpace t o = .ok () ∧ chkEntry s t o = .ok () ∧ chkGen s t o = .ok () ∧ chkMatch s t o = .ok () ∧
        chkBounds s t o = .ok () ∧ chkPerm s t o = .ok () ∧ chkStore o = .ok ()) ∧
      chkCtrRank t ctr = .ok () ∧ chkCtrOfs ctr = .ok () := by
  have seq : ∀ (a b : Do Unit), (a >>= fun _ => b) = .ok () ↔ a = .ok () ∧ b = .ok () := by
    intro a b
    cases a <;> simp [bind, Except.bind]
  unfold checkAll
  simp only [seq, forAll_ok_iff, imp_and, forall_and]
  tauto

/-! ### The tile store (R58, R250) -/

/-- A tile without an enabled watchpoint lets every access proceed. -/
theorem watched_unwatched {s : State} (h : Unwatched s) (k : Strand) (sel : Nat) (rs : List (Nat × Nat))
    (go : State → Do State) : watched k sel rs s go = go s := by
  have hits : State.watchHits (s.tile s.at_.1) sel rs = [] := by
    unfold State.watchHits
    rw [List.filterMap_eq_nil_iff]
    intro i hi
    have hi : i < 4 := List.mem_range.1 hi
    have hb : bit ((s.tile s.at_.1).wp.toList.getD i 0).toNat 63 = false := by
      have h1 := h ⟨i, hi⟩
      have hg : (s.tile s.at_.1).wp.toList.getD i 0 = (s.tile s.at_.1).wp.get ⟨i, hi⟩ := by
        rw [List.getD_eq_getElem?_getD, Vector.getElem?_toList, Vector.getElem?_eq_getElem hi]; rfl
      rw [hg, ← h1, BitVec.getLsbD, Nat.testBit_eq_decide_div_mod_eq]; rfl
    dsimp only
    rw [hb]; rfl
  simp [watched, hits]

theorem needStore_ok {a : Word} {n align : Nat} (h : InStore a n align) : needStore a n align = .ok () := by
  unfold needStore
  rw [need_ok_iff]
  exact (Bool.and_eq_true _ _).symm ▸ ⟨beq_iff_eq.2 h.1, decide_eq_true h.2⟩

theorem needStore_fault {a : Word} {n align : Nat} (h : ¬ InStore a n align) :
    needStore a n align = .error (.fault 0x20 a 0) := by
  have hb : (a.toNat % align == 0 && decide (a.toNat + n ≤ storeSize)) = false := by
    rw [Bool.eq_false_iff]
    intro hc
    rw [Bool.and_eq_true] at hc
    exact h ⟨beq_iff_eq.1 hc.1, of_decide_eq_true hc.2⟩
  unfold needStore
  rw [hb]; rfl

/-- A load that nothing stops gives the bytes of the issuing tile's store. -/
theorem loadBytes_eq {s : State} {k : Strand} {a : Word} {n align : Nat} (h : InStore a n align)
    (hp : s.anyPoison (storeKey s.at_.1 a.toNat) n = false) (hw : Unwatched s) (go : List Byte → State → Do State) :
    loadBytes k a n align s go = go (s.mem.read (storeKey s.at_.1 a.toNat) n) s := by
  unfold loadBytes
  rw [needStore_ok h, tileKey, hp, watched_unwatched hw]; rfl

/-- A store that nothing stops writes its bytes into the issuing tile's store, and work that reads them hears of it. -/
theorem storeBytes_eq {s : State} {k : Strand} {a : Word} {align : Nat} {bs : List Byte} (h : InStore a bs.length align)
    (hw : Unwatched s) : storeBytes k a align bs s = retire (stored k a.toNat bs s) k := by
  unfold storeBytes
  rw [needStore_ok h, watched_unwatched hw]; rfl

/-! ### Lanes and fields -/

theorem ofLanes_lt (w : Nat) (l : List Nat) : ofLanes w l < 2 ^ (w * l.length) := by
  induction l with
  | nil => simp [ofLanes]
  | cons x r ih =>
    have hx : x % 2 ^ w < 2 ^ w := Nat.mod_lt _ (Nat.two_pow_pos w)
    rw [ofLanes, List.length_cons, Nat.mul_succ, Nat.add_comm (w * r.length), Nat.pow_add]
    calc x % 2 ^ w + 2 ^ w * ofLanes w r < 2 ^ w * (ofLanes w r + 1) := by rw [Nat.mul_succ]; omega
      _ ≤ 2 ^ w * 2 ^ (w * r.length) := Nat.mul_le_mul_left _ ih

theorem ofLanes_get (w : Nat) (l : List Nat) (i : Nat) : ofLanes w l / 2 ^ (w * i) % 2 ^ w = (l[i]?).getD 0 % 2 ^ w := by
  induction l generalizing i with
  | nil => simp [ofLanes]
  | cons x r ih =>
    have hx : x % 2 ^ w < 2 ^ w := Nat.mod_lt _ (Nat.two_pow_pos w)
    cases i with
    | zero => simp [ofLanes]
    | succ i =>
      rw [ofLanes, Nat.mul_succ, Nat.add_comm (w * i), Nat.pow_add, ← Nat.div_div_eq_div_mul,
        Nat.add_mul_div_left _ _ (Nat.two_pow_pos w), Nat.div_eq_of_lt hx, Nat.zero_add, ih]
      simp

/-- Each lane of a register built from its lanes. -/
theorem lane_laneMap (w n : Nat) (f : Nat → Nat) (i : Nat) (hi : i < n) (hw : w * n ≤ 2048) :
    lane w (laneMap w n f) i = f i % 2 ^ w := by
  have hlt : ∀ m, w * n ≤ m → ofLanes w ((List.range n).map f) < 2 ^ m := by
    intro m hm
    have h := ofLanes_lt w ((List.range n).map f)
    rw [List.length_map, List.length_range] at h
    exact lt_of_lt_of_le h (Nat.pow_le_pow_right (by omega) hm)
  rw [lane, laneMap, BitVec.toNat_ofNat, Nat.mod_eq_of_lt (hlt _ hw), ofLanes_get]
  simp [hi]

end Sys2Proof.Machine

namespace Sys2Proof

set_option Elab.async false

/-- A bit of a field. -/
theorem testBit_field (n lo len i : Nat) : (field n lo len).testBit i = (decide (i < len) && n.testBit (lo + i)) := by
  rw [field, Nat.testBit_mod_two_pow, ← Nat.shiftRight_eq_div_pow, Nat.testBit_shiftRight]

theorem field_lt (n lo len : Nat) : field n lo len < 2 ^ len := Nat.mod_lt _ (Nat.two_pow_pos len)

end Sys2Proof
end

