-- ==== Sys2Proof/Laws/Encode.lean ====
section
/-! SUPPORT. What the pieces of the decoder answer on the fields that the encoder writes: one lemma for each kind of field and
one for each format. -/

namespace Sys2Proof.Laws

set_option Elab.async false

/-- Each value fits its width. -/
def Fits : List Nat → List Nat → Prop
  | [], [] => True
  | w :: ws, x :: xs => x < 2 ^ w ∧ Fits ws xs
  | _, _ => False

theorem split_pack : ∀ ws xs, Fits ws xs → split ws (pack ws xs) = xs
  | [], [], _ => rfl
  | w :: ws, x :: xs, h => by
    have hx : x % 2 ^ w = x := Nat.mod_eq_of_lt h.1
    simp only [split, pack, hx, Nat.add_mul_mod_self_left, Nat.add_mul_div_left _ _ (Nat.two_pow_pos w),
      Nat.div_eq_of_lt h.1, Nat.zero_add, split_pack ws xs h.2]

theorem pack_lt : ∀ ws xs, Fits ws xs → pack ws xs < 2 ^ ws.sum
  | [], [], _ => by simp [pack]
  | w :: ws, x :: xs, h => by
    have hx : x % 2 ^ w = x := Nat.mod_eq_of_lt h.1
    have h1 := h.1
    have h2 : pack ws xs + 1 ≤ 2 ^ ws.sum := pack_lt ws xs h.2
    have h3 : 2 ^ w * (pack ws xs + 1) ≤ 2 ^ w * 2 ^ ws.sum := Nat.mul_le_mul_left _ h2
    simp only [pack, hx, List.sum_cons, Nat.pow_add]
    rw [Nat.mul_add] at h3
    omega

/-- The common fields fit their widths (R275). -/
def Fields.Fit (f : Fields) : Prop := Fits wordWidths [f.opc, f.e, f.b9, f.d, f.a, f.b, f.p, f.x]

theorem ofWord_toWord (f : Fields) (h : Fields.Fit f) : Fields.ofWord f.toWord = f := by
  have hl := pack_lt _ _ h
  have hm : (BitVec.ofNat 64 (pack wordWidths [f.opc, f.e, f.b9, f.d, f.a, f.b, f.p, f.x])).toNat =
      pack wordWidths [f.opc, f.e, f.b9, f.d, f.a, f.b, f.p, f.x] := by
    rw [BitVec.toNat_ofNat]; exact Nat.mod_eq_of_lt hl
  simp only [Fields.ofWord, Fields.toWord, hm, split_pack _ _ h]

/-! ### Fields of one kind -/

@[simp] theorem fmt_ofCode (t : Fmt) : Fmt.ofCode t.code = some t := by cases t <;> rfl
@[simp] theorem cond_ofCode (t : Cond) : Cond.ofCode t.code = some t := by cases t <;> rfl
@[simp] theorem rop_ofCode (t : ROp) : ROp.ofCode t.code = some t := by cases t <;> rfl
@[simp] theorem bop_ofCode (t : BOp) : BOp.ofCode t.code = some t := by cases t <;> rfl
@[simp] theorem scope_ofCode (t : Scope) : Scope.ofCode t.code = some t := by cases t <;> rfl
@[simp] theorem mfield_ofCode (t : MField) : MField.ofCode t.code = some t := by cases t <;> rfl
theorem fmt_code_lt (t : Fmt) : t.code < 16 := by cases t <;> decide
theorem cond_code_lt (t : Cond) : t.code < 16 := by cases t <;> decide
theorem rop_code_lt (t : ROp) : t.code < 16 := by cases t <;> decide
theorem bop_code_lt (t : BOp) : t.code < 16 := by cases t <;> decide
theorem scope_code_lt (t : Scope) : t.code < 8 := by cases t <;> decide
theorem mfield_code_lt (t : MField) : t.code < 16 := by cases t <;> decide
theorem stype_code_lt (t : SType) : t.code < 16 := by cases t with | el f => exact fmt_code_lt f | f64 => decide
theorem stype_wide_lt (t : SType) : t.wide < 2 := by cases t <;> simp [SType.wide]
@[simp] theorem nat_le (b : Bool) : b.nat ≤ 1 := by cases b <;> decide
@[simp] theorem stype_wide_le (t : SType) : t.wide ≤ 1 := by cases t <;> simp [SType.wide]
theorem nat_lt (b : Bool) : b.nat < 2 := by cases b <;> decide
@[simp] theorem nat_beq (b : Bool) : (b.nat == 1) = b := by cases b <;> rfl

@[simp] theorem sysReg_ofCode (r : SysReg) : SysReg.ofCode r.code = some r := by
  cases r
  case stepc l => cases l <;> rfl
  all_goals first | rfl | (rename_i i; revert i; decide)

theorem sysReg_code_lt (r : SysReg) : r.code < 65536 := by
  cases r
  case stepc l => cases l <;> decide
  all_goals first | decide | (rename_i i; have := i.isLt; simp only [SysReg.code]; omega)

theorem need_true {c : Bool} {r : Reject} (h : c = true) : need c r = .ok () := by simp [need, h]
@[simp] theorem coded_some {α : Type} (x : α) (r : Reject) : coded (some x) r = .ok x := rfl
@[simp] theorem regOf_val {k : Nat} (x : Fin k) : regOf k x.val = .ok x := by simp [regOf, x.isLt]
theorem fmtOf_code {ok : Fmt → Bool} {t : Fmt} (h : ok t = true) : fmtOf ok t.code = .ok t := by
  simp [fmtOf, fmt_ofCode, h]
theorem stypeOf_code {t : SType} (h : t.convertible = true) : stypeOf t.code t.wide = .ok t := by
  cases t with
  | f64 => rfl
  | el f => cases f <;> first | rfl | simp [SType.convertible] at h
theorem ofNat_toNat {w : Nat} (x : BitVec w) : BitVec.ofNat w x.toNat = x := by simp
@[simp] theorem ok_bind {α β : Type} (x : α) (f : α → Except Reject β) : (Except.ok x >>= f) = f x := rfl
theorem zero_ok {xs : List Nat} (h : xs.all (· == 0) = true) : zero xs = .ok () := need_true h

/-! ### Formats -/

theorem predOf_wf {q : VPred} {o e d a b x : Nat} (h : q.wf = true) :
    predOf ⟨o, e, 0, d, a, b, q.p, x⟩ q.pn.nat q.zm.nat = .ok q := by
  simp only [VPred.wf, Bool.not_eq_true'] at h
  simp only [predOf, need, beq_self_eq_true, if_true, ok_bind, regOf_val, nat_beq, h, Bool.not_false]

theorem intR_enc (o : Nat) (k : IntR → Instr) (f : IntR) (h : f.ty.isScalarInt = true) :
    dIntR (f.enc o) k = .ok (k f) := by
  have hs := split_pack widthsR [0, 0, 0, 0, 0, 0, 0, 0, f.ty.code] (by simp [Fits, widthsR, fmt_code_lt])
  simp [dIntR, IntR.enc, plain, need, zero, hs, fmtOf_code h]

theorem intU_enc (o : Nat) (k : IntU → Instr) (f : IntU) (h : f.ty.isScalarInt = true) :
    dIntU (f.enc o) k = .ok (k f) := by
  have hs := split_pack widthsR [0, 0, 0, 0, 0, 0, 0, 0, f.ty.code] (by simp [Fits, widthsR, fmt_code_lt])
  simp [dIntU, IntU.enc, plain, need, zero, hs, fmtOf_code h]

theorem intI_enc (o : Nat) (ok : Fmt → Bool) (k : IntI → Instr) (f : IntI) (h : ok f.ty = true) :
    dIntI (f.enc o) ok k = .ok (k f) := by
  have hs := split_pack [4, 2] [f.ty.code, 0] (by simp [Fits, fmt_code_lt])
  simp [dIntI, IntI.enc, plain, need, zero, hs, fmtOf_code h]

theorem csel_enc (f : SelR) :
    dCsel ⟨0x12, f.e.nat, 0, f.d, f.a, f.b, 0, pack widthsR [f.c, 0, 0, 0, 0, 0, 0, 0, 6]⟩ = .ok (.csel f) := by
  have hs := split_pack widthsR [f.c.val, 0, 0, 0, 0, 0, 0, 0, 6] (by simp [Fits, widthsR])
  simp [dCsel, plain, need, zero, hs]

theorem float_enc (o : Nat) (k : FloatR → Instr) (f : FloatR) :
    dFloat (f.enc o) k = .ok (k f) := by
  have hs := split_pack widthsR [0, 0, 0, 0, 0, 0, 0, f.wd.nat, 8] (by simp [Fits, widthsR])
  simp [dFloat, FloatR.enc, plain, need, zero, hs]

theorem ffma_enc (f : FmaR) :
    dFfma ⟨0x23, f.e.nat, 0, f.d, f.a, f.b, 0, pack widthsR [f.c, 0, 0, 0, 0, 0, 0, f.wd.nat, 8]⟩ = .ok (.ffma f) := by
  have hs := split_pack widthsR [f.c.val, 0, 0, 0, 0, 0, 0, f.wd.nat, 8] (by simp [Fits, widthsR])
  simp [dFfma, plain, need, zero, hs]

theorem fcmp_enc (f : FcmpR) :
    dFcmp ⟨0x26, f.e.nat, 0, f.d, f.a, f.b, 0, pack widthsR [0, 0, f.cc.code, 0, 0, 0, 0, f.wd.nat, 8]⟩ = .ok (.fcmp f) := by
  have hs := split_pack widthsR [0, 0, f.cc.code, 0, 0, 0, 0, f.wd.nat, 8] (by simp [Fits, widthsR, cond_code_lt])
  simp [dFcmp, plain, need, zero, hs]

theorem fcvt_enc (f : FcvtR) (hd : f.dst.convertible = true) (ha : f.src.convertible = true) :
    dFcvt ⟨0x27, f.e.nat, 0, f.d, f.a, 0, 0, pack widthsR [0, 0, 0, 0, f.src.code, f.src.wide, 0, f.dst.wide, f.dst.code]⟩ = .ok (.fcvt f) := by
  have hs := split_pack widthsR [0, 0, 0, 0, f.src.code, f.src.wide, 0, f.dst.wide, f.dst.code] (by simp [Fits, widthsR, stype_code_lt])
  simp [dFcvt, plain, need, zero, hs, stypeOf_code hd, stypeOf_code ha]

theorem br_enc (o : Nat) (k : BrB → Instr) (f : BrB) :
    dBr (f.enc o) k = .ok (k f) := by
  simp [dBr, BrB.enc, plain, need, zero]

theorem jal_enc (f : JalB) :
    dJal ⟨0x36, f.e.nat, 0, f.d, 0, 0, 0, f.x.toNat⟩ = .ok (.jal f) := by
  simp [dJal, plain, need, zero]

theorem jalr_enc (f : JalrI) :
    dJalr ⟨0x37, f.e.nat, 0, f.d, f.a, 0, 0, f.imm.toNat⟩ = .ok (.jalr f) := by
  simp [dJalr, plain, need, zero]

theorem shape_enc (o : Nat) (k : ShapeI → Instr) (f : ShapeI) :
    dShape (f.enc o) k = .ok (k f) := by
  simp [dShape, ShapeI.enc, plain, need, zero]

theorem mset_enc (f : MsetI) :
    dMset ⟨0x44, f.e.nat, 0, f.d, f.a, pack [4, 2] [f.field.code, 0], 0, f.imm.toNat⟩ = .ok (.mset f) := by
  have hs := split_pack [4, 2] [f.field.code, 0] (by simp [Fits, mfield_code_lt])
  simp [dMset, plain, need, zero, hs]

theorem pred_enc (o : Nat) (k : PredR → Instr) (f : PredR) :
    dPred (f.enc o) k = .ok (k f) := by
  simp [dPred, PredR.enc, plain, need, zero]

theorem pnot_enc (f : PredU) :
    dPnot ⟨0x53, f.e.nat, 0, f.d, f.a, 0, 0, 0⟩ = .ok (.pnot f) := by
  simp [dPnot, plain, need, zero]

theorem pset_enc (f : PsetR) (h : f.ty.isLane = true) :
    dPset ⟨0x54, f.e.nat, 0, f.d, f.a, 0, 0, pack widthsR [0, 0, 0, 0, 0, 0, 0, 0, f.ty.code]⟩ = .ok (.pset f) := by
  have hs := split_pack widthsR [0, 0, 0, 0, 0, 0, 0, 0, f.ty.code] (by simp [Fits, widthsR, fmt_code_lt])
  simp [dPset, plain, need, zero, hs, fmtOf_code h]

theorem vecU_enc (o : Nat) (ok : Fmt → Bool) (k : VecU → Instr) (f : VecU) (h : ok f.ty = true) (hq : f.q.wf = true) :
    dVecU (f.enc o) ok k = .ok (k f) := by
  have hs := split_pack widthsV [0, f.q.zm.nat, f.q.pn.nat, 0, 0, 0, 0, f.ty.code] (by simp [Fits, widthsV, fmt_code_lt])
  simp [dVecU, VecU.enc, need, zero, hs, predOf_wf hq, fmtOf_code h]

theorem vecR_enc (o : Nat) (ok : Fmt → Bool) (k : VecR → Instr) (f : VecR) (h : ok f.ty = true) (hq : f.q.wf = true) :
    dVecR (f.enc o) ok k = .ok (k f) := by
  have hs := split_pack widthsV [0, f.q.zm.nat, f.q.pn.nat, 0, 0, 0, 0, f.ty.code] (by simp [Fits, widthsV, fmt_code_lt])
  simp [dVecR, VecR.enc, need, zero, hs, predOf_wf hq, fmtOf_code h]

theorem vfma_enc (f : VecF) (h : f.ty.isFloat = true) (hq : f.q.wf = true) :
    dVfma ⟨0x69, f.e.nat, 0, f.d, f.a, f.b, f.q.p, pack widthsV [f.c.val, f.q.zm.nat, f.q.pn.nat, 0, 0, 0, 0, f.ty.code]⟩ = .ok (.vfma f) := by
  have hs := split_pack widthsV [f.c.val, f.q.zm.nat, f.q.pn.nat, 0, 0, 0, 0, f.ty.code] (by simp [Fits, widthsV, fmt_code_lt]; omega)
  simp [dVfma, need, zero, hs, predOf_wf hq, fmtOf_code h]

theorem vcmp_enc (f : VcmpV) (h : (f.ty.isFloat || (f.ty.isLaneInt && f.cc != .un && f.cc != .ord)) = true) (hq : f.q.wf = true) :
    dVcmp ⟨0x65, f.e.nat, 0, f.d, f.a, f.b, f.q.p, pack widthsV [0, f.q.zm.nat, f.q.pn.nat, 0, 0, f.cc.code, 0, f.ty.code]⟩ = .ok (.vcmp f) := by
  have ht := fmtOf_code (ok := fun t => t.isFloat || (t.isLaneInt && f.cc != .un && f.cc != .ord)) h
  have hs := split_pack widthsV [0, f.q.zm.nat, f.q.pn.nat, 0, 0, f.cc.code, 0, f.ty.code] (by simp [Fits, widthsV, fmt_code_lt, cond_code_lt])
  simp [dVcmp, need, zero, hs, predOf_wf hq, ht]

theorem vcvt_enc (f : VcvtV) (hd : f.dst.isLane = true) (ha : f.src.isLane = true)
    (hp : vcvtPartOk f.dst f.src f.part.val = true) (hq : f.q.wf = true) :
    dVcvt ⟨0x66, f.e.nat, 0, f.d, f.a, 0, f.q.p, pack widthsV [0, f.q.zm.nat, f.q.pn.nat, 0, f.part.val, 0, f.src.code, f.dst.code]⟩ = .ok (.vcvt f) := by
  have hs := split_pack widthsV [0, f.q.zm.nat, f.q.pn.nat, 0, f.part.val, 0, f.src.code, f.dst.code] (by simp [Fits, widthsV, fmt_code_lt])
  simp [dVcvt, need, zero, hs, predOf_wf hq, fmtOf_code hd, fmtOf_code ha, hp]

theorem vbcast_enc (f : VbcV) (h : f.ty.isLane = true) (hq : f.q.wf = true) :
    dVbc ⟨0x64, f.e.nat, 0, f.d, f.a, 0, f.q.p, pack widthsV [0, f.q.zm.nat, f.q.pn.nat, 0, 0, 0, 0, f.ty.code]⟩ = .ok (.vbcast f) := by
  have hs := split_pack widthsV [0, f.q.zm.nat, f.q.pn.nat, 0, 0, 0, 0, f.ty.code] (by simp [Fits, widthsV, fmt_code_lt])
  simp [dVbc, need, zero, hs, predOf_wf hq, fmtOf_code h]

theorem vidx_enc (f : VidxV) (h : f.ty.isLaneInt = true) (hq : f.q.wf = true) :
    dVidx ⟨0x6B, f.e.nat, 0, f.d, 0, 0, f.q.p, pack widthsV [0, f.q.zm.nat, f.q.pn.nat, 0, 0, 0, 0, f.ty.code]⟩ = .ok (.vidx f) := by
  have hs := split_pack widthsV [0, f.q.zm.nat, f.q.pn.nat, 0, 0, 0, 0, f.ty.code] (by simp [Fits, widthsV, fmt_code_lt])
  simp [dVidx, need, zero, hs, predOf_wf hq, fmtOf_code h]

theorem vext_enc (f : VextV) (h : f.ty.isLane = true) :
    dVext ⟨0x68, f.e.nat, 0, f.d, f.a, f.b, 0, pack widthsV [0, 0, 0, 0, 0, 0, 0, f.ty.code]⟩ = .ok (.vext f) := by
  have hs := split_pack widthsV [0, 0, 0, 0, 0, 0, 0, f.ty.code] (by simp [Fits, widthsV, fmt_code_lt])
  simp [dVext, plain, need, zero, hs, fmtOf_code h]

theorem vred_enc (f : VredV) (h : vredOk f.ty f.op = true) (hq : f.q.wf = true) (hz : f.q.zm = false) :
    dVred ⟨0x76, f.e.nat, 0, f.d, f.a, 0, f.q.p, pack widthsV [0, f.q.zm.nat, f.q.pn.nat, 0, f.op.code, 0, 0, f.ty.code]⟩ = .ok (.vred f) := by
  have ht := fmtOf_code (ok := fun t => vredOk t f.op) h
  have hn : f.q.zm.nat = 0 := by rw [hz]; rfl
  have hp := predOf_wf (o := 0x76) (e := f.e.nat) (d := f.d) (a := f.a) (b := 0) (x := pack widthsV [0, f.q.zm.nat, f.q.pn.nat, 0, f.op.code, 0, 0, f.ty.code]) hq
  rw [hn] at hp ⊢
  have hs := split_pack widthsV [0, 0, f.q.pn.nat, 0, f.op.code, 0, 0, f.ty.code] (by simp [Fits, widthsV, fmt_code_lt, rop_code_lt])
  simp [dVred, need, zero, hs, hp, ht]

theorem vmem_enc (o : Nat) (store : Bool) (k : VmemV → Instr) (f : VmemV) (h : f.ty.isLane = true) (hq : f.q.wf = true)
    (hz : (store && f.q.zm) = false) :
    dVmem (f.enc o) store k = .ok (k f) := by
  have hs := split_pack widthsVM [0, f.q.zm.nat, f.q.pn.nat, f.imm.toNat, f.ty.code] (by simp [Fits, widthsVM, fmt_code_lt]; omega)
  simp [dVmem, VmemV.enc, need, zero, hs, predOf_wf hq, fmtOf_code h, hz]

theorem vgs_enc (o : Nat) (store : Bool) (k : VgsV → Instr) (f : VgsV) (h : f.ty.isLane = true) (hq : f.q.wf = true)
    (hz : (store && f.q.zm) = false) :
    dVgs (f.enc o) store k = .ok (k f) := by
  have hs := split_pack widthsVM [0, f.q.zm.nat, f.q.pn.nat, f.imm.toNat, f.ty.code] (by simp [Fits, widthsVM, fmt_code_lt]; omega)
  simp [dVgs, VgsV.enc, need, zero, hs, predOf_wf hq, fmtOf_code h, hz]

theorem mma_enc (f : MmaM) (h : f.fmt.isMma = true) :
    dMma ⟨0xA0, f.e.nat, 0, f.d, f.a, f.b, 0, pack widthsM [f.kst.toNat, f.row0.toNat, f.na.nat, f.nb.nat, f.ad.nat, 0, f.fmt.code]⟩ = .ok (.mma f) := by
  have hs := split_pack widthsM [f.kst.toNat, f.row0.toNat, f.na.nat, f.nb.nat, f.ad.nat, 0, f.fmt.code] (by simp [Fits, widthsM, fmt_code_lt]; omega)
  simp [dMma, plain, need, zero, hs, fmtOf_code h]

theorem ald_enc (f : AldM) (h : f.fmt.isTag = true) :
    dAld ⟨0xA1, f.e.nat, 0, f.d, f.a, 0, 0, pack widthsM [0, 0, 0, 0, 0, 0, f.fmt.code]⟩ = .ok (.ald f) := by
  have hs := split_pack widthsM [0, 0, 0, 0, 0, 0, f.fmt.code] (by simp [Fits, widthsM, fmt_code_lt])
  simp [dAld, plain, need, zero, hs, fmtOf_code h]

theorem ast_enc (f : AstM) :
    dAst ⟨0xA2, f.e.nat, 0, f.d, f.a, 0, 0, 0⟩ = .ok (.ast f) := by
  simp [dAst, plain, need, zero]

theorem azero_enc (f : AzeroM) (h : f.fmt.isTag = true) :
    dAzero ⟨0xA3, f.e.nat, 0, f.d, 0, 0, 0, pack widthsM [0, 0, 0, 0, 0, 0, f.fmt.code]⟩ = .ok (.azero f) := by
  have hs := split_pack widthsM [0, 0, 0, 0, 0, 0, f.fmt.code] (by simp [Fits, widthsM, fmt_code_lt])
  simp [dAzero, plain, need, zero, hs, fmtOf_code h]

theorem ascale_enc (f : AscaleM) (h : f.fmt.isTag = true) :
    dAscale ⟨0xA4, f.e.nat, 0, f.d, f.a, f.b, 0, pack widthsSC [f.sc.val, 0, f.fmt.code]⟩ = .ok (.ascale f) := by
  have hs := split_pack widthsSC [f.sc.val, 0, f.fmt.code] (by simp [Fits, widthsSC, fmt_code_lt]; omega)
  simp [dAscale, plain, need, zero, hs, fmtOf_code h]

theorem cbld_enc (f : CbldC) :
    dCbld ⟨0xA5, f.e.nat, 0, f.d, f.a, 0, 0, f.x.toNat⟩ = .ok (.cbld f) := by
  simp [dCbld, plain, need, zero]

theorem cpy_enc (f : CpyC) :
    dCpy ⟨0xB0, f.e.nat, 0, f.d, f.a, f.b, 0, f.amt.toNat⟩ = .ok (.cpy f) := by
  simp [dCpy, plain, need]

theorem cpya_enc (f : CpyaC) :
    dCpya ⟨0xB1, f.e.nat, 0, f.d, f.a, f.b, 0, pack widthsCPYA [f.amt.toNat, f.op.code]⟩ = .ok (.cpya f) := by
  have hs := split_pack widthsCPYA [f.amt.toNat, f.op.code] (by simp [Fits, widthsCPYA, rop_code_lt]; omega)
  simp [dCpya, plain, need, hs]

theorem amo_enc (f : AmoC) (h : amoOpOk f.ty f.op = true) :
    dAmo ⟨0xB2, f.e.nat, 0, f.d, f.a, f.b, 0, pack widthsAMO [0, f.op.code, f.ty.code]⟩ = .ok (.amo f) := by
  have ht := fmtOf_code (ok := fun t => amoOpOk t f.op) h
  have hs := split_pack widthsAMO [0, f.op.code, f.ty.code] (by simp [Fits, widthsAMO, fmt_code_lt, rop_code_lt])
  simp [dAmo, plain, need, zero, hs, ht]

theorem red_enc (f : RedC) (h : redOk f = true) :
    dRed ⟨0xB3, f.e.nat, 0, f.d, 0, f.b, 0, pack widthsRED [0, f.wd.nat, f.vec.nat, f.op.code, f.ty.code]⟩ = .ok (.red f) := by
  have ht : f.ty.isAmo = true := by simp only [redOk, Bool.and_eq_true] at h; exact h.1.1.1.1
  have hs := split_pack widthsRED [0, f.wd.nat, f.vec.nat, f.op.code, f.ty.code] (by simp [Fits, widthsRED, fmt_code_lt, rop_code_lt])
  simp [dRed, plain, need, zero, hs, fmtOf_code ht, h]

theorem fence_enc (f : FenceC) :
    dFence ⟨0xB6, 0, 0, f.d, 0, 0, 0, pack widthsFENCE [f.scope.code, 0]⟩ = .ok (.fence f) := by
  have hs := split_pack widthsFENCE [f.scope.code, 0] (by simp [Fits, widthsFENCE, scope_code_lt])
  simp [dFence, plain, need, zero, hs]

theorem ctradd_enc (f : CtrC) :
    dCtr ⟨0xB7, f.e.nat, 0, 0, f.a, f.b, 0, f.x.toNat⟩ = .ok (.ctradd f) := by
  simp [dCtr, plain, need, zero]

theorem waitge_enc (f : WaitC) :
    dWait ⟨0xB8, f.e.nat, 0, f.d, f.a, f.b, 0, f.x.toNat⟩ = .ok (.waitge f) := by
  simp [dWait, plain, need]

theorem bar_enc (f : BarS) (h : barOk f.scope f.cnt f.rop = true) :
    dBar ⟨0xC0, f.e.nat, 0, f.d, f.a, f.b, 0, pack widthsBAR [f.scope.code, f.rop.code, f.cnt.val, f.ds.val, 0]⟩ = .ok (.bar f) := by
  have hs := split_pack widthsBAR [f.scope.code, f.rop.code, f.cnt.val, f.ds.val, 0] (by simp [Fits, widthsBAR, bop_code_lt, scope_code_lt])
  simp [dBar, plain, need, zero, hs, h]

theorem bara_enc (f : BaraS) (h : barOk f.scope f.cnt f.rop = true) :
    dBara ⟨0xC1, f.e.nat, 0, f.d, f.a, f.b, 0, pack widthsBAR [f.scope.code, f.rop.code, f.cnt.val, 0, 0]⟩ = .ok (.bara f) := by
  have hs := split_pack widthsBAR [f.scope.code, f.rop.code, f.cnt.val, 0, 0] (by simp [Fits, widthsBAR, bop_code_lt, scope_code_lt])
  simp [dBara, plain, need, zero, hs, h]

theorem barw_enc (f : BarwS) :
    dBarw ⟨0xC2, f.e.nat, 0, f.d, f.a, 0, 0, pack widthsBAR [f.scope.code, 0, 0, f.ds.val, 0]⟩ = .ok (.barw f) := by
  have hs := split_pack widthsBAR [f.scope.code, 0, 0, f.ds.val, 0] (by simp [Fits, widthsBAR, scope_code_lt])
  simp [dBarw, plain, need, zero, hs]

theorem spawn_enc (f : SpawnS) :
    dSpawn ⟨0xC8, f.e.nat, 0, f.d, f.a, 0, 0, f.x.toNat⟩ = .ok (.spawn f) := by
  simp [dSpawn, plain, need, zero]

theorem join_enc (f : JoinS) (h : (f.x != 0) = true) :
    dJoin ⟨0xC9, f.e.nat, 0, 0, f.a, 0, 0, f.x.toNat⟩ = .ok (.join f) := by
  have h0 : f.x ≠ 0#32 := by simpa using h
  simp [dJoin, plain, need, zero, h0]

theorem susp_enc (f : SuspS) :
    dSusp ⟨0xCA, f.e.nat, 0, 0, f.a, f.b, 0, f.x.toNat⟩ = .ok (.susp f) := by
  simp [dSusp, plain, need, zero]

theorem da_enc (o : Nat) (k : DaS → Instr) (f : DaS) :
    dDa (f.enc o) k = .ok (k f) := by
  simp [dDa, DaS.enc, plain, need, zero]

theorem coll_enc (o : Nat) (k : CollC → Instr) (f : CollC) :
    dColl (f.enc o) k = .ok (k f) := by
  simp [dColl, CollC.enc, plain, need]

theorem sysrd_enc (f : SysrdY) :
    dSysrd ⟨0xE1, f.e.nat, 0, f.d, 0, 0, 0, pack widthsY [f.srn.code, 0]⟩ = .ok (.sysrd f) := by
  have hs := split_pack widthsY [f.srn.code, 0] (by simp [Fits, widthsY, sysReg_code_lt])
  simp [dSysrd, plain, need, zero, hs]

theorem syswr_enc (f : SyswrY) :
    dSyswr ⟨0xE2, f.e.nat, 0, 0, f.a, 0, 0, pack widthsY [f.srn.code, 0]⟩ = .ok (.syswr f) := by
  have hs := split_pack widthsY [f.srn.code, 0] (by simp [Fits, widthsY, sysReg_code_lt])
  simp [dSyswr, plain, need, zero, hs]

theorem resume_enc (f : ResumeY) :
    dResume ⟨0xE3, f.e.nat, 0, f.d, f.a, 0, 0, pack widthsRESUME [f.skip.nat, f.drop.nat, 0]⟩ = .ok (.resume f) := by
  have hs := split_pack widthsRESUME [f.skip.nat, f.drop.nat, 0] (by simp [Fits, widthsRESUME])
  simp [dResume, plain, need, zero, hs]

theorem imm16_enc (o : Nat) (k : BitVec 16 → Instr) (x : BitVec 16) :
    dImm16 ⟨o, 0, 0, 0, 0, 0, 0, pack widthsY [x.toNat, 0]⟩ k = .ok (k x) := by
  have hs := split_pack widthsY [x.toNat, 0] (by simp [Fits, widthsY]; omega)
  simp [dImm16, bare, plain, need, zero, hs]

theorem li_enc (f : IntI) (h : WellFormed (.li f) = true) : dLi (f.enc 0x1F) = .ok (.li f) := by
  have hs := split_pack [4, 2] [f.ty.code, 0] (by simp [Fits, fmt_code_lt])
  have hc : f.a.val = 0 ∨ field (pack [4, 2] [f.ty.code, 0]) 0 4 = 7 := by
    simp only [WellFormed, Bool.or_eq_true, beq_iff_eq, Bool.and_eq_true] at h
    rcases h with h | h
    · right; rw [h]; rfl
    · left; exact h.2
  have ht : (fun t => t == Fmt.i64 || t == Fmt.n64) f.ty = true := by
    simp only [WellFormed, Bool.or_eq_true, beq_iff_eq, Bool.and_eq_true] at h ⊢
    tauto
  have := intI_enc 0x1F (fun t => t == .i64 || t == .n64) .li f ht
  simp only [dLi, this]
  simp only [IntI.enc, need_true (c := (f.a.val == 0 || field (pack [4, 2] [f.ty.code, 0]) 0 4 == 7)) (by simpa using hc), ok_bind]

theorem vsel_enc (f : VecR) (h : WellFormed (.vsel f) = true) : dVsel (f.enc 0x79) = .ok (.vsel f) := by
  simp only [WellFormed, vOk, Bool.and_eq_true, Bool.not_eq_true'] at h
  have := vecR_enc 0x79 Fmt.isLane .vsel f h.1.1 h.1.2
  have hz : field (f.enc 0x79).x 6 1 = 0 := by
    have hn : f.q.zm.nat = 0 := by rw [h.2]; rfl
    have := nat_le f.q.pn
    have := fmt_code_lt f.ty
    simp only [VecR.enc, field, pack, widthsV, hn]
    omega
  simp only [dVsel, this, hz, need_true (c := ((0 : Nat) == 0)) rfl, ok_bind]

end Sys2Proof.Laws
end

