-- ==== Sys2Proof/Laws/PerInstr.lean ====
section
/-! SUPPORT. The round trip of the encoding, one lemma for each constructor: the decoder reads back every field that the encoder
writes. -/

namespace Sys2Proof.Laws

set_option Elab.async false

theorem z64 : 0 < 64 := by decide
theorem z16 : 0 < 16 := by decide
theorem z32 : 0 < 4294967296 := by decide
theorem fin32_lt (x : Fin 32) : x.val < 64 := by omega
theorem fin16_lt (x : Fin 16) : x.val < 64 := by omega
theorem fin8_lt (x : Fin 8) : x.val < 64 := by omega
theorem fin2_lt (x : Fin 2) : x.val < 64 := by omega

theorem fields_fit {o d a b p x : Nat} (e : Bool) (ho : o < 256) (hd : d < 64) (ha : a < 64) (hb : b < 64) (hp : p < 16)
    (hx : x < 4294967296) : Fields.Fit ⟨o, e.nat, 0, d, a, b, p, x⟩ := by
  exact ⟨ho, nat_lt e, Nat.two_pos, hd, ha, hb, hp, hx, trivial⟩

theorem fields_fit_bare {o d x : Nat} (ho : o < 256) (hd : d < 64) (hx : x < 4294967296) :
    Fields.Fit ⟨o, 0, 0, d, 0, 0, 0, x⟩ := by
  exact ⟨ho, Nat.two_pos, Nat.two_pos, hd, z64, z64, z16, hx, trivial⟩

theorem pack_lt_word (ws xs : List Nat) (h : pack ws xs < 2 ^ ws.sum) (hs : ws.sum = 32) : pack ws xs < 4294967296 := by
  rw [hs] at h; exact h

/-- Packing keeps below the sum of the widths, whatever the values. -/
theorem pack_lt_sum : ∀ ws xs, pack ws xs < 2 ^ ws.sum
  | [], _ => by simp [pack]
  | _ :: _, [] => by simp [pack]
  | w :: ws, x :: xs => by
    have h1 : x % 2 ^ w < 2 ^ w := Nat.mod_lt _ (Nat.two_pow_pos w)
    have h3 : 2 ^ w * (pack ws xs + 1) ≤ 2 ^ w * 2 ^ ws.sum := Nat.mul_le_mul_left _ (pack_lt_sum ws xs)
    simp only [pack, List.sum_cons, Nat.pow_add]
    rw [Nat.mul_add] at h3
    omega

theorem pack_lt32 (ws xs : List Nat) (h : ws.sum = 32) : pack ws xs < 4294967296 := by
  have := pack_lt_sum ws xs
  rw [h] at this; exact this

theorem pack_lt6 (x y : Nat) : pack [4, 2] [x, y] < 64 := pack_lt_sum [4, 2] [x, y]

end Sys2Proof.Laws

namespace Sys2Proof.Laws.RoundTrip

set_option Elab.async false

/-- What the decoder reads from the word of a well-formed instruction is that instruction. -/
def Statement (i : Instr) : Prop := WellFormed i = true → ∀ w, encode i = some w → decode w = .ok i

theorem of_fields {i : Instr} {g : Fields} (he : encodeFields i = some g) (hf : Fields.Fit g)
    (hd : WellFormed i = true → decodeFields g = .ok i) : Statement i := by
  intro hw w h
  simp only [encode, he, Option.map_some, Option.some.injEq] at h
  subst h
  simp only [decode, ofWord_toWord g hf, hd hw]

theorem of_none {i : Instr} (he : encodeFields i = none) : Statement i := by
  intro _ w h
  simp [encode, he] at h

theorem addR (f : IntR) : Statement (.addR f) := by
  exact of_fields rfl (fields_fit f.e (by decide) f.d.isLt f.a.isLt f.b.isLt z16 (pack_lt32 _ _ rfl))
    (fun h => intR_enc 0x1 .addR f h)

theorem addI (f : IntI) : Statement (.addI f) := by
  exact of_fields rfl (fields_fit f.e (by decide) f.d.isLt f.a.isLt (pack_lt6 _ _) z16 f.imm.isLt)
    (fun h => intI_enc 0x14 Fmt.isScalarInt .addI f h)

theorem sub (f : IntR) : Statement (.sub f) := by
  exact of_fields rfl (fields_fit f.e (by decide) f.d.isLt f.a.isLt f.b.isLt z16 (pack_lt32 _ _ rfl))
    (fun h => intR_enc 0x2 .sub f h)

theorem mulR (f : IntR) : Statement (.mulR f) := by
  exact of_fields rfl (fields_fit f.e (by decide) f.d.isLt f.a.isLt f.b.isLt z16 (pack_lt32 _ _ rfl))
    (fun h => intR_enc 0x3 .mulR f h)

theorem mulI (f : IntI) : Statement (.mulI f) := by
  exact of_fields rfl (fields_fit f.e (by decide) f.d.isLt f.a.isLt (pack_lt6 _ _) z16 f.imm.isLt)
    (fun h => intI_enc 0x15 Fmt.isScalarInt .mulI f h)

theorem mulh (f : IntR) : Statement (.mulh f) := by
  exact of_fields rfl (fields_fit f.e (by decide) f.d.isLt f.a.isLt f.b.isLt z16 (pack_lt32 _ _ rfl))
    (fun h => intR_enc 0x4 .mulh f h)

theorem div (f : IntR) : Statement (.div f) := by
  exact of_fields rfl (fields_fit f.e (by decide) f.d.isLt f.a.isLt f.b.isLt z16 (pack_lt32 _ _ rfl))
    (fun h => intR_enc 0x5 .div f h)

theorem rem (f : IntR) : Statement (.rem f) := by
  exact of_fields rfl (fields_fit f.e (by decide) f.d.isLt f.a.isLt f.b.isLt z16 (pack_lt32 _ _ rfl))
    (fun h => intR_enc 0x6 .rem f h)

theorem andR (f : IntR) : Statement (.andR f) := by
  exact of_fields rfl (fields_fit f.e (by decide) f.d.isLt f.a.isLt f.b.isLt z16 (pack_lt32 _ _ rfl))
    (fun h => intR_enc 0x7 .andR f h)

theorem andI (f : IntI) : Statement (.andI f) := by
  exact of_fields rfl (fields_fit f.e (by decide) f.d.isLt f.a.isLt (pack_lt6 _ _) z16 f.imm.isLt)
    (fun h => intI_enc 0x16 Fmt.isScalarInt .andI f h)

theorem orR (f : IntR) : Statement (.orR f) := by
  exact of_fields rfl (fields_fit f.e (by decide) f.d.isLt f.a.isLt f.b.isLt z16 (pack_lt32 _ _ rfl))
    (fun h => intR_enc 0x8 .orR f h)

theorem orI (f : IntI) : Statement (.orI f) := by
  exact of_fields rfl (fields_fit f.e (by decide) f.d.isLt f.a.isLt (pack_lt6 _ _) z16 f.imm.isLt)
    (fun h => intI_enc 0x17 Fmt.isScalarInt .orI f h)

theorem xorR (f : IntR) : Statement (.xorR f) := by
  exact of_fields rfl (fields_fit f.e (by decide) f.d.isLt f.a.isLt f.b.isLt z16 (pack_lt32 _ _ rfl))
    (fun h => intR_enc 0x9 .xorR f h)

theorem xorI (f : IntI) : Statement (.xorI f) := by
  exact of_fields rfl (fields_fit f.e (by decide) f.d.isLt f.a.isLt (pack_lt6 _ _) z16 f.imm.isLt)
    (fun h => intI_enc 0x18 Fmt.isScalarInt .xorI f h)

theorem shlR (f : IntR) : Statement (.shlR f) := by
  exact of_fields rfl (fields_fit f.e (by decide) f.d.isLt f.a.isLt f.b.isLt z16 (pack_lt32 _ _ rfl))
    (fun h => intR_enc 0xA .shlR f h)

theorem shlI (f : IntI) : Statement (.shlI f) := by
  exact of_fields rfl (fields_fit f.e (by decide) f.d.isLt f.a.isLt (pack_lt6 _ _) z16 f.imm.isLt)
    (fun h => intI_enc 0x19 Fmt.isScalarInt .shlI f h)

theorem shrR (f : IntR) : Statement (.shrR f) := by
  exact of_fields rfl (fields_fit f.e (by decide) f.d.isLt f.a.isLt f.b.isLt z16 (pack_lt32 _ _ rfl))
    (fun h => intR_enc 0xB .shrR f h)

theorem shrI (f : IntI) : Statement (.shrI f) := by
  exact of_fields rfl (fields_fit f.e (by decide) f.d.isLt f.a.isLt (pack_lt6 _ _) z16 f.imm.isLt)
    (fun h => intI_enc 0x1A Fmt.isScalarInt .shrI f h)

theorem sraR (f : IntR) : Statement (.sraR f) := by
  exact of_fields rfl (fields_fit f.e (by decide) f.d.isLt f.a.isLt f.b.isLt z16 (pack_lt32 _ _ rfl))
    (fun h => intR_enc 0xC .sraR f h)

theorem sraI (f : IntI) : Statement (.sraI f) := by
  exact of_fields rfl (fields_fit f.e (by decide) f.d.isLt f.a.isLt (pack_lt6 _ _) z16 f.imm.isLt)
    (fun h => intI_enc 0x1B Fmt.isScalarInt .sraI f h)

theorem sltR (f : IntR) : Statement (.sltR f) := by
  exact of_fields rfl (fields_fit f.e (by decide) f.d.isLt f.a.isLt f.b.isLt z16 (pack_lt32 _ _ rfl))
    (fun h => intR_enc 0xD .sltR f h)

theorem sltI (f : IntI) : Statement (.sltI f) := by
  exact of_fields rfl (fields_fit f.e (by decide) f.d.isLt f.a.isLt (pack_lt6 _ _) z16 f.imm.isLt)
    (fun h => intI_enc 0x1C Fmt.isScalarInt .sltI f h)

theorem minR (f : IntR) : Statement (.minR f) := by
  exact of_fields rfl (fields_fit f.e (by decide) f.d.isLt f.a.isLt f.b.isLt z16 (pack_lt32 _ _ rfl))
    (fun h => intR_enc 0xE .minR f h)

theorem minI (f : IntI) : Statement (.minI f) := by
  exact of_fields rfl (fields_fit f.e (by decide) f.d.isLt f.a.isLt (pack_lt6 _ _) z16 f.imm.isLt)
    (fun h => intI_enc 0x1D Fmt.isScalarInt .minI f h)

theorem maxR (f : IntR) : Statement (.maxR f) := by
  exact of_fields rfl (fields_fit f.e (by decide) f.d.isLt f.a.isLt f.b.isLt z16 (pack_lt32 _ _ rfl))
    (fun h => intR_enc 0xF .maxR f h)

theorem maxI (f : IntI) : Statement (.maxI f) := by
  exact of_fields rfl (fields_fit f.e (by decide) f.d.isLt f.a.isLt (pack_lt6 _ _) z16 f.imm.isLt)
    (fun h => intI_enc 0x1E Fmt.isScalarInt .maxI f h)

theorem clz (f : IntU) : Statement (.clz f) := by
  exact of_fields rfl (fields_fit f.e (by decide) f.d.isLt f.a.isLt z64 z16 (pack_lt32 _ _ rfl))
    (fun h => intU_enc 0x10 .clz f h)

theorem popc (f : IntU) : Statement (.popc f) := by
  exact of_fields rfl (fields_fit f.e (by decide) f.d.isLt f.a.isLt z64 z16 (pack_lt32 _ _ rfl))
    (fun h => intU_enc 0x11 .popc f h)

theorem csel (f : SelR) : Statement (.csel f) := by
  exact of_fields rfl (fields_fit f.e (by decide) f.d.isLt f.a.isLt f.b.isLt z16 (pack_lt32 _ _ rfl))
    (fun _ => csel_enc f)

theorem li (f : IntI) : Statement (.li f) := by
  exact of_fields rfl (fields_fit f.e (by decide) f.d.isLt f.a.isLt (pack_lt6 _ _) z16 f.imm.isLt)
    (fun h => li_enc f h)

theorem fadd (f : FloatR) : Statement (.fadd f) := by
  exact of_fields rfl (fields_fit f.e (by decide) f.d.isLt f.a.isLt f.b.isLt z16 (pack_lt32 _ _ rfl))
    (fun _ => float_enc 0x20 .fadd f)

theorem fsub (f : FloatR) : Statement (.fsub f) := by
  exact of_fields rfl (fields_fit f.e (by decide) f.d.isLt f.a.isLt f.b.isLt z16 (pack_lt32 _ _ rfl))
    (fun _ => float_enc 0x21 .fsub f)

theorem fmul (f : FloatR) : Statement (.fmul f) := by
  exact of_fields rfl (fields_fit f.e (by decide) f.d.isLt f.a.isLt f.b.isLt z16 (pack_lt32 _ _ rfl))
    (fun _ => float_enc 0x22 .fmul f)

theorem ffma (f : FmaR) : Statement (.ffma f) := by
  exact of_fields rfl (fields_fit f.e (by decide) f.d.isLt f.a.isLt f.b.isLt z16 (pack_lt32 _ _ rfl))
    (fun _ => ffma_enc f)

theorem fmin (f : FloatR) : Statement (.fmin f) := by
  exact of_fields rfl (fields_fit f.e (by decide) f.d.isLt f.a.isLt f.b.isLt z16 (pack_lt32 _ _ rfl))
    (fun _ => float_enc 0x24 .fmin f)

theorem fmax (f : FloatR) : Statement (.fmax f) := by
  exact of_fields rfl (fields_fit f.e (by decide) f.d.isLt f.a.isLt f.b.isLt z16 (pack_lt32 _ _ rfl))
    (fun _ => float_enc 0x25 .fmax f)

theorem fcmp (f : FcmpR) : Statement (.fcmp f) := by
  exact of_fields rfl (fields_fit f.e (by decide) f.d.isLt f.a.isLt f.b.isLt z16 (pack_lt32 _ _ rfl))
    (fun _ => fcmp_enc f)

theorem fcvt (f : FcvtR) : Statement (.fcvt f) := by
  exact of_fields rfl (fields_fit f.e (by decide) f.d.isLt f.a.isLt z64 z16 (pack_lt32 _ _ rfl))
    (fun h => by
    simp only [WellFormed, Bool.and_eq_true] at h
    exact fcvt_enc f h.1 h.2)

theorem beq (f : BrB) : Statement (.beq f) := by
  exact of_fields rfl (fields_fit f.e (by decide) z64 f.a.isLt f.b.isLt z16 f.x.isLt)
    (fun _ => br_enc 0x30 .beq f)

theorem bne (f : BrB) : Statement (.bne f) := by
  exact of_fields rfl (fields_fit f.e (by decide) z64 f.a.isLt f.b.isLt z16 f.x.isLt)
    (fun _ => br_enc 0x31 .bne f)

theorem blt (f : BrB) : Statement (.blt f) := by
  exact of_fields rfl (fields_fit f.e (by decide) z64 f.a.isLt f.b.isLt z16 f.x.isLt)
    (fun _ => br_enc 0x32 .blt f)

theorem bge (f : BrB) : Statement (.bge f) := by
  exact of_fields rfl (fields_fit f.e (by decide) z64 f.a.isLt f.b.isLt z16 f.x.isLt)
    (fun _ => br_enc 0x33 .bge f)

theorem bltn (f : BrB) : Statement (.bltn f) := by
  exact of_fields rfl (fields_fit f.e (by decide) z64 f.a.isLt f.b.isLt z16 f.x.isLt)
    (fun _ => br_enc 0x34 .bltn f)

theorem bgen (f : BrB) : Statement (.bgen f) := by
  exact of_fields rfl (fields_fit f.e (by decide) z64 f.a.isLt f.b.isLt z16 f.x.isLt)
    (fun _ => br_enc 0x35 .bgen f)

theorem jal (f : JalB) : Statement (.jal f) := by
  exact of_fields rfl (fields_fit f.e (by decide) f.d.isLt z64 z64 z16 f.x.isLt)
    (fun _ => jal_enc f)

theorem jalr (f : JalrI) : Statement (.jalr f) := by
  exact of_fields rfl (fields_fit f.e (by decide) f.d.isLt f.a.isLt z64 z16 f.imm.isLt)
    (fun _ => jalr_enc f)

theorem ld (f : IntI) : Statement (.ld f) := by
  exact of_fields rfl (fields_fit f.e (by decide) f.d.isLt f.a.isLt (pack_lt6 _ _) z16 f.imm.isLt)
    (fun h => intI_enc 0x40 Fmt.isMem .ld f h)

theorem st (f : IntI) : Statement (.st f) := by
  exact of_fields rfl (fields_fit f.e (by decide) f.d.isLt f.a.isLt (pack_lt6 _ _) z16 f.imm.isLt)
    (fun h => intI_enc 0x41 Fmt.isMem .st f h)

theorem mld (f : ShapeI) : Statement (.mld f) := by
  exact of_fields rfl (fields_fit f.e (by decide) (fin16_lt f.d) f.a.isLt z64 z16 f.imm.isLt)
    (fun _ => shape_enc 0x42 .mld f)

theorem mst (f : ShapeI) : Statement (.mst f) := by
  exact of_fields rfl (fields_fit f.e (by decide) (fin16_lt f.d) f.a.isLt z64 z16 f.imm.isLt)
    (fun _ => shape_enc 0x43 .mst f)

theorem mset (f : MsetI) : Statement (.mset f) := by
  exact of_fields rfl (fields_fit f.e (by decide) (fin16_lt f.d) f.a.isLt (pack_lt6 _ _) z16 f.imm.isLt)
    (fun _ => mset_enc f)

theorem pand (f : PredR) : Statement (.pand f) := by
  exact of_fields rfl (fields_fit f.e (by decide) (fin16_lt f.d) (fin16_lt f.a) (fin16_lt f.b) z16 z32)
    (fun _ => pred_enc 0x50 .pand f)

theorem por (f : PredR) : Statement (.por f) := by
  exact of_fields rfl (fields_fit f.e (by decide) (fin16_lt f.d) (fin16_lt f.a) (fin16_lt f.b) z16 z32)
    (fun _ => pred_enc 0x51 .por f)

theorem pxor (f : PredR) : Statement (.pxor f) := by
  exact of_fields rfl (fields_fit f.e (by decide) (fin16_lt f.d) (fin16_lt f.a) (fin16_lt f.b) z16 z32)
    (fun _ => pred_enc 0x52 .pxor f)

theorem pnot (f : PredU) : Statement (.pnot f) := by
  exact of_fields rfl (fields_fit f.e (by decide) (fin16_lt f.d) (fin16_lt f.a) z64 z16 z32)
    (fun _ => pnot_enc f)

theorem pset (f : PsetR) : Statement (.pset f) := by
  exact of_fields rfl (fields_fit f.e (by decide) (fin16_lt f.d) f.a.isLt z64 z16 (pack_lt32 _ _ rfl))
    (fun h => pset_enc f h)

theorem vabs (f : VecU) : Statement (.vabs f) := by
  exact of_fields rfl (fields_fit f.e (by decide) (fin32_lt f.d) (fin32_lt f.a) z64 f.q.p.isLt (pack_lt32 _ _ rfl))
    (fun h => by
    simp only [WellFormed, vOk, Bool.and_eq_true] at h
    exact vecU_enc 0x60 _ .vabs f h.1 h.2)

theorem vneg (f : VecU) : Statement (.vneg f) := by
  exact of_fields rfl (fields_fit f.e (by decide) (fin32_lt f.d) (fin32_lt f.a) z64 f.q.p.isLt (pack_lt32 _ _ rfl))
    (fun h => by
    simp only [WellFormed, vOk, Bool.and_eq_true] at h
    exact vecU_enc 0x71 _ .vneg f h.1 h.2)

theorem vadd (f : VecR) : Statement (.vadd f) := by
  exact of_fields rfl (fields_fit f.e (by decide) (fin32_lt f.d) (fin32_lt f.a) (fin32_lt f.b) f.q.p.isLt (pack_lt32 _ _ rfl))
    (fun h => by
    simp only [WellFormed, vOk, Bool.and_eq_true] at h
    exact vecR_enc 0x61 _ .vadd f h.1 h.2)

theorem vsub (f : VecR) : Statement (.vsub f) := by
  exact of_fields rfl (fields_fit f.e (by decide) (fin32_lt f.d) (fin32_lt f.a) (fin32_lt f.b) f.q.p.isLt (pack_lt32 _ _ rfl))
    (fun h => by
    simp only [WellFormed, vOk, Bool.and_eq_true] at h
    exact vecR_enc 0x7E _ .vsub f h.1 h.2)

theorem vmul (f : VecR) : Statement (.vmul f) := by
  exact of_fields rfl (fields_fit f.e (by decide) (fin32_lt f.d) (fin32_lt f.a) (fin32_lt f.b) f.q.p.isLt (pack_lt32 _ _ rfl))
    (fun h => by
    simp only [WellFormed, vOk, Bool.and_eq_true] at h
    exact vecR_enc 0x70 _ .vmul f h.1 h.2)

theorem vmin (f : VecR) : Statement (.vmin f) := by
  exact of_fields rfl (fields_fit f.e (by decide) (fin32_lt f.d) (fin32_lt f.a) (fin32_lt f.b) f.q.p.isLt (pack_lt32 _ _ rfl))
    (fun h => by
    simp only [WellFormed, vOk, Bool.and_eq_true] at h
    exact vecR_enc 0x6F _ .vmin f h.1 h.2)

theorem vmax (f : VecR) : Statement (.vmax f) := by
  exact of_fields rfl (fields_fit f.e (by decide) (fin32_lt f.d) (fin32_lt f.a) (fin32_lt f.b) f.q.p.isLt (pack_lt32 _ _ rfl))
    (fun h => by
    simp only [WellFormed, vOk, Bool.and_eq_true] at h
    exact vecR_enc 0x6E _ .vmax f h.1 h.2)

theorem vand (f : VecR) : Statement (.vand f) := by
  exact of_fields rfl (fields_fit f.e (by decide) (fin32_lt f.d) (fin32_lt f.a) (fin32_lt f.b) f.q.p.isLt (pack_lt32 _ _ rfl))
    (fun h => by
    simp only [WellFormed, vOk, Bool.and_eq_true] at h
    exact vecR_enc 0x62 _ .vand f h.1 h.2)

theorem vor (f : VecR) : Statement (.vor f) := by
  exact of_fields rfl (fields_fit f.e (by decide) (fin32_lt f.d) (fin32_lt f.a) (fin32_lt f.b) f.q.p.isLt (pack_lt32 _ _ rfl))
    (fun h => by
    simp only [WellFormed, vOk, Bool.and_eq_true] at h
    exact vecR_enc 0x73 _ .vor f h.1 h.2)

theorem vxor (f : VecR) : Statement (.vxor f) := by
  exact of_fields rfl (fields_fit f.e (by decide) (fin32_lt f.d) (fin32_lt f.a) (fin32_lt f.b) f.q.p.isLt (pack_lt32 _ _ rfl))
    (fun h => by
    simp only [WellFormed, vOk, Bool.and_eq_true] at h
    exact vecR_enc 0x7F _ .vxor f h.1 h.2)

theorem vnot (f : VecU) : Statement (.vnot f) := by
  exact of_fields rfl (fields_fit f.e (by decide) (fin32_lt f.d) (fin32_lt f.a) z64 f.q.p.isLt (pack_lt32 _ _ rfl))
    (fun h => by
    simp only [WellFormed, vOk, Bool.and_eq_true] at h
    exact vecU_enc 0x72 _ .vnot f h.1 h.2)

theorem vshl (f : VecR) : Statement (.vshl f) := by
  exact of_fields rfl (fields_fit f.e (by decide) (fin32_lt f.d) (fin32_lt f.a) (fin32_lt f.b) f.q.p.isLt (pack_lt32 _ _ rfl))
    (fun h => by
    simp only [WellFormed, vOk, Bool.and_eq_true] at h
    exact vecR_enc 0x7A _ .vshl f h.1 h.2)

theorem vshr (f : VecR) : Statement (.vshr f) := by
  exact of_fields rfl (fields_fit f.e (by decide) (fin32_lt f.d) (fin32_lt f.a) (fin32_lt f.b) f.q.p.isLt (pack_lt32 _ _ rfl))
    (fun h => by
    simp only [WellFormed, vOk, Bool.and_eq_true] at h
    exact vecR_enc 0x7B _ .vshr f h.1 h.2)

theorem vsra (f : VecR) : Statement (.vsra f) := by
  exact of_fields rfl (fields_fit f.e (by decide) (fin32_lt f.d) (fin32_lt f.a) (fin32_lt f.b) f.q.p.isLt (pack_lt32 _ _ rfl))
    (fun h => by
    simp only [WellFormed, vOk, Bool.and_eq_true] at h
    exact vecR_enc 0x7C _ .vsra f h.1 h.2)

theorem vattm (f : VecR) : Statement (.vattm f) := by
  exact of_fields rfl (fields_fit f.e (by decide) (fin32_lt f.d) (fin32_lt f.a) (fin32_lt f.b) f.q.p.isLt (pack_lt32 _ _ rfl))
    (fun h => by
    simp only [WellFormed, vOk, Bool.and_eq_true] at h
    exact vecR_enc 0x63 _ .vattm f h.1 h.2)

theorem vbcast (f : VbcV) : Statement (.vbcast f) := by
  exact of_fields rfl (fields_fit f.e (by decide) (fin32_lt f.d) f.a.isLt z64 f.q.p.isLt (pack_lt32 _ _ rfl))
    (fun h => by
    simp only [WellFormed, vOk, Bool.and_eq_true] at h
    exact vbcast_enc f h.1 h.2)

theorem vidx (f : VidxV) : Statement (.vidx f) := by
  exact of_fields rfl (fields_fit f.e (by decide) (fin32_lt f.d) z64 z64 f.q.p.isLt (pack_lt32 _ _ rfl))
    (fun h => by
    simp only [WellFormed, vOk, Bool.and_eq_true] at h
    exact vidx_enc f h.1 h.2)

theorem vcmp (f : VcmpV) : Statement (.vcmp f) := by
  exact of_fields rfl (fields_fit f.e (by decide) (fin16_lt f.d) (fin32_lt f.a) (fin32_lt f.b) f.q.p.isLt (pack_lt32 _ _ rfl))
    (fun h => by
    simp only [WellFormed, vOk, Bool.and_eq_true] at h
    exact vcmp_enc f h.1 h.2)

theorem vcvt (f : VcvtV) : Statement (.vcvt f) := by
  exact of_fields rfl (fields_fit f.e (by decide) (fin32_lt f.d) (fin32_lt f.a) z64 f.q.p.isLt (pack_lt32 _ _ rfl))
    (fun h => by
    simp only [WellFormed, Bool.and_eq_true] at h
    exact vcvt_enc f h.1.1.1 h.1.1.2 h.1.2 h.2)

theorem vexp2 (f : VecU) : Statement (.vexp2 f) := by
  exact of_fields rfl (fields_fit f.e (by decide) (fin32_lt f.d) (fin32_lt f.a) z64 f.q.p.isLt (pack_lt32 _ _ rfl))
    (fun h => by
    simp only [WellFormed, vOk, Bool.and_eq_true] at h
    exact vecU_enc 0x67 _ .vexp2 f h.1 h.2)

theorem vext (f : VextV) : Statement (.vext f) := by
  exact of_fields rfl (fields_fit f.e (by decide) f.d.isLt (fin32_lt f.a) f.b.isLt z16 (pack_lt32 _ _ rfl))
    (fun h => vext_enc f h)

theorem vfma (f : VecF) : Statement (.vfma f) := by
  exact of_fields rfl (fields_fit f.e (by decide) (fin32_lt f.d) (fin32_lt f.a) (fin32_lt f.b) f.q.p.isLt (pack_lt32 _ _ rfl))
    (fun h => by
    simp only [WellFormed, vOk, Bool.and_eq_true] at h
    exact vfma_enc f h.1 h.2)

theorem vgath (f : VgsV) : Statement (.vgath f) := by
  exact of_fields rfl (fields_fit f.e (by decide) (fin32_lt f.d) f.a.isLt (fin32_lt f.b) f.q.p.isLt (pack_lt32 _ _ rfl))
    (fun h => by
    simp only [WellFormed, vOk, Bool.and_eq_true] at h
    exact vgs_enc 0x6A false .vgath f h.1 h.2 rfl)

theorem vscat (f : VgsV) : Statement (.vscat f) := by
  exact of_fields rfl (fields_fit f.e (by decide) (fin32_lt f.d) f.a.isLt (fin32_lt f.b) f.q.p.isLt (pack_lt32 _ _ rfl))
    (fun h => by
    simp only [WellFormed, vOk, Bool.and_eq_true, Bool.not_eq_true'] at h
    exact vgs_enc 0x78 true .vscat f h.1.1 h.1.2 (by simp [h.2]))

theorem vld (f : VmemV) : Statement (.vld f) := by
  exact of_fields rfl (fields_fit f.e (by decide) (fin32_lt f.d) f.a.isLt z64 f.q.p.isLt (pack_lt32 _ _ rfl))
    (fun h => by
    simp only [WellFormed, vOk, Bool.and_eq_true] at h
    exact vmem_enc 0x6C false .vld f h.1 h.2 rfl)

theorem vst (f : VmemV) : Statement (.vst f) := by
  exact of_fields rfl (fields_fit f.e (by decide) (fin32_lt f.d) f.a.isLt z64 f.q.p.isLt (pack_lt32 _ _ rfl))
    (fun h => by
    simp only [WellFormed, vOk, Bool.and_eq_true, Bool.not_eq_true'] at h
    exact vmem_enc 0x7D true .vst f h.1.1 h.1.2 (by simp [h.2]))

theorem vlog2 (f : VecU) : Statement (.vlog2 f) := by
  exact of_fields rfl (fields_fit f.e (by decide) (fin32_lt f.d) (fin32_lt f.a) z64 f.q.p.isLt (pack_lt32 _ _ rfl))
    (fun h => by
    simp only [WellFormed, vOk, Bool.and_eq_true] at h
    exact vecU_enc 0x6D _ .vlog2 f h.1 h.2)

theorem vrcp (f : VecU) : Statement (.vrcp f) := by
  exact of_fields rfl (fields_fit f.e (by decide) (fin32_lt f.d) (fin32_lt f.a) z64 f.q.p.isLt (pack_lt32 _ _ rfl))
    (fun h => by
    simp only [WellFormed, vOk, Bool.and_eq_true] at h
    exact vecU_enc 0x75 _ .vrcp f h.1 h.2)

theorem vrsq (f : VecU) : Statement (.vrsq f) := by
  exact of_fields rfl (fields_fit f.e (by decide) (fin32_lt f.d) (fin32_lt f.a) z64 f.q.p.isLt (pack_lt32 _ _ rfl))
    (fun h => by
    simp only [WellFormed, vOk, Bool.and_eq_true] at h
    exact vecU_enc 0x77 _ .vrsq f h.1 h.2)

theorem vperm (f : VecR) : Statement (.vperm f) := by
  exact of_fields rfl (fields_fit f.e (by decide) (fin32_lt f.d) (fin32_lt f.a) (fin32_lt f.b) f.q.p.isLt (pack_lt32 _ _ rfl))
    (fun h => by
    simp only [WellFormed, vOk, Bool.and_eq_true] at h
    exact vecR_enc 0x74 _ .vperm f h.1 h.2)

theorem vred (f : VredV) : Statement (.vred f) := by
  exact of_fields rfl (fields_fit f.e (by decide) f.d.isLt (fin32_lt f.a) z64 f.q.p.isLt (pack_lt32 _ _ rfl))
    (fun h => by
    simp only [WellFormed, Bool.and_eq_true, Bool.not_eq_true'] at h
    exact vred_enc f h.1.1 h.1.2 h.2)

theorem vsel (f : VecR) : Statement (.vsel f) := by
  exact of_fields rfl (fields_fit f.e (by decide) (fin32_lt f.d) (fin32_lt f.a) (fin32_lt f.b) f.q.p.isLt (pack_lt32 _ _ rfl))
    (fun h => vsel_enc f h)

theorem mma (f : MmaM) : Statement (.mma f) := by
  exact of_fields rfl (fields_fit f.e (by decide) (fin8_lt f.d) (fin16_lt f.a) (fin16_lt f.b) z16 (pack_lt32 _ _ rfl))
    (fun h => mma_enc f h)

theorem ald (f : AldM) : Statement (.ald f) := by
  exact of_fields rfl (fields_fit f.e (by decide) (fin8_lt f.d) (fin16_lt f.a) z64 z16 (pack_lt32 _ _ rfl))
    (fun h => ald_enc f h)

theorem ast (f : AstM) : Statement (.ast f) := by
  exact of_fields rfl (fields_fit f.e (by decide) (fin16_lt f.d) (fin8_lt f.a) z64 z16 z32)
    (fun _ => ast_enc f)

theorem azero (f : AzeroM) : Statement (.azero f) := by
  exact of_fields rfl (fields_fit f.e (by decide) (fin8_lt f.d) z64 z64 z16 (pack_lt32 _ _ rfl))
    (fun h => azero_enc f h)

theorem ascale (f : AscaleM) : Statement (.ascale f) := by
  exact of_fields rfl (fields_fit f.e (by decide) (fin8_lt f.d) (fin8_lt f.a) (fin32_lt f.b) z16 (pack_lt32 _ _ rfl))
    (fun h => ascale_enc f h)

theorem cbld (f : CbldC) : Statement (.cbld f) := by
  exact of_fields rfl (fields_fit f.e (by decide) (fin2_lt f.d) f.a.isLt z64 z16 f.x.isLt)
    (fun _ => cbld_enc f)

theorem cpy (f : CpyC) : Statement (.cpy f) := by
  exact of_fields rfl (fields_fit f.e (by decide) (fin16_lt f.d) (fin16_lt f.a) f.b.isLt z16 f.amt.isLt)
    (fun _ => cpy_enc f)

theorem cpya (f : CpyaC) : Statement (.cpya f) := by
  exact of_fields rfl (fields_fit f.e (by decide) (fin16_lt f.d) (fin16_lt f.a) f.b.isLt z16 (pack_lt32 _ _ rfl))
    (fun _ => cpya_enc f)

theorem amo (f : AmoC) : Statement (.amo f) := by
  exact of_fields rfl (fields_fit f.e (by decide) f.d.isLt (fin16_lt f.a) f.b.isLt z16 (pack_lt32 _ _ rfl))
    (fun h => amo_enc f h)

theorem red (f : RedC) : Statement (.red f) := by
  exact of_fields rfl (fields_fit f.e (by decide) (fin16_lt f.d) z64 f.b.isLt z16 (pack_lt32 _ _ rfl))
    (fun h => red_enc f h)

theorem fence (f : FenceC) : Statement (.fence f) := by
  exact of_fields rfl (fields_fit_bare (by decide) f.d.isLt (pack_lt32 _ _ rfl)) (fun _ => fence_enc f)

theorem ctradd (f : CtrC) : Statement (.ctradd f) := by
  exact of_fields rfl (fields_fit f.e (by decide) z64 f.a.isLt f.b.isLt z16 f.x.isLt)
    (fun _ => ctradd_enc f)

theorem waitge (f : WaitC) : Statement (.waitge f) := by
  exact of_fields rfl (fields_fit f.e (by decide) f.d.isLt f.a.isLt f.b.isLt z16 f.x.isLt)
    (fun _ => waitge_enc f)

theorem bar (f : BarS) : Statement (.bar f) := by
  exact of_fields rfl (fields_fit f.e (by decide) f.d.isLt f.a.isLt f.b.isLt z16 (pack_lt32 _ _ rfl))
    (fun h => bar_enc f h)

theorem bara (f : BaraS) : Statement (.bara f) := by
  exact of_fields rfl (fields_fit f.e (by decide) f.d.isLt f.a.isLt f.b.isLt z16 (pack_lt32 _ _ rfl))
    (fun h => bara_enc f h)

theorem barw (f : BarwS) : Statement (.barw f) := by
  exact of_fields rfl (fields_fit f.e (by decide) f.d.isLt f.a.isLt z64 z16 (pack_lt32 _ _ rfl))
    (fun _ => barw_enc f)

theorem spawn (f : SpawnS) : Statement (.spawn f) := by
  exact of_fields rfl (fields_fit f.e (by decide) f.d.isLt f.a.isLt z64 z16 f.x.isLt)
    (fun _ => spawn_enc f)

theorem join (f : JoinS) : Statement (.join f) := by
  exact of_fields rfl (fields_fit f.e (by decide) z64 f.a.isLt z64 z16 f.x.isLt)
    (fun h => join_enc f h)

theorem susp (f : SuspS) : Statement (.susp f) := by
  exact of_fields rfl (fields_fit f.e (by decide) z64 f.a.isLt f.b.isLt z16 f.x.isLt)
    (fun _ => susp_enc f)

theorem exit : Statement .exit := by
  exact of_fields rfl (by simp [Fields.Fit, Fits, wordWidths]) (fun _ => by rfl)

theorem cancel (f : DaS) : Statement (.cancel f) := by
  exact of_fields rfl (fields_fit f.e (by decide) f.d.isLt f.a.isLt z64 z16 z32)
    (fun _ => da_enc 0xCC .cancel f)

theorem collLd (f : CollC) : Statement (.collLd f) := by
  exact of_fields rfl (fields_fit f.e (by decide) f.d.isLt f.a.isLt f.b.isLt z16 f.x.isLt)
    (fun _ => coll_enc 0xD0 .collLd f)

theorem collRun (f : CollC) : Statement (.collRun f) := by
  exact of_fields rfl (fields_fit f.e (by decide) f.d.isLt f.a.isLt f.b.isLt z16 f.x.isLt)
    (fun _ => coll_enc 0xD1 .collRun f)

theorem collStat (f : DaS) : Statement (.collStat f) := by
  exact of_fields rfl (fields_fit f.e (by decide) f.d.isLt f.a.isLt z64 z16 z32)
    (fun _ => da_enc 0xD2 .collStat f)

theorem nop : Statement .nop := by
  exact of_fields rfl (by simp [Fields.Fit, Fits, wordWidths]) (fun _ => by rfl)

theorem sysrd (f : SysrdY) : Statement (.sysrd f) := by
  exact of_fields rfl (fields_fit f.e (by decide) f.d.isLt z64 z64 z16 (pack_lt32 _ _ rfl))
    (fun _ => sysrd_enc f)

theorem syswr (f : SyswrY) : Statement (.syswr f) := by
  exact of_fields rfl (fields_fit f.e (by decide) z64 f.a.isLt z64 z16 (pack_lt32 _ _ rfl))
    (fun _ => syswr_enc f)

theorem resume (f : ResumeY) : Statement (.resume f) := by
  exact of_fields rfl (fields_fit f.e (by decide) f.d.isLt f.a.isLt z64 z16 (pack_lt32 _ _ rfl))
    (fun _ => resume_enc f)

theorem trap (imm : BitVec 16) : Statement (.trap imm) := by
  exact of_fields rfl (fields_fit_bare (by decide) (by decide) (pack_lt32 _ _ rfl)) (fun _ => imm16_enc 0xE4 .trap imm)

theorem bkpt (imm : BitVec 16) : Statement (.bkpt imm) := by
  exact of_fields rfl (fields_fit_bare (by decide) (by decide) (pack_lt32 _ _ rfl)) (fun _ => imm16_enc 0xE5 .bkpt imm)

theorem halt : Statement .halt := by
  exact of_fields rfl (by simp [Fields.Fit, Fits, wordWidths]) (fun _ => by rfl)

theorem releasedRecordEnqueue (team : Nat) (q : QTarget) : Statement (.releasedRecordEnqueue team q) := by exact of_none rfl

theorem continuationDispatch (tile slot : Nat) : Statement (.continuationDispatch tile slot) := by exact of_none rfl

theorem pushMigration (tile : Nat) : Statement (.pushMigration tile) := by exact of_none rfl

theorem loadgRefresh (tile : Nat) : Statement (.loadgRefresh tile) := by exact of_none rfl

theorem parkOnWait (tile : Nat) : Statement (.parkOnWait tile) := by exact of_none rfl

theorem barrierExchange (team : Nat) (scope : Scope) (unit : Nat) (peers : List PodPart) : Statement (.barrierExchange team scope unit peers) := by exact of_none rfl

theorem barrierCompletion (team : Nat) (scope : Scope) (unit : Nat) : Statement (.barrierCompletion team scope unit) := by exact of_none rfl

theorem peerUnreachable (team pkg : Nat) : Statement (.peerUnreachable team pkg) := by exact of_none rfl

theorem copyChunk (copy : Nat) : Statement (.copyChunk copy) := by exact of_none rfl

theorem landing (id : Nat) : Statement (.landing id) := by exact of_none rfl

theorem counterIncrement (id : Nat) : Statement (.counterIncrement id) := by exact of_none rfl

theorem amoPerform (id : Nat) : Statement (.amoPerform id) := by exact of_none rfl

theorem amoFill (id : Nat) : Statement (.amoFill id) := by exact of_none rfl

theorem redAccept (id : Nat) : Statement (.redAccept id) := by exact of_none rfl

theorem remoteRequest (r : RemoteReq) : Statement (.remoteRequest r) := by exact of_none rfl

theorem remoteResponse (tag : Nat) (a : RemoteAns) : Statement (.remoteResponse tag a) := by exact of_none rfl

theorem matrixQueueStart (tile : Nat) : Statement (.matrixQueueStart tile) := by exact of_none rfl

theorem mmaKBlock (tile : Nat) : Statement (.mmaKBlock tile) := by exact of_none rfl

theorem mmaComplete (tile : Nat) : Statement (.mmaComplete tile) := by exact of_none rfl

theorem aldComplete (tile : Nat) : Statement (.aldComplete tile) := by exact of_none rfl

theorem ascaleComplete (tile : Nat) : Statement (.ascaleComplete tile) := by exact of_none rfl

theorem graphLoadComplete (g : Nat) : Statement (.graphLoadComplete g) := by exact of_none rfl

theorem runStart (g run : Nat) : Statement (.runStart g run) := by exact of_none rfl

theorem virgaNodeStart (g run node : Nat) : Statement (.virgaNodeStart g run node) := by exact of_none rfl

theorem virgaNodeComplete (g run node : Nat) : Statement (.virgaNodeComplete g run node) := by exact of_none rfl

theorem virgaChunkReceive (c : ChunkIn) : Statement (.virgaChunkReceive c) := by exact of_none rfl

theorem virgaMismatchReport (r : VirgaReport) : Statement (.virgaMismatchReport r) := by exact of_none rfl

theorem virgaPeerFailure (r : VirgaReport) : Statement (.virgaPeerFailure r) := by exact of_none rfl

theorem qdoor (team : Nat) (v : Word) : Statement (.qdoor team v) := by exact of_none rfl

theorem hostDoorbellWrite (ofs : Nat) (v : Option (BitVec 32)) : Statement (.hostDoorbellWrite ofs v) := by exact of_none rfl

theorem hostHbmAccess (addr n : Nat) (data : Option (List Byte)) : Statement (.hostHbmAccess addr n data) := by exact of_none rfl

theorem queueSlotMap : Statement .queueSlotMap := by exact of_none rfl

theorem descriptorLoad (slot : Nat) : Statement (.descriptorLoad slot) := by exact of_none rfl

theorem quantumExpiry (slot : Nat) : Statement (.quantumExpiry slot) := by exact of_none rfl

theorem launchPacket : Statement .launchPacket := by exact of_none rfl

theorem tileGrant : Statement .tileGrant := by exact of_none rfl

theorem gangDeadline (slot : Nat) : Statement (.gangDeadline slot) := by exact of_none rfl

theorem gangReady (gang pkg : Nat) (uid : Word) : Statement (.gangReady gang pkg uid) := by exact of_none rfl

theorem gangAbort (gang : Nat) : Statement (.gangAbort gang) := by exact of_none rfl

theorem gangTick (gang : Nat) : Statement (.gangTick gang) := by exact of_none rfl

theorem teamCompletion (team : Nat) : Statement (.teamCompletion team) := by exact of_none rfl

theorem vacate (v : Word) : Statement (.vacate v) := by exact of_none rfl

theorem restore (v : Word) : Statement (.restore v) := by exact of_none rfl

theorem enableRotation (v : Word) : Statement (.enableRotation v) := by exact of_none rfl

theorem disableRotation (v : Word) : Statement (.disableRotation v) := by exact of_none rfl

theorem vacateCut (team lrank : Nat) : Statement (.vacateCut team lrank) := by exact of_none rfl

theorem saveComplete (team lrank : Nat) (how : MoveEnd) : Statement (.saveComplete team lrank how) := by exact of_none rfl

theorem restoreStart (team lrank : Nat) : Statement (.restoreStart team lrank) := by exact of_none rfl

theorem restoreComplete (team lrank : Nat) (how : MoveEnd) : Statement (.restoreComplete team lrank how) := by exact of_none rfl

theorem rotation (team : Nat) (scope : Scope) (unit : Nat) : Statement (.rotation team scope unit) := by exact of_none rfl

theorem uncorrectableTileError (tile : Nat) : Statement (.uncorrectableTileError tile) := by exact of_none rfl

theorem tileResponseTimeout (tile : Nat) : Statement (.tileResponseTimeout tile) := by exact of_none rfl

theorem uncorrectableGroupError (grp : Nat) : Statement (.uncorrectableGroupError grp) := by exact of_none rfl

theorem memoryUncorrectableError (key : Nat) (e : MemErr) : Statement (.memoryUncorrectableError key e) := by exact of_none rfl

theorem groupReset (grp : Nat) : Statement (.groupReset grp) := by exact of_none rfl

theorem htinv (asid slot : Nat) : Statement (.htinv asid slot) := by exact of_none rfl

theorem htinvAll (asid : Nat) : Statement (.htinvAll asid) := by exact of_none rfl

theorem quiesceStart (v : Word) : Statement (.quiesceStart v) := by exact of_none rfl

theorem quiesceDrainComplete : Statement .quiesceDrainComplete := by exact of_none rfl

theorem quiesceTimeout : Statement .quiesceTimeout := by exact of_none rfl

theorem quiesceRelease : Statement .quiesceRelease := by exact of_none rfl

theorem personalitySwitch (v : Word) : Statement (.personalitySwitch v) := by exact of_none rfl

theorem drainComplete (quad : Nat) : Statement (.drainComplete quad) := by exact of_none rfl

theorem drainTimeout (quad : Nat) : Statement (.drainTimeout quad) := by exact of_none rfl

theorem reconfigureDone (quad : Nat) : Statement (.reconfigureDone quad) := by exact of_none rfl

theorem trainingDone (quad : Nat) (ok : Bool) (good : BitVec 8) (rate : BitVec 4) : Statement (.trainingDone quad ok good rate) := by exact of_none rfl

theorem agreementRecord (quad : Nat) (r : BitVec 128) : Statement (.agreementRecord quad r) := by exact of_none rfl

theorem mapDone (quad : Nat) (entries : List MapEntry) : Statement (.mapDone quad entries) := by exact of_none rfl

theorem retire (quad : Nat) : Statement (.retire quad) := by exact of_none rfl

theorem retrain (x : LaneErrors) : Statement (.retrain x) := by exact of_none rfl

theorem podTimeBeacon (quad : Nat) (b : Beacon) : Statement (.podTimeBeacon quad b) := by exact of_none rfl

theorem beaconSend : Statement .beaconSend := by exact of_none rfl

theorem linkDelayMeasure (quad : Nat) (ns : Nat) : Statement (.linkDelayMeasure quad ns) := by exact of_none rfl

theorem beaconLoss : Statement .beaconLoss := by exact of_none rfl

theorem flowControlTotalsSend (link cls : Nat) : Statement (.flowControlTotalsSend link cls) := by exact of_none rfl

theorem flowControlTotals : Statement (.flowControlTotals link cls sent freed) := by exact of_none rfl

theorem flitCrcError (link : Nat) : Statement (.flitCrcError link) := by exact of_none rfl

theorem hreq (tile : Nat) : Statement (.hreq tile) := by exact of_none rfl

theorem run : Statement (.run tile) := by exact of_none rfl

theorem step (tile slot : Nat) : Statement (.step tile slot) := by exact of_none rfl

theorem stepComplete (tile : Nat) : Statement (.stepComplete tile) := by exact of_none rfl

theorem haltComplete (tile : Nat) : Statement (.haltComplete tile) := by exact of_none rfl

theorem haltGroupTrigger (tile group : Nat) : Statement (.haltGroupTrigger tile group) := by exact of_none rfl

theorem hgrun (x : GroupRun) : Statement (.hgrun x) := by exact of_none rfl

theorem snapgo : Statement .snapgo := by exact of_none rfl

theorem pcMatch (tile slot : Nat) : Statement (.pcMatch tile slot) := by exact of_none rfl

theorem traceTimeRecord (tile : Nat) : Statement (.traceTimeRecord tile) := by exact of_none rfl

theorem counterSnapshot : Statement .counterSnapshot := by exact of_none rfl

theorem compositionRecord : Statement .compositionRecord := by exact of_none rfl

theorem fstatClear (team lrank : Nat) (v : Word) : Statement (.fstatClear team lrank v) := by exact of_none rfl

theorem errcClear (i : Fin 11) : Statement (.errcClear i) := by exact of_none rfl

theorem replayWrite (tile slot : Nat) (v : Bool) : Statement (.replayWrite tile slot v) := by exact of_none rfl

theorem systemRegisterWrite (tile : Nat) (r : SysReg) (v : Word) : Statement (.systemRegisterWrite tile r v) := by exact of_none rfl

theorem managementEndpointAccess (m : Mgmt) : Statement (.managementEndpointAccess m) := by exact of_none rfl

theorem powerOn (x : PowerUp) : Statement (.powerOn x) := by exact of_none rfl

theorem powerCapThrottle (die mhz : Nat) : Statement (.powerCapThrottle die mhz) := by exact of_none rfl

theorem thermalThrottle (die : Nat) : Statement (.thermalThrottle die) := by exact of_none rfl

theorem thermalRecovery (die : Nat) : Statement (.thermalRecovery die) := by exact of_none rfl

theorem thermalShutdown : Statement .thermalShutdown := by exact of_none rfl

theorem collStatFill (id : Nat) : Statement (.collStatFill id) := by exact of_none rfl

theorem passWrite (tile : Nat) : Statement (.passWrite tile) := by exact of_none rfl

end Sys2Proof.Laws.RoundTrip
end

