-- ==== Sys2Proof/Laws/Touch.lean ====
section
/-! SUPPORT. What a change of tile-store bytes does to work under way: `storesOnly_of_storing` says once everything that a
strand's store can do (R69, R72, R137, R144). -/

namespace Sys2Proof.Machine

set_option Elab.async false

/-- What the notes of a change of vtile `lr`'s tile store leave, memory aside. -/
structure Noted (id lr : Nat) (s t : State) : Prop where
  poison : ∀ g, t.poisoned g = true → s.poisoned g = true
  vtile : ∀ v, s.vtile? id lr = some v → ∃ w, t.vtile? id lr = some w ∧ Touched v w
  vtiles : ∀ i l, vtileKey i l ≠ vtileKey id lr → (t.vtile? i l).map Vtile.blankLog = (s.vtile? i l).map Vtile.blankLog
  teams : ∀ i, (t.team? i).map (fun T => { T with drawn := 0 }) = (s.team? i).map fun T => { T with drawn := 0 }
  copies : t.copies.map (fun c => (c.1, { c.2 with touched := [] })) = s.copies.map fun c => (c.1, { c.2 with touched := [] })
  landings : t.landings.map (fun l => (l.1, { l.2 with what := .bytes [] })) =
    s.landings.map fun l => (l.1, { l.2 with what := .bytes [] })
  graphs : t.graphs.map (fun g => (g.1, { g.2 with touched := [] })) = s.graphs.map fun g => (g.1, { g.2 with touched := [] })
  runs : t.runs.map (fun r => (r.1, { r.2 with touched := [] })) = s.runs.map fun r => (r.1, { r.2 with touched := [] })
  rest : { t with mem := s.mem, poison := s.poison, vtiles := s.vtiles, teams := s.teams
                  copies := s.copies, landings := s.landings, graphs := s.graphs, runs := s.runs } = s

theorem Touched.refl (v : Vtile) : Touched v v := ⟨rfl, fun _ => rfl, rfl⟩

theorem Touched.trans {u v w : Vtile} (h : Touched u v) (g : Touched v w) : Touched u w where
  queue := g.queue.trans h.queue
  accs := fun hp => by
    have hv : v.past = u.past := by have e := congrArg Vtile.past h.rest; exact e
    exact (g.accs (hv.trans hp)).trans (h.accs hp)
  rest := by rw [← h.rest, ← g.rest]

theorem touchLanding_blank (s : State) (id lr : Nat) (rs : List (Nat × Nat)) (own : Option Nat) (i : Nat) (l : Landing) :
    { s.touchLanding id lr rs own i l with what := .bytes [] } = { l with what := .bytes [] } := by
  unfold State.touchLanding
  repeat (first | rfl | (dsimp only; split) | split)

theorem touchLog_blank (s : State) (id lr : Nat) (rs : List (Nat × Nat)) (own : Option Nat) (r : LogRec × Nat) :
    (s.touchLog id lr rs own r).blank = r.1.blank := by
  obtain ⟨x, n⟩ := r
  cases x <;> try rfl
  next l =>
    show LogRec.land _ = LogRec.land _
    exact congrArg _ (touchLanding_blank s id lr rs own _ l)

theorem relog_blank (v : Vtile) {f : LogRec × Nat → LogRec} (hf : ∀ r, (f r).blank = r.1.blank) :
    (v.relog f).blankLog = v.blankLog := by
  have h (l : List LogRec) : (l.zipIdx.map f).map LogRec.blank = l.map LogRec.blank := by
    rw [List.map_map, show LogRec.blank ∘ f = LogRec.blank ∘ Prod.fst from funext hf, ← List.map_map, List.zipIdx_map_fst]
  unfold Vtile.relog
  split
  · rfl
  · simp only [Vtile.blankLog, h]

theorem touched_relog (s : State) (id lr : Nat) (rs : List (Nat × Nat)) (own : Option Nat) (v : Vtile) :
    Touched v (v.relog (s.touchLog id lr rs own)) := by
  have hb := relog_blank v (touchLog_blank s id lr rs own)
  refine ⟨?_, fun _ => ?_, ?_⟩
  · have e := congrArg Vtile.mq hb; exact congrArg _ e
  · have e := congrArg Vtile.accs hb; exact e
  · rw [hb]; rfl

namespace Noted

theorem refl (id lr : Nat) (s : State) : Noted id lr s s :=
  ⟨fun _ h => h, fun v h => ⟨v, h, Touched.refl v⟩, fun _ _ _ => rfl, fun _ => rfl, rfl, rfl, rfl, rfl, rfl⟩

theorem trans {id lr : Nat} {s t u : State} (h : Noted id lr s t) (g : Noted id lr t u) : Noted id lr s u where
  poison := fun x hx => h.poison x (g.poison x hx)
  vtile := fun v hv => by
    obtain ⟨w, hw, a⟩ := h.vtile v hv
    obtain ⟨x, hx, b⟩ := g.vtile w hw
    exact ⟨x, hx, a.trans b⟩
  vtiles := fun i l hn => (g.vtiles i l hn).trans (h.vtiles i l hn)
  teams := fun i => (g.teams i).trans (h.teams i)
  copies := g.copies.trans h.copies
  landings := g.landings.trans h.landings
  graphs := g.graphs.trans h.graphs
  runs := g.runs.trans h.runs
  rest := by rw [← h.rest, ← g.rest]

/-- An update of memory that only clears poison marks. -/
theorem of_memory {s t : State} (id lr : Nat) (h : { t with mem := s.mem, poison := s.poison } = s)
    (hp : ∀ g, t.poisoned g = true → s.poisoned g = true) : Noted id lr s t := by
  have e : t = { s with mem := t.mem, poison := t.poison } := by rw [← h]
  rw [e] at hp ⊢
  exact ⟨hp, fun v hv => ⟨v, hv, Touched.refl v⟩, fun _ _ _ => rfl, fun _ => rfl, rfl, rfl, rfl, rfl, rfl⟩

theorem putVtile {s : State} {id lr : Nat} {v w : Vtile} (hv : s.vtile? id lr = some v) (h : Touched v w) :
    Noted id lr s (s.putVtile id lr w) where
  poison := fun _ h => h
  vtile := fun x hx => by
    obtain rfl : x = v := Option.some.inj (hx.symm.trans hv)
    exact ⟨w, lookup_insertAt_self _ _ _, h⟩
  vtiles := fun i l hn => congrArg _ (lookup_insertAt_of_ne hn _ _)
  teams := fun _ => rfl
  copies := rfl
  landings := rfl
  graphs := rfl
  runs := rfl
  rest := rfl

theorem drew (s : State) (id lr i n : Nat) : Noted id lr s (s.drew i n) := by
  unfold State.drew State.onTeam
  split
  · next t ht =>
    refine ⟨fun _ h => h, fun v h => ⟨v, h, Touched.refl v⟩, fun _ _ _ => rfl, fun j => ?_, rfl, rfl, rfl, rfl, rfl⟩
    unfold State.putTeam State.team?
    dsimp only
    by_cases hj : j = i
    · subst hj
      unfold State.team? at ht
      rw [lookup_insertAt_self, ht]; rfl
    · rw [lookup_insertAt_of_ne hj]
  · exact refl _ _ _

theorem updates (id lr : Nat) (l : List ((Nat × Byte) × Nat)) (f : State → (Nat × Byte) × Nat → List Byte) (s : State) :
    Noted id lr s (l.foldl (fun z x => z.update x.1.1 (f z x)) s) := by
  induction l generalizing s with
  | nil => exact refl _ _ _
  | cons x r ih =>
    exact trans (of_memory (t := s.update x.1.1 (f s x)) id lr rfl fun _ h => h) (ih _)

theorem freeKeys (id lr : Nat) (s : State) (i : Nat) (ks : List (Nat × Byte)) : Noted id lr s (s.freeKeys i ks) := by
  unfold State.freeKeys
  split
  · exact refl _ _ _
  · exact (updates id lr _ (fun z x => [(z.mem.byte x.1.1 &&& ~~~x.1.2) ||| (s.freeByteAt i x.2 &&& x.1.2)]) s).trans
      (drew _ _ _ _ _)

theorem touchCopies (s : State) (id lr : Nat) (rs : List (Nat × Nat)) (own : Option Nat) :
    Noted id lr s (s.touchCopies id lr rs own) := by
  have hv (i l : Nat) : (s.touchCopies id lr rs own).vtile? i l = (s.vtile? i l).map (·.relog (s.touchLog id lr rs own)) :=
    lookup_map _ (fun v : Vtile => v.relog (s.touchLog id lr rs own)) s.vtiles
  refine ⟨fun _ h => h, fun v h => ⟨v.relog (s.touchLog id lr rs own), by rw [hv, h]; rfl, touched_relog s id lr rs own v⟩, fun i l _ => ?_,
    fun _ => rfl, ?_, ?_, rfl, rfl, rfl⟩
  · rw [hv]
    cases s.vtile? i l with
    | none => rfl
    | some v => exact congrArg some (relog_blank v (touchLog_blank s id lr rs own))
  · unfold State.touchCopies
    dsimp only
    rw [List.map_map]
    apply List.map_congr_left
    intro c _
    dsimp only [Function.comp]
    split <;> rfl
  · unfold State.touchCopies
    dsimp only
    rw [List.map_map]
    apply List.map_congr_left
    intro l _
    exact congrArg (Prod.mk l.1) (touchLanding_blank s id lr rs own _ l.2)

theorem touchRuns (id lr : Nat) (s : State) (rs : List (Nat × Nat)) : Noted id lr s (s.touchRuns rs) := by
  unfold State.touchRuns
  split
  · exact refl _ _ _
  · refine ⟨fun _ h => h, fun v h => ⟨v, h, Touched.refl v⟩, fun _ _ _ => rfl, fun _ => rfl, rfl, rfl, ?_, ?_, rfl⟩
    · dsimp only; rw [List.map_map]; rfl
    · dsimp only
      rw [List.map_map]
      apply List.map_congr_left
      intro r _
      dsimp only [Function.comp]
      split <;> rfl

end Noted

theorem touched_onAccs (hit : List MEntry) (f : MEntry → Acc → Acc) (v w : Vtile) (h : Touched v w)
    (hh : v.past = [] → hit = []) : Touched v (hit.foldl (fun v e => v.onAcc e.d (f e)) w) := by
  induction hit generalizing w with
  | nil => exact h
  | cons e r ih =>
    refine ih _ ⟨h.queue, fun hp => ?_, ?_⟩ fun hp => ?_
    · cases hh hp
    · rw [← h.rest]; rfl
    · cases hh hp

theorem touched_touch (v : Vtile) (s : State) (rs : List (Nat × Nat)) : Touched v (v.touch s rs) := by
  unfold Vtile.touch
  apply touched_onAccs
  · refine ⟨?_, fun _ => rfl, rfl⟩
    dsimp only; rw [List.map_map]; rfl
  · intro hp; rw [hp]; rfl

namespace Noted

theorem touchWork (s : State) (id lr : Nat) (rs : List (Nat × Nat)) (own : Option Nat) :
    Noted id lr s (s.touchWork id lr rs own) := by
  unfold State.touchWork
  dsimp only
  refine trans ?_ (freeKeys _ _ _ _ _)
  refine trans (t := if (s.copies.any fun c => c.2.reads id lr) || !s.doneCopies.isEmpty then
    (s.touchCopies id lr rs own).drew id (4096 * s.fresh + 8388608) else s) ?_ ?_
  · split
    · exact (touchCopies s id lr rs own).trans (drew _ _ _ _ _)
    · exact refl _ _ _
  · generalize (if (s.copies.any fun c => c.2.reads id lr) || !s.doneCopies.isEmpty then
      (s.touchCopies id lr rs own).drew id (4096 * s.fresh + 8388608) else s) = u
    split
    · next v hv =>
      split
      · exact refl _ _ _
      · refine (putVtile hv (touched_touch v u rs)).trans ?_
        unfold State.drewAcc
        split
        · exact drew _ _ _ _ _
        · exact refl _ _ _
    · exact refl _ _ _

theorem touchStore (s : State) (id lr : Nat) (rs : List (Nat × Nat)) (own : Option Nat) :
    Noted id lr s (s.touchStore id lr rs own) := (touchWork s id lr rs own).trans (touchRuns _ _ _ _)

theorem noteRace (s : State) (k : Strand) (rs : List (Nat × Nat)) (cell : Bool) :
    Noted k.team k.lrank s (s.noteRace k rs cell) := by
  unfold State.noteRace
  split
  · exact refl _ _ _
  · next v hv => exact putVtile hv ⟨rfl, fun _ => rfl, rfl⟩

theorem noteLowered (s old : State) (k : Strand) (rs : List (Nat × Nat)) :
    Noted k.team k.lrank s (s.noteLowered old k rs) := by
  unfold State.noteLowered
  split
  · exact refl _ _ _
  · next v hv =>
    dsimp only
    split
    · exact refl _ _ _
    · exact putVtile hv ⟨rfl, fun _ => rfl, rfl⟩

end Noted

/-! ### Memory -/

namespace State

@[simp] theorem drew_mem (s : State) (i n : Nat) : (s.drew i n).mem = s.mem := onTeam_mem _ _ _
@[simp] theorem drew_strands (s : State) (i n : Nat) : (s.drew i n).strands = s.strands := onTeam_strands _ _ _
@[simp] theorem drew_vtiles (s : State) (i n : Nat) : (s.drew i n).vtiles = s.vtiles := by
  unfold drew onTeam; split <;> rfl

theorem updates_ok (l : List ((Nat × Byte) × Nat)) (f : State → (Nat × Byte) × Nat → List Byte) {s : State} (h : s.ok) :
    (l.foldl (fun z x => z.update x.1.1 (f z x)) s).ok := by
  induction l generalizing s with
  | nil => exact h
  | cons x r ih => exact ih (update_ok h _ _)

theorem updates_byte (l : List ((Nat × Byte) × Nat)) (f : State → (Nat × Byte) × Nat → Byte) {s : State} (h : s.ok) {b : Nat}
    (hb : ∀ x ∈ l, x.1.1 ≠ b) : (l.foldl (fun z x => z.update x.1.1 [f z x]) s).mem.byte b = s.mem.byte b := by
  induction l generalizing s with
  | nil => rfl
  | cons x r ih =>
    refine (ih (update_ok h _ _) fun y hy => hb y (List.mem_cons_of_mem _ hy)).trans ?_
    have hx := hb x List.mem_cons_self
    rw [update_mem]
    exact Memory.byte_put_outside h (by simp; omega)

theorem updates_vtiles (l : List ((Nat × Byte) × Nat)) (f : State → (Nat × Byte) × Nat → List Byte) (s : State) :
    (l.foldl (fun z x => z.update x.1.1 (f z x)) s).vtiles = s.vtiles := by
  induction l generalizing s with
  | nil => rfl
  | cons x r ih => exact ih (s.update x.1.1 (f s x))

theorem freeKeys_ok {s : State} (h : s.ok) (i : Nat) (ks : List (Nat × Byte)) : (s.freeKeys i ks).ok := by
  unfold freeKeys
  split
  · exact h
  · exact ok_of_mem (drew_mem _ _ _)
      (updates_ok _ (fun z x => [(z.mem.byte x.1.1 &&& ~~~x.1.2) ||| (s.freeByteAt i x.2 &&& x.1.2)]) h)

/-- Making some bytes free changes no other byte. -/
theorem freeKeys_byte {s : State} (h : s.ok) (i : Nat) {ks : List (Nat × Byte)} {b : Nat} (hb : ∀ x ∈ ks, x.1 ≠ b) :
    (s.freeKeys i ks).mem.byte b = s.mem.byte b := by
  unfold freeKeys
  split
  · rfl
  · rw [drew_mem]
    refine updates_byte _ (fun z x => (z.mem.byte x.1.1 &&& ~~~x.1.2) ||| (s.freeByteAt i x.2 &&& x.1.2)) h fun x hx => ?_
    rw [(List.mem_zipIdx' hx).2]; exact hb _ (List.getElem_mem _)

theorem freeKeys_vtiles (s : State) (i : Nat) (ks : List (Nat × Byte)) : (s.freeKeys i ks).vtiles = s.vtiles := by
  unfold freeKeys
  split
  · rfl
  · rw [drew_vtiles]
    exact updates_vtiles _ (fun z x => [(z.mem.byte x.1.1 &&& ~~~x.1.2) ||| (s.freeByteAt i x.2 &&& x.1.2)]) s

@[simp] theorem touchRuns_mem (s : State) (rs : List (Nat × Nat)) : (s.touchRuns rs).mem = s.mem := by
  unfold touchRuns; split <;> rfl
@[simp] theorem touchRuns_vtiles (s : State) (rs : List (Nat × Nat)) : (s.touchRuns rs).vtiles = s.vtiles := by
  unfold touchRuns; split <;> rfl
@[simp] theorem drewAcc_mem (s : State) (i : Nat) (l : List Bool) : (s.drewAcc i l).mem = s.mem := by
  unfold drewAcc; split <;> simp
@[simp] theorem drewAcc_vtiles (s : State) (i : Nat) (l : List Bool) : (s.drewAcc i l).vtiles = s.vtiles := by
  unfold drewAcc; split <;> simp

theorem onAccs_race (hit : List MEntry) (f : MEntry → Acc → Acc) (v : Vtile) :
    (hit.foldl (fun v e => v.onAcc e.d (f e)) v).ptile = v.ptile ∧ (hit.foldl (fun v e => v.onAcc e.d (f e)) v).race = v.race := by
  induction hit generalizing v with
  | nil => exact ⟨rfl, rfl⟩
  | cons e r ih => exact ih (v.onAcc e.d (f e))

theorem touch_race (v : Vtile) (s : State) (rs : List (Nat × Nat)) :
    (v.touch s rs).ptile = v.ptile ∧ (v.touch s rs).race = v.race := onAccs_race _ (fun e => e.spoilAcc s rs e.kEnd) _

theorem relog_race (v : Vtile) (f : LogRec × Nat → LogRec) :
    ((v.relog f).ptile, (v.relog f).race) = (v.ptile, v.race) := by
  unfold Vtile.relog; split <;> rfl

/-- What a change of tile-store bytes does before its bytes become free: memory stays, and so does the order among stores. -/
theorem touchWork_parts (s : State) (id lr : Nat) (rs : List (Nat × Nat)) (own : Option Nat) :
    ∃ u : State, s.touchWork id lr rs own = u.freeKeys id (s.spoilt id lr rs own) ∧ u.mem = s.mem ∧
      ∀ i l, (u.vtile? i l).map (fun v => (v.ptile, v.race)) = (s.vtile? i l).map fun v => (v.ptile, v.race) := by
  unfold touchWork
  dsimp only
  generalize hu : (if (s.copies.any fun c => c.2.reads id lr) || !s.doneCopies.isEmpty then
    (s.touchCopies id lr rs own).drew id (4096 * s.fresh + 8388608) else s) = u
  have h1 : u.mem = s.mem := by rw [← hu]; split <;> simp [touchCopies]
  have h2 (i l : Nat) : (u.vtile? i l).map (fun v => (v.ptile, v.race)) = (s.vtile? i l).map fun v => (v.ptile, v.race) := by
    rw [← hu]
    split
    · rw [show ((s.touchCopies id lr rs own).drew id (4096 * s.fresh + 8388608)).vtile? i l =
          (s.vtile? i l).map (·.relog (s.touchLog id lr rs own)) by
        unfold vtile?; rw [drew_vtiles]
        exact lookup_map _ (fun v : Vtile => v.relog (s.touchLog id lr rs own)) s.vtiles]
      cases s.vtile? i l with
      | none => rfl
      | some v => simp only [Option.map_some, relog_race]
    · rfl
  refine ⟨_, rfl, ?_, ?_⟩
  · split
    · split <;> simp [h1]
    · exact h1
  · intro i l
    rw [← h2]
    split
    · next v hv =>
      split
      · rfl
      · unfold vtile?
        rw [drewAcc_vtiles]
        show (lookup _ (insertAt _ _ _)).map _ = _
        by_cases hk : vtileKey i l = vtileKey id lr
        · have hs : lookup (vtileKey id lr) u.vtiles = some v := hv
          rw [hk, lookup_insertAt_self, hs]
          simp only [Option.map_some, (touch_race v u rs).1, (touch_race v u rs).2]
        · rw [lookup_insertAt_of_ne hk]
    · rfl

theorem touchStore_ok {s : State} (h : s.ok) (id lr : Nat) (rs : List (Nat × Nat)) (own : Option Nat := none) :
    (s.touchStore id lr rs own).ok := by
  obtain ⟨u, hu, hm, _⟩ := touchWork_parts s id lr rs own
  unfold touchStore
  rw [hu]
  exact ok_of_mem (touchRuns_mem _ _) (freeKeys_ok (ok_of_mem hm h) _ _)

/-- A change of tile-store bytes leaves every byte that it does not make undefined. -/
theorem touchStore_byte {s : State} (h : s.ok) {id lr : Nat} {rs : List (Nat × Nat)} {own : Option Nat} {b : Nat}
    (hb : ∀ x ∈ s.spoilt id lr rs own, x.1 ≠ b) : (s.touchStore id lr rs own).mem.byte b = s.mem.byte b := by
  obtain ⟨u, hu, hm, _⟩ := touchWork_parts s id lr rs own
  unfold touchStore
  rw [touchRuns_mem, hu, freeKeys_byte (ok_of_mem hm h) id hb, hm]

theorem racedCells_congr {s t : State} {k : Strand} (rs : List (Nat × Nat))
    (h : (t.vtile? k.team k.lrank).map (fun v => (v.ptile, v.race)) = (s.vtile? k.team k.lrank).map fun v => (v.ptile, v.race)) :
    t.racedCells k rs = s.racedCells k rs := by
  unfold racedCells
  cases ht : t.vtile? k.team k.lrank <;> cases hs : s.vtile? k.team k.lrank <;> rw [ht, hs] at h <;> simp at h ⊢
  rw [h.1, h.2]

theorem racedCells_touchStore (s : State) (k : Strand) (rs qs : List (Nat × Nat)) (id lr : Nat) (own : Option Nat := none) :
    (s.touchStore id lr qs own).racedCells k rs = s.racedCells k rs := by
  obtain ⟨u, hu, _, hr⟩ := touchWork_parts s id lr qs own
  refine racedCells_congr rs ?_
  rw [← hr, touchStore, hu]
  unfold vtile?
  rw [touchRuns_vtiles, freeKeys_vtiles]

@[simp] theorem noteRace_mem (s : State) (k : Strand) (rs : List (Nat × Nat)) (c : Bool) : (s.noteRace k rs c).mem = s.mem := by
  unfold noteRace; split <;> rfl

@[simp] theorem noteLowered_mem (s old : State) (k : Strand) (rs : List (Nat × Nat)) :
    (s.noteLowered old k rs).mem = s.mem := by
  unfold noteLowered; split
  · rfl
  · dsimp only; split <;> rfl

/-- What the stores of an instruction do to memory alone. -/
structure Writes (w : State → State) (base : Nat) (rs : List (Nat × Nat)) : Prop where
  same : ∀ u, { w u with mem := u.mem, poison := u.poison } = u
  poison : ∀ u g, (w u).poisoned g = true → u.poisoned g = true
  ok : ∀ u, u.ok → (w u).ok
  bytes : ∀ u, u.ok → ∀ b, (∀ r ∈ rs, b < base + r.1 ∨ base + r.1 + r.2 ≤ b) → (w u).mem.byte b = u.mem.byte b

theorem Writes.noted {w : State → State} {base : Nat} {rs : List (Nat × Nat)} (h : Writes w base rs) (id lr : Nat) (u : State) :
    Noted id lr u (w u) := Noted.of_memory id lr (h.same u) (h.poison u)

theorem Writes.vtiles {w : State → State} {base : Nat} {rs : List (Nat × Nat)} (h : Writes w base rs) (u : State) :
    (w u).vtiles = u.vtiles := by
  conv => rhs; rw [← h.same u]

theorem writes_write (base a : Nat) (bs : List Byte) : Writes (fun u => u.write (base + a) bs) base [(a, bs.length)] where
  same := fun u => by unfold write clearPoison; split <;> rfl
  poison := fun u g hg => by
    unfold write clearPoison poisoned at *
    split at hg
    · exact hg
    · exact (List.contains_iff_mem.2 (List.mem_filter.1 (List.contains_iff_mem.1 hg)).1)
  ok := fun u h => write_ok h _ _
  bytes := fun u h b hb => write_byte h (hb (a, bs.length) List.mem_cons_self)

/-- Bytes that a strand has stored, unless a join cell there races with the store (R38). -/
theorem storing_byte {s : State} {k : Strand} {w : State → State} {base : Nat} {rs : List (Nat × Nat)} (h : s.ok)
    (hw : Writes w base rs) {b : Nat} (hb : ∀ x ∈ s.racedCells k rs, x.1 ≠ b) :
    (s.storing k rs w).mem.byte b = (w (s.touchStore k.team k.lrank rs)).mem.byte b := by
  unfold storing
  dsimp only
  rw [noteLowered_mem, noteRace_mem, freeKeys_byte (hw.ok _ (touchStore_ok h _ _ _))]
  have e : (w (s.touchStore k.team k.lrank rs)).racedCells k rs = s.racedCells k rs := by
    rw [← racedCells_touchStore s k rs rs k.team k.lrank]
    unfold racedCells vtile?
    rw [hw.vtiles]
  rw [e]; exact hb

/-- Everything that a strand's store can do (R69, R72, R137, R144). -/
theorem storesOnly_of_storing {s : State} {k : Strand} {w : State → State} {base : Nat} {rs : List (Nat × Nat)} (h : s.ok)
    (hw : Writes w base rs) :
    StoresOnly s ((s.storing k rs w).put { k with wait := .none, pc := k.pc + 8 }) k base rs := by
  have e : (w (s.touchStore k.team k.lrank rs)).racedCells k rs = s.racedCells k rs := by
    rw [← racedCells_touchStore s k rs rs k.team k.lrank]
    unfold racedCells vtile?
    rw [hw.vtiles]
  have n : Noted k.team k.lrank s (s.storing k rs w) :=
    ((((Noted.touchStore s _ _ rs none).trans (hw.noted _ _ _)).trans (Noted.freeKeys _ _ _ _ _)).trans
      (Noted.noteRace _ k rs false)).trans (Noted.noteLowered _ _ k rs)
  have hs : (s.storing k rs w).strands = s.strands := by conv => rhs; rw [← n.rest]
  refine ⟨?_, fun b h1 h2 h3 => ?_, n.poison, n.vtile, n.vtiles, n.teams, n.copies, n.landings, n.graphs, n.runs, ?_⟩
  · have ha : (s.storing k rs w).at_ = s.at_ := by conv => rhs; rw [← n.rest]
    unfold put putAt; rw [hs, ha]
  · show (s.storing k rs w).mem.byte b = _
    unfold storing
    dsimp only
    rw [noteLowered_mem, noteRace_mem, e, freeKeys_byte (hw.ok _ (touchStore_ok h _ _ _)) _ h3, hw.bytes _ (touchStore_ok h _ _ _) b h1,
      touchStore_byte h h2]
  · have hr := n.rest
    generalize s.storing k rs w = x at hr hs
    rw [← hs]
    exact hr

end State

end Sys2Proof.Machine
end

