-- ==== Sys2Proof/Tests/Slice0.lean ====
section
/-! SUPPORT. Tests of one instruction or step each, whose expected results come from the manual's examples or from its words,
and for each statement a concrete state and operands that meet its hypotheses (`witness_…`). -/

namespace Sys2Proof.Tests

set_option Elab.async false

open Sys2Proof Sys2Proof.Machine

/-! ### A small machine -/

/-- A launch packet: one package, 1 × 1 × `tiles` vtiles, TEAMID 1, PUSHT 1, park-on-wait, eight handles, 16 save slots. -/
def packetOf (asid tiles : Nat) : BitVec 1024 :=
  BitVec.ofNat 1024 (pack [16, 16, 16, 6, 1, 5, 4, 10, 2, 4, 4, 2, 10, 20, 12, 64, 32, 32, 8, 120, 640]
    [0, 1, 1, 0, 1, 0, 0, 0, 0, 0, tiles - 1, 0, 0, 8, asid, 0x1000, 0x00100000, 0x00100000, 16, 0, 0])

/-- A handle-table entry of generation 1 with every permission. -/
def entryOf (space base len : Nat) : Nat := pack [64, 64, 3, 4, 1, 2, 1, 1, 1, 1, 2, 4, 12] [base, len, space, 0, 1, 0, 1, 1, 1, 1, 0, 0, 1]

/-- Handle 1: HBM from 0x4000. -/
abbrev hbmHandle : Nat := 0x00100001
/-- Handle 2: group SRAM. -/
abbrev grpHandle : Nat := 0x00100002
/-- Handle 3: mirrored HBM. -/
abbrev mirHandle : Nat := 0x00100003

/-- A configuration image with the default personalities of R196, no spare tile in use and CFGGEN 5 (R271). -/
def testImage : Config.Image where
  pers := none
  cxlwin := Vector.replicate 4 0
  spare := Vector.replicate 64 none
  failed := Vector.replicate 64 none
  timeRoot := false
  laneLimit := 10
  portw := 0
  cfgGen := 5
  accId := 0
  signed := true
  minGen := 1

/-- Two vtiles of team 1 on tiles 0 and 1, handles for HBM, group SRAM and mirrored HBM, a strand in slot 0 of tile 0. -/
def world (asid : Nat := 0) : State :=
  let s := State.reset.withFetchWord 64 0
  { s with
    agenda := []
    image := testImage
    bufs := Vector.replicate 4 64
    mem := (s.mem.put (hbmKey 0x1020) (bytesOf 32 (entryOf 4 0x4000 0x1000) ++ bytesOf 32 (entryOf 2 0 0x1000)
      ++ bytesOf 32 (entryOf 5 0 0x8000)))
    teams := [(1, newTeam (packetOf asid 2) 0 0 0 0x100000 [0, 1] [])]
    vtiles := [(vtileKey 1 0, newVtile 0 0), (vtileKey 1 1, newVtile 1 1)]
    tiles := [(0, { Tile.initial with owner := some (1, 0) }), (1, { Tile.initial with owner := some (1, 1) })] }

/-- HBM stands on some die (R10). -/
theorem home_hbm (s : State) {key : Nat} (h : key < 2 ^ 40) : ∃ d < 4, s.homeSite key = 64 + d :=
  ⟨Config.stackOf key / 2 % 4, Nat.mod_lt _ (by decide), by unfold State.homeSite; rw [if_pos h]⟩

/-- Between the places of a package, a packet comes through at once where no packet has gone before (R210). -/
theorem fresh_cross {s : State} {n x y cls flits : Nat} (hh : s.hops = []) (hc : s.credits = [])
    (hb : s.bufs = Vector.replicate 4 64) (hx : sitePlace x < 6) (hy : sitePlace y < 6) (hcl : cls < 4) (hf : flits ≤ 64) :
    (s.cross n (sitePath x y) cls flits).1 = true := by
  have hd : ∀ a < 6, ∀ b < 6, (pathLinks (placePath a b)).Nodup := by decide +kernel
  refine State.cross_room (by rw [hh]; rfl) ?_ fun l _ => ?_
  · unfold sitePath
    split
    · exact List.nodup_nil
    · exact hd _ hx _ hy
  · have : s.room l cls = 64 := by
      unfold State.room State.credit
      rw [hc, hb]
      simp only [lookup, Option.getD_none]
      revert hcl; revert cls; decide +kernel
    omega

/-- A state in which the image and the log of a vtile have come to the ends of their ways (log 13). -/
def come (s : State) (key : Nat) : State :=
  { s with hops := [(imageHop key, List.replicate 3 (2 ^ 30)), (logHop key, List.replicate 3 (2 ^ 30))] }

theorem come_cross {s : State} {key cls n m x y u v : Nat} (hn : n ≤ 2 ^ 30) (hm : m ≤ 2 ^ 30) {l : List (Nat × List Nat × Nat)}
    (hl : l = [] ∨ l = [(logHop key, sitePath u v, m)]) :
    ((come s key).crossAll cls ((imageHop key, sitePath x y, n) :: l)).1 = true := by
  have g : ∀ a b f : Nat, f ≤ 2 ^ 30 → ∀ i < (pathLinks (sitePath a b)).length, f ≤ (List.replicate 3 (2 ^ 30)).getD i 0 := by
    intro a b f hf i hi
    have := State.length_sitePath a b
    have h3 : ∀ i < 3, (List.replicate 3 (2 ^ 30)).getD i 0 = 2 ^ 30 := by decide
    rw [h3 i (by omega)]; exact hf
  have hne : imageHop key ≠ logHop key := by unfold imageHop logHop; omega
  have hi : lookup (imageHop key) (come s key).hops = some (List.replicate 3 (2 ^ 30)) := by simp [come, lookup]
  have ho : lookup (logHop key) (come s key).hops = some (List.replicate 3 (2 ^ 30)) := by simp [come, lookup, hne]
  obtain rfl | rfl := hl
  · exact State.crossAll_come (by simp) (by simpa using ⟨_, hi, g x y n hn⟩)
  · exact State.crossAll_come (by simpa using hne) (by simpa using ⟨⟨_, hi, g x y n hn⟩, _, ho, g u v m hm⟩)

/-- The strand of `world` with scalars set. -/
def withRegs (rs : List (SReg × Word)) : Strand := rs.foldl (fun k r => k.wr r.1 r.2) fetchStrand

/-- The state after an instruction; the state before it when it does not answer one. -/
def after (i : Instr) (s : State) : State :=
  match exec i s with
  | .next t => t
  | _ => s

/-- What a scalar reads after an instruction of a strand of `world`. -/
def scalarAfter (i : Instr) (rs : List (SReg × Word)) (d : SReg) : Option Word :=
  ((after i (world.put (withRegs rs))).strand?).map (·.rd d)

/-- What a vector register reads after an instruction of a strand. -/
def vectorAfter (i : Instr) (k : Strand) (d : VNum) (w lo n : Nat) : List Nat :=
  match (after i (world.put k)).strand? with
  | some k' => (List.range n).map fun j => lane w (k'.rdV d) (lo + j)
  | none => []

/-- A vector register from its low lanes. -/
def vec (w : Nat) (l : List Nat) : VReg := BitVec.ofNat 2048 (ofLanes w l)

/-- The strand of `world` with vectors set. -/
def withVecs (rs : List (VNum × VReg)) : Strand := rs.foldl (fun k r => k.wrV r.1 r.2) fetchStrand

/-- The cause in the youngest fault record of team 1 (R170, R172). -/
def causeOf (s : State) : Nat :=
  match s.team? 1 with
  | some t => if t.fqw = 0 then 0x100 else s.mem.num (hbmKey (t.area + 128 + 64 * ((t.fqw - 1) % t.fqCap) + 6)) 1
  | none => 0x100

/-- A state whose team 1 has no save slot, so that a strand that faults is held in place (R169). -/
def slotless (s : State) : State :=
  { s with teams := s.teams.map fun t => (t.1, { t.2 with packet := t.2.packet - BitVec.ofNat 1024 (8 * 2 ^ 256) }) }

/-- The cause in the youngest fault record after an instruction. -/
def causeAt (i : Instr) (s : State) : Nat := causeOf (after i (slotless s))

/-! ### Scalar integer (R303, R309, R321, R324, R326, R340, R341, R345, R347, R349, R356, R357, R360, R387) -/

theorem test_add_i32 : scalarAfter (.addI ⟨false, .i32, 1, 1, 2⟩) [(1, 0x7FFFFFFF)] 2 = some 0xFFFFFFFF80000000 := by
  decide +kernel
theorem test_add_n32 : scalarAfter (.addI ⟨false, .n32, 1, 1, 2⟩) [(1, 0x7FFFFFFF)] 2 = some 0x80000000 := by decide +kernel
theorem test_add_same : scalarAfter (.addR ⟨false, .i64, 1, 1, 1⟩) [(1, 0xFFFFFFFFFFFFFFFF)] 1 = some 0xFFFFFFFFFFFFFFFE := by
  decide +kernel
theorem test_s0_discards : scalarAfter (.addI ⟨false, .i64, 1, 1, 0⟩) [(1, 5)] 0 = some 0 := by decide +kernel
theorem test_sub_n32 : scalarAfter (.sub ⟨false, .n32, 2, 1, 3⟩) [(1, 0), (2, 1)] 3 = some 0xFFFFFFFF := by decide +kernel
theorem test_sub_example : scalarAfter (.sub ⟨false, .i64, 8, 9, 10⟩) [(9, 64), (8, 58)] 10 = some 6 := by decide +kernel
theorem test_mul : scalarAfter (.mulR ⟨false, .i64, 2, 1, 3⟩) [(1, 0xFFFFFFFFFFFFFFFF), (2, 2)] 3 = some 0xFFFFFFFFFFFFFFFE := by
  decide +kernel
theorem test_mul_imm : scalarAfter (.mulI ⟨false, .i64, 0xFFFFFFFF, 1, 3⟩) [(1, 7)] 3 = some 0xFFFFFFFFFFFFFFF9 := by decide +kernel
theorem test_mulh_n64 : scalarAfter (.mulh ⟨false, .n64, 2, 1, 3⟩) [(1, 0xFFFFFFFFFFFFFFFF), (2, 2)] 3 = some 1 := by decide +kernel
theorem test_mulh_i64 : scalarAfter (.mulh ⟨false, .i64, 2, 1, 3⟩) [(1, 0xFFFFFFFFFFFFFFFF), (2, 2)] 3 =
    some 0xFFFFFFFFFFFFFFFF := by decide +kernel
theorem test_div_i32 : scalarAfter (.div ⟨false, .i32, 2, 1, 3⟩) [(1, 0xFFFFFFFFFFFFFFF9), (2, 2)] 3 =
    some 0xFFFFFFFFFFFFFFFD := by decide +kernel
theorem test_div_zero : scalarAfter (.div ⟨false, .n64, 2, 1, 3⟩) [(1, 7), (2, 0)] 3 = some 0xFFFFFFFFFFFFFFFF := by decide +kernel
theorem test_rem_i32 : scalarAfter (.rem ⟨false, .i32, 2, 1, 4⟩) [(1, 0xFFFFFFFFFFFFFFF9), (2, 2)] 4 =
    some 0xFFFFFFFFFFFFFFFF := by decide +kernel
theorem test_rem_zero : scalarAfter (.rem ⟨false, .n64, 2, 1, 4⟩) [(1, 7), (2, 0)] 4 = some 7 := by decide +kernel
theorem test_and_i64 : scalarAfter (.andI ⟨false, .i64, 0xFFFFFFF0, 4, 5⟩) [(4, 0x123456789ABCDEF7)] 5 =
    some 0x123456789ABCDEF0 := by decide +kernel
theorem test_and_i32 : scalarAfter (.andI ⟨false, .i32, 0x80000000, 4, 5⟩) [(4, 0x123456789ABCDEF7)] 5 =
    some 0xFFFFFFFF80000000 := by decide +kernel
theorem test_and_reg : scalarAfter (.andR ⟨false, .n32, 2, 1, 3⟩) [(1, 0xFF00FF00FF), (2, 0x0FFFFFFFFF)] 3 = some 0x00FF00FF := by
  decide +kernel
theorem test_or_n32 : scalarAfter (.orI ⟨false, .n32, 0x80000000, 1, 2⟩) [(1, 0x100000001)] 2 = some 0x80000001 := by decide +kernel
theorem test_or_reg : scalarAfter (.orR ⟨false, .i64, 2, 1, 3⟩) [(1, 0xF0), (2, 0x0F)] 3 = some 0xFF := by decide +kernel
theorem test_xor_complement : scalarAfter (.xorI ⟨false, .n32, 0xFFFFFFFF, 1, 2⟩) [(1, 0x10000000F)] 2 = some 0xFFFFFFF0 := by
  decide +kernel
theorem test_xor_reg : scalarAfter (.xorR ⟨false, .i64, 2, 1, 3⟩) [(1, 0xFF), (2, 0x0F)] 3 = some 0xF0 := by decide +kernel
theorem test_shl : scalarAfter (.shlI ⟨false, .i64, 68, 1, 2⟩) [(1, 0x80000010)] 2 = some 0x800000100 := by decide +kernel
theorem test_shl_reg : scalarAfter (.shlR ⟨false, .i32, 2, 1, 3⟩) [(1, 0x40000000), (2, 33)] 3 = some 0xFFFFFFFF80000000 := by
  decide +kernel
theorem test_shr_i32 : scalarAfter (.shrI ⟨false, .i32, 4, 1, 2⟩) [(1, 0x80000010)] 2 = some 0x08000001 := by decide +kernel
theorem test_shr_reg : scalarAfter (.shrR ⟨false, .n64, 2, 1, 3⟩) [(1, 0x8000000000000000), (2, 127)] 3 = some 1 := by decide +kernel
theorem test_sra_i32 : scalarAfter (.sraI ⟨false, .i32, 4, 1, 2⟩) [(1, 0x80000010)] 2 = some 0xFFFFFFFFF8000001 := by decide +kernel
theorem test_sra_reg : scalarAfter (.sraR ⟨false, .i64, 2, 1, 3⟩) [(1, 0x8000000000000000), (2, 63)] 3 =
    some 0xFFFFFFFFFFFFFFFF := by decide +kernel
theorem test_slt : scalarAfter (.sltI ⟨false, .i64, 0, 1, 2⟩) [(1, 0xFFFFFFFFFFFFFFFF)] 2 = some 1 := by decide +kernel
theorem test_slt_n64 : scalarAfter (.sltR ⟨false, .n64, 0, 1, 2⟩) [(1, 0xFFFFFFFFFFFFFFFF)] 2 = some 0 := by decide +kernel
theorem test_max : scalarAfter (.maxI ⟨false, .i64, 0, 1, 2⟩) [(1, 0xFFFFFFFFFFFFFFFF)] 2 = some 0 := by decide +kernel
theorem test_max_n64 : scalarAfter (.maxR ⟨false, .n64, 0, 1, 2⟩) [(1, 0xFFFFFFFFFFFFFFFF)] 2 = some 0xFFFFFFFFFFFFFFFF := by
  decide +kernel
theorem test_min : scalarAfter (.minI ⟨false, .i64, 0, 1, 2⟩) [(1, 0xFFFFFFFFFFFFFFFF)] 2 = some 0xFFFFFFFFFFFFFFFF := by
  decide +kernel
theorem test_min_n64 : scalarAfter (.minR ⟨false, .n64, 0, 1, 2⟩) [(1, 0xFFFFFFFFFFFFFFFF)] 2 = some 0 := by decide +kernel
theorem test_clz : scalarAfter (.clz ⟨false, .i64, 7, 8⟩) [(7, 39)] 8 = some 58 := by decide +kernel
theorem test_clz_zero : scalarAfter (.clz ⟨false, .n32, 7, 8⟩) [(7, 0)] 8 = some 32 := by decide +kernel
theorem test_popc : scalarAfter (.popc ⟨false, .i64, 7, 8⟩) [(7, 0xFFFFFFFF00000027)] 8 = some 36 := by decide +kernel
theorem test_popc_n32 : scalarAfter (.popc ⟨false, .n32, 7, 8⟩) [(7, 0xFFFFFFFF00000027)] 8 = some 4 := by decide +kernel
theorem test_csel : scalarAfter (.csel ⟨false, 1, 0, 10, 11⟩) [(10, 6), (1, 40)] 11 = some 6 := by decide +kernel
theorem test_csel_zero : scalarAfter (.csel ⟨false, 1, 0, 10, 11⟩) [(10, 64), (1, 0)] 11 = some 0 := by decide +kernel
theorem test_li : scalarAfter (.li ⟨false, .i64, 0x9ABCDEF0, 0, 2⟩) [] 2 = some 0xFFFFFFFF9ABCDEF0 := by decide +kernel
theorem test_li_joins : scalarAfter (.li ⟨false, .n64, 0x9ABCDEF0, 2, 2⟩) [(2, 0x12345678)] 2 = some 0x123456789ABCDEF0 := by
  decide +kernel

/-! ### Scalar float (R329 to R334) -/

theorem test_fadd : scalarAfter (.fadd ⟨false, true, 2, 1, 6⟩) [(1, 0x3FF0000000000000), (2, 0x4000000000000000)] 6 =
    some 0x4008000000000000 := by decide +kernel
theorem test_fsub : scalarAfter (.fsub ⟨false, false, 2, 1, 6⟩) [(1, 0x3F800000), (2, 0x3F800000)] 6 = some 0 := by decide +kernel
theorem test_fmul_nan : scalarAfter (.fmul ⟨false, true, 2, 1, 6⟩) [(1, 0xFFF0000000000000), (2, 0)] 6 =
    some 0x7FF8000000000000 := by decide +kernel
theorem test_fmin_zero : scalarAfter (.fmin ⟨false, false, 2, 1, 6⟩) [(1, 0), (2, 0x80000000)] 6 = some 0x80000000 := by
  decide +kernel
theorem test_fmax_zero : scalarAfter (.fmax ⟨false, false, 2, 1, 6⟩) [(1, 0), (2, 0x80000000)] 6 = some 0 := by decide +kernel
theorem test_ffma : scalarAfter (.ffma ⟨false, false, 3, 2, 1, 4⟩) [(1, 0x3F800800), (2, 0x3F800800), (3, 0xBF801000)] 4 =
    some 0x33800000 := by decide +kernel
theorem test_fcmp_lt_nan : scalarAfter (.fcmp ⟨false, false, .lt, 2, 1, 3⟩) [(1, 0x7FC00000)] 3 = some 0 := by decide +kernel
theorem test_fcmp_un_nan : scalarAfter (.fcmp ⟨false, false, .un, 2, 1, 3⟩) [(1, 0x7FC00000)] 3 = some 1 := by decide +kernel
theorem test_fcvt_tie : scalarAfter (.fcvt ⟨false, .el .i32, .f64, 2, 6⟩) [(2, 0x4004000000000000)] 6 = some 2 := by decide +kernel
/-- −3.0e9 saturates to the least i32 and sets SAT (R332). -/
theorem test_fcvt_sat :
    (let s := after (.fcvt ⟨false, .el .i32, .f64, 2, 6⟩) (world.put (withRegs [(2, 0xC1E65A0BC0000000)]))
     (s.strand?.map (·.rd 6), (s.vtile? 1 0).map (·.fstat))) = (some 0xFFFFFFFF80000000, some 1) := by decide +kernel

/-! ### Control (R317, R336, R337) -/

/-- The PC after an instruction of a strand at 0x100. -/
def pcAfter (i : Instr) (rs : List (SReg × Word)) : Option Word :=
  ((after i (world.put { withRegs rs with pc := 0x100 })).strand?).map (·.pc)

theorem test_beq : pcAfter (.beq ⟨false, 0xFFFFFFFE, 2, 1⟩) [(1, 3), (2, 3)] = some 0xF0 := by decide +kernel
theorem test_bne : pcAfter (.bne ⟨false, 4, 2, 1⟩) [(1, 3), (2, 3)] = some 0x108 := by decide +kernel
theorem test_blt : pcAfter (.blt ⟨false, 4, 2, 1⟩) [(1, 0xFFFFFFFFFFFFFFFF), (2, 0)] = some 0x120 := by decide +kernel
theorem test_bge : pcAfter (.bge ⟨false, 4, 2, 1⟩) [(1, 0xFFFFFFFFFFFFFFFF), (2, 0)] = some 0x108 := by decide +kernel
theorem test_bltn : pcAfter (.bltn ⟨false, 4, 2, 1⟩) [(1, 0xFFFFFFFFFFFFFFFF), (2, 0)] = some 0x108 := by decide +kernel
theorem test_bgen : pcAfter (.bgen ⟨false, 4, 2, 1⟩) [(1, 3), (2, 3)] = some 0x120 := by decide +kernel
theorem test_jal : (pcAfter (.jal ⟨false, 2, 63⟩) [], scalarAfter (.jal ⟨false, 2, 63⟩) [] 63) = (some 0x110, some 8) := by
  decide +kernel
theorem test_jalr_link : (pcAfter (.jalr ⟨false, 8, 63, 63⟩) [(63, 0x40)], scalarAfter (.jalr ⟨false, 8, 63, 63⟩) [(63, 0x40)] 63) =
    (some 0x48, some 8) := by decide +kernel
/-- A target that is no multiple of 8 raises 0x02 (R337). -/
theorem test_jalr_target : (causeAt (.jalr ⟨false, 4, 1, 2⟩) (world.put (withRegs [(1, 0x40)]))) = 2 := by decide +kernel

/-! ### Loads, stores and shapes (R339, R342, R344, R359) -/

/-- `world` with bytes in the store of tile 0 and a strand. -/
def stored (a : Nat) (bs : List Byte) (k : Strand) : State := (world.put k).update (storeKey 0 a) bs

theorem test_ld_i16 : (after (.ld ⟨false, .i16, 6, 5, 3⟩) (stored 0x106 [0xFE, 0xFF] (withRegs [(5, 0x100)]))).strand?.map (·.rd 3)
    = some 0xFFFFFFFFFFFFFFFE := by decide +kernel
theorem test_ld_last : (after (.ld ⟨false, .n64, 0, 5, 3⟩) (stored 0x7FFF8 [1, 2, 3, 4, 5, 6, 7, 8]
    (withRegs [(5, 0x7FFF8)]))).strand?.map (·.rd 3) = some 0x0807060504030201 := by decide +kernel
theorem test_ld_misaligned : (causeAt (.ld ⟨false, .i16, 0, 5, 3⟩) (world.put (withRegs [(5, 0x101)]))) = 0x20 := by
  decide +kernel
theorem test_st : ((after (.st ⟨false, .i32, 4, 5, 11⟩) (world.put (withRegs [(5, 0x100), (11, 0x1122334455667788)]))).mem.read
    (storeKey 0 0x102) 7) = [0, 0, 0x88, 0x77, 0x66, 0x55, 0] := by decide +kernel
theorem test_mld : (after (.mld ⟨false, 0x40, 5, 4⟩) (stored 0x140 [7] (withRegs [(5, 0x100)]))).strand?.map (·.rdM 4) = some 7 := by
  decide +kernel
theorem test_mst : (after (.mst ⟨false, 0, 5, 4⟩) (world.put ((withRegs [(5, 0x20)]).wrM 4 0xABCD))).mem.num (storeKey 0 0x20) 32
    = 0xABCD := by decide +kernel
theorem test_mset_s1 : (after (.mset ⟨false, .s1, 0xFFFFFFFF, 0, 4⟩) (world.put fetchStrand)).strand?.map
    (fun k => shS (k.rdM 4) 1) = some (-1) := by decide +kernel
theorem test_mset_ofs : (after (.mset ⟨false, .ofs, 0x100, 6, 4⟩) (world.put (withRegs [(6, 0xFF00000000F0)]))).strand?.map
    (fun k => shOfs (k.rdM 4)) = some 0x1F0 := by decide +kernel

/-! ### Predicates (R348, R350) -/

theorem test_pand : (after (.pand ⟨false, 2, 1, 3⟩) (world.put ((fetchStrand.wrP 1 6).wrP 2 3))).strand?.map (·.rdP 3) = some 2 := by
  decide +kernel
theorem test_por : (after (.por ⟨false, 2, 1, 3⟩) (world.put ((fetchStrand.wrP 1 6).wrP 2 3))).strand?.map (·.rdP 3) = some 7 := by
  decide +kernel
theorem test_pxor : (after (.pxor ⟨false, 2, 1, 3⟩) (world.put ((fetchStrand.wrP 1 6).wrP 2 3))).strand?.map (·.rdP 3) = some 5 := by
  decide +kernel
theorem test_pnot : (after (.pnot ⟨false, 0, 5⟩) (world.put (fetchStrand.wrP 5 3))).strand?.map (·.rdP 5) = some 0 := by
  decide +kernel
theorem test_p0_discards : (after (.pnot ⟨false, 0, 0⟩) (world.put fetchStrand)).strand?.map (·.rdP 0) =
    some (BitVec.allOnes 256) := by decide +kernel
theorem test_pset : (after (.pset ⟨false, .f32, 7, 3⟩) (world.put (withRegs [(7, 10)]))).strand?.map (·.rdP 3) = some 0x3FF := by
  decide +kernel
theorem test_pset_all : (after (.pset ⟨false, .f32, 7, 3⟩) (world.put (withRegs [(7, 1000)]))).strand?.map (·.rdP 3) =
    some 0xFFFFFFFFFFFFFFFF := by decide +kernel

/-! ### Vectors (R369 to R385) -/

/-- Every lane enabled. -/
abbrev every : VPred := ⟨0, false, false⟩
/-- The lanes of p4. -/
abbrev byP4 : VPred := ⟨4, false, false⟩

theorem test_vabs : vectorAfter (.vabs ⟨false, .f32, every, 1, 2⟩) (withVecs [(1, vec 32 [0xFFC00001, 0x80000000])]) 2 32 0 2 =
    [0x7FC00000, 0] := by decide +kernel
theorem test_vneg : vectorAfter (.vneg ⟨false, .i8, every, 1, 2⟩) (withVecs [(1, vec 8 [1, 0x80, 0xFF])]) 2 8 0 3 =
    [0xFF, 0x80, 1] := by decide +kernel
theorem test_vadd_masked : vectorAfter (.vadd ⟨false, .i32, byP4, 2, 1, 3⟩)
    ((withVecs [(1, vec 32 [5, 6]), (2, vec 32 [7, 8]), (3, vec 32 [1, 2])]).wrP 4 1) 3 32 0 2 = [12, 2] := by decide +kernel
theorem test_vadd_zeroing : vectorAfter (.vadd ⟨false, .i32, ⟨4, false, true⟩, 2, 1, 3⟩)
    ((withVecs [(1, vec 32 [5, 6]), (2, vec 32 [7, 8]), (3, vec 32 [1, 2])]).wrP 4 1) 3 32 0 2 = [12, 0] := by decide +kernel
theorem test_vsub : vectorAfter (.vsub ⟨false, .n8, every, 2, 1, 3⟩) (withVecs [(1, vec 8 [0, 9]), (2, vec 8 [1, 4])]) 3 8 0 2 =
    [0xFF, 5] := by decide +kernel
theorem test_vmul_e4m3 :
    (let s := after (.vmul ⟨false, .e4m3, every, 2, 1, 3⟩) (world.put (withVecs [(1, vec 8 [0x5C]), (2, vec 8 [0x5A])]))
     (s.strand?.map fun k => lane 8 (k.rdV 3) 0, (s.vtile? 1 0).map (·.fstat))) = (some 0x7E, some 1) := by decide +kernel
theorem test_vmul_exact :
    (let s := after (.vmul ⟨false, .e4m3, every, 2, 1, 3⟩) (world.put (withVecs [(1, vec 8 [0x58]), (2, vec 8 [0x5E])]))
     (s.strand?.map fun k => lane 8 (k.rdV 3) 0, (s.vtile? 1 0).map (·.fstat))) = (some 0x7E, some 0) := by decide +kernel
theorem test_vmin : vectorAfter (.vmin ⟨false, .i8, every, 2, 1, 3⟩) (withVecs [(1, vec 8 [0x80, 3]), (2, vec 8 [1, 4])]) 3 8 0 2 =
    [0x80, 3] := by decide +kernel
theorem test_vmax : vectorAfter (.vmax ⟨false, .n8, every, 2, 1, 3⟩) (withVecs [(1, vec 8 [0x80, 3]), (2, vec 8 [1, 4])]) 3 8 0 2 =
    [0x80, 4] := by decide +kernel
theorem test_vand : vectorAfter (.vand ⟨false, .n8, every, 2, 1, 3⟩) (withVecs [(1, vec 8 [6]), (2, vec 8 [3])]) 3 8 0 1 = [2] := by
  decide +kernel
theorem test_vor : vectorAfter (.vor ⟨false, .n8, every, 2, 1, 3⟩) (withVecs [(1, vec 8 [6]), (2, vec 8 [3])]) 3 8 0 1 = [7] := by
  decide +kernel
theorem test_vxor : vectorAfter (.vxor ⟨false, .n8, every, 2, 1, 3⟩) (withVecs [(1, vec 8 [6]), (2, vec 8 [3])]) 3 8 0 1 = [5] := by
  decide +kernel
theorem test_vnot : vectorAfter (.vnot ⟨false, .n8, every, 1, 3⟩) (withVecs [(1, vec 8 [6])]) 3 8 0 2 = [0xF9, 0xFF] := by decide +kernel
theorem test_vshl : vectorAfter (.vshl ⟨false, .i32, every, 2, 1, 3⟩) (withVecs [(1, vec 32 [0x80000010]), (2, vec 32 [36])]) 3 32 0 1 =
    [0x100] := by decide +kernel
theorem test_vshr : vectorAfter (.vshr ⟨false, .i32, every, 2, 1, 3⟩) (withVecs [(1, vec 32 [0x80000010]), (2, vec 32 [4])]) 3 32 0 1 =
    [0x08000001] := by decide +kernel
theorem test_vsra : vectorAfter (.vsra ⟨false, .n32, every, 2, 1, 3⟩) (withVecs [(1, vec 32 [0x80000010]), (2, vec 32 [4])]) 3 32 0 1 =
    [0xF8000001] := by decide +kernel
theorem test_vattm : vectorAfter (.vattm ⟨false, .f32, every, 5, 4, 6⟩)
    (withVecs [(4, vec 32 [0x3F800000, 0x40400000, 0x40000000, 0x40800000]), (5, vec 32 [0x40400000, 0x3F800000, 0x3F800000, 0x3F000000])])
    6 32 0 5 = [0x40400000, 0x3FE00000, 0x3FC00000, 0x3FC00000, 0] := by decide +kernel
theorem test_vbcast : vectorAfter (.vbcast ⟨false, .n16, every, 4, 1⟩) (withRegs [(4, 0x12345)]) 1 16 126 2 = [0x2345, 0x2345] := by
  decide +kernel
theorem test_vidx : vectorAfter (.vidx ⟨false, .n32, every, 5⟩) fetchStrand 5 32 61 3 = [61, 62, 63] := by decide +kernel
theorem test_vcmp : (after (.vcmp ⟨false, .f32, .lt, every, 2, 1, 3⟩)
    (world.put ((withVecs [(1, vec 32 [0x7FC00000, 0]), (2, vec 32 [0x3F800000, 0x3F800000])]).wrP 3 (1 <<< 255)))).strand?.map (·.rdP 3) =
    some (1 <<< 255 ||| 2) := by decide +kernel
theorem test_vcvt_part : vectorAfter (.vcvt ⟨false, .bf16, .f32, 1, every, 1, 2⟩)
    (withVecs [(1, vec 32 [0x3F808000, 0x40400000]), (2, vec 16 [7])]) 2 16 64 2 = [0x3F80, 0x4040] := by decide +kernel
theorem test_vcvt_keeps : vectorAfter (.vcvt ⟨false, .bf16, .f32, 1, every, 1, 2⟩) (withVecs [(2, vec 16 [7])]) 2 16 0 1 = [7] := by
  decide +kernel
theorem test_vexp2 : vectorAfter (.vexp2 ⟨false, .f32, every, 1, 2⟩) (withVecs [(1, vec 32
    [0x3F000000, 0x3E800000, 0xBF800000, 0x80000000, 0xC3150000, 0xC3158000, 0x43000000, 0xFFC01234])]) 2 32 0 8 =
    [0x3FB504F3, 0x3F9837F0, 0x3F000000, 0x3F800000, 1, 0, 0x7F800000, 0x7FC00000] := by decide +kernel
theorem test_vext : (after (.vext ⟨false, .i32, 2, 1, 9⟩) (world.put ((withRegs [(2, 65)]).wrV 1 (vec 32 [0, 0xFFFFFFFE])))).strand?.map
    (·.rd 9) = some 0xFFFFFFFFFFFFFFFE := by decide +kernel
theorem test_vfma : vectorAfter (.vfma ⟨false, .f32, every, 3, 2, 1, 4⟩)
    (withVecs [(1, vec 32 [0x3F800800]), (2, vec 32 [0x3F800800]), (3, vec 32 [0xBF801000])]) 4 32 0 1 = [0x33800000] := by decide +kernel
theorem test_vgath : (after (.vgath ⟨false, .f32, 16, byP4, 2, 3, 7⟩)
    (stored 0x2010 [1, 0, 0, 0, 2] (((withRegs [(3, 0x2000)]).wrV 2 (vec 32 [4, 0])).wrP 4 3))).strand?.map
    (fun k => (lane 32 (k.rdV 7) 0, lane 32 (k.rdV 7) 1)) = some (2, 1) := by decide +kernel
/-- The highest lane prevails where two cover the same bytes (R380). -/
theorem test_vscat : (after (.vscat ⟨false, .i32, 0, byP4, 2, 3, 7⟩)
    (world.put ((((withRegs [(3, 0x2000)]).wrV 2 (vec 32 [8, 8])).wrV 7 (vec 32 [1, 2])).wrP 4 3))).mem.num (storeKey 0 0x2008) 4 = 2 := by
  decide +kernel
theorem test_vld : (after (.vld ⟨false, .n8, 0x400, byP4, 5, 1⟩) (stored 0x500 [1, 2, 3]
    (((withRegs [(5, 0x100)]).wrV 1 (vec 8 [9, 9, 9])).wrP 4 3))).strand?.map (fun k => (List.range 3).map (lane 8 (k.rdV 1))) =
    some [1, 2, 9] := by decide +kernel
theorem test_vst : (after (.vst ⟨false, .f32, 0x400, byP4, 5, 3⟩) (stored 0x500 [1, 2, 3, 4, 5]
    (((withRegs [(5, 0x100)]).wrV 3 (vec 32 [7, 8])).wrP 4 1))).mem.read (storeKey 0 0x500) 5 = [7, 0, 0, 0, 5] := by decide +kernel
theorem test_vlog2 : vectorAfter (.vlog2 ⟨false, .f32, every, 1, 2⟩) (withVecs [(1, vec 32 [0x41000000])]) 2 32 0 1 = [0x40400000] := by
  decide +kernel
theorem test_vrcp : vectorAfter (.vrcp ⟨false, .f32, every, 1, 2⟩) (withVecs [(1, vec 32 [0x40800000, 1, 0xFF800000])]) 2 32 0 3 =
    [0x3E800000, 0x7F800000, 0x80000000] := by decide +kernel
theorem test_vrsq : vectorAfter (.vrsq ⟨false, .f32, every, 1, 2⟩) (withVecs [(1, vec 32 [0x40800000])]) 2 32 0 1 = [0x3F000000] := by
  decide +kernel
theorem test_vperm : vectorAfter (.vperm ⟨false, .i8, every, 2, 1, 3⟩) (withVecs [(1, vec 8 [10, 11]), (2, vec 8 [1, 0, 255])]) 3 8 0 3 =
    [11, 10, 0] := by decide +kernel
theorem test_vred : (after (.vred ⟨false, .f32, .add, byP4, 1, 9⟩) (world.put
    ((withVecs [(1, vec 32 [0x4B800000, 0x3F800000, 0x3F800000, 0x3F800000])]).wrP 4 15))).strand?.map (·.rd 9) = some 0x4B800001 := by
  decide +kernel
theorem test_vsel : vectorAfter (.vsel ⟨false, .f32, byP4, 2, 1, 3⟩)
    ((withVecs [(1, vec 32 [1, 2]), (2, vec 32 [3, 4])]).wrP 4 1) 3 32 0 2 = [1, 4] := by decide +kernel


/-! ### Ill-formed terms, one for each check of `WellFormed` (R287 to R290, R365) -/

theorem test_ill_scalar :
    WellFormed (.addR ⟨false, .i8, 1, 2, 3⟩) = false ∧ WellFormed (.addI ⟨false, .f32, 1, 2, 3⟩) = false ∧
    WellFormed (.clz ⟨false, .n16, 2, 3⟩) = false ∧ WellFormed (.li ⟨false, .i32, 1, 0, 3⟩) = false ∧
    WellFormed (.li ⟨false, .i64, 1, 2, 3⟩) = false ∧ WellFormed (.fcvt ⟨false, .el .c4, .f64, 1, 2⟩) = false ∧
    WellFormed (.fcvt ⟨false, .f64, .el .c4, 1, 2⟩) = false ∧ WellFormed (.ld ⟨false, .f32, 0, 1, 2⟩) = false ∧
    WellFormed (.st ⟨false, .rns, 0, 1, 2⟩) = false ∧ WellFormed (.pset ⟨false, .i64, 1, 2⟩) = false := by decide
theorem test_ill_vector :
    WellFormed (.vabs ⟨false, .n8, every, 1, 2⟩) = false ∧ WellFormed (.vadd ⟨false, .c4, every, 1, 2, 3⟩) = false ∧
    WellFormed (.vadd ⟨false, .i8, ⟨0, true, false⟩, 1, 2, 3⟩) = false ∧ WellFormed (.vmul ⟨false, .rns, every, 1, 2, 3⟩) = false ∧
    WellFormed (.vand ⟨false, .f32, every, 1, 2, 3⟩) = false ∧ WellFormed (.vnot ⟨false, .f16, every, 1, 2⟩) = false ∧
    WellFormed (.vattm ⟨false, .f16, every, 1, 2, 3⟩) = false ∧ WellFormed (.vbcast ⟨false, .i64, every, 1, 2⟩) = false ∧
    WellFormed (.vidx ⟨false, .f32, every, 1⟩) = false ∧ WellFormed (.vcmp ⟨false, .i8, .un, every, 1, 2, 3⟩) = false ∧
    WellFormed (.vcmp ⟨false, .rns, .eq, every, 1, 2, 3⟩) = false ∧
    WellFormed (.vcvt ⟨false, .bf16, .f32, 2, every, 1, 2⟩) = false ∧
    WellFormed (.vcvt ⟨false, .i64, .f32, 0, every, 1, 2⟩) = false ∧ WellFormed (.vexp2 ⟨false, .f16, every, 1, 2⟩) = false ∧
    WellFormed (.vext ⟨false, .n64, 1, 2, 3⟩) = false ∧ WellFormed (.vfma ⟨false, .i32, every, 1, 2, 3, 4⟩) = false ∧
    WellFormed (.vgath ⟨false, .c4, 0, every, 1, 2, 3⟩) = false ∧
    WellFormed (.vscat ⟨false, .f32, 0, ⟨1, false, true⟩, 1, 2, 3⟩) = false ∧ WellFormed (.vld ⟨false, .i64, 0, every, 1, 2⟩) = false ∧
    WellFormed (.vst ⟨false, .f32, 0, ⟨1, false, true⟩, 1, 2⟩) = false ∧ WellFormed (.vperm ⟨false, .c4, every, 1, 2, 3⟩) = false ∧
    WellFormed (.vred ⟨false, .f32, .xor, every, 1, 2⟩) = false ∧ WellFormed (.vred ⟨false, .rns, .min, every, 1, 2⟩) = false ∧
    WellFormed (.vred ⟨false, .f32, .add, ⟨1, false, true⟩, 1, 2⟩) = false ∧
    WellFormed (.vsel ⟨false, .f32, ⟨1, false, true⟩, 1, 2, 3⟩) = false := by decide
theorem test_ill_engine :
    WellFormed (.mma ⟨false, .i16, false, false, false, 0, 0, 1, 2, 3⟩) = false ∧ WellFormed (.ald ⟨false, .f16, 1, 2⟩) = false ∧
    WellFormed (.azero ⟨false, .i32, 1⟩) = false ∧ WellFormed (.ascale ⟨false, .bf16, 1, 2, 3, 4⟩) = false ∧
    WellFormed (.amo ⟨false, .f16, .add, 1, 2, 3⟩) = false ∧ WellFormed (.amo ⟨false, .f32, .xor, 1, 2, 3⟩) = false ∧
    WellFormed (.red ⟨false, .i32, .swap, false, false, 1, 2⟩) = false ∧
    WellFormed (.red ⟨false, .f32, .and, false, false, 1, 2⟩) = false ∧
    WellFormed (.red ⟨false, .i32, .add, false, true, 1, 2⟩) = false ∧
    WellFormed (.red ⟨false, .i64, .add, true, false, 1, 2⟩) = false ∧
    WellFormed (.red ⟨false, .f32, .add, true, false, 32, 2⟩) = false ∧
    WellFormed (.bar ⟨false, 0, 0, .none, .tile, 1, 2, 3⟩) = false ∧ WellFormed (.bar ⟨false, 0, 1, .none, .grp, 1, 2, 3⟩) = false ∧
    WellFormed (.bara ⟨false, 9, .none, .tile, 1, 2, 3⟩) = false ∧
    WellFormed (.bara ⟨false, 1, .addF32, .tile, 1, 2, 3⟩) = false ∧ WellFormed (.join ⟨false, 0, 1⟩) = false := by decide
theorem test_ill_step :
    WellFormed (.continuationDispatch 1024 0) = false ∧ WellFormed (.step 0 8) = false ∧ WellFormed (.pcMatch 0 8) = false ∧
    WellFormed (.replayWrite 1024 0 true) = false ∧ WellFormed (.hreq 1024) = false ∧ WellFormed (.haltGroupTrigger 0 32) = false ∧
    WellFormed (.systemRegisterWrite 1024 .trctl 0) = false ∧ WellFormed (.groupReset 64) = false ∧
    WellFormed (.descriptorLoad 128) = false ∧ WellFormed (.retrain ⟨64, false, 0⟩) = false ∧ WellFormed (.flowControlTotalsSend 80 0) = false ∧
    WellFormed (.flowControlTotals 0 4 0 0) = false ∧ WellFormed (.flitCrcError 80) = false ∧ WellFormed (.thermalThrottle 4) = false := by
  decide

/-! ### Words written out from the manual's encodings and examples -/

theorem test_decode_scalar :
    decode 0x400000000081_0C01 = .ok (.addR ⟨false, .i32, 2, 1, 3⟩) ∧ decode 0xFFFFFFFF_0181_1C14 = .ok (.addI ⟨false, .i64, 0xFFFFFFFF, 1, 7⟩) ∧
    decode 0x4000000000810C05 = .ok (.div ⟨false, .i32, 2, 1, 3⟩) ∧ decode 0x6000000000072010 = .ok (.clz ⟨false, .i64, 7, 8⟩) ∧
    decode 0x60000001000A2C12 = .ok (.csel ⟨false, 1, 0, 10, 11⟩) ∧ decode 0x1234567801C0081F = .ok (.li ⟨false, .n64, 0x12345678, 0, 2⟩) ∧
    decode 0x6000000000810C09 = .ok (.xorR ⟨false, .i64, 2, 1, 3⟩) := by decide +kernel
theorem test_decode_float :
    decode 0x8800000000811822 = .ok (.fmul ⟨false, true, 2, 1, 6⟩) ∧ decode 0x8000000300811023 = .ok (.ffma ⟨false, false, 3, 2, 1, 4⟩) ∧
    decode 0x8000080000810C26 = .ok (.fcmp ⟨false, false, .lt, 2, 1, 3⟩) ∧
    decode 0x4018000000021827 = .ok (.fcvt ⟨false, .el .i32, .f64, 2, 6⟩) := by decide +kernel
theorem test_decode_memory :
    decode 0x0000000600850C40 = .ok (.ld ⟨false, .i16, 6, 5, 3⟩) ∧ decode 0x0000000001852C41 = .ok (.st ⟨false, .i64, 0, 5, 11⟩) ∧
    decode 0x0000004000051042 = .ok (.mld ⟨false, 0x40, 5, 4⟩) ∧ decode 0x0000010001861044 = .ok (.mset ⟨false, .ofs, 0x100, 6, 4⟩) ∧
    decode 0x00000000003F0037 = .ok (.jalr ⟨false, 0, 63, 0⟩) := by decide +kernel
theorem test_decode_vector :
    decode 0x8000000000010860 = .ok (.vabs ⟨false, .f32, every, 1, 2⟩) ∧ decode 0x400000000081_0C7A = .ok (.vshl ⟨false, .i32, every, 2, 1, 3⟩) ∧
    decode 0x8000000001441863 = .ok (.vattm ⟨false, .f32, every, 5, 4, 6⟩) ∧ decode 0x500000000000146B = .ok (.vidx ⟨false, .n32, every, 5⟩) ∧
    decode 0x8020000000810C65 = .ok (.vcmp ⟨false, .f32, .lt, every, 2, 1, 3⟩) ∧
    decode 0x9801000000010866 = .ok (.vcvt ⟨false, .bf16, .f32, 1, every, 1, 2⟩) ∧
    decode 0x4000000000812468 = .ok (.vext ⟨false, .i32, 2, 1, 9⟩) ∧ decode 0x8000000300811069 = .ok (.vfma ⟨false, .f32, every, 3, 2, 1, 4⟩) ∧
    decode 0x8000100000831C6A = .ok (.vgath ⟨false, .f32, 16, every, 2, 3, 7⟩) ∧
    decode 0x800400000005046C = .ok (.vld ⟨false, .f32, 0x400, every, 5, 1⟩) ∧ decode 0x8000000040012476 = .ok (.vred ⟨false, .f32, .add, byP4, 1, 9⟩) ∧
    decode 0x8000000040810C79 = .ok (.vsel ⟨false, .f32, byP4, 2, 1, 3⟩) := by decide +kernel
theorem test_decode_engine :
    decode 0x94040000014408A0 = .ok (.mma ⟨false, .bf16, true, false, false, 64, 0, 5, 4, 2⟩) ∧
    decode 0xE000000000060CA1 = .ok (.ald ⟨false, .rns, 6, 3⟩) ∧ decode 0x0000000000011CA2 = .ok (.ast ⟨false, 1, 7⟩) ∧
    decode 0x80000000000004A3 = .ok (.azero ⟨false, .f32, 1⟩) ∧ decode 0x80000005010004A4 = .ok (.ascale ⟨false, .f32, 5, 4, 0, 1⟩) ∧
    decode 0x0000000102420CB0 = .ok (.cpy ⟨false, 1, 9, 2, 3⟩) ∧ decode 0x4000000002021CB2 = .ok (.amo ⟨false, .i32, .add, 8, 2, 7⟩) ∧
    decode 0x8080000002000CB3 = .ok (.red ⟨false, .f32, .add, true, false, 8, 3⟩) ∧ decode 0x00000002000024B6 = .ok (.fence ⟨.grp, 9⟩) ∧
    decode 0x00000018020400B7 = .ok (.ctradd ⟨false, 24, 8, 4⟩) ∧ decode 0x00000018020424B8 = .ok (.waitge ⟨false, 24, 8, 4, 9⟩) := by
  decide +kernel
theorem test_decode_sync :
    decode 0x0000584A00C228C0 = .ok (.bar ⟨false, 11, 0, .addF32, .grp, 3, 2, 10⟩) ∧ decode 0x0000004000021CC8 = .ok (.spawn ⟨false, 64, 2, 7⟩) ∧
    decode 0x00000001000600C9 = .ok (.join ⟨false, 1, 6⟩) ∧ decode 0x00000000008600CA = .ok (.susp ⟨false, 0, 2, 6⟩) ∧
    decode 0x00000000018330D1 = .ok (.collRun ⟨false, 0, 6, 3, 12⟩) := by decide +kernel
theorem test_decode_system :
    decode 0xE0 = .ok .nop ∧ decode 0xCB = .ok .exit ∧ decode 0xE6 = .ok .halt ∧
    decode 0x00000022000024E1 = .ok (.sysrd ⟨false, .stepc .grp, 9⟩) ∧ decode 0x00000031000400E2 = .ok (.syswr ⟨false, .fstat, 4⟩) ∧
    decode 0x00000001000508E3 = .ok (.resume ⟨false, true, false, 5, 2⟩) ∧ decode 0x00001234000000E4 = .ok (.trap 0x1234) ∧
    decode 0x0000002A000000E5 = .ok (.bkpt 0x2A) := by decide +kernel
/-- Words that are refused by name: an unassigned opcode, a nonzero reserved field, E on an instruction that is never strict,
a reserved type and a reserved system register. -/
theorem test_decode_refused :
    decode 0xFF = .error .reservedOpcode ∧ decode 0x00000000000001E0 = .error .strict ∧ decode 0x7800000000810C05 = .error .reservedField := by
  decide +kernel


/-! ### Witnesses: the scalar and vector statements -/

/-- Every register of the strand of `world` is full. -/
theorem issues_world (src dst : List SReg) (vs : List VNum) : Issues world fetchStrand { src, dst, v := vs } := by
  have hs : ∀ r, fetchStrand.full r = true := by decide +kernel
  have hv : ∀ r, fetchStrand.fullV r = true := by decide +kernel
  have hb : ∀ r, fetchStrand.bad r = false := by decide +kernel
  refine ⟨by decide +kernel, ?_, ?_⟩
  · simp [namesFull, hs, hv]
  · simp [hb]

theorem witness_IntegerSums : WellFormed (.addR ⟨false, .i32, 2, 1, 3⟩) = true ∧ WellFormed (.addI ⟨false, .n64, 1, 1, 2⟩) = true ∧
    Issues world fetchStrand { src := [1, 2], dst := [3] } ∧ Issues world fetchStrand { src := [1], dst := [2] } :=
  ⟨by decide, by decide, issues_world _ _ _, issues_world _ _ _⟩
theorem witness_IntegerDivision : WellFormed (.div ⟨false, .n64, 0, 1, 3⟩) = true ∧ Issues world fetchStrand { src := [1, 0], dst := [3] } :=
  ⟨by decide, issues_world _ _ _⟩
theorem witness_IntegerLogic : WellFormed (.xorR ⟨false, .i64, 2, 1, 0⟩) = true ∧ WellFormed (.andI ⟨false, .n32, 0xFF, 4, 5⟩) = true ∧
    Issues world fetchStrand { src := [1, 2], dst := [0] } ∧ Issues world fetchStrand { src := [4], dst := [5] } :=
  ⟨by decide, by decide, issues_world _ _ _, issues_world _ _ _⟩
theorem witness_IntegerShifts : WellFormed (.sraR ⟨false, .i32, 2, 1, 3⟩) = true ∧ WellFormed (.shlI ⟨false, .i64, 68, 1, 2⟩) = true ∧
    Issues world fetchStrand { src := [1, 2], dst := [3] } ∧ Issues world fetchStrand { src := [1], dst := [2] } :=
  ⟨by decide, by decide, issues_world _ _ _, issues_world _ _ _⟩
theorem witness_IntegerOrder : WellFormed (.minR ⟨false, .n32, 2, 1, 3⟩) = true ∧ WellFormed (.sltI ⟨false, .i64, 0, 1, 2⟩) = true ∧
    Issues world fetchStrand { src := [1, 2], dst := [3] } ∧ Issues world fetchStrand { src := [1], dst := [2] } :=
  ⟨by decide, by decide, issues_world _ _ _, issues_world _ _ _⟩
theorem witness_CountsAndConstants : WellFormed (.clz ⟨false, .n32, 7, 8⟩) = true ∧ WellFormed (.csel ⟨false, 1, 0, 10, 11⟩) = true ∧
    WellFormed (.li ⟨false, .n64, 1, 2, 2⟩) = true ∧ WellFormed (.li ⟨false, .i64, 1, 0, 2⟩) = true ∧
    Issues world fetchStrand { src := [7], dst := [8] } ∧ Issues world fetchStrand { src := [10, 0, 1], dst := [11] } ∧
    Issues world fetchStrand { src := [2], dst := [2] } :=
  ⟨by decide, by decide, by decide, by decide, issues_world _ _ _, issues_world _ _ _, issues_world _ _ _⟩
theorem witness_FloatArithmetic : WellFormed (.fadd ⟨false, true, 2, 1, 6⟩) = true ∧ WellFormed (.ffma ⟨false, false, 3, 2, 1, 4⟩) = true ∧
    WellFormed (.fcmp ⟨false, false, .un, 2, 1, 3⟩) = true ∧ Issues world fetchStrand { src := [1, 2], dst := [6] } ∧
    Issues world fetchStrand { src := [1, 2, 3], dst := [4] } :=
  ⟨by decide, by decide, by decide, issues_world _ _ _, issues_world _ _ _⟩

/-- The team and the vtile of the strand of `world`. -/
theorem serves_world : Serves world fetchStrand (newTeam (packetOf 0 2) 0 0 0 0x100000 [0, 1] []) (newVtile 0 0) ∧
    (newVtile 0 0).div = .resident ∧ ∀ v, world.vtile? fetchStrand.team fetchStrand.lrank = some v → v.div = .resident := by
  have h : world.vtile? fetchStrand.team fetchStrand.lrank = some (newVtile 0 0) := by decide +kernel
  refine ⟨⟨by decide +kernel, h⟩, rfl, ?_⟩
  intro v hv
  rw [h] at hv; cases hv; rfl

theorem witness_FloatConversion : WellFormed (.fcvt ⟨false, .el .i32, .f64, 2, 6⟩) = true ∧
    Issues world fetchStrand { src := [2], dst := [6] } := ⟨by decide, issues_world _ _ _⟩
theorem witness_Branches : Issues world fetchStrand { src := [1, 2] } := issues_world _ _ _
theorem witness_Jumps : Issues world fetchStrand { dst := [63] } ∧ Issues world fetchStrand { src := [1], dst := [63] } ∧
    (fetchStrand.rd 1 + (8 : BitVec 32).signExtend 64).toNat % 8 = 0 ∧
    (fetchStrand.rd 1 + (4 : BitVec 32).signExtend 64).toNat % 8 ≠ 0 :=
  ⟨issues_world _ _ _, issues_world _ _ _, by decide +kernel, by decide +kernel⟩

/-- No watchpoint and no trace of `world` is enabled, and its memory is canonical. -/
theorem world_plain : Unwatched world ∧ Untraced world ∧ world.ok := by
  unfold State.ok; decide +kernel

theorem witness_Loads : WellFormed (.ld ⟨false, .n64, 0x7FFF8, 5, 3⟩) = true ∧ Issues world fetchStrand { src := [5], dst := [3] } ∧
    InStore (fetchStrand.rd 5 + (0x7FFF8 : BitVec 32).signExtend 64) 8 8 ∧ world.anyPoison (storeKey world.at_.1 0x7FFF8) 8 = false ∧
    Issues world fetchStrand { src := [5] } ∧ InStore (fetchStrand.rd 5 + (0x7FFE0 : BitVec 32).signExtend 64) 32 32 ∧
    world.anyPoison (storeKey world.at_.1 0x7FFE0) 32 = false :=
  ⟨by decide, issues_world _ _ _, by decide +kernel, by decide +kernel, issues_world _ _ _, by decide +kernel, by decide +kernel⟩
theorem witness_Stores : WellFormed (.st ⟨false, .i8, 0x7FFFF, 5, 11⟩) = true ∧ Issues world fetchStrand { src := [5, 11] } ∧
    InStore (fetchStrand.rd 5 + (0x7FFFF : BitVec 32).signExtend 64) 1 1 ∧ Issues world fetchStrand { src := [5] } ∧
    InStore (fetchStrand.rd 5 + (0 : BitVec 32).signExtend 64) 32 32 :=
  ⟨by decide, issues_world _ _ _, by decide +kernel, issues_world _ _ _, by decide +kernel⟩
theorem witness_TileStoreFaults : WellFormed (.ld ⟨false, .i16, 0x7FFFF, 5, 3⟩) = true ∧ Issues world fetchStrand { src := [5], dst := [3] } ∧
    ¬ InStore (fetchStrand.rd 5 + (0x7FFFF : BitVec 32).signExtend 64) 2 2 ∧ WellFormed (.st ⟨false, .i16, 0x80000, 5, 3⟩) = true ∧
    Issues world fetchStrand { src := [5, 3] } ∧ ¬ InStore (fetchStrand.rd 5 + (0x80000 : BitVec 32).signExtend 64) 2 2 ∧
    Issues world fetchStrand { src := [5] } ∧ ¬ InStore (fetchStrand.rd 5 + (16 : BitVec 32).signExtend 64) 32 32 :=
  ⟨by decide, issues_world _ _ _, by decide +kernel, by decide, issues_world _ _ _, by decide +kernel, issues_world _ _ _,
    by decide +kernel⟩
theorem witness_ShapesAndPredicates : Issues world fetchStrand { src := [6] } ∧ Issues world fetchStrand {} ∧
    WellFormed (.pset ⟨false, .f32, 7, 3⟩) = true ∧ Issues world fetchStrand { src := [7] } :=
  ⟨issues_world _ _ _, issues_world _ _ _, by decide, issues_world _ _ _⟩

theorem witness_VectorArithmetic : WellFormed (.vadd ⟨false, .rns, byP4, 2, 1, 3⟩) = true ∧ WellFormed (.vneg ⟨false, .i8, every, 1, 2⟩) = true ∧
    Issues world fetchStrand { v := [1, 2, 3] } ∧ Issues world fetchStrand { v := [1, 2] } :=
  ⟨by decide, by decide, issues_world _ _ _, issues_world _ _ _⟩
theorem witness_VectorLogic : WellFormed (.vsra ⟨false, .n8, byP4, 2, 1, 3⟩) = true ∧ WellFormed (.vnot ⟨false, .i32, every, 1, 2⟩) = true ∧
    Issues world fetchStrand { v := [1, 2, 3] } ∧ Issues world fetchStrand { v := [1, 2] } :=
  ⟨by decide, by decide, issues_world _ _ _, issues_world _ _ _⟩
theorem witness_VectorFunctions : WellFormed (.vfma ⟨false, .e5m2, every, 3, 2, 1, 4⟩) = true ∧
    WellFormed (.vexp2 ⟨false, .f32, every, 1, 2⟩) = true ∧ WellFormed (.vattm ⟨false, .f32, byP4, 5, 4, 6⟩) = true ∧
    Issues world fetchStrand { v := [1, 2, 3, 4] } ∧ Issues world fetchStrand { v := [1, 2] } ∧ Issues world fetchStrand { v := [4, 5, 6] } :=
  ⟨by decide, by decide, by decide, issues_world _ _ _, issues_world _ _ _, issues_world _ _ _⟩
theorem witness_VectorMoves : WellFormed (.vbcast ⟨false, .rns, every, 4, 1⟩) = true ∧ WellFormed (.vidx ⟨false, .n8, every, 5⟩) = true ∧
    WellFormed (.vperm ⟨false, .f16, every, 2, 1, 3⟩) = true ∧ WellFormed (.vsel ⟨false, .rns, byP4, 2, 1, 3⟩) = true ∧
    WellFormed (.vext ⟨false, .i8, 2, 1, 9⟩) = true ∧ Issues world fetchStrand { src := [4], v := [1] } ∧
    Issues world fetchStrand { v := [5] } ∧ Issues world fetchStrand { v := [1, 2, 3] } ∧
    Issues world fetchStrand { src := [2], dst := [9], v := [1] } :=
  ⟨by decide, by decide, by decide, by decide, by decide, issues_world _ _ _, issues_world _ _ _, issues_world _ _ _, issues_world _ _ _⟩
theorem witness_VectorTests : WellFormed (.vcmp ⟨false, .f32, .un, byP4, 2, 1, 3⟩) = true ∧ Issues world fetchStrand { v := [1, 2] } ∧
    WellFormed (.vred ⟨false, .rns, .add, byP4, 1, 9⟩) = true ∧ Issues world fetchStrand { dst := [9], v := [1] } ∧
    WellFormed (.vred ⟨false, .n8, .add, byP4, 1, 9⟩) = true ∧ Fmt.n8.isLaneInt = true :=
  ⟨by decide, issues_world _ _ _, by decide, issues_world _ _ _, by decide, by decide⟩
theorem witness_VectorConversion : WellFormed (.vcvt ⟨false, .i8, .f32, 3, byP4, 1, 2⟩) = true ∧
    WellFormed (.vcvt ⟨false, .f32, .i8, 3, byP4, 1, 2⟩) = true ∧ Issues world fetchStrand { v := [1, 2] } :=
  ⟨by decide, by decide, issues_world _ _ _⟩
theorem witness_VectorMemory : WellFormed (.vld ⟨false, .f32, 0x7FF00, every, 5, 1⟩) = true ∧ WellFormed (.vst ⟨false, .i8, 0x7FF00, byP4, 5, 1⟩) = true ∧
    Issues world fetchStrand { src := [5], v := [1] } ∧ InStore (vectorAddress ⟨false, .f32, 0x7FF00, every, 5, 1⟩ fetchStrand) 256 256 ∧
    (∀ i, i < 64 → laneOn fetchStrand every i = true → world.anyPoison (storeKey world.at_.1 (0x7FF00 + i * 4)) 4 = false) :=
  ⟨by decide, by decide, issues_world _ _ _, by decide +kernel, by decide +kernel⟩
theorem witness_GatherScatter :
    let k := withRegs [(3, 0x7FF00)]
    let f : VgsV := ⟨false, .f32, 0xFC, every, 2, 3, 7⟩
    WellFormed (.vgath f) = true ∧ WellFormed (.vscat f) = true ∧ Issues (world.put k) k { src := [3], v := [2, 7] } ∧
    ∀ i, Moves f k i → InStore (laneAddress f k i) 4 4 ∧
      (world.put k).anyPoison (storeKey (world.put k).at_.1 (laneAddress f k i).toNat) 4 = false := by
  refine ⟨by decide, by decide, by decide +kernel, ?_⟩
  have h : ∀ i, i < 64 → InStore (laneAddress ⟨false, .f32, 0xFC, every, 2, 3, 7⟩ (withRegs [(3, 0x7FF00)]) i) 4 4 ∧
      (world.put (withRegs [(3, 0x7FF00)])).anyPoison (storeKey (world.put (withRegs [(3, 0x7FF00)])).at_.1
        (laneAddress ⟨false, .f32, 0xFC, every, 2, 3, 7⟩ (withRegs [(3, 0x7FF00)]) i).toNat) 4 = false := by decide +kernel
  exact fun i hi => h i hi.1

/-- The team of `world`. -/
abbrev worldTeam : Team := newTeam (packetOf 0 2) 0 0 0 0x100000 [0, 1] []


/-! ### The matrix unit (R117, R124 to R126, R133 to R141, R301 to R314) -/

/-- A shape record of two dimensions (R128). -/
def shape (space fmt vt hnd ofs e0 e1 s0 s1 : Nat) : Shape :=
  BitVec.ofNat 256 (pack [3, 4, 1, 2, 6, 16, 32, 40, 16, 16, 16, 16, 24, 24, 24, 16]
    [space, fmt, 0, 0, 0, vt, hnd, ofs, e0, e1, 1, 1, s1, 0, 0, s0])

/-- A is 1 × 2, B is 2 × 1, both f32; m6 is A as an accumulator record, m7 a place for one element. -/
def matStrand : Strand :=
  ((((withVecs [(4, vec 32 [0x40000000]), (5, vec 32 [0x40400000])]).wrM 4 (shape 0 8 0 0 0x100 2 1 1 2)).wrM 5
    (shape 0 8 0 0 0x200 1 2 1 1)).wrM 6 (shape 0 8 0 0 0x100 2 1 1 2)).wrM 7 (shape 0 8 0 0 0x300 1 1 1 1)

/-- A holds 1.0 and 2.0, B holds 3.0 and 4.0. -/
def matWorld : State :=
  ((world.put matStrand).update (storeKey 0 0x100) (bytesOf 4 0x3F800000 ++ bytesOf 4 0x40000000)).update (storeKey 0 0x200)
    (bytesOf 4 0x40400000 ++ bytesOf 4 0x40800000)

/-- `MMA.f32.ad a2, m4, m5`. -/
def mmaF : MmaM := ⟨false, .f32, true, false, false, 0, 0, 5, 4, 2⟩
/-- The MMA issued, started, streamed and complete. -/
def mma1 : State := after (.mma mmaF) matWorld
def mma2 : State := after (.matrixQueueStart 0) mma1
def mma3 : State := after (.mmaKBlock 0) mma2
def mma4 : State := after (.mmaComplete 0) mma3
/-- An accumulator of vtile 0: element (i, j), tag and full bit. -/
def accOf (s : State) (a : ANum) (i j : Nat) : Option (Nat × Bool × Bool) :=
  (s.vtile? 1 0).map fun v => ((v.accs.get a).elem i j, (v.accs.get a).rns, (v.accs.get a).full)
/-- Entries of the matrix queue of vtile 0. -/
def queueOf (s : State) : Option Nat := (s.vtile? 1 0).map (·.mq.length)

theorem test_mma : (accOf mma1 2 0 0, queueOf mma1, mma1.strand?.map (·.pc)) = (some (0, false, false), some 1, some 8) := by
  decide +kernel
theorem test_matrix_queue_start : (mma2.vtile? 1 0).map (·.mq.map (·.started)) = some [true] := by decide +kernel
/-- 1.0 × 3.0 + 2.0 × 4.0 = 11.0. -/
theorem test_mma_k_block : accOf mma3 2 0 0 = some (0x41300000, false, false) := by decide +kernel
theorem test_mma_complete : (accOf mma4 2 0 0, queueOf mma4, (mma4.team? 1).map (·.acct[0])) =
    (some (0x41300000, false, true), some 0, some 2) := by decide +kernel

/-- `ALD.f32 a3, m6`, started and complete. -/
def aldF : AldM := ⟨false, .f32, 6, 3⟩
def ald2 : State := after (.matrixQueueStart 0) (after (.ald aldF) matWorld)
theorem test_ald : accOf (after (.ald aldF) matWorld) 3 0 0 = some (0, false, false) := by decide +kernel
theorem test_ald_complete : (accOf (after (.aldComplete 0) ald2) 3 0 1, accOf (after (.aldComplete 0) ald2) 3 1 0) =
    (some (0x40000000, false, true), some (0, false, true)) := by decide +kernel

theorem test_azero : (accOf (after (.azero ⟨false, .rns, 2⟩) mma4) 2 0 0, queueOf (after (.azero ⟨false, .rns, 2⟩) mma4)) =
    (some (0x41300000, true, true), some 1) := by decide +kernel
theorem test_azero_start : (let s := after (.matrixQueueStart 0) (after (.azero ⟨false, .f32, 2⟩) mma4); (accOf s 2 0 0, queueOf s)) =
    (some (0, false, true), some 0) := by decide +kernel

/-- `ASCALE.f32 a1, a2, v4, v5`, started: 11.0 × 2.0 × 3.0. -/
def ascaleF : AscaleM := ⟨false, .f32, 5, 4, 2, 1⟩
def ascale2 : State := after (.matrixQueueStart 0) (after (.ascale ascaleF) mma4)
theorem test_ascale : queueOf (after (.ascale ascaleF) mma4) = some 1 := by decide +kernel
theorem test_ascale_complete : accOf (after (.ascaleComplete 0) ascale2) 1 0 0 = some (0x42840000, false, true) := by decide +kernel
/-- A destination whose tag is rns raises 0x10 (R310). -/
theorem test_ascale_tag : (causeAt (.ascale ⟨false, .f32, 5, 4, 1, 2⟩) (after (.matrixQueueStart 0)
    (after (.azero ⟨false, .rns, 2⟩) mma4))) = 0x10 := by decide +kernel

theorem test_ast : (after (.ast ⟨false, 2, 7⟩) mma4).mem.num (storeKey 0 0x300) 4 = 0x41300000 := by decide +kernel
/-- AST waits for a queued ASCALE into its accumulator (R312). -/
theorem test_ast_waits : (after (.ast ⟨false, 1, 7⟩) ascale2).strand?.map (·.wait) = some .limit := by decide +kernel
theorem test_cbld : ((after (.cbld ⟨false, 0x100, 0, 1⟩) matWorld).vtile? 1 0).map (fun v => (v.curB, (v.cbs.toList.getD 3 0).toNat)) =
    some (1, 0x400000003F800000) := by decide +kernel

/-- A store to the operands of an MMA between its first read and its completion leaves the outputs undefined (R137): the element
is a free value, and bytes that are written back do not mend it. -/
theorem test_mma_race : (let s := after (.st ⟨false, .i32, 0x100, 0, 0⟩) mma2
    (s.vtile? 1 0).map (·.mq.map (·.touched.isEmpty))) = some [false] := by decide +kernel
/-- An offset of an accumulator record that is no multiple of 4 is misaligned, whatever its format (R304). -/
theorem test_ald_misaligned : (causeAt (.ald ⟨false, .rns, 6, 3⟩) (matWorld.put (matStrand.wrM 6 (shape 0 2 0 0 0x102 2 1 1 2)))) = 0x20 := by
  decide +kernel

theorem witness_MatrixIssue :
    WellFormed (.mma mmaF) = true ∧ Issues matWorld matStrand { a := mmaWaits matWorld mmaF.d } ∧
    Serves matWorld matStrand (newTeam (packetOf 0 2) 0 0 0 0x100000 [0, 1] []) (newVtile 0 0) ∧
    checkAll matWorld (newTeam (packetOf 0 2) 0 0 0 0x100000 [0, 1] []) [matOpd (matStrand.rdM 4) .r, matOpd (matStrand.rdM 5) .r] = .ok () ∧
    mmaAOk mmaF (matStrand.rdM 4) (matStrand.rdM 5) = true ∧ mmaBOk mmaF (matStrand.rdM 5) = true ∧
    WellFormed (.ald aldF) = true ∧ Issues matWorld matStrand { a := [3] } ∧ accShapeOk (matStrand.rdM 6) = true ∧
    checkAll matWorld (newTeam (packetOf 0 2) 0 0 0 0x100000 [0, 1] []) [accOpd (matStrand.rdM 6) .r] = .ok () ∧
    shFmt (matStrand.rdM 6) = Fmt.f32.code ∧ WellFormed (.azero ⟨false, .rns, 3⟩) = true ∧ WellFormed (.ascale ascaleF) = true ∧
    Issues matWorld matStrand { a := [2, 1], v := [4, 5] } ∧ ((newVtile 0 0).accs.get 1).rns = false ∧
    ((newVtile 0 0).accs.get 2).rns = (Fmt.f32 == .rns) ∧ (newVtile 0 0).mq.length < 16 := by decide +kernel

/-- A vtile whose accumulator 2 is tagged rns, and one whose matrix queue is full. -/
def rnsVtile : Vtile := (newVtile 0 0).onAcc 2 fun x => { x with rns := true }
def fullVtile : Vtile := { newVtile 0 0 with
  mq := List.replicate 16 ⟨.azero .f32, 1, ⟨1, 0, 0, 0, 0, 0, 0, 0⟩, false, 0, 0, 0, []⟩ }
/-- `matWorld` with vtile 0 as given, and the words of an MMA without AD and of an AST into a place for an element of a format. -/
def matWith (v : Vtile) : State := matWorld.putVtile 1 0 v
def mmaSum : MmaM := { mmaF with ad := false }
def astStrand (fmt : Nat) : Strand := matStrand.wrM 7 (shape 0 fmt 0 0 0x300 1 1 1 1)
theorem witness_MatrixRefusals :
    (WellFormed (.mma mmaSum) = true ∧ Issues (matWith rnsVtile) matStrand { a := mmaWaits (matWith rnsVtile) mmaSum.d } ∧
      Serves (matWith rnsVtile) matStrand worldTeam rnsVtile ∧
      checkAll (matWith rnsVtile) worldTeam [matOpd (matStrand.rdM 4) .r, matOpd (matStrand.rdM 5) .r] = .ok () ∧
      mmaAOk mmaSum (matStrand.rdM 4) (matStrand.rdM 5) = true ∧ mmaBOk mmaSum (matStrand.rdM 5) = true ∧
      (rnsVtile.accs.get 2).rns ≠ needsRns .f32) ∧
    (Issues (matWith fullVtile) matStrand { a := mmaWaits (matWith fullVtile) mmaSum.d } ∧ (fullVtile.accs.get 2).rns = needsRns .f32 ∧
      checkAll (matWith fullVtile) worldTeam [matOpd (matStrand.rdM 4) .r, matOpd (matStrand.rdM 5) .r] = .ok ()) ∧
    (Issues (matWith rnsVtile) matStrand { a := [1, 2], v := [4, 5] } ∧ (rnsVtile.accs.get 2).rns = true ∧
      Issues (matWith fullVtile) matStrand { a := [2, 1], v := [4, 5] } ∧ (fullVtile.accs.get 1).rns = false ∧
      (fullVtile.accs.get 2).rns = (Fmt.f32 == .rns)) ∧
    (Issues (matWorld.put (astStrand 14)) (astStrand 14) { a := [2] } ∧
      checkAll (matWorld.put (astStrand 14)) worldTeam [accOpd ((astStrand 14).rdM 7) .w] = .ok () ∧
      accShapeOk ((astStrand 14).rdM 7) = true ∧ shFmt ((astStrand 14).rdM 7) ≠ 8) ∧
    (Serves (matWith fullVtile) matStrand worldTeam fullVtile ∧ fullVtile.mq.length = 16 ∧
      Issues (matWith fullVtile) matStrand { a := [3] } ∧ accShapeOk (matStrand.rdM 6) = true ∧
      checkAll (matWith fullVtile) worldTeam [accOpd (matStrand.rdM 6) .r] = .ok () ∧ shFmt (matStrand.rdM 6) = Fmt.f32.code ∧
      Issues (matWith fullVtile) matStrand { src := [0] } ∧
      InStore (matStrand.rd 0 + (0x100 : BitVec 32).signExtend 64) 16 16 ∧ (matWith fullVtile).anyPoison (storeKey 0 0x100) 16 = false) := by
  decide +kernel
theorem witness_MatrixLoadsAndStores :
    WellFormed (.cbld ⟨false, 0x7FFF0, 0, 1⟩) = true ∧ Issues matWorld matStrand { src := [0] } ∧
    InStore (matStrand.rd 0 + (0x7FFF0 : BitVec 32).signExtend 64) 16 16 ∧ matWorld.anyPoison (storeKey matWorld.at_.1 0x7FFF0) 16 = false ∧
    WellFormed (.ast ⟨false, 2, 7⟩) = true ∧ Issues matWorld matStrand { a := [2] } ∧
    checkAll matWorld (newTeam (packetOf 0 2) 0 0 0 0x100000 [0, 1] []) [accOpd (matStrand.rdM 7) .w] = .ok () ∧
    accShapeOk (matStrand.rdM 7) = true ∧ shFmt (matStrand.rdM 7) = (if ((newVtile 0 0).accs.get 2).rns then 14 else 8) ∧
    (∀ e ∈ (newVtile 0 0).mq, e.writes 2 = false) ∧ matWorld.ok ∧ (newVtile 0 0).mq.length < 16 := by
  unfold State.ok; decide +kernel
/-- Vtile 0 and the front of its matrix queue. -/
def frontOf (s : State) : Vtile × MEntry :=
  match s.vtile? 1 0 with
  | some v => (v, v.mq.headD ⟨.cbld, 0, ⟨0, 0, 0, 0, 0, 0, 0, 0⟩, false, 0, 0, 0, []⟩)
  | none => (newVtile 0 0, ⟨.cbld, 0, ⟨0, 0, 0, 0, 0, 0, 0, 0⟩, false, 0, 0, 0, []⟩)
theorem witness_MatrixSteps :
    (∃ v e, (after (.azero ⟨false, .f32, 2⟩) mma4).standing 0 = some (1, 0, v) ∧ v.mq = [] ++ e :: [] ∧ e.started = false ∧
      v.stopped = none ∧ e.op = .azero .f32) ∧
    (∃ v e, mma2.standing 0 = some (1, 0, v) ∧ v.mq = [] ++ e :: [] ∧ e.op = .mma mmaF (matStrand.rdM 4) (matStrand.rdM 5) false ∧
      e.started = true ∧ e.kdone < shE (matStrand.rdM 5) 1 ∧ v.stopped = none ∧ (mma2.tile 0).fenced = false ∧ mma2.poison = [] ∧
      (mmaDims mmaF (matStrand.rdM 4) (matStrand.rdM 5)).1 ≤ 64 ∧ (mmaDims mmaF (matStrand.rdM 4) (matStrand.rdM 5)).2.1 ≤ 64) ∧
    (∃ v e, mma3.standing 0 = some (1, 0, v) ∧ v.mq = e :: [] ∧ e.op = .mma mmaF (matStrand.rdM 4) (matStrand.rdM 5) false ∧
      e.started = true ∧ shE (matStrand.rdM 5) 1 ≤ e.kdone ∧ (mma3.tile 0).fenced = false ∧
      e.touched = []) ∧
    (∃ v e, ald2.standing 0 = some (1, 0, v) ∧ v.mq = e :: [] ∧ e.op = .ald .f32 (matStrand.rdM 6) ∧ e.started = true ∧
      ald2.poison = [] ∧ (ald2.tile 0).fenced = false ∧ shFormat (matStrand.rdM 6) = .f32 ∧
      e.touched = []) ∧
    (∃ v e, ascale2.standing 0 = some (1, 0, v) ∧ v.mq = e :: [] ∧
      e.op = .ascale .f32 2 (matStrand.rdV 4) (matStrand.rdV 5) ∧ e.started = true ∧ (ascale2.tile 0).fenced = false) := by
  refine ⟨⟨(frontOf (after (.azero ⟨false, .f32, 2⟩) mma4)).1, (frontOf (after (.azero ⟨false, .f32, 2⟩) mma4)).2, ?_⟩, ⟨(frontOf mma2).1, (frontOf mma2).2, ?_⟩, ⟨(frontOf mma3).1, (frontOf mma3).2, ?_⟩, ⟨(frontOf ald2).1, (frontOf ald2).2, ?_⟩, ⟨(frontOf ascale2).1, (frontOf ascale2).2, ?_⟩⟩ <;> decide +kernel


/-! ### Copies, AMOs, REDs, counters (R63 to R101, R142 to R150, R306, R351) -/

/-- m2: two f32 of group SRAM; m3: two f32 of the tile store; m4: two more of group SRAM; m5: one n32 of group SRAM; m7 and m8: an i64 here
and in the tile store of vtile 1; s9 names the counter at 0x400 of vtile 0. -/
def cpyStrand : Strand :=
  (((((((withRegs [(9, 0x400), (10, 7)]).wrM 2 (shape 2 8 0 grpHandle 0 2 1 1 2)).wrM 3 (shape 0 8 0 0 0x100 2 1 1 2)).wrM 4
    (shape 2 8 0 grpHandle 0x40 2 1 1 2)).wrM 5 (shape 2 5 0 grpHandle 8 1 1 1 1)).wrV 4 (vec 32 [0x3F800000, 0x40000000])).wrM 7
    (shape 0 6 0 0 0x200 1 1 1 1)).wrM 8 (shape 1 6 1 0 0x300 1 1 1 1)

/-- The key of a byte of group SRAM. -/
def grpKey (o : Nat) : Nat := world.operandKey worldTeam 0 (cpyStrand.rdM 2) o

/-- Group SRAM begins with eight bytes, then the n32 value 5, which stands in HBM too. -/
def cpyWorld : State := ((world.put cpyStrand).update (grpKey 0) (bytesOf 8 0x1122334455667788 ++ bytesOf 4 5)).update
  (hbmKey 0x4008) (bytesOf 4 5)
abbrev cpyF : CpyC := ⟨false, 5, 9, 2, 3⟩
abbrev cpyaF : CpyaC := ⟨false, .swap, 5, 9, 7, 8⟩
abbrev amoF : AmoC := ⟨false, .n32, .add, 10, 5, 11⟩
abbrev redF : RedC := ⟨false, .f32, .add, true, false, 4, 4⟩
def cpy1 : State := after (.cpy cpyF) cpyWorld
def cpy2 : State := after (.copyChunk 1) cpy1
def cpy3 : State := after (.landing 2) cpy2
def cpy4 : State := after (.counterIncrement 3) cpy3
def amo1 : State := after (.amo amoF) cpyWorld
def amo2 : State := after (.amoPerform 1) amo1
def amo3 : State := after (.amoFill 2) amo2
def red1 : State := after (.red redF) cpyWorld
def red2 : State := after (.redAccept 1) red1
def stat1 : State := after (.collStat ⟨false, 10, 11⟩) cpyWorld
/-- A deferred copy to group SRAM. -/
def defer1 : State := after (.cpy ⟨false, 5, 9, 3, 4⟩) cpyWorld

/-- One whose source stands on die 1, when the link from there takes no flit. -/
def deferFar : State :=
  { after (.cpy ⟨false, 5, 9, 3, 4⟩) { cpyWorld.put (cpyStrand.wrM 3 (shape 1 8 1 0 0x100 2 1 1 2)) with
      vtiles := [(vtileKey 1 0, newVtile 0 0), (vtileKey 1 1, { newVtile 1 1 with ptile := 256 })] } with
    credits := [(8 * 72, ⟨64, 0, 0, 0⟩)] }

theorem test_cpy : (cpy1.strand?.map (·.pc), cpy1.copies.map (·.1), cpy1.mem.num (storeKey 0 0x100) 8) = (some 8, [1], 0) := by
  decide +kernel
theorem test_copy_chunk : (cpy2.landings.map (·.1), cpy2.copies.map (·.2.chunk)) = ([2], [1]) := by decide +kernel
theorem test_landing : (cpy3.mem.num (storeKey 0 0x100) 8, cpy3.mem.num (storeKey 0 0x108) 8, cpy3.copies.length) =
    (0x1122334455667788, 0, 0) := by decide +kernel
/-- A counter of vtile 0 receives the amount once the bytes have landed (R97). -/
theorem test_counter_increment : (cpy3.mem.num (storeKey 0 0x400) 8, cpy4.mem.num (storeKey 0 0x400) 8) = (0, 5) := by
  decide +kernel
theorem test_deferred_copy : (defer1.copies.map (·.2.step), (after (.copyChunk 1) defer1).copies.map (·.2.accepted)) =
    ([some (.grp, 0)], [true]) := by decide +kernel
theorem test_cpya_swap : (after (.cpya cpyaF) cpyWorld).copies.map (·.2.op) = [some .swap] := by decide +kernel
/-- A swap whose source names the issuer's own store in space 1 (R57, R149). -/
def ownSwap : Strand := cpyStrand.wrM 7 (shape 1 6 0 0 0x200 1 1 1 1)
theorem test_cpya_own : (after (.cpya cpyaF) (cpyWorld.put ownSwap)).copies.length = 1 := by decide +kernel
/-- CPYA to host memory raises 0x25 (R147). -/
theorem test_cpya_host : (causeAt (.cpya ⟨false, .add, 5, 9, 7, 8⟩)
    (cpyWorld.put (cpyStrand.wrM 8 (shape 6 6 0 hbmHandle 0 1 1 1 1)))) = 0x25 := by decide +kernel
theorem test_amo : amo1.strand?.map (fun k => (k.pc, k.full 11, k.full 10)) = some (8, false, true) := by decide +kernel
/-- The home updates the live value and leaves the committed one (R76). -/
theorem test_amo_perform : (amo2.liveNum (grpKey 8) 4, amo2.mem.num (grpKey 8) 4, amo2.amos.length) = (12, 5, 0) := by
  decide +kernel
theorem test_amo_fill : amo3.strand?.map (fun k => (k.rd 11, k.full 11)) = some (5, true) := by decide +kernel
theorem test_red : (red1.reds.map (·.2.accepted), red1.strand?.map (·.pc)) = ([false], some 8) := by decide +kernel
theorem test_red_accept : red2.reds.map (·.2.accepted) = [true] := by decide +kernel
theorem test_fence_waits : (after (.fence ⟨.grp, 12⟩) red1).strand?.map (fun k => (k.wait, k.pc)) = some (.fence, 8) := by
  decide +kernel
theorem test_fence : (after (.fence ⟨.grp, 12⟩) red2).strand?.map (fun k => (k.wait, k.pc, k.rd 12)) = some (.none, 16, 0) := by
  decide +kernel
theorem test_ctradd : (after (.ctradd ⟨false, 0x3F8, 10, 0⟩) cpyWorld).mem.num (storeKey 0 0x3F8) 8 = 7 := by decide +kernel
theorem test_ctradd_saturates :
    let s := after (.ctradd ⟨false, 0x3F8, 10, 0⟩) (cpyWorld.update (storeKey 0 0x3F8) (List.replicate 8 0xFF))
    (s.mem.num (storeKey 0 0x3F8) 8, causeOf s, (s.vtile? 1 0).map (·.fstat)) = (2 ^ 64 - 1, 0x60, some 0x20) := by
  decide +kernel
/-- A ST lowers a counter that an increment can still reach (R386). -/
def lowered1 (v : Word) : State := after (.st ⟨false, .i64, 0x400, 0, 10⟩)
  { (cpyWorld.put (cpyStrand.wr 10 v)).update (storeKey 0 0x400) (bytesOf 8 9) with
    incs := [(9, ⟨cpyWorld.issuerOf cpyStrand 0, 0, 0x400, 1, false⟩)] }
theorem test_lowered : ((lowered1 7).loweredAt cpyStrand 0x400, (lowered1 7).mem.num (storeKey 0 0x400) 8,
    (lowered1 10).loweredAt cpyStrand 0x400) = (true, 7, false) := by decide +kernel
theorem test_waitge : ((after (.waitge ⟨false, 0x3F8, 10, 0, 12⟩) cpyWorld).strand?.map (·.wait),
    (after (.waitge ⟨false, 0x400, 9, 0, 12⟩) (cpyWorld.update (storeKey 0 0x400) (bytesOf 8 0x400))).strand?.map (·.rd 12)) =
    (some (.waitge 0x3F8 7 ⟨false, 0x3F8, 10, 0, 12⟩), some 0x400) := by decide +kernel


theorem witness_CopyIssue :
    WellFormed (.cpy cpyF) = true ∧ Issues cpyWorld cpyStrand { src := [9] } ∧ Serves cpyWorld cpyStrand worldTeam (newVtile 0 0) ∧
    (newVtile 0 0).div = .resident ∧
    checkAll cpyWorld worldTeam [copyOpd (cpyStrand.rdM 2) .r, copyOpd (cpyStrand.rdM 3) .w] (cpyStrand.rd 9) = .ok () ∧
    shapeOk (cpyStrand.rdM 2) = true ∧ shUnf (cpyStrand.rdM 2) = false ∧ shapeOk (cpyStrand.rdM 3) = true ∧
    shUnf (cpyStrand.rdM 3) = false ∧ ctrBad (cpyStrand.rd 9) = false ∧ shCount (cpyStrand.rdM 2) = shCount (cpyStrand.rdM 3) ∧
    shFmt (cpyStrand.rdM 2) = shFmt (cpyStrand.rdM 3) ∧ c4Even (cpyStrand.rdM 2) = true ∧ c4Even (cpyStrand.rdM 3) = true ∧
    cpyWorld.copiesOf cpyWorld.at_.1 < 32 ∧ shSpace (cpyStrand.rdM 3) < 2 ∧ 2 ≤ shSpace (cpyStrand.rdM 2) ∧ shSpace (cpyStrand.rdM 2) ≠ 5 ∧ 2 ≤ shSpace (cpyStrand.rdM 4) ∧
    checkAll cpyWorld worldTeam [copyOpd (cpyStrand.rdM 3) .r, copyOpd (cpyStrand.rdM 4) .w] (cpyStrand.rd 9) = .ok () ∧
    WellFormed (.cpya cpyaF) = true ∧ shSpace (cpyStrand.rdM 8) ≠ 6 ∧
    checkAll cpyWorld worldTeam [copyOpd (cpyStrand.rdM 7) .r, copyOpd (cpyStrand.rdM 8) .a] (cpyStrand.rd 9) = .ok () ∧
    shapeOk (cpyStrand.rdM 7) = true ∧ shUnf (cpyStrand.rdM 7) = false ∧ shapeOk (cpyStrand.rdM 8) = true ∧
    shUnf (cpyStrand.rdM 8) = false ∧ shCount (cpyStrand.rdM 7) = shCount (cpyStrand.rdM 8) ∧
    shFmt (cpyStrand.rdM 7) = shFmt (cpyStrand.rdM 8) ∧ c4Even (cpyStrand.rdM 7) = true ∧ c4Even (cpyStrand.rdM 8) = true ∧
    cpyaOk .swap (shFormat (cpyStrand.rdM 8)) = true ∧ elemAligned (cpyStrand.rdM 8) = true ∧ shSpace (cpyStrand.rdM 7) = 0 ∧
    shSpace (cpyStrand.rdM 8) ≤ 1 ∧ Issues (cpyWorld.put ownSwap) ownSwap { src := [9] } ∧ shSpace (ownSwap.rdM 7) = 1 ∧
    shVt (ownSwap.rdM 7) = ownSwap.lrank ∧ shapeOk (ownSwap.rdM 7) = true ∧
    checkAll (cpyWorld.put ownSwap) worldTeam [copyOpd (ownSwap.rdM 7) .r, copyOpd (ownSwap.rdM 8) .a] (ownSwap.rd 9) = .ok () := by
  decide +kernel
theorem witness_AtomicIssue :
    WellFormed (.amo amoF) = true ∧ Issues cpyWorld cpyStrand { src := [10], dst := [11] } ∧
    Serves cpyWorld cpyStrand worldTeam (newVtile 0 0) ∧ 2 ≤ shSpace (cpyStrand.rdM 5) ∧
    checkAll cpyWorld worldTeam [copyOpd (cpyStrand.rdM 5) .a] = .ok () ∧ shapeOk (cpyStrand.rdM 5) = true ∧
    shUnf (cpyStrand.rdM 5) = false ∧ shCount (cpyStrand.rdM 5) = 1 ∧ shFmt (cpyStrand.rdM 5) = Fmt.n32.code ∧
    shOfs (cpyStrand.rdM 5) % 4 = 0 ∧ cpyWorld.amosOf cpyStrand.uid < 16 ∧
    WellFormed (.red redF) = true ∧ Issues cpyWorld cpyStrand { v := [4] } ∧ 2 ≤ shSpace (cpyStrand.rdM 4) ∧
    shSpace (cpyStrand.rdM 4) ≠ 6 ∧ checkAll cpyWorld worldTeam [redOpd (cpyStrand.rdM 4) false] = .ok () ∧
    shapeOk (cpyStrand.rdM 4) = true ∧ shUnf (cpyStrand.rdM 4) = false ∧ shFmt (cpyStrand.rdM 4) = Fmt.f32.code ∧
    shCount (cpyStrand.rdM 4) ≤ 64 ∧ shOfs (cpyStrand.rdM 4) % redBytes .f32 false = 0 ∧ cpyWorld.redsOf cpyWorld.at_.1 < 64 ∧
    WellFormed (.red ⟨false, .n32, .add, false, false, 10, 5⟩) = true ∧ Issues cpyWorld cpyStrand { src := [10] } ∧
    shSpace (cpyStrand.rdM 5) ≠ 6 ∧ checkAll cpyWorld worldTeam [redOpd (cpyStrand.rdM 5) false] = .ok () ∧
    shOfs (cpyStrand.rdM 5) % redBytes .n32 false = 0 := by
  decide +kernel
theorem witness_FenceWaits :
    (∃ k, Issues red1 k { dst := [12] } ∧ outstanding red1 k.uid (Scope.code .grp) = true) ∧
    ∃ k, Issues red2 k { dst := [12] } ∧ outstanding red2 k.uid (Scope.code .grp) = false :=
  ⟨⟨red1.strand?.getD fetchStrand, by decide +kernel⟩, ⟨red2.strand?.getD fetchStrand, by decide +kernel⟩⟩
theorem witness_CounterInstructions :
    let full := cpyWorld.update (storeKey 0 0x3F8) (List.replicate 8 0xFF)
    let lowered := lowered1 7
    let waiting : Wait := .waitge 0x3F8 7 ⟨false, 0x3F8, 10, 0, 12⟩
    let again := cpyWorld.put { cpyStrand with wait := waiting }
    let poisoned : State := { cpyWorld with poison := [granule (storeKey 0 0x3F8)] }
    ∃ k z : Strand, (Issues cpyWorld cpyStrand { src := [0, 10] } ∧ InStore (cpyStrand.rd 0 + (0x3F8 : BitVec 32).signExtend 64) 8 8 ∧
      cpyWorld.mem.num (storeKey cpyWorld.at_.1 0x3F8) 8 + (cpyStrand.rd 10).toNat < 2 ^ 64 ∧ cpyWorld.mem.wf ∧
      Issues full cpyStrand { src := [0, 10] } ∧ 2 ^ 64 ≤ full.mem.num (storeKey full.at_.1 0x3F8) 8 + (cpyStrand.rd 10).toNat) ∧
    (Issues cpyWorld cpyStrand { src := [0, 10], dst := [12] } ∧ cpyWorld.anyPoison (storeKey cpyWorld.at_.1 0x3F8) 8 = false ∧
      (cpyStrand.rd 10).toNat ≤ (observed full cpyStrand (storeKey 0 0x3F8) 0x3F8).1.toNat ∧
      (observed cpyWorld cpyStrand (storeKey 0 0x3F8) 0x3F8).1.toNat < (cpyStrand.rd 10).toNat) ∧
    (Issues poisoned cpyStrand { src := [0, 10], dst := [12] } ∧ poisoned.anyPoison (storeKey poisoned.at_.1 0x3F8) 8 = true) ∧
    Issues again z { src := [0, 10], dst := [12] } ∧ z.wait = waiting ∧
    Issues lowered k { src := [0, 10], dst := [12] } ∧ lowered.loweredAt k 0x400 = true :=
  ⟨(lowered1 7).strand?.getD fetchStrand, { cpyStrand with wait := .waitge 0x3F8 7 ⟨false, 0x3F8, 10, 0, 12⟩ }, by decide +kernel⟩

/-- A copy and a CPYA from the tile store of vtile 0 to that of vtile 1, of which a chunk has been sent. -/
def near1 : State := after (.cpy ⟨false, 5, 9, 7, 8⟩) cpyWorld
def comb2 : State := after (.copyChunk 1) (after (.cpya ⟨false, .add, 5, 9, 7, 8⟩) cpyWorld)
/-- A copy whose next chunk can be sent, and a landing that can land on a tile. -/
def sendable (s : State) (c : CopyOp) : Prop :=
  s.team? c.who.team = some worldTeam ∧ s.heldBack c.who.team c.who.tile = false ∧ c.step = none ∧ shSpace c.src ≠ 5 ∧
  0 < shCount c.src ∧ c.chunk = 0 ∧ shCount c.src ≤ chunkElems (shFormat c.src) ∧
  whyNot s worldTeam c.who.lrank c.src (elemRanges c.src 0 (shCount c.src)) = none ∧
  whyNot s worldTeam c.who.lrank c.dst [] = none ∧ mustWait s worldTeam c.src (elemRanges c.src 0 (shCount c.src)) = false ∧
  (overlapOfs s worldTeam c).1 = [] ∧ ∀ y ∈ (copySource s worldTeam c 0 (shCount c.src)).1, y.2 = false
def landable (s : State) (n x : Nat) (l : Landing) : Prop :=
  s.team? l.who.team = some worldTeam ∧ s.portOf l.who.team l.vt (splitLanding l).length = .tile x ∧
  (∀ y ∈ s.landings, y.1 < n → y.2.of_ ≠ l.of_) ∧ (s.landings.map (·.1)).Nodup ∧ s.mem.wf ∧
  (∀ i : Fin 4, ((s.tile x).wp.get i).getLsbD 63 = false) ∧
  (s.arrives n l.home (.tile x) worldTeam l.vt (if l.of_.isCopy then 1 else 2) (landFlits l)).1 = true
theorem witness_CopySteps :
    (∃ c, lookup 1 defer1.copies = some c ∧ defer1.team? c.who.team = some worldTeam ∧
      defer1.heldBack c.who.team c.who.tile = false ∧ c.step = some (.grp, 0) ∧ c.accepted = false ∧
      (defer1.cross 1 (deferredWay defer1 worldTeam c).1 0 (deferredWay defer1 worldTeam c).2).1 = true) ∧
    (∃ c, lookup 1 (after (.copyChunk 1) defer1).copies = some c ∧ c.step = some (.grp, 0) ∧ c.accepted = true) ∧
    (∃ c, lookup 1 deferFar.copies = some c ∧ c.step = some (.grp, 0) ∧ c.accepted = false ∧
      (deferFar.cross 1 (deferredWay deferFar worldTeam c).1 0 (deferredWay deferFar worldTeam c).2).1 = false) ∧
    (∃ c, lookup 1 cpy1.copies = some c ∧ sendable cpy1 c ∧ isStore c.src = false ∧ c.op = none) ∧
    (∃ c, lookup 1 near1.copies = some c ∧ sendable near1 c ∧ isStore c.src = true ∧ c.touched = []) ∧
    (∃ l cs, lookup 2 cpy2.landings = some l ∧ landable cpy2 2 0 l ∧ l.what = .bytes cs) ∧
    (∃ l es, lookup 2 comb2.landings = some l ∧ landable comb2 2 1 l ∧ l.what = .combine .add .i64 es ∧
      es.Pairwise fun y z => State.overlap y.1 8 z.1 8 = false) ∧
    ∃ i t, lookup 3 cpy3.incs = some i ∧ cpy3.team? i.who.team = some t ∧ cpy3.portOf i.who.team i.vt = .tile 0 ∧
      (cpy3.arrives 3 (tileSite i.who.tile) (.tile 0) t i.vt (incClass cpy3 3) 1).1 = true ∧
      cpy3.mem.num (storeKey 0 i.ofs) 8 + i.amount.toNat < 2 ^ 64 ∧ cpy3.mem.wf ∧
      ∀ j : Fin 4, ((cpy3.tile 0).wp.get j).getLsbD 63 = false := by
  unfold sendable landable
  exact ⟨⟨(lookup 1 defer1.copies).get (by decide +kernel), by decide +kernel⟩,
    ⟨(lookup 1 (after (.copyChunk 1) defer1).copies).get (by decide +kernel), by decide +kernel⟩,
    ⟨(lookup 1 deferFar.copies).get (by decide +kernel), by decide +kernel⟩,
    ⟨(lookup 1 cpy1.copies).get (by decide +kernel), by decide +kernel⟩,
    ⟨(lookup 1 near1.copies).get (by decide +kernel), by decide +kernel⟩,
    ⟨(lookup 2 cpy2.landings).get (by decide +kernel), [0x100, 0x101, 0x102, 0x103, 0x104, 0x105, 0x106, 0x107].zip
      ([0x88, 0x77, 0x66, 0x55, 0x44, 0x33, 0x22, 0x11].map fun b => (0xFF, b)), by decide +kernel⟩,
    ⟨(lookup 2 comb2.landings).get (by decide +kernel), [(0x300, 0)], by decide +kernel⟩,
    ⟨(lookup 3 cpy3.incs).get (by decide +kernel), (cpy3.team? 1).get (by decide +kernel), by decide +kernel⟩⟩
/-- An AMO that brings COUNT of a cell in group SRAM from 1 to 0, with a record parked there (R37). -/
def cellShape : Shape := shape 2 5 0 grpHandle 0x40 1 1 1 1
def cellAt : Nat := world.operandKey worldTeam 0 cellShape 0x40
def parkTeam : Team := { worldTeam with parked := [⟨0, .vt 0, 5, 0, 0, 5, some cellAt, none, 0⟩] }
def cellAmo : State :=
  after (.amo amoF) (((world.put ((cpyStrand.wrM 5 cellShape).wr 10 0xFFFFFFFF)).putTeam 1 parkTeam).update cellAt
    (bytesOf 8 1 ++ bytesOf 8 5))
theorem test_amo_releases : (let s := after (.amoPerform 1) cellAmo; ((s.team? 1).map (·.queued.map (·.seq)),
    (s.team? 1).map (·.parked.length))) = (some [5], some 0) := by decide +kernel
theorem witness_AtomicSteps_cell :
    ∃ o p, lookup 1 cellAmo.amos = some o ∧ cellAmo.team? o.who.team = some parkTeam ∧ parkTeam.teamid = o.who.team ∧
      cellAmo.heldBack o.who.team o.who.tile = false ∧ shSpace o.a = 2 ∧
      whyNot cellAmo parkTeam o.who.lrank o.a [(shOfs o.a, o.ty.bits / 8)] = none ∧ o.ty.bits = 32 ∧
      (cellAmo.cross 1 (sitePath (tileSite o.who.tile) (cellAmo.homeSite cellAt)) 0 1).1 = true ∧
      cellAmo.operandKey parkTeam o.who.lrank o.a (shOfs o.a) = cellAt ∧ cellAt % 16 = 0 ∧ cellAmo.liveNum cellAt 4 ≠ 0 ∧
      o.op.apply o.ty (cellAmo.liveNum cellAt 4) o.v.toNat % 2 ^ 32 = 0 ∧
      parkTeam.parked.find? (fun q => q.ticket == BitVec.ofNat 64 (cellAmo.liveNum (cellAt + 8) 8) && q.released.isNone) =
        some p ∧ p.cell = some cellAt ∧ parkTeam.qFull p.target = false :=
  ⟨(lookup 1 cellAmo.amos).get (by decide +kernel), ⟨0, .vt 0, 5, 0, 0, 5, some cellAt, none, 0⟩, by decide +kernel⟩
theorem witness_AtomicSteps :
    (∃ o, lookup 1 amo1.amos = some o ∧ amo1.team? o.who.team = some worldTeam ∧ amo1.heldBack o.who.team o.who.tile = false ∧
      shSpace o.a = 2 ∧ whyNot amo1 worldTeam o.who.lrank o.a [(shOfs o.a, o.ty.bits / 8)] = none ∧ o.d ≠ 0 ∧
      (amo1.cross 1 (sitePath (tileSite o.who.tile) (amo1.homeSite (amo1.operandKey worldTeam 0 o.a (shOfs o.a)))) 0 1).1 = true ∧
      o.ty.isAmo = true ∧ mustWait amo1 worldTeam o.a [(shOfs o.a, o.ty.bits / 8)] = false ∧ worldTeam.parked = []) ∧
    (∃ o v k t, lookup 2 amo2.fills = some o ∧ amo2.team? o.who.team = some t ∧ amo2.vtile? o.who.team o.who.lrank = some v ∧
      State.logging v = false ∧ amo2.locate o.who.team o.who.lrank o.who.uid = .slot 0 0 k ∧ o.d ≠ 0 ∧
      (amo2.arrives 2 o.home (amo2.fillPort o.who.team o.who.lrank) t o.who.lrank 0 1).1 = true) ∧
    (∃ o, lookup 1 red1.reds = some o ∧ (red1.vtile? o.who.team o.who.lrank).isSome ∧
      red1.heldBack o.who.team o.who.tile = false ∧ shSpace o.d ≠ 5 ∧ red1.fencedGroups.contains 0 = false ∧
      (red1.cross 1 (sitePath (tileSite o.who.tile) (red1.homeSite (red1.operandKey worldTeam 0 o.d (shOfs o.d)))) 0
        (1 + (shCount o.d * redBytes o.ty o.wd + 63) / 64)).1 = true) ∧
    (∃ o v k, lookup 1 stat1.stats = some o ∧ (stat1.team? o.who.team).isSome ∧ stat1.vtile? o.who.team o.who.lrank = some v ∧
      State.logging v = false ∧ stat1.locate o.who.team o.who.lrank o.who.uid = .slot 0 0 k ∧ o.d ≠ 0) :=
  ⟨⟨(lookup 1 amo1.amos).get (by decide +kernel), by decide +kernel⟩,
    ⟨(lookup 2 amo2.fills).get (by decide +kernel), (amo2.vtile? 1 0).get (by decide +kernel),
      amo2.strand?.get (by decide +kernel), (amo2.team? 1).get (by decide +kernel), by decide +kernel⟩,
    ⟨(lookup 1 red1.reds).get (by decide +kernel), by decide +kernel⟩,
    ⟨(lookup 1 stat1.stats).get (by decide +kernel), (stat1.vtile? 1 0).get (by decide +kernel),
      stat1.strand?.get (by decide +kernel), by decide +kernel⟩⟩
/-- The links of a long way refuse what the class may not send (R210): no buffer is left on the link from die 0 to die 1. -/
theorem test_cross_waits : (let s := { world with credits := [(8 * 64, ⟨64, 0, 0, 0⟩)] }
    ((s.cross 1 [0, 1] 0 1).1, (world.cross 1 [0, 1] 0 1).1)) = (false, true) := by decide +kernel

/-- A peer's read, AMO and write of this package's HBM over quad 2, and the answers to an AMO, a copy in space 5 and a RED of
this package. -/
def remote (kind : RemoteKind) : RemoteReq := ⟨1, 2, 1, 9, 1, hbmHandle, 8, kind⟩
def linked : State := { cpyWorld with quads := [(2, { Quad.initial 1 with st := .up })] }
def asking : State := { amo1 with remotes := [(7, ⟨0, 2, 1, .amo 1⟩)] }
/-- The copy of `cpy1` awaits answers: two to writes, or two parts of its first chunk. -/
def askingCopy (w : RemoteWait) : State :=
  { cpy1 with
    remotes := [(7, ⟨0, 2, 2, w⟩), (8, ⟨0, 2, 2, w⟩)]
    copies := cpy1.copies.map fun c => (c.1, { c.2 with pending := 2, src := shape 5 8 0 mirHandle 0 2 1 1 2, fetched := false }) }
def askingLast (w : RemoteWait) : State :=
  { askingCopy w with
    remotes := [(7, ⟨0, 2, 2, w⟩)]
    copies := (askingCopy w).copies.map fun c => (c.1, { c.2 with pending := 1 }) }
def askingRed (n : Nat) : State :=
  { red2 with remotes := [(7, ⟨0, 2, 2, .red [1]⟩)], reds := red2.reds.map fun o => (o.1, { o.2 with pending := n }) }
/-- What a request comes to at its home, and what answers leave (R63). -/
def served (ofs : Nat) (kind : RemoteKind) : State :=
  let r := { remote kind with ofs := ofs }
  remoteAt r (requestEntry linked 1 hbmHandle ofs kind) linked
def answersOf (s : State) : List RemoteAns := s.outbox.filterMap fun m => match m with
  | .answer 1 2 1 9 1 _ a => some a
  | _ => none
def fiveBytes : RemoteAns := .data [(5, false), (0, false), (0, false), (0, false)]
theorem test_remote_read : answersOf (served 8 (.read 0 0 4)) = [fiveBytes] := by decide +kernel
/-- A read of a superstep to come waits for the pod exchange (R73). -/
theorem test_remote_read_waits : (let s := served 8 (.read 1 0 4); (s.outbox.length, s.peerWork.length)) = (0, 1) := by
  decide +kernel
theorem test_remote_amo : (let s := served 8 (.amo .max .n32 9); (answersOf s, s.liveNum (hbmKey 0x4008) 4)) = ([fiveBytes], 9) := by
  decide +kernel
/-- A read of more than 256 bytes is refused (R198), and so is one past the end of the entry (R63). -/
theorem test_remote_refused : (answersOf (served 8 (.read 0 0 257)), answersOf (served 0x1000 (.read 0 0 4))) =
    ([.refused], [.refused]) := by decide +kernel
/-- A request comes to its home over free links, and waits part-way where a link takes no flit (R210). -/
theorem request_comes (kind : RemoteKind) (h : (Msg.request 0 0 0 0 0 0 0 kind).flits ≤ 64)
    (hk : (match requestEntry linked 1 hbmHandle 8 kind with
      | some e => decide (e.key 0 8 < 2 ^ 40)
      | none => true) = true) :
    (linked.cross (reqHop 1 9) (sitePath (edgeSite 2) (requestSite linked 1 2 hbmHandle 8 kind)) 1
      (Msg.request 0 0 0 0 0 0 0 kind).flits).1 = true := by
  refine fresh_cross (by decide +kernel) (by decide +kernel) (by decide +kernel) (by decide +kernel) ?_ (by decide) h
  unfold requestSite remoteSite
  split
  · next e he =>
    rw [he] at hk
    obtain ⟨d, hd, hs⟩ := home_hbm linked (of_decide_eq_true hk)
    rw [hs]; clear hs; revert hd; revert d; decide
  · decide
def blocked (s : State) : State :=
  { s with credits := (List.range 16).map fun l => (8 * (64 + l) + 1, ⟨64, 0, 0, 0⟩) }
theorem request_waits : ((blocked linked).cross (reqHop 1 9) (sitePath (edgeSite 2)
    (requestSite (blocked linked) 1 2 hbmHandle 8 (.read 0 0 4))) 1 (Msg.request 0 0 0 0 0 0 0 (.read 0 0 4)).flits).1 = false := by
  have hk : ((requestEntry (blocked linked) 1 hbmHandle 8 (.read 0 0 4)).map fun e => e.key 0 8) = some (hbmKey 0x4008) := by
    decide +kernel
  obtain ⟨e, he, hk⟩ := Option.map_eq_some_iff.1 hk
  obtain ⟨d, hd, hs⟩ := home_hbm (blocked linked) (key := e.key 0 8) (by rw [hk]; decide)
  unfold requestSite remoteSite
  rw [he]
  dsimp only
  rw [hs]
  clear hs; revert hd; revert d; decide +kernel
theorem test_remote_response : (after (.remoteResponse 7 (.data [(6, false), (0, false), (0, false), (0, false)])) asking).fills.map
    (·.2.v) = [6] := by decide +kernel
/-- The last answer to the writes of a copy sends its increment (R97). -/
theorem test_remote_copy_ends : (let s := after (.remoteResponse 7 .done) (askingLast (.copyWrite 1 0))
    (s.copies.length, s.incs.map (·.2.amount))) = (0, [5]) := by decide +kernel
/-- A peer's request at the end of its entry. -/
def past : RemoteReq := { remote (.read 0 0 4) with ofs := 0x1000 }
theorem witness_RemoteSteps :
    (linked.heldEdge 1 = false ∧ (linked.cross (reqHop 1 9) (sitePath (edgeSite 2) (requestSite linked 1 2 hbmHandle 8 (.read 0 0 4))) 1
        (Msg.request 0 0 0 0 0 0 0 (.read 0 0 4)).flits).1 = true ∧
      (linked.cross (reqHop 1 9) (sitePath (edgeSite 2) (requestSite linked 1 2 hbmHandle 8 (.amo .max .n32 9))) 1
        (Msg.request 0 0 0 0 0 0 0 (.amo .max .n32 9)).flits).1 = true ∧
      (linked.cross (reqHop 1 9) (sitePath (edgeSite 2) (requestSite linked 1 2 hbmHandle 8 (.write 0 0 0 [(0, 0xFF, 1)] false))) 1
        (Msg.request 0 0 0 0 0 0 0 (.write 0 0 0 [(0, 0xFF, 1)] false)).flits).1 = true ∧
      (linked.cross (reqHop 1 9) (sitePath (edgeSite 2) (requestSite linked 1 2 hbmHandle 0x1000 (.read 0 0 4))) 1
        (Msg.request 0 0 0 0 0 0 0 (.read 0 0 4)).flits).1 = true ∧
      ((blocked linked).cross (reqHop 1 9) (sitePath (edgeSite 2) (requestSite (blocked linked) 1 2 hbmHandle 8 (.read 0 0 4))) 1
        (Msg.request 0 0 0 0 0 0 0 (.read 0 0 4)).flits).1 = false) ∧
    (linked.heldEdge 1 = false ∧ linked.team? 1 = some worldTeam ∧ (mirrorEntry linked worldTeam hbmHandle 8 4 .r).isSome ∧
      0 ≤ podDone linked worldTeam ∧ podDone linked worldTeam < 1 ∧ (∀ k ∈ linked.kept, k.team ≠ 1) ∧
      Fmt.n32.isAmo = true ∧ (mirrorEntry linked worldTeam hbmHandle 8 4 .a).isSome ∧
      remoteBytes (.write 0 0 0 [(0, 0xFF, 1)] false) ≤ 256 ∧ podDone linked worldTeam ≤ remoteStep (.write 0 0 0 [(0, 0xFF, 1)] false) ∧
      256 < remoteBytes (.read 0 0 257) ∧
      mirrorEntry linked worldTeam past.hnd past.ofs (remoteNeeds past.kind).1 (remoteNeeds past.kind).2 = none) ∧
    ({ linked with quiesce := 2 ^ 63 + 2 ^ 61 + 2 ^ 12 }.heldEdge 1 = true ∧ linked.inbound = [] ∧ linked.absent = none) ∧
    (∃ o, lookup 7 asking.remotes = some ⟨0, 2, 1, .amo 1⟩ ∧ lookup 1 asking.amos = some o ∧ o.d ≠ 0 ∧
      lookup 8 asking.remotes = none ∧ ansCause .refused = some 0x42 ∧ ansCause .done = none) ∧
    (∃ c, lookup 7 (askingCopy (.copyWrite 1 0)).remotes = some ⟨0, 2, 2, .copyWrite 1 0⟩ ∧
      lookup 1 (askingCopy (.copyWrite 1 0)).copies = some c ∧ 2 ≤ c.pending) ∧
    (∃ c, lookup 1 (askingLast (.copyWrite 1 0)).copies = some c ∧ c.pending = 1 ∧ c.posted = none ∧ ctrNone c.ctr = false) ∧
    (∃ c, lookup 1 (askingCopy (.copyRead 1 0 0)).copies = some c ∧ (askingCopy (.copyRead 1 0 0)).team? c.who.team = some worldTeam ∧
      { askingCopy (.copyRead 1 0 0) with remotes := eraseAt 7 (askingCopy (.copyRead 1 0 0)).remotes }.chunkAsked 1 0 = true ∧
      { askingLast (.copyRead 1 0 0) with remotes := eraseAt 7 (askingLast (.copyRead 1 0 0)).remotes }.chunkAsked 1 0 = false) ∧
    (∃ o p, lookup 1 (askingRed 2).reds = some o ∧ 2 ≤ o.pending ∧ lookup 1 (askingRed 1).reds = some p ∧ p.pending = 1) :=
  ⟨⟨by decide +kernel, request_comes _ (by decide +kernel) (by decide +kernel), request_comes _ (by decide +kernel) (by decide +kernel),
      request_comes _ (by decide +kernel) (by decide +kernel), by decide +kernel, request_waits⟩,
    by decide +kernel, by decide +kernel, ⟨(lookup 1 asking.amos).get (by decide +kernel), by decide +kernel⟩,
    ⟨(lookup 1 (askingCopy (.copyWrite 1 0)).copies).get (by decide +kernel), by decide +kernel⟩,
    ⟨(lookup 1 (askingLast (.copyWrite 1 0)).copies).get (by decide +kernel), by decide +kernel⟩,
    ⟨(lookup 1 (askingCopy (.copyRead 1 0 0)).copies).get (by decide +kernel), by decide +kernel⟩,
    ⟨(lookup 1 (askingRed 2).reds).get (by decide +kernel), (lookup 1 (askingRed 1).reds).get (by decide +kernel),
      by decide +kernel⟩⟩
/-- A byte that a later exchange has changed is read as it stood before it (R24). -/
def keeping : State := { linked with kept := [⟨2, 0, false, 9, [(hbmKey 0x4008, (1, false))]⟩] }
theorem witness_KeptByte :
    (byteAtPod keeping 1 0 5 (hbmKey 0x4008), byteAtPod keeping 1 0 9 (hbmKey 0x4008)) = ((1, false), (5, false)) := by decide +kernel

/-! ### Barriers (R18 to R20, R87 to R93) -/

abbrev barF : BarS := ⟨false, 11, 0, .addI64, .grp, 3, 2, 10⟩
abbrev baraF : BaraS := ⟨false, 0, .addI64, .grp, 3, 2, 10⟩
def barStrand : Strand := withRegs [(2, 3), (3, 4)]
def barWorld : State := world.put barStrand
def bar1 : State := after (.bar barF) barWorld
/-- Vtile 1 then arrives with BARA. -/
def bar2 : State := after (.bara baraF) ({ bar1 with at_ := (1, 0) }.put { withRegs [(2, 5), (3, 1)] with lrank := 1, uid := 1 })
def bar3 : State := after (.barrierExchange 1 .grp 0 []) bar2
def bar4 : State := after (.barrierCompletion 1 .grp 0) bar3

theorem test_bar : bar1.strand?.map (fun k => (k.pc, k.wait, k.full 10, k.full 11)) =
    some (8, .barrier .grp 0 10 11, false, false) := by decide +kernel
theorem test_bara : bar2.strand?.map (fun k => (k.pc, k.wait, k.rd 10)) = some (8, .none, 0) := by decide +kernel
theorem test_exchange : (bar3.unit 1 .grp 0).phases.map (fun p => (p.1, p.2.exchanged)) = [(0, true)] := by decide +kernel
/-- The sum 3 + 5 and the larger code reach the registers of the BAR (R90, R93). -/
theorem test_completion : ((bar4.unit 1 .grp 0).step, (bar4.strandAt 0 0).map fun k => (k.rd 10, k.rd 11, k.wait)) =
    (1, some (8, 0x0004000000000000, .none)) := by decide +kernel
theorem test_barw : (after (.barw ⟨false, 13, .grp, 10, 12⟩) bar4).strand?.map (fun k => (k.pc, k.rd 12, k.rd 13)) =
    some (16, 8, 0x0004000000000000) := by decide +kernel
theorem test_barw_ahead : (causeAt (.barw ⟨false, 13, .grp, 2, 12⟩) (world.put (withRegs [(2, 4)]))) = 0x64 := by
  decide +kernel
theorem test_bar_code : (causeAt (.bar barF) (world.put (withRegs [(3, 0xFF00)]))) = 0x64 := by decide +kernel
theorem test_bar_slot : (causeAt (.bar barF) (world.put (withRegs [(3, 0x50000)]))) = 0x62 := by decide +kernel

/-- `world` with the group's barrier unit at superstep 9, which keeps the results of superstep 8. -/
def lateWorld : State := (world.put (withRegs [(4, 8), (5, 13), (6, 4), (7, 12)])).putUnit 1 .grp 0 ⟨9, [], [(8, ⟨1, 2, 0, 0, []⟩)], []⟩
/-- Vtile 0 arrives at the fifth phase of its group; and the phase where it arrives has an operation, at tile scope a count too. -/
def fifthWorld : State := barWorld.putVtile 1 0 (State.setCurrent (newVtile 0 0) .grp 4)
def oddWorld (l : Scope) : State :=
  barWorld.putUnit 1 l 0 ⟨0, [(0, { State.phase ⟨0, [], [], []⟩ 0 with rop := some .and, cnt := some 2 })], [], []⟩
abbrev barTile : BarS := ⟨false, 11, 1, .addI64, .tile, 3, 2, 10⟩
abbrev baraTile : BaraS := ⟨false, 1, .addI64, .tile, 3, 2, 10⟩
theorem test_bara_stalls : (let s := after (.bara baraF) fifthWorld
    (s.strand?.map fun k => (k.wait, k.pc), (s.unit 1 .grp 0).stalled.map (·.step))) = (some (.fifth, 0), [4]) := by decide +kernel
theorem test_bar_mismatch : (let s := after (.bar barF) (oddWorld .grp)
    (causeOf s, (State.phase (s.unit 1 .grp 0) 0).arrivals.map fun a => (a.forced, a.code))) = (0x61, [(true, 0xFF00)]) := by
  decide +kernel
theorem witness_BarrierTurned :
    (fifthWorld.target worldTeam 1 0 .grp barStrand.tahead = 4 ∧ (fifthWorld.unit 1 .grp (worldTeam.unitOf .grp 0)).step = 0 ∧
      Issues fifthWorld barStrand { src := [2, 3], dst := [10, 11] } ∧ fifthWorld.team? barStrand.team = some worldTeam) ∧
    (∀ l ∈ [Scope.tile, .grp], (oddWorld l).target worldTeam 1 0 l barStrand.tahead = 0 ∧
      ((oddWorld l).unit 1 l (worldTeam.unitOf l 0)).step = 0 ∧ Issues (oddWorld l) barStrand { src := [2, 3], dst := [10, 11] } ∧
      (State.phase ((oddWorld l).unit 1 l (worldTeam.unitOf l 0)) 0).rop = some .and ∧
      (State.phase ((oddWorld l).unit 1 l (worldTeam.unitOf l 0)) 0).cnt = some 2) ∧
    WellFormed (.bar barTile) = true ∧ WellFormed (.bara baraTile) = true ∧
      barWorld.target worldTeam 1 0 .tile barStrand.tahead = 0 ∧
      (barWorld.unit 1 .tile (worldTeam.unitOf .tile 0)).step = 0 ∧
      State.phase (barWorld.unit 1 .tile (worldTeam.unitOf .tile 0)) 0 = State.phase ⟨0, [], [], []⟩ 0 := by decide +kernel
theorem witness_BarrierArrival :
    WellFormed (.bar barF) = true ∧ Issues barWorld barStrand { src := [2, 3], dst := [10, 11] } ∧
    barWorld.team? barStrand.team = some worldTeam ∧ barWorld.target worldTeam 1 0 .grp barStrand.tahead = 0 ∧
    field (barStrand.rd 3).toNat 0 16 < 0xFF00 ∧ bit (barStrand.rd 3).toNat 18 = false ∧
    0 < (barWorld.unit 1 .grp (worldTeam.unitOf .grp 0)).step + 4 ∧
    State.mismatch (State.phase (barWorld.unit 1 .grp 0) 0) .grp .addI64 0 = false ∧
    WellFormed (.bara baraF) = true ∧ Issues barWorld barStrand { src := [2, 3], dst := [10] } := by decide +kernel
theorem witness_BarrierResults :
    let k := withRegs [(4, 8), (5, 13), (6, 4), (7, 12)]
    let f (a : SReg) : BarwS := ⟨false, 13, .grp, a, 12⟩
    (∀ a ∈ [(4 : SReg), 5, 6, 7], WellFormed (.barw (f a)) = true ∧ Issues lateWorld k { src := [a], dst := [12, 13] }) ∧
    lateWorld.team? k.team = some worldTeam ∧ (lateWorld.unit 1 .grp (worldTeam.unitOf .grp 0)).step = 9 ∧
    ((9 : Nat) ≤ (k.rd 7).toNat ∧ (k.rd 7).toNat < 9 + 4) ∧ ((k.rd 4).toNat < 9 ∧ 9 ≤ (k.rd 4).toNat + 4) ∧
    (12 : SReg) ≠ 13 ∧ lookup 8 (lateWorld.unit 1 .grp 0).results = some ⟨1, 2, 0, 0, []⟩ ∧ 9 + 4 ≤ (k.rd 5).toNat ∧
    (k.rd 6).toNat + 4 < 9 := by decide +kernel
theorem witness_BarrierRefusals :
    let k (w : Word) := withRegs [(3, w)]
    Issues (world.put (k 0xFF00)) (k 0xFF00) { src := [2, 3], dst := [10, 11] } ∧
    Issues (world.put (k 0xFF00)) (k 0xFF00) { src := [2, 3], dst := [10] } ∧ Issues (world.put (k 0x50000)) (k 0x50000) { src := [2, 3], dst := [10] } ∧
    (world.put (k 0xFF00)).team? 1 = some worldTeam ∧ 0xFF00 ≤ field ((k 0xFF00).rd 3).toNat 0 16 ∧
    Issues (world.put (k 0x50000)) (k 0x50000) { src := [2, 3], dst := [10, 11] } ∧
    field ((k 0x50000).rd 3).toNat 0 16 < 0xFF00 ∧ bit ((k 0x50000).rd 3).toNat 18 = true ∧
    (world.put (k 0x50000)).target worldTeam 1 0 .grp 0 % 4 ≠ field ((k 0x50000).rd 3).toNat 16 2 := by decide +kernel
/-- The arrivals of both vtiles at a barrier of scope `l`, in a state whose strand has issued something before. -/
def arrived (l : Scope) (s : State) : State :=
  let s := after (.bar { barF with scope := l }) (s.put barStrand)
  after (.bara { baraF with scope := l }) ({ s with at_ := (1, 0) }.put { withRegs [(2, 5), (3, 1)] with lrank := 1, uid := 1 })
/-- A deferred copy, a deferred CPYA and a RED to group SRAM at the group's barrier, and a live value that an AMO of the group left. -/
def copyBar : State := arrived .grp defer1
def combBar : State := arrived .grp (after (.cpya ⟨false, .add, 5, 9, 3, 4⟩) cpyWorld)
def redBar : State := arrived .grp red2
def amoBar : State := arrived .grp (after (.amoPerform 1) amo1)
/-- A team of two packages at a pod barrier, before and after it has told its peer what it has sent. -/
def podTeam : Team := newTeam (packetOf 0 2 + 0x10000000000000000) 0 0 0 0x100000 [0, 1] []
def podPart (sent : List Nat) : PodPart := ⟨1, 0, some .addI64, some 7, 0, 0, 2, 0, 0, 2, 0, some sent, true, 0⟩
def podBar : State := arrived .pod (world.putTeam 1 podTeam)
/-- What podBar's unit holds of a superstep when one vtile of the peer has arrived. -/
def partBar (k : Nat) : Phase := State.phase ((podBar.unit 1 .pod 0).hear podTeam [{ podPart [] with narr := 1 }]) k
def podFull (sent : List Nat) : State := s.putUnit 1 .pod 0 ((s.unit 1 .pod 0).hear podTeam [podPart sent])
where s : State := podBar
def podSent (sent : List Nat) (ws : List PeerWork) : State := { after (.barrierExchange 1 .pod 0 []) (podFull sent) with peerWork := ws }
def peerWrite : PeerWork := ⟨1, 2, 2, 4, 1, hbmHandle, 8, .write 0 2 0 [(0, 0xFF, 9)] false⟩
def peerRed : PeerWork := ⟨1, 2, 2, 4, 1, hbmHandle, 8, .red 0 2 0 .add .n32 false [(0, 9)]⟩
def podDone1 : State := after (.barrierExchange 1 .pod 0 []) (podSent [] [])
def podDone2 : State := after (.barrierCompletion 1 .pod 0) podDone1
def podPhase (s : State) : Phase := State.phase (s.unit 1 .pod 0) 0
/-- A unit whose lowest open superstep every participant has reached, as its exchange finds it. -/
def due (s : State) (t : Team) (l : Scope) (k : Nat) : Prop :=
  s.team? 1 = some t ∧ t.teamid = 1 ∧ (s.unit 1 l 0).step = k ∧ (State.phase (s.unit 1 l 0) k).exchanged = false ∧
  phaseFull t l 0 (State.phase (s.unit 1 l 0) k) (State.phase (s.unit 1 l 0) k).peers = true ∧ (t.unitsOf l).contains 0 = true ∧
  s.doneCopies = [] ∧ s.mem.wf
/-- A copy that an exchange performs alone. -/
def performable (s : State) (t : Team) (c : CopyOp) : Prop :=
  c.fetched = true ∧ shCount c.src = shCount c.dst ∧ shSpace c.dst ≠ 5 ∧ c.touched = [] ∧ (overlapOfs s t c).1 = [] ∧
  badChunk s t c = none ∧ (∀ y ∈ (copySource s t c 0 (shCount c.src)).1, y.2 = false) ∧
  ∀ o ∈ shBytes c.dst, s.operandKey t c.who.lrank c.dst o < t.htbase ∨ t.htbase + 32 * t.htlen ≤ s.operandKey t c.who.lrank c.dst o
theorem witness_BarrierSteps :
    (∃ t, due amoBar t .grp 0 ∧ exCopies amoBar t .grp 0 0 = [] ∧ exReds amoBar t .grp 0 0 = [] ∧ (amoBar.live.map (·.1)).Nodup ∧
      amoBar.live ≠ []) ∧
    (∃ t c, due copyBar t .grp 0 ∧ exCopies copyBar t .grp 0 0 = [(1, c)] ∧ exReds copyBar t .grp 0 0 = [] ∧ copyBar.live = [] ∧
      copyBar.poison = [] ∧ exchangeWaits copyBar t .grp [(1, c)] [] = false ∧ (copyBar.copies.map (·.1)).Nodup ∧
      performable copyBar t c ∧ c.op = none ∧ c.posted = none ∧ ctrNone c.ctr = false) ∧
    (∃ t c, due combBar t .grp 0 ∧ exCopies combBar t .grp 0 0 = [(1, c)] ∧ exReds combBar t .grp 0 0 = [] ∧ combBar.live = [] ∧
      combBar.poison = [] ∧ exchangeWaits combBar t .grp [(1, c)] [] = false ∧ (combBar.copies.map (·.1)).Nodup ∧
      performable combBar t c ∧ c.op = some .add ∧ shFormat c.dst ≠ .c4 ∧
      ((shBytes c.dst).map (combBar.operandKey t c.who.lrank c.dst)).Nodup) ∧
    (∃ t r, due redBar t .grp 0 ∧ exReds redBar t .grp 0 0 = [(1, r)] ∧ exCopies redBar t .grp 0 0 = [] ∧ redBar.live = [] ∧
      exchangeWaits redBar t .grp [] [(1, r)] = false ∧ shSpace r.d ≠ 5 ∧ whyNot redBar t r.who.lrank r.d [] = none ∧
      (∀ x ∈ contribs redBar t 1 r, ∀ y ∈ contribs redBar t 1 r, x.meets y = true → x.joins y = true) ∧
      ∀ x ∈ contribs redBar t 1 r, (scopeVal t (redApply x.op x.ty x.wd) (vtileVal (contribs redBar t 1 r) x) .grp 0).isSome) ∧
    (∃ t, bar3.team? 1 = some t ∧ t.teamid = 1 ∧ (State.phase (bar3.unit 1 .grp 0) 0).exchanged = true ∧
      canDeliver bar3 t .grp 0 0 = true ∧ outerNow bar3 t .grp 0 = false) ∧
    (∃ x y, (State.phase (bar3.unit 1 .grp 0) 0).arrivals = [x, y] ∧ x.value.isSome ∧ y.value.isSome) := by
  unfold due performable
  exact ⟨⟨(amoBar.team? 1).get (by decide +kernel), by decide +kernel⟩,
    ⟨(copyBar.team? 1).get (by decide +kernel), (lookup 1 copyBar.copies).get (by decide +kernel), by decide +kernel⟩,
    ⟨(combBar.team? 1).get (by decide +kernel), (lookup 1 combBar.copies).get (by decide +kernel), by decide +kernel⟩,
    ⟨(redBar.team? 1).get (by decide +kernel), (lookup 1 redBar.reds).get (by decide +kernel), by decide +kernel⟩,
    ⟨(bar3.team? 1).get (by decide +kernel), by decide +kernel⟩,
    ⟨⟨0, some 3, 4, false, 0, []⟩, ⟨1, some 5, 1, false, 0, []⟩, by decide +kernel⟩⟩
theorem witness_PodSteps :
    (podBar.team? 1 = some podTeam ∧ (podBar.unit 1 .pod 0).step = 0 ∧ (State.others podTeam).contains 1 = true ∧
      lookup 1 podTeam.peersDown = none ∧ phaseFull podTeam .pod 0 (partBar 0) (partBar 0).peers = false) ∧
    (due (podFull []) podTeam .pod 0 ∧ exCopies (podFull []) podTeam .pod 0 0 = [] ∧ exReds (podFull []) podTeam .pod 0 0 = [] ∧
      (podFull []).heldEdge 1 = false ∧ (State.phase ((podFull []).unit 1 .pod 0) 0).sent = false) ∧
    (due (podSent [4] []) podTeam .pod 0 ∧ (podPhase (podSent [4] [])).sent = true ∧
      podReady (podSent [4] []) podTeam (podPhase (podSent [4] [])) = false) ∧
    (∀ w s, w = peerWrite ∨ w = peerRed → s = podSent [4] [w] → due s podTeam .pod 0 ∧ (podPhase s).sent = true ∧
      podReady s podTeam (podPhase s) = true ∧ podWork s podTeam 0 = [w] ∧ s.live = [] ∧ s.poison = [] ∧
      exCopies s podTeam .pod 0 0 = [] ∧ exReds s podTeam .pod 0 0 = [] ∧
      (mirrorEntry s podTeam w.hnd w.ofs (remoteNeeds w.kind).1 (remoteNeeds w.kind).2).isSome) ∧
    mirrorEntry (podSent [4] [peerWrite]) podTeam hbmHandle 0x8000 (remoteNeeds peerWrite.kind).1 (remoteNeeds peerWrite.kind).2 = none ∧
    (∃ cs, peerContribs (podSent [4] [peerRed]) podTeam peerRed = some cs ∧
      (∀ x ∈ cs, ∀ y ∈ cs, x.meets y = true → x.joins y = true) ∧ ∀ x ∈ cs, (podVal podTeam cs x).isSome) ∧
    (podDone1.team? 1 = some podTeam ∧ (podPhase podDone1).exchanged = true ∧ (podPhase podDone1).told = false ∧ exCopies podDone1 podTeam .pod 0 0 = [] ∧
      exReds podDone1 podTeam .pod 0 0 = []) ∧
    ∃ t, podDone2.team? 1 = some t ∧ (podPhase podDone2).exchanged = true ∧ (podPhase podDone2).told = true ∧
      podAnswered t (podPhase podDone2) = true ∧ canDeliver podDone2 t .pod 0 0 = true ∧ outerNow podDone2 t .pod 0 = false := by
  unfold due
  refine ⟨by decide +kernel, by decide +kernel, by decide +kernel, ?_, by decide +kernel,
    ⟨(peerContribs (podSent [4] [peerRed]) podTeam peerRed).get (by decide +kernel), by decide +kernel⟩, by decide +kernel,
    ⟨(podDone2.team? 1).get (by decide +kernel), by decide +kernel⟩⟩
  rintro w _ (rfl | rfl) rfl <;> decide +kernel


/-! ### Continuations (R31 to R50) -/

/-- A continuation record (R28, R30): CODE, FRAME, JCELL, four arguments, HINT, QS, PIN and PRIO. -/
def recordOf (code frame jcell hint qs pin prio : Nat) : Nat :=
  pack [64, 64, 64, 64, 64, 64, 64, 24, 16, 2, 10, 2, 1, 5, 4] [code, frame, jcell, 11, 12, 13, 14, 0, 0, 0, hint, qs, pin, prio, 0]

/-- s2 names a record at 0x800, and s3 a join cell at 0x900 whose COUNT is given. -/
def contStrand : Strand := withRegs [(2, 0x800), (3, 0x900), (8, 1), (9, 2 ^ 24)]
def contWorld (count : Nat) : State :=
  ((world.put contStrand).update (storeKey 0 0x800) (bytesOf 64 (recordOf 0x40 0x55 0 0 0 0 3))).update (storeKey 0 0x900)
    (bytesOf 4 count)
abbrev spawnF : SpawnS := ⟨false, 0, 2, 7⟩
abbrev suspF : SuspS := ⟨false, 0, 2, 3⟩
abbrev joinF (x : BitVec 32) : JoinS := ⟨false, x, 3⟩
def spawn1 : State := after (.spawn spawnF) (contWorld 2)
def spawn2 : State := after (.spawn spawnF) spawn1
/-- A strand parks on a cell of COUNT 1, and then another strand stands in slot 1. -/
def susp1 : State := { after (.susp suspF) (contWorld 1) with at_ := (0, 1) }.put { contStrand with uid := 1 }
/-- A strand of JCELL 0x900. -/
def jcellWorld : State := (contWorld 2).put { contStrand with jcell := 0x900 }
/-- Records in the queues of team 1: target, SEQ and effective priority. -/
def queuedOf (s : State) : List (QTarget × Nat × Nat) := ((s.team? 1).map (·.queued.map fun e => (e.target, e.seq, e.prio))).getD []

theorem test_spawn : (spawn1.strand?.map (fun k => (k.pc, k.rd 7)), queuedOf spawn1) =
    (some (8, 1), [(.vt 0, 1, 0)]) := by decide +kernel
theorem test_spawn_seq : (spawn2.strand?.map (·.rd 7), (queuedOf spawn2).map (·.2.1)) = (some 2, [1, 2]) := by decide +kernel
theorem test_susp : (susp1.strandAt 0 0, queuedOf susp1, (susp1.team? 1).map (·.parked.map (·.ticket)),
    susp1.mem.num (storeKey 0 0x908) 8) = (none, [], some [1], 1) := by decide +kernel
theorem test_susp_ready : queuedOf (after (.susp suspF) (contWorld 0)) = [(.vt 0, 1, 0)] := by decide +kernel
/-- The last JOIN releases the parked record (R41). -/
theorem test_join_releases : (let s := after (.join (joinF 1)) susp1; (queuedOf s, (s.team? 1).map (·.parked.length),
    s.mem.num (storeKey 0 0x900) 4, s.mem.num (storeKey 0 0x908) 8)) = ([(.vt 0, 1, 0)], some 0, 0, 0) := by decide +kernel
theorem test_join_above : (causeAt (.join (joinF 3)) (contWorld 2)) = 0x68 := by decide +kernel
theorem test_exit : (let s := after .exit jcellWorld; (s.strandAt 0 0, s.mem.num (storeKey 0 0x900) 4)) = (none, 1) := by
  decide +kernel
theorem test_cancel : (let s := after (.cancel ⟨false, 8, 7⟩) spawn1; (s.strand?.map (·.rd 7), queuedOf s)) = (some 0, []) := by
  decide +kernel
theorem test_cancel_none : (after (.cancel ⟨false, 8, 7⟩) (contWorld 2)).strand?.map (·.rd 7) = some 1 := by decide +kernel
/-- A strand begins with its arguments, FRAME and JCELL in s1 to s6 (R33). -/
theorem test_dispatch : ((after (.continuationDispatch 0 1) spawn1).strandAt 0 1).map (fun k =>
    (k.pc, k.rd 1, k.rd 4, k.rd 5, k.rd 6)) = some (0x40, 11, 14, 0x55, 0) := by decide +kernel
/-- A queue of two records above PUSHT = 1 pushes its last to the vtile that LOADG names (R48). -/
theorem test_push : queuedOf (after (.pushMigration 0) (spawn2.onTile 0 fun x => { x with loadg := 1 })) =
    [(.vt 0, 1, 0), (.vt 1, 2, 0)] := by decide +kernel
/-- Vtile 1 has eight free slots and an empty queue (R47). -/
theorem test_loadg : ((after (.loadgRefresh 0) (contWorld 2)).tile 0).loadg = 0x800000000001 := by decide +kernel

/-- The team with a full queue of vtile 0, and the strand of `susp1`. -/
def stuffed : Team := { worldTeam with queued := List.replicate 16 ⟨0, .vt 0, 9, 9, 0, none, false, 0, 0⟩ }
def suspStrand : Strand := { contStrand with uid := 1 }
/-- The state in which an operation on the cell of s3 has been noted. -/
abbrev noted (s : State) (k : Strand) : State := cellTouch s k 0x900 (storeKey 0 0x900)
theorem witness_SpawnAndSuspend :
    let r := BitVec.ofNat 512 (recordOf 0x40 0x55 0 0 0 0 3)
    Issues (contWorld 2) contStrand { src := [2], dst := [7] } ∧ (contWorld 2).team? contStrand.team = some worldTeam ∧
    readRecord (contWorld 2) worldTeam (contStrand.rd 2 + (0 : BitVec 32).signExtend 64) none = .ok r ∧
    worldTeam.qFull (recTarget worldTeam r) = false ∧
    (∀ n, n ∈ [0, 1] → Issues (contWorld n) contStrand { src := [3, 2] } ∧ (contWorld n).team? contStrand.team = some worldTeam ∧
      readRecord (contWorld n) worldTeam (contStrand.rd 2 + (0 : BitVec 32).signExtend 64) (some (contStrand.rd 3)) = .ok r ∧
      cellKey (contWorld n) worldTeam (contWorld n).at_.1 (contStrand.rd 3) = storeKey 0 0x900 ∧
      cellPark (noted (contWorld n) contStrand) (storeKey 0 0x900) = 0 ∧
      cellCount (noted (contWorld n) contStrand) (storeKey 0 0x900) = n) ∧
    worldTeam.parked.length < worldTeam.ppCap ∧ (contWorld 1).live = [] ∧ (contWorld 1).mem.wf ∧
    (let s := susp1;
      Issues s suspStrand { src := [3, 2] } ∧ cellPark (noted s suspStrand) (storeKey 0 0x900) ≠ 0) ∧
    (let s := (contWorld 2).putTeam 1 stuffed;
      Issues s contStrand { src := [2], dst := [7] } ∧ s.team? 1 = some stuffed ∧ stuffed.qFull (recTarget stuffed r) = true ∧
      readRecord s stuffed (contStrand.rd 2 + (0 : BitVec 32).signExtend 64) none = .ok r) := by decide +kernel
/-- A record whose CODE is no multiple of 8. -/
def oddRecord : State := (contWorld 2).update (storeKey 0 0x800) (bytesOf 64 (recordOf 0x41 0x55 0 0 0 0 3))
theorem test_spawn_malformed : (causeAt (.spawn spawnF) oddRecord) = 0x66 := by decide +kernel
theorem witness_MalformedRecord :
    let r := BitVec.ofNat 512 (oddRecord.mem.num (storeKey oddRecord.at_.1 0x800) 64)
    ∃ e, Issues oddRecord contStrand { src := [2], dst := [7] } ∧ Issues oddRecord contStrand { src := [3, 2] } ∧
      oddRecord.team? contStrand.team = some worldTeam ∧ contStrand.rd 2 + (0 : BitVec 32).signExtend 64 = 0x800 ∧
      checkAll oddRecord worldTeam [codeOpd oddRecord worldTeam, storeOpd 0x800 64 8] = .ok () ∧
      checkAll oddRecord worldTeam [codeOpd oddRecord worldTeam, cellOpd (contStrand.rd 3), storeOpd 0x800 64 8] = .ok () ∧
      chkCell (contStrand.rd 3) = .ok () ∧ oddRecord.anyPoison (storeKey oddRecord.at_.1 0x800) 64 = false ∧
      codeEntry oddRecord worldTeam 0x800 = .ok e ∧ recCode r % 8 ≠ 0 :=
  ⟨HEntry.ofBits fetchEntry false, by decide +kernel⟩
/-- Each access of R58 beside its tile store or off its alignment. -/
def offStrand : Strand :=
  { matStrand with s := contStrand.s }.wrM 7 (shape 0 8 0 0 0x302 1 1 1 1)
theorem witness_TileStoreFaults_engines :
    (Issues world fetchStrand { src := [5], v := [4] } ∧ ¬ InStore (vectorAddress ⟨false, .i32, 0x80, every, 5, 4⟩ fetchStrand) 256 256) ∧
    (let k := withVecs [(2, vec 32 [0x100, 0x102])]
     let f : VgsV := ⟨false, .i32, 0, every, 2, 5, 4⟩
     Issues (world.put k) k { src := [5], v := [2, 4] } ∧ Moves f k 1 ∧ ¬ InStore (laneAddress f k 1) 4 4 ∧ InStore (laneAddress f k 0) 4 4) ∧
    (let s := contWorld 2
     Issues s contStrand { src := [2, 8] } ∧ Issues s contStrand { src := [2, 8], dst := [7] } ∧ contStrand.wait = .none ∧
       ¬ InStore (contStrand.rd 2 + (4 : BitVec 32).signExtend 64) 8 8 ∧ Issues s contStrand { src := [2] } ∧
       ¬ InStore (contStrand.rd 2 + (4 : BitVec 32).signExtend 64) 16 16 ∧ Serves s contStrand worldTeam (newVtile 0 0) ∧
       checkAll s worldTeam [codeOpd s worldTeam] = .ok () ∧ checkAll s worldTeam [codeOpd s worldTeam, cellOpd (contStrand.rd 3)] = .ok () ∧
       ¬ InStore (contStrand.rd 2 + (4 : BitVec 32).signExtend 64) 64 8) ∧
    (let o := accOpd (offStrand.rdM 7) .w
     Issues (world.put offStrand) offStrand { a := [2] } ∧ Serves (world.put offStrand) offStrand worldTeam (newVtile 0 0) ∧
       o.space = 0 ∧ o.hnd = 0 ∧ o.lo < o.hi ∧ o.aligned = false) := by decide +kernel
/-- A strand with a JCELL on the cell of `susp1`, whose parked record finds its queue full in `susp1Full`. -/
def jcellStrand : Strand := { suspStrand with jcell := 0x900 }
def susp1Full : State := susp1.onTeam 1 fun t => { t with queued := stuffed.queued }
/-- What JOIN and EXIT ask of the cell, and of the record parked on it. -/
def plainCell (s : State) (t : Team) : Prop :=
  s.team? 1 = some t ∧ s.live = [] ∧ s.mem.wf ∧ (s.vtile? 1 0).map (·.div) = some .resident ∧ checkAll s t [cellOpd 0x900] = .ok () ∧
  chkCell 0x900 = .ok () ∧ cellKey s t s.at_.1 0x900 = storeKey 0 0x900
def cellParks (s : State) (t : Team) (p : Parked) : Prop :=
  cellPark s (storeKey 0 0x900) ≠ 0 ∧
  t.parked.find? (fun q => q.ticket == BitVec.ofNat 64 (cellPark s (storeKey 0 0x900)) && q.released.isNone) = some p ∧
  State.hbmHas (t.qAddr p.target + 64 * leastFree ((t.inQueue p.target).map (·.idx))) 64 = true
theorem witness_JoinAndExit :
    (∃ n, n = contWorld 2 ∧ Issues n contStrand { src := [3] } ∧ plainCell n worldTeam ∧ contStrand.rd 3 = 0x900 ∧
      cellCount (noted n contStrand) (storeKey 0 0x900) = 2 ∧ cellPark (noted n contStrand) (storeKey 0 0x900) = 0) ∧
    (∃ t p, Issues susp1 suspStrand { src := [3] } ∧ plainCell susp1 t ∧ cellCount (noted susp1 suspStrand) (storeKey 0 0x900) = 1 ∧
      cellParks (noted susp1 suspStrand) t p ∧ t.qFull p.target = false ∧
      Issues (susp1.put jcellStrand) jcellStrand {} ∧ plainCell (susp1.put jcellStrand) t ∧
      cellCount (noted (susp1.put jcellStrand) jcellStrand) (storeKey 0 0x900) = 1 ∧
      cellParks (noted (susp1.put jcellStrand) jcellStrand) t p ∧ jcellStrand.jcell ≠ 0 ∧ susp1.at_.2 ≠ 8) ∧
    (∃ t p, Issues susp1Full suspStrand { src := [3] } ∧ plainCell susp1Full t ∧
      cellParks (noted susp1Full suspStrand) t p ∧ t.qFull p.target = true) ∧
    (Issues (contWorld 2) contStrand {} ∧ (contWorld 2).at_.2 ≠ 8 ∧ contStrand.jcell = 0 ∧ Untraced (contWorld 2)) ∧
    (∀ n ∈ [0, 1, 2], ∃ z, z = (contWorld n).put { contStrand with jcell := 0x900 } ∧ Issues z { contStrand with jcell := 0x900 } {} ∧
      plainCell z worldTeam ∧ cellCount (noted z { contStrand with jcell := 0x900 }) (storeKey 0 0x900) = n ∧
      cellPark (noted z { contStrand with jcell := 0x900 }) (storeKey 0 0x900) = 0) ∧
    ∃ z, z = { world with at_ := (0, 8) }.put fetchStrand ∧ Issues z fetchStrand {} ∧ z.team? 1 = some worldTeam ∧ z.at_.2 = 8 ∧ Untraced z := by
  unfold plainCell cellParks
  refine ⟨⟨_, rfl, by decide +kernel⟩, ⟨(susp1.team? 1).get (by decide +kernel),
      (((susp1.team? 1).get (by decide +kernel)).parked.head?).get (by decide +kernel), by decide +kernel⟩,
    ⟨(susp1Full.team? 1).get (by decide +kernel), (((susp1Full.team? 1).get (by decide +kernel)).parked.head?).get (by decide +kernel),
      by decide +kernel⟩, by decide +kernel, ?_, ⟨_, rfl, by decide +kernel⟩⟩
  intro n hn
  simp only [List.mem_cons, List.not_mem_nil, or_false] at hn
  obtain rfl | rfl | rfl := hn <;> exact ⟨_, rfl, by decide +kernel⟩
theorem witness_CancelRecord :
    (∃ k t e, Issues spawn1 k { src := [8], dst := [7] } ∧ spawn1.team? k.team = some t ∧ field (k.rd 8).toNat 24 28 = 0 ∧
      cancelled t (k.rd 8) = some e) ∧
    (Issues (contWorld 2) contStrand { src := [8], dst := [7] } ∧ cancelled worldTeam (contStrand.rd 8) = none ∧
      field (contStrand.rd 9).toNat 24 28 ≠ 0 ∧ Issues (contWorld 2) contStrand { src := [9], dst := [7] }) :=
  ⟨⟨spawn1.strand?.get (by decide +kernel), (spawn1.team? 1).get (by decide +kernel),
    (((spawn1.team? 1).get (by decide +kernel)).queued.head?).get (by decide +kernel), by decide +kernel⟩, by decide +kernel⟩

/-- A released record waits for vtile 0's queue, which has room. -/
def freed : Parked := ⟨0, .vt 0, 5, 0, 0, 0, none, some 3, 0⟩
def freedTeam : Team := { worldTeam with parked := [freed] }
/-- Eight strands of vtile 0 wait at the group's barrier, and a record waits for a slot. -/
def crowded : State :=
  (List.range 8).foldl (fun s i => s.putAt 0 i { fetchStrand with
    uid := i, waitSince := 100 - i, wait := .barrier .grp 0 10 11 }) spawn1
theorem test_released : queuedOf (after (.releasedRecordEnqueue 1 (.vt 0)) (world.putTeam 1 freedTeam)) = [(.vt 0, 5, 0)] := by
  decide +kernel
/-- The strand that has waited longest is saved in the first slot from 8 on (R49, R50). -/
theorem test_park_on_wait : (let s := after (.parkOnWait 0) crowded; (s.strandAt 0 7, (s.vtile? 1 0).map (·.saves.map (·.1)),
    (s.team? 1).map (·.queued.map (·.save)))) = (none, some [8], some [none, some 8]) := by decide +kernel
theorem witness_ContinuationSteps :
    ((world.putTeam 1 freedTeam).team? 1 = some freedTeam ∧ (freedTeam.inQueue (.vt 0)).length < freedTeam.cap (.vt 0) ∧
      freed ∈ freedTeam.parked ∧ freed.released.isSome ∧ freed.target = .vt 0 ∧
      ∀ x ∈ freedTeam.parked, x.released.isSome → x.target = .vt 0 → x ≠ freed → freed.released.getD 0 < x.released.getD 0) ∧
    (∃ v t e, spawn1.standing 0 = some (1, 0, v) ∧ spawn1.team? 1 = some t ∧ tileWorks spawn1 0 v = true ∧
      spawn1.strandAt 0 1 = none ∧ v.saves = [] ∧ nextRecord t 0 (spawn1.queueClock t) = some e ∧ e.save = none) ∧
    ∃ v t e, let s := spawn2.onTile 0 fun x => { x with loadg := 1 }
      s.standing 0 = some (1, 0, v) ∧ s.team? 1 = some t ∧ tileWorks s 0 v = true ∧ t.pusht ≠ 0 ∧
      t.pusht < (t.inQueue (.vt 0)).length ∧ field (s.tile 0).loadg.toNat 0 10 = 1 ∧ (1 : Nat) ≠ 0 ∧
      ((s.vtile? 1 1).map fun x => (x.res, x.ptile / 16)) = some (true, 0 / 16) ∧ t.qFull (.vt 1) = false ∧
      lastOf ((t.inQueue (.vt 0)).filter fun e => e.save.isNone && !recPin e.record) = some e :=
  ⟨by decide +kernel, ⟨(spawn1.vtile? 1 0).get (by decide +kernel), (spawn1.team? 1).get (by decide +kernel),
      (((spawn1.team? 1).get (by decide +kernel)).queued.head?).get (by decide +kernel), by decide +kernel⟩,
    ⟨(spawn2.vtile? 1 0).get (by decide +kernel), (spawn2.team? 1).get (by decide +kernel),
      (((spawn2.team? 1).get (by decide +kernel)).queued.getLast?).get (by decide +kernel), by decide +kernel⟩⟩
theorem witness_LoadAndPark :
    ((contWorld 2).standing 0 = some (1, 0, newVtile 0 0) ∧ (contWorld 2).team? 1 = some worldTeam ∧
      idlest (contWorld 2) worldTeam 1 0 = some (8, 0, 1)) ∧
    ∃ v t k, let z := recheckWaits crowded 1 0
      crowded.standing 0 = some (1, 0, v) ∧ z.team? 1 = some t ∧ tileWorks z 0 v = true ∧ t.pow = true ∧
      (nextRecord t 0 (z.queueClock t)).isSome ∧ (t.inQueue (.vt 0)).length < t.cap (.vt 0) ∧ freeSave t v = some 8 ∧
      parkVictim z 1 0 = some (7, k) ∧ k.team = 1 ∧ k.lrank = 0 :=
  ⟨by decide +kernel, ⟨(crowded.vtile? 1 0).get (by decide +kernel), (crowded.team? 1).get (by decide +kernel),
    (crowded.strandAt 0 7).get (by decide +kernel), by decide +kernel⟩⟩

/-! ### System registers, traps, faults and RESUME (R68, R101, R167 to R176, R247, R293, R294) -/

/-- A value in s4, designators in s5 (held in slot 1), s6 (out of range) and s7 (slot 2, empty). -/
def sysStrand : Strand := withRegs [(4, 3), (5, 0x1000FF), (6, 0), (7, 0x2000FF)]
def sysWorld (asid : Nat) : State := ((world asid).put sysStrand).putAt 0 1 { fetchStrand with uid := 1, pc := 0x10, held := true }

theorem test_sysrd : (after (.sysrd ⟨false, .ptile, 9⟩) ({ sysWorld 3 with at_ := (1, 0) }.put { sysStrand with lrank := 1 })).strand?.map
    (·.rd 9) = some 1 := by decide +kernel
theorem test_sysrd_rank : (after (.sysrd ⟨false, .vtile, 9⟩) ({ sysWorld 3 with at_ := (1, 0) }.put { sysStrand with lrank := 1 })).strand?.map
    (·.rd 9) = some 1 := by decide +kernel
theorem test_sysrd_mode : (causeAt (.sysrd ⟨false, .qdbase, 9⟩) (sysWorld 3)) = 1 := by decide +kernel
theorem test_syswr : (after (.syswr ⟨false, .hgcfg, 4⟩) (sysWorld 0)).hgcfg = 3 := by decide +kernel
/-- While a team is live, QDLEN keeps its value (R7, R294). -/
theorem test_syswr_live : (after (.syswr ⟨false, .qdlen, 4⟩) (sysWorld 0)).qdlen = 0 := by decide +kernel
theorem test_syswr_mode : (causeAt (.syswr ⟨false, .qdlen, 4⟩) (sysWorld 3)) = 1 := by decide +kernel
/-- A write to HTINV waits for a chunk of the entry that is on its way, and no longer (R65). -/
def htinvStrand : Strand := { withRegs [(4, 2)] with uid := 9 }
theorem test_htinv_waits : ((after (.syswr ⟨false, .htinv, 4⟩) (cpy2.put htinvStrand)).strand?.map (·.pc),
    (after (.syswr ⟨false, .htinv, 4⟩) (cpy3.put htinvStrand)).strand?.map (·.pc)) = (some 0, some 8) := by decide +kernel
theorem test_nop : (after .nop (sysWorld 0)).strand?.map (·.pc) = some 8 := by decide +kernel
theorem test_trap : (let s := after (.trap 0x1234) (sysWorld 0); (causeOf s, s.strand?, s.mem.num (hbmKey 0x1000A0) 8)) =
    (8, none, 0x1234) := by decide +kernel
theorem test_bkpt : (causeAt (.bkpt 1) (sysWorld 0)) = 9 := by decide +kernel
theorem test_bkpt_halts : ((after (.bkpt 1) ((sysWorld 0).onTile 0 fun x => { x with bkh := true })).tile 0).dbg = .halting := by
  decide +kernel
theorem test_halt : (((after .halt (sysWorld 0)).tile 0).why, (causeAt .halt (sysWorld 3))) = (2, 1) := by decide +kernel
theorem test_resume : (let s := after (.resume ⟨false, true, false, 5, 9⟩) (sysWorld 0); (s.strand?.map (·.rd 9),
    (s.strandAt 0 1).map fun k => (k.held, k.replay, k.pc))) = (some 0, some (false, true, 0x18)) := by decide +kernel
theorem test_resume_none : (after (.resume ⟨false, true, false, 7, 9⟩) (sysWorld 0)).strand?.map (·.rd 9) = some 1 := by
  decide +kernel
theorem test_resume_bad : (causeAt (.resume ⟨false, true, false, 6, 9⟩) (sysWorld 0)) = 2 := by decide +kernel
/-- An empty register holds its instruction, and a strict one faults (R102). -/
theorem test_empty : (let s := world.put { fetchStrand with sfull := 0xFFFFFFFFFFFFFFFD }
    ((after (.addI ⟨false, .i64, 1, 1, 2⟩) s).strand?.map (·.wait), (causeAt (.addI ⟨true, .i64, 1, 1, 2⟩) s))) =
    (some .empty, 0x65) := by decide +kernel

theorem witness_SystemRegisters :
    Issues (sysWorld 0) sysStrand { dst := [9] } ∧ (sysWorld 0).team? 1 = some worldTeam ∧ worldTeam.asid = 0 ∧
    (∃ t, (sysWorld 3).strand? = some sysStrand ∧ (sysWorld 3).team? 1 = some t ∧ t.asid ≠ 0) ∧ teamReads .qdbase = false ∧
    Issues (sysWorld 0) sysStrand { src := [4] } ∧ SysReg.qdlen ≠ .replay ∧ teamWrites .qdlen = false ∧
    (Issues (cpy2.put htinvStrand) htinvStrand { src := [4] } ∧ (cpy2.put htinvStrand).team? 1 = some worldTeam ∧
      htinvDue (cpy2.put htinvStrand) (htinvStrand.rd 4) (htinvUpto (cpy2.put htinvStrand)) = true) ∧
    htinvDue (sysWorld 0) (sysStrand.rd 4) (htinvUpto (sysWorld 0)) = false :=
  ⟨by decide +kernel, by decide +kernel, by decide +kernel, ⟨newTeam (packetOf 3 2) 0 0 0 0x100000 [0, 1] [], by decide +kernel⟩,
    by decide +kernel, by decide +kernel, by decide +kernel, by decide +kernel, by decide +kernel, by decide +kernel⟩
theorem witness_IdentityRegisters : Issues (sysWorld 0) sysStrand { dst := [9] } ∧ (sysWorld 0).team? 1 = some worldTeam ∧
    (9 : SReg) ≠ 0 := by decide +kernel
theorem witness_TrapsAndHalts :
    let b := (sysWorld 0).onTile 0 fun x => { x with bkh := true, uhalt := true }
    Issues (sysWorld 0) sysStrand {} ∧ ((sysWorld 0).tile 0).bkh = false ∧ Issues b sysStrand {} ∧ (b.tile b.at_.1).bkh = true ∧
    (b.tile b.at_.1).dbg = .running ∧
    Issues (b.onTile 0 fun x => { x with dbg := .stepping, stepSlot := some 0 }) sysStrand {} ∧
    ((b.onTile 0 fun x => { x with dbg := .stepping, stepSlot := some 0 }).tile 0).dbg = .stepping ∧ b.team? 1 = some worldTeam ∧ Issues (sysWorld 3) sysStrand {} ∧
    ((sysWorld 3).team? 1).map (·.asid) = some 3 ∧ ((sysWorld 3).tile 0).uhalt = false := by decide +kernel
/-- Watchpoint 0 watches eight bytes from 0x100 on, for loads and stores, with ACT 1. -/
def watching : State := world.onTile 0 fun x => { x with wp := x.wp.set 0 0xB800000800000100 }
theorem test_watch_halts : (let s := after (.ld ⟨false, .n64, 0x100, 5, 3⟩) watching
    (s.strand?.map (·.pc), (s.tile 0).dbg, (s.tile 0).why, (s.tile 0).wphit)) = (some 0, .halting, 4, 1) := by decide +kernel
theorem witness_Watched :
    let w := (watching.tile watching.at_.1).wp.get 0
    w.getLsbD 63 = true ∧ w.getLsbD 60 = true ∧ w.getLsbD 59 = true ∧ field w.toNat 32 20 ≠ 0 ∧ field w.toNat 61 2 = 1 ∧
    (watching.tile watching.at_.1).dbg = .running ∧ Untraced watching ∧
    (watching.onTile 0 fun x => { x with dbg := .stepping, stepSlot := some 0 }).strand? = some fetchStrand ∧
    (Issues watching fetchStrand { src := [5], dst := [3] } ∧ InStore (fetchStrand.rd 5 + (0x100 : BitVec 32).signExtend 64) 8 8 ∧
      watching.anyPoison (storeKey watching.at_.1 0x100) 8 = false ∧ Issues watching fetchStrand { src := [5, 3] } ∧
      field w.toNat 0 19 < 0x100 + 8 ∧ 0x100 < field w.toNat 0 19 + field w.toNat 32 20) ∧
    (let f : VmemV := ⟨false, .i32, 0x100, every, 5, 4⟩
     Issues watching fetchStrand { src := [5], v := [4] } ∧ InStore (vectorAddress f fetchStrand) 256 256 ∧
       (0x100, 4) ∈ laneRanges fetchStrand f.q f.ty (fun i => (vectorAddress f fetchStrand).toNat + i * 4) (2048 / f.ty.bits)) ∧
    (let f : VgsV := ⟨false, .i32, 0x100, every, 2, 5, 4⟩
     Issues watching fetchStrand { src := [5], v := [2, 4] } ∧ (∀ i, Moves f fetchStrand i → InStore (laneAddress f fetchStrand i) 4 4) ∧
       (0x100, 4) ∈ laneRanges fetchStrand f.q f.ty (fun i => (laneAddress f fetchStrand i).toNat) (min 64 (2048 / f.ty.bits))) := by
  refine ⟨?_, ?_, ?_, ?_, ?_, ?_, ?_, ?_, ?_, ?_, ?_, ?lanes, ?_⟩
  case lanes => intro i h; obtain ⟨h, -, -⟩ := h; revert h; revert i; decide +kernel
  all_goals decide +kernel
/-- The strand in slot 1 has met TRAP and stands in save slot 8; a strand with a designator of it in s5 is in slot 0. -/
def heirStrand : Strand := { withRegs [(5, 0x08), (7, 0x09)] with uid := 3 }
def savedWorld : State := { after (.trap 1) ({ sysWorld 0 with at_ := (0, 1) }.put { fetchStrand with uid := 1, pc := 0x10 }) with at_ := (0, 0) }.put
  heirStrand
def savedFull : State := savedWorld.onTeam 1 fun t => { t with queued := stuffed.queued }
theorem test_resume_saved : (let s := after (.resume ⟨false, true, false, 5, 9⟩) savedWorld; (s.strand?.map (·.rd 9),
    s.mem.num (hbmKey (worldTeam.slotAddr 0 8 + 8192)) 8, (s.team? 1).map (·.queued.map (·.save)))) =
    (some 0, 0x18, some [some 8]) := by decide +kernel
theorem witness_ResumeHeld :
    (∃ s v h, s = sysWorld 0 ∧ v = newVtile 0 0 ∧ Issues s sysStrand { src := [6], dst := [9] } ∧ s.team? 1 = some worldTeam ∧
      designatorBad worldTeam (sysStrand.rd 6).toNat = true ∧ Issues s sysStrand { src := [5], dst := [9] } ∧
      designatorBad worldTeam (sysStrand.rd 5).toNat = false ∧ field (sysStrand.rd 5).toNat 0 8 = 0xFF ∧
      s.vtile? 1 (field (sysStrand.rd 5).toNat 10 10) = some v ∧ v.res = true ∧ v.div = .resident ∧
      s.strandAt v.ptile (field (sysStrand.rd 5).toNat 20 4) = some h ∧ h.held = true ∧ h.team = 1 ∧ h.lrank = 0 ∧
      strandKey v.ptile 1 ≠ strandKey s.at_.1 s.at_.2 ∧ Issues s sysStrand { src := [7], dst := [9] } ∧
      designatorBad worldTeam (sysStrand.rd 7).toNat = false ∧ s.strandAt v.ptile (field (sysStrand.rd 7).toNat 20 4) = none ∧
      lookup 2 v.saves = none) ∧
    (∃ t u v i, Issues savedWorld heirStrand { src := [5], dst := [9] } ∧ Issues savedFull heirStrand { src := [5], dst := [9] } ∧
      savedWorld.team? 1 = some t ∧ savedFull.team? 1 = some u ∧ t.teamid = 1 ∧ designatorBad t (heirStrand.rd 5).toNat = false ∧
      field (heirStrand.rd 5).toNat 0 8 ≠ 0xFF ∧ savedWorld.vtile? 1 (field (heirStrand.rd 5).toNat 10 10) = some v ∧ savedWorld.mem.wf ∧
      lookup (field (heirStrand.rd 5).toNat 0 8) v.saves = some i ∧ i.why = .fault ∧ i.resumed = false ∧
      t.qFull (.vt 0) = false ∧ u.qFull (.vt 0) = true ∧ designatorBad t (heirStrand.rd 7).toNat = false ∧
      State.savedByFault v (field (heirStrand.rd 7).toNat 0 8) = false) :=
  ⟨⟨_, _, { fetchStrand with uid := 1, pc := 0x10, held := true }, rfl, rfl, by decide +kernel⟩,
    ⟨(savedWorld.team? 1).get (by decide +kernel), (savedFull.team? 1).get (by decide +kernel), (savedWorld.vtile? 1 0).get (by decide +kernel),
      (lookup 8 ((savedWorld.vtile? 1 0).get (by decide +kernel)).saves).get (by decide +kernel), by decide +kernel⟩⟩
theorem witness_HeldByRegisters :
    let k := { fetchStrand with sfull := 0xFFFFFFFFFFFFFFFD }
    let v := (newVtile 0 0).onAcc 2 fun x => { x with full := false }
    let p := { fetchStrand with spoison := 2 }
    (∀ i ∈ [Instr.addR ⟨false, .i64, 2, 1, 3⟩, .addR ⟨true, .i64, 2, 1, 3⟩, .sysrd ⟨false, .qdbase, 1⟩, .syswr ⟨false, .htinv, 1⟩, .fence ⟨.grp, 1⟩],
      i.hasWord = true ∧ (world.put k).strand? = some k ∧ reaches (world.put k) i = true ∧
        namesFull (world.put k) k (namesOf (world.put k) i).1 = false) ∧
    (namesOf world (.addR ⟨true, .i64, 2, 1, 3⟩)).2 = true ∧ (namesOf world (.addR ⟨false, .i64, 2, 1, 3⟩)).2 = false ∧
    ((world.putVtile 1 0 v).strand? = some fetchStrand ∧ namesFull (world.putVtile 1 0 v) fetchStrand
      (namesOf (world.putVtile 1 0 v) (.azero ⟨false, .f32, 2⟩)).1 = false) ∧
    ∀ i ∈ [Instr.sub ⟨false, .i64, 2, 1, 3⟩, .st ⟨false, .i64, 0, 1, 2⟩, .cpy ⟨false, 1, 1, 2, 3⟩],
      i.hasWord = true ∧ (world.put p).strand? = some p ∧ reaches (world.put p) i = true ∧
        namesFull (world.put p) p (namesOf (world.put p) i).1 = true ∧ (namesOf (world.put p) i).1.src.any p.bad = true := by
  decide +kernel
theorem witness_PoisonedReads :
    let k := { fetchStrand with spoison := 2 }
    let s := world.markPoison [granule (storeKey 0 0x100)]
    (world.put k).strand? = some k ∧ namesFull (world.put k) k { src := [1, 2], dst := [3] } = true ∧ (k.bad 1 || k.bad 2) = true ∧
    WellFormed (.ld ⟨false, .n64, 0x100, 5, 3⟩) = true ∧ Issues s fetchStrand { src := [5], dst := [3] } ∧
    InStore (fetchStrand.rd 5 + (0x100 : BitVec 32).signExtend 64) 8 8 ∧ s.anyPoison (storeKey s.at_.1 0x100) 8 = true := by
  decide +kernel
/-- The team without a save slot, and with a full fault ring. -/
def slotlessTeam : Team := { worldTeam with packet := worldTeam.packet - BitVec.ofNat 1024 (8 * 2 ^ 256) }
def ringTeam : Team := { worldTeam with fqw := 16 }
theorem test_fault_record : (let s := after (.trap 1) (sysWorld 0); (s.mem.num (hbmKey 0x10008C) 4, s.mem.num (hbmKey 0x100085) 1)) = (1, 8) := by decide +kernel
/-- The handler of team 1 is armed with a template (R173). -/
def armed (code : Nat) : State :=
  (world.update (hbmKey (worldTeam.area + 64)) (bytesOf 64 (recordOf code 0x55 0 0 0 0 3))).update (hbmKey (worldTeam.area + 24)) (bytesOf 8 1)
theorem test_handler : (let s := after (.trap 1) (armed 0x40); (((s.team? 1).map (·.queued.map fun e => recArg e.record 0)).getD [],
    s.liveNum (hbmKey (worldTeam.area + 24)) 8)) = ([1], 0) := by decide +kernel
theorem witness_HandlerArmed :
    ∀ c ∈ [0x40, 0x41], ∃ e, (armed c).team? fetchStrand.team = some worldTeam ∧
      (armed c).vtile? fetchStrand.team fetchStrand.lrank = some (newVtile 0 0) ∧ (armed c).strandAt 0 0 = some fetchStrand ∧
      ((armed c).tile 0).trctl.getLsbD 63 = false ∧ (armed c).mem.wf ∧ freeSave worldTeam (newVtile 0 0) = some 8 ∧
      worldTeam.fqw - (armed c).liveNum (hbmKey worldTeam.area + 8) 8 ≠ worldTeam.fqCap ∧
      (armed c).liveNum (hbmKey worldTeam.area + 24) 8 = 1 ∧ codeEntry (armed c) worldTeam 0 = .ok e ∧
      (let r := recSet (BitVec.ofNat 512 ((armed c).mem.num (hbmKey worldTeam.area + 64) 64)) 192 64 (worldTeam.fqw + 1)
       recJcell r < 2 ^ 32 ∧ ((recMalformed worldTeam r e.len = false ∧ e.x = true ∧ worldTeam.qFull (recTarget worldTeam r) = false) ↔ c = 0x40)) ∧
      State.overlap (worldTeam.htbase + 32 * (worldTeam.codeh % 2 ^ 20)) 32 worldTeam.area (128 + 64 * worldTeam.fqCap) = false ∧
      State.overlap (worldTeam.htbase + 32 * (worldTeam.codeh % 2 ^ 20)) 32 (worldTeam.slotAddr 0 8) 9728 = false := by
  intro c hc
  simp only [List.mem_cons, List.not_mem_nil, or_false] at hc
  obtain rfl | rfl := hc <;> exact ⟨HEntry.ofBits fetchEntry false, by decide +kernel⟩
theorem witness_PreciseFault :
    world.team? fetchStrand.team = some worldTeam ∧ world.vtile? fetchStrand.team fetchStrand.lrank = some (newVtile 0 0) ∧
    (newVtile 0 0).ptile = 0 ∧ fetchStrand.lrank < 1024 ∧ world.strandAt 0 0 = some fetchStrand ∧
    (world.tile 0).trctl.getLsbD 63 = false ∧ world.liveNum (hbmKey worldTeam.area + 24) 8 ≠ 1 ∧ world.mem.wf ∧
    (freeSave worldTeam (newVtile 0 0) = some 8 ∧ worldTeam.fqw - world.liveNum (hbmKey worldTeam.area + 8) 8 ≠ worldTeam.fqCap) ∧
    (freeSave slotlessTeam (newVtile 0 0) = none ∧
      slotlessTeam.fqw - world.liveNum (hbmKey slotlessTeam.area + 8) 8 ≠ slotlessTeam.fqCap) ∧
    (ringTeam.fqw - world.liveNum (hbmKey ringTeam.area + 8) 8 = ringTeam.fqCap ∧ ringTeam.area = worldTeam.area) ∧
    (∀ l ∈ [Scope.tile, .grp, .die, .pkg, .pod], world.target worldTeam 1 0 l 0 < (world.unit 1 l 0).step + 4) := by decide +kernel


/-! ### Queues and launches (R152 to R161, R201) -/

/-- A launch packet of TEAMID 5 for die 0 with `tiles` tiles: KIND, P, GANG and TICK. -/
def launchOf (kind p tiles gang tick : Nat) : Nat :=
  pack [16, 16, 16, 6, 1, 5, 4, 10, 2, 4, 4, 2, 10, 20, 12, 64, 32, 32, 8, 4, 4, 4, 4, 4, 4, 32, 32, 32, 32, 32, 64, 512]
    [0x1000, 5, 1, 0, 1, 3, kind, p - 1, 0, 0, tiles - 1, 0, 0, 8, 0, 0x1000, 0x00100004, 0x00100000, 16, 0, 0, 0, 0, 0, 0, 0, 0,
      0x00100001, 0, gang, tick, recordOf 0x40 0 0 0 0 0 2]

/-- A queue descriptor: ring at 0x9000 of 16 packets, PRIO 4 (R152). -/
def descriptorOf (asid : Nat) : Nat :=
  pack [32, 288, 64, 16, 4, 20, 12, 2, 1, 5, 4, 64] [0, 0, 0x1000, 0, 0, 8, asid, 0, 1, 4, 0, 0x9000]

/-- CXL link 0 is UP (R196, R201). -/
def hostQuads : Table Quad := [28, 29, 30, 31].map fun q => (q, { Quad.initial 3 with st := .up })
/-- No team runs, and queue 2 has one packet; queue 3 has a descriptor that is not valid. -/
def idleWorld (packet : Nat) : State :=
  { world with
    teams := [], vtiles := [], tiles := [], strands := [], qdbase := 0x8000, qdlen := 4, quads := hostQuads
    mem := ((((world.mem.put (hbmKey 0x1080) (bytesOf 32 (entryOf 4 0x100000 0x10000000))).put (hbmKey 0x8080)
      (bytesOf 64 (descriptorOf 0))).put (hbmKey 0x9000) [1]).put (hbmKey 0x9080) (bytesOf 128 packet)) }
def onePacket : Nat := launchOf 0 1 1 0 0
def rung : State := after (.hostDoorbellWrite 0 (some 2)) (idleWorld onePacket)
def mapped : State := after .queueSlotMap rung
def readySlot : State := after (.descriptorLoad 0) mapped
/-- The packet waits, and tile 0 is free. -/
def waitingLaunch : Launch := ⟨0, 2, BitVec.ofNat 1024 onePacket, 4, none, 0⟩
def waiting : State := { readySlot with launches := [waitingLaunch] }
/-- A gang member of package 0 holds tile 0. -/
def gangLaunch (tiles : Option (List Nat)) : Launch := ⟨0, 2, BitVec.ofNat 1024 (launchOf 1 2 1 77 50000), 4, tiles, 0⟩
def gangWorld (now : Nat) (tiles : Option (List Nat)) : State :=
  { (idleWorld onePacket).onTile 0 fun x => { x with reserved := true } with
    launches := [gangLaunch tiles], gangs := [(77, ⟨[(1, 0xABC)], false⟩)], podtime := BitVec.ofNat 64 now }
def started5 : State := after (.gangTick 77) (gangWorld 50000 (some [0]))
/-- The team started and its one record has been taken and is done. -/
def finished5 : State := { started5 with teams := started5.teams.map fun t => (t.1, { t.2 with queued := [] }) }
/-- STATUS of the completion record at offset 0 of handle 1, where its FMT word says 1 (R160). -/
def doneStatus (s : State) : Nat × Nat := (s.mem.num (hbmKey 0x4000) 1 % 2, s.mem.num (hbmKey 0x4005) 1)

theorem test_doorbell : rung.pending = [⟨2, 4⟩] := by decide +kernel
theorem test_qdoor : (after (.qdoor 1 2) { idleWorld 0 with teams := [(1, worldTeam)] }).pending = [⟨2, 4⟩] := by decide +kernel
/-- A doorbell of a team of another ASID is ignored (R154). -/
theorem test_qdoor_asid :
    (after (.qdoor 1 2) { idleWorld 0 with teams := [(1, newTeam (packetOf 3 2) 0 0 0 0 [] [])] }).pending = [] := by decide +kernel
theorem test_slot_map : mapped.qslots.map (fun x => (x.1, x.2.st, x.2.queue)) = [(0, .load, 2)] := by decide +kernel
theorem test_descriptor_load : readySlot.qslots.map (fun x => (x.1, x.2.st, x.2.prio)) = [(0, .ready, 4)] := by decide +kernel
/-- QUANT 0 stands for 100 µs (R152). -/
theorem test_quantum : ((after (.quantumExpiry 0) { readySlot with podtime := 99999 }).qslots.map (·.2.expired),
    (after (.quantumExpiry 0) { readySlot with podtime := 100000 }).qslots.map (·.2.expired)) = ([false], [true]) := by decide +kernel
theorem test_host_write : (after (.hostHbmAccess 0x5000 2 (some [0xAB, 0xCD])) (idleWorld 0)).mem.num (hbmKey 0x5000) 2 = 0xCDAB := by
  decide +kernel
/-- Reads of the doorbell aperture return 0, and nothing reaches the package while CXL link 0 is not UP (R201). -/
theorem test_host_aperture : ((after (.hostDoorbellWrite 8 none) (idleWorld 0)).outbox,
    (after (.hostDoorbellWrite 0 (some 2)) { idleWorld onePacket with quads := [] }).pending) = ([.hostData [0, 0, 0, 0]], []) := by
  decide +kernel
theorem test_host_read : (after (.hostHbmAccess 0x9000 2 none) (idleWorld 0)).outbox = [.hostData [1, 0]] := by decide +kernel
theorem test_gang_ready : (gangOf (after (.gangReady 78 3 9) (gangWorld 0 none)) 78).heard = [(3, 9)] := by decide +kernel
/-- A READY that comes after TICK counts for nothing (R161). -/
theorem test_gang_late : (gangOf (after (.gangReady 77 3 9) (gangWorld 50001 none)) 77).heard = [(1, 0xABC)] := by decide +kernel
/-- A member that heard every other starts at TICK with its ENTRY queued (R161). -/
theorem test_gang_tick : (started5.teams.map (fun t => (t.1, t.2.start, t.2.queued.map (·.seq))),
    started5.vtiles.map (fun v => (v.1, v.2.ptile)), (started5.tile 0).owner) =
    ([(5, 50000, [1])], [(vtileKey 5 0, 0)], some (5, 0)) := by decide +kernel
theorem test_gang_abort : (let s := after (.gangAbort 77) (gangWorld 49999 (some [0])); ((s.tile 0).reserved, s.launches.length,
    s.mem.num (hbmKey 0x4000) 8)) = (false, 0, 0x0005070000000001) := by decide +kernel
theorem test_gang_deadline : (let s := after (.gangDeadline 0) (gangWorld 40001 none); (s.launches.length,
    s.mem.num (hbmKey 0x4000) 8)) = (0, 0x0005060000000001) := by decide +kernel
/-- The completion record: V, STATUS 0, TEAMID 5 and START (R160). -/
theorem test_team_completion : (let s := after (.teamCompletion 5) finished5; (s.teams.length, s.vtiles.length, (s.tile 0).owner,
    s.mem.num (hbmKey 0x4000) 8, s.mem.num (hbmKey 0x4030) 8)) = (0, 0, none, 0x0005000000000001, 50000) := by decide +kernel
/-- A packet of an ASID that is not its queue's is refused with status 2 (R159). -/
theorem test_launch_refused : (after .launchPacket { readySlot with
    mem := readySlot.mem.put (hbmKey 0x8080) (bytesOf 64 (descriptorOf 3)) }).mem.num (hbmKey 0x4000) 8 = 0x0005020000000001 := by
  decide +kernel

/-- The tiles that a team of one tile gets. -/
abbrev onlyTile : List Nat := [0]
/-- The slot of `readySlot`, and the state when its packet has been taken. -/
def slot0 : QSlot := ⟨.ready, 2, 4, 0, 0, false⟩
def taken (s : State) : State :=
  { s.commit (hbmKey 0x9008) (bytesOf 8 1) with
    served := insertAt 4 0 s.served, qslots := insertAt 0 { slot0 with st := .active } s.qslots }
/-- The team of the packet as the checks see it. -/
def team5 : Team := newTeam (BitVec.ofNat 1024 onePacket) 0 2 0 0 [] []
/-- Every tile of die 0 is reserved. -/
def full : State := { readySlot with tiles := (List.range 256).map fun i => (i, { Tile.initial with reserved := true }) }

theorem witness_QueueSteps :
    (let s := { idleWorld 0 with teams := [(1, worldTeam), (2, newTeam (packetOf 3 2) 0 0 0 0 [] [])] }; s.team? 1 = some worldTeam ∧ (s.team? 2).map (·.asid) = some 3 ∧ 2 < s.qdlen ∧ hostLink s = true ∧
      s.qslots = [] ∧ s.pending = [] ∧ worldTeam.asid = 0 ∧ descAsid (desc s 2) ≠ 3) ∧
    State.hbmHas 0x5000 2 = true ∧ (idleWorld 0).mem.wf ∧ hostLink (idleWorld 0) = true ∧ hostLink world = false ∧
    (rung.pending = [] ++ ⟨2, 4⟩ :: [] ∧ lookup 0 rung.qslots = none) ∧
    (∃ x, lookup 0 mapped.qslots = some x ∧ x.st = .load ∧ descOk (desc mapped x.queue) = true) ∧
    (lookup 0 ({ mapped with qslots := [(0, { slot0 with st := .load, queue := 3 })] } : State).qslots = some { slot0 with st := .load, queue := 3 } ∧
      descOk (desc mapped 3) = false) ∧
    (lookup 0 readySlot.qslots = some slot0 ∧ slot0.st ≠ .load ∧ slot0.mapped + 1000 * descQuant (desc readySlot 2) = 100000) :=
  ⟨by decide +kernel, by decide +kernel, by decide +kernel, by decide +kernel, by decide +kernel, by decide +kernel,
    ⟨⟨.load, 2, 4, 0, 0, false⟩, by decide +kernel⟩, by decide +kernel, by decide +kernel⟩
/-- The two clauses about a packet that the launch engine takes: it finds a tile, and it finds none. -/
theorem witness_LaunchSteps :
    (nextReady readySlot = some (0, slot0) ∧ readySlot.mem.wf ∧ descOk (desc readySlot 2) = true ∧
      BitVec.ofNat 1024 (readySlot.mem.num (hbmKey (descBase (desc readySlot 2) + 128 +
        128 * (ridx readySlot (desc readySlot 2) % descSize (desc readySlot 2)))) 128) = team5.packet ∧
      packetStatus (taken readySlot) team5 (desc readySlot 2) = 0 ∧ field team5.packet.toNat 60 4 = 0 ∧
      readySlot.launches = []) ∧
    ((layout team5 (tileThere readySlot)).isSome ∧ tilesNow (taken readySlot) team5 = some onlyTile) ∧
    (nextReady full = some (0, slot0) ∧ full.mem.wf ∧ packetStatus (taken full) team5 (desc full 2) = 0 ∧
      tilesNow (taken full) team5 = none) := by decide +kernel
theorem witness_LaunchSteps_waiting : nextWaiting waiting = some waitingLaunch ∧ waitingLaunch.isGang = false ∧
    tilesNow waiting (newTeam waitingLaunch.packet 0 0 0 0 [] []) = some onlyTile ∧
    (waiting.entryNow (newTeam waitingLaunch.packet (min (field waitingLaunch.packet.toNat 55 5) waitingLaunch.prio) 2 waiting.now 0
      onlyTile []) (field waitingLaunch.packet.toNat 192 32)).isSome := by decide +kernel
theorem witness_LaunchSteps_gang :
    ((gangWorld 40001 none).launches.find? (fun l => l.slot == 0 && l.tiles.isNone && l.isGang) = some (gangLaunch none) ∧
      (gangLaunch none).gang ≠ 0 ∧ (gangLaunch none).tick < (gangWorld 40001 none).now + 10000) ∧
    ((gangWorld 49999 (some [0])).launches.find? (fun l => l.isGang && l.gang == 77) = some (gangLaunch (some [0])) ∧
      (gangWorld 49999 (some [0])).now < (gangLaunch (some [0])).tick) ∧
    (let s := gangWorld 50000 (some [0]); let l := gangLaunch (some [0])
     let t := newTeam l.packet (min (field l.packet.toNat 55 5) l.prio) l.queue l.tick 0 [0] (gangOf s 77).heard
     s.launches.find? (fun l => l.isGang && l.gang == 77 && l.tiles.isSome) = some l ∧ l.tick ≤ s.now ∧
      (∀ p, p < t.nP → p ≠ t.pc → (lookup p (gangOf s 77).heard).isSome) ∧ (gangOf s 77).aborted = false ∧
      (s.entryNow t (field l.packet.toNat 192 32)).isSome) ∧
    (tickGone (gangWorld 50001 none) 77 = true ∧ tickGone (gangWorld 50000 none) 77 = false) ∧
    ∃ t, finished5.team? 5 = some t ∧ teamIdle finished5 5 t = true :=
  ⟨by decide +kernel, by decide +kernel, by decide +kernel, by decide +kernel, ⟨(finished5.team? 5).get (by decide +kernel), by decide +kernel⟩⟩


/-! ### Diversion and containment (R64 to R67, R177 to R195) -/

/-- A write to VACATE: GO, OP, TEAMID 1 and N (R179). -/
def order (op n : Nat) : Word := BitVec.ofNat 64 (pack [11, 5, 6, 1, 9, 16, 13, 2, 1] [n, 0, 0, 0, 0, 1, 0, op, 1])
/-- A strand of vtile 1 waits at a barrier in slot 2 of tile 1. -/
def vac0 : State := (({ world with dtbase := 0x10000, dlbase := 0x20000 } : State).update (storeKey 1 0x123) [0x77]).putAt 1 2
  { fetchStrand with lrank := 1, uid := 5, pc := 0x20, wait := .barrier .grp 0 10 11 }
def vac1 : State := after (.vacate (order 0 1)) vac0
def vac2 : State := after (.vacateCut 1 1) vac1
/-- The save begins in the cycle after the cut (R185). -/
def saving : State := vac2.advance 1 0
/-- Vtile 1 of team 1 after one of its transitions. -/
def moved (f : State → Team → Nat → Nat → Vtile → State) (s : State) : State :=
  match s.team? 1, s.vtile? 1 1 with
  | some t, some v => f s t 1 1 v
  | _, _ => s
def vac3 : State := moved saved saving
def res1 : State := { vac3 with vtiles := vac3.vtiles.map fun v =>
  (v.1, if v.1 = vtileKey 1 1 then { v.2 with restoreTo := some (1, 9) } else v.2) }
def res2 : State := after (.restoreStart 1 1) res1
/-- Vtile 1 is parked and vtile 0 waits at the group's barrier; the team rotates. -/
def rotating : State :=
  (after (.bar barF) ({ vac3 with at_ := (0, 0) }.put barStrand)).onTeam 1 fun t => { t with rotation := true }
/-- Vtile 1 as it is being restored from an image that holds little but its strand map: save slot 2 goes to slot 2. -/
def resting : State := { saving with
  mem := saving.mem.put (hbmKey (worldTeam.img 1 + 655504)) ([255, 0, 0, 0, 0, 0, 0, 0, 255, 0, 0, 0, 0, 0, 0, 0, 2])
  vtiles := saving.vtiles.map fun v => (v.1, if v.1 = vtileKey 1 1 then { v.2 with div := .restoring, restoreTo := some (1, 9) } else v.2) }
/-- State of a vtile of team 1: its diversion state, whether it is resident, and the save slots that hold a strand. -/
def divOf (s : State) (lr : Nat) : Option (DivState × Bool × List Nat) :=
  (s.vtile? 1 lr).map fun v => (v.div, v.res, v.saves.map (·.1))

theorem test_vacate : (vac1.vacateReg.getLsbD 63, vac1.vtiles.map fun v => v.2.stopped) = (true, [none, some 1]) := by
  decide +kernel
theorem test_vacate_cut : (divOf vac2 1, divOf saving 1, vac2.strandAt 1 2) =
    (some (.cut, false, [2]), some (.saving, false, [2]), none) := by decide +kernel
theorem test_save_complete : (divOf vac3 1, (vac3.tile 1).owner, vac3.vacateReg, vac3.mem.num (hbmKey (worldTeam.img 1 + 0x123)) 1) =
    (some (.diverting, false, [2]), none, 1, 0x77) := by decide +kernel
theorem test_restore_start : (divOf res2 1, (res2.tile 1).owner) = (some (.restoring, false, [2]), some (1, 1)) := by decide +kernel
theorem test_rotation_order : ((after (.enableRotation (order 2 0)) vac0).team? 1).map (·.rotation) = some true := by decide +kernel
theorem test_rotation_off : ((after (.disableRotation (order 3 0)) rotating).team? 1).map (·.rotation) = some false := by
  decide +kernel
theorem test_rotation : (let s := after (.rotation 1 .grp 0) rotating; ((s.vtile? 1 0).map (·.stopped.isSome),
    (s.vtile? 1 1).map (fun v => v.restoreTo.map (·.1)))) = (some true, some (some 0)) := by decide +kernel
theorem test_tile_error : (let s := after (.uncorrectableTileError 1) vac0; ((s.tile 1).fenced, (s.tile 1).owner,
    (s.vtile? 1 1).map (fun v => (v.lost, v.res)), s.strandAt 1 2, causeOf s)) = (true, none, some (true, false), none, 0x70) := by
  decide +kernel
theorem test_tile_silent : causeOf (after (.tileResponseTimeout 1) vac0) = 0x70 := by decide +kernel
theorem test_group_error : (let s := after (.uncorrectableGroupError 0) vac0; (s.fencedGroups, s.vtiles.map (·.2.lost), causeOf s)) =
    ([0], [true, true], 0x71) := by decide +kernel
theorem test_group_reset : (let s := after (.groupReset 0) (after (.uncorrectableGroupError 0) vac0); (s.fencedGroups, (s.tile 1).fenced)) =
    ([], false) := by decide +kernel
theorem test_memory_error : (let s := after (.memoryUncorrectableError (storeKey 1 0x123) .uncorrectable) vac0;
    (s.anyPoison (storeKey 1 0x100) 64, s.anyPoison (storeKey 1 0x140) 64, s.errc.get 1, s.errc.get 10)) = (true, false, 1, 1) := by
  decide +kernel
theorem test_quiesce : (let s := after (.quiesceStart 0x8000000000000107) vac0
    (s.quiesce, (after .quiesceDrainComplete s).quiesce, (after .quiesceTimeout { s with podtime := 10000000 }).quiesce, (after .quiesceTimeout s).quiesce,
      (after .quiesceRelease (after .quiesceDrainComplete s)).quiesce)) =
    (0xA000000000000107, 0x2000000000000107, 0x6000000000000107, 0xA000000000000107, 0x107) := by decide +kernel
theorem test_htinv : (after (.htinv 0 1) vac0 = vac0) ∧ after (.htinvAll 0) vac0 = vac0 := ⟨rfl, rfl⟩

theorem witness_DiversionSteps_orders :
    ∀ op n, (op, n) ∈ [(0, 1), (2, 0), (3, 0)] → vac0.team? (field (order op n).toNat 32 16) = some worldTeam ∧
      bit vac0.vacateReg.toNat 63 = false ∧ bit (order op n).toNat 63 = true ∧ field (order op n).toNat 61 2 = op := by
  intro op n h
  simp only [List.mem_cons, Prod.mk.injEq, List.not_mem_nil, or_false] at h
  obtain ⟨rfl, rfl⟩ | ⟨rfl, rfl⟩ | ⟨rfl, rfl⟩ := h <;> decide +kernel
theorem exist_both {α β : Type} {a : Option α} {b : Option β} {P : α → β → Prop} [∀ x y, Decidable (P x y)]
    (h : (a.any fun x => b.any fun y => decide (P x y)) = true) : ∃ x y, a = some x ∧ b = some y ∧ P x y := by
  cases a <;> cases b <;> simp_all
/-- Team 1 and its vtile 1 stand in a state and have a property. -/
def Found (s : State) (P : Team → Vtile → Bool) : Prop := ∃ t v, s.team? 1 = some t ∧ s.vtile? 1 1 = some v ∧ P t v = true
theorem found {s : State} {P : Team → Vtile → Bool} (h : ((s.team? 1).any fun t => (s.vtile? 1 1).any fun v => P t v) = true) :
    Found s P := by
  unfold Found
  cases ht : s.team? 1 <;> cases hv : s.vtile? 1 1 <;> simp_all
/-- A RESTORE order finds vtile 1, with no tile named for it yet or with the one that a rotation has named. -/
def ordered (s : State) (t : Team) (x : Vtile) : Bool :=
  let v := order 1 1
  decide (field v.toNat 32 16 = 1 ∧ bit s.vacateReg.toNat 63 = false ∧ bit v.toNat 63 = true ∧ field v.toNat 61 2 = 1 ∧
    orderable s t 1 v (fun x => x.div == .saving || x.div == .diverting) = 1 :: [] ∧ field v.toNat 0 11 ≠ 0 ∧
    (x.restoreTo.map (·.1) = some 1 ∨ x.restoreTo = none ∧ freeTileIn s (x.ptile / 16) = some 1))
theorem witness_DiversionSteps_restoreOrder : Found vac3 (ordered vac3) ∧ Found res1 (ordered res1) :=
  ⟨found (by decide +kernel), found (by decide +kernel)⟩
/-- The image of vtile 1 lies in HBM, apart from its diversion entry. -/
def imageApart (s : State) (t : Team) (v : Vtile) : Bool :=
  s.mem.wf && (State.hbmHas (t.img 1) t.saveSize && !State.overlap (t.img 1) t.saveSize (s.dtbase.toNat + 32 * v.divIdx) 32)
/-- A state whose log of vtile 1 holds `recs`. -/
def withLog (s : State) (recs : List LogRec) : State :=
  { s with vtiles := s.vtiles.map fun v => (v.1, if v.1 = vtileKey 1 1 then { v.2 with recs := recs } else v.2) }
/-- All of the image and of the log of vtile 1 has come to the end of its way. -/
abbrev through (s : State) : State := come s (vtileKey 1 1)
theorem all_through (s s' : State) (t : Team) (v : Vtile) (hs : v.saves.length ≤ 8) (hl : v.logged.length ≤ 8) :
    ((through s).crossAll 3 (moving s' t 1 1 v)).1 = true := by
  have hf : (v.saves.filter fun c => c.2.why == .vacate).length ≤ 8 := Nat.le_trans (List.length_filter_le _ _) hs
  have hn : 1 + (659456 + 9728 * (v.saves.filter fun c => c.2.why == .vacate).length) / 64 ≤ 2 ^ 30 := by omega
  have hm : 1 + 2 * v.logged.length ≤ 2 ^ 30 := by omega
  unfold moving
  dsimp only
  by_cases ho : (v.div == .saving) = true <;> by_cases he : v.logged.isEmpty = true <;>
    simp only [ho, he, if_true, if_false, Bool.false_eq_true]
  · exact come_cross hn (Nat.zero_le _) (u := 0) (v := 0) (.inl rfl)
  · exact come_cross hn hm (.inr rfl)
  · exact come_cross hn (Nat.zero_le _) (u := 0) (v := 0) (.inl rfl)
  · exact come_cross hn hm (.inr rfl)
/-- Vtile 1 on another tile. -/
def farAt (p : Nat) (s : State) : State :=
  { s with vtiles := s.vtiles.map fun v => (v.1, if v.1 = vtileKey 1 1 then { v.2 with ptile := p } else v.2) }
/-- Between the image and one of tiles 1 and 257 there is a link, over which so much does not pass at once. -/
theorem far_waits {s : State} {t : Team} (hk : hbmKey (t.img 1) < 2 ^ 40) (hd : ∀ d < 4,
    ((farAt (if d = 0 then 257 else 1) s).vtile? 1 1).any (fun v => v.logged.isEmpty &&
      !((farAt (if d = 0 then 257 else 1) s).crossAll 3 [(imageHop (vtileKey 1 1), if v.div == .saving then
        sitePath (tileSite v.ptile) (64 + d) else sitePath (64 + d) (tileSite v.ptile),
        1 + (659456 + 9728 * (v.saves.filter fun c => c.2.why == .vacate).length) / 64)]).1) = true) :
    ∃ p ∈ [1, 257], ∃ v, (farAt p s).vtile? 1 1 = some v ∧ ((farAt p s).crossAll 3 (moving (farAt p s) t 1 1 v)).1 = false := by
  obtain ⟨d, hlt, hs⟩ := home_hbm s hk
  have h := hd d hlt
  refine ⟨if d = 0 then 257 else 1, by split <;> simp, ?_⟩
  generalize (if d = 0 then 257 else 1) = p at *
  cases hv : (farAt p s).vtile? 1 1 with
  | none => simp [hv] at h
  | some v =>
    simp only [hv, Option.any_some, Bool.and_eq_true, Bool.not_eq_true'] at h
    have hs' : (farAt p s).homeSite (hbmKey (t.img 1)) = 64 + d := by
      rw [← hs]; unfold State.homeSite; rw [if_pos hk, if_pos hk]
    refine ⟨v, rfl, ?_⟩
    unfold moving
    simp only [h.1, hs', if_true]
    exact h.2
/-- A landing of one byte of vtile 1's store. -/
def loggedByte : LogRec := .land ⟨.copy 9, ⟨1, 0, 0, 0, 0, 0, 0, 0⟩, 1, .bytes [(0x124, 0xFF, 0x55)], false, [], 0, false, 0⟩
def loggedCount : LogRec := .counter ⟨⟨1, 0, 0, 0, 0, 0, 0, 0⟩, 1, 0x200, 3, false⟩
def loggedFill : LogRec := .fill 2 9 0x99 false
theorem witness_DiversionSteps_cut : ∃ t v, vac1.team? 1 = some t ∧ vac1.vtile? 1 1 = some v ∧ t.teamid = 1 ∧
    v.stopped = some 1 ∧ freeLog vac1 = some 0 ∧ cutDue vac1 v = true ∧ imageApart vac1 t v = true ∧ 8 ≤ t.nsave ∧
    firstWaiter vac1 1 = true ∧ ∀ i, i < 8 → ∀ k ∈ vac1.strandAt v.ptile i, k.team = 1 ∧ k.lrank = 1 :=
  exist_both (by decide +kernel)
/-- What the SAVE clauses suppose, with one record in the log. -/
def savable (r : LogRec) (s : State) (t : Team) (v : Vtile) : Bool :=
  decide (t.teamid = 1 ∧ v.div = .saving ∧ v.logged = [r] ∧ imageApart s t v = true ∧ v.res = false ∧ v.mq = [] ∧ v.past = [] ∧
    s.copies = [] ∧ s.doneCopies = [] ∧ s.mem.num (storeKey v.ptile 0x200) 8 + 3 < 2 ^ 64 ∧ 2 < t.nsave ∧
    (lookup 2 v.saves).isSome)
/-- A property that a state has once all of its image and log has come through. -/
def Comes (s : State) (P : Team → Vtile → Bool) : Prop :=
  ∃ t v, s.team? 1 = some t ∧ s.vtile? 1 1 = some v ∧ P t v = true ∧ (s.crossAll 3 (moving s t 1 1 v)).1 = true
theorem come_through {s : State} {P : Team → Vtile → Bool}
    (h : Found (through s) fun t v => P t v && (decide (v.saves.length ≤ 8) && decide (v.logged.length ≤ 8))) : Comes (through s) P := by
  obtain ⟨t, v, ht, hv, hp⟩ := h
  simp only [Bool.and_eq_true, decide_eq_true_eq] at hp
  exact ⟨t, v, ht, hv, hp.1, all_through s _ t v hp.2.1 hp.2.2⟩
/-- The log of vtile 1 holds a landing, an increment, or a fill of a saved strand, as the save goes on. -/
def savingByte : State := through (withLog saving [loggedByte])
def savingCount : State := through (withLog saving [loggedCount])
def savingFill : State := through (withLog saving [loggedFill])
theorem witness_DiversionSteps_save : Comes savingByte (savable loggedByte savingByte) ∧
    Comes savingCount (savable loggedCount savingCount) ∧ Comes savingFill (savable loggedFill savingFill) :=
  ⟨come_through (found (by decide +kernel)), come_through (found (by decide +kernel)), come_through (found (by decide +kernel))⟩
/-- Not all of the image has come: the save goes on, and so does the restore. -/
def Waits (s : State) : Prop := ∃ p ∈ [1, 257], ∃ v, (farAt p s).vtile? 1 1 = some v ∧
  ((farAt p s).crossAll 3 (moving (farAt p s) ((s.team? 1).getD worldTeam) 1 1 v)).1 = false
theorem witness_DiversionSteps_moving : Waits saving ∧ Waits resting :=
  ⟨far_waits (by decide +kernel) (by decide +kernel), far_waits (by decide +kernel) (by decide +kernel)⟩
theorem witness_DiversionSteps_movingFrom : ∀ p ∈ [1, 257],
    (farAt p saving).team? 1 = some worldTeam ∧ worldTeam.teamid = 1 ∧
    ((farAt p resting).team? 1).any (fun t => t.teamid == 1 && resting.team? 1 == some t) = true ∧
    ((farAt p saving).vtile? 1 1).any (fun v => v.div == .saving && !v.res && v.mq.isEmpty && imageApart (farAt p saving) worldTeam v)
      = true ∧
    ((farAt p resting).vtile? 1 1).any (fun v => v.div == .restoring && imageApart (farAt p resting) ((resting.team? 1).getD worldTeam) v &&
      ((farAt p resting).tile p).dbg == .running && decide (v.saves.map (·.1)).Nodup &&
      (List.range 8).all fun i => (farAt p resting).strandAt p i == none) = true := by decide +kernel
theorem witness_DiversionSteps_restore : ∃ t v, res1.team? 1 = some t ∧ res1.vtile? 1 1 = some v ∧ v.restoreTo = some (1, 9) ∧ freeLog res1 = some 0 ∧
      v.div = .diverting ∧ tileTakes (res1.tile 1) = true ∧ firstWaiter res1 9 = true :=
  exist_both (by decide +kernel)
/-- Vtile 1 as it is being restored, with one record in its log. -/
def restoring (r : LogRec) : State := withLog resting [r]
def restorable (r : LogRec) (s : State) (t : Team) (v : Vtile) : Bool :=
  t.teamid == 1 && v.div == .restoring && v.logged == [r] && imageApart s t v && v.mq.isEmpty && v.past.isEmpty && s.copies.isEmpty &&
  s.doneCopies.isEmpty && (s.tile v.ptile).dbg == .running && decide (v.saves.map (·.1)).Nodup &&
  ((List.range 8).all fun i => s.strandAt v.ptile i == none) &&
  field (s.mem.num (hbmKey (t.img 1) + 655504 + 8 * 2) 8) 0 8 == 2 && (lookup 2 v.saves).map (·.why) == some .vacate
def restoringByte : State := through (restoring loggedByte)
def restoringFill : State := through (restoring loggedFill)
theorem witness_DiversionSteps_restored : Comes restoringByte (restorable loggedByte restoringByte) ∧
    Comes restoringFill (restorable loggedFill restoringFill) :=
  ⟨come_through (found (by decide +kernel)), come_through (found (by decide +kernel))⟩
theorem witness_DiversionSteps_rotation : (∃ t x, rotating.team? 1 = some t ∧ rotating.vtile? 1 0 = some x ∧
    t.rotation = true ∧ rotationPair rotating t 1 .grp 0 = some (0, 1) ∧ (rotating.vtile? 1 1).isSome = true) :=
  exist_both (by decide +kernel)
theorem witness_ContainmentSteps :
    ((vac0.tile 1).owner = some (1, 1) ∧ vac0.team? 1 = some worldTeam ∧ vac0.vtile? 1 1 = some (newVtile 1 1) ∧
      (newVtile 1 1).lost = false ∧ (newVtile 1 1).ptile = 1 ∧ (newVtile 1 1).res = true) ∧
    (vac0.tile 7).owner = none ∧ vac0.launches = [] ∧ (∀ v ∈ vac0.vtiles, v.2.restoreTo.map (·.1) ≠ some 7) ∧ (1 : Nat) < 1024 ∧ (newVtile 1 1).ptile / 16 = 0 ∧
    (vac0.errc.get (errIndex (storeKey 1 0))).toNat < 2 ^ 64 - 1 ∧ bit vac0.quiesce.toNat 63 = false ∧
    bit (0x8000000000000107 : Word).toNat 63 = true ∧
    (let s := after (.quiesceStart 0x8000000000000107) vac0; s.quiesce.getLsbD 63 = true ∧ inFlight s = false ∧
      s.now < s.quiesceSince + 10000000 ∧ s.quiesceSince + 10000000 ≤ ({ s with podtime := 10000000 } : State).now) ∧
    (let s := after (.quiesceStart 0x8000000000001100) { cpy2 with landings := cpy2.landings.map fun l => (l.1, { l.2 with home := edgeSite 2 }) }; s.quiesce.getLsbD 63 = true ∧ inFlight s = true) ∧
    vac0.quiesce.getLsbD 63 = false := by decide +kernel


/-! ### Links, time and flow control (R196 to R210) -/

/-- Quad 5 in a state, as a UALink quad. -/
def quadWorld (st : QuadState) : State := State.putQuad { world with quads := [] } 5 { Quad.initial 1 with st := st }
/-- A write to QCTL: GO, quad 5, NEWP. -/
def qctlOf (newp : Nat) : Word := BitVec.ofNat 64 (5 + newp * 2 ^ 16 + 2 ^ 63)
/-- Quad 5 was UP and routed, and is ordered to become a UEC quad. -/
def up5 : State := { quadWorld .up with routes := [(3, 0xFF), (4, 0x20)] }
def quiet5 : State := after (.personalitySwitch (qctlOf 2)) up5
def drain5 : State := quiet5.advance 1 0
def train5 : State := after (.trainingDone 5 true 0xFF 4) (quadWorld .train)
/-- The peer's record: what this end sends, with another UID. -/
def peerRecord : BitVec 128 := BitVec.ofNat 128 (pack [17, 2, 1, 8, 8, 4, 2, 10, 12, 64]
  [0, 1, 1, 0xF, 0xFF, 4, 1, 9, 5, 0])

theorem test_personality_switch : ((quiet5.quad 5).st, (drain5.quad 5).st, drain5.routes, drain5.qctl.getLsbD 63) =
    (.quiesce, .drain, [(3, 0xDF), (4, 0)], true) := by decide +kernel
theorem test_personality_busy : (after (.personalitySwitch (qctlOf 1)) drain5).qctl.getLsbD 62 = true := by decide +kernel
theorem test_drain_complete : let s := after (.drainComplete 5) drain5
    ((s.quad 5).st, (s.quad 5).pers) = (.reconfigure, 2) := by
  decide +kernel
theorem test_drain_timeout : (((after (.drainTimeout 5) drain5).quad 5).st,
    ((after (.drainTimeout 5) { drain5 with podtime := 100000 }).quad 5).st) = (.drain, .reconfigure) := by decide +kernel
theorem test_reconfigure_done : ((after (.reconfigureDone 5) (quadWorld .reconfigure)).quad 5).st = .train := by decide +kernel
theorem test_training_done : ((train5.quad 5).st, (train5.quad 5).offer, train5.outbox.length) = (.agree, 4, 1) := by decide +kernel
/-- The third failed attempt leaves the quad DOWN (R202). -/
theorem test_training_failed : let s := (quadWorld .train).putQuad 5 { (quadWorld .train).quad 5 with att := 2 }
    (((after (.trainingDone 5 false 0 0) s).quad 5).st, (after (.trainingDone 5 false 0 0) s).qctl.getLsbD 62) = (.down, true) := by decide +kernel
theorem test_map_done : let s := after (.mapDone 5 [.route 3 0x20]) (quadWorld .map)
    ((s.quad 5).st, s.routes) = (.up, [(3, 0x20)]) := by
  decide +kernel
theorem test_retire : (after (.retire 5) up5).routes = [(3, 0xDF), (4, 0)] := by decide +kernel
theorem test_retrain : let s := after (.retrain ⟨5, true, 0⟩) up5
    ((s.quad 5).st, (s.quad 5).retraining) = (.train, true) := by decide +kernel
theorem test_beacon : let s := after (.podTimeBeacon 7 ⟨100, 100⟩) (up5.putQuad 7 { Quad.initial 1 with delay := 4 })
    (s.outbox, s.podtime, s.slew, (after (.podTimeBeacon 7 ⟨100, 100⟩) s).outbox) = ([.beacon 5 100 104], 0, 104, [.beacon 5 100 104]) := by decide +kernel
theorem test_link_delay : ((after (.linkDelayMeasure 5 9) up5).quad 5).delay = 9 := by decide +kernel
theorem test_totals : (after (.flowControlTotals 5 2 10 6) up5).credits = [(42, ⟨0, 0, 6, 0⟩)] := by decide +kernel
theorem test_totals_send : (after (.flowControlTotalsSend 5 2) up5).outbox = [.totals 5 2 0 0] := by decide +kernel
/-- A correction of 104 ns is worked off at 50 ppm: in a millisecond pod time gains 50 ns of it (R209). -/
theorem test_slew : let s := ({ up5 with slew := 104 }).advance 0 1000000
    (s.podtime, s.slew) = (1000050, 54) := by decide +kernel
/-- Of five flits only what the peer's buffers hold goes out (R210). -/
theorem test_credit : let s := ({ up5 with bufs := Vector.replicate 4 3 } : State)
    ((s.spend 5 2 5).2.credit 5 2).sent = 3 := by decide +kernel
/-- A control message passes data that waits at its port, and no other (R238). -/
theorem test_control_first : (let d : Msg := .answer 0 5 1 0 0 0 .done
    ((up5.send d).send (.gangAbort 0 5 1 7)).outbox) = [.gangAbort 0 5 1 7, .answer 0 5 1 0 0 0 .done] := by decide +kernel
/-- The first bytes of SHA-384 of "abc" (FIPS 180-4). -/
theorem test_sha384 : (sha384 [0x61, 0x62, 0x63]).take 8 = [0xCB, 0x00, 0x75, 0x3F, 0x45, 0xA3, 0x5E, 0x8B] := by decide +kernel
theorem test_flit_error : let s := after (.flitCrcError 5) up5
    (s.errc.get 9, s.outbox) = (1, [.resend 5]) := by decide +kernel

theorem witness_LinkSteps :
    (bit (qctlOf 2).toNat 63 = true ∧ up5.qorder = none ∧ (up5.quad 5).pers ≠ 3 ∧ field (qctlOf 2).toNat 0 6 = 5 ∧
      field (qctlOf 2).toNat 16 2 = 2 ∧ mapOk (fun i => if i = 5 then 2 else (up5.quad i).pers) = true ∧ (up5.quad 5).st = .up) ∧
    ((quadWorld .train).quad 5).st ≠ .up ∧ drain5.qorder.isSome = true ∧
    (drain5.qorder = some ⟨5, [5], 2, 100000, 0⟩ ∧ (drain5.quad 5).pers ≠ 3 ∧ (drain5.quad 5).st = .drain ∧
      linkBusy drain5 [5] = false ∧ drain5.now < 0 + 100000 ∧ 0 + 100000 ≤ ({ drain5 with podtime := 100000 } : State).now) ∧
    ((quadWorld .reconfigure).quad 5).st = .reconfigure ∧ ((quadWorld .train).quad 5).st = .train ∧
    (let x := (quadWorld .train).quad 5; rateOk x.pers (min x.offer 4) = true ∧ rateOk x.pers (min x.offer 5) = false ∧
      x.att + 1 < 3 ∧ 3 ≤ ({ x with att := 2 } : Quad).att + 1) ∧
    ((quadWorld .map).quad 5).st = .map ∧ (3 : Nat) < 1024 ∧ testImage.laneLimit < 11 := by decide +kernel
/-- The peer's record agrees with what quad 5 offers: its personality, CFGGEN, lanes and rate. -/
theorem witness_LinkSteps_agree (low : Bool) :
    (let x := train5.quad 5; x.st = .agree ∧ x.pers = 1 ∧ x.good = 0xFF ∧ x.offer = 4 ∧ rateOk x.pers x.offer = true) ∧
    train5.image.cfgGen = 5 ∧ field peerRecord.toNat 40 2 = 1 ∧ field peerRecord.toNat 52 12 = 5 ∧
    mirrored (BitVec.ofNat 8 (field peerRecord.toNat 28 8)) = 0xFF ∧
    (0xFF : BitVec 8) &&& (0x0F ||| mirrored (BitVec.ofNat 8 (field peerRecord.toNat 20 8))) = 0xFF ∧
    field peerRecord.toNat 36 4 = 4 ∧ peerRecord.toNat.testBit 19 = true ∧ (agreed 0xFF true low true).isSome = true := by
  cases low <;> decide +kernel
theorem witness_TimeAndFlowSteps : (up5.quad 5).pers ≠ 3 ∧ (up5.quad 5).st = .up ∧ (up5.errc.get 9).toNat < 2 ^ 64 - 1 ∧
    up5.image.timeRoot = false ∧ up5.beacon.toNat < (100 : Word).toNat ∧
    ((up5.credit 5 2).sent - (up5.credit 5 2).lastFreed).toNat ≤ up5.bufs.toList.getD 2 0 ∧
    (Msg.gangAbort 0 5 1 7).control = true := by
  decide +kernel


/-! ### Debug (R242 to R259) -/

/-- `world` with tile 0 changed. -/
def debugWorld (f : Tile → Tile) : State := world.onTile 0 f
def halted : State := debugWorld fun x => { x with dbg := .halted }
/-- Tile 0 halted on its own account and triggers group 3, of which tile 1 is a member. -/
def grouped : State := { (debugWorld fun x => { x with dbg := .halted, haltgrp := 2 ^ 35 }).onTile 1 fun x => { x with haltgrp := 8 } with
  hgcfg := 2 ^ 35, routes := [(3, 0x20)], quads := [(5, { Quad.initial 1 with st := .up })] }
/-- The groups without other packages. -/
def alone : State := { grouped with hgcfg := 0 }
/-- The trigger goes over the one UP quad, whatever the hash is (R199). -/
theorem witness_DebugSteps_quad : grouped.controlQuad 3 = some 5 := by
  have h : grouped.upQuads 3 = [5] := by decide +kernel
  simp [State.controlQuad, State.quadTo, h, Nat.mod_one]
/-- An entry that matches PC 0 once, where DIV s3, s1, s2 stands. -/
def matching : State := { debugWorld fun x => { x with pcmt := x.pcmt.set 0 0xC000000000000000, pcmh := 0x80 } with
  mem := world.mem.put (hbmKey 0x2000) (bytesOf 8 0x4000000000810C05) }
abbrev matchDiv : Instr := .div ⟨false, .i32, 2, 1, 3⟩
def emptyStrand : Strand := { fetchStrand with sfull := ~~~2 }
/-- Register s1 of the strand is empty, so that it cannot issue the DIV. -/
def matchingEmpty : State := matching.putAt 0 0 emptyStrand
/-- Tile 0 traces to 0x30000. -/
def tracing : State := { debugWorld fun x => { x with trctl := 0x8000000000030000 } with podtime := 77 }

theorem test_hreq : let s := after (.hreq 0) world
    ((s.tile 0).dbg, (after (.haltComplete 0) s |>.tile 0).dbg) = (.halting, .halted) := by decide +kernel
theorem test_run : ((after (.run 0) halted).tile 0).dbg = .running := by decide +kernel
/-- A step ends once its instruction has issued, and not before (R255). -/
theorem test_step : let s := after (.step 0 2) halted
    ((s.tile 0).dbg, (s.tile 0).stepSlot, ((after (.stepComplete 0) s).tile 0).dbg,
      ((after (.stepComplete 0) (s.onTile 0 fun x => { x with stepped := true })).tile 0).why) = (.stepping, some 2, .stepping, 5) := by decide +kernel
theorem test_pass : ((after (.passWrite 0) world).tile 0).pass = true := by decide +kernel
theorem test_halt_group : let s := after (.haltGroupTrigger 0 3) alone
    ((s.tile 1).dbg, (s.tile 1).why, (s.tile 1).group, s.outbox) = (.halting, 1, 3, []) := by decide +kernel
theorem test_hgrun : let s := alone.onTile 1 fun x => { x with dbg := .halted }
    (((after (.hgrun ⟨false, 8⟩) s).tile 1).dbg, ((after (.hgrun ⟨false, 4⟩) s).tile 1).dbg) = (.running, .halted) := by decide +kernel
theorem test_snapgo : (after .snapgo halted).snaps.length = 3 * 2 + 1 + 64 := by decide +kernel
/-- The handler starts at PCMH with the matched PC in s1, and ONCE disables the entry (R252, R253). -/
theorem test_pc_match : (after (.pcMatch 0 0) matching).agenda = [.issue 0 0] ∧ (match issueWith exec matching 0 0 with
    | .next s => ((s.strandAt 0 8).map (fun k => (k.pc, k.rd 1, k.rd 5)), (s.tile 0).pcmt.get 0)
    | _ => (none, 0)) = (some (0x80, 0, 0), 0x4000000000000000) := by decide +kernel
/-- A strand that cannot issue meets no match (R253). -/
theorem test_pc_match_waits : (match issueWith exec matchingEmpty 0 0 with
    | .next s => ((s.strandAt 0 8).isSome, (s.strandAt 0 0).map (·.wait), (s.tile 0).pcmt.get 0)
    | _ => (true, none, 0)) = (false, some .empty, 0xC000000000000000) := by decide +kernel
/-- A time record: kind 11, the time and the pod time (R258). -/
theorem test_trace_time : let s := (tracing.onTile 0 fun x => { x with trbuf := [pack [5, 5, 4, 10, 40, 64] [11, 0, 0, 0, 77, 77]] }).storeTrace 0
    (s.mem.num (hbmKey 0x30000) 1 % 32, s.mem.num (hbmKey 0x30008) 8, (s.tile 0).trpos) = (11, 77, 1) := by decide +kernel

theorem goes_to {i : Instr} {s : State} {P : State → Bool} (h : (match exec i s with
    | .next u => P u
    | _ => false) = true) : ∃ u, exec i s = .next u ∧ P u = true := by
  cases he : exec i s <;> simp_all
theorem match_witness : ∀ s k, (s, k) ∈ [(matching, fetchStrand), (matchingEmpty, emptyStrand)] →
    s.strandAt 0 0 = some k ∧ mayIssue s 0 0 k = true ∧ k.issued = false ∧ matchEntry (s.tile 0) 0 k.pc = some 0 ∧
    s.team? 1 = some worldTeam ∧ (s.tile 0).serving = none ∧ (s.tile 0).matches_ = [] ∧
    nextInstr { s with at_ := (0, 0) } 0 0 k = .ok matchDiv ∧
    ∃ u, exec matchDiv { s with at_ := (0, 0) } = .next u ∧ State.waits s 0 0 u = (k == emptyStrand) := by
  intro s k h
  simp only [List.mem_cons, Prod.mk.injEq, List.not_mem_nil, or_false] at h
  obtain ⟨rfl, rfl⟩ | ⟨rfl, rfl⟩ := h
  · obtain ⟨u, hu, hw⟩ := goes_to (i := matchDiv) (s := { matching with at_ := (0, 0) })
      (P := fun u => State.waits matching 0 0 u == (fetchStrand == emptyStrand)) (by decide +kernel)
    exact ⟨by decide +kernel, by decide +kernel, by decide +kernel, by decide +kernel, by decide +kernel, by decide +kernel,
      by decide +kernel, by decide +kernel, u, hu, by simpa using hw⟩
  · obtain ⟨u, hu, hw⟩ := goes_to (i := matchDiv) (s := { matchingEmpty with at_ := (0, 0) })
      (P := fun u => State.waits matchingEmpty 0 0 u == (emptyStrand == emptyStrand)) (by decide +kernel)
    exact ⟨by decide +kernel, by decide +kernel, by decide +kernel, by decide +kernel, by decide +kernel, by decide +kernel,
      by decide +kernel, by decide +kernel, u, hu, by simpa using hw⟩
theorem witness_DebugSteps :
    ((world.tile 0).trctl.getLsbD 63 = false ∧ (world.tile 0).dbg = .running ∧ (world.tile 0).port = []) ∧
    (((after (.step 0 2) halted).tile 0).trctl.getLsbD 63 = false ∧ ((after (.step 0 2) halted).tile 0).dbg = .stepping ∧
      ((after (.step 0 2) halted).tile 0).stepped = false) ∧
    ((after (.hreq 0) world).tile 0).dbg = .halting ∧
    ((halted.tile 0).trctl.getLsbD 63 = false ∧ (halted.tile 0).port = [] ∧ (halted.tile 0).dbg = .halted) ∧
    ((grouped.tile 0).dbg ≠ .running ∧ (grouped.tile 0).ownHalt = true ∧ (grouped.tile 0).haltgrp.getLsbD (32 + 3) = true ∧
      (∃ x, lookup 1 grouped.tiles = some x ∧ x.dbg = .running ∧ x.haltgrp.getLsbD 3 = true) ∧
      grouped.hgcfg.getLsbD (32 + 3) = true) ∧
    ((∀ x ∈ grouped.tiles, x.2.port = []) ∧
      ∃ x, lookup 0 (grouped.onTile 0 fun x => { x with haltgrp := 8 }).tiles = some x ∧ x.dbg = .halted ∧
        (x.haltgrp.truncate 32 &&& (8 : BitVec 32)) ≠ 0) ∧
    (∀ s k, (s, k) ∈ [(matching, fetchStrand), (matchingEmpty, emptyStrand)] →
      s.strandAt 0 0 = some k ∧ mayIssue s 0 0 k = true ∧ k.issued = false ∧ matchEntry (s.tile 0) 0 k.pc = some 0 ∧
      s.team? 1 = some worldTeam ∧ (s.tile 0).serving = none ∧ (s.tile 0).matches_ = [] ∧
      nextInstr { s with at_ := (0, 0) } 0 0 k = .ok matchDiv ∧
      ∃ u, exec matchDiv { s with at_ := (0, 0) } = .next u ∧ State.waits s 0 0 u = (k == emptyStrand)) ∧
    (tracing.mem.wf ∧ (tracing.tile 0).trctl.getLsbD 63 = true ∧ State.hbmHas 0x30000 16 = true ∧ (tracing.tile 0).trbuf = [] ∧
      (tracing.tile 0).trdrop = 0 ∧ (tracing.tile 0).owner = some (1, 0) ∧ tracing.heldBack 1 0 = false) :=
  ⟨by decide +kernel, by decide +kernel, by decide +kernel, by decide +kernel,
    ⟨by decide +kernel, by decide +kernel, by decide +kernel,
      ⟨(lookup 1 grouped.tiles).get (by decide +kernel), by decide +kernel⟩, by decide +kernel⟩,
    ⟨by decide +kernel, ⟨(lookup 0 (grouped.onTile 0 fun x => { x with haltgrp := 8 }).tiles).get (by decide +kernel),
      by decide +kernel⟩⟩, match_witness, by decide +kernel⟩
/-- The records of a tile reach their ring at once, or wait for the link between its die and the ring's (R210, R258). -/
def traceWay0 (s : State) : List Nat := sitePath (tileSite 0) (s.homeSite (hbmKey 0x30000))
theorem witness_DebugSteps_trace : (tracing.cross (traceHop 0) (traceWay0 tracing) 1 2).1 = true := by
  obtain ⟨d, hd, hs⟩ := home_hbm tracing (key := hbmKey 0x30000) (by decide)
  unfold traceWay0
  rw [hs]
  clear hs
  exact fresh_cross (by decide +kernel) (by decide +kernel) (by decide +kernel) (by decide) (by revert hd; revert d; decide) (by decide) (by decide)
/-- Tile 0 of die 0 or tile 256 of die 1 traces, and no link takes flits of class 1. -/
def tracingFar (p : Nat) : State :=
  { world.onTile p fun x => { x with trctl := 0x8000000000030000 } with bufs := Vector.replicate 4 0 }
theorem witness_DebugSteps_traceWaits : ∃ p ∈ [0, 256],
    (((tracingFar p).tile p).trctl.getLsbD 63 = true ∧ ((tracingFar p).tile p).trbuf = [] ∧ ((tracingFar p).tile p).trdrop = 0 ∧
      ∀ o, ((tracingFar p).tile p).owner = some o → (tracingFar p).heldBack o.1 p = false) ∧
    ((tracingFar p).cross (traceHop p) (sitePath (tileSite p) ((tracingFar p).homeSite (hbmKey 0x30000))) 1 2).1 = false := by
  obtain ⟨d, hd, hs⟩ := home_hbm world (key := hbmKey 0x30000) (by decide)
  have h : ∀ p, (tracingFar p).homeSite (hbmKey 0x30000) = 64 + d := fun p => hs
  refine ⟨if d = 0 then 256 else 0, by split <;> simp, ?_⟩
  rw [h]
  clear h hs
  revert hd; revert d; decide +kernel

/-! ### Lycel (R241, R260, R264 to R274) -/

/-- A request of a kind for team 1 at 0x6000, whose record goes to 0x7000. -/
def asked (kind : Nat) : State :=
  { world with
    snapreq := 0x8000000000006000
    mem := world.mem.put (hbmKey 0x6000) (bytesOf 2 1 ++ bytesOf 6 kind ++ bytesOf 8 0x7000 ++ bytesOf 48 0x55) }
theorem test_counter_snapshot : let s := after .counterSnapshot (asked 0)
    (s.snapreq, s.snapSeq, s.mem.num (hbmKey 0x7000) 4, s.mem.num (hbmKey 0x7006) 1) = (0x6000, 1, 0x50414E53, 1) := by decide +kernel
theorem test_composition : let s := after .compositionRecord (asked 1)
    (s.snapreq, s.snapSeq, s.mem.num (hbmKey 0x7000) 4) = (0x6000, 0, 0x504D4F43) := by decide +kernel
/-- A request whose kind is above 1 fails (R267). -/
theorem test_request_fails : (after .counterSnapshot (asked 2)).snapreq = 0x4000000000006000 := by decide +kernel
theorem test_fstat_clear : ((after (.fstatClear 1 0 0xFF) (world.putVtile 1 0 { newVtile 0 0 with fstat := 0xB3 })).vtile? 1 0).map
    (·.fstat) = some 0x80 := by decide +kernel
theorem test_errc_clear : (after (.errcClear 4) (world.countErr 4 9)).errc.get 4 = 0 := by decide +kernel
theorem test_replay_write : ((after (.replayWrite 0 0 true) world).strandAt 0 0).map (·.replay) = some true := by decide +kernel
theorem test_register_write : ((after (.systemRegisterWrite 0 .qdbase 0xFFFF) { world with teams := [] }).qdbase,
    (after (.systemRegisterWrite 0 .qdbase 0xFFFF) world).qdbase) = (0xFFC0, 0) := by decide +kernel
theorem test_endpoint_store : (after (.managementEndpointAccess (.writeStore 0 0x7FFFE [1, 2])) halted).mem.num (storeKey 0 0x7FFFE) 2 =
    0x201 := by decide +kernel
theorem test_endpoint_scalar : ((after (.managementEndpointAccess (.writeScalar 0 0 3 9 true)) halted).strandAt 0 0).map (·.rd 3) =
    some 9 := by decide +kernel
theorem test_endpoint_register : (after (.managementEndpointAccess (.readReg 0 0 (.acct 3))) world).outbox =
    [.mgmt [0, 0, 0, 0, 0, 0, 0, 0]] := by decide +kernel
/-- The package as reset leaves it, with the image of the tests. -/
def fresh (i : Config.Image) : State := { State.reset with image := i }
theorem test_power_on : let s := after (.powerOn ⟨none, some 5⟩) (fresh testImage)
    (s.boot, (s.quad 0).st, (s.quad 27).st, s.podtime) = (.booted, .train, .down, 5) := by decide +kernel
/-- An image whose CFGGEN is below the fused minimum is refused (R271). -/
theorem test_image_refused : (after (.powerOn ⟨none, none⟩) (fresh { testImage with minGen := 6 })).boot = .reset 2 := by decide +kernel
/-- A personality map of 64 UALink quads is more than the package takes, and stops the boot at step 4 (R196, R272). -/
theorem test_map_refused : (after (.powerOn ⟨none, none⟩) (fresh { testImage with pers := some (Vector.replicate 64 1) })).boot =
    .reset 4 := by decide +kernel
theorem test_power_cap : let s := after (.powerCapThrottle 1 2900) world
    (s.clocks.get 1, (after (.powerCapThrottle 1 1400) s).clocks.get 1) = (2900, 2900) := by decide +kernel
theorem test_thermal : let s := after (.thermalThrottle 2) world
    (s.clocks.get 2, (after (.thermalRecovery 2) s).clocks.get 2) = (1500, 3000) := by decide +kernel
theorem test_shutdown : (after .thermalShutdown world).boot = .off := by decide +kernel

theorem witness_LycelSteps :
    (∀ kind, kind ∈ [0, 1] → let s := asked kind; let a := requestAddr s
      s.mem.wf ∧ s.snapreq.getLsbD 63 = true ∧ State.hbmHas a 64 = true ∧ s.team? (s.hbm a 2) = some worldTeam ∧
      s.hbm (a + 3) 5 = 0 ∧ s.hbm (a + 2) 1 = kind ∧ s.hbm (a + 8) 8 / 128 * 128 = 0x7000) ∧
    (world.team? 1 = some worldTeam ∧ world.vtile? 1 0 = some (newVtile 0 0) ∧ (newVtile 0 0).div = .resident) ∧
    world.strandAt 0 0 = some fetchStrand ∧ halted.mem.wf ∧ (halted.tile 0).dbg = .halted ∧
    0x7FFFE + 2 ≤ storeSize ∧ halted.strandAt 0 0 = some fetchStrand ∧ State.reset.boot = .reset 0 ∧
    imageTaken testImage = true ∧ imageTaken { testImage with signed := false } = false ∧ 2900 < world.clocks.get 1 ∧
    mapOk (fun q => (testImage.map.toList.getD q 0).val) = true ∧
    mapOk (fun q => (({ testImage with pers := some (Vector.replicate 64 1) } : Config.Image).map.toList.getD q 0).val) = false ∧
    (after (.thermalThrottle 2) world).hot.get 2 = true := by decide +kernel
/-- The records end in the memory that HBM has: 384 bytes for a snapshot. -/
theorem witness_LycelSteps_records (nonce : List Byte) (h : nonce.length = 48) :
    State.hbmHas 0x7000 (counterRecord (asked 0) worldTeam nonce).length = true ∧
    State.hbmHas 0x7000 (compositionBytes worldTeam nonce).length = true := by
  have e : ∀ n v, (bytesOf n v).length = n := by intro n v; simp
  have a : (worldTeam.acct.toList.flatMap (bytesOf 8)).length = 168 := by decide +kernel
  have p : worldTeam.nP = 1 := by decide +kernel
  refine ⟨?_, ?_⟩
  · simp only [counterRecord, signed, State.hbmHas, List.length_append, h, e, a]; decide
  · simp only [compositionBytes, signed, State.hbmHas, List.length_append, h, e, p, List.length_flatMap]
    decide


/-! ### Virga (R211 to R237) -/

/-- A node of a graph image (R214): OP, TAG, DEP, the first successor, PEER, FMT, the slots and LEN. -/
def nodeBytes (op tag dep succ peer fmt sslot dslot len : Nat) : List Byte :=
  bytesOf 64 (pack [4, 12, 16, 232, 8, 12, 12, 12, 12, 12, 16, 4, 4, 4, 6, 6, 12, 16, 40, 40, 32]
    [op, 0, tag, 0, dep, succ, 0xFFF, 0xFFF, 0xFFF, 0, peer, 0, 0, fmt, sslot, dslot, 0, 0, 0, 0, len])
/-- WAITX and then COPY; and RECV from package 1. Slot 0 is the counter, 1 the source, 2 and 3 the destinations. -/
def imageBytes : List Byte :=
  bytesOf 64 (pack [32, 16, 8, 8, 16, 16, 32, 32, 32, 16, 16, 32] [0x56475231, 3, 4, 1, 2, 0, 256, 264, 264, 9, 0, 296])
    ++ nodeBytes 9 0 0 1 0 0 0 0 0 ++ nodeBytes 7 1 1 0xFFF 0 5 1 2 2 ++ nodeBytes 2 7 0 0xFFF 1 5 0 3 2
    ++ bytesOf 4 0 ++ bytesOf 4 0x40000001 ++ bytesOf 8 3 ++ bytesOf 8 0 ++ bytesOf 8 1 ++ bytesOf 8 1
/-- The binding array: counter 0x400 with BASEV 3, HBM, and the tile stores of vtiles 1 and 0. -/
def bindBytes : List Byte :=
  bytesOf 16 (0x400 + 3 * 2 ^ 40 + 2 ^ 127) ++ bytesOf 16 (hbmHandle * 2 ^ 64 + 4 * 2 ^ 112)
    ++ bytesOf 16 (0x200 + 2 ^ 96 + 2 ^ 112) ++ bytesOf 16 (0x300 + 2 ^ 112)
/-- s1 the image, s2 its counter, s3 the bindings, s4 graph 1, s6 a ticket. The team has two packages. -/
def virgaStrand : Strand := withRegs [(1, 0x1000), (2, 0x408), (3, 0x2000), (4, 1), (6, 0x100000001)]
def pairTeam : Team := newTeam (packetOf 0 2 + 2 ^ 64) 0 0 0 0x100000 [0, 1] []
def virgaWorld : State :=
  (((((world.putTeam 1 pairTeam).put virgaStrand).update (storeKey 0 0x1000) imageBytes).update (storeKey 0 0x2000) bindBytes).update
    (storeKey 0 0x400) [3]).update (hbmKey 0x4000) (bytesOf 8 0x1122334455667788)
abbrev collF (a b : SReg) : CollC := ⟨false, 6, b, a, 5⟩
def graph1 : State := after (.collLd (collF 1 2)) virgaWorld
/-- The same graph, loaded (`test_graph_load`). -/
def graph2 : State := { graph1 with
  fresh := graph1.fresh + 1
  graphs := graph1.graphs.map fun g => (g.1, { g.2 with st := .loaded, image := imageBytes }) }
def run1 : State := after (.collRun ⟨false, 0, 3, 4, 7⟩) graph2
def run2 : State := after (.runStart 1 1) run1
def run3 : State := after (.virgaNodeStart 1 1 0) run2
def run4 : State := after (.virgaNodeComplete 1 1 0) run3
def run5 : State := after (.virgaNodeStart 1 1 1) run4
def run6 : State := after (.virgaNodeComplete 1 1 1) run5
def run7 : State := after (.virgaNodeComplete 1 1 1) (after (.landing 3) run6)
def run8 : State := after (.virgaNodeStart 1 1 2) run7
/-- Two values from package 1 for the RECV of run 1. -/
def chunk9 : Chunk := ⟨false, 1, 1, 9, 1, 7, 0, 1, .send, (nodeOf imageBytes 2).sig, [(0xAB, false), (0xCD, false)]⟩
def report9 : VirgaReport := ⟨false, 1, 1, 9, 1, 7, 0⟩
def run9 : State := after (.virgaChunkReceive ⟨5, chunk9⟩) run8
/-- A second run of the graph conflicts with the first (R235). -/
def runTwice : State := after (.collRun ⟨false, 0, 3, 4, 7⟩) run2
/-- The first run has filled the bound-range table with other ranges (R235). -/
def tableFull : State := { runTwice with runs := runTwice.runs.map fun r => if r.1 = 2 then (r.1, { r.2 with ranges := [], slots := 4096 }) else r }
/-- An image whose header is not one. -/
def graphBad : State := after (.collLd (collF 1 2)) (virgaWorld.update (storeKey 0 0x1000) [0])
/-- Every graph number is taken. -/
def graphsFull : State := { virgaWorld with graphs := (interval 1 1023).map fun g =>
  (g, ⟨⟨1, 0, 0, 0, 0, 0, 0, 0⟩, .loaded, 0, [], 0, 0, 0, 0, 1, 0, []⟩) }
theorem lookup_mapped {α : Type} (g : Nat) (x : α) (l : List Nat) (h : g ∈ l) : lookup g (l.map fun j => (j, x)) = some x := by
  induction l with
  | nil => cases h
  | cons j l ih =>
    simp only [List.map_cons, lookup]
    split
    · rfl
    · exact ih (by rcases List.mem_cons.1 h with rfl | h' <;> first | contradiction | exact h')
theorem graphsFull_none : freeGraph graphsFull = none := by
  unfold freeGraph
  rw [List.find?_eq_none]
  intro g h
  simp [graphsFull, lookup_mapped g _ _ h]
/-- State, cause, node and node states of run 1. -/
def runOf (s : State) : Option (RunState × Nat × Nat × List NodeState) :=
  (s.runs.find? fun r => r.2.run == 1).map fun r => (r.2.st, r.2.cause, r.2.node, r.2.nodes.map (·.st))

theorem test_coll_ld : (graph1.graphs.map (fun g => (g.1, g.2.st)), graph1.strand?.map (·.rd 5)) = ([(1, .loading)], some 1) := by
  decide +kernel
theorem test_graph_load : let s := after (.graphLoadComplete 1) graph1
    (s.graphs.map (·.2.st), s.graphs.map (fun g => g.2.image == imageBytes), s.incs.map (fun i => (i.2.ofs, i.2.amount))) = ([.loaded], [true], [(0x408, 6)]) := by
  decide +kernel
theorem test_graph_malformed : let s := after (.graphLoadComplete 1) graphBad
    (s.graphs.map (fun g => (g.2.st, g.2.cause, g.2.node)), causeOf s) = ([(.failed, 0x48, 0xFFF)], 0x48) := by decide +kernel
theorem test_coll_run : (run1.strand?.map (·.rd 7), runOf run1) =
    (some 0x100000001, some (.waiting, 0, 0, [.waiting, .waiting, .waiting])) := by decide +kernel
theorem test_run_start : runOf run2 = some (.running, 0, 0, [.ready, .waiting, .ready]) := by decide +kernel
theorem test_run_waits : (after (.runStart 1 2) runTwice).runs.map (·.2.st) = [.running, .waiting] := by decide +kernel
theorem test_run_room : (after (.runStart 1 2) tableFull).runs.map (fun r => (r.2.st, r.2.room)) = [(.running, false), (.waiting, true)] := by
  decide +kernel
theorem test_node_start : (run5.runs.map fun r => (r.2.nodes.map (·.src))) = [[[], [(0x55667788, false), (0x11223344, false)], []]] := by
  decide +kernel
theorem test_node_complete : runOf run4 = some (.running, 0, 0, [.done, .ready, .ready]) := by decide +kernel
theorem test_node_writes : (runOf run7, run7.mem.num (storeKey 1 0x200) 8) =
    (some (.running, 0, 0, [.done, .done, .ready]), 0x1122334455667788) := by decide +kernel
theorem test_chunk : run9.runs.map (fun r => r.2.nodes.map (·.inbox.length)) = [[0, 0, 1]] := by decide +kernel
theorem test_chunk_staged : (after (.virgaChunkReceive ⟨5, chunk9⟩) run7).staging.length = 1 := by decide +kernel
theorem test_mismatch : runOf (after (.virgaChunkReceive ⟨5, { chunk9 with sig := 5 }⟩) run8) =
    some (.failed, 0x48, 2, [.done, .done, .failed]) := by decide +kernel
theorem test_mismatch_report : runOf (after (.virgaMismatchReport report9) run8) = some (.failed, 0x48, 2, [.done, .done, .failed]) := by
  decide +kernel
theorem test_peer_unreachable : ((after (.peerUnreachable 1 1) virgaWorld).team? 1).map (·.peersDown) = some [(1, 0)] := by
  decide +kernel
/-- The status word says running (R220). -/
theorem test_coll_stat : let s := after (.collStatFill run2.fresh) (after (.collStat ⟨false, 6, 8⟩) run2)
    s.strand?.map (fun k : Strand => (k.full 8, (k.rd 8).toNat / 2 ^ 61)) = some (true, 2) := by decide +kernel

theorem witness_CollectiveIssue_load :
    (Issues virgaWorld virgaStrand { src := [1, 2], dst := [5] } ∧ virgaWorld.team? 1 = some pairTeam ∧
      checkAll virgaWorld pairTeam [imageOpd virgaWorld pairTeam (virgaStrand.rd 1) 64] (virgaStrand.rd 2) = .ok () ∧
      ctrBad (virgaStrand.rd 2) = false ∧ freeGraph virgaWorld = some 1) ∧
    (Issues graphsFull virgaStrand { src := [1, 2], dst := [5] } ∧ graphsFull.team? 1 = some pairTeam ∧
      checkAll graphsFull pairTeam [imageOpd graphsFull pairTeam (virgaStrand.rd 1) 64] (virgaStrand.rd 2) = .ok () ∧
      freeGraph graphsFull = none) :=
  ⟨by decide +kernel, by decide +kernel, by decide +kernel, by decide +kernel, graphsFull_none⟩
def graphRow : Graph := (lookup 1 graph2.graphs).getD ⟨⟨1, 0, 0, 0, 0, 0, 0, 0⟩, .loaded, 0, [], 0, 0, 0, 0, 1, 0, []⟩
def graphStrand : Strand := graph2.strand?.getD virgaStrand
theorem witness_CollectiveIssue_graph :
    Issues graph2 graphStrand { src := [4, 3], dst := [7] } ∧ graph2.team? graphStrand.team = some pairTeam ∧
      lookup (graphStrand.rd 4).toNat graph2.graphs = some graphRow ∧ graphRow.st = .loaded ∧
      graphRow.who.team = graphStrand.team ∧ (graphHead graphRow.image).nslot = 4 ∧
      (graph2.runs.filter fun r => r.2.open_).length < 256 := by decide +kernel
theorem witness_CollectiveIssue_binds :
    let bs := readBinds graph2 (graphStrand.rd 3 + (0 : BitVec 32).signExtend 64).toNat 4
    let data := bs.zipIdx.filter fun b => !b.1.k && useOf graphRow.image b.2 != 3
    checkAll graph2 pairTeam [storeOpd (graphStrand.rd 3 + (0 : BitVec 32).signExtend 64).toNat (16 * 4) 16] = .ok () ∧
      (∀ b ∈ bs.zipIdx, bindBad graphRow.image b.1 b.2 = false) ∧ (∀ b ∈ data, b.1.space ≠ 0 ∧ b.1.space ≠ 5) ∧
      checkAll graph2 pairTeam (data.map fun b => b.1.opd graphRow.image b.2) = .ok () ∧ bindCvt pairTeam bs = .ok () ∧ bindOfs bs = .ok () ∧
      graph2.anyPoison (storeKey graph2.at_.1 (graphStrand.rd 3 + (0 : BitVec 32).signExtend 64).toNat) (16 * 4) = false := by
  intro bs data
  exact ⟨by decide +kernel, by decide +kernel, by decide +kernel, by decide +kernel, by decide +kernel, by decide +kernel,
    by decide +kernel⟩
theorem witness_CollectiveIssue_stat : Issues virgaWorld virgaStrand { src := [6], dst := [8] } ∧
    field (virgaStrand.rd 6).toNat 42 22 = 0 := by decide +kernel
theorem witness_VirgaSteps_load :
    (∃ x, lookup 1 graph1.graphs = some x ∧ graph1.team? x.who.team = some pairTeam ∧ x.st = .loading ∧
      wordReach graph1 pairTeam x.who.lrank x.addr (max 64 296) = .now ∧ x.touched = [] ∧
      checkAll graph1 pairTeam [imageOpd graph1 pairTeam x.addr 296] = .ok () ∧ awOfs x.addr % 64 = 0 ∧
      (let key := wordKey graph1 pairTeam x.who.lrank x.addr
       (List.range 296).map (fun o => graph1.mem.byte (key o)) = imageBytes ∧ poisonedNode graph1 key imageBytes = none) ∧
      (graphHead imageBytes).len = 296 ∧ malformed imageBytes pairTeam.nP = none ∧
      loadedNodes graph1 + (graphHead imageBytes).nnodes ≤ 65536 ∧ ctrNone x.ctr = false) ∧
    malformed (0 :: imageBytes.drop 1) pairTeam.nP = some 0xFFF :=
  ⟨⟨(lookup 1 graph1.graphs).get (by decide +kernel), by decide +kernel⟩, by decide +kernel⟩
theorem witness_VirgaSteps_runs :
    (∃ r, openRun run1 1 1 = some (2, r) ∧ lookup 2 run1.runs = some r ∧ r.st = .waiting ∧ conflicted run1 2 r = false ∧
      noRoom run1 2 r = false) ∧
    (∃ r, openRun runTwice 1 2 = some (3, r) ∧ lookup 3 runTwice.runs = some r ∧ r.st = .waiting ∧
      conflicted runTwice 3 r = true) ∧
    (∃ r x, openRun run4 1 1 = some (2, r) ∧ lookup 2 run4.runs = some r ∧ run4.team? r.who.team = some pairTeam ∧
      r.nodes[1]? = some x ∧ r.st = .running ∧ x.st = .ready ∧ r.cause = 0 ∧ run4.heldBack r.who.team r.who.tile = false ∧
      run4.staging = [] ∧ run4.vreports = [] ∧ run4.poison = [] ∧ (nodeOf (runImage run4 r) 1).op = 7 ∧
      x.src = [] ∧ (∀ a ∈ [none, some 0], nodeWhyNot run4 pairTeam r (runImage run4 r) (nodeOf (runImage run4 r) 1) a none = none) ∧
      (∀ d ∈ (nodeOf (runImage run4 r) 1).source (runImage run4 r),
        nodeWaits run4 pairTeam r (nodeOf (runImage run4 r) 1) 0 (some d) = false)) ∧
    (∃ r x z, openRun run3 1 1 = some (2, r) ∧ lookup 2 run3.runs = some r ∧ run3.team? r.who.team = some pairTeam ∧
      r.nodes[0]? = some x ∧ r.st = .running ∧ x.st = .active ∧ x.sent = true ∧ x.inc = none ∧ r.cause = 0 ∧ run3.landings = [] ∧
      run3.heldBack r.who.team r.who.tile = false ∧
      run3.reachable r.who.team (ctrVt (r.bind (nodeOf (runImage run3 r) 0).sslot).desc) = true ∧
      (nodeOf (runImage run3 r) 0).op = 9 ∧
      waitxHolds run3 pairTeam (r.bind (nodeOf (runImage run3 r) 0).sslot) (nodeOf (runImage run3 r) 0) = true ∧
      (nodeOf (runImage run3 r) 0).succs.count 1 = 1 ∧ r.nodes[1]? = some z ∧ z.left = 1 ∧ z.st = .waiting) :=
  ⟨⟨(lookup 2 run1.runs).get (by decide +kernel), by decide +kernel⟩,
    ⟨(lookup 3 runTwice.runs).get (by decide +kernel), by decide +kernel⟩,
    ⟨(lookup 2 run4.runs).get (by decide +kernel), (((lookup 2 run4.runs).get (by decide +kernel)).nodes[1]?).get (by decide +kernel),
      by decide +kernel⟩,
    ⟨(lookup 2 run3.runs).get (by decide +kernel), (((lookup 2 run3.runs).get (by decide +kernel)).nodes[0]?).get (by decide +kernel),
      (((lookup 2 run3.runs).get (by decide +kernel)).nodes[1]?).get (by decide +kernel), by decide +kernel⟩⟩
theorem witness_VirgaSteps_room : ∃ r, openRun tableFull 1 2 = some (3, r) ∧ lookup 3 tableFull.runs = some r ∧ r.st = .waiting ∧
    conflicted tableFull 3 r = false ∧ noRoom tableFull 3 r = true :=
  ⟨(lookup 3 tableFull.runs).get (by decide +kernel), by decide +kernel⟩
theorem witness_VirgaSteps_messages :
    let found (s : State) := findNode s chunk9.far chunk9.team chunk9.src chunk9.gtag chunk9.run chunk9.tag chunk9.shard
      fun n => compatible chunk9.node n.op
    ((chunkTeams run8 chunk9).any run8.heldEdge = false ∧
      (chunkTeams run8 chunk9).any ({ run8 with quiesce := 2 ^ 63 + 2 ^ 61 + 2 ^ 12 } : State).heldEdge = true) ∧
    (found virgaWorld = none ∧ (chunkTeams virgaWorld chunk9).any virgaWorld.heldEdge = false ∧ (virgaWorld.staging.map chunkBytes).sum + chunkBytes chunk9 ≤ 2 ^ 26) ∧
    (found run8 = some (2, 2) ∧ findNode run8 report9.far report9.team report9.src report9.gtag report9.run report9.tag
        report9.shard (fun _ => true) = some (2, 2)) ∧
    (∃ r x t, activeNode run8 2 2 = some (r, x) ∧ run8.team? r.who.team = some t ∧ x.sent = true ∧ x.written = false ∧
      chunk9.sig = (nodeOf (runImage run8 r) 2).sig ∧ r.cause = 0 ∧ (5 : Nat) ≠ (nodeOf (runImage run8 r) 2).sig) ∧
    (virgaWorld.team? 1 = some pairTeam ∧ 1 < pairTeam.nP ∧ (1 : Nat) ≠ pairTeam.pc ∧ lookup 1 pairTeam.peersDown = none) :=
  ⟨by decide +kernel, by decide +kernel, by decide +kernel, ⟨((activeNode run8 2 2).get (by decide +kernel)).1,
    ((activeNode run8 2 2).get (by decide +kernel)).2, (run8.team? 1).get (by decide +kernel), by decide +kernel⟩, by decide +kernel⟩
/-- The node has written its output already, when another chunk of it comes (R225). -/
def written8 : State :=
  { run8 with runs := run8.runs.map fun r => (r.1, { r.2 with nodes := r.2.nodes.map fun n => { n with written := true } }) }
theorem witness_VirgaSteps_written : (findNode written8 chunk9.far chunk9.team chunk9.src chunk9.gtag chunk9.run chunk9.tag chunk9.shard
      fun n => compatible chunk9.node n.op) = some (2, 2) ∧ (chunkTeams written8 chunk9).any written8.heldEdge = false ∧
    ∃ r x t, activeNode written8 2 2 = some (r, x) ∧ written8.team? r.who.team = some t ∧ x.written = true ∧
      (5 : Nat) ≠ (nodeOf (runImage written8 r) 2).sig :=
  ⟨by decide +kernel, by decide +kernel, ((activeNode written8 2 2).get (by decide +kernel)).1,
    ((activeNode written8 2 2).get (by decide +kernel)).2, (written8.team? 1).get (by decide +kernel), by decide +kernel⟩
theorem test_mismatch_late : (after (.virgaChunkReceive ⟨5, { chunk9 with sig := 5 }⟩) written8).runs = written8.runs := by
  decide +kernel

/-! ### Encoding and stepping (R275 to R292) -/

theorem witness_DecodeOfEncode : WellFormed (.div ⟨false, .i32, 2, 1, 3⟩) = true ∧
    encode (.div ⟨false, .i32, 2, 1, 3⟩) = some 0x4000000000810C05 := by decide
theorem witness_EncodeOfDecode : decode 0x4000000000810C05 = .ok (.div ⟨false, .i32, 2, 1, 3⟩) := by decide
/-- The first step after reset runs the instruction that `withFetchWord` places; an event and a passing of time run too. -/
def firstStep : State := State.reset.withFetchWord 64 0x4000000000810C05
/-- A slot's turn on tile 0, as a statement about a step supposes it. -/
def turnOf (s : State) (slot : Nat) (P : State → Team → Strand → Bool) : Bool :=
  s.absent.isNone && s.agenda == [.issue 0 slot] && (s.strandAt 0 slot).any fun k => mayIssue s 0 slot k &&
    matchEntry (s.tile 0) slot k.pc == none && (s.team? k.team).any fun t => P { s with agenda := [], at_ := (0, slot) } t k
/-- `firstStep` with the entry of its code changed: fields of R60, from BASE on. -/
def codeEntryOf (l : List Nat) : State :=
  { firstStep with mem := firstStep.mem.put (hbmKey 0x1000) (bytesOf 32 (pack [64, 64, 3, 4, 1, 2, 1, 1, 1, 1, 2, 4, 12] l)) }
/-- The cause that a fetch raises. -/
def fetchCause (b : State) (t : Team) (k : Strand) : Nat :=
  match fetch b t 0 k.pc with
  | .error (.fault c _ _) => c
  | _ => 0
/-- Space 5, another generation, four bytes, no X, poison. -/
theorem witness_StepRunsDecoded_fetch :
    (∀ c l, (c, l) ∈ [(0x21, [0x2000, 0x1000, 5, 0, 1, 0, 1, 1, 1, 1, 0, 0, 1]), (0x22, [0x2000, 0x1000, 4, 0, 1, 0, 1, 1, 1, 1, 0, 0, 2]),
      (0x23, [0x2000, 4, 4, 0, 1, 0, 1, 1, 1, 1, 0, 0, 1]), (0x24, [0x2000, 0x1000, 4, 0, 1, 0, 1, 1, 1, 0, 0, 0, 1])] →
      turnOf (codeEntryOf l) 0 (fun b t k => fetchCause b t k == c) = true) ∧
    turnOf { firstStep with poison := [granule (hbmKey 0x2000)] } 0 (fun b t k => fetchCause b t k == 0x26) = true := by
  refine ⟨?_, by decide +kernel⟩
  intro c l h
  simp only [List.mem_cons, Prod.mk.injEq, List.not_mem_nil, or_false] at h
  obtain ⟨rfl, rfl⟩ | ⟨rfl, rfl⟩ | ⟨rfl, rfl⟩ | ⟨rfl, rfl⟩ := h <;> decide +kernel
/-- A word of no instruction, and in the shadow slot COLL.RUN, which is not for it. -/
def shadowTurn : State := { (State.reset.withFetchWord 64 0x00000000018330D1).putAt 0 8 fetchStrand with agenda := [.issue 0 8] }
theorem witness_StepRunsDecoded_illegal :
    turnOf (State.reset.withFetchWord 64 0xFF) 0 (fun b t k => match fetch b t 0 k.pc with
      | .ok w => decide (decode w = .error .reservedOpcode)
      | _ => false) = true ∧
    turnOf shadowTurn 8 (fun b t k => match fetch b t 0 k.pc with
      | .ok w => match decode w with
        | .ok i => !shadowLegal i
        | _ => false
      | _ => false) = true := by decide +kernel
theorem test_step_illegal : (match step (slotless (State.reset.withFetchWord 64 0xFF)) with
    | .next t => (causeOf t, (t.strandAt 0 0).map (·.held))
    | _ => (0, none)) = (0, some true) := by decide +kernel
/-- A WAITGE that waits for more than the counter holds. -/
def waitingTurn : State := firstStep.putAt 0 0 { fetchStrand with wait := .waitge 0x400 5 ⟨false, 0x400, 8, 4, 9⟩ }
theorem witness_StepRunsDecoded_waitge : turnOf waitingTurn 0 (fun _ _ k => k.wait == .waitge 0x400 5 ⟨false, 0x400, 8, 4, 9⟩) = true := by
  decide +kernel
theorem witness_StepRunsDecoded :
    (∃ k t, firstStep.absent = none ∧ firstStep.agenda = .issue 0 0 :: [] ∧ firstStep.strandAt 0 0 = some k ∧
      mayIssue firstStep 0 0 k = true ∧ matchEntry (firstStep.tile 0) 0 k.pc = none ∧ firstStep.team? k.team = some t ∧
      fetch { firstStep with agenda := [], at_ := (0, 0) } t 0 k.pc = .ok 0x4000000000810C05 ∧
      0 ∉ (firstStep.tile 0).skip ∧ (firstStep.tile 0).dbg = .running ∧ k.wait = .none) ∧
    Instr.hasWord (.hreq 0) = false ∧ WellFormed (.hreq 0) = true ∧ world.absent = none ∧ comesAbout (.hreq 0) world = true ∧
    comesAbout (.hreq 0) State.reset = false ∧ State.reset.boot ≠ .booted ∧ world.boot = .booted ∧ world.slew = 0 ∧
    world.outbox = [] ∧ (∀ x ∈ world.tiles, x.2.trbuf = []) ∧ (∀ x ∈ world.vtiles, x.2.div ≠ .cut) ∧
    (∀ x ∈ world.quads, x.2.st ≠ .quiesce) ∧ world.clocks.get 0 = 3000 ∧ world.dieFrac.get 0 = 0 :=
  ⟨⟨fetchStrand, (firstStep.team? 1).get (by decide +kernel), by decide +kernel⟩, by decide +kernel⟩
theorem test_step_event : (match step { world with agenda := [.event (.passWrite 0)] } with
    | .next t => (t.tile 0).pass
    | _ => false) = true := by decide +kernel
theorem test_step_advance : (match step { world with agenda := [.advance 5 3] } with
    | .next t => (t.cycle, t.podtime)
    | _ => (0, 0)) = (5, 3) := by decide +kernel
theorem test_first_step : (match step (State.reset.withFetchWord 64 0x4000000000810C05) with
    | .next t => (t.strandAt 0 0).map (fun k => (k.pc, k.rd 3))
    | _ => none) = some (8, 0xFFFFFFFFFFFFFFFF) := by decide +kernel
theorem witness_MemoryStaysCanonical : ∃ t, State.reset.ok ∧ step { State.reset with agenda := [.advance 1 1] } = .next t :=
  ⟨_, by unfold State.ok; decide, rfl⟩

end Sys2Proof.Tests
end

section
/-! PROOF. Beacons, link delays, flow control and the order of messages (R209, R210, R238, R260): what waits at a port after
messages have been sent, what a change of a link or of a class's totals leaves, and O51. -/

/-! ### The order of messages (R238) -/

namespace Sys2Proof.Machine

/-- `ahead` inserts: everything of the same port that it passes over is control. -/
theorem Msg.ahead_split (m : Msg) (l : List Msg) :
    ∃ pre post, l = pre ++ post ∧ m.ahead l = pre ++ m :: post ∧ ∀ x ∈ pre, x.port = m.port → x.control = true := by
  induction l with
  | nil => exact ⟨[], [], rfl, rfl, by simp⟩
  | cons y r ih =>
    by_cases h : y.port = m.port ∧ y.control = false
    · exact ⟨[], y :: r, rfl, by simp [Msg.ahead, h], by simp⟩
    · obtain ⟨pre, post, hl, ha, hc⟩ := ih
      refine ⟨y :: pre, post, by simp [hl], by simp [Msg.ahead, h, ha], fun x hx hp => ?_⟩
      obtain rfl | hx := List.mem_cons.1 hx
      · simpa [hp] using h
      · exact hc x hx hp

namespace State

/-- A message is put in at one place, and a control message behind nothing but control of its port. -/
theorem outbox_send_split (s : State) (m : Msg) : ∃ pre post, s.outbox = pre ++ post ∧
    (s.send m).outbox = pre ++ m :: post ∧ (m.control = true → ∀ x ∈ pre, x.port = m.port → x.control = true) := by
  by_cases h : m.control = true
  · obtain ⟨pre, post, hl, ha, hc⟩ := m.ahead_split s.outbox
    exact ⟨pre, post, hl, by rw [send, if_pos h, ha], fun _ => hc⟩
  · exact ⟨s.outbox, [], by simp, by simp [send, h], fun hm => absurd hm h⟩

@[simp] theorem mem_outbox_send {s : State} {m x : Msg} : x ∈ (s.send m).outbox ↔ x = m ∨ x ∈ s.outbox := by
  obtain ⟨pre, post, hl, hs, -⟩ := s.outbox_send_split m
  rw [hl, hs]
  simp only [List.mem_append, List.mem_cons]
  exact or_left_comm

/-- One message for each item of a list. -/
theorem mem_outbox_foldl_send {α : Type} (f : α → Msg) (l : List α) (s : State) (x : Msg) :
    x ∈ (l.foldl (fun s a => s.send (f a)) s).outbox ↔ (∃ a ∈ l, x = f a) ∨ x ∈ s.outbox := by
  induction l generalizing s with
  | nil => simp
  | cons a r ih => rw [List.foldl_cons, ih]; simp [or_left_comm, or_assoc]

/-- Sending changes nothing but what waits at the ports. -/
theorem foldl_send_eq {α : Type} (f : α → Msg) (l : List α) (s : State) : l.foldl (fun s a => s.send (f a)) s =
    { s with outbox := (l.foldl (fun s a => s.send (f a)) s).outbox } := by
  induction l generalizing s with
  | nil => rfl
  | cons a r ih => rw [List.foldl_cons, ih]; rfl

end State

/-! ### Pod time (R209) -/

/-- A value is within 3 of another, said without a difference. -/
theorem natAbs_sub_le_three (a b : Nat) : decide (((a : Int) - b).natAbs ≤ 3) = (decide (b ≤ a + 3) && decide (a ≤ b + 3)) := by
  rw [← Bool.decide_and, decide_eq_decide]
  omega

/-- The state that sends a beacon on each UP UALink quad. -/
def forwarded (s : State) (origin time : Word) : State := (ualinks s).foldl (fun s r => s.send (.beacon r origin time)) s

theorem forwarded_eq (s : State) (origin time : Word) :
    forwarded s origin time = { s with outbox := (forwarded s origin time).outbox } :=
  State.foldl_send_eq _ _ s

theorem beacon_mem_forwarded {s : State} {r : Nat} (origin time : Word) (h : r ∈ ualinks s) :
    Msg.beacon r origin time ∈ (forwarded s origin time).outbox :=
  (State.mem_outbox_foldl_send _ _ s _).2 (.inl ⟨r, h, rfl⟩)

/-- The state that has taken a beacon: how far pod time stands from `time`, and whether it was within 3 ns. -/
def tookBeacon (s : State) (origin time : Word) : State := { s with
  beacon := origin
  beaconAt := some s.now
  slew := (time.toNat : Int) - s.podtime.toNat
  ptstat := s.ptstat && !decide (((time.toNat : Int) - s.podtime.toNat).natAbs ≤ 3) }

theorem exec_podTimeBeacon_new {q : Nat} {origin time : Word} {s : State} (hr : s.image.timeRoot = false)
    (hn : s.beacon.toNat < origin.toNat) :
    let a := time + BitVec.ofNat 64 (s.quad q).delay
    exec (.podTimeBeacon q ⟨origin, time⟩) s = .next (tookBeacon (forwarded s origin a) origin a) :=
  if_neg (by simp [hr, hn])

theorem exec_podTimeBeacon_old {q : Nat} {origin time : Word} {s : State}
    (h : s.image.timeRoot = true ∨ origin.toNat ≤ s.beacon.toNat) : exec (.podTimeBeacon q ⟨origin, time⟩) s = .next s :=
  if_pos (by simpa using h)

/-- Pod time stands still while the root's beacons go out. -/
theorem foldl_send_podtime (l : List Nat) (s : State) : l.foldl (fun u r => u.send (.beacon r u.podtime u.podtime)) s =
    l.foldl (fun u r => u.send (.beacon r s.podtime s.podtime)) s := by
  induction l generalizing s with
  | nil => rfl
  | cons r l ih => exact ih (s.send (.beacon r s.podtime s.podtime))

theorem exec_beaconSend_root {s : State} (h : s.image.timeRoot = true) :
    exec .beaconSend s = .next (forwarded s s.podtime s.podtime) :=
  congrArg Host.Outcome.next ((if_pos h).trans (foldl_send_podtime _ s))

theorem exec_beaconSend_other {s : State} (h : s.image.timeRoot = false) : exec .beaconSend s = .next s :=
  congrArg Host.Outcome.next (if_neg (by simp [h]))

/-- Without a beacon for 1 ms, a package that is not the root runs free. -/
theorem exec_beaconLoss (s : State) : exec .beaconLoss s = .next { s with
    ptstat := s.ptstat || (!s.image.timeRoot && !s.beaconAt.any fun b => decide (s.now < b + 1000000)) } := by
  refine congrArg Host.Outcome.next ?_
  split
  · next h => rw [← Bool.not_or, h, Bool.not_true, Bool.or_false]
  · next h => rw [← Bool.not_or, Bool.eq_false_of_not_eq_true h, Bool.not_false, Bool.or_true]

/-- A link that is not CXL has one quad (R196). -/
theorem onLink_single {s : State} {q : Nat} (h : (s.quad q).pers ≠ 3) (f : Quad → Quad) :
    onLink s q f = s.putQuad q (f (s.quad q)) := by
  simp [onLink, linkQuads, h]

theorem exec_linkDelayMeasure {q : Nat} {s : State} (ns : Nat) (hp : (s.quad q).pers ≠ 3) (hu : (s.quad q).st = .up) :
    exec (.linkDelayMeasure q ns) s = .next (s.putQuad q { s.quad q with delay := ns }) :=
  (if_pos hu).trans (congrArg Host.Outcome.next (onLink_single hp _))

/-! ### Flow control (R210) -/

@[simp] theorem credit_takeFreed (s : State) (link cls : Nat) (freed : BitVec 32) :
    (takeFreed s link cls freed).credit link cls = { s.credit link cls with lastFreed := freed } := by
  simp [takeFreed, State.credit]

theorem exec_flowControlTotalsSend_edge {link : Nat} (cls : Nat) (s : State) (h : link < 64) :
    exec (.flowControlTotalsSend link cls) s =
      .next (s.send (.totals link cls (s.credit link cls).sent (s.credit link cls).freed)) :=
  congrArg Host.Outcome.next (if_pos h)

theorem exec_flowControlTotalsSend_die {link : Nat} (cls : Nat) (s : State) (h : 64 ≤ link) :
    exec (.flowControlTotalsSend link cls) s = .next (takeFreed s link cls (s.credit link cls).freed) :=
  congrArg Host.Outcome.next (if_neg (by omega))

theorem exec_flowControlTotals (link cls : Nat) (sent freed : BitVec 32) (s : State) :
    exec (.flowControlTotals link cls sent freed) s = .next (takeFreed s link cls freed) := rfl

namespace State

/-- Flits of a class that its far end still holds, as its sender knows it (R210). -/
def outstanding (s : State) (link cls : Nat) : Nat := ((s.credit link cls).sent - (s.credit link cls).lastFreed).toNat

/-- Sending `n` more flits raises what is outstanding by `n` at most: the totals wrap. -/
theorem outstanding_add_le (sent lastFreed : BitVec 32) (n : Nat) :
    (sent + BitVec.ofNat 32 n - lastFreed).toNat ≤ (sent - lastFreed).toNat + n := by
  rw [show sent + BitVec.ofNat 32 n - lastFreed = sent - lastFreed + BitVec.ofNat 32 n by ring, BitVec.toNat_add,
    BitVec.toNat_ofNat, Nat.add_mod_mod]
  exact Nat.mod_le _ _

/-- What a message spends is at most the room of its class. -/
theorem outstanding_spend_le (s : State) (link cls flits : Nat) :
    (s.spend link cls flits).2.outstanding link cls ≤ s.outstanding link cls + s.room link cls := by
  have h := outstanding_add_le (s.credit link cls).sent (s.credit link cls).lastFreed
    (min (flits - (s.credit link cls).part) (s.room link cls))
  have hm := Nat.min_le_right (flits - (s.credit link cls).part) (s.room link cls)
  simp only [outstanding, spend, credit, lookup_insertAt_self, Option.getD_some] at h ⊢
  exact h.trans (Nat.add_le_add_left hm _)

end State

/-! ### Flits that fail their check (R210, R260) -/

/-- A counter that has room counts one more. -/
theorem countErr_one {s : State} {i : Fin 11} (h : (s.errc.get i).toNat < 2 ^ 64 - 1) :
    s.countErr i 1 = { s with errc := s.errc.set i (s.errc.get i + 1) } := by
  have hm : min ((s.errc.get i).toNat + 1) (2 ^ 64 - 1) = (s.errc.get i).toNat + 1 := by omega
  rw [State.countErr, hm, ← BitVec.ofNat_add_ofNat, BitVec.ofNat_toNat, BitVec.setWidth_eq]
  rfl

theorem exec_flitCrcError_edge {link : Nat} (s : State) (h : link < 64) :
    exec (.flitCrcError link) s = .next ((s.countErr 9 1).send (.resend link)) :=
  congrArg Host.Outcome.next (if_pos h)

theorem exec_flitCrcError_die {link : Nat} (s : State) (h : ¬ link < 64) :
    exec (.flitCrcError link) s = .next (s.countErr 9 1) :=
  congrArg Host.Outcome.next (if_neg h)

/-! ### O51 -/

open State

/-- Settles O51: each clause follows from the equation of its step; what is sent lies in the outbox and changes nothing else, and
a class never spends more than its room. -/
theorem timeAndFlowSteps : Obligations.TimeAndFlowSteps := by
  unfold Obligations.TimeAndFlowSteps
  refine ⟨?beacon, ?send, exec_beaconLoss, fun q ns s => exec_linkDelayMeasure ns,
    fun link cls s => exec_flowControlTotalsSend_edge cls s, ?dieTotals, ?totals, ?spend, ?order, ?crc⟩
  case beacon =>
    intro q origin time s
    refine ⟨fun hr hn => ⟨_, exec_podTimeBeacon_new hr hn, fun r h => beacon_mem_forwarded _ _ h, ?_⟩, exec_podTimeBeacon_old⟩
    rw [forwarded_eq, ← natAbs_sub_le_three]
    exact ⟨rfl, rfl, rfl, rfl, rfl⟩
  case send =>
    intro s
    cases hr : s.image.timeRoot with
    | true =>
      exact ⟨_, exec_beaconSend_root hr, by rw [forwarded_eq], fun _ r h => beacon_mem_forwarded _ _ h, nofun⟩
    | false => exact ⟨s, exec_beaconSend_other hr, rfl, nofun, fun _ => rfl⟩
  case dieTotals =>
    intro link cls s h
    exact ⟨_, exec_flowControlTotalsSend_die cls s h, credit_takeFreed _ _ _ _, rfl⟩
  case totals =>
    intro link cls sent freed s
    exact ⟨_, exec_flowControlTotals link cls sent freed s, credit_takeFreed _ _ _ _, rfl⟩
  case spend =>
    intro link cls flits s used z h
    exact ⟨(s.outstanding_spend_le link cls flits).trans (Nat.add_sub_of_le h).le, rfl⟩
  case order =>
    intro m s hm
    obtain ⟨pre, post, hl, hs, hc⟩ := s.outbox_send_split m
    exact ⟨pre, post, hl, hs, hc hm⟩
  case crc =>
    intro link s h
    by_cases hl : link < 64
    · refine ⟨_, exec_flitCrcError_edge s hl, ?_⟩
      rw [countErr_one h]
      exact ⟨rfl, fun _ => mem_outbox_send.2 (.inl rfl), rfl⟩
    · refine ⟨_, exec_flitCrcError_die s hl, ?_⟩
      rw [countErr_one h]
      exact ⟨rfl, fun hl' => absurd hl' hl, rfl⟩

end Sys2Proof.Machine
end

section
/-! PROOF. What trace records and messages to peers change (R199, R256 to R258): every other part of the state is as it was. -/

namespace Sys2Proof.Machine
namespace State

theorem clearPoison_eq (s : State) (gs : List Nat) : ∃ p, s.clearPoison gs = { s with poison := p } := by
  unfold clearPoison
  split
  · exact ⟨_, rfl⟩
  · exact ⟨_, rfl⟩

theorem settleLive_eq (s : State) (a n : Nat) : ∃ l, s.settleLive a n = { s with live := l } := by
  unfold settleLive
  split
  · exact ⟨_, rfl⟩
  · exact ⟨_, rfl⟩

/-- A commit changes memory, live values and poison marks. -/
theorem commit_eq (s : State) (a : Nat) (bs : List Byte) :
    ∃ l p, s.commit a bs = { s with mem := s.mem.put a bs, live := l, poison := p } := by
  obtain ⟨l, hl⟩ := (s.write a bs).settleLive_eq a bs.length
  obtain ⟨p, hp⟩ := clearPoison_eq { s with mem := s.mem.put a bs } (granulesWhole a bs.length)
  exact ⟨l, p, by rw [commit, hl, write, hp]⟩

theorem hbmPut_eq (s : State) (a n v : Nat) : ∃ m l p, s.hbmPut a n v = { s with mem := m, live := l, poison := p } := by
  unfold hbmPut
  split
  · obtain ⟨l, p, h⟩ := s.commit_eq (hbmKey a) (bytesOf n v)
    exact ⟨_, l, p, h⟩
  · exact ⟨_, _, _, rfl⟩

theorem foldl_hbmPut_eq {α : Type} (a v : α → Nat) (n : Nat) (l : List α) (s : State) :
    ∃ m li p, l.foldl (fun s x => s.hbmPut (a x) n (v x)) s = { s with mem := m, live := li, poison := p } := by
  induction l generalizing s with
  | nil => exact ⟨_, _, _, rfl⟩
  | cons x r ih =>
    obtain ⟨m, li, p, h⟩ := s.hbmPut_eq (a x) n (v x)
    obtain ⟨m', li', p', h'⟩ := ih (s.hbmPut (a x) n (v x))
    exact ⟨m', li', p', by rw [List.foldl_cons, h', h]⟩

theorem storeTrace_eq (s : State) (tile : Nat) :
    ∃ m l p x, s.storeTrace tile = { s with mem := m, live := l, poison := p, tiles := x } := by
  obtain ⟨m, l, p, h⟩ := foldl_hbmPut_eq (fun r => ringAt (s.tile tile) r.2) Prod.fst 16 (s.tile tile).trbuf.zipIdx s
  unfold storeTrace
  dsimp only
  rw [h]
  exact ⟨m, l, p, _, rfl⟩

theorem flushTrace_eq (s : State) (tile : Nat) : ∃ m l p x c h,
    s.flushTrace tile = { s with mem := m, live := l, poison := p, tiles := x, credits := c, hops := h } := by
  obtain ⟨c, h, hc⟩ := s.cross_eq (traceHop tile) (s.traceWay tile).1 1 (s.traceWay tile).2
  unfold flushTrace
  extract_lets x held w z
  split
  · exact ⟨_, _, _, _, _, _, rfl⟩
  · split
    · obtain ⟨m, l, p, x, ht⟩ := storeTrace_eq (s.cross (traceHop tile) (s.traceWay tile).1 1 (s.traceWay tile).2).2 tile
      exact ⟨m, l, p, x, c, h, by rw [ht, hc]⟩
    · exact ⟨_, _, _, _, c, h, hc⟩

/-- A trace record changes nothing but the encoder of its tile, its ring in HBM and the packets on their way there (R256, R258). -/
theorem trace_eq (s : State) (tile lvt slot kind info data : Nat) : ∃ m l p x c h,
    s.trace tile lvt slot kind info data = { s with mem := m, live := l, poison := p, tiles := x, credits := c, hops := h } := by
  unfold trace
  dsimp only
  split
  · exact flushTrace_eq _ _
  · exact ⟨_, _, _, _, _, _, rfl⟩

/-- Telling the peers changes nothing but what waits at the ports. -/
theorem tellPeers_eq (s : State) (team : Nat) (ps : List Nat) (m : Nat → Nat → Msg) :
    ∃ o, s.tellPeers team ps m = { s with outbox := o } := by
  unfold tellPeers
  induction ps generalizing s with
  | nil => exact ⟨_, rfl⟩
  | cons p r ih =>
    rw [List.foldl_cons]
    split
    · exact ih _
    · exact ih s

end State

end Sys2Proof.Machine
end

section
/-! PROOF. BAR and BARA (R19, R20, R72, R87 to R91): what a recorded arrival leaves in its phase, what its strand does next, and
O29. -/

namespace Sys2Proof.Machine

/-! ### Arrivals (R87, R88) -/

/-- An arrival as its phase keeps it: at tile scope with the stores that its strand knows (R72). -/
def State.knowing (s : State) (id : Nat) (l : Scope) (u : Nat) (a : Arrival) : Arrival :=
  match l, s.vtile? id u with
  | .tile, some v => if v.race.stores.isEmpty then a else { a with knows := v.race.knows a.who }
  | _, _ => a

/-- Recording an arrival changes the unit's table and what waits at the ports. -/
theorem State.record_eq (s : State) (id : Nat) (l : Scope) (u k : Nat) (a : Arrival) (rop : BOp) (cnt : Nat) :
    ∃ us o, s.record id l u k a rop cnt = { s with units := us, outbox := o } := by
  unfold record
  extract_lets x p a' p' z
  split
  · obtain ⟨o, h⟩ := z.tellPeers_eq id _ _
    exact ⟨z.units, o, h⟩
  · exact ⟨_, _, rfl⟩

theorem State.arrivals_record (s : State) (id : Nat) (l : Scope) (u k : Nat) (a : Arrival) (rop : BOp) (cnt : Nat) :
    (phase ((s.record id l u k a rop cnt).unit id l u) k).arrivals =
      (phase (s.unit id l u) k).arrivals ++ [s.knowing id l u a] := by
  unfold record
  extract_lets x p a' p' z
  have ha : a' = s.knowing id l u a := rfl
  have hp : p'.arrivals = p.arrivals ++ [s.knowing id l u a] := by rw [← ha]; unfold p'; split <;> rfl
  have hz : (phase (z.unit id l u) k).arrivals = p.arrivals ++ [s.knowing id l u a] := by
    rw [State.unit_putUnit_self, phase, lookup_insertAt_self]; exact hp
  split
  · obtain ⟨o, h⟩ := z.tellPeers_eq id _ _
    rw [h]; exact hz
  · exact hz

theorem State.mismatch_iff {p : Phase} {l : Scope} {rop : BOp} {cnt : Nat} : State.mismatch p l rop cnt = true ↔
    (∃ o, p.rop = some o ∧ o ≠ rop) ∨ (l = .tile ∧ ∃ c, p.cnt = some c ∧ c ≠ cnt) := by
  unfold mismatch
  cases p.rop <;> cases p.cnt <;> simp

theorem advanceArrival_snd (s : State) (k : Strand) (l : Scope) (n : Nat) :
    ∃ vs, (advanceArrival s k l n).2 = { s with vtiles := vs } := by
  have onVtile (f : Vtile → Vtile) : ∃ vs, s.onVtile k.team k.lrank f = { s with vtiles := vs } := by
    unfold State.onVtile
    split
    · exact ⟨_, rfl⟩
    · exact ⟨_, rfl⟩
  cases l with
  | tile => exact ⟨_, rfl⟩
  | grp | die | pkg | pod => exact onVtile _

/-- A strand whose arrival has been counted: it waits for nothing, and at tile scope TAHEAD has advanced (R19). -/
def Strand.counted (k : Strand) (l : Scope) : Strand :=
  { k with wait := .none, tahead := if l = .tile then k.tahead + 1 else k.tahead }

theorem advanceArrival_fst (s : State) (k : Strand) (l : Scope) (n : Nat) :
    (advanceArrival s { k with wait := .none } l n).1 = k.counted l := by
  cases l <;> rfl

section Arrive

variable {s : State} {t : Team} {tile slot : Nat} {k : Strand} {l : Scope} {n : Nat} {what : StallKind} {rop : BOp} {cnt : Nat}
  {value : Word} {code : BitVec 16} {word : Word}

/-- An arrival that agrees with its phase is recorded, and its strand goes on or waits (R87, R91, R93). -/
theorem arrive_agreeing (h : State.mismatch (State.phase (s.unit k.team l (t.unitOf l k.lrank)) n) l rop cnt = false) :
    (arrive s t tile slot k l n what rop cnt value code word).units =
      (s.record k.team l (t.unitOf l k.lrank) n ⟨arriver k l, some value, code, false, s.now, []⟩ rop cnt).units ∧
    (arrive s t tile slot k l n what rop cnt value code word).at_ = s.at_ ∧
    (arrive s t tile slot k l n what rop cnt value code word).strandAt tile slot =
      some (arrived s (k.counted l) l n what) := by
  unfold arrive
  extract_lets u p k' z₀ z
  rw [if_neg (by rw [h]; exact Bool.false_ne_true)]
  obtain ⟨us, o, hz⟩ : ∃ us o, z = { s with units := us, outbox := o } := s.record_eq _ _ _ _ _ _ _
  obtain ⟨vs, ha⟩ := advanceArrival_snd z k' l n
  dsimp only
  rw [advanceArrival_fst, ha]
  obtain ⟨m, li, po, ti, cr, ho, ht⟩ := State.trace_eq
    ({ z with vtiles := vs }.putAt tile slot (arrived { z with vtiles := vs } (k.counted l) l n what)) tile k.lrank slot 2 (Scope.code l) n
  rw [show (k.counted l).lrank = k.lrank from rfl, ht]
  have hc : z.cycle = s.cycle := by rw [hz]
  have hat : z.at_ = s.at_ := by rw [hz]
  refine ⟨rfl, hat, ?_⟩
  have hr : arrived { z with vtiles := vs } (k.counted l) l n what = arrived s (k.counted l) l n what := by
    unfold arrived; dsimp only; rw [hc]
  exact (State.strandAt_putAt_self _ _ _ _).trans (congrArg some hr)

/-- One that disagrees is recorded as forced, and its instruction raises 0x61 (R88). -/
theorem arrive_disagreeing (h : State.mismatch (State.phase (s.unit k.team l (t.unitOf l k.lrank)) n) l rop cnt = true) :
    ∃ z : State, arrive s t tile slot k l n what rop cnt value code word = z.takeFault tile slot (k.counted l) 0x61 0 0 word true ∧
      z.units = (s.record k.team l (t.unitOf l k.lrank) n ⟨arriver k l, none, 0xFF00, true, s.now, []⟩ .none 0).units ∧
      z.strands = s.strands := by
  unfold arrive
  extract_lets u p k' z z₀
  rw [if_pos h]
  obtain ⟨us, o, hz⟩ : ∃ us o, z = { s with units := us, outbox := o } := s.record_eq _ _ _ _ _ _ _
  obtain ⟨vs, ha⟩ := advanceArrival_snd z k' l n
  dsimp only
  rw [advanceArrival_fst, ha]
  obtain ⟨m, li, po, ti, cr, ho, ht⟩ := State.trace_eq { z with vtiles := vs } tile k.lrank slot 2 (Scope.code l) n
  have hs : z.strands = s.strands := by rw [hz]
  rw [show (k.counted l).lrank = k.lrank from rfl, ht]
  exact ⟨_, rfl, rfl, hs⟩

end Arrive

/-- Whether BAR or BARA with control word `w` may arrive at superstep `n`: its code is one that it may state, and so is its phase
(R88, R89). -/
def StatesPhase (l : Scope) (w n : Nat) : Prop := field w 0 16 < 0xFF00 ∧ (l = .tile ∨ bit w 18 = false ∨ n % 4 = field w 16 2)

/-- BAR and BARA arrive at a phase that is open, and stall before one that is not (R20). -/
theorem arriveOp_eq {s : State} {k : Strand} {t : Team} (ht : s.team? k.team = some t) {l : Scope} {b : SReg}
    (h : StatesPhase l (k.rd b).toNat (s.target t k.team k.lrank l k.tahead)) (i : Instr) (what : StallKind) (rop : BOp) (cnt : Nat)
    (a : SReg) :
    let w := (k.rd b).toNat
    let n := s.target t k.team k.lrank l k.tahead
    arriveOp i l what rop cnt a b k s =
      if n < (s.unit k.team l (t.unitOf l k.lrank)).step + 4 then
        .ok (arrive s t s.at_.1 s.at_.2 k l n what rop cnt (k.rd a) (BitVec.ofNat 16 (field w 0 16)) ((encode i).getD 0))
      else .ok (stallAt s t k l
        ⟨what, k.lrank, k.uid, n, l != .tile && bit w 18, rop, cnt, k.rd a, BitVec.ofNat 16 (field w 0 16)⟩) := by
  intro w n
  obtain ⟨hc, hp⟩ := h
  have hc' : decide (field w 0 16 < 0xFF00) = true := decide_eq_true hc
  have hp' : (l == .tile || !bit w 18 || n % 4 == field w 16 2) = true := by
    obtain h | h | h := hp
    · simp [h]
    · simp [show bit w 18 = false from h]
    · simp [show n % 4 = field w 16 2 from h]
  unfold arriveOp withTeam
  rw [ht]
  dsimp only
  rw [hc', hp']
  rfl

namespace Strand

theorem full_empty (k : Strand) (d r : SReg) : (k.empty d).full r = (k.full r && (r == 0 || r != d)) := by
  unfold empty full
  by_cases hr : r = 0
  · simp [hr]
  · by_cases hd : d = 0
    · subst hd; simp [hr]
    · have hv : d.val = r.val ↔ r = d := ⟨fun e => Fin.ext e.symm, fun e => by rw [e]⟩
      simp only [hd, if_false, BitVec.getLsbD_and, BitVec.getLsbD_not, getLsbD_two_pow _ _ _ d.isLt, hv]
      by_cases e : r = d
      · simp [e, hd]
      · simp [e, hr, r.isLt]

theorem s_empty (k : Strand) (d : SReg) : (k.empty d).s = k.s := by
  unfold empty; split <;> rfl
theorem pc_empty (k : Strand) (d : SReg) : (k.empty d).pc = k.pc := by
  unfold empty; split <;> rfl
theorem tahead_empty (k : Strand) (d : SReg) : (k.empty d).tahead = k.tahead := by
  unfold empty; split <;> rfl

/-- BAR empties sD and sDS and changes no other register (R93, R101). -/
theorem full_atBarrier (k : Strand) (l : Scope) (n : Nat) (d ds : SReg) (c : Nat) (r : SReg) :
    (k.atBarrier l n d ds c).full r = (k.full r && (r == 0 || (r != d && r != ds))) := by
  have h : (k.atBarrier l n d ds c).full r = ((k.empty d).empty ds).full r := rfl
  rw [h, full_empty, full_empty]
  cases r == 0 <;> simp [Bool.and_assoc]

theorem s_atBarrier (k : Strand) (l : Scope) (n : Nat) (d ds : SReg) (c : Nat) : (k.atBarrier l n d ds c).s = k.s :=
  (s_empty _ _).trans (s_empty _ _)
theorem pc_atBarrier (k : Strand) (l : Scope) (n : Nat) (d ds : SReg) (c : Nat) : (k.atBarrier l n d ds c).pc = k.pc + 8 :=
  congrArg (· + 8) ((pc_empty _ _).trans (pc_empty _ _))
theorem tahead_atBarrier (k : Strand) (l : Scope) (n : Nat) (d ds : SReg) (c : Nat) :
    (k.atBarrier l n d ds c).tahead = k.tahead :=
  (tahead_empty _ _).trans (tahead_empty _ _)

end Strand

theorem State.arrivals_of_units {s z : State} {id : Nat} {l : Scope} {u n : Nat} {a : Arrival} {rop : BOp} {cnt : Nat}
    (h : z.units = (s.record id l u n a rop cnt).units) :
    (phase (z.unit id l u) n).arrivals = (phase (s.unit id l u) n).arrivals ++ [s.knowing id l u a] := by
  rw [← arrivals_record, unit, h, unit]

/-- The stores that an arrival of a strand tells of: at tile scope those that the strand knows (R72). -/
def Strand.tells (k : Strand) (s : State) (l : Scope) (u : Nat) : List (Nat × Nat) :=
  match l, s.vtile? k.team u with
  | .tile, some v => if v.race.stores = [] then [] else v.race.knows k.uid
  | _, _ => []

theorem State.knowing_arriver (s : State) (k : Strand) (l : Scope) (u : Nat) (v : Option Word) (code : BitVec 16) (forced : Bool) :
    s.knowing k.team l u ⟨arriver k l, v, code, forced, s.now, []⟩ =
      ⟨if l = .tile then k.uid else k.lrank, v, code, forced, s.podtime.toNat, k.tells s l u⟩ := by
  cases l with
  | tile =>
    unfold knowing Strand.tells
    cases s.vtile? k.team u with
    | none => rfl
    | some x => cases h : x.race.stores <;> simp [h, arriver, now]
  | grp | die | pkg | pod => rfl

/-- What an issued BAR or BARA comes to, whether its arrival is recorded, stalls, or disagrees with its phase. -/
theorem issue_arriveOp {s : State} {k : Strand} {t : Team} {ns : Names} (hk : Issues s k ns) (ht : s.team? k.team = some t)
    {l : Scope} {b : SReg} (h : StatesPhase l (k.rd b).toNat (s.target t k.team k.lrank l k.tahead)) (i : Instr) (e : Bool)
    (what : StallKind) (rop : BOp) (cnt : Nat) (a : SReg) :
    let w := (k.rd b).toNat
    let n := s.target t k.team k.lrank l k.tahead
    issue i e ns (arriveOp i l what rop cnt a b) s =
      if n < (s.unit k.team l (t.unitOf l k.lrank)).step + 4 then
        arrive s t s.at_.1 s.at_.2 k.issuing l n what rop cnt (k.rd a) (BitVec.ofNat 16 (field w 0 16)) ((encode i).getD 0)
      else stallAt s t k.issuing l
        ⟨what, k.lrank, k.uid, n, l != .tile && bit w 18, rop, cnt, k.rd a, BitVec.ofNat 16 (field w 0 16)⟩ := by
  intro w n
  rw [issue_of_issues hk]
  have := arriveOp_eq (k := k.issuing) ht h i what rop cnt a
  dsimp only at this
  rw [this]
  split
  · rfl
  · rfl

/-! ### O29 -/

/-- An arrival that stalls or disagrees with its phase, at BAR or BARA (R20, R88). -/
theorem arriveOp_turned {s : State} {k : Strand} {t : Team} {ns : Names} (hk : Issues s k ns) (ht : s.team? k.team = some t)
    {l : Scope} {b : SReg} (h : StatesPhase l (k.rd b).toNat (s.target t k.team k.lrank l k.tahead)) (i : Instr) (e : Bool)
    (what : StallKind) (rop : BOp) (cnt : Nat) (a : SReg) :
    let n := s.target t k.team k.lrank l k.tahead
    let x := s.unit k.team l (t.unitOf l k.lrank)
    (¬ n < x.step + 4 → issue i e ns (arriveOp i l what rop cnt a b) s = (s.putUnit k.team l (t.unitOf l k.lrank)
      { x with stalled := x.stalled ++ [⟨what, k.lrank, k.uid, n, l != .tile && bit (k.rd b).toNat 18, rop, cnt, k.rd a,
        BitVec.ofNat 16 (field (k.rd b).toNat 0 16)⟩] }).put { k with wait := .fifth, waitSince := s.cycle.toNat }) ∧
    (n < x.step + 4 → State.mismatch (State.phase x n) l rop cnt = true → ∃ z : State,
      issue i e ns (arriveOp i l what rop cnt a b) s =
        z.takeFault s.at_.1 s.at_.2 (k.counted l) 0x61 0 0 ((encode i).getD 0) true ∧
      z.units = (s.record k.team l (t.unitOf l k.lrank) n ⟨arriver k l, none, 0xFF00, true, s.now, []⟩ .none 0).units ∧
      z.strands = s.strands) := by
  intro n x
  have hi := issue_arriveOp hk ht h i e what rop cnt a
  dsimp only at hi
  refine ⟨fun hn => ?_, fun hn hm => ?_⟩
  · rw [hi, if_neg hn]; rfl
  · rw [hi, if_pos hn]
    exact arrive_disagreeing (k := k.issuing) hm

/-- An arrival that its phase takes, at BAR or BARA (R87, R91). -/
theorem arriveOp_recorded {s : State} {k : Strand} {t : Team} {ns : Names} (hk : Issues s k ns) (ht : s.team? k.team = some t)
    {l : Scope} {b : SReg} (h : StatesPhase l (k.rd b).toNat (s.target t k.team k.lrank l k.tahead)) (i : Instr) (e : Bool)
    (what : StallKind) (rop : BOp) (cnt : Nat) (a : SReg) :
    let n := s.target t k.team k.lrank l k.tahead
    let u := t.unitOf l k.lrank
    n < (s.unit k.team l u).step + 4 → State.mismatch (State.phase (s.unit k.team l u) n) l rop cnt = false →
    ∃ t', issue i e ns (arriveOp i l what rop cnt a b) s = t' ∧ t'.strand? = some (arrived s (k.counted l) l n what) ∧
      t'.units = (s.record k.team l u n
        ⟨arriver k l, some (k.rd a), BitVec.ofNat 16 (field (k.rd b).toNat 0 16), false, s.now, []⟩ rop cnt).units := by
  intro n u hn hm
  have hi := issue_arriveOp hk ht h i e what rop cnt a
  dsimp only at hi
  rw [hi, if_pos hn]
  obtain ⟨hu, hat, hs⟩ := arrive_agreeing (s := s) (t := t) (tile := s.at_.1) (slot := s.at_.2) (k := k.issuing) (n := n)
    (what := what) (value := k.rd a) (code := BitVec.ofNat 16 (field (k.rd b).toNat 0 16)) (word := (encode i).getD 0) hm
  refine ⟨_, rfl, ?_, hu⟩
  rw [State.strand?, hat]
  exact hs

/-- Settles O29: an arrival is recorded, stalls or disagrees by whether its phase is open and what the phase has fixed; each
case says what the strand does next. -/
theorem barrierArrival : Obligations.BarrierArrival := by
  unfold Obligations.BarrierArrival
  intro stated open_ odd may noted recorded turned
  have hnoted (s t' : State) (k : Strand) (t : Team) (l : Scope) (n : Nat) (v : Option Word) (code : Nat) (forced : Bool)
      (rop : BOp) (cnt : Nat) (h : t'.units = (s.record k.team l (t.unitOf l k.lrank) n
        ⟨arriver k l, v, BitVec.ofNat 16 code, forced, s.now, []⟩ rop cnt).units) : noted s t' k t l n v code forced :=
    (State.arrivals_of_units h).trans (congrArg (_ ++ [·]) (s.knowing_arriver k l _ v _ forced))
  have hturned (i : Instr) (e : Bool) (ns : Names) (what : StallKind) (l : Scope) (rop : BOp) (cnt : Nat) (a b : SReg) (s : State)
      (k : Strand) (t : Team) (hi : exec i s = .next (issue i e ns (arriveOp i l what rop cnt a b) s)) (hk : Issues s k ns)
      (ht : s.team? k.team = some t) :
      turned i what s k t l (s.target t k.team k.lrank l k.tahead) (k.rd b).toNat (k.rd a) rop cnt := by
    unfold turned
    intro u x h
    obtain ⟨hstall, hodd⟩ := arriveOp_turned hk ht h i e what rop cnt a
    refine ⟨fun hn => hi.trans (congrArg Host.Outcome.next (hstall hn)), fun hn hm => ?_⟩
    obtain ⟨z, hz, hu, hs⟩ := hodd hn (State.mismatch_iff.2 hm)
    exact ⟨z, k.counted l, hi.trans (congrArg Host.Outcome.next hz), hnoted s z k t l _ none 0xFF00 true .none 0 hu, hs, rfl, rfl⟩
  have agrees {s : State} {k : Strand} {t : Team} {l : Scope} {n : Nat} {rop : BOp} {cnt : Nat} (h : ¬ odd s k t l n rop cnt) :
      State.mismatch (State.phase (s.unit k.team l (t.unitOf l k.lrank)) n) l rop cnt = false :=
    Bool.eq_false_iff.2 fun hm => h (State.mismatch_iff.1 hm)
  refine ⟨?bar, fun f s k t _ hk ht => hturned _ f.e _ _ _ _ _ _ _ s k t rfl hk ht,
    fun f s k t _ hk ht => hturned _ f.e _ _ _ _ _ _ _ s k t rfl hk ht, ?bara⟩
  case bar =>
    intro f s k t _ hk ht n ⟨hs, ho, hm⟩
    obtain ⟨t', he, hk', hu⟩ := arriveOp_recorded hk ht hs (.bar f) f.e (.bar f.d f.ds) f.rop f.cnt.val f.a ho (agrees hm)
    exact ⟨t', _, congrArg Host.Outcome.next he, hk', Strand.pc_atBarrier _ _ _ _ _ _, rfl, Strand.s_atBarrier _ _ _ _ _ _,
      Strand.full_atBarrier _ _ _ _ _ _, Strand.tahead_atBarrier _ _ _ _ _ _, hnoted _ _ _ _ _ _ _ _ _ _ _ hu⟩
  case bara =>
    intro f s k t _ hk ht n ⟨hs, ho, hm⟩
    obtain ⟨t', he, hk', hu⟩ := arriveOp_recorded hk ht hs (.bara f) f.e (.bara f.d) f.rop f.cnt.val f.a ho (agrees hm)
    have hrd (r : SReg) : (arrived s (k.counted f.scope) f.scope n (.bara f.d)).rd r =
        if r = 0 then 0 else if r = f.d then BitVec.ofNat 64 n else k.rd r :=
      Strand.rd_wr _ _ _ _
    refine ⟨t', _, congrArg Host.Outcome.next he, hk', congrArg (· + 8) (Strand.wr_pc _ _ _), Strand.wr_wait _ _ _, ?_, ?_,
      hnoted _ _ _ _ _ _ _ _ _ _ _ hu⟩
    · rw [hrd]; simp
    · intro r hr
      rw [hrd, if_neg hr]
      by_cases h0 : r = 0 <;> simp [h0]

end Sys2Proof.Machine
end

section
/-! PROOF. Requests and answers of peers (R63, R73, R195, R198, R203, R210): where a request waits, what it does at its home, what
an answer ends, and O44. -/

namespace Sys2Proof.Machine

/-! ### A peer's request on its way to its home (R195, R210) -/

/-- What a request comes through on its way from the edge to its home: whether it has come, and the state then. -/
abbrev requestCome (s : State) (r : RemoteReq) : Bool × State :=
  s.cross (reqHop r.src r.tag) (sitePath (edgeSite r.quad) (requestSite s r.team r.quad r.hnd r.ofs r.kind)) r.cls (requestFlits r)

/-- The state in which a request that has come is performed: the link's buffers that it took are free again. -/
abbrev requestFreed (s : State) (r : RemoteReq) : State :=
  { (requestCome s r).2 with inbound := s.inbound.filter (· != r) }.freeBuffers r.quad r.cls (requestFlits r)

theorem cross_inbound (s : State) (n : Nat) (path : List Nat) (cls flits : Nat) : (s.cross n path cls flits).2.inbound = s.inbound := by
  obtain ⟨c, h, e⟩ := s.cross_eq n path cls flits
  rw [e]

theorem requestFreed_eq (s : State) (r : RemoteReq) :
    ∃ c h i, requestFreed s r = { s with credits := c, hops := h, inbound := i } := by
  obtain ⟨c, h, e⟩ := s.cross_eq (reqHop r.src r.tag)
    (sitePath (edgeSite r.quad) (requestSite s r.team r.quad r.hnd r.ofs r.kind)) r.cls (requestFlits r)
  unfold requestFreed State.freeBuffers
  rw [e]
  exact ⟨_, _, _, rfl⟩

theorem exec_remoteRequest_held {r : RemoteReq} {s : State} (h : s.heldEdge r.team = true) (hi : s.inbound.contains r = false) :
    exec (.remoteRequest r) s = .next s :=
  if_pos (by rw [h, hi]; rfl)

/-- A request that may enter has come to its home, or the link keeps it. -/
theorem exec_remoteRequest_enters {r : RemoteReq} {s : State} (h : s.heldEdge r.team = false ∨ s.inbound.contains r = true) :
    exec (.remoteRequest r) s = .next (if (requestCome s r).1 then
        remoteAt r (requestEntry s r.team r.hnd r.ofs r.kind) (requestFreed s r)
      else { (requestCome s r).2 with inbound := s.inbound.filter (· != r) ++ [r] }) := by
  have hc : (s.heldEdge r.team && !s.inbound.contains r) ≠ true := by
    obtain h | h := h
    · rw [h]; exact Bool.false_ne_true
    · rw [h, Bool.not_true, Bool.and_false]; exact Bool.false_ne_true
  have hin := cross_inbound s (reqHop r.src r.tag) (requestWay s r) r.cls (requestFlits r)
  refine (if_neg hc).trans ?_
  dsimp only
  rw [hin]
  exact (apply_ite Host.Outcome.next _ _ _).symm

theorem Fmt.bits_of_isAmo {ty : Fmt} (h : ty.isAmo = true) : ty.bits = 32 ∨ ty.bits = 64 := by
  cases ty <;> simp_all [Fmt.isAmo, Fmt.bits]

/-! ### What a request does at its home (R63, R73) -/

theorem State.reply_eq (s : State) (src quad cls tag team home : Nat) (a : RemoteAns) :
    s.reply src quad cls tag team home a =
      { s with outbox := s.outbox ++ if s.carries quad then [.answer src quad cls tag team home a] else [] } := by
  unfold State.reply
  split
  · rfl
  · rw [List.append_nil]

section Request

variable {r : RemoteReq} {s z : State} {t : Team} {e : HEntry} {entry : Option HEntry}

theorem remoteAt_none (h : s.team? r.team = none) :
    remoteAt r entry s = s.reply r.src r.quad r.cls r.tag r.team (remoteSite s r.quad r.ofs entry) .refused := by
  unfold remoteAt; rw [h]

theorem remoteAt_long (hb : 256 < remoteBytes r.kind) :
    remoteAt r entry s = s.reply r.src r.quad r.cls r.tag r.team (remoteSite s r.quad r.ofs entry) .refused := by
  unfold remoteAt
  split
  · rfl
  · exact if_pos hb

theorem remoteAt_refused (ht : s.team? r.team = some t)
    (hk : (∃ step time n, r.kind = .read step time n) ∨ ∃ op ty v, r.kind = .amo op ty v) :
    remoteAt r none s = s.reply r.src r.quad r.cls r.tag r.team (edgeSite r.quad) .refused := by
  by_cases hb : 256 < remoteBytes r.kind
  · exact remoteAt_long hb
  · unfold remoteAt
    rw [ht]
    refine (if_neg hb).trans ?_
    obtain ⟨step, time, n, hk⟩ | ⟨op, ty, v, hk⟩ := hk <;> rw [hk] <;> rfl

/-- The requests that wait for a pod exchange, with another one. -/
abbrev State.holdRequest (s : State) (r : RemoteReq) : State :=
  { s with peerWork := s.peerWork ++ [⟨r.src, r.quad, r.cls, r.tag, r.team, r.hnd, r.ofs, r.kind⟩] }

theorem remoteAt_read {step time n : Nat} (ht : s.team? r.team = some t) (hk : r.kind = .read step time n) (hn : n ≤ 256) :
    remoteAt r (some e) s = if podDone s t < step then s.holdRequest r else
      s.reply r.src r.quad r.cls r.tag r.team (remoteSite s r.quad r.ofs (some e)) (readAnswer s r.team (e.key 0 r.ofs) step time n) := by
  unfold remoteAt State.holdRequest
  rw [ht, hk]
  exact (if_neg (show ¬ 256 < remoteBytes (.read step time n) from Nat.not_lt.2 hn)).trans rfl

theorem remoteAt_amo {op : ROp} {ty : Fmt} {v : Word} (ht : s.team? r.team = some t) (hk : r.kind = .amo op ty v)
    (hty : ty.isAmo = true) :
    let key := e.key 0 r.ofs
    let n := ty.bits / 8
    let z := s.writeLive [unitKey r.team .pkg 0, unitKey r.team .pod 0] key (bytesOf n (op.apply ty (s.liveNum key n) v.toNat))
    remoteAt r (some e) s = z.reply r.src r.quad r.cls r.tag r.team (remoteSite z r.quad r.ofs (some e))
      (.data ((bytesOf n (s.liveNum key n)).map fun b => (b, s.anyPoison key n))) := by
  have hb : ¬ 256 < remoteBytes (.amo op ty v) := by
    have h : remoteBytes (.amo op ty v) = ty.bits / 8 := rfl
    obtain hw | hw := Fmt.bits_of_isAmo hty <;> rw [h, hw] <;> decide
  unfold remoteAt
  rw [ht, hk]
  exact (if_neg hb).trans rfl

theorem remoteAt_held (ht : s.team? r.team = some t) (hr : ∀ step time n, r.kind ≠ .read step time n)
    (ha : ∀ op ty v, r.kind ≠ .amo op ty v) (hb : remoteBytes r.kind ≤ 256) (hp : podDone s t ≤ remoteStep r.kind) :
    remoteAt r entry s = s.holdRequest r := by
  unfold remoteAt State.holdRequest
  rw [ht]
  refine (if_neg (Nat.not_lt.2 hb)).trans ?_
  cases hk : r.kind with
  | read step time n => exact absurd hk (hr _ _ _)
  | amo op ty v => exact absurd hk (ha _ _ _)
  | write step _ _ _ _ | combine step _ _ _ _ _ _ | red step _ _ _ _ _ _ =>
    rw [hk] at hp
    exact (if_neg (show ¬ step < podDone s t from Nat.not_lt.2 hp)).trans rfl

end Request

/-! ### The bytes that a peer reads (R24, R73) -/

theorem Kept.later_iff {k : Kept} {id n time : Nat} :
    k.later id n time = true ↔ if k.pod = true ∧ k.team = id then n ≤ k.step else time < k.time := by
  unfold Kept.later
  by_cases h : k.pod = true ∧ k.team = id
  · simp [h]
  · have hb : (k.pod && k.team == id) = false := Bool.eq_false_iff.2 fun e => h (by simpa using e)
    simp [h, hb]

/-- A byte that no later exchange has overwritten is read from memory. -/
theorem byteAtPod_of_unkept {s : State} {id n time a : Nat}
    (h : ∀ k ∈ s.kept, (if k.pod = true ∧ k.team = id then n ≤ k.step else time < k.time) → lookup a k.cells = none) :
    byteAtPod s id n time a = (s.mem.byte a, s.poisoned (granule a)) := by
  have hn : (s.kept.findSome? fun k => if k.later id n time then lookup a k.cells else none) = none := by
    rw [List.findSome?_eq_none_iff]
    intro k hk
    split
    · next hl => exact h k hk (Kept.later_iff.1 hl)
    · rfl
  unfold byteAtPod
  rw [hn]

/-- The oldest later exchange that has overwritten a byte tells what it was. -/
theorem byteAtPod_of_kept {s : State} {id n time a : Nat} {pre post : List Kept} {k : Kept} {b : Byte × Bool}
    (hs : s.kept = pre ++ k :: post)
    (hp : ∀ x ∈ pre, (if x.pod = true ∧ x.team = id then n ≤ x.step else time < x.time) → lookup a x.cells = none)
    (hk : if k.pod = true ∧ k.team = id then n ≤ k.step else time < k.time) (hb : lookup a k.cells = some b) :
    byteAtPod s id n time a = b := by
  have hn : (pre.findSome? fun k => if k.later id n time then lookup a k.cells else none) = none := by
    rw [List.findSome?_eq_none_iff]
    intro x hx
    split
    · next hl => exact hp x hx (Kept.later_iff.1 hl)
    · rfl
  unfold byteAtPod
  rw [hs, List.findSome?_append, hn, List.findSome?_cons, if_pos (Kept.later_iff.2 hk), hb]
  rfl

/-! ### Live values (R76) -/

namespace State

theorem writeLive_eq (s : State) (us : List Nat) (a : Nat) (bs : List Byte) : ∃ l, s.writeLive us a bs = { s with live := l } := by
  induction bs generalizing s a with
  | nil => exact ⟨_, rfl⟩
  | cons b bs ih =>
    obtain ⟨l, h⟩ := ih _ (a + 1)
    exact ⟨l, h⟩

theorem liveByte_writeLive_of_lt (s : State) (us : List Nat) {a x : Nat} (bs : List Byte) (h : x < a) :
    (s.writeLive us a bs).liveByte x = s.liveByte x := by
  induction bs generalizing s a with
  | nil => rfl
  | cons b bs ih =>
    refine (ih _ (by omega)).trans ?_
    have hx : x ≠ a := by omega
    unfold liveByte
    dsimp only
    split
    · rw [lookup_eraseAt_of_ne hx]
    · rw [lookup_insertAt_of_ne hx]

/-- The live values of the bytes that are written. -/
theorem map_liveByte_writeLive (s : State) (us : List Nat) (a : Nat) (bs : List Byte) :
    (interval a bs.length).map (s.writeLive us a bs).liveByte = bs := by
  induction bs generalizing s a with
  | nil => rfl
  | cons b bs ih =>
    rw [List.length_cons, interval_succ, List.map_cons]
    refine congrArg₂ List.cons ?_ (ih _ (a + 1))
    refine (liveByte_writeLive_of_lt _ us bs (by omega)).trans ?_
    unfold liveByte
    dsimp only
    split
    · next h => rw [lookup_eraseAt_self]; exact h.symm
    · rw [lookup_insertAt_self]; rfl

theorem liveNum_writeLive (s : State) (us : List Nat) (a n v : Nat) :
    (s.writeLive us a (bytesOf n v)).liveNum a n = v % 256 ^ n := by
  have h := map_liveByte_writeLive s us a (bytesOf n v)
  rw [length_bytesOf] at h
  rw [liveNum, h, ofBytes_bytesOf]

end State

theorem Fmt.two_pow_bits_of_isAmo {ty : Fmt} (h : ty.isAmo = true) : 256 ^ (ty.bits / 8) = 2 ^ ty.bits := by
  obtain hw | hw := Fmt.bits_of_isAmo h <;> rw [hw] <;> norm_num

/-! ### What the counts of FSTAT and of a team's account change (R77, R262) -/

namespace State

theorem onTeam_eq (s : State) (id : Nat) (f : Team → Team) : ∃ ts, s.onTeam id f = { s with teams := ts } := by
  unfold onTeam
  split
  · exact ⟨_, rfl⟩
  · exact ⟨_, rfl⟩

theorem accountReplay_eq (s : State) (id i kind n : Nat) (replay : Bool) :
    ∃ ts, s.accountReplay id i kind n replay = { s with teams := ts } := by
  obtain ⟨ts, h⟩ : ∃ ts, s.account id i n = { s with teams := ts } := s.onTeam_eq id _
  unfold accountReplay
  rw [h]
  split
  · exact onTeam_eq { s with teams := ts } id _
  · exact ⟨ts, rfl⟩

theorem orFstat_eq (s : State) (id lr : Nat) (bits : Word) :
    ∃ m l p vs, s.orFstat id lr bits = { s with mem := m, live := l, poison := p, vtiles := vs } := by
  unfold orFstat
  split
  · extract_lets w z
    split
    · next t v _ _ _ =>
      obtain ⟨l, p, h⟩ := z.commit_eq (hbmKey (t.img lr + 655368)) (bytesOf 8 w.toNat)
      exact ⟨_, l, p, z.vtiles, h⟩
    · exact ⟨_, _, _, z.vtiles, rfl⟩
  · exact ⟨_, _, _, _, rfl⟩

end State

theorem countAsync_eq (s : State) (w : Issuer) (m : Shape) (n : Nat) : ∃ ts, countAsync s w m n = { s with teams := ts } :=
  s.accountReplay_eq _ _ _ _ _

theorem countCopy_eq (s : State) (c : CopyOp) (n : Nat) : ∃ ts, countCopy s c n = { s with teams := ts } := by
  have step (s : State) (b : Bool) (sp : Nat) : ∃ ts, (if 1 ≤ sp ∧ sp ≤ 6 then s.accountReplay c.who.team (bytesIndex sp) 20 n b
      else s) = { s with teams := ts } := by
    split
    · exact s.accountReplay_eq _ _ _ _ _
    · exact ⟨_, rfl⟩
  unfold countCopy
  dsimp only [List.foldl_cons, List.foldl_nil]
  obtain ⟨ts, h⟩ := step s (s.replayOf c.who.team c.who.lrank c.who.uid) (shSpace c.src)
  rw [h]
  exact step { s with teams := ts } _ _

theorem redMixed_eq (s : State) (id : Nat) :
    ∃ m l p vs, redMixed s id = { s with mem := m, live := l, poison := p, vtiles := vs } := by
  unfold redMixed
  split
  · exact s.orFstat_eq _ _ _
  · exact ⟨_, _, _, _, rfl⟩

/-! ### How a copy ends (R74, R78) -/

theorem keepDone_eq (s : State) (id : Nat) (c : CopyOp) (inc : Option Nat) :
    ∃ ds, keepDone s id c inc = { s with doneCopies := ds } := by
  unfold keepDone
  split
  all_goals
    split
    · exact ⟨_, rfl⟩
    · exact ⟨_, rfl⟩

/-- The end of a copy posts its increment under the next number, unless it has none or has been posted, and changes no other. -/
theorem finishCopy_eq (s : State) (id : Nat) (c : CopyOp) : ∃ ds fr is,
    finishCopy s id c = { s with doneCopies := ds, fresh := fr, incs := is } ∧ s.fresh ≤ fr ∧
    (∀ n < s.fresh, lookup n is = lookup n s.incs) ∧
    (c.posted = none → ctrNone c.ctr = false →
      s.fresh < fr ∧ lookup s.fresh is = some ⟨c.who, ctrVt c.ctr, ctrOfs c.ctr, c.amount, c.diverted⟩) := by
  unfold finishCopy
  split
  · next n hn =>
    obtain ⟨ds, h⟩ := keepDone_eq s id c (some n)
    exact ⟨ds, _, _, h, Nat.le_refl _, fun _ _ => rfl, fun h0 => by rw [h0] at hn; cases hn⟩
  · obtain ⟨ds, h⟩ := keepDone_eq s id c (if ctrNone c.ctr then none else some s.fresh)
    rw [h]
    unfold postCounter
    split
    · next hc => exact ⟨ds, _, _, rfl, Nat.le_refl _, fun _ _ => rfl, fun _ h0 => by rw [h0] at hc; cases hc⟩
    · exact ⟨ds, _, _, rfl, Nat.le_succ _, fun n hn => lookup_insertAt_of_ne (Nat.ne_of_lt hn) _ _,
        fun _ _ => ⟨Nat.lt_succ_self _, lookup_insertAt_self _ _ _⟩⟩

/-! ### Answers (R63, R203) -/

/-- The state in which an answer to a request of this package is taken: its buffers are free, and nothing waits for it. -/
abbrev answerTaken (s : State) (tag : Nat) (r : Remote) (a : RemoteAns) : State :=
  { s.freeBuffers r.quad r.cls (Msg.answer 0 0 0 0 0 0 a).flits with remotes := eraseAt tag s.remotes }

theorem exec_remoteResponse_none {tag : Nat} {a : RemoteAns} {s : State} (h : lookup tag s.remotes = none) :
    exec (.remoteResponse tag a) s = .next s := by
  refine congrArg Host.Outcome.next ?_
  rw [h]
  unfold answered
  rw [h]

section Answer

variable {tag id : Nat} {a : RemoteAns} {s : State} {r : Remote} (hr : lookup tag s.remotes = some r)
include hr

theorem exec_remoteResponse_some : exec (.remoteResponse tag a) s =
    .next (answered tag a (s.freeBuffers r.quad r.cls (Msg.answer 0 0 0 0 0 0 a).flits)) := by
  refine congrArg Host.Outcome.next ?_
  rw [hr]

theorem exec_remoteResponse_amoData {bs : List (Byte × Bool)} {o : AmoOp} (hw : r.wait = .amo id) (ho : lookup id s.amos = some o) :
    exec (.remoteResponse tag (.data bs)) s = .next (sendFill
      (countAsync { answerTaken s tag r (.data bs) with amos := eraseAt id s.amos } o.who o.a (o.ty.bits / 8)) o.who o.d
        (amoPut o.ty (ofBytes (bs.map (·.1)))) (bs.any (·.2)) (edgeSite r.quad)) := by
  rw [exec_remoteResponse_some hr]
  unfold answered
  rw [show lookup tag (s.freeBuffers r.quad r.cls (Msg.answer 0 0 0 0 0 0 (.data bs)).flits).remotes = some r from hr]
  dsimp only
  rw [hw]
  dsimp only
  rw [show lookup id (s.freeBuffers r.quad r.cls (Msg.answer 0 0 0 0 0 0 (.data bs)).flits).amos = some o from ho]
  rfl

theorem exec_remoteResponse_amoFailed {o : AmoOp} {cause : Nat} (hw : r.wait = .amo id) (ho : lookup id s.amos = some o)
    (hc : ansCause a = some cause) :
    exec (.remoteResponse tag a) s = .next (failAmo (answerTaken s tag r a) id o cause) := by
  rw [exec_remoteResponse_some hr]
  unfold answered
  rw [show lookup tag (s.freeBuffers r.quad r.cls (Msg.answer 0 0 0 0 0 0 a).flits).remotes = some r from hr]
  dsimp only
  rw [hw]
  dsimp only
  rw [show lookup id (s.freeBuffers r.quad r.cls (Msg.answer 0 0 0 0 0 0 a).flits).amos = some o from ho, hc]
  rfl

theorem exec_remoteResponse_copyWrite {i : Nat} {c : CopyOp} (hw : r.wait = .copyWrite id i) (ho : lookup id s.copies = some c)
    (hc : ansCause a = none) :
    exec (.remoteResponse tag a) s = .next (if c.pending - 1 = 0 then
        finishCopy (countCopy { answerTaken s tag r a with copies := eraseAt id s.copies } { c with pending := c.pending - 1 }
          (shSize c.dst)) id { c with pending := c.pending - 1 }
      else { answerTaken s tag r a with copies := insertAt id { c with pending := c.pending - 1 } s.copies }) := by
  rw [exec_remoteResponse_some hr]
  unfold answered
  rw [show lookup tag (s.freeBuffers r.quad r.cls (Msg.answer 0 0 0 0 0 0 a).flits).remotes = some r from hr]
  dsimp only
  rw [hw]
  dsimp only
  rw [show lookup id (s.freeBuffers r.quad r.cls (Msg.answer 0 0 0 0 0 0 a).flits).copies = some c from ho, hc]
  rfl

theorem exec_remoteResponse_copyRead {chunk ofs : Nat} {bs : List (Byte × Bool)} {c : CopyOp} {t : Team}
    (hw : r.wait = .copyRead id chunk ofs) (ho : lookup id s.copies = some c) (ht : s.team? c.who.team = some t) :
    exec (.remoteResponse tag (.data bs)) s =
      .next (bytesArrived (answerTaken s tag r (.data bs)) t id chunk ofs r.quad c bs) := by
  rw [exec_remoteResponse_some hr]
  unfold answered
  rw [show lookup tag (s.freeBuffers r.quad r.cls (Msg.answer 0 0 0 0 0 0 (.data bs)).flits).remotes = some r from hr]
  dsimp only
  rw [hw]
  dsimp only
  rw [show lookup id (s.freeBuffers r.quad r.cls (Msg.answer 0 0 0 0 0 0 (.data bs)).flits).copies = some c from ho]
  dsimp only
  rw [show State.team? { s.freeBuffers r.quad r.cls (Msg.answer 0 0 0 0 0 0 (.data bs)).flits with
    remotes := eraseAt tag (s.freeBuffers r.quad r.cls (Msg.answer 0 0 0 0 0 0 (.data bs)).flits).remotes } c.who.team = some t from ht]
  rfl

theorem exec_remoteResponse_red (hw : r.wait = .red [id]) : exec (.remoteResponse tag a) s =
    .next (redAnswered (if a = .mixed then redMixed (answerTaken s tag r a) id else answerTaken s tag r a) id (ansCause a)) := by
  rw [exec_remoteResponse_some hr]
  unfold answered
  rw [show lookup tag (s.freeBuffers r.quad r.cls (Msg.answer 0 0 0 0 0 0 a).flits).remotes = some r from hr]
  dsimp only
  rw [hw]
  rfl

end Answer

theorem chunkArrived_chunk (s : State) (t : Team) (id : Nat) (c : CopyOp) (quad : Nat) :
    ∃ c', lookup id (chunkArrived s t id c quad).copies = some c' ∧ c'.chunk = c.chunk + 1 := by
  unfold chunkArrived
  extract_lets ce lo n c₁ c₂
  split
  · exact ⟨_, lookup_insertAt_self _ _ _, rfl⟩
  · exact ⟨_, lookup_insertAt_self _ _ _, rfl⟩

/-- The answer to one of several requests of a RED, and to the last one. -/
theorem redAnswered_done {s : State} {id : Nat} {o : RedOp} (h : lookup id s.reds = some o) :
    (2 ≤ o.pending → redAnswered s id none = { s with reds := insertAt id { o with pending := o.pending - 1 } s.reds }) ∧
    (o.pending = 1 → ∃ ts, redAnswered s id none = { s with reds := eraseAt id s.reds, teams := ts }) := by
  unfold redAnswered
  rw [h]
  refine ⟨fun hp => if_neg (by omega), fun hp => ?_⟩
  obtain ⟨ts, ht⟩ := countAsync_eq { s with reds := eraseAt id s.reds } o.who o.d (shCount o.d * redBytes o.ty o.wd)
  exact ⟨ts, (if_pos (by omega)).trans ht⟩

/-- An AMO that fails sends zero to its register. -/
theorem failAmo_fills (s : State) (id cause : Nat) {o : AmoOp} (hd : o.d ≠ 0) :
    ∃ n home, lookup n (failAmo s id o cause).fills = some ⟨o.who, o.d, 0, false, home⟩ := by
  unfold failAmo sendFill
  rw [if_neg hd]
  exact ⟨_, _, lookup_insertAt_self _ _ _⟩

/-! ### O44 -/

/-- What a peer is told about a request. -/
theorem reply_requestFreed (s : State) (r : RemoteReq) (home : Nat) (a : RemoteAns) :
    (requestFreed s r).reply r.src r.quad r.cls r.tag r.team home a = { requestFreed s r with
      outbox := s.outbox ++ if s.carries r.quad then [.answer r.src r.quad r.cls r.tag r.team home a] else [] } := by
  obtain ⟨c, h, i, hz⟩ := requestFreed_eq s r
  rw [hz, State.reply_eq]
  rfl

theorem remoteRequest_read {r : RemoteReq} {s : State} {t : Team} {e : HEntry} {step time n : Nat} (ht : s.team? r.team = some t)
    (hk : r.kind = .read step time n) (hn : n ≤ 256) :
    remoteAt r (some e) (requestFreed s r) = if podDone s t < step then (requestFreed s r).holdRequest r else
      (requestFreed s r).reply r.src r.quad r.cls r.tag r.team (remoteSite s r.quad r.ofs (some e))
        (readAnswer s r.team (e.key 0 r.ofs) step time n) := by
  obtain ⟨c, h, i, hz⟩ := requestFreed_eq s r
  rw [hz, remoteAt_read (s := { s with credits := c, hops := h, inbound := i }) ht hk hn]
  rfl

theorem remoteRequest_hold (s : State) (r : RemoteReq) : (requestFreed s r).holdRequest r = { requestFreed s r with
    peerWork := s.peerWork ++ [⟨r.src, r.quad, r.cls, r.tag, r.team, r.hnd, r.ofs, r.kind⟩] } := by
  obtain ⟨c, h, i, hz⟩ := requestFreed_eq s r
  rw [hz]

theorem remoteRequest_amo {r : RemoteReq} {s : State} {t : Team} {e : HEntry} {op : ROp} {ty : Fmt} {v : Word}
    (ht : s.team? r.team = some t) (hk : r.kind = .amo op ty v) (hty : ty.isAmo = true) :
    let key := e.key 0 r.ofs
    let n := ty.bits / 8
    let z := remoteAt r (some e) (requestFreed s r)
    z.mem = s.mem ∧ z.liveNum key n = op.apply ty (s.liveNum key n) v.toNat % 2 ^ ty.bits ∧
      z.outbox = s.outbox ++ if s.carries r.quad then [.answer r.src r.quad r.cls r.tag r.team
        (remoteSite s r.quad r.ofs (some e)) (.data ((bytesOf n (s.liveNum key n)).map fun b => (b, s.anyPoison key n)))]
      else [] := by
  intro key n
  obtain ⟨c, h, i, hz⟩ := requestFreed_eq s r
  rw [hz]
  have ha := remoteAt_amo (s := { s with credits := c, hops := h, inbound := i }) (e := e) ht hk hty
  dsimp only at ha
  rw [ha, State.reply_eq]
  obtain ⟨l, hl⟩ := State.writeLive_eq { s with credits := c, hops := h, inbound := i }
    [unitKey r.team .pkg 0, unitKey r.team .pod 0] key (bytesOf n (op.apply ty (s.liveNum key n) v.toNat))
  have hn := State.liveNum_writeLive { s with credits := c, hops := h, inbound := i }
    [unitKey r.team .pkg 0, unitKey r.team .pod 0] key n (op.apply ty (s.liveNum key n) v.toNat)
  rw [Fmt.two_pow_bits_of_isAmo hty] at hn
  refine ⟨State.writeLive_mem _ _ _ _, hn, ?_⟩
  exact congrArg (fun z : State => z.outbox ++ if z.carries r.quad then [.answer r.src r.quad r.cls r.tag r.team
    (remoteSite z r.quad r.ofs (some e)) (.data ((bytesOf n (s.liveNum key n)).map fun b => (b, s.anyPoison key n)))] else []) hl

/-- Settles O44: a request waits at the edge, on its way or for its exchange, or is performed at its home; an answer ends what waits
for it. -/
theorem remoteSteps : Obligations.RemoteSteps := by
  unfold Obligations.RemoteSteps
  intro site flits come enters goes freed sent hold taken
  have goes_eq {r : RemoteReq} {s : State} (h : goes s r) : exec (.remoteRequest r) s =
      .next (remoteAt r (requestEntry s r.team r.hnd r.ofs r.kind) (requestFreed s r)) := by
    rw [exec_remoteRequest_enters h.1]
    exact congrArg Host.Outcome.next (if_pos h.2)
  have hold_eq (r : RemoteReq) (s : State) : (requestFreed s r).holdRequest r = hold s r := remoteRequest_hold s r
  have entry_eq {s : State} {r : RemoteReq} {t : Team} (ht : s.team? r.team = some t) :
      requestEntry s r.team r.hnd r.ofs r.kind = mirrorEntry s t r.hnd r.ofs (remoteNeeds r.kind).1 (remoteNeeds r.kind).2 := by
    rw [requestEntry, ht]; rfl
  refine ⟨⟨fun r s => exec_remoteRequest_held, ?edge, ?read, fun s id n time a => ⟨byteAtPod_of_unkept, fun pre k post b =>
    byteAtPod_of_kept⟩, ?amo, ?held, ?refused⟩, ⟨fun tag a s => ⟨_, rfl⟩, fun tag a s => exec_remoteResponse_none, ?amoAnswer, ?writeAnswer,
    ?readAnswer, ?redAnswer⟩⟩
  case edge =>
    intro r s hin hc
    rw [exec_remoteRequest_enters hin]
    exact congrArg Host.Outcome.next (if_neg (Bool.eq_false_iff.1 hc))
  case read =>
    intro r s t e step time n hg ht hk hn he
    have hent : requestEntry s r.team r.hnd r.ofs r.kind = some e := by rw [entry_eq ht, hk]; exact he
    have hsite : site s r = remoteSite s r.quad r.ofs (some e) := congrArg (remoteSite s r.quad r.ofs) hent
    rw [goes_eq hg, hent, remoteRequest_read ht hk hn]
    refine ⟨fun hs => ?_, fun hs => ?_⟩
    · rw [if_neg (Nat.not_lt.2 hs), reply_requestFreed]
      unfold sent
      rw [hsite]
      rfl
    · rw [if_pos hs, hold_eq]
  case amo =>
    intro r s t e op ty v hg ht hk hty he
    have hent : requestEntry s r.team r.hnd r.ofs r.kind = some e := by rw [entry_eq ht, hk]; exact he
    have hsite : site s r = remoteSite s r.quad r.ofs (some e) := congrArg (remoteSite s r.quad r.ofs) hent
    obtain ⟨hm, hl, ho⟩ := remoteRequest_amo (e := e) ht hk hty
    rw [goes_eq hg, hent]
    refine ⟨_, rfl, hm, hl, ho.trans ?_⟩
    unfold sent
    rw [hsite]
  case held =>
    intro r s t hg ht hr ha hb hp
    obtain ⟨c, h, i, hz⟩ := requestFreed_eq s r
    rw [goes_eq hg, ← hold_eq, hz]
    exact congrArg Host.Outcome.next
      (remoteAt_held (s := { s with credits := c, hops := h, inbound := i }) ht hr ha hb hp)
  case refused =>
    intro r s hg h
    obtain ⟨c, hc, i, hz⟩ := requestFreed_eq s r
    rw [goes_eq hg]
    refine (congrArg Host.Outcome.next ?_).trans (congrArg Host.Outcome.next (reply_requestFreed s r (site s r) .refused))
    rw [hz]
    obtain hb | h := h
    · exact remoteAt_long hb
    · cases ht : s.team? r.team with
      | none => exact remoteAt_none (s := { s with credits := c, hops := hc, inbound := i }) ht
      | some t =>
        obtain ⟨hk, he⟩ := h t ht
        have hent : requestEntry s r.team r.hnd r.ofs r.kind = none := by rw [entry_eq ht]; exact he
        have hsite : site s r = edgeSite r.quad := congrArg (remoteSite s r.quad r.ofs) hent
        rw [hent, hsite]
        exact remoteAt_refused (s := { s with credits := c, hops := hc, inbound := i }) ht hk
  case amoAnswer =>
    intro tag id a s r o hr hw ho hd
    refine ⟨fun bs hbs => ?_, fun cause hc => ?_⟩
    · subst hbs
      obtain ⟨ts, hts⟩ := countAsync_eq { answerTaken s tag r (.data bs) with amos := eraseAt id s.amos } o.who o.a (o.ty.bits / 8)
      refine ⟨_, exec_remoteResponse_amoData hr hw ho, ?_⟩
      rw [hts, sendFill, if_neg hd]
      exact ⟨lookup_eraseAt_self _ _, lookup_eraseAt_self _ _, lookup_insertAt_self _ _ _⟩
    · obtain ⟨n, home, hf⟩ := failAmo_fills (answerTaken s tag r a) id cause hd
      exact ⟨_, n, home, exec_remoteResponse_amoFailed hr hw ho hc, hf⟩
  case writeAnswer =>
    intro tag id i a s r c hr hw ho hc
    rw [exec_remoteResponse_copyWrite hr hw ho hc]
    refine ⟨fun hp => congrArg Host.Outcome.next (if_neg (by omega)), fun hp => ⟨_, congrArg Host.Outcome.next (if_pos (by omega)), ?_⟩⟩
    obtain ⟨ts, hts⟩ := countCopy_eq { answerTaken s tag r a with copies := eraseAt id s.copies }
      { c with pending := c.pending - 1 } (shSize c.dst)
    obtain ⟨ds, fr, is, hf, -, -, hi⟩ := finishCopy_eq { answerTaken s tag r a with copies := eraseAt id s.copies, teams := ts } id
      { c with pending := c.pending - 1 }
    rw [hts, hf]
    exact ⟨lookup_eraseAt_self _ _, lookup_eraseAt_self _ _, fun h0 h1 => (hi h0 h1).2⟩
  case readAnswer =>
    intro tag id chunk ofs bs s r c t hr hw ho ht
    rw [exec_remoteResponse_copyRead hr hw ho ht]
    refine ⟨fun h => ⟨_, _, congrArg Host.Outcome.next (if_pos h), lookup_insertAt_self _ _ _, rfl, rfl⟩, fun h => ?_⟩
    obtain ⟨c', hl, hn⟩ := chunkArrived_chunk (answerTaken s tag r (.data bs)) t id
      { c with got := bs.zipIdx.foldl (fun m b => insertAt (ofs + b.2) b.1 m) c.got } r.quad
    exact ⟨_, c', congrArg Host.Outcome.next (if_neg (Bool.eq_false_iff.1 h)), hl, hn⟩
  case redAnswer =>
    intro tag id a s r o hr hw ho hc
    rw [exec_remoteResponse_red hr hw, hc]
    obtain ⟨m, l, p, vs, hz⟩ : ∃ m l p vs, (if a = .mixed then redMixed (answerTaken s tag r a) id else answerTaken s tag r a) =
        { answerTaken s tag r a with mem := m, live := l, poison := p, vtiles := vs } := by
      split
      · exact redMixed_eq _ _
      · exact ⟨_, _, _, _, rfl⟩
    rw [hz]
    obtain ⟨hmore, hlast⟩ := redAnswered_done
      (s := { answerTaken s tag r a with mem := m, live := l, poison := p, vtiles := vs }) (id := id) ho
    refine ⟨fun h => ?_, fun h => ?_⟩
    · rw [hmore h]
      exact ⟨_, rfl, lookup_eraseAt_self _ _, lookup_insertAt_self _ _ _⟩
    · obtain ⟨ts, hts⟩ := hlast h
      rw [hts]
      exact ⟨_, rfl, lookup_eraseAt_self _ _, lookup_eraseAt_self _ _⟩

end Sys2Proof.Machine
end

section
/-! PROOF. Memory stays canonical (R11, R56; log 5), first part: what holds of every effect, and the updates of the state. -/

namespace Sys2Proof.Machine

/-- The form that every step keeps, as a property of memory alone. -/
def Memory.Canonical (m : Memory) : Prop := m.wf

theorem State.ok_iff {s : State} : s.ok ↔ s.mem.Canonical := Iff.rfl

/-- An effect that comes about leaves memory in its canonical form. -/
inductive DoOk : Do State → Prop
  | ok {t : State} (h : t.ok) : DoOk (.ok t)
  | error (e : Stop) : DoOk (.error e)

/-- The state that an outcome leads to, if any, has its memory in canonical form. -/
inductive OutOk : Out → Prop
  | next {t : State} (h : t.ok) : OutOk (.next t)
  | fault (r : Fault) : OutOk (.fault r)
  | refused (r : Refusal) : OutOk (.refused r)

@[simp] theorem doOk_ok {t : State} : DoOk (.ok t) ↔ t.ok := ⟨fun | .ok h => h, .ok⟩

@[simp] theorem outOk_next {t : State} : OutOk (.next t) ↔ t.ok := ⟨fun | .next h => h, .next⟩

theorem DoOk.bind {α : Type} (x : Do α) {f : α → Do State} (hf : ∀ a, DoOk (f a)) : DoOk (x >>= f) := by
  cases x with
  | ok a => exact hf a
  | error e => exact .error e

theorem DoOk.bind_state {x : Do State} {f : State → Do State} (hx : DoOk x) (hf : ∀ t, t.ok → DoOk (f t)) : DoOk (x >>= f) := by
  cases hx with
  | ok h => exact hf _ h
  | error e => exact .error e

theorem do_bind {α β : Type} (x : Do α) (f : α → Do β) : x >>= f = match x with
    | .ok a => f a
    | .error e => .error e := by cases x <;> rfl

theorem State.foldl_ok {α : Type} {f : State → α → State} (hf : ∀ s a, s.ok → (f s a).ok) (l : List α) {s : State} (h : s.ok) :
    (l.foldl f s).ok :=
  List.foldlRecOn (motive := State.ok) l f h fun s hs a _ => hf s a hs

theorem State.foldl_snd_ok {α β : Type} {f : β × State → α → β × State} (hf : ∀ p a, p.2.ok → (f p a).2.ok) (l : List α)
    {p : β × State} (h : p.2.ok) : (l.foldl f p).2.ok :=
  List.foldlRecOn (motive := fun p : β × State => p.2.ok) l f h fun p hp a _ => hf p a hp

theorem settle_doOk {s : State} (h : s.ok) (k : Strand) (w : Word) {r : Do State} (hr : DoOk r) : (settle s k w r).ok :=
  settle_canonical h k w r fun t ht => by simpa [ht] using hr

theorem issue_doOk {s : State} (h : s.ok) (i : Instr) (e : Bool) (n : Names) {body : Strand → State → Do State}
    (hb : ∀ k, DoOk (body k s)) : (issue i e n body s).ok :=
  issue_ok h i e n body fun k t _ ht => by simpa [ht] using hb k.issuing

theorem retire_map (s : State) (k : Strand) (f : State → State) : (retire s k).map f = .ok (f (s.put k.next)) := rfl

theorem retire_ok {s : State} (h : s.ok) (k : Strand) : DoOk (retire s k) := .ok h

theorem withTeam_ok {s : State} (h : s.ok) (k : Strand) {f : Team → Do State} (hf : ∀ t, DoOk (f t)) : DoOk (withTeam s k f) := by
  unfold withTeam; split
  · exact hf _
  · exact .ok h
theorem withVtile_ok {s : State} (h : s.ok) (k : Strand) {f : Team → Vtile → Do State} (hf : ∀ t v, DoOk (f t v)) :
    DoOk (withVtile s k f) := by
  unfold withVtile; split
  · exact hf _ _
  · exact .ok h

/-! ### Messages, links and level memory -/

theorem State.putAt_ok {s : State} (h : s.ok) (tile : Nat) (slot : Nat) (k : Strand) : (s.putAt tile slot k).ok := h

theorem State.put_ok {s : State} (h : s.ok) (k : Strand) : (s.put k).ok := h

theorem State.dropAt_ok {s : State} (h : s.ok) (tile : Nat) (slot : Nat) : (s.dropAt tile slot).ok := h

theorem State.putTeam_ok {s : State} (h : s.ok) (id : Nat) (t : Team) : (s.putTeam id t).ok := h

theorem State.onTeam_ok {s : State} (h : s.ok) (id : Nat) (f : Team → Team) : (s.onTeam id f).ok := by
  unfold State.onTeam
  grind [State.putTeam_ok]

theorem State.putVtile_ok {s : State} (h : s.ok) (team : Nat) (lr : Nat) (v : Vtile) : (s.putVtile team lr v).ok := h

theorem State.onVtile_ok {s : State} (h : s.ok) (team : Nat) (lr : Nat) (f : Vtile → Vtile) : (s.onVtile team lr f).ok := by
  unfold State.onVtile
  grind [State.putVtile_ok]

theorem State.putTile_ok {s : State} (h : s.ok) (t : Nat) (x : Tile) : (s.putTile t x).ok := h

theorem State.onTile_ok {s : State} (h : s.ok) (t : Nat) (f : Tile → Tile) : (s.onTile t f).ok := h

theorem State.putQuad_ok {s : State} (h : s.ok) (q : Nat) (x : Quad) : (s.putQuad q x).ok := h

theorem State.putUnit_ok {s : State} (h : s.ok) (team : Nat) (l : Scope) (u : Nat) (x : BarUnit) : (s.putUnit team l u x).ok :=
  h

theorem State.number_ok {s : State} (h : s.ok) : (s.number).2.ok := h

theorem State.drew_ok {s : State} (h : s.ok) (id : Nat) (n : Nat) : (s.drew id n).ok := by
  unfold State.drew
  grind [State.onTeam_ok]

theorem State.freeByte_ok {s : State} (h : s.ok) (id : Nat) : (s.freeByte id).2.ok := by
  unfold State.freeByte
  grind [State.drew_ok]

theorem State.freeWord_ok {s : State} (h : s.ok) (id : Nat) : (s.freeWord id).2.ok := by
  unfold State.freeWord
  grind [State.drew_ok]

theorem State.send_ok {s : State} (h : s.ok) (m : Msg) : (s.send m).ok := h

theorem State.spend_ok {s : State} (h : s.ok) (link : Nat) (cls : Nat) (flits : Nat) : (s.spend link cls flits).2.ok := h

theorem State.cross_ok {s : State} (h : s.ok) (n : Nat) (path : List Nat) (cls flits : Nat) : (s.cross n path cls flits).2.ok :=
  State.ok_of_mem (State.cross_mem _ _ _ _ _) h

theorem State.waitsThrough_ok {s : State} (h : s.ok) (n : Nat) (path : List Nat) (flits : Nat) :
    (s.waitsThrough n path flits).ok := by
  unfold State.waitsThrough
  grind [State.ok_iff]

theorem State.crossAll_ok {s : State} (h : s.ok) (cls : Nat) (ps : List (Nat × List Nat × Nat)) : (s.crossAll cls ps).2.ok := by
  unfold State.crossAll
  grind [State.cross_ok, State.waitsThrough_ok, State.foldl_ok, State.foldl_snd_ok]

theorem State.leaveAll_ok (stay : List Msg) (stuck : List (Nat × Nat)) (l : List Msg) {s : State} (h : s.ok) :
    (State.leaveAll stay stuck l s).ok := by
  fun_induction State.leaveAll stay stuck l s <;> grind [State.cross_ok, State.spend_ok, State.waitsThrough_ok, State.ok_iff]

theorem State.freeBuffers_ok {s : State} (h : s.ok) (link : Nat) (cls : Nat) (flits : Nat) : (s.freeBuffers link cls flits).ok
    :=
  h

theorem State.loseAt_ok {s : State} (h : s.ok) (qs : List Nat) : (s.loseAt qs).ok := by
  unfold State.loseAt
  grind [State.send_ok, State.foldl_ok, State.ok_iff]

theorem State.tellPeers_ok {s : State} (h : s.ok) (team : Nat) (ps : List Nat) (m : Nat → Nat → Msg) :
    (s.tellPeers team ps m).ok := by
  unfold State.tellPeers
  grind [State.send_ok, State.foldl_ok]

theorem State.tellPod_ok {s : State} (h : s.ok) (m : Nat → Nat → Msg) : (s.tellPod m).ok := by
  unfold State.tellPod
  grind [State.send_ok, State.foldl_ok]

theorem State.miss_ok {s : State} (h : s.ok) (key : Nat) : (s.miss key).ok := h

theorem State.countErr_ok {s : State} (h : s.ok) (i : Fin 11) (n : Nat) : (s.countErr i n).ok := h

theorem State.markPoison_ok {s : State} (h : s.ok) (gs : List Nat) : (s.markPoison gs).ok := h

theorem State.clearPoison_ok {s : State} (h : s.ok) (gs : List Nat) : (s.clearPoison gs).ok := by
  unfold State.clearPoison
  grind [State.ok_iff]

theorem State.settleLive_ok {s : State} (h : s.ok) (a : Nat) (n : Nat) : (s.settleLive a n).ok := by
  unfold State.settleLive
  grind [State.ok_iff]

theorem State.writeLive_ok {s : State} (h : s.ok) (units : List Nat) (a : Nat) (l : List Byte) :
    (s.writeLive units a l).ok := State.ok_of_mem (State.writeLive_mem _ _ _ _) h

theorem State.forgetUnits_ok {s : State} (h : s.ok) (id : Nat) : (s.forgetUnits id).ok := by
  unfold State.forgetUnits
  grind [State.ok_iff]

theorem State.uncover_ok {s : State} (h : s.ok) (gs : List Nat) : (s.uncover gs).ok := by
  unfold State.uncover
  grind [State.ok_iff]

theorem State.account_ok {s : State} (h : s.ok) (id : Nat) (i : Nat) (n : Nat) : (s.account id i n).ok := by
  unfold State.account
  grind [State.onTeam_ok]

theorem State.accountReplay_ok {s : State} (h : s.ok) (id : Nat) (i : Nat) (kind : Nat) (n : Nat) (replay : Bool) :
    (s.accountReplay id i kind n replay).ok := by
  unfold State.accountReplay
  grind [State.account_ok]

/-! ### What work hears of a change (R74, R137, R144) -/

theorem State.drewAcc_ok {s : State} (h : s.ok) (id : Nat) (marks : List Bool) : (s.drewAcc id marks).ok := by
  unfold State.drewAcc
  grind [State.drew_ok]

theorem State.touchCopies_ok {s : State} (h : s.ok) (id : Nat) (lr : Nat) (rs : List (Nat × Nat)) (own : Option Nat) :
    (s.touchCopies id lr rs own).ok :=
  h

theorem State.touchRuns_ok {s : State} (h : s.ok) (rs : List (Nat × Nat)) : (s.touchRuns rs).ok := by
  unfold State.touchRuns
  grind [State.ok_iff]

theorem State.touchWork_ok {s : State} (h : s.ok) (id : Nat) (lr : Nat) (rs : List (Nat × Nat)) (own : Option Nat := none) :
    (s.touchWork id lr rs own).ok := by
  unfold State.touchWork
  grind [State.drew_ok, State.drewAcc_ok, State.freeKeys_ok, State.putVtile_ok, State.touchCopies_ok]

theorem State.touchKeysWork_ok {s : State} (h : s.ok) (ks : List Nat) : (s.touchKeysWork ks).ok := by
  unfold State.touchKeysWork
  grind [State.ok_iff]

theorem State.touchKeys_ok {s : State} (h : s.ok) (ks : List Nat) : (s.touchKeys ks).ok := by
  unfold State.touchKeys
  grind [State.touchKeysWork_ok, State.touchRuns_ok]

theorem State.spoilDone_ok {s : State} (h : s.ok) (done : List DoneCopy) (ks : List Nat) : (s.spoilDone done ks).ok := by
  unfold State.spoilDone
  grind [State.freeKeys_ok, State.foldl_ok]

theorem State.onRace_ok {s : State} (h : s.ok) (id : Nat) (lr : Nat) (f : Races → Races) : (s.onRace id lr f).ok := by
  unfold State.onRace
  grind [State.putVtile_ok]

theorem State.noteRace_ok {s : State} (h : s.ok) (k : Strand) (rs : List (Nat × Nat)) (cell : Bool) : (s.noteRace k rs cell).ok
    := by
  unfold State.noteRace
  grind [State.putVtile_ok]

theorem State.noteLowered_ok {s : State} (h : s.ok) (old : State) (k : Strand) (rs : List (Nat × Nat)) :
    (s.noteLowered old k rs).ok := by
  unfold State.noteLowered
  grind [State.putVtile_ok]

theorem State.storing_ok {s : State} (h : s.ok) (k : Strand) (rs : List (Nat × Nat)) {w : State → State} (hw : ∀ u, u.ok → (w
    u).ok) : (s.storing k rs w).ok := by
  unfold State.storing
  grind [State.freeKeys_ok, State.noteLowered_ok, State.noteRace_ok, State.touchStore_ok]

theorem State.cellRace_ok {s : State} (h : s.ok) (k : Strand) (ofs : Nat) : (s.cellRace k ofs).ok := by
  unfold State.cellRace
  grind [State.freeKeys_ok, State.noteRace_ok, State.touchStore_ok]

/-! ### Arrivals, traces and records -/

theorem State.forceTileAt_ok {s : State} (h : s.ok) (id : Nat) (lr : Nat) (uid : Nat) (k : Nat) : (s.forceTileAt id lr uid k).ok
    := by
  unfold State.forceTileAt
  grind [State.record_ok, State.traceVt_ok]

/-! ### Save areas, faults and records -/

theorem State.readyRecord_ok {s : State} (h : s.ok) (id : Nat) (lr : Nat) (n : Nat) : (s.readyRecord id lr n).ok := by
  unfold State.readyRecord
  grind [State.onTeam_ok]

theorem State.statusFor_ok {s : State} (h : s.ok) (id : Nat) (d : SReg) (ds : SReg) (st : Word) : (s.statusFor id d ds st).2.ok
    := by
  unfold State.statusFor
  grind [State.freeWord_ok]

theorem State.settleOrder_ok {s : State} (h : s.ok) : (s.settleOrder).ok := by
  unfold State.settleOrder
  grind [State.ok_iff]

theorem State.orderStep_ok {s : State} (h : s.ok) (req : Option Nat) (ok : Bool) : (s.orderStep req ok).ok := by
  unfold State.orderStep
  grind [State.settleOrder_ok, State.ok_iff]

/-! ### Issuing -/

theorem State.startShadow_ok {s : State} (h : s.ok) (tile : Nat) : (s.startShadow tile).ok := by
  unfold State.startShadow
  grind [State.number_ok, State.putAt_ok, State.putTile_ok]

theorem State.endShadow_ok {s : State} (h : s.ok) (tile : Nat) (abandoned : Bool) : (s.endShadow tile abandoned).ok := by
  unfold State.endShadow
  grind [State.dropAt_ok, State.putTile_ok, State.startShadow_ok]

theorem State.resumeStrand_ok {s : State} (h : s.ok) (t : Team) (id : Nat) (lr : Nat) (save : Nat) (slot : Nat) (skip : Bool)
    (drop : Bool) : (s.resumeStrand t id lr save slot skip drop).2.ok := by
  unfold State.resumeStrand
  grind [State.dropAt_ok, State.enqueue_ok, State.imageSlot_ok, State.onVtile_ok, State.putAt_ok, State.refreshHeld_ok,
    State.resumeSaved_ok]

/-! ### Watchpoints -/

theorem State.halt_ok {s : State} (h : s.ok) (tile : Nat) (why : Nat) (wphit : BitVec 4) (group : Nat) :
    (s.halt tile why wphit group).ok := by
  unfold State.halt
  grind [State.putTile_ok, State.trace_ok, State.ok_iff]

theorem State.watchTrace_ok {s : State} (h : s.ok) (tile : Nat) (lr : Nat) (slot : Nat) (hits : List (Nat × Nat)) :
    (s.watchTrace tile lr slot hits).ok := by
  unfold State.watchTrace
  grind [State.trace_ok, State.foldl_ok]

theorem watched_ok {s : State} (h : s.ok) (k : Strand) (sel : Nat) (rs : List (Nat × Nat)) {go : State → Do State} (hg : ∀ t,
    t.ok → DoOk (go t)) : DoOk (watched k sel rs s go) := by
  unfold watched
  grind [State.watchTrace_ok, State.halt_ok, doOk_ok]

end Sys2Proof.Machine
end

section
/-! PROOF. Memory stays canonical, second part: copies, loads and stores, AMOs, REDs, requests of peers, and the issue of an
instruction. -/

namespace Sys2Proof.Machine

/-! ### Copies -/

theorem noteShape_ok {s : State} (h : s.ok) (t : Team) (lr : Nat) (m : Shape) (bytes : Nat) (scope : Scope) (step : Nat) (kind :
    UpdKind) : (noteShape s t lr m bytes scope step kind).ok := by
  unfold noteShape
  grind [State.noteUpdate_ok, State.foldl_ok]

theorem issueCopy_ok {s : State} (h : s.ok) (i : Instr) (op : Option ROp) (dm am : PNum) (b : SReg) (amount : Word) (k : Strand) :
    DoOk (issueCopy i op dm am b amount k s) := by
  unfold issueCopy
  refine withTeam_ok h k fun t => ?_
  iterate 7 refine DoOk.bind _ fun _ => ?_
  dsimp only
  cases op with
  | none =>
    refine DoOk.bind _ fun _ => ?_
    grind [noteShape_ok, State.number_ok, retire_ok, DoOk.bind, State.ok_iff]
  | some o =>
    iterate 3 refine DoOk.bind _ fun _ => ?_
    grind [noteShape_ok, State.number_ok, retire_ok, DoOk.bind, State.ok_iff]

theorem execCpy_ok {s : State} (h : s.ok) (f : CpyC) : OutOk (execCpy f s) := by
  unfold execCpy
  grind [issue_doOk, issueCopy_ok, outOk_next]

theorem execCpya_ok {s : State} (h : s.ok) (f : CpyaC) : OutOk (execCpya f s) := by
  unfold execCpya
  grind [issue_doOk, issueCopy_ok, outOk_next]

theorem copySource_ok {s : State} (h : s.ok) (t : Team) (c : CopyOp) (lo : Nat) (n : Nat) : (copySource s t c lo n).2.ok := by
  unfold copySource
  grind [State.drew_ok]

theorem State.undefine_ok {s : State} (h : s.ok) (id : Nat) (key : Nat → Nat) (m : Shape) : (s.undefine id key m).ok := by
  unfold State.undefine
  grind [State.freeKeys_ok]

theorem countCopy_ok {s : State} (h : s.ok) (c : CopyOp) (bytes : Nat) : (countCopy s c bytes).ok := by
  unfold countCopy
  grind [State.accountReplay_ok]

theorem countChunks_ok {s : State} (h : s.ok) (id : Nat) : (countChunks s id).ok := by
  unfold countChunks
  grind [countCopy_ok, State.ok_iff]

theorem failCopy_ok {s : State} (h : s.ok) (id : Nat) (c : CopyOp) (cause : Nat) (opd : Shape) : (failCopy s id c cause opd).ok
    := by
  unfold failCopy
  grind [countCopy_ok, State.engineFault_ok, State.touchStore_ok, State.undefine_ok, State.ok_iff]

theorem overlapFree_ok {s : State} (h : s.ok) (t : Team) (c : CopyOp) (l : Landing) : (overlapFree s t c l).2.ok := by
  unfold overlapFree
  grind [State.drew_ok]

theorem launchLandings_ok {s : State} (h : s.ok) (t : Team) (id : Nat) (c : CopyOp) (l : List Landing) :
    (launchLandings s t id c l).2.ok := by
  fun_induction launchLandings s t id c l <;> grind [State.number_ok, overlapFree_ok, State.ok_iff]

theorem notePoison_ok {s : State} (h : s.ok) (w : Issuer) (xs : List (Nat × Bool)) : (notePoison s w xs).ok := by
  unfold notePoison
  grind [State.deliverSummary_ok]

theorem moveChunk_ok {s : State} (h : s.ok) (t : Team) (id : Nat) (c : CopyOp) (quad : Nat := 0) : (moveChunk s t id c quad).ok
    := by
  unfold moveChunk
  grind [copySource_ok, launchLandings_ok, notePoison_ok, State.ok_iff]

theorem postCounter_ok {s : State} (h : s.ok) (c : CopyOp) : (postCounter s c).ok := by
  unfold postCounter
  grind [State.number_ok, State.ok_iff]

theorem keepDone_ok {s : State} (h : s.ok) (id : Nat) (c : CopyOp) (inc : Option Nat) : (keepDone s id c inc).ok := by
  unfold keepDone
  grind [State.ok_iff]

theorem finishCopy_ok {s : State} (h : s.ok) (id : Nat) (c : CopyOp) : (finishCopy s id c).ok := by
  unfold finishCopy
  grind [keepDone_ok, postCounter_ok]

theorem endCopy_ok {s : State} (h : s.ok) (id : Nat) : (endCopy s id).ok := by
  unfold endCopy
  grind [finishCopy_ok, State.ok_iff]

theorem State.ask_ok {s : State} (h : s.ok) (w : Issuer) (p : Nat) (quad : Nat) (cls : Nat) (hnd : Nat) (ofs : Nat) (kind :
    RemoteKind) (wait : RemoteWait) : (s.ask w p quad cls hnd ofs kind wait).ok :=
  h

theorem askChunk_ok {s : State} (h : s.ok) (id : Nat) (c : CopyOp) (quad : Nat) (cls : Nat) : (askChunk s id c quad cls).ok :=
    by
  unfold askChunk
  grind [State.ask_ok, State.foldl_ok]

theorem acceptCopy_ok {s : State} (h : s.ok) (t : Team) (id : Nat) (c : CopyOp) : (acceptCopy s t id c).ok := by
  unfold acceptCopy
  grind [State.cross_ok, State.ok_iff]

theorem execCopyChunk_ok {s : State} (h : s.ok) (id : Nat) : OutOk (execCopyChunk id s) := by
  unfold execCopyChunk
  split
  · exact .next h
  · split
    · exact .next h
    · dsimp only
      grind [acceptCopy_ok, failCopy_ok, askChunk_ok, moveChunk_ok, outOk_next, OutOk.fault, OutOk.refused]

theorem landBytes_ok {s : State} (h : s.ok) (key : Nat → Nat) (cs : List (Nat × Byte × Byte)) : (landBytes s key cs).ok := by
  unfold landBytes
  grind [State.update_ok, State.foldl_ok]

theorem landCombine_ok {s : State} (h : s.ok) (key : Nat → Nat) (op : ROp) (f : Fmt) (es : List (Nat × Nat)) : (landCombine s
    key op f es).ok := by
  unfold landCombine
  grind [State.update_ok, State.foldl_ok]

theorem coverGranule_ok {s : State} (h : s.ok) (key : Nat → Nat) (l : Landing) (cs : List (Nat × Byte × Byte)) (g : Nat) :
    (coverGranule key l cs s g).ok := by
  unfold coverGranule
  grind [State.clearPoison_ok, State.putVtile_ok]

theorem landMarks_ok {s : State} (h : s.ok) (key : Nat → Nat) (l : Landing) (rs : List (Nat × Nat)) : (landMarks s key l rs).ok
    := by
  unfold landMarks
  grind [coverGranule_ok, State.markPoison_ok, State.uncover_ok, State.foldl_ok]

theorem landSwap_ok (key : Nat → Nat) (b : Nat) (l : List (Nat × Nat × Nat)) {s : State} (h : s.ok) : (landSwap key b l s).2.ok := by
  fun_induction landSwap key b l s <;> grind [State.update_ok]

theorem applyLanding_ok {s : State} (h : s.ok) (key : Nat → Nat) (l : Landing) : (applyLanding s key l).2.ok := by
  unfold applyLanding
  grind [landBytes_ok, landCombine_ok, landMarks_ok, landSwap_ok]

theorem landWatch_ok {s : State} (h : s.ok) (tile : Nat) (lr : Nat) (sel : Nat) (rs : List (Nat × Nat)) : (landWatch s tile lr
    sel rs).ok := by
  unfold landWatch
  grind [State.halt_ok, State.watchTrace_ok]

theorem State.arrives_ok {s : State} (h : s.ok) (n : Nat) (home : Nat) (p : Port) (t : Team) (lr : Nat) (cls : Nat) (flits :
    Nat) : (s.arrives n home p t lr cls flits).2.ok := by
  unfold State.arrives
  grind [State.cross_ok]

theorem landed_ok {s : State} (h : s.ok) (l : Landing) (n : Nat) (m : Nat) : (landed s l n m).ok := by
  unfold landed
  grind [countChunks_ok, endCopy_ok, State.ok_iff]

theorem sendBack_ok {s : State} (h : s.ok) (home : Nat) (l : List Landing) : (sendBack s home l).ok := by
  fun_induction sendBack s home l <;> grind [State.drew_ok, State.number_ok, State.ok_iff]

theorem countLanding_ok {s : State} (h : s.ok) (l : Landing) : (countLanding s l).ok := by
  unfold countLanding
  grind [State.accountReplay_ok]

theorem landTouch_ok {s : State} (h : s.ok) (l : Landing) : (landTouch s l).ok := by
  unfold landTouch
  grind [State.touchStore_ok, State.touchWork_ok]

theorem observed_ok {s : State} (h : s.ok) (k : Strand) (key : Nat) (ofs : Nat) : (observed s k key ofs).2.ok := by
  unfold observed
  grind [State.freeWord_ok]

theorem waitEnds_ok {s : State} (h : s.ok) (k : Strand) (ofs : Nat) (d : SReg) (v : Word) : (waitEnds k ofs d v s).2.ok := by
  unfold waitEnds
  grind [State.onRace_ok]

theorem recheckSlot_ok {s : State} (h : s.ok) (id : Nat) (lr : Nat) (tile : Nat) (slot : Nat) :
    (recheckSlot id lr tile s slot).ok := by
  unfold recheckSlot
  grind [observed_ok, State.putAt_ok, waitEnds_ok]

theorem recheckWaits_ok {s : State} (h : s.ok) (id : Nat) (lr : Nat) : (recheckWaits s id lr).ok := by
  unfold recheckWaits
  grind [State.readyRecord_ok, recheckSlot_ok, State.foldl_ok]

theorem landAt_ok {s : State} (h : s.ok) (l : Landing) (tile : Nat) : (landAt s l tile).ok := by
  unfold landAt
  grind [applyLanding_ok, countLanding_ok, landTouch_ok, landWatch_ok, landed_ok, recheckWaits_ok, sendBack_ok]

theorem noteDiverted_ok {s : State} (h : s.ok) (l : Landing) : (noteDiverted s l).ok := by
  unfold noteDiverted
  grind [State.deliverSummary_ok, State.ok_iff]

theorem landImage_ok {s : State} (h : s.ok) (t : Team) (l : Landing) : (landImage s t l).ok := by
  unfold landImage
  grind [applyLanding_ok, countLanding_ok, landTouch_ok, landed_ok, noteDiverted_ok, recheckWaits_ok, sendBack_ok,
    State.settleLive_ok]

theorem landLog_ok {s : State} (h : s.ok) (l : Landing) : (landLog s l).ok := by
  unfold landLog
  grind [State.appendLog_ok, countLanding_ok, landTouch_ok, landed_ok, noteDiverted_ok, State.foldl_ok]

theorem failLanding_ok {s : State} (h : s.ok) (n : Nat) (l : Landing) : (failLanding s n l).ok := by
  unfold failLanding
  grind [failCopy_ok, State.ok_iff]

theorem postQueued_ok {s : State} (h : s.ok) (l : Landing) (tile : Nat) : (postQueued s l tile).ok := by
  unfold postQueued
  grind [postCounter_ok, State.ok_iff]

theorem execLanding_ok {s : State} (h : s.ok) (n : Nat) : OutOk (execLanding n s) := by
  unfold execLanding
  grind [State.arrives_ok, failLanding_ok, landAt_ok, landImage_ok, landLog_ok, State.onTile_ok, postQueued_ok, outOk_next,
    State.ok_iff]

theorem addCounter_ok {s : State} (h : s.ok) (key : Nat) (amount : Word) : (addCounter s key amount).2.ok := by
  unfold addCounter
  grind [State.update_ok]

theorem saturated_ok {s : State} (h : s.ok) (i : Increment) (ovf : Nat) (absent : Bool) : (saturated s i ovf absent).ok := by
  unfold saturated
  grind [State.deliverSummary_ok, State.orFstat_ok, State.traceVt_ok, State.writeFault_ok]

theorem divertedInc_ok {s : State} (h : s.ok) (n : Nat) (i : Increment) : (divertedInc s n i).2.ok := by
  unfold divertedInc
  grind [State.deliverSummary_ok, State.ok_iff]

theorem incImage_ok {s : State} (h : s.ok) (t : Team) (i : Increment) : (incImage s t i).ok := by
  unfold incImage
  grind [addCounter_ok, saturated_ok, State.settleLive_ok, State.touchStore_ok]

theorem incDone_ok {s : State} (h : s.ok) (n : Nat) : (incDone s n).ok := by
  unfold incDone
  grind [State.ok_iff]

theorem incAt_ok {s : State} (h : s.ok) (i : Increment) (tile : Nat) : (incAt s i tile).ok := by
  unfold incAt
  grind [addCounter_ok, landWatch_ok, saturated_ok, State.touchStore_ok]

theorem execCounterIncrement_ok {s : State} (h : s.ok) (n : Nat) : OutOk (execCounterIncrement n s) := by
  unfold execCounterIncrement
  grind [State.appendLog_ok, State.arrives_ok, divertedInc_ok, incAt_ok, incDone_ok, incImage_ok, State.onTile_ok,
    recheckWaits_ok, outOk_next, State.ok_iff]

theorem drainPort_ok {s : State} (h : s.ok) (tile : Nat) : (drainPort s tile).ok := by
  unfold drainPort
  grind [incAt_ok, incDone_ok, landAt_ok, State.onTile_ok, recheckWaits_ok, State.foldl_ok, State.ok_iff]

/-! ### Loads and stores -/

theorem loadBytes_ok {s : State} (h : s.ok) (k : Strand) (a : Word) (n align : Nat) {go : List Byte → State → Do State} (hg : ∀
    bs t, t.ok → DoOk (go bs t)) : DoOk (loadBytes k a n align s go) := by
  unfold loadBytes
  grind [watched_ok, DoOk.error, do_bind]

theorem stored_ok {s : State} (h : s.ok) (k : Strand) (a : Nat) (bs : List Byte) : (stored k a bs s).ok := by
  unfold stored
  grind [State.storing_ok, State.write_ok]

theorem storeBytes_ok {s : State} (h : s.ok) (k : Strand) (a : Word) (align : Nat) (bs : List Byte) : DoOk (storeBytes k a align
    bs s) := by
  unfold storeBytes
  grind [retire_ok, stored_ok, watched_ok, DoOk.bind]

theorem execLd_ok {s : State} (h : s.ok) (f : IntI) : OutOk (execLd f s) := by
  unfold execLd
  grind [issue_doOk, loadBytes_ok, retire_ok, outOk_next]

theorem execSt_ok {s : State} (h : s.ok) (f : IntI) : OutOk (execSt f s) := by
  unfold execSt
  grind [issue_doOk, storeBytes_ok, outOk_next]

theorem execMld_ok {s : State} (h : s.ok) (f : ShapeI) : OutOk (execMld f s) := by
  unfold execMld
  grind [issue_doOk, retire_ok, DoOk.bind, outOk_next]

theorem execMst_ok {s : State} (h : s.ok) (f : ShapeI) : OutOk (execMst f s) := by
  unfold execMst
  grind [issue_doOk, retire_ok, stored_ok, DoOk.bind, outOk_next]

theorem execMset_ok {s : State} (h : s.ok) (f : MsetI) : OutOk (execMset f s) := by
  unfold execMset
  grind [issue_doOk, retire_ok, outOk_next]

/-! ### AMO, RED, counters and peers -/

theorem execAmo_ok {s : State} (h : s.ok) (f : AmoC) : OutOk (execAmo f s) := by
  unfold execAmo
  refine .next <| issue_doOk h _ _ _ fun k => withTeam_ok h k fun t => ?_
  grind [noteShape_ok, State.number_ok, retire_ok, DoOk.bind, State.ok_iff]

theorem sendFill_ok {s : State} (h : s.ok) (w : Issuer) (d : SReg) (v : Word) (psn : Bool) (home : Nat) :
    (sendFill s w d v psn home).ok := by
  unfold sendFill
  grind [State.number_ok, State.ok_iff]

theorem failAmo_ok {s : State} (h : s.ok) (id : Nat) (o : AmoOp) (cause : Nat) : (failAmo s id o cause).ok := by
  unfold failAmo
  grind [State.engineFault_ok, sendFill_ok, State.ok_iff]

theorem countAsync_ok {s : State} (h : s.ok) (w : Issuer) (m : Shape) (n : Nat) : (countAsync s w m n).ok := by
  unfold countAsync
  grind [State.accountReplay_ok]

theorem amoRelease_ok {s : State} (h : s.ok) (t : Team) (unit : Nat) (key : Nat) (was : Nat) : (amoRelease s t unit key was).ok
    := by
  unfold amoRelease
  grind [State.release_ok, State.writeLive_ok]

theorem execAmoPerform_ok {s : State} (h : s.ok) (id : Nat) : OutOk (execAmoPerform id s) := by
  unfold execAmoPerform
  grind [amoRelease_ok, State.ask_ok, countAsync_ok, State.cross_ok, failAmo_ok, sendFill_ok, State.writeLive_ok, outOk_next,
    State.ok_iff]

theorem execAmoFill_ok {s : State} (h : s.ok) (id : Nat) : OutOk (execAmoFill id s) := by
  unfold execAmoFill
  grind [State.arrives_ok, State.deliverFill_ok, outOk_next, State.ok_iff]

theorem execRed_ok {s : State} (h : s.ok) (f : RedC) : OutOk (execRed f s) := by
  unfold execRed
  refine .next <| issue_doOk h _ _ _ fun k => withTeam_ok h k fun t => ?_
  grind [State.noteUpdate_ok, State.foldl_ok, State.number_ok, retire_ok, DoOk.bind, State.ok_iff]

theorem failRed_ok {s : State} (h : s.ok) (id : Nat) (o : RedOp) (cause : Nat) : (failRed s id o cause).ok := by
  unfold failRed
  grind [State.engineFault_ok, State.ok_iff]

theorem execRedAccept_ok {s : State} (h : s.ok) (id : Nat) : OutOk (execRedAccept id s) := by
  unfold execRedAccept
  grind [State.cross_ok, failRed_ok, outOk_next, State.ok_iff]

theorem fenced_ok {s : State} (h : s.ok) (uid : Nat) (l : Nat) : (fenced s uid l).ok := by
  unfold fenced
  grind [State.ok_iff]

theorem execFence_ok {s : State} (h : s.ok) (f : FenceC) : OutOk (execFence f s) := by
  unfold execFence
  grind [fenced_ok, issue_doOk, retire_ok, DoOk.error, outOk_next]

theorem execCtradd_ok {s : State} (h : s.ok) (f : CtrC) : OutOk (execCtradd f s) := by
  refine .next (issue_doOk h _ _ _ fun k => DoOk.bind _ fun _ => ?_)
  have ha := addCounter_ok (State.touchStore_ok h k.team k.lrank [((memAddr k f.a f.x).toNat, 8)])
    (tileKey s (memAddr k f.a f.x).toNat) (k.rd f.b)
  split
  · next he => exact .ok (recheckWaits_ok (State.put_ok (State.onRace_ok (by simpa [he] using ha) _ _ _) _) _ _)
  · next he => exact .ok (State.takeFault_ok (State.orFstat_ok (by simpa [he] using ha) _ _ _) _ _ _ _ _ _ _ _)

theorem execWaitge_ok {s : State} (h : s.ok) (f : WaitC) : OutOk (execWaitge f s) := by
  unfold execWaitge
  grind [issue_doOk, observed_ok, State.put_ok, waitEnds_ok, doOk_ok, DoOk.error, DoOk.bind, outOk_next]

theorem markExFail_ok {s : State} (h : s.ok) (id : Nat) (l : Scope) (u : Nat) (k : Nat) : (markExFail s id l u k).ok := h

theorem State.reply_ok {s : State} (h : s.ok) (src : Nat) (quad : Nat) (cls : Nat) (tag : Nat) (team : Nat) (home : Nat) (a :
    RemoteAns) : (s.reply src quad cls tag team home a).ok := by
  unfold State.reply
  grind [State.send_ok]

theorem remoteAt_ok {s : State} (h : s.ok) (r : RemoteReq) (entry : Option HEntry) : (remoteAt r entry s).ok := by
  unfold remoteAt
  grind [State.reply_ok, State.writeLive_ok, State.ok_iff]

theorem execRemoteRequest_ok {s : State} (h : s.ok) (r : RemoteReq) : OutOk (execRemoteRequest r s) := by
  unfold execRemoteRequest
  grind [State.cross_ok, State.freeBuffers_ok, remoteAt_ok, outOk_next, State.ok_iff]

theorem undefineLevel_ok {s : State} (h : s.ok) (t : Team) (c : CopyOp) : (undefineLevel s t c).ok := by
  unfold undefineLevel
  grind [State.touchKeys_ok, State.undefine_ok]

theorem failCopyStep_ok {s : State} (h : s.ok) (id : Nat) (c : CopyOp) (cause : Nat) (opd : Shape) :
    (failCopyStep s id c cause opd).ok := by
  unfold failCopyStep
  grind [failCopy_ok, markExFail_ok, undefineLevel_ok]

theorem chunkArrived_ok {s : State} (h : s.ok) (t : Team) (id : Nat) (c : CopyOp) (quad : Nat) : (chunkArrived s t id c quad).ok
    := by
  unfold chunkArrived
  grind [moveChunk_ok, State.ok_iff]

theorem bytesArrived_ok {s : State} (h : s.ok) (t : Team) (id : Nat) (chunk : Nat) (ofs : Nat) (quad : Nat) (c : CopyOp) (bs :
    List (Byte × Bool)) : (bytesArrived s t id chunk ofs quad c bs).ok := by
  unfold bytesArrived
  grind [chunkArrived_ok, State.ok_iff]

theorem redAnswered_ok {s : State} (h : s.ok) (id : Nat) (cause : Option Nat) : (redAnswered s id cause).ok := by
  unfold redAnswered
  grind [countAsync_ok, failRed_ok, markExFail_ok, State.ok_iff]

theorem redMixed_ok {s : State} (h : s.ok) (id : Nat) : (redMixed s id).ok := by
  unfold redMixed
  grind [State.orFstat_ok]

theorem answered_ok {s : State} (h : s.ok) (tag : Nat) (a : RemoteAns) : (answered tag a s).ok := by
  unfold answered
  split
  · exact h
  · next r hr =>
    extract_lets z
    have hz : z.ok := h
    clear_value z
    grind [failCopyStep_ok, bytesArrived_ok, finishCopy_ok, countCopy_ok, failAmo_ok, sendFill_ok, countAsync_ok, redMixed_ok, redAnswered_ok, State.foldl_ok, State.ok_iff]

theorem execRemoteResponse_ok {s : State} (h : s.ok) (tag : Nat) (a : RemoteAns) : OutOk (execRemoteResponse tag a s) := by
  unfold execRemoteResponse
  grind [answered_ok, State.freeBuffers_ok, outOk_next]

/-! ### Fetching and issuing -/

theorem State.meetMatch_ok {s : State} (h : s.ok) (tile : Nat) (slot : Nat) (entry : Nat) (pc : Word) : (s.meetMatch tile slot
    entry pc).ok := by
  unfold State.meetMatch
  grind [State.putTile_ok, State.startShadow_ok]

theorem State.afterIssue_ok {s : State} (h : s.ok) (tile : Nat) (slot : Nat) : (s.afterIssue tile slot).ok := by
  unfold State.afterIssue
  grind [State.putTile_ok, State.ok_iff]

theorem issuesTo_ok {s s' : State} (h : s.ok) (h' : s'.ok) (tile slot : Nat) (k : Strand) : (issuesTo s tile slot k s').ok := by
  unfold issuesTo
  grind [State.putAt_ok, State.meetMatch_ok, State.afterIssue_ok]

theorem issueWith_ok {run : Instr → State → Out} (hr : ∀ i s, s.ok → OutOk (run i s)) {s : State} (h : s.ok) (tile slot : Nat) :
    OutOk (issueWith run s tile slot) := by
  unfold issueWith
  grind [issuesTo_ok, settle_doOk, outOk_next, DoOk.error, State.ok_iff]

theorem attempt_ok {run : Instr → State → Out} (hr : ∀ i s, s.ok → OutOk (run i s)) (tile : Nat) (engine : Bool) {p : List (Nat
    × Strand) × State} (h : p.2.ok) (slot : Nat) : (attempt run tile engine p slot).2.ok := by
  unfold attempt
  grind [issueWith_ok, outOk_next]

theorem State.noteReady_ok {s : State} (h : s.ok) (tile : Nat) (engine : Bool) (cs : List (Nat × Strand)) : (s.noteReady tile
    engine cs).ok := by
  unfold State.noteReady
  grind [State.putAt_ok, State.foldl_ok]

theorem State.nextCycle_ok {s : State} (h : s.ok) : (s.nextCycle).ok := by
  unfold State.nextCycle
  grind [State.onVtile_ok, State.putDivEntry_ok, State.foldl_ok, State.ok_iff]

theorem State.tick_ok {s : State} (h : s.ok) (f : Nat) (n : Nat) : (s.tick f n).ok := by
  unfold State.tick
  grind [State.flushTrace_ok, State.leaveAll_ok, State.nextCycle_ok, State.foldl_ok, State.ok_iff]

theorem tileTurn_ok {run : Instr → State → Out} (hr : ∀ i s, s.ok → OutOk (run i s)) {s : State} (h : s.ok) :
    OutOk (tileTurn run s) := by
  unfold tileTurn
  extract_lets tile engine p z ended
  have hp : p.2.ok :=
    List.foldlRecOn (motive := fun q : List (Nat × Strand) × State => q.2.ok) _ _ h fun q hq i _ => attempt_ok hr _ _ hq i
  have hz : z.ok := State.noteReady_ok hp _ _ _
  have he (u : State) (uid : Option Nat) (hu : u.ok) : (ended u uid).ok := by
    unfold ended
    grind [State.tick_ok, State.ok_iff]
  clear_value p z ended
  grind [issueWith_ok, State.putAt_ok, outOk_next, OutOk.fault, OutOk.refused]

theorem State.podTicks_ok {s : State} (h : s.ok) (ns : Nat) : (s.podTicks ns).ok := h

theorem State.advance_ok {s : State} (h : s.ok) (cycles : Nat) (ns : Nat) : (s.advance cycles ns).ok := by
  unfold State.advance
  grind [State.account_ok, State.podTicks_ok, State.tick_ok, State.foldl_ok]

end Sys2Proof.Machine
end

section
/-! PROOF. Memory stays canonical, third part: vectors, barriers and continuations. -/

namespace Sys2Proof.Machine

/-! ### Vectors -/

theorem vfinish_ok {s : State} (h : s.ok) (k : Strand) (t : Fmt) (q : VPred) (d : VNum) (mult : Nat) (f : Nat → Nat × Bool) :
    DoOk (vfinish s k t q d mult f) := by
  unfold vfinish
  grind [State.accountReplay_ok, State.put_ok, State.setSat_ok, doOk_ok]

theorem vecU_ok {s : State} (h : s.ok) (i : Instr) (f : VecU) (op : Nat → Nat × Bool) : (vecU i f op s).ok := by
  unfold vecU
  grind [issue_doOk, vfinish_ok]

theorem vecR_ok {s : State} (h : s.ok) (i : Instr) (f : VecR) (mult : Nat) (op : Nat → Nat → Nat × Bool) :
    (vecR i f mult op s).ok := by
  unfold vecR
  grind [issue_doOk, vfinish_ok]

theorem execVattm_ok {s : State} (h : s.ok) (f : VecR) : OutOk (execVattm f s) := by
  unfold execVattm
  grind [issue_doOk, vfinish_ok, outOk_next]

theorem execVbcast_ok {s : State} (h : s.ok) (f : VbcV) : OutOk (execVbcast f s) := by
  unfold execVbcast
  grind [issue_doOk, vfinish_ok, outOk_next]

theorem execVidx_ok {s : State} (h : s.ok) (f : VidxV) : OutOk (execVidx f s) := by
  unfold execVidx
  grind [issue_doOk, vfinish_ok, outOk_next]

theorem execVcmp_ok {s : State} (h : s.ok) (f : VcmpV) : OutOk (execVcmp f s) := by
  unfold execVcmp
  grind [State.accountReplay_ok, issue_doOk, State.put_ok, doOk_ok, outOk_next]

theorem execVcvt_ok {s : State} (h : s.ok) (f : VcvtV) : OutOk (execVcvt f s) := by
  unfold execVcvt
  grind [State.accountReplay_ok, issue_doOk, State.put_ok, State.setSat_ok, doOk_ok, outOk_next]

theorem execVext_ok {s : State} (h : s.ok) (f : VextV) : OutOk (execVext f s) := by
  unfold execVext
  grind [issue_doOk, retire_ok, outOk_next]

theorem execVfma_ok {s : State} (h : s.ok) (f : VecF) : OutOk (execVfma f s) := by
  unfold execVfma
  grind [issue_doOk, vfinish_ok, outOk_next]

theorem execVperm_ok {s : State} (h : s.ok) (f : VecR) : OutOk (execVperm f s) := by
  unfold execVperm
  grind [issue_doOk, vfinish_ok, outOk_next]

theorem execVsel_ok {s : State} (h : s.ok) (f : VecR) : OutOk (execVsel f s) := by
  unfold execVsel
  grind [issue_doOk, retire_ok, outOk_next]

theorem execVred_ok {s : State} (h : s.ok) (f : VredV) : OutOk (execVred f s) := by
  unfold execVred
  grind [State.accountReplay_ok, issue_doOk, State.put_ok, doOk_ok, outOk_next]

theorem execVld_ok {s : State} (h : s.ok) (f : VmemV) : OutOk (execVld f s) := by
  unfold execVld
  grind [issue_doOk, vfinish_ok, watched_ok, DoOk.bind, outOk_next]

theorem execVst_ok {s : State} (h : s.ok) (f : VmemV) : OutOk (execVst f s) := by
  unfold execVst
  grind [issue_doOk, retire_ok, State.storing_ok, watched_ok, State.write_ok, State.foldl_ok, DoOk.bind, outOk_next]

theorem execVgath_ok {s : State} (h : s.ok) (f : VgsV) : OutOk (execVgath f s) := by
  unfold execVgath
  refine .next <| issue_doOk h _ _ _ fun k => DoOk.bind _ fun _ => ?_
  grind [watched_ok, raiseAt, retire_ok, doOk_ok, DoOk.error]

theorem execVscat_ok {s : State} (h : s.ok) (f : VgsV) : OutOk (execVscat f s) := by
  unfold execVscat
  grind [issue_doOk, retire_ok, State.storing_ok, watched_ok, State.writeAll_ok, DoOk.bind, outOk_next]

/-! ### Barriers -/

theorem advanceArrival_ok {s : State} (h : s.ok) (k : Strand) (l : Scope) (n : Nat) : (advanceArrival s k l n).2.ok := by
  unfold advanceArrival
  grind [State.onVtile_ok]

theorem arrive_ok {s : State} (h : s.ok) (t : Team) (tile : Nat) (slot : Nat) (k : Strand) (l : Scope) (n : Nat) (what :
    StallKind) (rop : BOp) (cnt : Nat) (value : Word) (code : BitVec 16) (word : Word) : (arrive s t tile slot k l n what rop
    cnt value code word).ok := by
  unfold arrive
  grind [advanceArrival_ok, State.putAt_ok, State.record_ok, State.takeFault_ok, State.trace_ok]

theorem stallAt_ok {s : State} (h : s.ok) (t : Team) (k : Strand) (l : Scope) (x : Stalled) : (stallAt s t k l x).ok := h

theorem arriveOp_ok {s : State} (h : s.ok) (i : Instr) (l : Scope) (what : StallKind) (rop : BOp) (cnt : Nat) (a : SReg) (b :
    SReg) (k : Strand) : DoOk (arriveOp i l what rop cnt a b k s) := by
  unfold arriveOp
  grind [arrive_ok, stallAt_ok, withTeam_ok, doOk_ok, DoOk.bind]

theorem execBar_ok {s : State} (h : s.ok) (f : BarS) : OutOk (execBar f s) := by
  unfold execBar
  grind [arriveOp_ok, issue_doOk, outOk_next]

theorem execBara_ok {s : State} (h : s.ok) (f : BaraS) : OutOk (execBara f s) := by
  unfold execBara
  grind [arriveOp_ok, issue_doOk, outOk_next]

theorem knowResult_ok {s : State} (h : s.ok) (id : Nat) (lr : Nat) (uid : Nat) (l : Scope) (r : Result) : (knowResult s id lr
    uid l r).ok := by
  unfold knowResult
  grind [State.onRace_ok]

theorem execBarw_ok {s : State} (h : s.ok) (f : BarwS) : OutOk (execBarw f s) := by
  unfold execBarw
  refine .next <| issue_doOk h _ _ _ fun k => withTeam_ok h k fun t => DoOk.bind _ fun _ => ?_
  grind [State.put_ok, doOk_ok, DoOk.error, DoOk.bind, retire_ok, State.trace_ok, knowResult_ok, State.statusFor_ok]

theorem reduceAll_ok {s : State} (h : s.ok) (id : Nat) (cs : List Contrib) (root : Contrib → Option Nat) :
    (reduceAll id cs root s).ok := by
  unfold reduceAll
  grind [State.freeKeys_ok, State.update_ok, State.foldl_ok]

theorem commitAmos_ok {s : State} (h : s.ok) (cells : List (Nat × Byte)) : (commitAmos s cells).ok := by
  unfold commitAmos
  grind [State.update_ok, State.foldl_ok, State.ok_iff]

theorem settleKeys_ok {s : State} (h : s.ok) (keys : List Nat) : (settleKeys s keys).ok := h

theorem Writes.foldl_ok {α : Type} {f : Writes → α → Writes} (hf : ∀ w a, w.s.ok → (f w a).s.ok) (l : List α) {w : Writes}
    (h : w.s.ok) : (l.foldl f w).s.ok :=
  List.foldlRecOn (motive := fun w : Writes => w.s.ok) l f h fun w hw a _ => hf w a hw

theorem Writes.plain_ok {w : Writes} (h : w.s.ok) (key : Nat) (mask v : Byte) (psn : Bool) : (w.plain key mask v psn).s.ok :=
  State.update_ok h _ _

theorem Writes.combine_ok {w : Writes} (h : w.s.ok) (keys : List Nat) (op : ROp) (f : Fmt) (v : Nat) (psn : Bool) :
    (w.combine keys op f v psn).s.ok :=
  State.foldl_ok (fun _ _ hs => State.update_ok hs _ _) _ h

theorem Writes.finish_ok {w : Writes} (h : w.s.ok) : w.finish.ok := by
  unfold Writes.finish
  grind [settleKeys_ok, State.clearPoison_ok, State.markPoison_ok]

theorem fetchSources_ok {s : State} (h : s.ok) (t : Team) (cs : List (Nat × CopyOp)) : (fetchSources s t cs).2.ok := by
  unfold fetchSources
  grind [askChunk_ok, failCopyStep_ok, State.foldl_ok, State.ok_iff]

theorem sendCopy_ok {s : State} (h : s.ok) (t : Team) (k : Nat) (x : Nat × CopyOp) : (sendCopy t k s x).ok := by
  unfold sendCopy
  grind [State.ask_ok, copySource_ok, failCopyStep_ok, notePoison_ok, State.foldl_ok, State.ok_iff]

theorem sendRed_ok {s : State} (h : s.ok) (t : Team) (x : Nat × RedOp) : (sendRed t s x).ok := by
  unfold sendRed
  grind [State.ask_ok, redAnswered_ok, State.ok_iff]

theorem writeElems_ok (key : Nat → Nat) (c : CopyOp) (xs : List (Nat × Bool)) {w : Writes} (h : w.s.ok) :
    (writeElems key c xs w).s.ok := by
  refine Writes.foldl_ok (fun w x h => ?_) _ h
  split
  · exact Writes.foldl_ok (fun w c h => Writes.plain_ok h _ _ _ _) _ h
  · exact Writes.combine_ok h _ _ _ _ _

theorem performCopy_ok (t : Team) (k : Nat) (l : Scope) (u : Nat) {w : Writes} (h : w.s.ok) (x : Nat × CopyOp × List (Nat × Bool))
    : (performCopy t k l u w x).s.ok := by
  unfold performCopy
  grind [writeElems_ok, countCopy_ok, State.freeKeys_ok, finishCopy_ok, notePoison_ok, undefineLevel_ok, failCopy_ok,
    markExFail_ok, State.ok_iff]

theorem redStands_ok (t : Team) (l : Scope) (u k : Nat) {p : List (Nat × RedOp) × State} (h : p.2.ok) (x : Nat × RedOp) :
    (redStands t l u k p x).2.ok := by
  unfold redStands
  grind [markExFail_ok, failRed_ok]

theorem sendReds_ok {s : State} (h : s.ok) (t : Team) (k : Nat) (rs : List (Nat × RedOp)) : (sendReds t k s rs).ok := by
  unfold sendReds
  grind [redStands_ok, sendRed_ok, State.foldl_ok, State.foldl_snd_ok]

theorem tellSent_ok {s : State} (h : s.ok) (id : Nat) (k : Nat) (ps : List Nat) : (tellSent s id k ps).ok := by
  unfold tellSent
  grind [State.tellPeers_ok]

theorem peerReds_ok {s : State} (h : s.ok) (t : Team) (work : List PeerWork) : (peerReds t work s).1.ok := by
  unfold peerReds
  grind [State.reply_ok, reduceAll_ok, State.foldl_ok]

theorem keepOld_ok {s : State} (h : s.ok) (l : Scope) (id k : Nat) (before : State) (keys : List Nat) : (keepOld l id k before
    keys s).ok := by
  unfold keepOld
  grind [State.ok_iff]

theorem answerReads_ok {s : State} (h : s.ok) (t : Team) : (answerReads t s).ok := by
  unfold answerReads
  grind [State.reply_ok, State.foldl_ok, State.ok_iff]

theorem performWork_ok (t : Team) {w : Writes} (h : w.s.ok) (x : PeerWork) : (performWork t w x).s.ok := by
  unfold performWork
  grind [State.reply_ok, Writes.foldl_ok, Writes.plain_ok, Writes.combine_ok]

theorem exchange_ok {s : State} (h : s.ok) (t : Team) (l : Scope) (u k : Nat) : (exchange s t l u k).ok := by
  unfold exchange
  extract_lets before here
  split
  next cs s₁ e₁ =>
  have h₁ : s₁.ok := by
    have := State.foldl_snd_ok (f := fun (p : List (Nat × CopyOp × List (Nat × Bool)) × State) (c : Nat × CopyOp) =>
      let (xs, s) := copySource p.2 t c.2 0 (shCount c.2.src)
      (p.1 ++ [(c.1, c.2, xs)], s)) (fun p c hp => copySource_ok hp _ _ _ _) ((exCopies s t l u k).filter here) (p := ([], s)) h
    rwa [e₁] at this
  extract_lets work rs₀ amos s₂
  have h₂ : s₂.ok := commitAmos_ok h₁ _
  clear_value s₂ work amos rs₀
  split
  next rs s₃ e₃ =>
  have h₃ : s₃.ok := by
    have := State.foldl_snd_ok (fun p x hp => redStands_ok t l u k hp x) rs₀ (p := ([], s₂)) h₂
    rwa [e₃] at this
  extract_lets contrs s₄ s₅ s₆ redKeys
  have h₄ : s₄.ok := reduceAll_ok h₃ _ _ _
  have h₅ : s₅.ok := State.foldl_ok (fun s c hs => State.orFstat_ok hs _ _ _) _ h₄
  have h₆ : s₆.ok := by
    refine State.foldl_ok (fun z r hz => ?_) _ h₅
    exact countAsync_ok (s := { z with reds := eraseAt r.1 z.reds }) hz _ _ _
  clear_value s₄ s₅ s₆ contrs redKeys
  split
  next s₇ peerKeys e₇ =>
  have h₇ : s₇.ok := by simpa [e₇] using peerReds_ok h₆ t work
  extract_lets w w' keys s₈ s₉ s₁₀ s₁₁ b q p s₁₂
  have hw : w.s.ok := Writes.foldl_ok (fun w x hw => performCopy_ok t k l u hw x) _ h₇
  have hw' : w'.s.ok := Writes.foldl_ok (fun w x hw => performWork_ok t hw x) _ hw
  clear_value w w' keys
  have h₈ : s₈.ok := settleKeys_ok (Writes.finish_ok hw') _
  have h₉ : s₉.ok := by unfold s₉; split <;> exact h₈
  have h₁₁ : s₁₁.ok := State.touchKeys_ok (State.spoilDone_ok (keepOld_ok h₉ _ _ _ _ _) _ _) _
  have h₁₂ : s₁₂.ok := State.putUnit_ok h₁₁ _ _ _ _
  split
  · exact answerReads_ok h₁₂ _
  · exact h₁₂

theorem execBarrierExchange_ok {s : State} (h : s.ok) (id : Nat) (l : Scope) (u : Nat) (peers : List PodPart) :
    OutOk (execBarrierExchange id l u peers s) := by
  unfold execBarrierExchange
  split
  · exact .next h
  · split
    · exact .next h
    · extract_lets z b k p
      have hz : z.ok := by unfold z; split <;> exact h
      clear_value z b k p
      split
      · exact .next hz
      · grind [fetchSources_ok, sendCopy_ok, sendReds_ok, tellSent_ok, State.putUnit_ok, State.foldl_ok, exchange_ok, outOk_next, OutOk.fault, OutOk.refused]

theorem imbalance_ok {s : State} (h : s.ok) (t : Team) (id : Nat) (l : Scope) (u : Nat) (k : Nat) (a : Tally) (xbytes : Nat) :
    (imbalance s t id l u k a xbytes).ok := by
  unfold imbalance
  grind [State.commit_ok, State.freeWord_ok, State.onTeam_ok, State.onVtile_ok, State.foldl_ok]

theorem lowerTahead_ok {s : State} (h : s.ok) (t : Team) (lr : Nat) : (lowerTahead s t lr).ok := by
  unfold lowerTahead
  grind [State.commit_ok, State.onVtile_ok, State.putAt_ok, State.foldl_ok]

theorem deliverTo_ok {s : State} (h : s.ok) (t : Team) (lr : Nat) (l : Scope) (k : Nat) (r : Result) :
    (deliverTo s t lr l k r).ok := by
  unfold deliverTo
  grind [State.deliverBarrier_ok, knowResult_ok, State.traceVt_ok, State.foldl_ok]

theorem setSavedTahead_ok {s : State} (h : s.ok) (t : Team) (lr : Nat) (n : Nat) (ta : Nat) : (setSavedTahead s t lr n ta).ok :=
    by
  unfold setSavedTahead
  grind [State.commit_ok, State.putVtile_ok]

theorem recordForced_ok {s : State} (h : s.ok) (t : Team) (l : Scope) (x : Stalled) : (recordForced s t l x).ok := by
  unfold recordForced
  grind [State.forceStrand_ok, State.forceTileAt_ok, State.forceVtile_ok, State.putAt_ok, setSavedTahead_ok]

theorem recordLate_ok {s : State} (h : s.ok) (t : Team) (l : Scope) (u : Nat) (x : Stalled) (ptile : Nat) (slot : Nat) (k :
    Strand) : (recordLate s t l u x ptile slot k).ok := by
  unfold recordLate
  grind [State.afterIssue_ok, arrive_ok, State.meetMatch_ok, State.putAt_ok, State.putUnit_ok, State.takeFault_ok]

theorem recordStalled_ok {s : State} (h : s.ok) (t : Team) (l : Scope) (u : Nat) : (recordStalled s t l u).ok := by
  unfold recordStalled
  grind [State.putUnit_ok, recordForced_ok, recordLate_ok, State.foldl_ok]

theorem forceLost_ok {s : State} (h : s.ok) (t : Team) (l : Scope) (u : Nat) : (forceLost s t l u).ok := by
  unfold forceLost
  grind [State.forceVtile_ok, State.foldl_ok]

theorem tellDone_ok {s : State} (h : s.ok) (t : Team) (k : Nat) : (tellDone s t k).ok := by
  unfold tellDone
  grind [State.putUnit_ok, State.tellPeers_ok]

theorem refreshPhases_ok {s : State} (h : s.ok) (t : Team) (lr : Nat) : (refreshPhases s t lr).ok := by
  unfold refreshPhases
  grind [State.commit_ok]

theorem execBarrierCompletion_ok {s : State} (h : s.ok) (id : Nat) (l : Scope) (u : Nat) : OutOk (execBarrierCompletion id l u
    s) := by
  unfold execBarrierCompletion
  grind [deliverTo_ok, forceLost_ok, imbalance_ok, lowerTahead_ok, State.onVtile_ok, State.putUnit_ok, recordStalled_ok,
    refreshPhases_ok, tellDone_ok, State.foldl_ok, outOk_next]

/-! ### Continuations -/

theorem cellWrite_ok {s : State} (h : s.ok) (t : Team) (lr : Nat) (w : Word) (key : Nat) (bs : List Byte) : (cellWrite s t lr w
    key bs).ok := by
  unfold cellWrite
  grind [State.update_ok, State.writeLive_ok]

theorem cellTouch_ok {s : State} (h : s.ok) (k : Strand) (w : Word) (key : Nat) : (cellTouch s k w key).ok := by
  unfold cellTouch
  grind [State.cellRace_ok, State.noteUpdate_ok]

theorem decrementCell_ok {s : State} (h : s.ok) (k : Strand) (t : Team) (w : Word) (x : Nat) : DoOk (decrementCell k t w x s) := by
  unfold decrementCell
  iterate 3 refine DoOk.bind _ fun _ => ?_
  grind [cellWrite_ok, cellTouch_ok, State.release_ok, doOk_ok, DoOk.error]

theorem execJoin_ok {s : State} (h : s.ok) (f : JoinS) : OutOk (execJoin f s) :=
  .next <| issue_doOk h _ _ _ fun k => withTeam_ok h k fun _ => DoOk.bind_state (decrementCell_ok h _ _ _ _) fun _ ht => retire_ok ht _

theorem execSpawn_ok {s : State} (h : s.ok) (f : SpawnS) : OutOk (execSpawn f s) := by
  refine .next <| issue_doOk h _ _ _ fun k => withTeam_ok h k fun t => ?_
  iterate 2 refine DoOk.bind _ fun _ => ?_
  exact retire_ok (State.trace_ok (State.spawnRec_ok h _ _) _ _ _ _ _ _) _

theorem endStrand_ok {s : State} (h : s.ok) (k : Strand) (kind : Nat) : (endStrand s k kind).ok := by
  unfold endStrand
  grind [State.dropAt_ok, State.trace_ok]

theorem parkRec_ok {s : State} (h : s.ok) (id : Nat) (r : BitVec 512) (cell : Option Nat) : (parkRec s id r cell).2.ok := by
  unfold parkRec
  grind [State.commit_ok, State.putTeam_ok]

theorem execSusp_ok {s : State} (h : s.ok) (f : SuspS) : OutOk (execSusp f s) := by
  refine .next (issue_doOk h _ _ _ fun k => withTeam_ok h k fun t => DoOk.bind _ fun r => DoOk.bind _ fun _ => ?_)
  have hz := cellTouch_ok h k (k.rd f.a) (cellKey s t s.at_.1 (k.rd f.a))
  split
  · exact DoOk.bind _ fun _ => .ok (endStrand_ok (cellWrite_ok (State.spawnRec_ok hz _ _) _ _ _ _ _) _ _)
  · exact DoOk.bind _ fun _ => .ok (endStrand_ok (cellWrite_ok (parkRec_ok hz _ _ _) _ _ _ _ _) _ _)

theorem execExit_ok {s : State} (h : s.ok) : OutOk (execExit s) := by
  refine .next (issue_doOk h _ _ _ fun k => withTeam_ok h k fun t => ?_)
  split
  · exact .ok (State.endShadow_ok (State.trace_ok h _ _ _ _ _ _) _ _)
  · split
    · exact .ok (endStrand_ok h _ _)
    · exact DoOk.bind_state (decrementCell_ok h _ _ _ _) fun u hu => .ok (endStrand_ok hu _ _)

theorem execCancel_ok {s : State} (h : s.ok) (f : DaS) : OutOk (execCancel f s) := by
  unfold execCancel
  grind [issue_doOk, State.putTeam_ok, retire_ok, withTeam_ok, DoOk.bind, outOk_next]

theorem execReleasedRecordEnqueue_ok {s : State} (h : s.ok) (id : Nat) (q : QTarget) : OutOk (execReleasedRecordEnqueue id q s)
    := by
  unfold execReleasedRecordEnqueue
  grind [State.commit_ok, State.putTeam_ok, outOk_next]

theorem unmatched_ok {s : State} (h : s.ok) (tile : Nat) (slot : Nat) : (unmatched s tile slot).ok := by
  unfold unmatched
  grind [State.putTile_ok]

theorem startRecord_ok {s : State} (h : s.ok) (t : Team) (id : Nat) (lr : Nat) (tile : Nat) (slot : Nat) (e : QEntry) :
    (startRecord s t id lr tile slot e).ok := by
  unfold startRecord
  grind [State.commit_ok, State.number_ok, State.putAt_ok, State.putTeam_ok, State.putVtile_ok, unmatched_ok]

theorem execContinuationDispatch_ok {s : State} (h : s.ok) (tile : Nat) (slot : Nat) : OutOk (execContinuationDispatch tile slot
    s) := by
  unfold execContinuationDispatch
  grind [recheckWaits_ok, startRecord_ok, outOk_next]

theorem execPushMigration_ok {s : State} (h : s.ok) (tile : Nat) : OutOk (execPushMigration tile s) := by
  unfold execPushMigration
  grind [State.commit_ok, State.putTeam_ok, outOk_next]

theorem execLoadgRefresh_ok {s : State} (h : s.ok) (tile : Nat) : OutOk (execLoadgRefresh tile s) := by
  unfold execLoadgRefresh
  grind [State.onTile_ok, outOk_next]

theorem execParkOnWait_ok {s : State} (h : s.ok) (tile : Nat) : OutOk (execParkOnWait tile s) := by
  unfold execParkOnWait
  grind [State.dropAt_ok, State.enqueue_ok, recheckWaits_ok, State.saveInto_ok, outOk_next]

end Sys2Proof.Machine
end

section
/-! PROOF. Memory stays canonical, fourth part: launching, vacating and restoring, graphs and runs. -/

namespace Sys2Proof.Machine

/-! ### Launching and completing teams -/

theorem countLost_ok {s : State} (h : s.ok) (q : Nat) : (countLost s q).ok := by
  unfold countLost
  grind [State.hbmPut_ok]

theorem restSlot_ok {s : State} (h : s.ok) (slot : Nat) : (restSlot s slot).ok := by
  unfold restSlot
  grind [State.ok_iff]

theorem ring_ok {s : State} (h : s.ok) (q : Nat) : (ring s q).ok := by
  unfold ring
  grind [State.ok_iff]

theorem doorbell_ok {s : State} (h : s.ok) (asid : Option Nat) (q : Nat) : (doorbell s asid q).ok := by
  unfold doorbell
  grind [ring_ok]

theorem execQdoor_ok {s : State} (h : s.ok) (team : Nat) (v : Word) : OutOk (execQdoor team v s) := by
  unfold execQdoor
  grind [doorbell_ok, outOk_next]

theorem execHostDoorbellWrite_ok {s : State} (h : s.ok) (ofs : Nat) (v : Option (BitVec 32)) : OutOk (execHostDoorbellWrite ofs
    v s) := by
  unfold execHostDoorbellWrite
  grind [doorbell_ok, State.send_ok, outOk_next]

theorem execHostHbmAccess_ok {s : State} (h : s.ok) (addr : Nat) (n : Nat) (data : Option (List Byte)) : OutOk
    (execHostHbmAccess addr n data s) := by
  unfold execHostHbmAccess
  grind [State.commit_ok, State.miss_ok, State.send_ok, State.spoilDone_ok, State.touchKeys_ok, outOk_next]

theorem execQueueSlotMap_ok {s : State} (h : s.ok) : OutOk (execQueueSlotMap s) := by
  unfold execQueueSlotMap
  grind [outOk_next, State.ok_iff]

theorem execDescriptorLoad_ok {s : State} (h : s.ok) (slot : Nat) : OutOk (execDescriptorLoad slot s) := by
  unfold execDescriptorLoad
  grind [outOk_next, State.ok_iff]

theorem execQuantumExpiry_ok {s : State} (h : s.ok) (slot : Nat) : OutOk (execQuantumExpiry slot s) := by
  unfold execQuantumExpiry
  grind [outOk_next, State.ok_iff]

theorem putRecord_ok {s : State} (h : s.ok) (t : Team) (bs : List Byte) : (putRecord s t bs).ok := by
  unfold putRecord
  grind [State.commit_ok, countLost_ok, State.ok_iff]

theorem completionRecord_ok {s : State} (h : s.ok) (t : Team) (status : Nat) (start : Nat) (faults : Nat) (discard : Nat)
    (defdrop : Nat) : (completionRecord s t status start faults discard defdrop).ok := by
  unfold completionRecord
  grind [putRecord_ok]

theorem sendRecords_ok {s : State} (h : s.ok) : (sendRecords s).ok := by
  unfold sendRecords
  grind [putRecord_ok, State.foldl_ok, State.ok_iff]

theorem hbmBytes_ok {s : State} (h : s.ok) (a : Nat) (bs : List Byte) : (hbmBytes s a bs).ok := by
  unfold hbmBytes
  grind [State.commit_ok]

theorem finalSnapshot_ok {s : State} (h : s.ok) (t : Team) : (finalSnapshot s t).ok := by
  unfold finalSnapshot
  grind [hbmBytes_ok, State.ok_iff]

theorem clear_ok {s : State} (h : s.ok) (a n : Nat) : ({ s with mem := s.mem.clear a n } : State).ok := Memory.wf_clear h a n

theorem placeVtile_ok {s : State} (h : s.ok) (id : Nat) (x : Nat × Nat) : (placeVtile id s x).ok := by
  unfold placeVtile
  exact State.putDivEntry_ok (State.onTile_ok (State.putVtile_ok (State.clearPoison_ok (clear_ok h _ _) _) _ _ _) _ _) _ _

theorem startTeam_ok {s : State} (h : s.ok) (l : Launch) (e : HEntry) (tiles : List Nat) (start : Nat) (uids : Table Word) :
    (startTeam s l e tiles start uids).ok := by
  unfold startTeam
  grind [State.account_ok, placeVtile_ok, State.putTeam_ok, State.spawnRec_ok, State.foldl_ok, State.ok_iff]

theorem refuse_ok {s : State} (h : s.ok) (l : Launch) (status : Nat) (abort : Bool) : (refuse s l status abort).ok := by
  unfold refuse
  grind [completionRecord_ok, State.tellPeers_ok, State.ok_iff]

theorem sendReady_ok {s : State} (h : s.ok) (l : Launch) : (sendReady s l).ok := by
  unfold sendReady
  grind [State.tellPeers_ok]

theorem setSlot_ok {s : State} (h : s.ok) (slot : Nat) (st : SlotState) : (setSlot s slot st).ok := by
  unfold setSlot
  grind [State.ok_iff]

theorem grant_ok {s : State} (h : s.ok) (l : Launch) (tiles : List Nat) : (grant s l tiles).ok := by
  unfold grant
  grind [State.onTile_ok, refuse_ok, restSlot_ok, sendReady_ok, setSlot_ok, startTeam_ok, State.foldl_ok, State.ok_iff]

theorem allocate_ok {s : State} (h : s.ok) (l : Launch) : (allocate s l).ok := by
  unfold allocate
  grind [grant_ok, refuse_ok, restSlot_ok, setSlot_ok, State.ok_iff]

theorem execLaunchPacket_ok {s : State} (h : s.ok) : OutOk (execLaunchPacket s) := by
  unfold execLaunchPacket
  grind [allocate_ok, State.commit_ok, refuse_ok, restSlot_ok, outOk_next, State.ok_iff]

theorem execTileGrant_ok {s : State} (h : s.ok) : OutOk (execTileGrant s) := by
  unfold execTileGrant
  grind [grant_ok, outOk_next]

theorem quitGang_ok {s : State} (h : s.ok) (l : Launch) (status : Nat) (abort : Bool) : (quitGang s l status abort).ok := by
  unfold quitGang
  grind [State.onTile_ok, refuse_ok, restSlot_ok, State.foldl_ok, State.ok_iff]

theorem execGangDeadline_ok {s : State} (h : s.ok) (slot : Nat) : OutOk (execGangDeadline slot s) := by
  unfold execGangDeadline
  grind [quitGang_ok, outOk_next]

theorem execGangReady_ok {s : State} (h : s.ok) (gang : Nat) (pkg : Nat) (uid : Word) : OutOk (execGangReady gang pkg uid s) :=
    by
  unfold execGangReady
  grind [outOk_next, State.ok_iff]

theorem execGangAbort_ok {s : State} (h : s.ok) (gang : Nat) : OutOk (execGangAbort gang s) := by
  unfold execGangAbort
  grind [quitGang_ok, outOk_next, State.ok_iff]

theorem execGangTick_ok {s : State} (h : s.ok) (gang : Nat) : OutOk (execGangTick gang s) := by
  unfold execGangTick
  split
  · exact .next h
  · next l _ =>
    split
    · exact .next h
    · extract_lets t g all
      clear_value t g all
      split
      · split
        · have hz : ({ s with launches := s.launches.filter (· != l), gangs := eraseAt gang s.gangs } : State).ok := h
          exact .next (restSlot_ok (startTeam_ok hz _ _ _ _ _) _)
        · exact .next (quitGang_ok h _ _ _)
      · exact .next (quitGang_ok h _ _ _)

theorem releaseTeam_ok {s : State} (h : s.ok) (id : Nat) (t : Team) : (releaseTeam s id t).ok := by
  unfold releaseTeam
  grind [State.forgetUnits_ok, State.onVtile_ok, State.putDivEntry_ok, State.settleOrder_ok, State.foldl_ok, State.ok_iff]

theorem execTeamCompletion_ok {s : State} (h : s.ok) (id : Nat) : OutOk (execTeamCompletion id s) := by
  unfold execTeamCompletion
  grind [completionRecord_ok, finalSnapshot_ok, releaseTeam_ok, outOk_next]

/-! ### Vacating and restoring vtiles -/

theorem dropVtile_ok {s : State} (h : s.ok) (t : Team) (id : Nat) (lr : Nat) (v : Vtile) : (dropVtile s t id lr v).ok := by
  unfold dropVtile
  grind [State.dropAt_ok, State.onVtile_ok, State.putDivEntry_ok, State.putTeam_ok, State.putVtile_ok, State.foldl_ok,
    State.ok_iff]

theorem loseVtile_ok {s : State} (h : s.ok) (id : Nat) (lr : Nat) (cause : Nat) : (loseVtile s id lr cause).ok := by
  unfold loseVtile
  grind [dropVtile_ok, forceLost_ok, State.settleOrder_ok, State.writeFault_ok]

theorem dropRestores_ok {s : State} (h : s.ok) (out : Nat → Bool) : (dropRestores s out).ok := by
  unfold dropRestores
  grind [State.settleOrder_ok, State.ok_iff]

theorem vacateSome_ok {s : State} (h : s.ok) (t : Team) (id : Nat) (v : Word) : (vacateSome s t id v).ok := by
  unfold vacateSome
  grind [State.number_ok, State.onVtile_ok, State.foldl_ok]

theorem restoreSome_ok {s : State} (h : s.ok) (t : Team) (id : Nat) (v : Word) : (restoreSome s t id v).ok := by
  unfold restoreSome
  refine List.foldlRecOn (motive := fun p : State × Nat => p.1.ok) _ _ h fun p hp lr _ => ?_
  grind [State.number_ok, State.onTile_ok, State.onVtile_ok]

theorem vacateOrder_ok {s : State} (h : s.ok) (v : Word) : (vacateOrder s v).ok := by
  unfold vacateOrder
  grind [State.putTeam_ok, restoreSome_ok, State.settleOrder_ok, vacateSome_ok, State.ok_iff]

theorem execVacate_ok {s : State} (h : s.ok) (v : Word) : OutOk (execVacate v s) := by
  unfold execVacate
  grind [vacateOrder_ok, outOk_next]

theorem execRestore_ok {s : State} (h : s.ok) (v : Word) : OutOk (execRestore v s) := by
  unfold execRestore
  grind [vacateOrder_ok, outOk_next]

theorem execEnableRotation_ok {s : State} (h : s.ok) (v : Word) : OutOk (execEnableRotation v s) := by
  unfold execEnableRotation
  grind [vacateOrder_ok, outOk_next]

theorem execDisableRotation_ok {s : State} (h : s.ok) (v : Word) : OutOk (execDisableRotation v s) := by
  unfold execDisableRotation
  grind [vacateOrder_ok, outOk_next]

theorem cutStrand_ok {s : State} (h : s.ok) (t : Team) (ptile : Nat) (i : Nat) : (cutStrand t ptile s i).ok := by
  unfold cutStrand
  grind [State.dropAt_ok, State.saveInto_ok, State.ok_iff]

theorem execVacateCut_ok {s : State} (h : s.ok) (id : Nat) (lr : Nat) : OutOk (execVacateCut id lr s) := by
  unfold execVacateCut
  grind [cutStrand_ok, State.dropAt_ok, State.onTile_ok, State.onVtile_ok, State.putDivEntry_ok, State.foldl_ok, outOk_next]

theorem copyRange_ok {s : State} (h : s.ok) (a b n : Nat) : ({ s with mem := s.mem.copyRange a b n } : State).ok :=
  Memory.wf_copyRange h a b n

theorem copyStore_ok {s : State} (h : s.ok) (src dst : Nat) : (copyStore s src dst).ok :=
  State.markPoison_ok (State.clearPoison_ok (State.settleLive_ok (copyRange_ok h _ _ _) _ _) _) _

theorem writeImage_ok {s : State} (h : s.ok) (t : Team) (lr : Nat) (v : Vtile) : (writeImage s t lr v).ok := by
  unfold writeImage
  grind [State.commit_ok, copyStore_ok]

theorem writeControl_ok {s : State} (h : s.ok) (t : Team) (id : Nat) (lr : Nat) : (writeControl s t id lr).ok := by
  unfold writeControl
  grind [State.commit_ok, State.drew_ok]

theorem replayLand_ok {s : State} (h : s.ok) (key : Nat → Nat) (l : Landing) : (replayLand key s l).ok := by
  unfold replayLand
  grind [applyLanding_ok, countLanding_ok, landTouch_ok, landed_ok, sendBack_ok]

theorem replayCounter_ok {s : State} (h : s.ok) (key : Nat → Nat) (i : Increment) : (replayCounter key s i).ok := by
  unfold replayCounter
  grind [addCounter_ok, saturated_ok, State.touchStore_ok]

theorem replayImage_ok {s : State} (h : s.ok) (t : Team) (lr : Nat) (l : LogRec) : (replayImage t lr s l).ok := by
  unfold replayImage
  grind [State.imageBarrier_ok, State.imageFill_ok, State.imageSummary_ok, replayCounter_ok, replayLand_ok]

theorem saved_ok {s : State} (h : s.ok) (t : Team) (id : Nat) (lr : Nat) (v : Vtile) : (saved s t id lr v).ok := by
  unfold saved
  grind [State.onTile_ok, State.onVtile_ok, State.orderStep_ok, State.putDivEntry_ok, recheckWaits_ok, replayImage_ok,
    writeControl_ok, writeImage_ok, State.foldl_ok]

theorem execSaveComplete_ok {s : State} (h : s.ok) (id : Nat) (lr : Nat) (how : MoveEnd) : OutOk (execSaveComplete id lr how s)
    := by
  unfold execSaveComplete
  grind [State.crossAll_ok, loseVtile_ok, saved_ok, outOk_next]

theorem execRestoreStart_ok {s : State} (h : s.ok) (id : Nat) (lr : Nat) : OutOk (execRestoreStart id lr s) := by
  unfold execRestoreStart
  grind [State.onTile_ok, State.onVtile_ok, State.putDivEntry_ok, outOk_next]

theorem loadPhase_ok {s : State} (h : s.ok) (t : Team) (lr : Nat) (j : Nat) : (loadPhase t lr s j).ok := by
  unfold loadPhase
  grind [State.putUnit_ok]

theorem returnStrands_ok {s : State} (h : s.ok) (t : Team) (id : Nat) (lr : Nat) (v : Vtile) : (returnStrands s t id lr v).ok :=
    by
  unfold returnStrands
  grind [State.onVtile_ok, State.putAt_ok, unmatched_ok, State.foldl_ok]

theorem onReturned_ok {s : State} (h : s.ok) (ptile id lr n : Nat) (f : Strand → Strand) {g : State → State} (hg : (g s).ok) :
    (onReturned s ptile id lr n f g).ok := by
  unfold onReturned
  grind [State.putAt_ok]

theorem replayTile_ok {s : State} (h : s.ok) (t : Team) (id : Nat) (lr : Nat) (ptile : Nat) (l : LogRec) : (replayTile t id lr
    ptile s l).ok := by
  unfold replayTile
  grind [State.imageBarrier_ok, State.imageFill_ok, State.imageSummary_ok, onReturned_ok, replayCounter_ok, replayLand_ok]

theorem restored_ok {s : State} (h : s.ok) (t : Team) (id : Nat) (lr : Nat) (v : Vtile) : (restored s t id lr v).ok := by
  unfold restored
  grind [copyStore_ok, loadPhase_ok, State.onVtile_ok, State.orderStep_ok, State.putDivEntry_ok, State.putVtile_ok,
    recheckWaits_ok, State.refreshHeld_ok, replayTile_ok, returnStrands_ok, State.foldl_ok]

theorem execRestoreComplete_ok {s : State} (h : s.ok) (id : Nat) (lr : Nat) (how : MoveEnd) : OutOk (execRestoreComplete id lr
    how s) := by
  unfold execRestoreComplete
  grind [State.crossAll_ok, loseVtile_ok, restored_ok, outOk_next]

theorem execRotation_ok {s : State} (h : s.ok) (id : Nat) (l : Scope) (u : Nat) : OutOk (execRotation id l u s) := by
  unfold execRotation
  grind [State.number_ok, State.onTile_ok, State.onVtile_ok, outOk_next]

/-! ### Graphs and runs -/

theorem execCollLd_ok {s : State} (h : s.ok) (f : CollC) : OutOk (execCollLd f s) := by
  refine .next <| issue_doOk h _ _ _ fun k => withTeam_ok h k fun t => ?_
  iterate 2 refine DoOk.bind _ fun _ => ?_
  grind [retire_ok, State.ok_iff]

theorem failLoad_ok {s : State} (h : s.ok) (g : Nat) (x : Graph) (cause : Nat) (node : Nat) (bits : Word := 0) : (failLoad s g x
    cause node bits).ok := by
  unfold failLoad
  grind [State.engineFault_ok, State.ok_iff]

theorem post_ok {s : State} (h : s.ok) (w : Issuer) (desc : Word) (amount : Word) (diverted : Bool := false) : (post s w desc
    amount diverted).2.ok := by
  unfold post
  grind [State.number_ok, State.ok_iff]

theorem loadGraph_ok {s : State} (h : s.ok) (t : Team) (g : Nat) (x : Graph) (im : List Byte) : (loadGraph s t g x im).ok := by
  unfold loadGraph
  grind [failLoad_ok, post_ok, State.ok_iff]

theorem execGraphLoadComplete_ok {s : State} (h : s.ok) (g : Nat) : OutOk (execGraphLoadComplete g s) := by
  unfold execGraphLoadComplete
  grind [State.drew_ok, failLoad_ok, loadGraph_ok, outOk_next]

theorem pruneRuns_ok {s : State} (h : s.ok) (g : Nat) : (pruneRuns s g).ok := h

theorem execCollRun_ok {s : State} (h : s.ok) (f : CollC) : OutOk (execCollRun f s) := by
  refine .next <| issue_doOk h _ _ _ fun k => withTeam_ok h k fun t => ?_
  iterate 7 refine DoOk.bind _ fun _ => ?_
  split
  · exact .error _
  · next x hx =>
    have hn := State.number_ok h
    grind [retire_ok, pruneRuns_ok, DoOk.bind, State.ok_iff]

theorem execCollStat_ok {s : State} (h : s.ok) (f : DaS) : OutOk (execCollStat f s) := by
  unfold execCollStat
  grind [issue_doOk, State.number_ok, retire_ok, DoOk.bind, outOk_next, State.ok_iff]

theorem execCollStatFill_ok {s : State} (h : s.ok) (id : Nat) : OutOk (execCollStatFill id s) := by
  unfold execCollStatFill
  grind [State.deliverFill_ok, outOk_next, State.ok_iff]

theorem onRun_ok {s : State} (h : s.ok) (id : Nat) (f : Run → Run) : (onRun s id f).ok := by
  unfold onRun
  grind [State.ok_iff]

theorem onNode_ok {s : State} (h : s.ok) (id : Nat) (i : Nat) (f : NodeRun → NodeRun) : (onNode s id i f).ok := by
  unfold onNode
  grind [onRun_ok]

theorem sendChunk_ok {s : State} (h : s.ok) (t : Team) (id : Nat) (i : Nat) (n : GNode) (m : Nat × ChunkKind × List (Nat ×
    Bool)) : (sendChunk t id i n s m).ok := by
  unfold sendChunk
  grind [onNode_ok, State.send_ok]

theorem reportAll_ok {s : State} (h : s.ok) (t : Team) (r : Run) (im : List Byte) (n : GNode) (mism : Bool) : (reportAll s t r
    im n mism).ok := by
  unfold reportAll
  grind [State.send_ok, State.foldl_ok]

theorem readValues_ok {s : State} (h : s.ok) (t : Team) (r : Run) (b : Bind) (ofs : Nat) (size : Nat) (first : Nat) (count :
    Nat) : (readValues s t r b ofs size first count).2.ok := by
  unfold readValues
  grind [State.drew_ok]

theorem countNode_ok {s : State} (h : s.ok) (w : Issuer) (space : Nat) (n : Nat) : (countNode s w space n).ok := by
  unfold countNode
  grind [State.accountReplay_ok]

theorem landValues_ok {s : State} (h : s.ok) (r : Run) (id : Nat) (i : Nat) (b : Bind) (ofs : Nat) (size : Nat) (chunk : Nat)
    (xs : List (Nat × Bool)) : (landValues s r id i b ofs size chunk xs).ok := by
  unfold landValues
  grind [State.number_ok, State.foldl_ok, State.ok_iff]

theorem storeValues_ok {s : State} (h : s.ok) (t : Team) (r : Run) (b : Bind) (ofs : Nat) (size : Nat) (xs : List (Nat × Bool))
    : (storeValues s t r b ofs size xs).ok := by
  unfold storeValues
  grind [countNode_ok, State.markPoison_ok, State.settleLive_ok, State.spoilDone_ok, State.touchKeysWork_ok, State.update_ok,
    State.writeAll_ok, State.foldl_ok]

theorem undefineAt_ok {s : State} (h : s.ok) (t : Team) (r : Run) (im : List Byte) (n : GNode) (os : List Nat) : (undefineAt s t
    r im n os).ok := by
  unfold undefineAt
  grind [State.freeKeys_ok, State.settleLive_ok, State.foldl_ok]

theorem undefineDest_ok {s : State} (h : s.ok) (t : Team) (r : Run) (im : List Byte) (n : GNode) : (undefineDest s t r im n).ok
    := by
  unfold undefineDest
  grind [undefineAt_ok]

theorem spoilRun_ok {s : State} (h : s.ok) (t : Team) (r : Run) : (spoilRun s t r).ok := by
  unfold spoilRun
  grind [undefineAt_ok, State.foldl_ok]

theorem endRun_ok {s : State} (h : s.ok) (id : Nat) : (endRun s id).ok := by
  unfold endRun
  grind [State.engineFault_ok, onRun_ok, post_ok, spoilRun_ok]

theorem failNode_ok {s : State} (h : s.ok) (id : Nat) (i : Nat) (cause : Nat) (peer : Option Nat) (what : Option Lost := none) :
    (failNode s id i cause peer what).ok := by
  unfold failNode
  grind [endRun_ok, onNode_ok, onRun_ok, reportAll_ok, undefineDest_ok, State.ok_iff]

theorem progress_ok {s : State} (h : s.ok) (t : Team) (id : Nat) (i : Nat) : (progress s t id i).ok := by
  unfold progress
  grind [failNode_ok, onNode_ok, sendChunk_ok, State.foldl_ok]

theorem deliver_ok {s : State} (h : s.ok) (t : Team) (id : Nat) (i : Nat) (c : Chunk) : (deliver s t id i c).ok := by
  unfold deliver
  grind [failNode_ok, onNode_ok, progress_ok, reportAll_ok]

theorem reported_ok {s : State} (h : s.ok) (id : Nat) (i : Nat) (v : VirgaReport) (mism : Bool) : (reported s id i v mism).ok :=
    by
  unfold reported
  grind [failNode_ok]

theorem execRunStart_ok {s : State} (h : s.ok) (g : Nat) (run : Nat) : OutOk (execRunStart g run s) := by
  unfold execRunStart
  grind [onRun_ok, outOk_next]

theorem takeStaged_ok {s : State} (h : s.ok) (t : Team) (id : Nat) (i : Nat) : (takeStaged s t id i).ok := by
  unfold takeStaged
  grind [deliver_ok, reported_ok, State.foldl_ok, State.ok_iff]

theorem checkDown_ok {s : State} (h : s.ok) (t : Team) (id : Nat) (i : Nat) : (checkDown s t id i).ok := by
  unfold checkDown
  grind [failNode_ok]

theorem readChunk_ok {s : State} (h : s.ok) (t : Team) (id : Nat) (i : Nat) : (readChunk s t id i).ok := by
  unfold readChunk
  split
  · exact h
  · next r x _ =>
    dsimp only
    split
    · exact h
    · next d _ =>
      split
      · exact h
      · split
        · exact failNode_ok h _ _ _ _ _
        · split
          · exact h
          · exact onNode_ok (countNode_ok (notePoison_ok (readValues_ok h _ _ _ _ _ _ _) _ _) _ _ _) _ _ _

theorem postSignal_ok {s : State} (h : s.ok) (id : Nat) (i : Nat) (r : Run) (n : GNode) : (postSignal s id i r n).ok := by
  unfold postSignal
  grind [failNode_ok, onNode_ok, post_ok]

theorem nodeMoves_ok {s : State} (h : s.ok) (t : Team) (id : Nat) (i : Nat) (fresh : Bool) (r : Run) (n : GNode) : (nodeMoves s
    t id i fresh r n).ok := by
  unfold nodeMoves
  grind [checkDown_ok, postSignal_ok, progress_ok, readChunk_ok, takeStaged_ok]

theorem execVirgaNodeStart_ok {s : State} (h : s.ok) (g : Nat) (run : Nat) (i : Nat) : OutOk (execVirgaNodeStart g run i s) :=
    by
  unfold execVirgaNodeStart
  grind [failNode_ok, nodeMoves_ok, onNode_ok, outOk_next]

theorem nodeDone_ok {s : State} (h : s.ok) (id : Nat) (i : Nat) : (nodeDone s id i).ok := by
  unfold nodeDone
  grind [endRun_ok, onNode_ok, State.foldl_ok]

theorem writeOut_ok {s : State} (h : s.ok) (t : Team) (r : Run) (id : Nat) (i : Nat) (im : List Byte) (n : GNode) (chunks : Nat)
    (out : List (Nat × Bool)) (drops : Nat) : (writeOut s t r id i im n chunks out drops).ok := by
  unfold writeOut
  grind [landValues_ok, notePoison_ok, onNode_ok, onRun_ok, storeValues_ok, State.foldl_ok]

theorem completeNode_ok {s : State} (h : s.ok) (t : Team) (id : Nat) (i : Nat) (r : Run) (x : NodeRun) : (completeNode s t id i
    r x).ok := by
  unfold completeNode
  grind [failNode_ok, nodeDone_ok, onNode_ok, writeOut_ok]

theorem execVirgaNodeComplete_ok {s : State} (h : s.ok) (g : Nat) (run : Nat) (i : Nat) : OutOk (execVirgaNodeComplete g run i
    s) := by
  unfold execVirgaNodeComplete
  grind [completeNode_ok, progress_ok, outOk_next]

theorem execVirgaChunkReceive_ok {s : State} (h : s.ok) (x : ChunkIn) : OutOk (execVirgaChunkReceive x s) := by
  unfold execVirgaChunkReceive
  grind [deliver_ok, State.freeBuffers_ok, execVirgaChunkReceive.stage, outOk_next, State.ok_iff]

theorem takeReport_ok {s : State} (h : s.ok) (v : VirgaReport) (mism : Bool) : (takeReport s v mism).ok := by
  unfold takeReport
  grind [reported_ok, State.ok_iff]

theorem execVirgaMismatchReport_ok {s : State} (h : s.ok) (v : VirgaReport) : OutOk (execVirgaMismatchReport v s) := by
  unfold execVirgaMismatchReport
  grind [takeReport_ok, outOk_next]

theorem execVirgaPeerFailure_ok {s : State} (h : s.ok) (v : VirgaReport) : OutOk (execVirgaPeerFailure v s) := by
  unfold execVirgaPeerFailure
  grind [takeReport_ok, outOk_next]

theorem overNodes_ok {s : State} (h : s.ok) {f : State → Nat → Nat → State} (hf : ∀ s i j, s.ok → (f s i j).ok) :
    (overNodes s f).ok :=
  State.foldl_ok (fun _ r hs => State.foldl_ok (fun _ i hs => hf _ r.1 i hs) _ hs) _ h

theorem execPeerUnreachable_ok {s : State} (h : s.ok) (id : Nat) (pkg : Nat) : OutOk (execPeerUnreachable id pkg s) := by
  unfold execPeerUnreachable
  grind [checkDown_ok, overNodes_ok, State.putTeam_ok, outOk_next]

theorem moveChunks_ok {s : State} (h : s.ok) (qs : List Nat) : (moveChunks s qs).ok := by
  unfold moveChunks
  grind [onNode_ok, State.foldl_ok, State.ok_iff]

theorem failQuads_ok {s : State} (h : s.ok) (qs : List Nat) (lost : List (Nat × Nat)) (cause : Nat) :
    (failQuads s qs lost cause).ok := by
  unfold failQuads
  grind [failNode_ok, overNodes_ok]

end Sys2Proof.Machine
end

section
/-! PROOF. Memory stays canonical, fifth part: containment, quads and links, debugging, registers and management. -/

namespace Sys2Proof.Machine

/-! ### Containment and quiesce -/

theorem giveUp_ok {s : State} (h : s.ok) (out : Nat → Bool) : (giveUp s out).ok := by
  unfold giveUp
  grind [dropRestores_ok, quitGang_ok, State.foldl_ok]

theorem fenceTile_ok {s : State} (h : s.ok) (tile : Nat) : (fenceTile s tile).ok := by
  unfold fenceTile
  grind [giveUp_ok, loseVtile_ok, State.onTile_ok]

theorem execUncorrectableTileError_ok {s : State} (h : s.ok) (tile : Nat) : OutOk (execUncorrectableTileError tile s) := by
  unfold execUncorrectableTileError
  grind [fenceTile_ok, outOk_next]

theorem execTileResponseTimeout_ok {s : State} (h : s.ok) (tile : Nat) : OutOk (execTileResponseTimeout tile s) := by
  unfold execTileResponseTimeout
  grind [fenceTile_ok, outOk_next]

theorem execUncorrectableGroupError_ok {s : State} (h : s.ok) (grp : Nat) : OutOk (execUncorrectableGroupError grp s) := by
  unfold execUncorrectableGroupError
  grind [giveUp_ok, loseVtile_ok, State.onTile_ok, State.foldl_ok, outOk_next, State.ok_iff]

theorem execGroupReset_ok {s : State} (h : s.ok) (grp : Nat) : OutOk (execGroupReset grp s) := by
  unfold execGroupReset
  grind [giveUp_ok, loseVtile_ok, State.foldl_ok, outOk_next, State.ok_iff]

theorem execMemoryUncorrectableError_ok {s : State} (h : s.ok) (key : Nat) (e : MemErr) : OutOk (execMemoryUncorrectableError
    key e s) := by
  unfold execMemoryUncorrectableError
  grind [State.countErr_ok, State.markPoison_ok, State.uncover_ok, outOk_next]

theorem execHtinv_ok {s : State} (h : s.ok) (_asid : Nat) (_slot : Nat) : OutOk (execHtinv _asid _slot s) := .next h

theorem execHtinvAll_ok {s : State} (h : s.ok) (_asid : Nat) : OutOk (execHtinvAll _asid s) := .next h

theorem quiesceWrite_ok {s : State} (h : s.ok) (v : Word) : (quiesceWrite s v).ok := by
  unfold quiesceWrite
  grind [State.ok_iff]

theorem execQuiesceStart_ok {s : State} (h : s.ok) (v : Word) : OutOk (execQuiesceStart v s) := by
  unfold execQuiesceStart
  grind [quiesceWrite_ok, outOk_next]

theorem execQuiesceDrainComplete_ok {s : State} (h : s.ok) : OutOk (execQuiesceDrainComplete s) := by
  unfold execQuiesceDrainComplete
  grind [outOk_next, State.ok_iff]

theorem execQuiesceTimeout_ok {s : State} (h : s.ok) : OutOk (execQuiesceTimeout s) := by
  unfold execQuiesceTimeout
  grind [outOk_next, State.ok_iff]

theorem execQuiesceRelease_ok {s : State} (h : s.ok) : OutOk (execQuiesceRelease s) := by
  unfold execQuiesceRelease
  grind [outOk_next, State.ok_iff]

/-! ### Quads -/

theorem traceBranch_ok {s : State} (h : s.ok) (k : Strand) (target : Word) : (traceBranch s k target).ok := by
  unfold traceBranch
  grind [State.trace_ok]

theorem branch_ok {s : State} (h : s.ok) (i : Instr) (f : BrB) (c : Word → Word → Bool) : (branch i f c s).ok := by
  refine issue_doOk h _ _ _ fun k => ?_
  split
  · exact .ok (traceBranch_ok (State.put_ok h _) _ _)
  · exact retire_ok h _

theorem execJal_ok {s : State} (h : s.ok) (f : JalB) : OutOk (execJal f s) := by
  unfold execJal
  grind [issue_doOk, State.put_ok, traceBranch_ok, doOk_ok, outOk_next]

theorem execJalr_ok {s : State} (h : s.ok) (f : JalrI) : OutOk (execJalr f s) := by
  unfold execJalr
  grind [issue_doOk, State.put_ok, traceBranch_ok, doOk_ok, DoOk.bind, outOk_next]

theorem pred_ok {s : State} (h : s.ok) (i : Instr) (e : Bool) (d : PNum) (v : Strand → PReg) : (pred i e d v s).ok := by
  unfold pred
  grind [issue_doOk, retire_ok]

theorem execPand_ok {s : State} (h : s.ok) (f : PredR) : OutOk (execPand f s) := by
  unfold execPand
  grind [pred_ok, outOk_next]

theorem execPor_ok {s : State} (h : s.ok) (f : PredR) : OutOk (execPor f s) := by
  unfold execPor
  grind [pred_ok, outOk_next]

theorem execPxor_ok {s : State} (h : s.ok) (f : PredR) : OutOk (execPxor f s) := by
  unfold execPxor
  grind [pred_ok, outOk_next]

theorem execPnot_ok {s : State} (h : s.ok) (f : PredU) : OutOk (execPnot f s) := by
  unfold execPnot
  grind [pred_ok, outOk_next]

theorem execPset_ok {s : State} (h : s.ok) (f : PsetR) : OutOk (execPset f s) := by
  unfold execPset
  grind [issue_doOk, retire_ok, outOk_next]

/-! ### Links and pod time -/

theorem onLink_ok {s : State} (h : s.ok) (q : Nat) (f : Quad → Quad) : (onLink s q f).ok := by
  unfold onLink
  grind [State.putQuad_ok, State.foldl_ok]

theorem endOrder_ok {s : State} (h : s.ok) (failed : Bool) : (endOrder s failed).ok := by
  unfold endOrder
  grind [State.ok_iff]

theorem closeOrder_ok {s : State} (h : s.ok) : (closeOrder s).ok := by
  unfold closeOrder
  grind [endOrder_ok]

theorem unroute_ok {s : State} (h : s.ok) (qs : List Nat) : (unroute s qs).ok := h

theorem tellAgain_ok {s : State} (h : s.ok) : (tellAgain s).ok := by
  unfold tellAgain
  grind [tellSent_ok, State.foldl_ok]

theorem failRemotes_ok {s : State} (h : s.ok) (qs : List Nat) (nodes : List (Nat × Nat)) (a : RemoteAns) : (failRemotes s qs
    nodes a).ok := by
  unfold failRemotes
  grind [answered_ok, failQuads_ok, tellAgain_ok, State.foldl_ok]

theorem loseQuads_ok {s : State} (h : s.ok) (qs : List Nat) (a : RemoteAns) : (loseQuads s qs a).ok := by
  unfold loseQuads
  grind [failRemotes_ok, State.loseAt_ok, moveChunks_ok, State.ok_iff]

theorem orderDown_ok {s : State} (h : s.ok) (o : QOrder) : (orderDown s o).ok := by
  unfold orderDown
  grind [closeOrder_ok, loseQuads_ok, State.putQuad_ok, sendRecords_ok, State.foldl_ok]

theorem qctlWrite_ok {s : State} (h : s.ok) (v : Word) : (qctlWrite s v).ok := by
  unfold qctlWrite
  dsimp only
  split
  · grind [State.ok_iff]
  · grind [unroute_ok, orderDown_ok, loseQuads_ok, State.send_ok, State.putQuad_ok, State.foldl_ok, State.ok_iff]

theorem execPersonalitySwitch_ok {s : State} (h : s.ok) (v : Word) : OutOk (execPersonalitySwitch v s) := by
  unfold execPersonalitySwitch
  grind [qctlWrite_ok, outOk_next]

theorem execDrainComplete_ok {s : State} (h : s.ok) (q : Nat) : OutOk (execDrainComplete q s) := by
  unfold execDrainComplete
  grind [orderDown_ok, outOk_next]

theorem execDrainTimeout_ok {s : State} (h : s.ok) (q : Nat) : OutOk (execDrainTimeout q s) := by
  unfold execDrainTimeout
  grind [orderDown_ok, outOk_next]

theorem execReconfigureDone_ok {s : State} (h : s.ok) (q : Nat) : OutOk (execReconfigureDone q s) := by
  unfold execReconfigureDone
  grind [onLink_ok, outOk_next]

theorem trainFailed_ok {s : State} (h : s.ok) (q : Nat) : (trainFailed s q).ok := by
  unfold trainFailed
  grind [closeOrder_ok, loseQuads_ok, onLink_ok, sendRecords_ok, State.ok_iff]

theorem attemptFailed_ok {s : State} (h : s.ok) (q : Nat) : (attemptFailed s q).ok := by
  unfold attemptFailed
  grind [onLink_ok, trainFailed_ok]

theorem execTrainingDone_ok {s : State} (h : s.ok) (q : Nat) (ok : Bool) (good : BitVec 8) (rate : BitVec 4) : OutOk
    (execTrainingDone q ok good rate s) := by
  unfold execTrainingDone
  grind [attemptFailed_ok, onLink_ok, State.send_ok, outOk_next]

theorem execAgreementRecord_ok {s : State} (h : s.ok) (q : Nat) (r : BitVec 128) : OutOk (execAgreementRecord q r s) := by
  unfold execAgreementRecord
  grind [attemptFailed_ok, onLink_ok, outOk_next]

theorem mapEntry_ok {s : State} (h : s.ok) (l : MapEntry) : (mapEntry s l).ok := by
  unfold mapEntry
  grind [State.ok_iff]

theorem execMapDone_ok {s : State} (h : s.ok) (q : Nat) (entries : List MapEntry) : OutOk (execMapDone q entries s) := by
  unfold execMapDone
  grind [closeOrder_ok, mapEntry_ok, onLink_ok, sendRecords_ok, State.foldl_ok, outOk_next]

theorem execRetire_ok {s : State} (h : s.ok) (q : Nat) : OutOk (execRetire q s) := .next h

theorem execRetrain_ok {s : State} (h : s.ok) (e : LaneErrors) : OutOk (execRetrain e s) := by
  unfold execRetrain
  grind [onLink_ok, outOk_next]

theorem execPodTimeBeacon_ok {s : State} (h : s.ok) (q : Nat) (b : Beacon) : OutOk (execPodTimeBeacon q b s) := by
  unfold execPodTimeBeacon
  grind [State.send_ok, State.foldl_ok, outOk_next, State.ok_iff]

theorem execBeaconSend_ok {s : State} (h : s.ok) : OutOk (execBeaconSend s) := by
  unfold execBeaconSend
  grind [State.send_ok, State.foldl_ok, outOk_next]

theorem execLinkDelayMeasure_ok {s : State} (h : s.ok) (q : Nat) (ns : Nat) : OutOk (execLinkDelayMeasure q ns s) := by
  unfold execLinkDelayMeasure
  grind [onLink_ok, outOk_next]

theorem execBeaconLoss_ok {s : State} (h : s.ok) : OutOk (execBeaconLoss s) := by
  unfold execBeaconLoss
  grind [outOk_next, State.ok_iff]

theorem takeFreed_ok {s : State} (h : s.ok) (link : Nat) (cls : Nat) (freed : BitVec 32) : (takeFreed s link cls freed).ok :=
  h

theorem execFlowControlTotalsSend_ok {s : State} (h : s.ok) (link : Nat) (cls : Nat) : OutOk (execFlowControlTotalsSend link cls
    s) := by
  unfold execFlowControlTotalsSend
  grind [State.send_ok, takeFreed_ok, outOk_next]

theorem execFlowControlTotals_ok {s : State} (h : s.ok) (link : Nat) (cls : Nat) (_sent : BitVec 32) (freed : BitVec 32) : OutOk
    (execFlowControlTotals link cls _sent freed s) :=
  .next h

theorem execFlitCrcError_ok {s : State} (h : s.ok) (link : Nat) : OutOk (execFlitCrcError link s) := by
  unfold execFlitCrcError
  grind [State.countErr_ok, State.send_ok, outOk_next]

/-! ### Debugging -/

theorem haltRequest_ok {s : State} (h : s.ok) (tile : Nat) : (haltRequest s tile).ok := by
  unfold haltRequest
  grind [State.halt_ok]

theorem execHreq_ok {s : State} (h : s.ok) (tile : Nat) : OutOk (execHreq tile s) := by
  unfold execHreq
  grind [haltRequest_ok, outOk_next]

theorem execHaltComplete_ok {s : State} (h : s.ok) (tile : Nat) : OutOk (execHaltComplete tile s) := by
  unfold execHaltComplete
  grind [State.putTile_ok, outOk_next]

theorem resumeTile_ok {s : State} (h : s.ok) (tile : Nat) : (resumeTile s tile).ok := by
  unfold resumeTile
  grind [drainPort_ok, State.putTile_ok, State.trace_ok]

theorem execRun_ok {s : State} (h : s.ok) (tile : Nat) : OutOk (execRun tile s) := by
  unfold execRun
  grind [resumeTile_ok, outOk_next]

theorem stepTile_ok {s : State} (h : s.ok) (tile : Nat) (slot : Nat) : (stepTile s tile slot).ok := by
  unfold stepTile
  grind [State.putTile_ok]

theorem execStep_ok {s : State} (h : s.ok) (tile : Nat) (slot : Nat) : OutOk (execStep tile slot s) := by
  unfold execStep
  grind [stepTile_ok, outOk_next]

theorem execStepComplete_ok {s : State} (h : s.ok) (tile : Nat) : OutOk (execStepComplete tile s) := by
  unfold execStepComplete
  grind [State.putTile_ok, State.trace_ok, outOk_next]

theorem setPass_ok {s : State} (h : s.ok) (tile : Nat) (on : Bool) : (setPass s tile on).ok := by
  unfold setPass
  grind [drainPort_ok, State.onTile_ok]

theorem execPassWrite_ok {s : State} (h : s.ok) (tile : Nat) : OutOk (execPassWrite tile s) := by
  unfold execPassWrite
  grind [setPass_ok, outOk_next]

theorem latch_ok {s : State} (h : s.ok) : (latch s).ok := h

theorem execSnapgo_ok {s : State} (h : s.ok) : OutOk (execSnapgo s) := .next h

theorem groupTrigger_ok {s : State} (h : s.ok) (g : Nat) : (groupTrigger s g).ok := by
  unfold groupTrigger
  grind [State.halt_ok, latch_ok, State.foldl_ok]

theorem execHaltGroupTrigger_ok {s : State} (h : s.ok) (tile : Nat) (g : Nat) : OutOk (execHaltGroupTrigger tile g s) := by
  unfold execHaltGroupTrigger
  grind [groupTrigger_ok, State.tellPod_ok, outOk_next]

theorem resumeGroups_ok {s : State} (h : s.ok) (mask : Nat) : (resumeGroups s mask).ok := by
  unfold resumeGroups
  grind [resumeTile_ok, State.foldl_ok]

theorem hgrun_ok {s : State} (h : s.ok) (peer : Bool) (mask : Nat) : (hgrun s peer mask).ok := by
  unfold hgrun
  grind [resumeGroups_ok, State.tellPod_ok]

theorem execHgrun_ok {s : State} (h : s.ok) (x : GroupRun) : OutOk (execHgrun x s) := by
  unfold execHgrun
  grind [hgrun_ok, outOk_next]

theorem execPcMatch_ok {s : State} (h : s.ok) (tile : Nat) (slot : Nat) : OutOk (execPcMatch tile slot s) := by
  unfold execPcMatch
  grind [outOk_next, State.ok_iff]

theorem execTraceTimeRecord_ok {s : State} (h : s.ok) (tile : Nat) : OutOk (execTraceTimeRecord tile s) := by
  unfold execTraceTimeRecord
  grind [State.trace_ok, outOk_next]

/-! ### Registers -/

theorem plainWrite_ok {s : State} (h : s.ok) (tile : Nat) (r : SysReg) (v : Word) : (plainWrite s tile r v).ok := by
  unfold plainWrite
  grind [State.onTile_ok, State.ok_iff]

theorem clearErr_ok {s : State} (h : s.ok) (i : Fin 11) : (clearErr s i).ok := h

theorem fstatWrite_ok {s : State} (h : s.ok) (id : Nat) (lr : Nat) (v : Word) : (fstatWrite s id lr v).ok := by
  unfold fstatWrite
  grind [State.clearFstat_ok]

theorem dbgctlWrite_ok {s : State} (h : s.ok) (tile : Nat) (v : Word) : (dbgctlWrite s tile v).ok := by
  unfold dbgctlWrite
  grind [haltRequest_ok, State.onTile_ok, resumeTile_ok, setPass_ok, stepTile_ok]

theorem snapreqWrite_ok {s : State} (h : s.ok) (v : Word) : (snapreqWrite s v).ok := by
  unfold snapreqWrite
  grind [State.ok_iff]

theorem regWrite_ok {s : State} (h : s.ok) (tile : Nat) (who : Option (Nat × Nat)) (r : SysReg) (v : Word) : (regWrite s tile
    who r v).ok := by
  unfold regWrite
  grind [clearErr_ok, dbgctlWrite_ok, doorbell_ok, fstatWrite_ok, hgrun_ok, latch_ok, plainWrite_ok, qctlWrite_ok,
    quiesceWrite_ok, snapreqWrite_ok, vacateOrder_ok]

/-! ### Management -/

theorem endRequest_ok {s : State} (h : s.ok) (failed : Bool) : (endRequest s failed).ok := by
  unfold endRequest
  grind [State.ok_iff]

theorem serve_ok {s : State} (h : s.ok) (kind : Nat) (record : Team → List Byte → State → List Byte) {after : State → State} (ha
    : ∀ s, s.ok → (after s).ok) : (serve s kind record after).ok := by
  unfold serve
  grind [endRequest_ok, hbmBytes_ok]

theorem execCounterSnapshot_ok {s : State} (h : s.ok) : OutOk (execCounterSnapshot s) := by
  unfold execCounterSnapshot
  grind [serve_ok, outOk_next, State.ok_iff]

theorem execCompositionRecord_ok {s : State} (h : s.ok) : OutOk (execCompositionRecord s) := by
  unfold execCompositionRecord
  grind [serve_ok, outOk_next]

theorem execFstatClear_ok {s : State} (h : s.ok) (id : Nat) (lr : Nat) (v : Word) : OutOk (execFstatClear id lr v s) := by
  unfold execFstatClear
  grind [fstatWrite_ok, outOk_next]

theorem execErrcClear_ok {s : State} (h : s.ok) (i : Fin 11) : OutOk (execErrcClear i s) := .next h

theorem markReplay_ok {s : State} (h : s.ok) (tile : Nat) (slot : Nat) (v : Bool) : (markReplay s tile slot v).ok := by
  unfold markReplay
  grind [State.putAt_ok]

theorem execReplayWrite_ok {s : State} (h : s.ok) (tile : Nat) (slot : Nat) (v : Bool) : OutOk (execReplayWrite tile slot v s)
    := by
  unfold execReplayWrite
  grind [markReplay_ok, outOk_next]

theorem execSystemRegisterWrite_ok {s : State} (h : s.ok) (tile : Nat) (r : SysReg) (v : Word) : OutOk (execSystemRegisterWrite
    tile r v s) := by
  unfold execSystemRegisterWrite
  grind [plainWrite_ok, outOk_next]

theorem reply_ok {s : State} (h : s.ok) (bs : List Byte) : (reply s bs).ok := h

theorem readHalted_ok {s : State} (h : s.ok) (tile : Nat) (slot : Nat) (f : Strand → List Byte) : (readHalted s tile slot f).ok
    :=
  h

theorem writeHalted_ok {s : State} (h : s.ok) (tile : Nat) (slot : Nat) (f : Strand → Strand) : (writeHalted s tile slot f).ok
    := by
  unfold writeHalted
  grind [State.putAt_ok]

theorem execManagementEndpointAccess_ok {s : State} (h : s.ok) (m : Mgmt) : OutOk (execManagementEndpointAccess m s) := by
  unfold execManagementEndpointAccess
  grind [State.commit_ok, doorbell_ok, markReplay_ok, State.onVtile_ok, readHalted_ok, regWrite_ok, reply_ok, State.write_ok,
    writeHalted_ok, outOk_next]

theorem execPowerOn_ok {s : State} (h : s.ok) (x : PowerUp) : OutOk (execPowerOn x s) := by
  unfold execPowerOn
  grind [State.putQuad_ok, State.foldl_ok, outOk_next, State.ok_iff]

theorem setClock_ok {s : State} (h : s.ok) (die : Nat) (mhz : Nat) : (setClock s die mhz).ok := by
  unfold setClock
  grind [State.ok_iff]

theorem execPowerCapThrottle_ok {s : State} (h : s.ok) (die : Nat) (mhz : Nat) : OutOk (execPowerCapThrottle die mhz s) := by
  unfold execPowerCapThrottle
  grind [setClock_ok, outOk_next]

theorem execThermalThrottle_ok {s : State} (h : s.ok) (die : Nat) : OutOk (execThermalThrottle die s) := by
  unfold execThermalThrottle
  grind [setClock_ok, outOk_next, State.ok_iff]

theorem execThermalRecovery_ok {s : State} (h : s.ok) (die : Nat) : OutOk (execThermalRecovery die s) := by
  unfold execThermalRecovery
  grind [setClock_ok, outOk_next, State.ok_iff]

theorem execThermalShutdown_ok {s : State} (h : s.ok) : OutOk (execThermalShutdown s) := .next h

end Sys2Proof.Machine
end

section
/-! PROOF. Memory stays canonical, last part: the matrix unit, scalar and system instructions, every step, and O60. -/

namespace Sys2Proof.Machine

/-! ### The matrix unit -/

theorem enqueueMatrix_ok {s : State} (h : s.ok) (k : Strand) (e : MEntry) (g : Vtile → Vtile) : DoOk (enqueueMatrix s k e g) :=
    by
  unfold enqueueMatrix
  grind [State.onVtile_ok, retire_ok]

theorem execMma_ok {s : State} (h : s.ok) (f : MmaM) : OutOk (execMma f s) := by
  refine .next <| issue_doOk h _ _ _ fun k => withVtile_ok h k fun t v => ?_
  iterate 6 refine DoOk.bind _ fun _ => ?_
  exact enqueueMatrix_ok h _ _ _

theorem execAld_ok {s : State} (h : s.ok) (f : AldM) : OutOk (execAld f s) := by
  refine .next <| issue_doOk h _ _ _ fun k => withVtile_ok h k fun t v => ?_
  iterate 3 refine DoOk.bind _ fun _ => ?_
  exact enqueueMatrix_ok h _ _ _

theorem execAst_ok {s : State} (h : s.ok) (f : AstM) : OutOk (execAst f s) := by
  refine .next <| issue_doOk h _ _ _ fun k => withVtile_ok h k fun t v => ?_
  iterate 3 refine DoOk.bind _ fun _ => ?_
  grind [State.storing_ok, State.writeAll_ok, retire_ok, DoOk.bind]

theorem execAzero_ok {s : State} (h : s.ok) (f : AzeroM) : OutOk (execAzero f s) := by
  unfold execAzero
  grind [enqueueMatrix_ok, issue_doOk, withVtile_ok, DoOk.bind, outOk_next]

theorem execAscale_ok {s : State} (h : s.ok) (f : AscaleM) : OutOk (execAscale f s) := by
  refine .next <| issue_doOk h _ _ _ fun k => withVtile_ok h k fun t v => ?_
  iterate 2 refine DoOk.bind _ fun _ => ?_
  exact enqueueMatrix_ok h _ _ _

theorem execCbld_ok {s : State} (h : s.ok) (f : CbldC) : OutOk (execCbld f s) := by
  refine .next <| issue_doOk h _ _ _ fun k => withVtile_ok h k fun t v => ?_
  iterate 3 refine DoOk.bind _ fun _ => ?_
  grind [enqueueMatrix_ok, DoOk.bind]

theorem execMatrixQueueStart_ok {s : State} (h : s.ok) (tile : Nat) : OutOk (execMatrixQueueStart tile s) := by
  unfold execMatrixQueueStart
  grind [State.putVtile_ok, outOk_next]

theorem execMmaKBlock_ok {s : State} (h : s.ok) (tile : Nat) : OutOk (execMmaKBlock tile s) := by
  unfold execMmaKBlock
  grind [State.accountReplay_ok, State.drewAcc_ok, State.engineFault_ok, State.putVtile_ok, outOk_next]

theorem execMmaComplete_ok {s : State} (h : s.ok) (tile : Nat) : OutOk (execMmaComplete tile s) := by
  unfold execMmaComplete
  grind [State.accountReplay_ok, State.drewAcc_ok, State.putVtile_ok, outOk_next]

theorem execAldComplete_ok {s : State} (h : s.ok) (tile : Nat) : OutOk (execAldComplete tile s) := by
  unfold execAldComplete
  grind [State.drewAcc_ok, State.engineFault_ok, State.putVtile_ok, outOk_next]

theorem execAscaleComplete_ok {s : State} (h : s.ok) (tile : Nat) : OutOk (execAscaleComplete tile s) := by
  unfold execAscaleComplete
  grind [State.accountReplay_ok, State.putVtile_ok, outOk_next]

/-! ### Scalar instructions -/

theorem intR_ok {s : State} (h : s.ok) (i : Instr) (f : IntR) (op : Int → Int → Int) : (intR i f op s).ok := by
  unfold intR
  grind [issue_doOk, retire_ok]

theorem intI_ok {s : State} (h : s.ok) (i : Instr) (f : IntI) (op : Int → Int → Int) : (intI i f op s).ok := by
  unfold intI
  grind [issue_doOk, retire_ok]

theorem intU_ok {s : State} (h : s.ok) (i : Instr) (f : IntU) (op : Nat → Nat → Nat) : (intU i f op s).ok := by
  unfold intU
  grind [issue_doOk, retire_ok]

theorem execCsel_ok {s : State} (h : s.ok) (f : SelR) : OutOk (execCsel f s) := by
  unfold execCsel
  grind [issue_doOk, retire_ok, outOk_next]

theorem execLi_ok {s : State} (h : s.ok) (f : IntI) : OutOk (execLi f s) := by
  unfold execLi
  grind [issue_doOk, retire_ok, outOk_next]

theorem floatR_ok {s : State} (h : s.ok) (i : Instr) (f : FloatR) (op : FVal → FVal → FVal) : (floatR i f op s).ok := by
  unfold floatR
  grind [issue_doOk, retire_ok]

theorem execFfma_ok {s : State} (h : s.ok) (f : FmaR) : OutOk (execFfma f s) := by
  unfold execFfma
  grind [issue_doOk, retire_ok, outOk_next]

theorem execFcmp_ok {s : State} (h : s.ok) (f : FcmpR) : OutOk (execFcmp f s) := by
  unfold execFcmp
  grind [issue_doOk, retire_ok, outOk_next]

theorem execFcvt_ok {s : State} (h : s.ok) (f : FcvtR) : OutOk (execFcvt f s) := by
  unfold execFcvt
  grind [issue_doOk, State.put_ok, State.setSat_ok, doOk_ok, outOk_next]

/-! ### System instructions -/

theorem execNop_ok {s : State} (h : s.ok) : OutOk (execNop s) := by
  unfold execNop
  grind [issue_doOk, retire_ok, outOk_next]

theorem execSysrd_ok {s : State} (h : s.ok) (f : SysrdY) : OutOk (execSysrd f s) := by
  unfold execSysrd
  split
  · exact .next (issue_doOk h _ _ _ fun k => .error _)
  · exact .next (issue_doOk h _ _ _ fun k => retire_ok h _)

theorem execSyswr_ok {s : State} (h : s.ok) (f : SyswrY) : OutOk (execSyswr f s) := by
  unfold execSyswr
  split
  · exact .next (issue_doOk h _ _ _ fun k => .error _)
  · refine .next (issue_doOk h _ _ _ fun k => ?_)
    dsimp only
    split
    · exact .error _
    · exact .ok (regWrite_ok (State.put_ok h _) _ _ _ _)

theorem execResume_ok {s : State} (h : s.ok) (f : ResumeY) : OutOk (execResume f s) := by
  unfold execResume
  grind [issue_doOk, State.resumeStrand_ok, retire_ok, withTeam_ok, DoOk.bind, outOk_next]

theorem execTrap_ok {s : State} (h : s.ok) (imm : BitVec 16) : OutOk (execTrap imm s) := by
  unfold execTrap
  grind [issue_doOk, DoOk.error, outOk_next]

theorem execBkpt_ok {s : State} (h : s.ok) (imm : BitVec 16) : OutOk (execBkpt imm s) := by
  refine .next (issue_doOk h _ _ _ fun k => ?_)
  split
  · exact .ok (State.halt_ok (State.put_ok h _) _ _ _ _)
  · exact .error _

theorem execHalt_ok {s : State} (h : s.ok) : OutOk (execHalt s) := by
  refine .next (issue_doOk h _ _ _ fun k => ?_)
  split
  · exact .error _
  · exact .ok (State.halt_ok (State.put_ok h _) _ _ _ _)

/-! ### Every instruction and every step -/

theorem exec_ok {s : State} (h : s.ok) (i : Instr) : OutOk (exec i s) :=
  match i with
  | .addR f | .sub f | .mulR f | .mulh f | .div f | .rem f | .andR f | .orR f | .xorR f | .shlR f | .shrR f | .sraR f | .sltR f
    | .minR f | .maxR f => .next (intR_ok h _ f _)
  | .addI f | .mulI f | .andI f | .orI f | .xorI f | .shlI f | .shrI f | .sraI f | .sltI f | .minI f | .maxI f => .next (intI_ok
    h _ f _)
  | .clz f | .popc f => .next (intU_ok h _ f _)
  | .csel f => execCsel_ok h f
  | .li f => execLi_ok h f
  | .fadd f | .fsub f | .fmul f | .fmin f | .fmax f => .next (floatR_ok h _ f _)
  | .ffma f => execFfma_ok h f
  | .fcmp f => execFcmp_ok h f
  | .fcvt f => execFcvt_ok h f
  | .beq f | .bne f | .blt f | .bge f | .bltn f | .bgen f => .next (branch_ok h _ f _)
  | .jal f => execJal_ok h f
  | .jalr f => execJalr_ok h f
  | .ld f => execLd_ok h f
  | .st f => execSt_ok h f
  | .mld f => execMld_ok h f
  | .mst f => execMst_ok h f
  | .mset f => execMset_ok h f
  | .pand f => execPand_ok h f
  | .por f => execPor_ok h f
  | .pxor f => execPxor_ok h f
  | .pnot f => execPnot_ok h f
  | .pset f => execPset_ok h f
  | .vabs f | .vneg f | .vnot f | .vexp2 f | .vlog2 f | .vrcp f | .vrsq f => .next (vecU_ok h _ f _)
  | .vadd f | .vsub f | .vmul f | .vmin f | .vmax f | .vand f | .vor f | .vxor f | .vshl f | .vshr f | .vsra f => .next (vecR_ok
    h _ f _ _)
  | .vattm f => execVattm_ok h f
  | .vbcast f => execVbcast_ok h f
  | .vidx f => execVidx_ok h f
  | .vcmp f => execVcmp_ok h f
  | .vcvt f => execVcvt_ok h f
  | .vext f => execVext_ok h f
  | .vfma f => execVfma_ok h f
  | .vgath f => execVgath_ok h f
  | .vscat f => execVscat_ok h f
  | .vld f => execVld_ok h f
  | .vst f => execVst_ok h f
  | .vperm f => execVperm_ok h f
  | .vred f => execVred_ok h f
  | .vsel f => execVsel_ok h f
  | .mma f => execMma_ok h f
  | .ald f => execAld_ok h f
  | .ast f => execAst_ok h f
  | .azero f => execAzero_ok h f
  | .ascale f => execAscale_ok h f
  | .cbld f => execCbld_ok h f
  | .cpy f => execCpy_ok h f
  | .cpya f => execCpya_ok h f
  | .amo f => execAmo_ok h f
  | .red f => execRed_ok h f
  | .fence f => execFence_ok h f
  | .ctradd f => execCtradd_ok h f
  | .waitge f => execWaitge_ok h f
  | .bar f => execBar_ok h f
  | .bara f => execBara_ok h f
  | .barw f => execBarw_ok h f
  | .spawn f => execSpawn_ok h f
  | .join f => execJoin_ok h f
  | .susp f => execSusp_ok h f
  | .exit => execExit_ok h
  | .cancel f => execCancel_ok h f
  | .collLd f => execCollLd_ok h f
  | .collRun f => execCollRun_ok h f
  | .collStat f => execCollStat_ok h f
  | .nop => execNop_ok h
  | .sysrd f => execSysrd_ok h f
  | .syswr f => execSyswr_ok h f
  | .resume f => execResume_ok h f
  | .trap imm => execTrap_ok h imm
  | .bkpt imm => execBkpt_ok h imm
  | .halt => execHalt_ok h
  | .releasedRecordEnqueue team q => execReleasedRecordEnqueue_ok h team q
  | .continuationDispatch tile slot => execContinuationDispatch_ok h tile slot
  | .pushMigration tile => execPushMigration_ok h tile
  | .loadgRefresh tile => execLoadgRefresh_ok h tile
  | .parkOnWait tile => execParkOnWait_ok h tile
  | .barrierExchange team scope unit peers => execBarrierExchange_ok h team scope unit peers
  | .barrierCompletion team scope unit => execBarrierCompletion_ok h team scope unit
  | .peerUnreachable team pkg => execPeerUnreachable_ok h team pkg
  | .copyChunk copy => execCopyChunk_ok h copy
  | .landing id => execLanding_ok h id
  | .counterIncrement id => execCounterIncrement_ok h id
  | .amoPerform id => execAmoPerform_ok h id
  | .amoFill id => execAmoFill_ok h id
  | .redAccept id => execRedAccept_ok h id
  | .remoteRequest r => execRemoteRequest_ok h r
  | .remoteResponse tag a => execRemoteResponse_ok h tag a
  | .matrixQueueStart tile => execMatrixQueueStart_ok h tile
  | .mmaKBlock tile => execMmaKBlock_ok h tile
  | .mmaComplete tile => execMmaComplete_ok h tile
  | .aldComplete tile => execAldComplete_ok h tile
  | .ascaleComplete tile => execAscaleComplete_ok h tile
  | .graphLoadComplete g => execGraphLoadComplete_ok h g
  | .runStart g run => execRunStart_ok h g run
  | .virgaNodeStart g run node => execVirgaNodeStart_ok h g run node
  | .virgaNodeComplete g run node => execVirgaNodeComplete_ok h g run node
  | .virgaChunkReceive c => execVirgaChunkReceive_ok h c
  | .virgaMismatchReport r => execVirgaMismatchReport_ok h r
  | .virgaPeerFailure r => execVirgaPeerFailure_ok h r
  | .qdoor team v => execQdoor_ok h team v
  | .hostDoorbellWrite ofs v => execHostDoorbellWrite_ok h ofs v
  | .hostHbmAccess addr n data => execHostHbmAccess_ok h addr n data
  | .queueSlotMap => execQueueSlotMap_ok h
  | .descriptorLoad slot => execDescriptorLoad_ok h slot
  | .quantumExpiry slot => execQuantumExpiry_ok h slot
  | .launchPacket => execLaunchPacket_ok h
  | .tileGrant => execTileGrant_ok h
  | .gangDeadline slot => execGangDeadline_ok h slot
  | .gangReady gang pkg uid => execGangReady_ok h gang pkg uid
  | .gangAbort gang => execGangAbort_ok h gang
  | .gangTick gang => execGangTick_ok h gang
  | .teamCompletion team => execTeamCompletion_ok h team
  | .vacate v => execVacate_ok h v
  | .restore v => execRestore_ok h v
  | .enableRotation v => execEnableRotation_ok h v
  | .disableRotation v => execDisableRotation_ok h v
  | .vacateCut team lrank => execVacateCut_ok h team lrank
  | .saveComplete team lrank how => execSaveComplete_ok h team lrank how
  | .restoreStart team lrank => execRestoreStart_ok h team lrank
  | .restoreComplete team lrank how => execRestoreComplete_ok h team lrank how
  | .rotation team scope unit => execRotation_ok h team scope unit
  | .uncorrectableTileError tile => execUncorrectableTileError_ok h tile
  | .tileResponseTimeout tile => execTileResponseTimeout_ok h tile
  | .uncorrectableGroupError grp => execUncorrectableGroupError_ok h grp
  | .memoryUncorrectableError key e => execMemoryUncorrectableError_ok h key e
  | .groupReset grp => execGroupReset_ok h grp
  | .htinv asid slot => execHtinv_ok h asid slot
  | .htinvAll asid => execHtinvAll_ok h asid
  | .quiesceStart v => execQuiesceStart_ok h v
  | .quiesceDrainComplete => execQuiesceDrainComplete_ok h
  | .quiesceTimeout => execQuiesceTimeout_ok h
  | .quiesceRelease => execQuiesceRelease_ok h
  | .personalitySwitch v => execPersonalitySwitch_ok h v
  | .drainComplete quad => execDrainComplete_ok h quad
  | .drainTimeout quad => execDrainTimeout_ok h quad
  | .reconfigureDone quad => execReconfigureDone_ok h quad
  | .trainingDone quad ok good rate => execTrainingDone_ok h quad ok good rate
  | .agreementRecord quad r => execAgreementRecord_ok h quad r
  | .mapDone quad entries => execMapDone_ok h quad entries
  | .retire quad => execRetire_ok h quad
  | .retrain x => execRetrain_ok h x
  | .podTimeBeacon quad b => execPodTimeBeacon_ok h quad b
  | .beaconSend => execBeaconSend_ok h
  | .linkDelayMeasure quad ns => execLinkDelayMeasure_ok h quad ns
  | .beaconLoss => execBeaconLoss_ok h
  | .flowControlTotalsSend link cls => execFlowControlTotalsSend_ok h link cls
  | .flowControlTotals link cls sent freed => execFlowControlTotals_ok h link cls sent freed
  | .flitCrcError link => execFlitCrcError_ok h link
  | .hreq tile => execHreq_ok h tile
  | .run tile => execRun_ok h tile
  | .step tile slot => execStep_ok h tile slot
  | .stepComplete tile => execStepComplete_ok h tile
  | .haltComplete tile => execHaltComplete_ok h tile
  | .haltGroupTrigger tile group => execHaltGroupTrigger_ok h tile group
  | .hgrun x => execHgrun_ok h x
  | .snapgo => execSnapgo_ok h
  | .pcMatch tile slot => execPcMatch_ok h tile slot
  | .traceTimeRecord tile => execTraceTimeRecord_ok h tile
  | .counterSnapshot => execCounterSnapshot_ok h
  | .compositionRecord => execCompositionRecord_ok h
  | .fstatClear team lrank v => execFstatClear_ok h team lrank v
  | .errcClear n => execErrcClear_ok h n
  | .replayWrite tile slot v => execReplayWrite_ok h tile slot v
  | .systemRegisterWrite tile r v => execSystemRegisterWrite_ok h tile r v
  | .managementEndpointAccess m => execManagementEndpointAccess_ok h m
  | .powerOn x => execPowerOn_ok h x
  | .powerCapThrottle die mhz => execPowerCapThrottle_ok h die mhz
  | .thermalThrottle die => execThermalThrottle_ok h die
  | .thermalRecovery die => execThermalRecovery_ok h die
  | .thermalShutdown => execThermalShutdown_ok h
  | .collStatFill id => execCollStatFill_ok h id
  | .passWrite tile => execPassWrite_ok h tile

theorem checked_ok {o : Out} (h : OutOk o) : OutOk (checked o) := by
  cases h with
  | next h => unfold checked; grind [OutOk.next, OutOk.fault]
  | fault r => exact .fault r
  | refused r => exact .refused r

theorem step_ok {s : State} (h : s.ok) : OutOk (step s) := by
  have hrun : ∀ i s, s.ok → OutOk (exec i s) := fun i s hs => exec_ok hs i
  unfold step
  split
  · exact .fault _
  · split
    · split
      · exact checked_ok (tileTurn_ok hrun h)
      · exact .next h
    · next turn rest _ =>
      have hz : ({ s with agenda := rest } : State).ok := h
      cases turn with
      | issue tile slot => exact checked_ok (issueWith_ok hrun hz _ _)
      | event i =>
        dsimp only
        split
        · exact .next hz
        · exact checked_ok (hrun i _ hz)
      | advance c n =>
        dsimp only
        split
        · exact .next (State.advance_ok hz _ _)
        · exact .next hz

/-! ### O60 -/

/-- Settles O60: every instruction and every step writes memory through operations that keep its form. -/
theorem memoryStaysCanonical : Obligations.MemoryStaysCanonical := by
  intro s t hs hstep
  have h := step_ok hs
  rwa [hstep, outOk_next] at h

end Sys2Proof.Machine
end

section
/-! PROOF. The exchange of a unit (R74, R80): when it runs, its stages, what its end keeps, and the AMOs that it commits. -/

namespace Sys2Proof.Machine

/-! ### When an exchange runs (R80) -/

theorem fetchSources_fetched {s : State} {t : Team} {cs : List (Nat × CopyOp)} (h : ∀ c ∈ cs, c.2.fetched = true) :
    fetchSources s t cs = (true, s) := by
  have hm : (cs.filter fun c => !c.2.fetched) = [] := List.filter_eq_nil_iff.2 fun c hc => by simp [h c hc]
  unfold fetchSources
  rw [hm]
  rfl

/-- A unit's exchange is due: every participant has arrived, and it has not run. -/
structure ExchangeDue (s : State) (t : Team) (id : Nat) (l : Scope) (u : Nat) : Prop where
  team : s.team? id = some t
  teamid : t.teamid = id
  exchanged : (State.phase (s.unit id l u) (s.unit id l u).step).exchanged = false
  full : phaseFull t l u (State.phase (s.unit id l u) (s.unit id l u).step)
    (State.phase (s.unit id l u) (s.unit id l u).step).peers = true
  unit : (t.unitsOf l).contains u = true

section Due

variable {s : State} {t : Team} {id : Nat} {l : Scope} {u : Nat}

/-- What BARRIER_EXCHANGE comes to when the exchange is due, nothing of it waits and its sources are here. -/
theorem exec_barrierExchange_due (h : ExchangeDue s t id l u) {peers : List PodPart} (hp : ¬ (l = .pod ∧ peers ≠ []))
    (hw : exchangeWaits s t l (exCopies s t l u (s.unit id l u).step) (exReds s t l u (s.unit id l u).step) = false)
    (hc : ∀ c ∈ exCopies s t l u (s.unit id l u).step, c.2.fetched = true) :
    let b := s.unit id l u
    let k := b.step
    let p := State.phase b k
    exec (.barrierExchange id l u peers) s =
      if l = .pod ∧ p.sent = false then
        let y := ((exCopies s t l u k).filter fun c => shSpace c.2.dst == 5).foldl (sendCopy t k) s
        let z := sendReds t k y ((exReds y t l u k).filter fun r => shSpace r.2.d == 5)
        let b := z.unit id l u
        .next (tellSent (z.putUnit id l u { b with phases := insertAt k { State.phase b k with sent := true } b.phases }) id k
          (State.others t))
      else if l = .pod ∧ !podReady s t p then .next s
      else .next (exchange s t l u k) := by
  intro b k p
  show execBarrierExchange id l u peers s = _
  unfold execBarrierExchange
  rw [h.team]
  dsimp only
  rw [h.unit, if_neg hp]
  have hx : (p.exchanged || !phaseFull t l u p p.peers) = false := by
    rw [show p.exchanged = false from h.exchanged, show phaseFull t l u p p.peers = true from h.full]; rfl
  rw [hx, hw, fetchSources_fetched hc]
  rfl

end Due

/-! ### The stages of an exchange (R80) -/

/-- The sources of the copies that an exchange performs here, read as it begins, and the state then (R74). -/
def exchangeSources (s : State) (t : Team) (cs : List (Nat × CopyOp)) : List (Nat × CopyOp × List (Nat × Bool)) × State :=
  cs.foldl (fun p c =>
    (p.1 ++ [(c.1, c.2, (copySource p.2 t c.2 0 (shCount c.2.src)).1)], (copySource p.2 t c.2 0 (shCount c.2.src)).2)) ([], s)

/-- The REDs of an exchange, merged and applied, and their end (R77). -/
def exchangeReds (t : Team) (l : Scope) (u : Nat) (rs : List (Nat × RedOp)) (s : State) : State :=
  let cs := rs.flatMap fun r => contribs s t r.1 r.2
  let s := reduceAll t.teamid cs (fun c => scopeVal t (redApply c.op c.ty c.wd) (vtileVal cs c) l u) s
  let s := (mixedReds cs).foldl (fun s c => s.orFstat t.teamid c.lr fstatMixed) s
  rs.foldl (fun s r =>
    countAsync { s with reds := eraseAt r.1 s.reds } r.2.who r.2.d (shCount r.2.d * redBytes r.2.ty r.2.wd)) s

/-- The bytes that REDs touch. -/
def redKeys (s : State) (t : Team) (rs : List (Nat × RedOp)) : List Nat :=
  (rs.flatMap fun r => contribs s t r.1 r.2).flatMap fun c => interval c.key (redBytes c.ty c.wd)

/-- Whether a peer's work is a RED. -/
def PeerWork.isRed (w : PeerWork) : Bool :=
  match w.kind with
  | .red _ _ _ _ _ _ _ => true
  | _ => false

/-- Whether a peer's work is a write, plain or combining. -/
def PeerWork.writes (w : PeerWork) : Bool :=
  match w.kind with
  | .red _ _ _ _ _ _ _ => false
  | _ => true

theorem PeerWork.writes_eq (w : PeerWork) : w.writes = !w.isRed := by
  unfold writes isRed
  split <;> rfl

/-- The copies and the peers' writes of an exchange (R75, R148). -/
def exchangeWrites (t : Team) (l : Scope) (u k : Nat) (cs : List (Nat × CopyOp × List (Nat × Bool))) (work : List PeerWork)
    (s : State) : Writes :=
  (work.filter PeerWork.writes).foldl (performWork t) (cs.foldl (performCopy t k l u) ⟨s, []⟩)

/-- What an exchange does after its last write: those that have yet to read what it wrote hear of it, and its phase tells that it
has run (R74). `keys` are the bytes that it wrote, and `settled` those of REDs. -/
def exchangeEnd (before : State) (t : Team) (l : Scope) (u k : Nat) (keys settled : List Nat) (w : Writes) : State :=
  let s := settleKeys w.finish settled
  let s := if l = .pod then { s with peerWork := s.peerWork.filter fun x => x.team != t.teamid || (workOf x k).isNone } else s
  let s := keepOld l t.teamid k before keys s
  let s := (s.spoilDone before.doneCopies keys).touchKeys keys
  let b := s.unit t.teamid l u
  let p := { State.phase b k with exchanged := true, xbytes := keys.length }
  let s := s.putUnit t.teamid l u { b with phases := insertAt k p b.phases }
  if l = .pod then answerReads t s else s

/-- The bytes that an exchange wrote: those of its copies and peers' writes, and those of `ks`. -/
def exchangeKeys (ks : List Nat) (w : Writes) : List Nat :=
  (ks.foldl (fun m a => insertAt a () m) (w.marks.map fun m => (m.1, ()))).map (·.1)

theorem exchange_eq (s : State) (t : Team) (l : Scope) (u k : Nat) :
    let src := exchangeSources s t ((exCopies s t l u k).filter fun c => shSpace c.2.dst != 5)
    let work := if l = .pod then podWork src.2 t k else []
    let rs := (exReds src.2 t l u k).filter fun r => shSpace r.2.d != 5
    let amos := amoCells src.2 t l u
      (src.1.flatMap (fun c => (shBytes c.2.1.dst).map (src.2.operandKey t c.2.1.who.lrank c.2.1.dst)) ++
        rs.flatMap (fun r => (contribs src.2 t r.1 r.2).flatMap fun c => interval c.key (redBytes c.ty c.wd)) ++
        work.flatMap (workKeys src.2 t))
    let st := rs.foldl (redStands t l u k) ([], commitAmos src.2 amos)
    let peer := peerReds t work (exchangeReds t l u st.1 st.2)
    let w := exchangeWrites t l u k src.1 work peer.1
    let rk := redKeys st.2 t st.1
    exchange s t l u k = exchangeEnd s t l u k (exchangeKeys (amos.map (·.1) ++ rk ++ peer.2) w) (rk ++ peer.2) w :=
  rfl

/-! ### The stages that have nothing to do -/

theorem commitAmos_nil (s : State) : commitAmos s [] = s := by
  have h : (s.live.filter fun c => !([] : List (Nat × Byte)).any fun x => x.1 == c.1) = s.live := List.filter_eq_self.2 fun _ _ => rfl
  unfold commitAmos
  rw [h]
  rfl

theorem amoCells_of_live_nil {s : State} (h : s.live = []) (t : Team) (l : Scope) (u : Nat) (keys : List Nat) :
    amoCells s t l u keys = [] := by
  unfold amoCells
  rw [h]
  rfl

theorem exchangeReds_nil (t : Team) (l : Scope) (u : Nat) (s : State) : exchangeReds t l u [] s = s := rfl

theorem peerReds_nil (t : Team) (s : State) : peerReds t [] s = (s, []) := rfl

/-! ### What the end of an exchange changes -/

theorem Writes.finish_eq (w : Writes) : ∃ p e, w.finish =
    { w.s with poison := p, errc := e, live := w.s.live.filter fun c => !(w.marks.map (·.1)).contains c.1 } := by
  unfold Writes.finish settleKeys
  extract_lets gs bad clean
  obtain ⟨p, h⟩ := (w.s.markPoison bad).clearPoison_eq clean
  rw [h]
  exact ⟨_, _, rfl⟩

theorem keepOld_eq (l : Scope) (id k : Nat) (before : State) (keys : List Nat) (s : State) :
    ∃ ks, keepOld l id k before keys s = { s with kept := ks } := by
  unfold keepOld
  extract_lets gs
  split
  · exact ⟨_, rfl⟩
  · exact ⟨_, rfl⟩

theorem spoilDone_nil (s : State) (keys : List Nat) : s.spoilDone [] keys = s := by
  unfold State.spoilDone
  split
  · rfl
  · rfl

theorem lookup_map_none {α : Type} {f : Nat × α → Nat × α} (hf : ∀ c, (f c).1 = c.1) {i : Nat} {l : List (Nat × α)}
    (h : lookup i l = none) : lookup i (l.map f) = none := by
  induction l with
  | nil => rfl
  | cons c r ih =>
    unfold lookup at h ⊢
    simp only [List.map_cons, hf]
    split at h
    · cases h
    · next hc => rw [if_neg hc]; exact ih h

/-- Copies and runs that read bytes hear of their change, and none of them comes or goes. -/
theorem touchKeys_eq (s : State) (keys : List Nat) : ∃ cs g r, s.touchKeys keys = { s with copies := cs, graphs := g, runs := r } ∧
    ∀ i, lookup i s.copies = none → lookup i cs = none := by
  obtain ⟨cs, hw, hk⟩ : ∃ cs, s.touchKeysWork keys = { s with copies := cs } ∧
      ∀ i, lookup i s.copies = none → lookup i cs = none := by
    unfold State.touchKeysWork
    split
    · exact ⟨_, rfl, fun _ h => h⟩
    · refine ⟨_, rfl, fun i h => lookup_map_none (fun c => ?_) h⟩
      dsimp only
      split
      · split
        · rfl
        · rfl
      · rfl
  unfold State.touchKeys State.touchRuns
  rw [hw]
  split
  · exact ⟨cs, _, _, rfl, hk⟩
  · exact ⟨cs, _, _, rfl, hk⟩

/-- A unit whose exchange of superstep `k` has run. -/
def BarUnit.exchanged (b : BarUnit) (k xbytes : Nat) : BarUnit :=
  { b with phases := insertAt k { State.phase b k with exchanged := true, xbytes := xbytes } b.phases }

theorem BarUnit.phase_exchanged (b : BarUnit) (k xbytes : Nat) :
    State.phase (b.exchanged k xbytes) k = { State.phase b k with exchanged := true, xbytes := xbytes } := by
  unfold BarUnit.exchanged
  rw [State.phase, lookup_insertAt_self]
  rfl

/-- The state that the end of an exchange leaves, but for the peers' reads that it answers at pod scope. -/
theorem exchangeEnd_eq {before : State} (hd : before.doneCopies = []) (t : Team) (l : Scope) (u k : Nat) (keys settled : List Nat)
    (w : Writes) : ∃ p e ks cs g r,
      (∀ i, lookup i w.s.copies = none → lookup i cs = none) ∧
      let z : State := { w.s.putUnit t.teamid l u ((w.s.unit t.teamid l u).exchanged k keys.length) with
        poison := p, errc := e, kept := ks, copies := cs, graphs := g, runs := r
        live := (w.s.live.filter fun c => !(w.marks.map (·.1)).contains c.1).filter fun c => !settled.contains c.1
        peerWork := if l = .pod then w.s.peerWork.filter fun x => x.team != t.teamid || (workOf x k).isNone else w.s.peerWork }
      exchangeEnd before t l u k keys settled w = if l = .pod then answerReads t z else z := by
  obtain ⟨p, e, hf⟩ := w.finish_eq
  unfold exchangeEnd
  rw [hd, hf]
  extract_lets _ _ z₀ z₁ z₂ z₃ b y ph z₄
  have h₁ : z₁ = { z₀ with
      peerWork := if l = .pod then w.s.peerWork.filter fun x => x.team != t.teamid || (workOf x k).isNone else w.s.peerWork } := by
    unfold z₁
    split
    · rfl
    · rfl
  obtain ⟨ks, h₂⟩ : ∃ ks, z₂ = { z₁ with kept := ks } := keepOld_eq _ _ _ _ _ _
  obtain ⟨cs, g, r, h₃, hc⟩ : ∃ cs g r, z₃ = { z₂ with copies := cs, graphs := g, runs := r } ∧
      ∀ i, lookup i z₂.copies = none → lookup i cs = none := by
    unfold z₃
    rw [spoilDone_nil]
    exact touchKeys_eq z₂ keys
  have hcopies : z₂.copies = w.s.copies := by rw [h₂, h₁]; rfl
  refine ⟨p, e, ks, cs, g, r, fun i hi => hc i (by rw [hcopies]; exact hi), ?_⟩
  have h₄ : z₄ = { w.s.putUnit t.teamid l u ((w.s.unit t.teamid l u).exchanged k keys.length) with
      poison := p, errc := e, kept := ks, copies := cs, graphs := g, runs := r
      live := (w.s.live.filter fun c => !(w.marks.map (·.1)).contains c.1).filter fun c => !settled.contains c.1
      peerWork := if l = .pod then w.s.peerWork.filter fun x => x.team != t.teamid || (workOf x k).isNone else w.s.peerWork } := by
    unfold z₄ ph y b
    rw [h₃, h₂, h₁]
    rfl
  rw [h₄]

/-- Without work of peers there are no reads to answer. -/
theorem answerReads_of_none (t : Team) {z : State} (h : z.peerWork = []) : answerReads t z = z := by
  have hz : { z with peerWork := [] } = z := by rw [← h]
  unfold answerReads
  rw [h]
  exact hz

/-- The exchange of a unit has run: its phase says so and keeps its arrivals, and the unit's superstep is as it was. -/
structure ExchangeRan (s z : State) (id : Nat) (l : Scope) (u : Nat) : Prop where
  step : (z.unit id l u).step = (s.unit id l u).step
  exchanged : (State.phase (z.unit id l u) (s.unit id l u).step).exchanged = true
  arrivals : (State.phase (z.unit id l u) (s.unit id l u).step).arrivals =
    (State.phase (s.unit id l u) (s.unit id l u).step).arrivals

theorem exchangeRan_of_unit {s z : State} {id : Nat} {l : Scope} {u n : Nat}
    (h : z.unit id l u = (s.unit id l u).exchanged (s.unit id l u).step n) : ExchangeRan s z id l u where
  step := by rw [h]; rfl
  exchanged := by rw [h, BarUnit.phase_exchanged]
  arrivals := by rw [h, BarUnit.phase_exchanged]

/-! ### Bytes written one by one -/

theorem Memory.byte_put_one {m : Memory} (hm : m.wf) (a : Nat) (b : Byte) (x : Nat) :
    (m.put a [b]).byte x = if a = x then b else m.byte x := by
  rw [Memory.byte_put hm]
  by_cases h : a = x
  · subst h; simp
  · rw [if_neg h, if_neg (by simp only [List.length_singleton]; omega)]

theorem Memory.wf_putEach {m : Memory} (hm : m.wf) (cells : List (Nat × Byte)) :
    (cells.foldl (fun m c => m.put c.1 [c.2]) m).wf :=
  List.foldlRecOn (motive := Memory.wf) cells _ hm fun _ h c _ => Memory.wf_put h c.1 [c.2]

theorem Memory.byte_putEach {m : Memory} (hm : m.wf) (cells : List (Nat × Byte)) (a : Nat) :
    (cells.foldl (fun m c => m.put c.1 [c.2]) m).byte a = cells.foldl (fun b c => if c.1 = a then c.2 else b) (m.byte a) := by
  induction cells generalizing m with
  | nil => rfl
  | cons c r ih => rw [List.foldl_cons, ih (Memory.wf_put hm _ _), Memory.byte_put_one hm, List.foldl_cons]

/-- A byte that is written once holds what was written. -/
theorem foldl_cells_of_mem {cells : List (Nat × Byte)} (hn : (cells.map (·.1)).Nodup) {a : Nat} {x : Byte} (h : (a, x) ∈ cells)
    (b : Byte) : cells.foldl (fun b c => if c.1 = a then c.2 else b) b = x := by
  induction cells generalizing b with
  | nil => cases h
  | cons c r ih =>
    obtain ⟨hc, hr⟩ := List.nodup_cons.1 hn
    rw [List.foldl_cons]
    obtain rfl | h := List.mem_cons.1 h
    · have hno (b : Byte) : r.foldl (fun b c => if c.1 = a then c.2 else b) b = b :=
        List.foldlRecOn (motive := (· = b)) r _ rfl fun z hz d hd => by
          rw [if_neg fun e => hc (List.mem_map.2 ⟨d, hd, e⟩), hz]
      rw [hno, if_pos rfl]
    · exact ih hr h _

theorem foldl_cells_of_notMem {cells : List (Nat × Byte)} {a : Nat} (h : a ∉ cells.map (·.1)) (b : Byte) :
    cells.foldl (fun b c => if c.1 = a then c.2 else b) b = b :=
  List.foldlRecOn (motive := (· = b)) cells _ rfl fun z hz d hd => by
    rw [if_neg fun e => h (List.mem_map.2 ⟨d, hd, e⟩), hz]

theorem State.foldl_update_eq (cells : List (Nat × Byte)) (s : State) :
    cells.foldl (fun s c => s.update c.1 [c.2]) s = { s with mem := cells.foldl (fun m c => m.put c.1 [c.2]) s.mem } := by
  induction cells generalizing s with
  | nil => rfl
  | cons c r ih => exact ih _

/-! ### Tables with each key once -/

theorem mem_of_lookup {α : Type} {k : Nat} {x : α} {l : List (Nat × α)} (h : lookup k l = some x) : (k, x) ∈ l := by
  induction l with
  | nil => cases h
  | cons c r ih =>
    unfold lookup at h
    split at h
    · next hc => cases h; subst hc; exact List.mem_cons_self
    · exact List.mem_cons_of_mem _ (ih h)

theorem lookup_of_mem {α : Type} {k : Nat} {x : α} {l : List (Nat × α)} (hn : (l.map (·.1)).Nodup) (h : (k, x) ∈ l) :
    lookup k l = some x := by
  induction l with
  | nil => cases h
  | cons c r ih =>
    obtain ⟨hc, hr⟩ := List.nodup_cons.1 hn
    unfold lookup
    obtain rfl | h := List.mem_cons.1 h
    · exact if_pos rfl
    · rw [if_neg fun e => hc (List.mem_map.2 ⟨_, h, e.symm⟩)]
      exact ih hr h

theorem lookup_eq_none {α : Type} {k : Nat} {l : List (Nat × α)} (h : ∀ x, (k, x) ∉ l) : lookup k l = none := by
  cases hl : lookup k l with
  | none => rfl
  | some x => exact absurd (mem_of_lookup hl) (h x)

/-! ### The AMOs that an exchange commits (R71, R80) -/

theorem commitAmos_eq (s : State) (cells : List (Nat × Byte)) : commitAmos s cells =
    { s with live := s.live.filter fun c => !cells.any fun x => x.1 == c.1
             mem := cells.foldl (fun m c => m.put c.1 [c.2]) s.mem } :=
  State.foldl_update_eq _ _

/-- The bytes of level memory and the live values that the commit of a unit's AMOs leaves. -/
theorem commitAmos_unit {s : State} (hs : s.ok) (hn : (s.live.map (·.1)).Nodup) (t : Team) (l : Scope) (u : Nat) :
    let z := commitAmos s (amoCells s t l u [])
    (∀ a c us, lookup a s.live = some (c, us) → us.contains (unitKey t.teamid l u) = true →
      z.mem.byte a = c ∧ lookup a z.live = none) ∧
    (∀ a c us, lookup a s.live = some (c, us) → us.contains (unitKey t.teamid l u) = false →
      z.mem.byte a = s.mem.byte a ∧ lookup a z.live = some (c, us)) ∧
    (∀ a, lookup a s.live = none → z.mem.byte a = s.mem.byte a) := by
  intro z
  have hz : z = _ := commitAmos_eq s (amoCells s t l u [])
  have hmem (a : Nat) (x : Byte) : (a, x) ∈ amoCells s t l u [] ↔
      ∃ us, (a, (x, us)) ∈ s.live ∧ us.contains (unitKey t.teamid l u) = true := by
    unfold amoCells
    simp only [List.any_nil, Bool.or_false, List.mem_map, List.mem_filter]
    constructor
    · rintro ⟨⟨k, y, us⟩, ⟨hm, hu⟩, he⟩
      cases he
      exact ⟨us, hm, hu⟩
    · rintro ⟨us, hm, hu⟩
      exact ⟨(a, x, us), ⟨hm, hu⟩, rfl⟩
  have hcells : ((amoCells s t l u []).map (·.1)).Nodup := by
    unfold amoCells
    rw [List.map_map]
    exact hn.sublist (List.filter_sublist.map _)
  have hany (a : Nat) : ((amoCells s t l u []).any fun x => x.1 == a) = true ↔ ∃ x, (a, x) ∈ amoCells s t l u [] := by
    simp only [List.any_eq_true, beq_iff_eq]
    exact ⟨fun ⟨⟨k, x⟩, hm, he⟩ => ⟨x, by cases he; exact hm⟩, fun ⟨x, hm⟩ => ⟨(a, x), hm, rfl⟩⟩
  have hbyte (a : Nat) : z.mem.byte a = (amoCells s t l u []).foldl (fun b c => if c.1 = a then c.2 else b) (s.mem.byte a) := by
    rw [hz]; exact Memory.byte_putEach hs _ _
  have hlive : z.live = s.live.filter fun c => !(amoCells s t l u []).any fun x => x.1 == c.1 := by rw [hz]
  have kept {a : Nat} (h : ∀ x, (a, x) ∉ amoCells s t l u []) : z.mem.byte a = s.mem.byte a := by
    rw [hbyte]
    exact foldl_cells_of_notMem (fun hm => by
      obtain ⟨⟨k, x⟩, hx, rfl⟩ := List.mem_map.1 hm
      exact h x hx) _
  refine ⟨fun a c us hl hu => ⟨?_, ?_⟩, fun a c us hl hu => ?_, fun a hl => kept fun x hx => ?_⟩
  · rw [hbyte]
    exact foldl_cells_of_mem hcells ((hmem a c).2 ⟨us, mem_of_lookup hl, hu⟩) _
  · refine lookup_eq_none fun x hx => ?_
    rw [hlive, List.mem_filter] at hx
    have := (hany a).2 ⟨c, (hmem a c).2 ⟨us, mem_of_lookup hl, hu⟩⟩
    rw [this] at hx
    exact absurd hx.2 (by decide)
  · have hno (x : Byte) : (a, x) ∉ amoCells s t l u [] := by
      rw [hmem]
      rintro ⟨vs, hm, hv⟩
      have := lookup_of_mem hn hm
      rw [hl] at this
      cases this
      rw [hu] at hv
      cases hv
    refine ⟨kept hno, ?_⟩
    rw [hlive]
    refine lookup_of_mem (hn.sublist (List.filter_sublist.map _)) (List.mem_filter.2 ⟨mem_of_lookup hl, ?_⟩)
    rw [Bool.not_eq_true', Bool.eq_false_iff]
    exact fun h => (hany a).1 h |>.elim hno
  · obtain ⟨us, hm, -⟩ := (hmem a x).1 hx
    rw [lookup_of_mem hn hm] at hl
    cases hl

section Amos

variable {s : State} {t : Team} {id : Nat} {l : Scope} {u : Nat}

theorem exchangeWaits_nil (hl : l ≠ .pod) (s : State) (t : Team) : exchangeWaits s t l [] [] = false := by
  have h : (l == Scope.pod) = false := beq_eq_false_iff_ne.2 hl
  unfold exchangeWaits
  rw [h]
  rfl

theorem exchange_amos (hl : l ≠ .pod) {k : Nat} (hc : exCopies s t l u k = []) (hr : exReds s t l u k = []) :
    ∃ keys, exchange s t l u k = exchangeEnd s t l u k keys [] ⟨commitAmos s (amoCells s t l u []), []⟩ := by
  have h := exchange_eq s t l u k
  dsimp only at h
  rw [hc, if_neg hl] at h
  rw [show exReds (exchangeSources s t (([] : List (Nat × CopyOp)).filter fun c => shSpace c.2.dst != 5)).2 t l u k = [] from hr] at h
  exact ⟨_, h⟩

/-- An exchange of a unit with no deferred work commits what the unit's AMOs have reached (R71, R80). -/
theorem exec_barrierExchange_amos (h : ExchangeDue s t id l u) (hd : s.doneCopies = []) (hl : l ≠ .pod)
    (hc : exCopies s t l u (s.unit id l u).step = []) (hr : exReds s t l u (s.unit id l u).step = []) (peers : List PodPart) :
    ∃ t', exec (.barrierExchange id l u peers) s = .next t' ∧ ExchangeRan s t' id l u ∧
      t'.mem = (commitAmos s (amoCells s t l u [])).mem ∧ t'.live = (commitAmos s (amoCells s t l u [])).live := by
  have he := exec_barrierExchange_due h (peers := peers) (fun hp => hl hp.1) (by rw [hc, hr]; exact exchangeWaits_nil hl s t)
    (by rw [hc]; exact fun _ hx => nomatch hx)
  dsimp only at he
  rw [if_neg fun hp => hl hp.1, if_neg fun hp => hl hp.1] at he
  obtain ⟨keys, hx⟩ := exchange_amos hl hc hr
  obtain ⟨p, e, ks, cs, g, r, -, hz⟩ := exchangeEnd_eq hd t l u (s.unit id l u).step keys []
    ⟨commitAmos s (amoCells s t l u []), []⟩
  dsimp only at hz
  rw [if_neg hl, ← hx] at hz
  have hu : (commitAmos s (amoCells s t l u [])).units = s.units := by rw [commitAmos_eq]
  rw [hz] at he
  refine ⟨_, he, exchangeRan_of_unit (n := keys.length) ?_, rfl, ?_⟩
  · rw [h.teamid]
    refine (State.unit_putUnit_self _ _ _ _ _).trans ?_
    unfold State.unit
    rw [hu]
  · exact (List.filter_eq_self.2 fun _ _ => rfl).trans (List.filter_eq_self.2 fun _ _ => rfl)

end Amos

end Sys2Proof.Machine
end

section
/-! PROOF. The copies of an exchange (R65, R74, R75, R148): plain writes under masks, and elements combined in place. -/

namespace Sys2Proof.Machine

/-! ### What copies of an exchange leave where it was (R65, R66, R74) -/

theorem storeBase_onTeam (s : State) (id : Nat) {f : Team → Team} (hf : ∀ t lr, (f t).img lr = t.img lr) (j lr : Nat) :
    (s.onTeam id f).storeBase j lr = s.storeBase j lr := by
  unfold State.onTeam
  split
  · next t ht =>
    have hv : (s.putTeam id (f t)).vtile? j lr = s.vtile? j lr := rfl
    unfold State.storeBase
    rw [hv, State.team?_putTeam]
    by_cases h : j = id
    · subst h
      rw [if_pos rfl, ht]
      cases s.vtile? j lr with
      | none => rfl
      | some v =>
        dsimp only
        rw [hf]
    · rw [if_neg h]
  · rfl

theorem storeBase_accountReplay (s : State) (id i kind n : Nat) (replay : Bool) (j lr : Nat) :
    (s.accountReplay id i kind n replay).storeBase j lr = s.storeBase j lr := by
  have h (s : State) (i : Nat) : (s.account id i n).storeBase j lr = s.storeBase j lr := by
    refine storeBase_onTeam s id (fun t lr => ?_) j lr
    dsimp only
    split
    · split
      · rfl
      · rfl
    · rfl
  unfold State.accountReplay
  dsimp only
  split
  · rw [h, h]
  · exact h s i

theorem storeBase_countCopy (s : State) (c : CopyOp) (n : Nat) (j lr : Nat) :
    (countCopy s c n).storeBase j lr = s.storeBase j lr := by
  have h (s : State) (b : Bool) (sp : Nat) : (if 1 ≤ sp ∧ sp ≤ 6 then s.accountReplay c.who.team (bytesIndex sp) 20 n b
      else s).storeBase j lr = s.storeBase j lr := by
    split
    · exact storeBase_accountReplay _ _ _ _ _ _ _ _
    · rfl
  unfold countCopy
  dsimp only [List.foldl_cons, List.foldl_nil]
  rw [h, h]

/-- `z` is a state in which an exchange that began in `s` has performed some of its copies: the handle table of the team and the places
of its stores are as they were. -/
structure SamePlaces (t : Team) (s z : State) : Prop where
  frame : ∃ m ts cp ds fr is, z = { s with mem := m, teams := ts, copies := cp, doneCopies := ds, fresh := fr, incs := is }
  base : ∀ id lr, z.storeBase id lr = s.storeBase id lr
  table : ∀ a, t.htbase ≤ a → a < t.htbase + 32 * t.htlen → z.mem.byte a = s.mem.byte a

/-- A handle beyond the table names nothing. -/
theorem entryNow_unlisted (s : State) {t : Team} {hnd : Nat} (h : ¬ hnd % 2 ^ 20 < t.htlen) : s.entryNow t hnd = none := by
  unfold State.entryNow
  dsimp only
  rw [decide_eq_false h]
  rfl

namespace SamePlaces

theorem refl (t : Team) (s : State) : SamePlaces t s s := ⟨⟨_, _, _, _, _, _, rfl⟩, fun _ _ => rfl, fun _ _ _ => rfl⟩

variable {t : Team} {s z : State} (h : SamePlaces t s z)
include h

theorem entry {hnd : Nat} (hh : hnd % 2 ^ 20 < t.htlen) : z.entry t hnd = s.entry t hnd := by
  have hp : z.poison = s.poison := by obtain ⟨_, _, _, _, _, _, e⟩ := h.frame; rw [e]
  have hn : z.hbm (t.htbase + 32 * (hnd % 2 ^ 20)) 32 = s.hbm (t.htbase + 32 * (hnd % 2 ^ 20)) 32 :=
    congrArg ofBytes (Memory.read_congr fun x h1 h2 => h.table x (by unfold hbmKey at h1; omega) (by unfold hbmKey at h2; omega))
  unfold State.entry
  dsimp only
  rw [hn]
  unfold State.anyPoison State.poisoned
  rw [hp]

theorem entryNow (hnd : Nat) : z.entryNow t hnd = s.entryNow t hnd := by
  by_cases hh : hnd % 2 ^ 20 < t.htlen
  · unfold State.entryNow
    rw [h.entry hh]
  · rw [entryNow_unlisted z hh, entryNow_unlisted s hh]

theorem whyNot (lr : Nat) (m : Shape) (rs : List (Nat × Nat)) : whyNot z t lr m rs = Sys2Proof.Machine.whyNot s t lr m rs := by
  have he := h.entryNow (shHnd m)
  obtain ⟨_, _, _, _, _, _, e⟩ := h.frame
  unfold Sys2Proof.Machine.whyNot
  rw [he, e]
  rfl

theorem badChunk (c : CopyOp) : badChunk z t c = Sys2Proof.Machine.badChunk s t c := by
  unfold Sys2Proof.Machine.badChunk
  simp only [h.whyNot]

theorem operandKey (lr : Nat) {m : Shape} (hm : 2 ≤ shSpace m → shHnd m % 2 ^ 20 < t.htlen) :
    z.operandKey t lr m = s.operandKey t lr m := by
  have hv : z.vtile? t.teamid lr = s.vtile? t.teamid lr := by
    obtain ⟨_, _, _, _, _, _, e⟩ := h.frame
    rw [e]
    rfl
  unfold State.operandKey
  obtain h0 | h1 | h2 : shSpace m = 0 ∨ shSpace m = 1 ∨ 2 ≤ shSpace m := by omega
  · rw [h0, h.base t.teamid lr]
    rfl
  · rw [h1, h.base t.teamid (shVt m)]
    rfl
  · rw [h.entry (hm h2), hv, h.base, h.base]

theorem overlapOfs {c : CopyOp} (hs : 2 ≤ shSpace c.src → shHnd c.src % 2 ^ 20 < t.htlen)
    (hd : 2 ≤ shSpace c.dst → shHnd c.dst % 2 ^ 20 < t.htlen) : overlapOfs z t c = Sys2Proof.Machine.overlapOfs s t c := by
  have hm : mayOverlap z t c = mayOverlap s t c := by
    unfold mayOverlap
    by_cases h2 : 2 ≤ shSpace c.src ∧ 2 ≤ shSpace c.dst
    · rw [h.entry (hs h2.1), h.entry (hd h2.2)]
    · have hst : (isStore c.src || isStore c.dst) = true := by
        unfold isStore
        simp only [Bool.or_eq_true, decide_eq_true_eq]
        omega
      rw [if_pos hst, if_pos hst]
  unfold Sys2Proof.Machine.overlapOfs
  rw [hm, h.operandKey _ hs, h.operandKey _ hd]

end SamePlaces

theorem chunkElems_pos (f : Fmt) : 0 < chunkElems f := by cases f <;> decide

theorem orElse_eq_none {α : Type} {x : Option α} {y : Unit → Option α} (h : x.orElse y = none) : x = none ∧ y () = none := by
  cases x with
  | none => exact ⟨rfl, h⟩
  | some a => cases h

/-- A copy of some elements that passes its checks names handles of its team's table. -/
theorem handles_of_badChunk {s : State} {t : Team} {c : CopyOp} (hb : badChunk s t c = none) (hn : 0 < shCount c.src) :
    (2 ≤ shSpace c.src → shHnd c.src % 2 ^ 20 < t.htlen) ∧ (2 ≤ shSpace c.dst → shHnd c.dst % 2 ^ 20 < t.htlen) := by
  have hce := chunkElems_pos (shFormat c.src)
  have listed {m : Shape} {rs : List (Nat × Nat)} (h : whyNot s t c.who.lrank m rs = none) (h2 : 2 ≤ shSpace m) :
      shHnd m % 2 ^ 20 < t.htlen := by
    unfold whyNot at h
    rw [if_neg (by omega)] at h
    by_contra hlt
    rw [entryNow_unlisted s hlt] at h
    cases h
  unfold badChunk at hb
  rw [List.findSome?_eq_none_iff] at hb
  have h0 := hb 0 (List.mem_range.2 (Nat.div_pos (by omega) hce))
  dsimp only at h0
  obtain ⟨h1, h2⟩ := orElse_eq_none h0
  exact ⟨listed (Option.map_eq_none_iff.1 h1), listed (Option.map_eq_none_iff.1 h2)⟩

/-! ### Plain writes under masks (R75) -/

/-- A byte after writes under masks, in order. -/
def maskedByte (ws : List (Nat × Byte × Byte)) (a : Nat) (x : Byte) : Byte :=
  ws.foldl (fun b w => if w.1 = a then (b &&& ~~~w.2.1) ||| (w.2.2 &&& w.2.1) else b) x

/-- Memory after writes under masks, in order. -/
def maskedMem (ws : List (Nat × Byte × Byte)) (m : Memory) : Memory :=
  ws.foldl (fun m w => m.put w.1 [(m.byte w.1 &&& ~~~w.2.1) ||| (w.2.2 &&& w.2.1)]) m

theorem wf_maskedMem {m : Memory} (hm : m.wf) (ws : List (Nat × Byte × Byte)) : (maskedMem ws m).wf :=
  List.foldlRecOn (motive := Memory.wf) ws _ hm fun _ h _ _ => Memory.wf_put h _ _

theorem byte_maskedMem {m : Memory} (hm : m.wf) (ws : List (Nat × Byte × Byte)) (a : Nat) :
    (maskedMem ws m).byte a = maskedByte ws a (m.byte a) := by
  induction ws generalizing m with
  | nil => rfl
  | cons w r ih =>
    refine (ih (Memory.wf_put hm _ _)).trans ?_
    rw [Memory.byte_put_one hm, maskedByte, maskedByte, List.foldl_cons]
    by_cases h : w.1 = a
    · rw [if_pos h, if_pos h, h]
    · rw [if_neg h, if_neg h]

theorem maskedMem_append (xs ys : List (Nat × Byte × Byte)) (m : Memory) : maskedMem (xs ++ ys) m = maskedMem ys (maskedMem xs m) :=
  List.foldl_append

theorem maskedByte_of_notMem {ws : List (Nat × Byte × Byte)} {a : Nat} (h : ∀ w ∈ ws, w.1 ≠ a) (x : Byte) : maskedByte ws a x = x :=
  List.foldlRecOn (motive := (· = x)) ws _ rfl fun b hb w hw => by rw [if_neg (h w hw), hb]

/-- Plain bytes change memory alone. -/
theorem foldl_plain_s {α : Type} (f : α → Nat × Byte × Byte) (p : α → Bool) (l : List α) (w : Writes) :
    (l.foldl (fun w a => w.plain (f a).1 (f a).2.1 (f a).2.2 (p a)) w).s = { w.s with mem := maskedMem (l.map f) w.s.mem } := by
  induction l generalizing w with
  | nil => rfl
  | cons a r ih => exact ih _

/-- The bytes that a copy writes, with their masks and values, in order: `key` gives the place of a destination's byte. -/
def copyCells (key : Nat → Nat) (c : CopyOp) (ys : List ((Nat × Bool) × Nat)) : List (Nat × Byte × Byte) :=
  ys.flatMap fun y => (elemCells c.dst y.2 y.1.1).map fun e => (key e.1, e.2)

theorem writeElems_plain {c : CopyOp} (hc : c.op = none) (key : Nat → Nat) (xs : List (Nat × Bool)) (w : Writes) :
    (writeElems key c xs w).s = { w.s with mem := maskedMem (copyCells key c xs.zipIdx) w.s.mem } := by
  unfold writeElems
  rw [hc]
  dsimp only
  induction xs.zipIdx generalizing w with
  | nil => rfl
  | cons y r ih =>
    rw [List.foldl_cons, ih]
    have h := foldl_plain_s (fun e : Nat × Byte × Byte => (key e.1, e.2)) (fun _ => y.1.2) (elemCells c.dst y.2 y.1.1) w
    dsimp only at h
    rw [h, copyCells, copyCells, List.flatMap_cons, maskedMem_append]

theorem mem_elemCells {m : Shape} {i v : Nat} {e : Nat × Byte × Byte} (h : e ∈ elemCells m i v) :
    e.1 ∈ interval (shElemOfs m i) (elemBytes (shFormat m)) := by
  unfold elemCells at h
  dsimp only at h
  rw [mem_interval]
  split at h
  · next hf =>
    have he : elemBytes (shFormat m) = 1 := if_pos hf
    split at h
    · rw [List.mem_singleton.1 h, he]
      exact ⟨Nat.le_refl _, Nat.lt_succ_self _⟩
    · rw [List.mem_singleton.1 h, he]
      exact ⟨Nat.le_refl _, Nat.lt_succ_self _⟩
  · obtain ⟨p, hp, rfl⟩ := List.mem_map.1 h
    have hlt := (List.mem_zipIdx hp).2.1
    rw [length_bytesOf] at hlt
    exact ⟨Nat.le_add_right _ _, by dsimp only; omega⟩

/-- What a copy writes lies in its destination. -/
theorem mem_copyCells {key : Nat → Nat} {c : CopyOp} {xs : List (Nat × Bool)} (hx : xs.length ≤ shCount c.dst)
    {e : Nat × Byte × Byte} (h : e ∈ copyCells key c xs.zipIdx) : ∃ o ∈ shBytes c.dst, e.1 = key o := by
  obtain ⟨y, hy, he⟩ := List.mem_flatMap.1 h
  obtain ⟨d, hd, rfl⟩ := List.mem_map.1 he
  have hlt := (List.mem_zipIdx hy).2.1
  exact ⟨d.1, List.mem_flatMap.2 ⟨y.2, List.mem_range.2 (by omega), mem_elemCells hd⟩, rfl⟩

theorem length_copySource {s : State} {t : Team} {c : CopyOp} (ht : c.touched = []) :
    (copySource s t c 0 (shCount c.src)).1.length ≤ shCount c.src ∧ (copySource s t c 0 (shCount c.src)).2 = s := by
  unfold copySource
  split
  · exact ⟨(List.length_take_le _ _), rfl⟩
  · rw [ht]
    exact ⟨by simp [readRange], rfl⟩

theorem exchangeSources_untouched {s : State} {t : Team} {cs : List (Nat × CopyOp)} (h : ∀ c ∈ cs, c.2.touched = []) :
    exchangeSources s t cs = (cs.map fun c => (c.1, c.2, (copySource s t c.2 0 (shCount c.2.src)).1), s) := by
  have go (cs : List (Nat × CopyOp)) (h : ∀ c ∈ cs, c.2.touched = []) (l : List (Nat × CopyOp × List (Nat × Bool))) :
      cs.foldl (fun p c => (p.1 ++ [(c.1, c.2, (copySource p.2 t c.2 0 (shCount c.2.src)).1)],
        (copySource p.2 t c.2 0 (shCount c.2.src)).2)) (l, s) =
      (l ++ cs.map fun c => (c.1, c.2, (copySource s t c.2 0 (shCount c.2.src)).1), s) := by
    induction cs generalizing l with
    | nil => simp
    | cons c r ih =>
      rw [List.foldl_cons]
      dsimp only
      rw [(length_copySource (h c List.mem_cons_self)).2, ih fun d hd => h d (List.mem_cons_of_mem _ hd)]
      simp
  exact go cs h []

/-! ### The copies of an exchange (R74, R148) -/

theorem notePoison_clean {xs : List (Nat × Bool)} (h : ∀ y ∈ xs, y.2 = false) (s : State) (w : Issuer) : notePoison s w xs = s :=
  if_neg fun hx => by
    obtain ⟨y, hy, hp⟩ := List.any_eq_true.1 hx
    rw [h y hy] at hp
    cases hp

theorem writeElems_s (key : Nat → Nat) (c : CopyOp) (xs : List (Nat × Bool)) (w : Writes) :
    ∃ m, (writeElems key c xs w).s = { w.s with mem := m } := by
  cases hc : c.op with
  | none => exact ⟨_, writeElems_plain hc key xs w⟩
  | some op =>
    unfold writeElems
    rw [hc]
    dsimp only
    induction xs.zipIdx generalizing w with
    | nil => exact ⟨_, rfl⟩
    | cons y r ih =>
      obtain ⟨m, h⟩ := ih (w.combine ((interval (shElemOfs c.dst y.2) (elemBytes (shFormat c.dst))).map key) op (shFormat c.dst)
        y.1.1 y.1.2)
      refine ⟨m, h.trans ?_⟩
      unfold Writes.combine
      dsimp only
      rw [State.foldl_update_eq]

/-- A copy that passes its checks, whose operands do not overlap, writes its elements, is gone, and has posted its counter. -/
theorem performCopy_eq {t : Team} {w : Writes} {c : CopyOp} {xs : List (Nat × Bool)} (hb : badChunk w.s t c = none)
    (ho : (overlapOfs w.s t c).1 = []) (hx : ∀ y ∈ xs, y.2 = false) (k : Nat) (l : Scope) (u id : Nat) :
    ∃ ts ds fr is, (performCopy t k l u w (id, c, xs)).s = { w.s with
        mem := (writeElems (w.s.operandKey t c.who.lrank c.dst) c xs w).s.mem, copies := eraseAt id w.s.copies, teams := ts
        doneCopies := ds, fresh := fr, incs := is } ∧
      (∀ j lr, (performCopy t k l u w (id, c, xs)).s.storeBase j lr = w.s.storeBase j lr) ∧ w.s.fresh ≤ fr ∧
      (∀ n < w.s.fresh, lookup n is = lookup n w.s.incs) ∧
      (c.posted = none → ctrNone c.ctr = false →
        w.s.fresh < fr ∧ lookup w.s.fresh is = some ⟨c.who, ctrVt c.ctr, ctrOfs c.ctr, c.amount, c.diverted⟩) := by
  obtain ⟨m, hm⟩ := writeElems_s (w.s.operandKey t c.who.lrank c.dst) c xs w
  have hbase := storeBase_countCopy { w.s with mem := m, copies := eraseAt id w.s.copies } c (shSize c.dst)
  obtain ⟨ts, ht⟩ := countCopy_eq { w.s with mem := m, copies := eraseAt id w.s.copies } c (shSize c.dst)
  obtain ⟨ds, fr, is, hf, hle, hkeep, hpost⟩ :=
    finishCopy_eq { w.s with mem := m, copies := eraseAt id w.s.copies, teams := ts } id c
  have he : (performCopy t k l u w (id, c, xs)).s =
      { w.s with mem := m, copies := eraseAt id w.s.copies, teams := ts, doneCopies := ds, fresh := fr, incs := is } := by
    unfold performCopy
    dsimp only
    rw [hb]
    dsimp only
    rw [ho, hm, ht]
    show finishCopy (notePoison _ c.who xs) id c = _
    rw [notePoison_clean hx]
    exact hf
  refine ⟨ts, ds, fr, is, ?_, ?_, hle, hkeep, hpost⟩
  · rw [he, hm]
  · intro j lr
    rw [he]
    rw [ht] at hbase
    exact hbase j lr

/-- The elements of a copy's source as an exchange finds them. -/
abbrev sourceOf (s : State) (t : Team) (c : CopyOp) : List (Nat × Bool) := (copySource s t c 0 (shCount c.src)).1

/-- Where the bytes of a copy's destination lie. -/
abbrev destKey (s : State) (t : Team) (c : CopyOp) : Nat → Nat := s.operandKey t c.who.lrank c.dst

/-- A copy that an exchange performs alone: its source is here and its destination in this package, its checks pass, nothing has
touched its operands, they do not overlap, its source is not poisoned, and its destination lies beside the handle table. -/
structure Performable (s : State) (t : Team) (c : CopyOp) : Prop where
  fetched : c.fetched = true
  here : shSpace c.dst ≠ 5
  count : shCount c.src = shCount c.dst
  touched : c.touched = []
  apart : (overlapOfs s t c).1 = []
  checks : badChunk s t c = none
  clean : ∀ y ∈ sourceOf s t c, y.2 = false
  table : ∀ o ∈ shBytes c.dst, destKey s t c o < t.htbase ∨ t.htbase + 32 * t.htlen ≤ destKey s t c o

namespace SamePlaces

variable {t : Team} {s z : State} {c : CopyOp}

/-- A copy that may be performed as the exchange begins may be performed after others of it. -/
theorem overlapOfs_performable (h : SamePlaces t s z) (hc : Performable s t c) : (Sys2Proof.Machine.overlapOfs z t c).1 = [] := by
  obtain h0 | h0 := Nat.eq_zero_or_pos (shCount c.src)
  · have hd : shBytes c.dst = [] := by
      unfold shBytes
      rw [← hc.count, h0]
      rfl
    unfold Sys2Proof.Machine.overlapOfs
    rw [hd]
    split
    · rfl
    · rfl
  · obtain ⟨hs, hd⟩ := handles_of_badChunk hc.checks h0
    rw [h.overlapOfs hs hd]
    exact hc.apart

/-- The places that it writes are those that it would have written as the exchange began. -/
theorem copyCells_performable (h : SamePlaces t s z) (hc : Performable s t c) :
    copyCells (destKey z t c) c (sourceOf s t c).zipIdx = copyCells (destKey s t c) c (sourceOf s t c).zipIdx := by
  obtain h0 | h0 := Nat.eq_zero_or_pos (shCount c.src)
  · have hx : sourceOf s t c = [] := List.eq_nil_of_length_eq_zero (Nat.le_zero.1 ((length_copySource hc.touched).1.trans_eq h0))
    rw [hx]
    rfl
  · rw [destKey, h.operandKey _ (handles_of_badChunk hc.checks h0).2]

end SamePlaces

/-- What a plain copy of an exchange leaves. -/
theorem performCopy_plain {s : State} {t : Team} {c : CopyOp} (hc : Performable s t c) (hp : c.op = none) {w : Writes}
    (h : SamePlaces t s w.s) (hm : w.s.mem.wf) (k : Nat) (l : Scope) (u id : Nat) :
    let w' := performCopy t k l u w (id, c, sourceOf s t c)
    SamePlaces t s w'.s ∧ w'.s.mem = maskedMem (copyCells (destKey s t c) c (sourceOf s t c).zipIdx) w.s.mem ∧
    w'.s.copies = eraseAt id w.s.copies ∧ w.s.fresh ≤ w'.s.fresh ∧
    (∀ n < w.s.fresh, lookup n w'.s.incs = lookup n w.s.incs) ∧
    (c.posted = none → ctrNone c.ctr = false → w.s.fresh < w'.s.fresh ∧
      lookup w.s.fresh w'.s.incs = some ⟨c.who, ctrVt c.ctr, ctrOfs c.ctr, c.amount, c.diverted⟩) := by
  intro w'
  obtain ⟨ts, ds, fr, is, he, hbase, hle, hkeep, hpost⟩ := performCopy_eq (w := w) ((h.badChunk c).trans hc.checks)
    (h.overlapOfs_performable hc) hc.clean k l u id
  have hmem : w'.s.mem = maskedMem (copyCells (destKey s t c) c (sourceOf s t c).zipIdx) w.s.mem := by
    refine (congrArg State.mem he).trans ?_
    rw [writeElems_plain hp, ← h.copyCells_performable hc]
  refine ⟨⟨?_, fun j lr => (hbase j lr).trans (h.base j lr), fun a h1 h2 => ?_⟩, hmem, by rw [he], by rw [he]; exact hle,
    by rw [he]; exact hkeep, by rw [he]; exact hpost⟩
  · obtain ⟨_, _, _, _, _, _, e⟩ := h.frame
    rw [he, e]
    exact ⟨_, _, _, _, _, _, rfl⟩
  · rw [hmem, byte_maskedMem hm, maskedByte_of_notMem (fun e hcell => ?_), h.table a h1 h2]
    obtain ⟨o, ho, hk⟩ := mem_copyCells (by rw [← hc.count]; exact (length_copySource hc.touched).1) hcell
    have := hc.table o ho
    omega

/-- The plain copies of an exchange write their elements in order, are gone, and have posted their counters (R74, R75). -/
theorem foldl_performCopy {s : State} {t : Team} {cs : List (Nat × CopyOp)}
    (hcs : ∀ x ∈ cs, Performable s t x.2 ∧ x.2.op = none) (k : Nat) (l : Scope) (u : Nat) {w : Writes} (h : SamePlaces t s w.s)
    (hm : w.s.mem.wf) :
    let w' := (cs.map fun x => (x.1, x.2, sourceOf s t x.2)).foldl (performCopy t k l u) w
    SamePlaces t s w'.s ∧
    w'.s.mem = maskedMem (cs.flatMap fun x => copyCells (destKey s t x.2) x.2 (sourceOf s t x.2).zipIdx) w.s.mem ∧
    (∀ i, lookup i w.s.copies = none → lookup i w'.s.copies = none) ∧
    (∀ n < w.s.fresh, lookup n w'.s.incs = lookup n w.s.incs) ∧
    ∀ x ∈ cs, lookup x.1 w'.s.copies = none ∧ (x.2.posted = none → ctrNone x.2.ctr = false →
      ∃ n, lookup n w'.s.incs = some ⟨x.2.who, ctrVt x.2.ctr, ctrOfs x.2.ctr, x.2.amount, x.2.diverted⟩) := by
  induction cs generalizing w with
  | nil => exact ⟨h, rfl, fun _ hi => hi, fun _ _ => rfl, fun _ hx => nomatch hx⟩
  | cons x r ih =>
    obtain ⟨hx, hop⟩ := hcs x List.mem_cons_self
    obtain ⟨h', hmem, hcopies, hle, hkeep, hpost⟩ := performCopy_plain hx hop h hm k l u x.1
    obtain ⟨hs, hm', hgone, hinc, hall⟩ := ih (fun y hy => hcs y (List.mem_cons_of_mem _ hy)) h' (by rw [hmem]; exact wf_maskedMem hm _)
    have herase (i : Nat) (hi : i = x.1 ∨ lookup i w.s.copies = none) :
        lookup i (performCopy t k l u w (x.1, x.2, sourceOf s t x.2)).s.copies = none := by
      rw [hcopies, lookup_eraseAt]
      split
      · rfl
      · next hne => exact hi.resolve_left hne
    refine ⟨hs, ?_, fun i hi => hgone i (herase i (.inr hi)), fun n hn => (hinc n (Nat.lt_of_lt_of_le hn hle)).trans (hkeep n hn),
      fun y hy => ?_⟩
    · rw [List.flatMap_cons, maskedMem_append, ← hmem]
      exact hm'
    · obtain rfl | hy := List.mem_cons.1 hy
      · refine ⟨hgone _ (herase _ (.inl rfl)), fun h0 h1 => ?_⟩
        obtain ⟨hlt, hl⟩ := hpost h0 h1
        exact ⟨_, (hinc _ hlt).trans hl⟩
      · exact hall y hy

section Copies

variable {s : State} {t : Team} {id : Nat} {l : Scope} {u : Nat}

/-- What the end of a package's exchange keeps of the state that its writes leave. -/
theorem exchangeEnd_package {before : State} (hd : before.doneCopies = []) (ht : t.teamid = id) (hl : l ≠ .pod) {k : Nat}
    (hk : k = (before.unit id l u).step) (keys settled : List Nat) {w : Writes} (hu : w.s.units = before.units) :
    let z := exchangeEnd before t l u k keys settled w
    ExchangeRan before z id l u ∧ z.mem = w.s.mem ∧ z.incs = w.s.incs ∧ z.reds = w.s.reds ∧
      ∀ i, lookup i w.s.copies = none → lookup i z.copies = none := by
  intro z
  obtain ⟨p, e, ks, cs, g, r, hc, hz⟩ := exchangeEnd_eq hd t l u k keys settled w
  dsimp only at hz
  rw [if_neg hl, if_neg hl] at hz
  rw [show z = _ from hz]
  refine ⟨exchangeRan_of_unit (n := keys.length) ?_, rfl, rfl, rfl, hc⟩
  rw [ht, ← hk]
  refine (State.unit_putUnit_self _ _ _ _ _).trans ?_
  unfold State.unit
  rw [hu]

theorem exchange_copies (hl : l ≠ .pod) {k : Nat} (hr : exReds s t l u k = []) (hlive : s.live = [])
    (hc : ∀ c ∈ exCopies s t l u k, Performable s t c.2) :
    ∃ keys, exchange s t l u k = exchangeEnd s t l u k keys []
      (((exCopies s t l u k).map fun x => (x.1, x.2, sourceOf s t x.2)).foldl (performCopy t k l u) ⟨s, []⟩) := by
  have h := exchange_eq s t l u k
  dsimp only at h
  rw [List.filter_eq_self.2 fun c hx => bne_iff_ne.2 (hc c hx).here, exchangeSources_untouched fun c hx => (hc c hx).touched,
    if_neg hl] at h
  dsimp only at h
  rw [hr, amoCells_of_live_nil hlive, commitAmos_nil, List.filter_nil, List.foldl_nil] at h
  dsimp only at h
  rw [exchangeReds_nil, peerReds_nil] at h
  exact ⟨_, h⟩

/-- An exchange that performs copies alone. -/
theorem exec_barrierExchange_copies (h : ExchangeDue s t id l u) (hd : s.doneCopies = []) (hl : l ≠ .pod)
    (hr : exReds s t l u (s.unit id l u).step = []) (hlive : s.live = [])
    (hw : exchangeWaits s t l (exCopies s t l u (s.unit id l u).step) [] = false)
    (hc : ∀ c ∈ exCopies s t l u (s.unit id l u).step, Performable s t c.2) {w : Writes}
    (he : ((exCopies s t l u (s.unit id l u).step).map fun x => (x.1, x.2, sourceOf s t x.2)).foldl
      (performCopy t (s.unit id l u).step l u) ⟨s, []⟩ = w) (hu : w.s.units = s.units) (peers : List PodPart) :
    ∃ t', exec (.barrierExchange id l u peers) s = .next t' ∧ ExchangeRan s t' id l u ∧ t'.mem = w.s.mem ∧ t'.incs = w.s.incs ∧
      ∀ i, lookup i w.s.copies = none → lookup i t'.copies = none := by
  have hx := exec_barrierExchange_due h (peers := peers) (fun hp => hl hp.1) (by rw [hr]; exact hw) fun c hm => (hc c hm).fetched
  dsimp only at hx
  rw [if_neg fun hp => hl hp.1, if_neg fun hp => hl hp.1] at hx
  obtain ⟨keys, hk⟩ := exchange_copies hl hr hlive hc
  rw [hk, he] at hx
  obtain ⟨hran, hm, hi, -, hgone⟩ := exchangeEnd_package hd h.teamid hl rfl keys [] hu
  exact ⟨_, hx, hran, hm, hi, hgone⟩

end Copies

/-! ### Elements combined in place (R148) -/

/-- The bytes of an element that a copy combines into, at their places. -/
def elemKeys (key : Nat → Nat) (m : Shape) (i : Nat) : List Nat := (interval (shElemOfs m i) (elemBytes (shFormat m))).map key

theorem length_elemKeys (key : Nat → Nat) (m : Shape) (i : Nat) : (elemKeys key m i).length = elemBytes (shFormat m) := by
  simp [elemKeys, interval]

theorem map_shBytes (key : Nat → Nat) (m : Shape) :
    (shBytes m).map key = (List.range (shCount m)).flatMap (elemKeys key m) := by
  rw [shBytes, List.map_flatMap]
  rfl

theorem elemVal_eq (mem : Memory) (key : Nat → Nat) {m : Shape} (hm : shFormat m ≠ .c4) (i : Nat) :
    elemVal mem key m i = ofBytes ((elemKeys key m i).map mem.byte) := by
  unfold elemVal elemKeys
  rw [if_neg hm, List.map_map]
  rfl

/-- Bytes put one by one at distinct places are there afterwards. -/
theorem Memory.map_byte_putEach {m : Memory} (hm : m.wf) {keys : List Nat} (hn : keys.Nodup) {bs : List Byte}
    (hl : bs.length = keys.length) : keys.map ((keys.zip bs).foldl (fun m c => m.put c.1 [c.2]) m).byte = bs := by
  have hfst : (keys.zip bs).map (·.1) = keys := List.map_fst_zip (Nat.le_of_eq hl.symm)
  have hsnd : (keys.zip bs).map (·.2) = bs := List.map_snd_zip (Nat.le_of_eq hl)
  conv => lhs; arg 2; rw [← hfst]
  rw [List.map_map]
  refine (List.map_congr_left fun c hc => ?_).trans hsnd
  rw [Function.comp_apply, Memory.byte_putEach hm]
  exact foldl_cells_of_mem (by rw [hfst]; exact hn) hc _

theorem Writes.combine_mem (w : Writes) (keys : List Nat) (op : ROp) (f : Fmt) (v : Nat) (psn : Bool) :
    (w.combine keys op f v psn).s.mem =
      (keys.zip (bytesOf keys.length (op.apply f (ofBytes (keys.map w.s.mem.byte)) v))).foldl (fun m c => m.put c.1 [c.2]) w.s.mem := by
  unfold Writes.combine
  dsimp only
  rw [State.foldl_update_eq]

/-- A combined element holds the result, and no other byte changes. -/
theorem Writes.combine_byte {w : Writes} (hm : w.s.mem.wf) {keys : List Nat} (hn : keys.Nodup) (op : ROp) (f : Fmt) (v : Nat)
    (psn : Bool) :
    ofBytes (keys.map (w.combine keys op f v psn).s.mem.byte) = op.apply f (ofBytes (keys.map w.s.mem.byte)) v % 256 ^ keys.length ∧
    ∀ a ∉ keys, (w.combine keys op f v psn).s.mem.byte a = w.s.mem.byte a := by
  rw [Writes.combine_mem]
  refine ⟨?_, fun a ha => ?_⟩
  · rw [Memory.map_byte_putEach hm hn (length_bytesOf _ _), ofBytes_bytesOf]
  · rw [Memory.byte_putEach hm]
    exact foldl_cells_of_notMem (by rw [List.map_fst_zip (Nat.le_of_eq (length_bytesOf _ _).symm)]; exact ha) _

theorem Writes.wf_combine {w : Writes} (hm : w.s.mem.wf) (keys : List Nat) (op : ROp) (f : Fmt) (v : Nat) (psn : Bool) :
    (w.combine keys op f v psn).s.mem.wf := by
  rw [Writes.combine_mem]
  exact Memory.wf_putEach hm _

/-- Elements at places apart are each combined once, and no other byte changes. -/
theorem foldl_combine {E : Nat → List Nat} (op : ROp) (f : Fmt) {ys : List ((Nat × Bool) × Nat)} {w : Writes} (hm : w.s.mem.wf)
    (hn : (ys.flatMap fun y => E y.2).Nodup) :
    let w' := ys.foldl (fun w y => w.combine (E y.2) op f y.1.1 y.1.2) w
    (∀ y ∈ ys, ofBytes ((E y.2).map w'.s.mem.byte) =
      op.apply f (ofBytes ((E y.2).map w.s.mem.byte)) y.1.1 % 256 ^ (E y.2).length) ∧
    ∀ a ∉ ys.flatMap fun y => E y.2, w'.s.mem.byte a = w.s.mem.byte a := by
  induction ys generalizing w with
  | nil => exact ⟨fun _ hy => (nomatch hy), fun _ _ => rfl⟩
  | cons y r ih =>
    rw [List.flatMap_cons, List.nodup_append'] at hn
    obtain ⟨hy, hr, hd⟩ := hn
    obtain ⟨hval, hother⟩ := Writes.combine_byte hm hy op f y.1.1 y.1.2
    obtain ⟨hall, hrest⟩ := ih (Writes.wf_combine hm (E y.2) op f y.1.1 y.1.2) hr
    dsimp only
    rw [List.foldl_cons]
    refine ⟨fun z hz => ?_, fun a ha => ?_⟩
    · obtain rfl | hz := List.mem_cons.1 hz
      · rw [List.map_congr_left fun a ha => hrest a (hd ha), hval]
      · have hsame : (E z.2).map (w.combine (E y.2) op f y.1.1 y.1.2).s.mem.byte = (E z.2).map w.s.mem.byte :=
          List.map_congr_left fun a ha => hother a fun hy => hd hy (List.mem_flatMap.2 ⟨z, hz, ha⟩)
        rw [hall z hz, hsame]
    · rw [List.flatMap_cons, List.mem_append, not_or] at ha
      rw [hrest a ha.2, hother a ha.1]

/-- A copy that combines its elements in place (R148). -/
theorem writeElems_combine {c : CopyOp} {op : ROp} (hop : c.op = some op) (hf : shFormat c.dst ≠ .c4) {key : Nat → Nat}
    (hn : ((shBytes c.dst).map key).Nodup) {xs : List (Nat × Bool)} (hx : xs.length ≤ shCount c.dst) {w : Writes} (hm : w.s.mem.wf) :
    (∀ j y, xs[j]? = some y → elemVal (writeElems key c xs w).s.mem key c.dst j =
      op.apply (shFormat c.dst) (elemVal w.s.mem key c.dst j) y.1 % 2 ^ (8 * elemBytes (shFormat c.dst))) ∧
    ∀ a ∉ (shBytes c.dst).map key, (writeElems key c xs w).s.mem.byte a = w.s.mem.byte a := by
  have hsub : (xs.zipIdx.flatMap fun y => elemKeys key c.dst y.2).Sublist ((shBytes c.dst).map key) := by
    have h : (xs.zipIdx.flatMap fun y => elemKeys key c.dst y.2) = (List.range xs.length).flatMap (elemKeys key c.dst) := by
      rw [List.range_eq_range', ← List.zipIdx_map_snd 0 xs, List.flatMap_map]
    rw [h, map_shBytes]
    exact (List.range_sublist.2 hx).flatMap _
  have hw : writeElems key c xs w = xs.zipIdx.foldl (fun w y => w.combine (elemKeys key c.dst y.2) op (shFormat c.dst) y.1.1 y.1.2) w := by
    unfold writeElems
    rw [hop]
    rfl
  obtain ⟨hall, hrest⟩ := foldl_combine op (shFormat c.dst) hm (hn.sublist hsub)
  rw [hw]
  refine ⟨fun j y hj => ?_, fun a ha => hrest a fun h => ha (hsub.subset h)⟩
  have := hall (y, j) (List.mem_zipIdx_iff_getElem?.2 hj)
  rw [length_elemKeys] at this
  rw [elemVal_eq _ _ hf, elemVal_eq _ _ hf, this, Nat.pow_mul]

section Copies

variable {s : State} {t : Team} {id : Nat} {l : Scope} {u : Nat}

/-- The plain copies of an exchange are performed from sources as they stood before it, a later byte over an earlier one (R74, R75). -/
theorem exec_barrierExchange_plain (h : ExchangeDue s t id l u) (hs : s.ok) (hd : s.doneCopies = []) (hl : l ≠ .pod)
    (hr : exReds s t l u (s.unit id l u).step = []) (hlive : s.live = [])
    (hw : exchangeWaits s t l (exCopies s t l u (s.unit id l u).step) [] = false)
    (hc : ∀ x ∈ exCopies s t l u (s.unit id l u).step, Performable s t x.2)
    (hop : ∀ x ∈ exCopies s t l u (s.unit id l u).step, x.2.op = none)
    (peers : List PodPart) :
    ∃ t', exec (.barrierExchange id l u peers) s = .next t' ∧ ExchangeRan s t' id l u ∧
      (∀ a, t'.mem.byte a = maskedByte ((exCopies s t l u (s.unit id l u).step).flatMap fun x =>
        copyCells (destKey s t x.2) x.2 (sourceOf s t x.2).zipIdx) a (s.mem.byte a)) ∧
      ∀ x ∈ exCopies s t l u (s.unit id l u).step, lookup x.1 t'.copies = none ∧ (x.2.posted = none → ctrNone x.2.ctr = false →
        ∃ n, lookup n t'.incs = some ⟨x.2.who, ctrVt x.2.ctr, ctrOfs x.2.ctr, x.2.amount, x.2.diverted⟩) := by
  obtain ⟨hplaces, hmem, -, -, hall⟩ := foldl_performCopy (fun x hx => ⟨hc x hx, hop x hx⟩) (s.unit id l u).step l u (w := ⟨s, []⟩) (SamePlaces.refl t s) hs
  obtain ⟨m, ts, cp, ds, fr, is, hframe⟩ := hplaces.frame
  obtain ⟨t', he, hran, hm, hi, hgone⟩ := exec_barrierExchange_copies h hd hl hr hlive hw hc rfl (by rw [hframe]) peers
  refine ⟨t', he, hran, fun a => ?_, fun x hx => ⟨hgone _ (hall x hx).1, fun h0 h1 => ?_⟩⟩
  · rw [hm, hmem]
    exact byte_maskedMem hs _ a
  · rw [hi]
    exact (hall x hx).2 h0 h1

/-- A CPYA that an exchange performs alone combines its elements in place (R148). -/
theorem exec_barrierExchange_combine (h : ExchangeDue s t id l u) (hs : s.ok) (hd : s.doneCopies = []) (hl : l ≠ .pod)
    (hr : exReds s t l u (s.unit id l u).step = []) (hlive : s.live = []) {i : Nat} {c : CopyOp}
    (hcs : exCopies s t l u (s.unit id l u).step = [(i, c)]) (hw : exchangeWaits s t l [(i, c)] [] = false)
    (hc : Performable s t c) {op : ROp} (hop : c.op = some op) (h4 : shFormat c.dst ≠ .c4)
    (hn : ((shBytes c.dst).map (destKey s t c)).Nodup) (peers : List PodPart) :
    ∃ t', exec (.barrierExchange id l u peers) s = .next t' ∧ ExchangeRan s t' id l u ∧ lookup i t'.copies = none ∧
      (∀ j y, (sourceOf s t c)[j]? = some y → elemVal t'.mem (destKey s t c) c.dst j =
        op.apply (shFormat c.dst) (elemVal s.mem (destKey s t c) c.dst j) y.1 % 2 ^ (8 * elemBytes (shFormat c.dst))) ∧
      ∀ a, a ∉ (shBytes c.dst).map (destKey s t c) → t'.mem.byte a = s.mem.byte a := by
  obtain ⟨ts, ds, fr, is, hperf, -⟩ := performCopy_eq (w := ⟨s, []⟩) hc.checks hc.apart hc.clean (s.unit id l u).step l u i
  obtain ⟨t', he, hran, hm, -, hgone⟩ := exec_barrierExchange_copies h hd hl hr hlive (by rw [hcs]; exact hw)
    (fun x hx => by
      rw [hcs, List.mem_singleton] at hx
      subst hx
      exact hc)
    (w := performCopy t (s.unit id l u).step l u ⟨s, []⟩ (i, c, sourceOf s t c)) (by rw [hcs]; rfl) (by rw [hperf]) peers
  obtain ⟨hval, hrest⟩ := writeElems_combine hop h4 hn
    ((length_copySource hc.touched).1.trans_eq hc.count) (w := ⟨s, []⟩) hs
  rw [hperf] at hm hgone
  refine ⟨t', he, hran, hgone i (lookup_eraseAt_self _ _), fun j y hj => ?_, fun a ha => ?_⟩
  · rw [hm]
    exact hval j y hj
  · rw [hm]
    exact hrest a ha

end Copies

end Sys2Proof.Machine
end

section
/-! PROOF. The REDs of an exchange (R77): contributions merged by address. -/

namespace Sys2Proof.Machine

/-! ### REDs merged by address (R77) -/

namespace Contrib

variable {a b : Contrib}

theorem joins_iff : a.joins b = true ↔ a.key = b.key ∧ a.op = b.op ∧ a.ty = b.ty ∧ a.wd = b.wd := by
  simp [joins, and_assoc]

theorem joins_self (a : Contrib) : a.joins a = true := joins_iff.2 ⟨rfl, rfl, rfl, rfl⟩

theorem meets_iff : a.meets b = true ↔ a.key < b.key + redBytes b.ty b.wd ∧ b.key < a.key + redBytes a.ty a.wd := by
  simp [meets, State.overlap]

/-- What a contribution leaves of memory: at its address stands the merged value on what stood there before. -/
def reduce (root : Contrib → Option Nat) (before m : Memory) (c : Contrib) : Memory :=
  match root c with
  | some v => m.put c.key (bytesOf (redBytes c.ty c.wd) (redApply c.op c.ty c.wd (before.num c.key (redBytes c.ty c.wd)) v))
  | none => m

theorem wf_reduce {root : Contrib → Option Nat} {m : Memory} (hm : m.wf) (before : Memory) (c : Contrib) :
    (reduce root before m c).wf := by
  unfold reduce
  split
  · exact Memory.wf_put hm _ _
  · exact hm

theorem byte_reduce_outside {root : Contrib → Option Nat} {m : Memory} (hm : m.wf) (before : Memory) {c : Contrib} {x : Nat}
    (h : x < c.key ∨ c.key + redBytes c.ty c.wd ≤ x) : (reduce root before m c).byte x = m.byte x := by
  unfold reduce
  split
  · exact Memory.byte_put_outside hm (by rw [length_bytesOf]; exact h)
  · rfl

end Contrib

/-- Contributions whose bytes meet combine (R77). -/
def Agreeing (cs : List Contrib) : Prop := ∀ x ∈ cs, ∀ y ∈ cs, x.meets y = true → x.joins y = true

theorem clashes_eq_false {cs : List Contrib} (h : Agreeing cs) {c : Contrib} (hc : c ∈ cs) {a : Nat}
    (ha : a ∈ interval c.key (redBytes c.ty c.wd)) : clashes cs c a = false := by
  rw [mem_interval] at ha
  refine List.any_eq_false.2 fun x hx hcl => ?_
  simp only [Bool.and_eq_true, Bool.not_eq_true', decide_eq_true_eq] at hcl
  obtain ⟨⟨hj, h1⟩, h2⟩ := hcl
  have := h x hx c hc (Contrib.meets_iff.2 ⟨by omega, by omega⟩)
  rw [hj] at this
  cases this

theorem mixedReds_eq_nil {cs : List Contrib} (h : Agreeing cs) : mixedReds cs = [] :=
  List.filter_eq_nil_iff.2 fun _ hc hany => by
    obtain ⟨a, ha, hcl⟩ := List.any_eq_true.1 hany
    rw [clashes_eq_false h hc ha] at hcl
    cases hcl

/-- The addresses of some contributions are theirs, do not combine with one another, and each contribution combines with one. -/
theorem addresses_spec (cs : List Contrib) :
    (addresses cs).Pairwise (fun x y => x.joins y = false) ∧ (∀ a ∈ addresses cs, a ∈ cs) ∧
      ∀ c ∈ cs, ∃ a ∈ addresses cs, a.joins c = true := by
  have go (cs l : List Contrib) (hl : l.Pairwise fun x y => x.joins y = false) :
      let r := cs.foldl (fun l c => if l.any fun x => x.joins c then l else l ++ [c]) l
      r.Pairwise (fun x y => x.joins y = false) ∧ (∀ a ∈ l, a ∈ r) ∧ (∀ a ∈ r, a ∈ l ∨ a ∈ cs) ∧
        ∀ c ∈ cs, ∃ a ∈ r, a.joins c = true := by
    induction cs generalizing l with
    | nil => exact ⟨hl, fun _ ha => ha, fun _ ha => .inl ha, fun _ hc => nomatch hc⟩
    | cons c cs ih =>
      dsimp only
      rw [List.foldl_cons]
      by_cases hany : (l.any fun x => x.joins c) = true
      · rw [if_pos hany]
        obtain ⟨hp, hin, hout, hex⟩ := ih l hl
        obtain ⟨x, hx, hj⟩ := List.any_eq_true.1 hany
        exact ⟨hp, hin, fun a ha => (hout a ha).imp id (List.mem_cons_of_mem _),
          List.forall_mem_cons.2 ⟨⟨x, hin x hx, hj⟩, hex⟩⟩
      · rw [if_neg hany]
        have hc (x : Contrib) (hx : x ∈ l) : x.joins c = false :=
          Bool.eq_false_iff.2 fun hj => hany (List.any_eq_true.2 ⟨x, hx, hj⟩)
        obtain ⟨hp, hin, hout, hex⟩ := ih (l ++ [c])
          (List.pairwise_append.2 ⟨hl, List.pairwise_singleton _ _, fun x hx y hy => by rw [List.mem_singleton.1 hy]; exact hc x hx⟩)
        refine ⟨hp, fun a ha => hin a (List.mem_append_left _ ha), fun a ha => ?_,
          List.forall_mem_cons.2 ⟨⟨c, hin c (List.mem_append_right _ List.mem_cons_self), c.joins_self⟩, hex⟩⟩
        obtain h | h := hout a ha
        · exact (List.mem_append.1 h).imp id fun h => by rw [List.mem_singleton.1 h]; exact List.mem_cons_self
        · exact .inr (List.mem_cons_of_mem _ h)
  obtain ⟨hp, -, hout, hex⟩ := go cs [] .nil
  exact ⟨hp, fun a ha => (hout a ha).resolve_left (nomatch ·), hex⟩

/-- Values merged at places apart stand there afterwards, and no other byte changes. -/
theorem foldl_reduce (root : Contrib → Option Nat) (before : Memory) {as : List Contrib}
    (hp : as.Pairwise fun x y => x.meets y = false) {m : Memory} (hm : m.wf) :
    let m' := as.foldl (Contrib.reduce root before) m
    (∀ c ∈ as, ∀ v, root c = some v → m'.num c.key (redBytes c.ty c.wd) =
      redApply c.op c.ty c.wd (before.num c.key (redBytes c.ty c.wd)) v % 256 ^ redBytes c.ty c.wd) ∧
    ∀ x, (∀ c ∈ as, x < c.key ∨ c.key + redBytes c.ty c.wd ≤ x) → m'.byte x = m.byte x := by
  induction as generalizing m with
  | nil => exact ⟨fun _ hc => (nomatch hc), fun _ _ => rfl⟩
  | cons c as ih =>
    obtain ⟨hc, hp⟩ := List.pairwise_cons.1 hp
    obtain ⟨hval, hout⟩ := ih hp (Contrib.wf_reduce (root := root) hm before c)
    dsimp only
    rw [List.foldl_cons]
    refine ⟨List.forall_mem_cons.2 ⟨fun v hv => ?_, hval⟩, fun x hx => ?_⟩
    · have hlater : (as.foldl (Contrib.reduce root before) (Contrib.reduce root before m c)).num c.key (redBytes c.ty c.wd) =
          (Contrib.reduce root before m c).num c.key (redBytes c.ty c.wd) :=
        congrArg ofBytes (Memory.read_congr fun x h1 h2 => hout x fun d hd => by
          have := mt Contrib.meets_iff.2 (Bool.eq_false_iff.1 (hc d hd))
          omega)
      rw [hlater, Contrib.reduce, hv]
      exact Memory.num_put hm _ _ _
    · obtain ⟨h0, hr⟩ := List.forall_mem_cons.1 hx
      rw [hout x hr, Contrib.byte_reduce_outside hm before h0]

theorem reduceAll_eq {cs : List Contrib} (h : Agreeing cs) (id : Nat) (root : Contrib → Option Nat) (s : State) :
    reduceAll id cs root s = { s with mem := (addresses cs).foldl (Contrib.reduce root s.mem) s.mem } := by
  obtain ⟨-, hin, -⟩ := addresses_spec cs
  have hbad : ((addresses cs).flatMap fun c => (interval c.key (redBytes c.ty c.wd)).filter (clashes cs c)) = [] := by
    refine List.flatMap_eq_nil_iff.2 fun c hc => List.filter_eq_nil_iff.2 fun a ha => ?_
    rw [clashes_eq_false h (hin c hc) ha]
    exact Bool.false_ne_true
  have hfold (as : List Contrib) (m : Memory) (s : State) : as.foldl (fun s c =>
      match root c with
      | some v => s.update c.key (bytesOf (redBytes c.ty c.wd) (redApply c.op c.ty c.wd (m.num c.key (redBytes c.ty c.wd)) v))
      | none => s) s = { s with mem := as.foldl (Contrib.reduce root m) s.mem } := by
    induction as generalizing s with
    | nil => rfl
    | cons c as ih =>
      rw [List.foldl_cons, ih, List.foldl_cons]
      unfold Contrib.reduce
      cases root c with
      | none => rfl
      | some v => rfl
  unfold reduceAll
  dsimp only
  rw [hbad]
  exact hfold _ _ _

/-- Merged contributions: each address takes the value of its root on what stood there before, and no other byte changes. -/
theorem reduceAll_mem {cs : List Contrib} (h : Agreeing cs) (id : Nat) {root : Contrib → Option Nat}
    (hroot : ∀ a c : Contrib, a.joins c = true → root a = root c) {s : State} (hs : s.ok) :
    (∀ c ∈ cs, ∀ v, root c = some v → (reduceAll id cs root s).mem.num c.key (redBytes c.ty c.wd) =
      redApply c.op c.ty c.wd (s.mem.num c.key (redBytes c.ty c.wd)) v % 2 ^ (8 * redBytes c.ty c.wd)) ∧
    ∀ a, (∀ c ∈ cs, a < c.key ∨ c.key + redBytes c.ty c.wd ≤ a) → (reduceAll id cs root s).mem.byte a = s.mem.byte a := by
  obtain ⟨hp, hin, hex⟩ := addresses_spec cs
  obtain ⟨hval, hout⟩ := foldl_reduce root s.mem (as := addresses cs) (hp.imp_of_mem fun hx hy hj => Bool.eq_false_iff.2 fun hm => by
    rw [h _ (hin _ hx) _ (hin _ hy) hm] at hj
    cases hj) hs
  rw [reduceAll_eq h]
  refine ⟨fun c hc v hv => ?_, fun a ha => hout a fun c hc => ha c (hin c hc)⟩
  obtain ⟨a, ha, hj⟩ := hex c hc
  obtain ⟨hk, hop, hty, hwd⟩ := Contrib.joins_iff.1 hj
  have := hval a ha v ((hroot a c hj).trans hv)
  rw [hk, hop, hty, hwd] at this
  rw [Nat.pow_mul]
  exact this

/-- What a vtile contributes to an address is the same for every contribution to it. -/
theorem vtileVal_congr (cs : List Contrib) {a c : Contrib} (h : a.joins c = true) : vtileVal cs a = vtileVal cs c := by
  obtain ⟨hk, hop, hty, hwd⟩ := Contrib.joins_iff.1 h
  have hj (x : Contrib) : x.joins a = x.joins c := by
    unfold Contrib.joins
    rw [hk, hop, hty, hwd]
  funext lr
  unfold vtileVal
  simp only [hj, hop, hty, hwd]

theorem scopeVal_congr (t : Team) (l : Scope) (u : Nat) (cs : List Contrib) {a c : Contrib} (h : a.joins c = true) :
    scopeVal t (redApply a.op a.ty a.wd) (vtileVal cs a) l u = scopeVal t (redApply c.op c.ty c.wd) (vtileVal cs c) l u := by
  obtain ⟨-, hop, hty, hwd⟩ := Contrib.joins_iff.1 h
  rw [vtileVal_congr cs h, hop, hty, hwd]

theorem podVal_congr (t : Team) (cs : List Contrib) {a c : Contrib} (h : a.joins c = true) : podVal t cs a = podVal t cs c := by
  obtain ⟨-, hop, hty, hwd⟩ := Contrib.joins_iff.1 h
  unfold podVal
  rw [vtileVal_congr cs h, hop, hty, hwd]

theorem redStands_all {s : State} {t : Team} {l : Scope} {u k : Nat} {rs : List (Nat × RedOp)}
    (h : ∀ r ∈ rs, whyNot s t r.2.who.lrank r.2.d [] = none) : rs.foldl (redStands t l u k) ([], s) = (rs, s) := by
  have go (rs : List (Nat × RedOp)) (h : ∀ r ∈ rs, whyNot s t r.2.who.lrank r.2.d [] = none) (l₀ : List (Nat × RedOp)) :
      rs.foldl (redStands t l u k) (l₀, s) = (l₀ ++ rs, s) := by
    induction rs generalizing l₀ with
    | nil => rw [List.foldl_nil, List.append_nil]
    | cons r rs ih =>
      obtain ⟨hr, hrs⟩ := List.forall_mem_cons.1 h
      rw [List.foldl_cons, redStands, hr]
      dsimp only
      rw [ih hrs, List.append_assoc]
      rfl
  exact go rs h []

/-- The REDs that an exchange has performed are gone. -/
theorem foldl_redsEnd (rs : List (Nat × RedOp)) (s : State) :
    ∃ ts rds, rs.foldl (fun s r =>
        countAsync { s with reds := eraseAt r.1 s.reds } r.2.who r.2.d (shCount r.2.d * redBytes r.2.ty r.2.wd)) s =
      { s with teams := ts, reds := rds } ∧ (∀ i, lookup i s.reds = none → lookup i rds = none) ∧
      ∀ r ∈ rs, lookup r.1 rds = none := by
  induction rs generalizing s with
  | nil => exact ⟨_, _, rfl, fun _ h => h, fun _ hr => nomatch hr⟩
  | cons r rs ih =>
    obtain ⟨ts, h⟩ := countAsync_eq { s with reds := eraseAt r.1 s.reds } r.2.who r.2.d (shCount r.2.d * redBytes r.2.ty r.2.wd)
    obtain ⟨ts', rds, h', hkeep, hgone⟩ := ih { s with reds := eraseAt r.1 s.reds, teams := ts }
    have herase (i : Nat) (hi : i = r.1 ∨ lookup i s.reds = none) : lookup i (eraseAt r.1 s.reds) = none := by
      rw [lookup_eraseAt]
      split
      · rfl
      · next hne => exact hi.resolve_left hne
    rw [List.foldl_cons, h, h']
    exact ⟨_, _, rfl, fun i hi => hkeep i (herase i (.inr hi)), List.forall_mem_cons.2 ⟨hkeep _ (herase _ (.inl rfl)), hgone⟩⟩

/-- The REDs of an exchange, where those whose bytes meet combine. -/
theorem exchangeReds_eq {t : Team} {rs : List (Nat × RedOp)} {s : State}
    (h : Agreeing (rs.flatMap fun r => contribs s t r.1 r.2)) (l : Scope) (u : Nat) :
    ∃ ts rds, exchangeReds t l u rs s = { reduceAll t.teamid (rs.flatMap fun r => contribs s t r.1 r.2)
        (fun c => scopeVal t (redApply c.op c.ty c.wd) (vtileVal (rs.flatMap fun r => contribs s t r.1 r.2) c) l u) s with
      teams := ts, reds := rds } ∧ ∀ r ∈ rs, lookup r.1 rds = none := by
  unfold exchangeReds
  dsimp only
  rw [mixedReds_eq_nil h, List.foldl_nil]
  obtain ⟨ts, rds, he, -, hgone⟩ := foldl_redsEnd rs (reduceAll t.teamid (rs.flatMap fun r => contribs s t r.1 r.2)
    (fun c => scopeVal t (redApply c.op c.ty c.wd) (vtileVal (rs.flatMap fun r => contribs s t r.1 r.2) c) l u) s)
  exact ⟨ts, rds, he, hgone⟩

section Reds

variable {s : State} {t : Team} {id : Nat} {l : Scope} {u : Nat}

theorem exchange_reds (hl : l ≠ .pod) {k : Nat} (hc : exCopies s t l u k = []) (hlive : s.live = [])
    (hr : ∀ r ∈ exReds s t l u k, shSpace r.2.d ≠ 5 ∧ whyNot s t r.2.who.lrank r.2.d [] = none) :
    ∃ keys settled, exchange s t l u k = exchangeEnd s t l u k keys settled ⟨exchangeReds t l u (exReds s t l u k) s, []⟩ := by
  have h := exchange_eq s t l u k
  dsimp only at h
  rw [hc, if_neg hl, List.filter_nil, show exchangeSources s t [] = ([], s) from rfl] at h
  dsimp only at h
  rw [amoCells_of_live_nil hlive, commitAmos_nil, List.filter_eq_self.2 fun r hx => bne_iff_ne.2 (hr r hx).1,
    redStands_all fun r hx => (hr r hx).2] at h
  dsimp only at h
  rw [peerReds_nil] at h
  exact ⟨_, _, h⟩

/-- An exchange gives each address of its REDs of one operation and format the value of their tree (R77). -/
theorem exec_barrierExchange_reds (h : ExchangeDue s t id l u) (hs : s.ok) (hd : s.doneCopies = []) (hl : l ≠ .pod)
    (hc : exCopies s t l u (s.unit id l u).step = []) (hlive : s.live = [])
    (hw : exchangeWaits s t l [] (exReds s t l u (s.unit id l u).step) = false)
    (hr : ∀ r ∈ exReds s t l u (s.unit id l u).step, shSpace r.2.d ≠ 5 ∧ whyNot s t r.2.who.lrank r.2.d [] = none)
    {cs : List Contrib} (hcs : ((exReds s t l u (s.unit id l u).step).flatMap fun r => contribs s t r.1 r.2) = cs)
    (ha : Agreeing cs) (peers : List PodPart) :
    ∃ t', exec (.barrierExchange id l u peers) s = .next t' ∧ ExchangeRan s t' id l u ∧
      (∀ r ∈ exReds s t l u (s.unit id l u).step, lookup r.1 t'.reds = none) ∧
      (∀ c ∈ cs, ∀ v, scopeVal t (redApply c.op c.ty c.wd) (vtileVal cs c) l u = some v →
        t'.mem.num c.key (redBytes c.ty c.wd) =
          redApply c.op c.ty c.wd (s.mem.num c.key (redBytes c.ty c.wd)) v % 2 ^ (8 * redBytes c.ty c.wd)) ∧
      ∀ a, (∀ c ∈ cs, a < c.key ∨ c.key + redBytes c.ty c.wd ≤ a) → t'.mem.byte a = s.mem.byte a := by
  subst hcs
  have hx := exec_barrierExchange_due h (peers := peers) (fun hp => hl hp.1) (by rw [hc]; exact hw)
    (by rw [hc]; exact fun _ hx => nomatch hx)
  dsimp only at hx
  rw [if_neg fun hp => hl hp.1, if_neg fun hp => hl hp.1] at hx
  obtain ⟨keys, settled, hk⟩ := exchange_reds hl hc hlive hr
  obtain ⟨ts, rds, he, hgone⟩ := exchangeReds_eq (t := t) ha l u
  rw [hk, he] at hx
  obtain ⟨hran, hm, -, hreds, -⟩ := exchangeEnd_package hd h.teamid hl rfl keys settled
    (w := ⟨{ reduceAll t.teamid ((exReds s t l u (s.unit id l u).step).flatMap fun r => contribs s t r.1 r.2)
        (fun c => scopeVal t (redApply c.op c.ty c.wd)
          (vtileVal ((exReds s t l u (s.unit id l u).step).flatMap fun r => contribs s t r.1 r.2) c) l u) s with
      teams := ts, reds := rds }, []⟩) (by rw [reduceAll_eq ha])
  obtain ⟨hval, hout⟩ := reduceAll_mem ha t.teamid (fun a c hj => scopeVal_congr t l u _ hj) hs
  refine ⟨_, hx, hran, fun r hr => ?_, fun c hc v hv => ?_, fun a ha => ?_⟩
  · rw [hreds]
    exact hgone r hr
  · rw [hm]
    exact hval c hc v hv
  · rw [hm]
    exact hout a ha

end Reds

end Sys2Proof.Machine
end

section
/-! PROOF. The exchange of a pod (R63, R80, R81, R87, R199): what peers tell, its two passes, and their work. -/

namespace Sys2Proof.Machine

/-! ### What peers tell of a pod superstep (R63, R80, R81, R87) -/

theorem mem_hear_peers (p : Phase) (x : PodPart) :
    x ∈ (p.hear x).peers ∧ (∀ y ∈ (p.hear x).peers, y.pkg = x.pkg → y = x) ∧ (p.hear x).rop = p.rop.or x.rop := by
  refine ⟨List.mem_append_right _ List.mem_cons_self, fun y hy he => ?_, rfl⟩
  obtain h | h := List.mem_append.1 hy
  · exact absurd he (bne_iff_ne.1 (List.mem_filter.1 h).2)
  · exact List.mem_singleton.1 h

/-- A pod unit that hears one part. -/
theorem BarUnit.hear_one {t : Team} {b : BarUnit} {x : PodPart} (h1 : b.step ≤ x.step) (h2 : x.step ≤ b.step + 4)
    (h3 : (State.others t).contains x.pkg = true) (h4 : lookup x.pkg t.peersDown = none) :
    b.hear t [x] = { b with phases := insertAt x.step ((State.phase b x.step).hear x) b.phases } := by
  have hh : [x].filter (fun x => b.step ≤ x.step && x.step ≤ b.step + 4 && (State.others t).contains x.pkg &&
      (lookup x.pkg t.peersDown).isNone) = [x] := by
    refine List.filter_eq_self.2 fun y hy => ?_
    rw [List.mem_singleton.1 hy, h3, h4, decide_eq_true h1, decide_eq_true h2]
    rfl
  unfold BarUnit.hear
  dsimp only
  rw [hh]
  rfl

/-- A package notes what a peer tells; its exchange does not run while it has run or participants are due. -/
theorem exec_barrierExchange_hear {id : Nat} {x : PodPart} {s : State} {t : Team} (ht : s.team? id = some t)
    (h1 : (s.unit id .pod 0).step ≤ x.step) (h2 : x.step ≤ (s.unit id .pod 0).step + 4)
    (h3 : (State.others t).contains x.pkg = true) (h4 : lookup x.pkg t.peersDown = none) :
    let b := s.unit id .pod 0
    let b' := b.hear t [x]
    let p := State.phase b' b'.step
    (p.exchanged = true ∨ phaseFull t .pod 0 p p.peers = false) →
    exec (.barrierExchange id .pod 0 [x]) s = .next (s.putUnit id .pod 0 b') ∧ b'.step = b.step ∧
      x ∈ (State.phase b' x.step).peers ∧ (∀ y ∈ (State.phase b' x.step).peers, y.pkg = x.pkg → y = x) ∧
      (State.phase b' x.step).rop = (State.phase b x.step).rop.or x.rop := by
  intro b b' p hp
  have hb : b' = _ := BarUnit.hear_one h1 h2 h3 h4
  have hphase : State.phase b' x.step = (State.phase b x.step).hear x := by
    rw [hb, State.phase, lookup_insertAt_self]
    rfl
  refine ⟨?_, by rw [hb], hphase ▸ mem_hear_peers _ _⟩
  have hpeers : Scope.pod = .pod ∧ [x] ≠ [] := ⟨rfl, List.cons_ne_nil _ _⟩
  have hx : (p.exchanged || !phaseFull t .pod 0 p p.peers) = true := by
    obtain h | h := hp
    · rw [h]; rfl
    · rw [h, Bool.not_false, Bool.or_true]
  show execBarrierExchange id .pod 0 [x] s = _
  unfold execBarrierExchange
  rw [ht]
  dsimp only
  rw [show (!(t.unitsOf .pod).contains 0) = false from rfl, if_neg Bool.false_ne_true, if_pos hpeers,
    State.unit_putUnit_self]
  exact if_pos hx

section Pod

variable {s : State} {t : Team} {id : Nat}

theorem exchangeWaits_pod (h : s.heldEdge t.teamid = false) : exchangeWaits s t .pod [] [] = false := by
  unfold exchangeWaits
  rw [h]
  rfl

/-- What a pod exchange with no deferred work of its package comes to: it first says what it has sent, waits until its members have
said the same, and then runs (R80). -/
theorem exec_barrierExchange_pod (h : ExchangeDue s t id .pod 0) (hc : exCopies s t .pod 0 (s.unit id .pod 0).step = [])
    (hr : exReds s t .pod 0 (s.unit id .pod 0).step = []) (he : s.heldEdge id = false) :
    let b := s.unit id .pod 0
    let k := b.step
    let p := State.phase b k
    exec (.barrierExchange id .pod 0 []) s =
      if p.sent = false then .next (tellSent (s.putUnit id .pod 0 { b with phases := insertAt k { p with sent := true } b.phases })
        id k (State.others t))
      else if podReady s t p = false then .next s
      else .next (exchange s t .pod 0 k) := by
  intro b k p
  have hx := exec_barrierExchange_due h (peers := []) (fun hp => hp.2 rfl)
    (by rw [hc, hr]; exact exchangeWaits_pod (by rw [h.teamid]; exact he)) (by rw [hc]; exact fun _ hx => nomatch hx)
  dsimp only at hx
  rw [hc, List.filter_nil, List.foldl_nil, hr, List.filter_nil] at hx
  rw [hx]
  by_cases hs : p.sent = false
  · exact (if_pos ⟨rfl, hs⟩).trans (if_pos hs).symm
  · refine (if_neg fun h => hs h.2).trans (Eq.trans ?_ (if_neg hs).symm)
    by_cases hready : podReady s t p = false
    · exact (if_pos ⟨rfl, by rw [hready]; rfl⟩).trans (if_pos hready).symm
    · refine (if_neg fun h => hready ?_).trans (if_neg hready).symm
      simpa using h.2

/-- Work of a peer that this package admits to its pod exchange. -/
theorem mem_podWork {k : Nat} {w : PeerWork} (h : w ∈ podWork s t k) : w.team = t.teamid ∧ (workOf w k).isSome = true := by
  have hins (a : PeerWork) (l : List PeerWork) (x : PeerWork) (hx : x ∈ sortWork.ins k a l) : x = a ∨ x ∈ l := by
    induction l with
    | nil => exact .inl (List.mem_singleton.1 hx)
    | cons y l ih =>
      unfold sortWork.ins at hx
      dsimp only at hx
      split at hx
      · exact List.mem_cons.1 hx
      · obtain rfl | hx := List.mem_cons.1 hx
        · exact .inr List.mem_cons_self
        · exact (ih hx).imp_right (List.mem_cons_of_mem _)
  have hsort (l : List PeerWork) (hw : w ∈ sortWork k l) : w ∈ l := by
    induction l with
    | nil => exact hw
    | cons y l ih =>
      obtain rfl | hx := hins y (sortWork k l) w hw
      · exact List.mem_cons_self
      · exact List.mem_cons_of_mem _ (ih hx)
  have hm := (List.mem_filter.1 (hsort _ h)).2
  simp only [Bool.and_eq_true, beq_iff_eq] at hm
  exact ⟨hm.1.1, hm.1.2⟩

/-- An exchange that performs one peer's work alone. -/
theorem exchange_work {k : Nat} (hc : exCopies s t .pod 0 k = []) (hr : exReds s t .pod 0 k = []) (hlive : s.live = []) {w : PeerWork}
    (hw : podWork s t k = [w]) :
    ∃ keys settled, exchange s t .pod 0 k = exchangeEnd s t .pod 0 k keys settled
      (exchangeWrites t .pod 0 k [] [w] (peerReds t [w] s).1) := by
  have h := exchange_eq s t .pod 0 k
  dsimp only at h
  rw [hc, if_pos rfl, List.filter_nil, show exchangeSources s t [] = ([], s) from rfl] at h
  dsimp only at h
  rw [hr, hw, amoCells_of_live_nil hlive, commitAmos_nil, List.filter_nil, List.foldl_nil] at h
  dsimp only at h
  rw [exchangeReds_nil] at h
  exact ⟨_, _, h⟩

/-- The end of a pod exchange that has performed one peer's work. -/
theorem exchangeEnd_pod {before : State} (hd : before.doneCopies = []) (ht : t.teamid = id) {k : Nat}
    (hk : k = (before.unit id .pod 0).step) (keys settled : List Nat) {w : Writes} (hu : w.s.units = before.units) {x : PeerWork}
    (hp : w.s.peerWork = [x]) (hx : x.team = t.teamid) (hxk : (workOf x k).isSome = true) :
    let z := exchangeEnd before t .pod 0 k keys settled w
    ExchangeRan before z id .pod 0 ∧ z.mem = w.s.mem ∧ z.peerWork = [] ∧ z.outbox = w.s.outbox := by
  intro z
  obtain ⟨p, e, ks, cs, g, r, -, hz⟩ := exchangeEnd_eq hd t .pod 0 k keys settled w
  have hnone : (w.s.peerWork.filter fun x => x.team != t.teamid || (workOf x k).isNone) = [] := by
    rw [hp]
    refine List.filter_eq_nil_iff.2 fun y hy => ?_
    rw [List.mem_singleton.1 hy, hx, bne_self_eq_false, Bool.false_or, Option.isNone_eq_false_iff.2 hxk]
    exact Bool.false_ne_true
  dsimp only at hz
  rw [if_pos rfl, if_pos rfl, hnone, answerReads_of_none _ rfl] at hz
  rw [show z = _ from hz]
  refine ⟨exchangeRan_of_unit (n := keys.length) ?_, rfl, rfl, rfl⟩
  rw [ht, ← hk]
  refine (State.unit_putUnit_self _ _ _ _ _).trans ?_
  unfold State.unit
  rw [hu]

/-- The pod exchange that has run when the work of one peer is done, and answered. -/
structure WorkDone (s z : State) (id : Nat) (outbox : List Msg) : Prop where
  ran : ExchangeRan s z id .pod 0
  work : z.peerWork = []
  told : z.outbox = outbox

/-- A pod exchange that performs one peer's work alone (R63, R80): memory and the answer are those that the work leaves. -/
theorem exec_barrierExchange_work (h : ExchangeDue s t id .pod 0) (hd : s.doneCopies = [])
    (hc : exCopies s t .pod 0 (s.unit id .pod 0).step = []) (hr : exReds s t .pod 0 (s.unit id .pod 0).step = [])
    (he : s.heldEdge id = false) (hsent : (State.phase (s.unit id .pod 0) (s.unit id .pod 0).step).sent = true)
    (hready : podReady s t (State.phase (s.unit id .pod 0) (s.unit id .pod 0).step) = true) {w : PeerWork}
    (hp : s.peerWork = [w]) (hw : podWork s t (s.unit id .pod 0).step = [w]) (hlive : s.live = []) {z : Writes}
    (hz : exchangeWrites t .pod 0 (s.unit id .pod 0).step [] [w] (peerReds t [w] s).1 = z)
    {m : Memory} {o : List Msg} (hzs : z.s = { s with mem := m, outbox := o }) :
    ∃ t', exec (.barrierExchange id .pod 0 []) s = .next t' ∧ WorkDone s t' id o ∧ t'.mem = m := by
  have hx := exec_barrierExchange_pod h hc hr he
  dsimp only at hx
  rw [if_neg (by rw [hsent]; exact Bool.noConfusion), if_neg (by rw [hready]; exact Bool.noConfusion)] at hx
  obtain ⟨keys, settled, hk⟩ := exchange_work hc hr hlive hw
  obtain ⟨hteam, hwk⟩ := mem_podWork (s := s) (t := t) (w := w) (by rw [hw]; exact List.mem_cons_self)
  rw [hk, hz] at hx
  obtain ⟨hran, hm, hpw, ho⟩ := exchangeEnd_pod hd h.teamid rfl keys settled (w := z) (by rw [hzs]) (by rw [hzs]; exact hp) hteam hwk
  exact ⟨_, hx, ⟨hran, hpw, by rw [ho, hzs]⟩, by rw [hm, hzs]⟩

end Pod

/-- The peers' REDs of some work, performed and answered (R77). -/
theorem peerReds_eq (t : Team) (work : List PeerWork) (s : State) :
    let cs := (work.filter PeerWork.isRed).map fun w =>
      (w, requestSite s w.team w.quad w.hnd w.ofs w.kind, peerContribs s t w)
    let all := cs.flatMap fun c => c.2.2.getD []
    (peerReds t work s).1 = cs.foldl (fun s c =>
      s.reply c.1.src c.1.quad c.1.cls c.1.tag c.1.team c.2.1 (match c.2.2 with
        | none => .refused
        | some l => if l.any (mixedReds all).contains then .mixed else .done)) (reduceAll t.teamid all (podVal t all) s) :=
  rfl

theorem peerReds_of_isRed_false {w : PeerWork} (h : w.isRed = false) (t : Team) (s : State) : (peerReds t [w] s).1 = s := by
  rw [peerReds_eq, List.filter_eq_nil_iff.2 fun x hx => by rw [List.mem_singleton.1 hx, h]; exact Bool.false_ne_true]
  rfl

theorem exchangeWrites_one (t : Team) (k : Nat) (w : PeerWork) (s : State) :
    exchangeWrites t .pod 0 k [] [w] s = if w.isRed then ⟨s, []⟩ else performWork t ⟨s, []⟩ w := by
  unfold exchangeWrites
  rw [List.filter_singleton, w.writes_eq]
  cases w.isRed with
  | true => rfl
  | false => rfl

theorem peerContribs_of_isRed_false {w : PeerWork} (h : w.isRed = false) (s : State) (t : Team) : peerContribs s t w = none := by
  unfold PeerWork.isRed at h
  unfold peerContribs
  split
  · next hk => rw [hk] at h; cases h
  · rfl

/-- A peer's RED that its entry refuses changes nothing (R354). -/
theorem peerReds_refused {w : PeerWork} (h : w.isRed = true) {t : Team} {s : State} (hc : peerContribs s t w = none) :
    (peerReds t [w] s).1 = s.reply w.src w.quad w.cls w.tag w.team (requestSite s w.team w.quad w.hnd w.ofs w.kind) .refused := by
  rw [peerReds_eq, List.filter_eq_self.2 fun x hx => by rw [List.mem_singleton.1 hx, h]]
  rw [List.map_singleton, hc]
  rfl

/-- A peer's RED is performed as a whole and answered (R77). -/
theorem peerReds_done {w : PeerWork} (h : w.isRed = true) {t : Team} {s : State} {cs : List Contrib} (hc : peerContribs s t w = some cs)
    (ha : Agreeing cs) :
    (peerReds t [w] s).1 = (reduceAll t.teamid cs (podVal t cs) s).reply w.src w.quad w.cls w.tag w.team
      (requestSite s w.team w.quad w.hnd w.ofs w.kind) .done := by
  have hnone : (cs.any ([] : List Contrib).contains) = false := List.any_eq_false.2 fun _ _ => Bool.false_ne_true
  rw [peerReds_eq, List.filter_eq_self.2 fun x hx => by rw [List.mem_singleton.1 hx, h]]
  rw [List.map_singleton, hc, List.flatMap_singleton, Option.getD_some, mixedReds_eq_nil ha]
  exact congrArg _ (if_neg (Bool.eq_false_iff.1 hnone))

section Work

variable {s : State} {t : Team} {w : PeerWork}

/-- The mirror entry that a peer's work meets here. -/
abbrev workEntry (s : State) (t : Team) (w : PeerWork) : Option HEntry :=
  mirrorEntry s t w.hnd w.ofs (remoteNeeds w.kind).1 (remoteNeeds w.kind).2

/-- What a peer's work leaves where it is refused. -/
theorem work_refused (ht : s.team? w.team = some t) (he : workEntry s t w = none) (k : Nat) :
    (exchangeWrites t .pod 0 k [] [w] (peerReds t [w] s).1).s =
      s.reply w.src w.quad w.cls w.tag w.team (remoteSite s w.quad w.ofs (workEntry s t w)) .refused := by
  rw [exchangeWrites_one, he]
  cases hr : w.isRed with
  | true =>
    have hc : peerContribs s t w = none := by
      unfold peerContribs
      split
      · exact Option.map_eq_none_iff.2 he
      · rfl
    have hsite : requestSite s w.team w.quad w.hnd w.ofs w.kind = edgeSite w.quad := by
      unfold requestSite requestEntry
      rw [ht, Option.bind_some, show mirrorEntry s t w.hnd w.ofs (remoteNeeds w.kind).1 (remoteNeeds w.kind).2 = none from he]
      rfl
    rw [if_pos rfl, peerReds_refused hr hc, hsite]
    rfl
  | false =>
    rw [if_neg Bool.false_ne_true, peerReds_of_isRed_false hr, performWork]
    dsimp only
    rw [show mirrorEntry s t w.hnd w.ofs (remoteNeeds w.kind).1 (remoteNeeds w.kind).2 = none from he]
    rfl

/-- What a peer's write leaves (R75). -/
theorem work_write {h : HEntry} (he : workEntry s t w = some h) {n r o : Nat} {cs : List (Nat × Byte × Byte)}
    (hk : w.kind = .write n r o cs false) (k : Nat) :
    (exchangeWrites t .pod 0 k [] [w] (peerReds t [w] s).1).s =
      { s with mem := maskedMem (cs.map fun c => (h.key 0 (w.ofs + c.1), c.2)) s.mem
               outbox := (s.reply w.src w.quad w.cls w.tag w.team (remoteSite s w.quad w.ofs (workEntry s t w)) .done).outbox } := by
  have hr : w.isRed = false := by
    unfold PeerWork.isRed
    rw [hk]
  rw [exchangeWrites_one, he, hr, if_neg Bool.false_ne_true, peerReds_of_isRed_false hr, performWork]
  dsimp only
  rw [show mirrorEntry s t w.hnd w.ofs (remoteNeeds w.kind).1 (remoteNeeds w.kind).2 = some h from he, hk]
  dsimp only
  have hp := foldl_plain_s (fun c : Nat × Byte × Byte => (h.key 0 (w.ofs + c.1), c.2)) (fun _ => false) cs ⟨s, []⟩
  dsimp only at hp
  rw [hp, State.reply_eq, State.reply_eq]
  rfl

/-- What a peer's RED leaves (R77). -/
theorem work_red (ht : s.team? w.team = some t) {cs : List Contrib} (hc : peerContribs s t w = some cs) (ha : Agreeing cs) (k : Nat) :
    (exchangeWrites t .pod 0 k [] [w] (peerReds t [w] s).1).s =
      { s with mem := (reduceAll t.teamid cs (podVal t cs) s).mem
               outbox := (s.reply w.src w.quad w.cls w.tag w.team (remoteSite s w.quad w.ofs (workEntry s t w)) .done).outbox } := by
  have hr : w.isRed = true := by
    by_contra hn
    rw [peerContribs_of_isRed_false (Bool.eq_false_iff.2 hn)] at hc
    cases hc
  have hsite : requestSite s w.team w.quad w.hnd w.ofs w.kind = remoteSite s w.quad w.ofs (workEntry s t w) := by
    unfold requestSite requestEntry
    rw [ht]
    rfl
  rw [exchangeWrites_one, hr, if_pos rfl, peerReds_done hr hc ha, hsite, reduceAll_eq ha, State.reply_eq, State.reply_eq]
  rfl

end Work

/-- The pod exchange performs a peer's work, and answers it (R63, R80, R199). -/
theorem exec_barrierExchange_peerWork {s : State} {t : Team} {id : Nat} (h : ExchangeDue s t id .pod 0) (hs : s.ok)
    (hd : s.doneCopies = []) (hc : exCopies s t .pod 0 (s.unit id .pod 0).step = [])
    (hr : exReds s t .pod 0 (s.unit id .pod 0).step = []) (he : s.heldEdge id = false)
    (hsent : (State.phase (s.unit id .pod 0) (s.unit id .pod 0).step).sent = true)
    (hready : podReady s t (State.phase (s.unit id .pod 0) (s.unit id .pod 0).step) = true) {w : PeerWork}
    (hp : s.peerWork = [w]) (hw : podWork s t (s.unit id .pod 0).step = [w]) (hlive : s.live = []) :
    let answer (a : RemoteAns) : List Msg :=
      (s.reply w.src w.quad w.cls w.tag w.team (remoteSite s w.quad w.ofs (workEntry s t w)) a).outbox
    let done (t' : State) (a : RemoteAns) : Prop :=
      exec (.barrierExchange id .pod 0 []) s = .next t' ∧ WorkDone s t' id (answer a)
    (workEntry s t w = none → ∃ t', done t' .refused ∧ ∀ a, t'.mem.byte a = s.mem.byte a) ∧
    (∀ h n r o cs, workEntry s t w = some h → w.kind = .write n r o cs false → ∃ t', done t' .done ∧
      ∀ a, t'.mem.byte a = maskedByte (cs.map fun c => (h.key 0 (w.ofs + c.1), c.2)) a (s.mem.byte a)) ∧
    ∀ cs, peerContribs s t w = some cs → Agreeing cs → ∃ t', done t' .done ∧
      (∀ c ∈ cs, ∀ v, podVal t cs c = some v → t'.mem.num c.key (redBytes c.ty c.wd) =
        redApply c.op c.ty c.wd (s.mem.num c.key (redBytes c.ty c.wd)) v % 2 ^ (8 * redBytes c.ty c.wd)) ∧
      ∀ a, (∀ c ∈ cs, a < c.key ∨ c.key + redBytes c.ty c.wd ≤ a) → t'.mem.byte a = s.mem.byte a := by
  intro answer done
  have hteam : s.team? w.team = some t := by
    obtain ⟨hwt, -⟩ := mem_podWork (s := s) (t := t) (w := w) (by rw [hw]; exact List.mem_cons_self)
    rw [hwt, h.teamid]
    exact h.team
  have run {m : Memory} {o : List Msg}
      (hz : (exchangeWrites t .pod 0 (s.unit id .pod 0).step [] [w] (peerReds t [w] s).1).s = { s with mem := m, outbox := o }) :
      ∃ t', exec (.barrierExchange id .pod 0 []) s = .next t' ∧ WorkDone s t' id o ∧ t'.mem = m :=
    exec_barrierExchange_work h hd hc hr he hsent hready hp hw hlive rfl hz
  refine ⟨fun hnone => ?_, fun e n r o cs hsome hk => ?_, fun cs hcs ha => ?_⟩
  · obtain ⟨t', hx, hdone, hm⟩ := run (m := s.mem) (o := answer .refused) (by
      rw [work_refused hteam hnone]
      unfold answer
      rw [State.reply_eq])
    exact ⟨t', ⟨hx, hdone⟩, fun a => by rw [hm]⟩
  · obtain ⟨t', hx, hdone, hm⟩ := run (work_write hsome hk _)
    exact ⟨t', ⟨hx, hdone⟩, fun a => by rw [hm]; exact byte_maskedMem hs _ a⟩
  · obtain ⟨t', hx, hdone, hm⟩ := run (work_red hteam hcs ha _)
    obtain ⟨hval, hout⟩ := reduceAll_mem ha t.teamid (fun a c hj => podVal_congr t cs hj) hs
    exact ⟨t', ⟨hx, hdone⟩, fun c hc v hv => by rw [hm]; exact hval c hc v hv, fun a hb => by rw [hm]; exact hout a hb⟩

end Sys2Proof.Machine
end

section
/-! PROOF. The completion of a superstep (R18, R81, R90, R93): what leaves the superstep and the results of every unit as
they were, and O41. -/

namespace Sys2Proof.Machine

/-! ### What leaves the barrier units as they were -/

theorem State.foldl_units {α : Type} {f : State → α → State} (h : ∀ s a, (f s a).units = s.units) (l : List α) (s : State) :
    (l.foldl f s).units = s.units :=
  List.foldlRecOn (motive := fun z => z.units = s.units) l f rfl fun z hz a _ => (h z a).trans hz

theorem State.onTeam_units (s : State) (id : Nat) (f : Team → Team) : (s.onTeam id f).units = s.units := by
  unfold State.onTeam
  grind [State.putTeam_units]

theorem State.onVtile_units (s : State) (team lr : Nat) (f : Vtile → Vtile) : (s.onVtile team lr f).units = s.units := by
  unfold State.onVtile
  grind [State.putVtile_units]

theorem State.number_units (s : State) : (s.number).2.units = s.units := by
  unfold State.number
  grind []

theorem State.drew_units (s : State) (id n : Nat) : (s.drew id n).units = s.units := by
  unfold State.drew
  grind [State.onTeam_units]

theorem State.freeWord_units (s : State) (id : Nat) : (s.freeWord id).2.units = s.units := by
  unfold State.freeWord
  grind [State.drew_units]

theorem State.tellPeers_units (s : State) (team : Nat) (ps : List Nat) (m : Nat → Nat → Msg) :
    (s.tellPeers team ps m).units = s.units := by
  obtain ⟨_, h⟩ := s.tellPeers_eq team ps m
  rw [h]

theorem State.commit_units (s : State) (a : Nat) (bs : List Byte) : (s.commit a bs).units = s.units := by
  obtain ⟨_, _, h⟩ := s.commit_eq a bs
  rw [h]

theorem State.writeLive_units (s : State) (us : List Nat) (a : Nat) (bs : List Byte) : (s.writeLive us a bs).units = s.units := by
  obtain ⟨_, h⟩ := s.writeLive_eq us a bs
  rw [h]

theorem State.hbmPut_units (s : State) (a n v : Nat) : (s.hbmPut a n v).units = s.units := by
  unfold State.hbmPut
  grind [State.commit_units]

theorem State.orFstat_units (s : State) (id lr : Nat) (bits : Word) : (s.orFstat id lr bits).units = s.units := by
  unfold State.orFstat
  grind [State.putVtile_units, State.commit_units]

theorem State.clearFstat_units (s : State) (id lr : Nat) (bits : Word) : (s.clearFstat id lr bits).units = s.units := by
  unfold State.clearFstat
  grind [State.putVtile_units, State.commit_units]

theorem State.onRace_units (s : State) (id lr : Nat) (f : Races → Races) : (s.onRace id lr f).units = s.units := by
  unfold State.onRace
  grind [State.putVtile_units]

theorem State.trace_units (s : State) (tile lvt slot kind info data : Nat) :
    (s.trace tile lvt slot kind info data).units = s.units := by
  obtain ⟨_, _, _, _, _, _, h⟩ := s.trace_eq tile lvt slot kind info data
  rw [h]

theorem State.traceVt_units (s : State) (id lr slot kind info data : Nat) : (s.traceVt id lr slot kind info data).units = s.units := by
  unfold State.traceVt
  grind [State.trace_units]

theorem State.enqueue_units (s : State) (id : Nat) (q : QTarget) (r : BitVec 512) (seq prio : Nat) (save : Option Nat) (waiting : Bool) :
    (s.enqueue id q r seq prio save waiting).units = s.units := by
  unfold State.enqueue
  grind [State.putTeam_units, State.commit_units]

theorem State.spawnRec_units (s : State) (id : Nat) (r : BitVec 512) : (s.spawnRec id r).2.units = s.units := by
  unfold State.spawnRec
  grind [State.putTeam_units, State.enqueue_units]

theorem State.saveInto_units (s : State) (t : Team) (n : Nat) (k : Strand) (why : SaveWhy) :
    (s.saveInto t n k why).units = s.units := by
  unfold State.saveInto
  grind [State.onVtile_units, State.drew_units, State.commit_units]

theorem State.putDivEntry_units (s : State) (id lr : Nat) : (s.putDivEntry id lr).units = s.units := by
  unfold State.putDivEntry
  grind [State.hbmPut_units]

theorem State.appendLog_units (s : State) (id lr : Nat) (r : LogRec) : (s.appendLog id lr r).units = s.units := by
  unfold State.appendLog
  grind [State.putVtile_units, State.hbmPut_units, State.putDivEntry_units]

theorem State.imageFill_units (s : State) (t : Team) (lr n : Nat) (r : SReg) (v : Word) (psn : Bool) :
    (s.imageFill t lr n r v psn).units = s.units := by
  unfold State.imageFill
  grind [State.onVtile_units, State.commit_units]

theorem State.readyRecord_units (s : State) (id lr n : Nat) : (s.readyRecord id lr n).units = s.units := by
  unfold State.readyRecord
  grind [State.onTeam_units]

theorem State.imageBarrier_units (s : State) (t : Team) (lr n : Nat) (d ds : SReg) (v st : Word) :
    (s.imageBarrier t lr n d ds v st).units = s.units := by
  unfold State.imageBarrier
  grind [State.onVtile_units, State.commit_units, State.imageFill_units, State.readyRecord_units]

theorem State.statusFor_units (s : State) (id : Nat) (d ds : SReg) (st : Word) : (s.statusFor id d ds st).2.units = s.units := by
  unfold State.statusFor
  grind [State.freeWord_units]

theorem State.deliverBarrier_units (s : State) (id lr uid : Nat) (d ds : SReg) (v st : Word) :
    (s.deliverBarrier id lr uid d ds v st).units = s.units := by
  unfold State.deliverBarrier
  grind [State.putAt_units, State.appendLog_units, State.imageBarrier_units, State.statusFor_units]

theorem State.readyHandler_units (s : State) (id n : Nat) : (s.readyHandler id n).units = s.units := by
  unfold State.readyHandler
  grind [State.writeLive_units, State.spawnRec_units]

theorem State.writeFault_units (s : State) (id lr : Nat) (f : FaultRec) (src : Nat) :
    (s.writeFault id lr f src).2.units = s.units := by
  unfold State.writeFault
  grind [State.putTeam_units, State.commit_units, State.orFstat_units, State.readyHandler_units]

theorem State.refreshHeld_units (s : State) (id lr : Nat) : (s.refreshHeld id lr).units = s.units := by
  unfold State.refreshHeld
  grind [State.orFstat_units, State.clearFstat_units]

theorem State.startShadow_units (s : State) (tile : Nat) : (s.startShadow tile).units = s.units := by
  unfold State.startShadow
  grind [State.putAt_units, State.putTile_units, State.number_units]

theorem State.endShadow_units (s : State) (tile : Nat) (abandoned : Bool) : (s.endShadow tile abandoned).units = s.units := by
  unfold State.endShadow
  grind [State.dropAt_units, State.putTile_units, State.startShadow_units]

theorem State.meetMatch_units (s : State) (tile slot entry : Nat) (pc : Word) : (s.meetMatch tile slot entry pc).units = s.units := by
  unfold State.meetMatch
  grind [State.putTile_units, State.startShadow_units]

theorem State.afterIssue_units (s : State) (tile slot : Nat) : (s.afterIssue tile slot).units = s.units := by
  unfold State.afterIssue
  grind [State.putTile_units]

theorem advanceArrival_units (s : State) (k : Strand) (l : Scope) (n : Nat) : (advanceArrival s k l n).2.units = s.units := by
  unfold advanceArrival
  grind [State.onVtile_units]

theorem knowResult_units (s : State) (id lr uid : Nat) (l : Scope) (r : Result) : (knowResult s id lr uid l r).units = s.units := by
  unfold knowResult
  grind [State.onRace_units]

theorem imbalance_units (s : State) (t : Team) (id : Nat) (l : Scope) (u k : Nat) (a : Tally) (xbytes : Nat) :
    (imbalance s t id l u k a xbytes).units = s.units := by
  unfold imbalance
  grind [State.foldl_units, State.onTeam_units, State.onVtile_units, State.freeWord_units, State.commit_units]

theorem lowerTahead_units (s : State) (t : Team) (lr : Nat) : (lowerTahead s t lr).units = s.units := by
  unfold lowerTahead
  grind [State.foldl_units, State.putAt_units, State.onVtile_units, State.commit_units]

theorem deliverTo_units (s : State) (t : Team) (lr : Nat) (l : Scope) (k : Nat) (r : Result) :
    (deliverTo s t lr l k r).units = s.units := by
  unfold deliverTo
  grind [State.foldl_units, State.traceVt_units, State.deliverBarrier_units, knowResult_units]

theorem setSavedTahead_units (s : State) (t : Team) (lr n ta : Nat) : (setSavedTahead s t lr n ta).units = s.units := by
  unfold setSavedTahead
  grind [State.putVtile_units, State.commit_units]

theorem refreshPhases_units (s : State) (t : Team) (lr : Nat) : (refreshPhases s t lr).units = s.units := by
  unfold refreshPhases
  grind [State.commit_units]

/-! ### What leaves every unit's superstep and results as they were (R18, R93) -/

/-- What a unit has completed: its superstep counter and the results that it keeps. -/
def BarUnit.completed (b : BarUnit) : Nat × Table Result := (b.step, b.results)

/-- Every unit of a table has completed what `g` tells of its key. -/
def Completed (g : Nat → Nat × Table Result) (us : Table BarUnit) : Prop :=
  ∀ n, ((lookup n us).getD ⟨0, [], [], []⟩).completed = g n

theorem Completed.unit {g : Nat → Nat × Table Result} {s : State} (h : Completed g s.units) (id : Nat) (l : Scope) (u : Nat) :
    (s.unit id l u).completed = g (unitKey id l u) := h _

namespace State

variable {g : Nat → Nat × Table Result} {s : State}

theorem foldl_completed {α : Type} {f : State → α → State} (hf : ∀ s a, Completed g s.units → Completed g (f s a).units)
    (l : List α) {s : State} (h : Completed g s.units) : Completed g (l.foldl f s).units :=
  List.foldlRecOn (motive := fun s => Completed g s.units) l f h fun z hz a _ => hf z a hz

/-- A unit whose arrivals or stalls alone change. -/
theorem putUnit_completed (h : Completed g s.units) {id : Nat} {l : Scope} {u : Nat} {x : BarUnit}
    (hs : x.step = (s.unit id l u).step) (hr : x.results = (s.unit id l u).results) : Completed g (s.putUnit id l u x).units := by
  intro n
  rw [State.putUnit, lookup_insertAt]
  split
  · next hn =>
    rw [hn, ← h.unit id l u, Option.getD_some, BarUnit.completed, hs, hr]
    rfl
  · exact h n

theorem record_completed (h : Completed g s.units) (id : Nat) (l : Scope) (u k : Nat) (a : Arrival) (rop : BOp) (cnt : Nat) :
    Completed g (s.record id l u k a rop cnt).units := by
  unfold record
  extract_lets x p a' p' z
  have hz : Completed g z.units := putUnit_completed h rfl rfl
  split
  · rw [tellPeers_units]
    exact hz
  · exact hz

theorem forceVtile_completed (h : Completed g s.units) (t : Team) (id lr : Nat) (l : Scope) (code : BitVec 16) :
    Completed g (s.forceVtile t id lr l code).units := by
  unfold forceVtile
  grind [traceVt_units, onVtile_units, record_completed, putUnit_completed]

theorem forceTileAt_completed (h : Completed g s.units) (id lr uid k : Nat) : Completed g (s.forceTileAt id lr uid k).units := by
  rw [forceTileAt, traceVt_units]
  exact record_completed h _ _ _ _ _ _ _

theorem forceStrand_completed (h : Completed g s.units) (t : Team) (id lr uid ta : Nat) :
    Completed g (s.forceStrand t id lr uid ta).1.units := by
  unfold forceStrand
  grind [forceTileAt_completed, putUnit_completed]

theorem forceAll_completed (h : Completed g s.units) (t : Team) (id lr uid ta : Nat) :
    Completed g (s.forceAll t id lr uid ta).1.units := by
  unfold forceAll
  grind [forceStrand_completed, forceVtile_completed, foldl_completed]

theorem takeFault_completed (h : Completed g s.units) (tile slot : Nat) (k : Strand) (cause : Nat) (addr info word : Word)
    (extra : Bool) : Completed g (s.takeFault tile slot k cause addr info word extra).units := by
  unfold takeFault
  grind [forceAll_completed, trace_units, writeFault_units, endShadow_units, dropAt_units, saveInto_units, onVtile_units, putAt_units,
    orFstat_units, refreshHeld_units]

end State

section

variable {g : Nat → Nat × Table Result} {s : State}

theorem arrive_completed (h : Completed g s.units) (t : Team) (tile slot : Nat) (k : Strand) (l : Scope) (n : Nat) (what : StallKind)
    (rop : BOp) (cnt : Nat) (value : Word) (code : BitVec 16) (word : Word) :
    Completed g (arrive s t tile slot k l n what rop cnt value code word).units := by
  unfold arrive
  grind [State.record_completed, State.takeFault_completed, advanceArrival_units, State.trace_units, State.putAt_units]

theorem recordForced_completed (h : Completed g s.units) (t : Team) (l : Scope) (x : Stalled) :
    Completed g (recordForced s t l x).units := by
  unfold recordForced
  grind [State.forceStrand_completed, State.forceTileAt_completed, State.forceVtile_completed, State.putAt_units, setSavedTahead_units]

theorem recordLate_completed (h : Completed g s.units) (t : Team) (l : Scope) (u : Nat) (x : Stalled) (ptile slot : Nat) (k : Strand) :
    Completed g (recordLate s t l u x ptile slot k).units := by
  unfold recordLate
  grind [State.putUnit_completed, State.takeFault_completed, arrive_completed, State.putAt_units, State.meetMatch_units,
    State.afterIssue_units]

theorem recordStalled_completed (h : Completed g s.units) (t : Team) (l : Scope) (u : Nat) :
    Completed g (recordStalled s t l u).units := by
  unfold recordStalled
  grind [State.foldl_completed, State.putUnit_completed, recordForced_completed, recordLate_completed]

theorem forceLost_completed (h : Completed g s.units) (t : Team) (l : Scope) (u : Nat) : Completed g (forceLost s t l u).units := by
  unfold forceLost
  grind [State.foldl_completed, State.forceVtile_completed]

end

/-! ### Completion (R18, R81, R90, R93) -/

section Completion

variable {s : State} {t : Team} {id : Nat} {l : Scope} {u : Nat}

/-- What a completed superstep keeps (R93). -/
def completionResult (s : State) (t : Team) (l : Scope) (u : Nat) (b : BarUnit) : Result :=
  let p := State.phase b b.step
  { value := phaseRoot t l u p (p.rop.getD .none), status := statusWord (tally t l b b.step p s.now) b.step, time := s.now
    cycle := s.cycle.toNat, knows := (p.arrivals.flatMap (·.knows)).eraseDups }

/-- The unit once its superstep has completed. -/
def BarUnit.advanced (b : BarUnit) (r : Result) : BarUnit :=
  { b with step := b.step + 1, phases := eraseAt b.step b.phases
           results := insertAt b.step r (b.results.filter fun x => b.step < x.1 + 4) }

/-- What a completion does once the unit has advanced: the counters, the record and the results reach the strands, and arrivals that
stalled are recorded. -/
def completionEnd (id : Nat) (t : Team) (l : Scope) (u : Nat) (b : BarUnit) (now : Nat) (r : Result) (s : State) : State :=
  let k := b.step
  let p := State.phase b k
  let s := match l with
    | .tile => lowerTahead s t u
    | _ => s
  let s := imbalance s t id l u k (tally t l b k p now) (p.xbytes + if l = .pod then ((heard t p).map (·.xbytes)).sum else 0)
  let s := (t.members l u).foldl (fun s lr => s.onVtile id lr fun v =>
    { v with upds := v.upds.filter fun x => x.scope != l || k < x.step }) s
  let s := (t.members l u).foldl (fun s lr => deliverTo s t lr l k r) s
  let s := forceLost (recordStalled s t l u) t l u
  if l = .tile then refreshPhases s t u else s

/-- A completion that tells its peers what its exchange came to, and one that advances the superstep (R81, R90). -/
theorem exec_barrierCompletion (ht : s.team? id = some t) :
    let b := s.unit id l u
    let p := State.phase b b.step
    p.exchanged = true → (l = .pod → exCopies s t l u b.step = [] ∧ exReds s t l u b.step = []) →
    (l = .pod → p.told = false → exec (.barrierCompletion id l u) s = .next (tellDone s t b.step)) ∧
    ((l = .pod → p.told = true ∧ podAnswered t p = true) → canDeliver s t l u b.step = true → outerNow s t l u = false →
      exec (.barrierCompletion id l u) s = .next (completionEnd id t l u b s.now (completionResult s t l u b)
        (s.putUnit id l u (b.advanced (completionResult s t l u b))))) := by
  intro b p hx hpod
  have hleft : (l == .pod && (!(exCopies s t l u b.step).isEmpty || !(exReds s t l u b.step).isEmpty)) = false := by
    by_cases hl : l = .pod
    · obtain ⟨hc, hr⟩ := hpod hl
      rw [hc, hr]
      exact Bool.and_false _
    · rw [beq_eq_false_iff_ne.2 hl]
      rfl
  have hrun : (!p.exchanged || (l == .pod && (!(exCopies s t l u b.step).isEmpty || !(exReds s t l u b.step).isEmpty))) = false := by
    rw [hleft, hx]
    rfl
  refine ⟨fun hl htold => ?_, fun htold hcan hout => ?_⟩
  · show execBarrierCompletion id l u s = _
    unfold execBarrierCompletion
    rw [ht]
    exact (if_neg (Bool.eq_false_iff.1 hrun)).trans (if_pos ⟨hl, htold⟩)
  · have hnot : ¬ (l = .pod ∧ p.told = false) := fun h => by
      rw [(htold h.1).1] at h
      exact Bool.noConfusion h.2
    have hwait : ((l == .pod && !podAnswered t p) || !canDeliver s t l u b.step || outerNow s t l u) = false := by
      rw [hcan, hout]
      by_cases hl : l = .pod
      · rw [(htold hl).2]
        simp
      · rw [beq_eq_false_iff_ne.2 hl]
        rfl
    show execBarrierCompletion id l u s = _
    unfold execBarrierCompletion
    rw [ht]
    exact (if_neg (Bool.eq_false_iff.1 hrun)).trans ((if_neg hnot).trans (if_neg (Bool.eq_false_iff.1 hwait)))

/-- What follows an advance completes no superstep. -/
theorem completionEnd_completed {g : Nat → Nat × Table Result} (h : Completed g s.units) (b : BarUnit) (now : Nat) (r : Result) :
    Completed g (completionEnd id t l u b now r s).units := by
  unfold completionEnd
  extract_lets k p z₁ z₂ z₃ z₄ z₅
  have h₁ : z₁.units = s.units := by
    unfold z₁
    split
    · exact lowerTahead_units s t u
    · rfl
  have h₂ : z₂.units = z₁.units := imbalance_units z₁ t id l u k _ _
  have h₃ : z₃.units = z₂.units := State.foldl_units (fun z lr => State.onVtile_units z id lr _) _ _
  have h₄ : z₄.units = z₃.units := State.foldl_units (fun z lr => deliverTo_units z t lr l k r) _ _
  have h₅ : Completed g z₅.units := forceLost_completed (recordStalled_completed (by rw [h₄, h₃, h₂, h₁]; exact h) t l u) t l u
  split
  · rw [refreshPhases_units]
    exact h₅
  · exact h₅

/-- A completion advances the superstep counter and keeps the results (R18, R90, R93). -/
theorem completionEnd_unit (r : Result) :
    let b := s.unit id l u
    let z := completionEnd id t l u b s.now r (s.putUnit id l u (b.advanced r))
    (z.unit id l u).step = b.step + 1 ∧ lookup b.step (z.unit id l u).results = some r := by
  intro b z
  have h : Completed _ z.units := completionEnd_completed (g := fun n =>
    ((lookup n (s.putUnit id l u (b.advanced r)).units).getD ⟨0, [], [], []⟩).completed) (fun _ => rfl) b s.now r
  have hz : (z.unit id l u).completed = ((s.putUnit id l u (b.advanced r)).unit id l u).completed := h.unit id l u
  rw [State.unit_putUnit_self] at hz
  obtain ⟨hstep, hres⟩ := Prod.mk.inj hz
  exact ⟨hstep, by rw [hres]; exact lookup_insertAt_self _ _ _⟩

end Completion

/-! ### Phase roots (R90) -/

/-- The root of two arrivals of a tile barrier. -/
theorem phaseRoot_two {t : Team} {p : Phase} {x y : Arrival} (hp : p.arrivals = [x, y]) (hx : x.value.isSome) (hy : y.value.isSome) :
    phaseRoot t .tile 0 p .addI64 = x.value.getD 0 + y.value.getD 0 ∧
    phaseRoot t .tile 0 p .and = x.value.getD 0 &&& y.value.getD 0 ∧ phaseRoot t .tile 0 p .none = 0 := by
  obtain ⟨v, hv⟩ := Option.isSome_iff_exists.1 hx
  obtain ⟨w, hw⟩ := Option.isSome_iff_exists.1 hy
  have hvals (op : BOp) : (p.arrivals.filterMap fun a => a.value.map fun v => (a.who, bopOperand op v)) =
      [(x.who, bopOperand op v), (y.who, bopOperand op w)] := by
    rw [hp, List.filterMap_cons_some (by rw [hv]; rfl), List.filterMap_cons_some (by rw [hw]; rfl)]
    rfl
  unfold phaseRoot phaseVal
  simp only [hvals, hv, hw]
  exact ⟨rfl, rfl, trivial⟩

/-- Settles O41: an exchange that is due runs once and commits, copies and merges; a pod exchange runs in two passes and performs its
peers' work; a completion advances the superstep. -/
theorem barrierSteps : Obligations.BarrierSteps := by
  unfold Obligations.BarrierSteps
  intro masked due ran
  have dueOf {s : State} {t : Team} {id : Nat} {l : Scope} {u : Nat} (h : due s t id l u) :
      ExchangeDue s t id l u ∧ s.doneCopies = [] ∧ s.ok := by
    obtain ⟨ht, hid, hx, hf, hu, hd, hs⟩ := h
    exact ⟨⟨ht, hid, hx, hf, hu⟩, hd, hs⟩
  have ranOf {s t' : State} {id : Nat} {l : Scope} {u : Nat} (h : ExchangeRan s t' id l u) : ran s t' id l u :=
    ⟨h.step, h.exchanged, h.arrivals⟩
  refine ⟨?amos, ?copies, ?reds, ⟨?hear, ?pod⟩, ?completion, fun t p x y => phaseRoot_two⟩
  case amos =>
    intro id l u peers s t hl h k hc hr hn
    obtain ⟨hdue, hd, hs⟩ := dueOf h
    obtain ⟨t', hx, hran, hm, hlive⟩ := exec_barrierExchange_amos hdue hd hl hc hr peers
    obtain ⟨hin, hout, hno⟩ := commitAmos_unit hs hn t l u
    rw [← hm, ← hlive, hdue.teamid] at hin hout
    rw [← hm] at hno
    exact ⟨t', hx, ranOf hran, hin, hout, hno⟩
  case copies =>
    intro id l u peers s t hl h k cs xs key hr hlive _ hw _ hcs
    obtain ⟨hdue, hd, hs⟩ := dueOf h
    have perf (x : Nat × CopyOp) (hx : x ∈ cs) : Performable s t x.2 := by
      obtain ⟨hf, hcount, h5, htouch, hapart, hbad, hclean, htable⟩ := hcs x hx
      exact ⟨hf, h5, hcount, htouch, hapart, hbad, hclean, htable⟩
    refine ⟨fun hop => ?_, fun i c op hone hop h4 hn => ?_⟩
    · obtain ⟨t', hx, hran, hm, hgone⟩ := exec_barrierExchange_plain hdue hs hd hl hr hlive hw perf hop peers
      exact ⟨t', hx, ranOf hran, hm, hgone⟩
    · have hp : Performable s t c := perf (i, c) (by rw [hone]; exact List.mem_cons_self)
      obtain ⟨t', hx, hran, hgone, hval, hout⟩ := exec_barrierExchange_combine hdue hs hd hl hr hlive hone
        (by rw [← hone]; exact hw) hp hop h4 hn peers
      exact ⟨t', hx, ranOf hran, hgone, hval, hout⟩
  case reds =>
    intro id l u peers s t hl h k rs cs hc hlive hw hr ha
    obtain ⟨hdue, hd, hs⟩ := dueOf h
    obtain ⟨t', hx, hran, hrest⟩ := exec_barrierExchange_reds hdue hs hd hl hc hlive hw hr rfl ha peers
    exact ⟨t', hx, ranOf hran, hrest⟩
  case hear =>
    intro id x s t ht b b' p h1 h2 h3 h4
    exact exec_barrierExchange_hear ht h1 h2 h3 h4
  case pod =>
    intro id s t h b k p hc hr he
    obtain ⟨hdue, hd, hs⟩ := dueOf h
    have hpod := exec_barrierExchange_pod hdue hc hr he
    refine ⟨fun hsent => hpod.trans (if_pos hsent), fun hsent hready => ?_, ?_⟩
    · exact hpod.trans ((if_neg (ne_of_eq_of_ne hsent Bool.noConfusion)).trans (if_pos hready))
    · intro w hsent hready hp hw hlive _ e done
      obtain ⟨hrefused, hwrite, hred⟩ := exec_barrierExchange_peerWork hdue hs hd hc hr he hsent hready hp hw hlive
      have doneOf {t' : State} {a : RemoteAns} (hx : exec (.barrierExchange id .pod 0 []) s = .next t' ∧ WorkDone s t' id
          (s.reply w.src w.quad w.cls w.tag w.team (remoteSite s w.quad w.ofs (workEntry s t w)) a).outbox) : done t' a :=
        ⟨hx.1, ranOf hx.2.ran, hx.2.work, hx.2.told⟩
      refine ⟨fun hnone => ?_, fun g n o cs hsome hk => ?_, fun cs hcs ha => ?_⟩
      · obtain ⟨t', hx, hm⟩ := hrefused hnone
        exact ⟨t', doneOf hx, hm⟩
      · obtain ⟨t', hx, hm⟩ := hwrite g k n o cs hsome hk
        exact ⟨t', doneOf hx, hm⟩
      · obtain ⟨t', hx, hm⟩ := hred cs hcs ha
        exact ⟨t', doneOf hx, hm⟩
  case completion =>
    intro id l u s t ht _ b p hx hpod
    obtain ⟨htell, hrun⟩ := exec_barrierCompletion (u := u) ht hx hpod
    refine ⟨htell, fun htold hcan hout => ?_⟩
    obtain ⟨hstep, hres⟩ := completionEnd_unit (s := s) (t := t) (id := id) (l := l) (u := u) (completionResult s t l u b)
    exact ⟨_, _, hrun htold hcan hout, hstep, hres, rfl, rfl, rfl, rfl⟩

end Sys2Proof.Machine
end

section
/-! PROOF. CANCEL (R44, R319): how an instruction of a strand with a team runs its body, and O33. -/

namespace Sys2Proof.Machine

/-- An instruction of a strand whose team is there runs its body for that team. -/
theorem issue_withTeam {s : State} {k : Strand} {t : Team} {n : Names} (hk : Issues s k n) (ht : s.team? k.team = some t)
    (i : Instr) (e : Bool) (f : Strand → State → Team → Do State) :
    issue i e n (fun k s => withTeam s k (f k s)) s = settle s k ((encode i).getD 0) (f k.issuing s t) := by
  rw [issue_of_issues hk, withTeam, ht]

/-- The body of CANCEL for a ticket (R44). -/
theorem exec_cancel {f : DaS} {s : State} {k : Strand} {t : Team} (hk : Issues s k { src := [f.a], dst := [f.d] })
    (ht : s.team? k.team = some t) :
    exec (.cancel f) s = .next (settle s k ((encode (.cancel f)).getD 0) (do
      need (field (k.rd f.a).toNat 24 28 == 0) 0x02
      match cancelled t (k.rd f.a) with
      | some e => retire (s.putTeam k.team { t with queued := t.queued.filter (· != e) }) (k.issuing.wr f.d 0)
      | none => retire s (k.issuing.wr f.d 1))) :=
  congrArg Host.Outcome.next (issue_withTeam hk ht (.cancel f) f.e _)

/-- Settles O33: the reserved bits are looked at first; then the search of the queues decides which of two writes follows. -/
theorem cancelRecord : Obligations.CancelRecord := by
  unfold Obligations.CancelRecord
  intro f s k t hk ht w
  have hx := exec_cancel hk ht
  refine ⟨fun e h0 hc => ?found, fun h0 hc => ?missing, fun h0 => ?reserved⟩
  case found =>
    refine ⟨(k.issuing.wr f.d 0).next, ?_, wroteScalar_wr k f.d 0⟩
    rw [hx, beq_iff_eq.2 h0, hc]; rfl
  case missing =>
    refine ⟨(k.issuing.wr f.d 1).next, ?_, wroteScalar_wr k f.d 1⟩
    rw [hx, beq_iff_eq.2 h0, hc]; rfl
  case reserved =>
    rw [hx, beq_eq_false_iff_ne.2 h0]; rfl

end Sys2Proof.Machine
end

section
/-! PROOF. Live values under the operations of continuations (R36, R37, R71): which bytes a device write, a trace record and a write
to a join cell leave, and what a join cell reads after its writes. -/

namespace Sys2Proof

/-- Reading a table after keeping the entries whose keys pass a test. -/
theorem lookup_filter_key {α : Type} (p : Nat → Bool) (x : Nat) (l : List (Nat × α)) :
    lookup x (l.filter fun c => p c.1) = if p x then lookup x l else none := by
  induction l with
  | nil => exact (ite_self _).symm
  | cons c r ih =>
    obtain ⟨j, y⟩ := c
    by_cases hp : p j
    · rw [List.filter_cons_of_pos (p := fun c : Nat × α => p c.1) hp, lookup, lookup, ih]
      by_cases hj : j = x
      · subst hj; rw [if_pos rfl, if_pos rfl, if_pos hp]
      · rw [if_neg hj, if_neg hj]
    · rw [List.filter_cons_of_neg (p := fun c : Nat × α => p c.1) hp, ih, lookup]
      by_cases hj : j = x
      · subst hj; rw [if_neg hp, if_neg hp]
      · rw [if_neg hj]

end Sys2Proof

namespace Sys2Proof.Machine
namespace State

/-! ### Live bytes (R71) -/

theorem liveByte_congr {s t : State} (hm : t.mem = s.mem) (hl : t.live = s.live) (x : Nat) : t.liveByte x = s.liveByte x := by
  rw [liveByte, hm, hl, liveByte]

/-- A byte without a live value of its own reads as committed. -/
theorem liveByte_of_unlisted {s : State} {x : Nat} (h : lookup x s.live = none) : s.liveByte x = s.mem.byte x := by
  rw [liveByte, h]; rfl

theorem lookup_settleLive (s : State) (a n x : Nat) :
    lookup x (s.settleLive a n).live = if a ≤ x ∧ x < a + n then none else lookup x s.live := by
  unfold settleLive
  split
  · next h => rw [h]; exact (ite_self _).symm
  · refine (lookup_filter_key (fun y => !(decide (a ≤ y) && decide (y < a + n))) x s.live).trans ?_
    by_cases hx : a ≤ x ∧ x < a + n
    · rw [if_pos hx, decide_eq_true hx.1, decide_eq_true hx.2]; rfl
    · have hb : (decide (a ≤ x) && decide (x < a + n)) = false := by
        rw [← Bool.decide_and]; exact decide_eq_false hx
      rw [if_neg hx, hb]; rfl

/-- The live values after a commit: none are left of its range, and the others stay. -/
theorem lookup_live_commit (s : State) (a : Nat) (bs : List Byte) (x : Nat) :
    lookup x (s.commit a bs).live = if a ≤ x ∧ x < a + bs.length then none else lookup x s.live := by
  have h : (s.write a bs).live = s.live := by
    unfold write clearPoison
    split <;> rfl
  rw [commit, lookup_settleLive, h]

theorem liveByte_commit_outside {s : State} (h : s.ok) {a x : Nat} {bs : List Byte} (hx : x < a ∨ a + bs.length ≤ x) :
    (s.commit a bs).liveByte x = s.liveByte x := by
  have hl : lookup x (s.commit a bs).live = lookup x s.live := by
    rw [lookup_live_commit, if_neg (by omega)]
  rw [liveByte, hl, commit_byte h hx, liveByte]

/-- A commit within HBM leaves every live byte beyond it. -/
theorem liveByte_commit_hbm {s : State} (h : s.ok) {a n x : Nat} {bs : List Byte} (ha : hbmHas a n = true) (hn : bs.length = n)
    (hx : hbmSize ≤ x) : (s.commit (hbmKey a) bs).liveByte x = s.liveByte x := by
  have ha' : a + n ≤ hbmSize := of_decide_eq_true ha
  exact liveByte_commit_outside h (Or.inr (by unfold hbmKey; omega))

theorem liveByte_hbmPut {s : State} (h : s.ok) (a n v : Nat) {x : Nat} (hx : hbmSize ≤ x) :
    (s.hbmPut a n v).liveByte x = s.liveByte x := by
  unfold hbmPut
  split
  · next ha => exact liveByte_commit_hbm h ha (length_bytesOf n v) hx
  · rfl

theorem liveByte_hbmPuts {x : Nat} (hx : hbmSize ≤ x) (a : Nat × Nat → Nat) (l : List (Nat × Nat)) {s : State} (h : s.ok) :
    (l.foldl (fun s r => s.hbmPut (a r) 16 r.1) s).liveByte x = s.liveByte x := by
  induction l generalizing s with
  | nil => rfl
  | cons r l ih => exact (ih (hbmPut_ok h _ _ _)).trans (liveByte_hbmPut h _ _ _ hx)

/-- A trace record goes to HBM: live bytes beyond it stay (R256). -/
theorem liveByte_trace {s : State} (h : s.ok) (tile lvt slot kind info data : Nat) {x : Nat} (hx : hbmSize ≤ x) :
    (s.trace tile lvt slot kind info data).liveByte x = s.liveByte x := by
  have store {z : State} (hz : z.ok) : (z.storeTrace tile).liveByte x = z.liveByte x := liveByte_hbmPuts hx _ _ hz
  have flush {z : State} (hz : z.ok) : (z.flushTrace tile).liveByte x = z.liveByte x := by
    obtain ⟨c, hops, hc⟩ := z.cross_eq (traceHop tile) (z.traceWay tile).1 1 (z.traceWay tile).2
    unfold flushTrace
    extract_lets y held w u
    split
    · rfl
    · have hu : u.2 = { z with credits := c, hops := hops } := hc
      rw [hu]
      split
      · exact store (z := { z with credits := c, hops := hops }) hz
      · rfl
  unfold trace
  extract_lets y r lost
  split
  · exact flush (z := s.putTile tile (buffered y r lost)) h
  · rfl

theorem liveNum_congr {s t : State} {a n : Nat} (h : ∀ x, a ≤ x → x < a + n → t.liveByte x = s.liveByte x) :
    t.liveNum a n = s.liveNum a n := by
  unfold liveNum
  congr 1
  apply List.map_congr_left
  intro x hx
  obtain ⟨h1, h2⟩ := mem_interval.1 hx
  exact h x h1 h2

theorem liveNum_lt (s : State) (a n : Nat) : s.liveNum a n < 256 ^ n := by
  have h := ofBytes_lt ((interval a n).map s.liveByte)
  rwa [List.length_map, length_interval] at h

theorem liveByte_writeLive_of_le (s : State) (us : List Nat) {a x : Nat} (bs : List Byte) (h : a + bs.length ≤ x) :
    (s.writeLive us a bs).liveByte x = s.liveByte x := by
  induction bs generalizing s a with
  | nil => rfl
  | cons b bs ih =>
    rw [List.length_cons] at h
    refine (ih _ (by omega)).trans ?_
    have hx : x ≠ a := by omega
    unfold liveByte
    dsimp only
    split
    · rw [lookup_eraseAt_of_ne hx]
    · rw [lookup_insertAt_of_ne hx]

/-- The number of a range without live values, after a write in place. -/
theorem liveNum_update {s : State} (h : s.ok) {a n : Nat} (v : Nat) (hl : ∀ x, a ≤ x → x < a + n → lookup x s.live = none) :
    (s.update a (bytesOf n v)).liveNum a n = v % 256 ^ n := by
  have hb (x : Nat) (hx : x ∈ interval a n) : (s.update a (bytesOf n v)).liveByte x = (s.mem.put a (bytesOf n v)).byte x := by
    obtain ⟨h1, h2⟩ := mem_interval.1 hx
    exact liveByte_of_unlisted (hl x h1 h2)
  rw [liveNum, List.map_congr_left hb]
  exact Memory.num_put h a n v

theorem liveByte_update_outside {s : State} (h : s.ok) {a x : Nat} {bs : List Byte} (hx : x < a ∨ a + bs.length ≤ x) :
    (s.update a bs).liveByte x = s.liveByte x := by
  rw [liveByte, liveByte, update_mem, Memory.byte_put_outside h hx]; rfl

end State

/-! ### Join cells (R36 to R38) -/

/-- What a write to a join cell asks of the state: memory is canonical, and a tile-store cell has no live values of its own. -/
structure CellAt (s : State) (w : Word) (key : Nat) : Prop where
  ok : s.ok
  plain : awHnd w = 0 → ∀ x, key ≤ x → x < key + 16 → lookup x s.live = none

theorem cellWrite_eq (s : State) (t : Team) (lr : Nat) (w : Word) (a : Nat) (bs : List Byte) :
    ∃ m l, cellWrite s t lr w a bs = { s with mem := m, live := l } := by
  unfold cellWrite
  split
  · exact ⟨_, s.live, rfl⟩
  · obtain ⟨l, h⟩ := s.writeLive_eq [unitKey t.teamid .grp (t.unitOf .grp lr)] a bs
    exact ⟨s.mem, l, h⟩

namespace CellAt

variable {s : State} {w : Word} {key : Nat} (h : CellAt s w key) (t : Team) (lr : Nat)
include h

/-- Part of a cell reads as the number written there. -/
theorem liveNum_cellWrite {a n : Nat} (ha : key ≤ a) (hn : a + n ≤ key + 16) (v : Nat) :
    (cellWrite s t lr w a (bytesOf n v)).liveNum a n = v % 256 ^ n := by
  unfold cellWrite
  split
  · next hw => exact State.liveNum_update h.ok v fun x h1 h2 => h.plain hw x (by omega) (by omega)
  · exact State.liveNum_writeLive s _ a n v

theorem liveByte_cellWrite_outside {a x : Nat} {bs : List Byte} (hx : x < a ∨ a + bs.length ≤ x) :
    (cellWrite s t lr w a bs).liveByte x = s.liveByte x := by
  unfold cellWrite
  split
  · exact State.liveByte_update_outside h.ok hx
  · obtain hx | hx := hx
    · exact State.liveByte_writeLive_of_lt s _ bs hx
    · exact State.liveByte_writeLive_of_le s _ bs hx

theorem cellWrite (a : Nat) (bs : List Byte) : CellAt (cellWrite s t lr w a bs) w key where
  ok := cellWrite_ok h.ok t lr w a bs
  plain := fun hw => by
    have e : Machine.cellWrite s t lr w a bs = s.update a bs := if_pos hw
    rw [e]
    exact h.plain hw

theorem commit (a : Nat) (bs : List Byte) : CellAt (s.commit a bs) w key where
  ok := State.commit_ok h.ok a bs
  plain := fun hw x h1 h2 => by
    rw [State.lookup_live_commit, h.plain hw x h1 h2, ite_self]

theorem congr {u : State} (hm : u.mem = s.mem) (hl : u.live = s.live) : CellAt u w key where
  ok := State.ok_of_mem hm h.ok
  plain := fun hw => by rw [hl]; exact h.plain hw

/-! What COUNT and PARK read after one of them is written. -/

theorem cellCount_write_count (v : Nat) : cellCount (Machine.cellWrite s t lr w key (bytesOf 4 v)) key = v % 256 ^ 4 :=
  h.liveNum_cellWrite t lr (Nat.le_refl _) (by omega) v

theorem cellPark_write_count (v : Nat) : cellPark (Machine.cellWrite s t lr w key (bytesOf 4 v)) key = cellPark s key :=
  State.liveNum_congr fun _ h1 _ => h.liveByte_cellWrite_outside t lr (Or.inr (by rw [length_bytesOf]; omega))

theorem cellPark_write_park (v : Nat) : cellPark (Machine.cellWrite s t lr w (key + 8) (bytesOf 8 v)) key = v % 256 ^ 8 :=
  h.liveNum_cellWrite t lr (by omega) (by omega) v

theorem cellCount_write_park (v : Nat) : cellCount (Machine.cellWrite s t lr w (key + 8) (bytesOf 8 v)) key = cellCount s key :=
  State.liveNum_congr fun _ _ _ => h.liveByte_cellWrite_outside t lr (Or.inl (by omega))

end CellAt

/-- COUNT and PARK read the same in states with the same live bytes. -/
theorem cellCount_congr {s u : State} {key : Nat} (h : ∀ x, key ≤ x → u.liveByte x = s.liveByte x) :
    cellCount u key = cellCount s key :=
  State.liveNum_congr fun x h1 _ => h x h1

theorem cellPark_congr {s u : State} {key : Nat} (h : ∀ x, key ≤ x → u.liveByte x = s.liveByte x) :
    cellPark u key = cellPark s key :=
  State.liveNum_congr fun x h1 _ => h x (by omega)

theorem hbmSize_le_groupKey (g a : Nat) : hbmSize ≤ groupKey g a := by unfold groupKey hbmSize; omega

/-- A tile-store cell, or one in group SRAM, lies beyond HBM. -/
theorem hbmSize_le_cellKey {s : State} {t : Team} {w : Word} (h : checkAll s t [cellOpd w] = .ok ()) (ptile : Nat) :
    hbmSize ≤ cellKey s t ptile w := by
  unfold cellKey
  split
  · unfold storeKey hbmSize; omega
  · next hw =>
    obtain ⟨hall, -, -⟩ := checkAll_ok_iff.1 h
    obtain ⟨-, -, -, hm, -⟩ := hall (cellOpd w) (List.mem_singleton_self _)
    have hspace : (s.entry t (awHnd w)).space = 2 := by
      unfold chkMatch cellOpd wordOpd at hm
      rw [if_neg hw] at hm
      have h2 := need_ok_iff.1 hm
      simp at h2
      exact h2
    unfold HEntry.key
    rw [hspace]
    exact hbmSize_le_groupKey _ _

/-- A strand notes its operation on a cell: of the teams only the free values drawn change, and no strand does (R38). -/
theorem cellTouch_keeps (s : State) (k : Strand) (w : Word) (key : Nat) :
    (∀ i, ((cellTouch s k w key).team? i).map (fun T => { T with drawn := 0 }) = (s.team? i).map fun T => { T with drawn := 0 }) ∧
    (cellTouch s k w key).strands = s.strands ∧ (cellTouch s k w key).at_ = s.at_ ∧
    (awHnd w = 0 → (cellTouch s k w key).live = s.live) := by
  unfold cellTouch
  split
  · have n : Noted k.team k.lrank s (s.cellRace k (awOfs w)) := by
      unfold State.cellRace
      refine Noted.trans ?_ ((Noted.touchStore _ _ _ _ _).trans (Noted.noteRace _ _ _ _))
      split
      · split
        · exact Noted.freeKeys _ _ _ _ _
        · exact Noted.refl _ _ _
      · exact Noted.refl _ _ _
    have e := n.rest
    have hs := congrArg State.strands e
    have ha := congrArg State.at_ e
    have hl := congrArg State.live e
    exact ⟨n.teams, hs, ha, fun _ => hl⟩
  · next hw =>
    suffices h : ∃ m l p vs, s.noteUpdate k.team k.lrank ⟨.grp, s.levelStep k.team k.lrank 2, .amo, key, 16⟩ =
        { s with mem := m, live := l, poison := p, vtiles := vs } by
      obtain ⟨m, l, p, vs, h⟩ := h
      rw [h]
      exact ⟨fun _ => rfl, rfl, rfl, fun h0 => absurd h0 hw⟩
    unfold State.noteUpdate
    split
    · exact ⟨_, _, _, _, rfl⟩
    · extract_lets mixed z
      split
      · exact z.orFstat_eq _ _ _
      · exact ⟨_, _, _, _, rfl⟩

/-- A team after the note of an operation on a cell. -/
theorem team?_cellTouch {s : State} {id : Nat} {t : Team} (ht : s.team? id = some t) (k : Strand) (w : Word) (key : Nat) :
    ∃ d, (cellTouch s k w key).team? id = some { t with drawn := d } := by
  have h := (cellTouch_keeps s k w key).1 id
  rw [ht] at h
  cases hT : (cellTouch s k w key).team? id with
  | none => rw [hT] at h; cases h
  | some T =>
    rw [hT] at h
    have e : { T with drawn := 0 } = { t with drawn := 0 } := Option.some.inj h
    have e' := congrArg (fun x : Team => { x with drawn := T.drawn }) e
    exact ⟨T.drawn, congrArg some e'⟩

end Sys2Proof.Machine
end

section
/-! PROOF. JOIN and EXIT (R38, R41 to R43, R327, R338): what the decrement of a join cell comes to, and O32. -/

namespace Sys2Proof.Machine

/-! ### Trace records and the end of a strand (R34, R43, R256) -/

/-- A tile whose encoder is off writes no trace record. -/
theorem State.trace_untraced {s : State} (h : Untraced s) (lvt slot kind info data : Nat) :
    s.trace s.at_.1 lvt slot kind info data = s := by
  have hb : bit (s.tile s.at_.1).trctl.toNat 63 = false := by
    rw [← h, BitVec.getLsbD, Nat.testBit_eq_decide_div_mod_eq]; rfl
  unfold trace
  dsimp only
  rw [hb]; rfl

/-- Two states with the same teams and the same live bytes beyond HBM. -/
structure SameBeyond (s u : State) : Prop where
  teams : u.teams = s.teams
  live : ∀ x, hbmSize ≤ x → u.liveByte x = s.liveByte x

namespace SameBeyond

variable {s u v : State}

theorem trans (h : SameBeyond s u) (g : SameBeyond u v) : SameBeyond s v :=
  ⟨g.teams.trans h.teams, fun x hx => (g.live x hx).trans (h.live x hx)⟩

theorem team? (h : SameBeyond s u) (id : Nat) : u.team? id = s.team? id := by
  unfold State.team?
  rw [h.teams]

theorem cellCount (h : SameBeyond s u) {key : Nat} (hk : hbmSize ≤ key) : cellCount u key = cellCount s key :=
  cellCount_congr fun x hx => h.live x (by omega)

theorem cellPark (h : SameBeyond s u) {key : Nat} (hk : hbmSize ≤ key) : cellPark u key = cellPark s key :=
  cellPark_congr fun x hx => h.live x (by omega)

end SameBeyond

theorem State.sameBeyond_trace {s : State} (h : s.ok) (tile lvt slot kind info data : Nat) :
    SameBeyond s (s.trace tile lvt slot kind info data) where
  teams := by
    obtain ⟨m, l, p, x, c, hops, e⟩ := s.trace_eq tile lvt slot kind info data
    rw [e]
  live := fun _ => State.liveByte_trace h tile lvt slot kind info data

theorem State.at_trace (s : State) (tile lvt slot kind info data : Nat) :
    (s.trace tile lvt slot kind info data).at_ = s.at_ := by
  obtain ⟨m, l, p, x, c, hops, e⟩ := s.trace_eq tile lvt slot kind info data
  rw [e]

theorem endStrand_strand? (s : State) (k : Strand) (kind : Nat) : (endStrand s k kind).strand? = none := by
  have h : (endStrand s k kind).at_ = s.at_ := s.at_trace _ _ _ _ _ _
  unfold State.strand?
  rw [h]
  exact (State.strandAt_dropAt _ _ _ _ _).trans (if_pos rfl)

theorem endStrand_sameBeyond {s : State} (h : s.ok) (k : Strand) (kind : Nat) : SameBeyond s (endStrand s k kind) :=
  (s.sameBeyond_trace h s.at_.1 k.lrank s.at_.2 kind 0 k.pc.toNat).trans ⟨rfl, fun _ _ => rfl⟩

/-! ### The release of a parked record (R41, R42) -/

/-- Record `p`, parked on the cell at `key`, has left it: the cell is free, and the record has entered its queue, or waits in the
pool for room. -/
def Released (u : State) (id : Nat) (t : Team) (key : Nat) (p : Parked) : Prop :=
  cellCount u key = 0 ∧ cellPark u key = 0 ∧
  ((t.qFull p.target = false ∧
    ∃ T e, u.team? id = some T ∧ T.queued = t.queued ++ [e] ∧ e.record = p.record ∧ e.seq = p.seq ∧
      e.target = p.target ∧ ∀ x ∈ T.parked, x ∈ t.parked ∧ ¬(x.ticket = p.ticket ∧ x.released = none)) ∨
   (t.qFull p.target = true ∧
    ∃ T, u.team? id = some T ∧ T.queued = t.queued ∧ { p with released := some t.ord } ∈ T.parked))

theorem Released.of_sameBeyond {u v : State} {id : Nat} {t : Team} {key : Nat} {p : Parked} (h : Released u id t key p)
    (g : SameBeyond u v) (hk : hbmSize ≤ key) : Released v id t key p := by
  unfold Released
  rw [g.cellCount hk, g.cellPark hk, g.team? id]
  exact h

/-- The cell names a record of the pool that waits on it, and its queue lies in HBM. -/
structure Parks (s : State) (t : Team) (key : Nat) (p : Parked) : Prop where
  park : cellPark s key ≠ 0
  found : t.parked.find? (fun q => q.ticket == BitVec.ofNat 64 (cellPark s key) && q.released.isNone) = some p
  room : State.hbmHas (t.qAddr p.target + 64 * leastFree ((t.inQueue p.target).map (·.idx))) 64 = true

section Release

variable {s : State} {id : Nat} {t : Team} {d : Nat} {ticket : Word} {p : Parked} (h : s.ok)
  (ht : s.team? id = some { t with drawn := d })
  (hp : t.parked.find? (fun q => q.ticket == ticket && q.released.isNone) = some p)
  (hroom : State.hbmHas (t.qAddr p.target + 64 * leastFree ((t.inQueue p.target).map (·.idx))) 64 = true)
include ht hp

/-- The record enters its queue when that has room. -/
theorem State.release_room (hf : t.qFull p.target = false) : ∃ ts T e, T.queued = t.queued ++ [e] ∧ e.record = p.record ∧
    e.seq = p.seq ∧ e.target = p.target ∧ T.parked = t.parked.filter (fun x => !(x.ticket == ticket && x.released.isNone)) ∧
    lookup id ts = some T ∧ s.release id ticket =
      ({ s with teams := ts } : State).commit (hbmKey (t.qAddr p.target + 64 * leastFree ((t.inQueue p.target).map (·.idx))))
        (bytesOf 64 p.record.toNat) := by
  have hf' : ({ t with drawn := d } : Team).qFull p.target = false := hf
  unfold release
  rw [ht]
  dsimp only
  rw [hp]
  dsimp only
  rw [hf', if_neg Bool.false_ne_true]
  unfold onTeam
  rw [team?_putTeam_self]
  exact ⟨_, _, _, rfl, rfl, rfl, rfl, rfl, lookup_insertAt_self _ _ _, rfl⟩

/-- It waits in the pool while its queue is full. -/
theorem State.release_full (hf : t.qFull p.target = true) : ∃ ts T, T.queued = t.queued ∧
    T.parked = t.parked.map (fun x => if x.ticket == ticket && x.released.isNone then { x with released := some t.ord } else x) ∧
    lookup id ts = some T ∧ s.release id ticket = { s with teams := ts } := by
  have hf' : ({ t with drawn := d } : Team).qFull p.target = true := hf
  unfold release
  rw [ht]
  dsimp only
  rw [hp]
  dsimp only
  rw [hf', if_pos rfl]
  refine ⟨_, _, ?_, ?_, lookup_insertAt_self _ _ _, Eq.refl _⟩
  · rfl
  · rfl

include h hroom

/-- A release changes no strand and no live byte beyond HBM; its record leaves the pool for its queue, or waits there. -/
theorem State.release_released (key : Nat) (hk : hbmSize ≤ key) (hc : cellCount s key = 0) (h0 : cellPark s key = 0) :
    Released (s.release id ticket) id t key p ∧ (s.release id ticket).ok ∧ (s.release id ticket).at_ = s.at_ := by
  have hticket : p.ticket = ticket ∧ p.released = none := by
    have hx := List.find?_some hp
    rw [Bool.and_eq_true, beq_iff_eq, Option.isNone_iff_eq_none] at hx
    exact hx
  cases hf : t.qFull p.target with
  | false =>
    obtain ⟨ts, T, e, hq, hr, hs, hg, hparked, hT, hrel⟩ := State.release_room ht hp hf
    rw [hrel]
    obtain ⟨l, m, hcommit⟩ := State.commit_eq { s with teams := ts }
      (hbmKey (t.qAddr p.target + 64 * leastFree ((t.inQueue p.target).map (·.idx)))) (bytesOf 64 p.record.toNat)
    have hlive (x : Nat) (hx : key ≤ x) := State.liveByte_commit_hbm (s := { s with teams := ts }) h hroom
      (length_bytesOf 64 p.record.toNat) (Nat.le_trans hk hx)
    refine ⟨⟨(cellCount_congr hlive).trans hc, (cellPark_congr hlive).trans h0, Or.inl ⟨hf, T, e, ?_, hq, hr, hs, hg, ?_⟩⟩,
      State.commit_ok (s := { s with teams := ts }) h _ _, ?_⟩
    · rw [hcommit]; exact hT
    · intro x hx
      rw [hparked, List.mem_filter] at hx
      obtain ⟨hmem, hkeep⟩ := hx
      refine ⟨hmem, fun ⟨ha, hb⟩ => ?_⟩
      rw [ha, hticket.1, hb] at hkeep
      simp at hkeep
    · rw [hcommit]
  | true =>
    obtain ⟨ts, T, hq, hparked, hT, hrel⟩ := State.release_full ht hp hf
    rw [hrel]
    refine ⟨⟨hc, h0, Or.inr ⟨hf, T, hT, hq, ?_⟩⟩, h, rfl⟩
    rw [hparked, List.mem_map]
    refine ⟨p, List.mem_of_find?_eq_some hp, if_pos ?_⟩
    rw [hticket.1, hticket.2, beq_self_eq_true]; rfl

end Release

/-! ### The decrement of a cell (R41) -/

/-- What the statements ask of the cell that `w` names, before strand `k` operates on it. -/
structure PlainCell (s : State) (t : Team) (w : Word) (key : Nat) : Prop where
  live : awHnd w = 0 → ∀ a, key ≤ a → a < key + 16 → lookup a s.live = none
  ok : s.ok
  checked : checkAll s t [cellOpd w] = .ok ()
  aligned : chkCell w = .ok ()

section Decrement

variable {s : State} {k : Strand} {t : Team} {w : Word} {x : Nat}

theorem decrementCell_eq (hc : checkAll s t [cellOpd w] = .ok ()) (ha : chkCell w = .ok ()) :
    let key := cellKey s t s.at_.1 w
    let s₁ := cellTouch s k w key
    let n := cellCount s₁ key
    let u := cellWrite s₁ t k.lrank w key (bytesOf 4 (n - x))
    decrementCell k t w x s = (do
      need (x ≤ n) 0x68 w
      if n = x ∧ cellPark s₁ key ≠ 0 then
        .ok ((cellWrite u t k.lrank w (key + 8) (bytesOf 8 0)).release k.team (BitVec.ofNat 64 (cellPark s₁ key)))
      else .ok u) := by
  unfold decrementCell
  rw [hc, ha]
  rfl

/-- X above COUNT raises 0x68 with the cell. -/
theorem decrementCell_over (h : PlainCell s t w (cellKey s t s.at_.1 w))
    (hx : cellCount (cellTouch s k w (cellKey s t s.at_.1 w)) (cellKey s t s.at_.1 w) < x) :
    decrementCell k t w x s = .error (.fault 0x68 w 0) := by
  rw [decrementCell_eq h.checked h.aligned, decide_eq_false (Nat.not_le.2 hx)]
  rfl

/-- The state whose cell a decrement works on: a strand has noted its operation. -/
theorem cellAt_cellTouch {key : Nat} (h : PlainCell s t w key) : CellAt (cellTouch s k w key) w key where
  ok := cellTouch_ok h.ok k w key
  plain := fun hw => by
    rw [(cellTouch_keeps s k w key).2.2.2 hw]
    exact h.live hw

theorem count_sub_mod (s : State) (key x : Nat) : (cellCount s key - x) % 256 ^ 4 = cellCount s key - x :=
  Nat.mod_eq_of_lt (Nat.lt_of_le_of_lt (Nat.sub_le _ _) (s.liveNum_lt key 4))

/-- A decrement that releases nothing lowers COUNT and keeps PARK. -/
theorem decrementCell_lowers (h : PlainCell s t w (cellKey s t s.at_.1 w)) :
    let key := cellKey s t s.at_.1 w
    let s₁ := cellTouch s k w key
    x < cellCount s₁ key ∨ (x = cellCount s₁ key ∧ cellPark s₁ key = 0) →
    ∃ u, decrementCell k t w x s = .ok u ∧ u.ok ∧ u.at_ = s.at_ ∧ u.teams = s₁.teams ∧
      cellCount u key = cellCount s₁ key - x ∧ cellPark u key = cellPark s₁ key := by
  intro key s₁ hx
  have c : CellAt s₁ w key := cellAt_cellTouch h
  obtain ⟨m, l, hw⟩ := cellWrite_eq s₁ t k.lrank w key (bytesOf 4 (cellCount s₁ key - x))
  have hat : s₁.at_ = s.at_ := (cellTouch_keeps s k w key).2.2.1
  refine ⟨cellWrite s₁ t k.lrank w key (bytesOf 4 (cellCount s₁ key - x)), ?_, (c.cellWrite t k.lrank _ _).ok, ?_, ?_,
    (c.cellCount_write_count t k.lrank _).trans (count_sub_mod _ _ _), c.cellPark_write_count t k.lrank _⟩
  · have hle : x ≤ cellCount s₁ key := by omega
    have hno : ¬(cellCount s₁ key = x ∧ cellPark s₁ key ≠ 0) := by omega
    rw [decrementCell_eq h.checked h.aligned, decide_eq_true hle, need_true, do_bind]
    exact if_neg hno
  · rw [hw]; exact hat
  · rw [hw]

/-- A decrement to zero releases the record that is parked on the cell. -/
theorem decrementCell_releases (h : PlainCell s t w (cellKey s t s.at_.1 w)) (ht : s.team? k.team = some t) {p : Parked} :
    let key := cellKey s t s.at_.1 w
    let s₁ := cellTouch s k w key
    x = cellCount s₁ key → Parks s₁ t key p →
    ∃ u, decrementCell k t w x s = .ok u ∧ u.ok ∧ u.at_ = s.at_ ∧ Released u k.team t key p := by
  intro key s₁ hx hp
  have c : CellAt s₁ w key := cellAt_cellTouch h
  have hk : hbmSize ≤ key := hbmSize_le_cellKey h.checked _
  obtain ⟨d, hd⟩ := team?_cellTouch ht k w key
  have c₂ := c.cellWrite t k.lrank key (bytesOf 4 (cellCount s₁ key - x))
  have c₃ := c₂.cellWrite t k.lrank (key + 8) (bytesOf 8 0)
  have hcount := (c₂.cellCount_write_park t k.lrank 0).trans
    ((c.cellCount_write_count t k.lrank _).trans (count_sub_mod _ _ x))
  have hpark := c₂.cellPark_write_park t k.lrank 0
  obtain ⟨m, l, hw⟩ := cellWrite_eq s₁ t k.lrank w key (bytesOf 4 (cellCount s₁ key - x))
  obtain ⟨m', l', hw'⟩ := cellWrite_eq (cellWrite s₁ t k.lrank w key (bytesOf 4 (cellCount s₁ key - x))) t k.lrank w (key + 8)
    (bytesOf 8 0)
  have hat : s₁.at_ = s.at_ := (cellTouch_keeps s k w key).2.2.1
  obtain ⟨hrel, hok, hat'⟩ := State.release_released (t := t) (d := d) (p := p) c₃.ok (by rw [hw', hw]; exact hd) hp.found hp.room
    key hk (hcount.trans (by omega)) hpark
  refine ⟨_, ?_, hok, hat'.trans ?_, hrel⟩
  · rw [decrementCell_eq h.checked h.aligned, decide_eq_true (Nat.le_of_eq hx), need_true, do_bind]
    exact if_pos ⟨hx.symm, hp.park⟩
  · rw [hw', hw]; exact hat

end Decrement

/-! ### O32 -/

section JoinExit

variable {s : State} {k : Strand} {t : Team}

theorem exec_join {f : JoinS} (hk : Issues s k { src := [f.a] }) (ht : s.team? k.team = some t) :
    exec (.join f) s = .next (settle s k ((encode (.join f)).getD 0) (do
      let u ← decrementCell k t (k.rd f.a) f.x.toNat s
      retire u k.issuing)) :=
  congrArg Host.Outcome.next (issue_withTeam hk ht (.join f) f.e _)

variable (hk : Issues s k {}) (ht : s.team? k.team = some t)
include hk ht

theorem exec_exit : exec .exit s = .next (settle s k ((encode .exit).getD 0)
    (if s.at_.2 = 8 then .ok ((s.trace s.at_.1 k.lrank 8 6 0 k.pc.toNat).endShadow s.at_.1 false)
      else if k.jcell = 0 then .ok (endStrand s k 6)
      else do
        let u ← decrementCell k t k.jcell 1 s
        .ok (endStrand u k 6))) :=
  congrArg Host.Outcome.next (issue_withTeam hk ht .exit false _)

theorem exec_exit_cell (h8 : s.at_.2 ≠ 8) (hj : k.jcell ≠ 0) : exec .exit s = .next (settle s k ((encode .exit).getD 0) (do
    let u ← decrementCell k t k.jcell 1 s
    .ok (endStrand u k 6))) := by
  rw [exec_exit hk ht, if_neg h8, if_neg hj]

end JoinExit

/-- Settles O32: a decrement is refused, lowers the cell, or releases its record; JOIN then goes on, and EXIT ends its strand. -/
theorem joinAndExit : Obligations.JoinAndExit := by
  unfold Obligations.JoinAndExit
  intro plain releases parks
  have plainOf {s : State} {k : Strand} {t : Team} {w : Word} {key : Nat} (h : plain s k t w key) : PlainCell s t w key := by
    obtain ⟨hl, hok, -, hc, ha⟩ := h
    exact ⟨hl, hok, hc, ha⟩
  have parksOf {s₁ : State} {t : Team} {key : Nat} {p : Parked} (h : parks s₁ t key p) : Parks s₁ t key p :=
    ⟨h.1, h.2.1, h.2.2⟩
  refine ⟨?join, ?plainExit, ?exit, ?shadow⟩
  case join =>
    intro f s k t _ hk ht w key s₁ h
    have hx := exec_join hk ht
    refine ⟨fun hlow => ?_, fun p hz hp => ?_, fun hover => ?_⟩
    · obtain ⟨u, hu, -, -, hteams, hcount, hpark⟩ := decrementCell_lowers (plainOf h) hlow
      rw [hu] at hx
      exact ⟨_, hx, State.strand?_put _ _, hcount, hpark, hteams⟩
    · obtain ⟨u, hu, -, -, hrel⟩ := decrementCell_releases (plainOf h) ht hz (parksOf hp)
      rw [hu] at hx
      exact ⟨_, hx, State.strand?_put _ _, hrel⟩
    · rw [hx, decrementCell_over (plainOf h) hover]
      rfl
  case plainExit =>
    intro s k t hk ht h8 hj
    refine ⟨endStrand s k 6, ?_, endStrand_strand? s k 6, fun hu => ?_⟩
    · rw [exec_exit hk ht, if_neg h8, if_pos hj]; rfl
    · unfold endStrand
      rw [State.trace_untraced hu]
  case exit =>
    intro s k t hk ht h8 hj w key s₁ h
    have hx := exec_exit_cell hk ht h8 hj
    have hkey : hbmSize ≤ key := hbmSize_le_cellKey (plainOf h).checked _
    refine ⟨fun hlow => ?_, fun p hz hp => ?_, fun hover => ?_⟩
    · obtain ⟨u, hu, hok, -, hteams, hcount, hpark⟩ := decrementCell_lowers (x := 1) (plainOf h) (hlow.imp_right (And.imp_left Eq.symm))
      rw [hu] at hx
      have he := endStrand_sameBeyond hok k 6
      exact ⟨_, hx, endStrand_strand? _ _ _, (he.cellCount hkey).trans hcount, (he.cellPark hkey).trans hpark,
        he.teams.trans hteams⟩
    · obtain ⟨u, hu, hok, -, hrel⟩ := decrementCell_releases (plainOf h) ht hz.symm (parksOf hp)
      rw [hu] at hx
      exact ⟨_, hx, endStrand_strand? _ _ _, hrel.of_sameBeyond (endStrand_sameBeyond hok k 6) hkey⟩
    · rw [hx, decrementCell_over (plainOf h) (by rw [show cellCount _ _ = 0 from hover]; exact Nat.one_pos)]
      rfl
  case shadow =>
    intro s k t hk ht h8 hu
    rw [exec_exit hk ht, if_pos h8, State.trace_untraced hu]
    rfl

end Sys2Proof.Machine
end

section
/-! PROOF. SPAWN and SUSP (R31, R40, R42, R358, R361): what completing a record leaves of it, when a record is malformed, what the
queue and the pool then hold, and O31. -/

namespace Sys2Proof

/-! ### Fields above a field that is set (R3) -/

theorem setField_div (n lo len v : Nat) : setField n lo len v / 2 ^ (lo + len) = n / 2 ^ (lo + len) := by
  have digit (a b m : Nat) (hb : b < 2 ^ m) : (a * 2 ^ m + b) / 2 ^ m = a := by
    rw [Nat.add_comm, Nat.add_mul_div_right _ _ (Nat.two_pow_pos m), Nat.div_eq_of_lt hb, Nat.zero_add]
  have hn : (n / 2 ^ lo / 2 ^ len * 2 ^ len + field n lo len) * 2 ^ lo + n % 2 ^ lo = n := by
    rw [field, Nat.div_add_mod', Nat.div_add_mod']
  have hs : setField n lo len v = (n / 2 ^ lo / 2 ^ len * 2 ^ len + v % 2 ^ len) * 2 ^ lo + n % 2 ^ lo := by
    unfold setField
    rw [Nat.add_mul] at hn ⊢
    omega
  rw [hs, Nat.pow_add, ← Nat.div_div_eq_div_mul, digit _ _ _ (Nat.mod_lt _ (Nat.two_pow_pos lo)),
    digit _ _ _ (Nat.mod_lt _ (Nat.two_pow_pos len)), Nat.div_div_eq_div_mul]

/-- A field above the one that is set stays. -/
theorem field_setField_above {n lo len lo' len' v : Nat} (h : lo + len ≤ lo') :
    field (setField n lo len v) lo' len' = field n lo' len' := by
  have split (m : Nat) : m / 2 ^ lo' = m / 2 ^ (lo + len) / 2 ^ (lo' - (lo + len)) := by
    rw [Nat.div_div_eq_div_mul, ← Nat.pow_add, Nat.add_sub_cancel' h]
  unfold field
  rw [split, setField_div, ← split]

theorem setField_lt {n lo len v w : Nat} (hn : n < 2 ^ w) (hw : lo + len ≤ w) : setField n lo len v < 2 ^ w := by
  have hp : 2 ^ w = 2 ^ (w - (lo + len)) * 2 ^ (lo + len) := by rw [← Nat.pow_add, Nat.sub_add_cancel hw]
  rw [hp] at hn ⊢
  rw [← Nat.div_lt_iff_lt_mul (Nat.two_pow_pos _)] at hn ⊢
  rwa [setField_div]

end Sys2Proof

namespace Sys2Proof.Machine

/-! ### Completed records (R40) -/

theorem toNat_ofNat_setField {w lo len : Nat} (r : BitVec w) (v : Nat) (h : lo + len ≤ w) :
    (BitVec.ofNat w (setField r.toNat lo len v)).toNat = setField r.toNat lo len v := by
  rw [BitVec.toNat_ofNat, Nat.mod_eq_of_lt (setField_lt r.isLt h)]

theorem recBits_recSet {r : BitVec 512} {lo len lo' len' v : Nat} (h : lo + len ≤ lo') (hw : lo + len ≤ 512) :
    recBits (recSet r lo len v) lo' len' = recBits r lo' len' := by
  unfold recBits recSet
  rw [toNat_ofNat_setField r v hw, field_setField_above h]

/-- A record as SPAWN completes it: TEAM and SEQ are written. -/
def completedRec (t : Team) (r : BitVec 512) : BitVec 512 := recSet (recSet r 472 16 t.teamid) 448 24 t.takeSeq.1

/-- The ticket of a completed record (R40). -/
def ticketOf (t : Team) (r : BitVec 512) : Word := BitVec.ofNat 64 (recQs r * 2 ^ 62 + recHint r * 2 ^ 52 + t.takeSeq.1)

theorem recBits_completed (t : Team) (r : BitVec 512) {lo len : Nat} (h : 488 ≤ lo) :
    recBits (completedRec t r) lo len = recBits r lo len := by
  unfold completedRec
  rw [recBits_recSet (by omega) (by omega), recBits_recSet (by omega) (by omega)]

theorem recQs_completed (t : Team) (r : BitVec 512) : recQs (completedRec t r) = recQs r := recBits_completed t r (by omega)
theorem recHint_completed (t : Team) (r : BitVec 512) : recHint (completedRec t r) = recHint r := recBits_completed t r (by omega)
theorem recPrio_completed (t : Team) (r : BitVec 512) : recPrio (completedRec t r) = recPrio r := recBits_completed t r (by omega)

theorem recTarget_completed (t : Team) (r : BitVec 512) : recTarget t (completedRec t r) = recTarget t r := by
  unfold recTarget
  rw [recQs_completed, recHint_completed]

theorem ticketOf_completed (t : Team) (r : BitVec 512) : ticketOf t (completedRec t r) = ticketOf t r := by
  unfold ticketOf
  rw [recQs_completed, recHint_completed]

/-! ### Malformed records (R31) -/

/-- A record that R31 calls malformed; `len` is the length of the code handle's entry. -/
def Malformed (s : State) (t : Team) (r : BitVec 512) (len : Nat) : Prop :=
  recKind r ≠ 0 ∨ field r.toNat 488 2 ≠ 0 ∨ recQs r = 3 ∨ (recPin r = true ∧ recQs r ≠ 0) ∨ t.size ≤ recHint r ∨
    recCode r % 8 ≠ 0 ∨ len ≤ recCode r ∨ (recJcell r ≠ 0 ∧ recJcell r % 16 ≠ 0) ∨
    (recJcell r ≠ 0 ∧ recJcell r < 2 ^ 32 ∧ recPin r = false) ∨
    (2 ^ 32 ≤ recJcell r ∧ checkAll s t [wordOpd (BitVec.ofNat 64 (recJcell r)) 2 16 16 .wa] ≠ .ok ())

theorem jcellMalformed_iff (s : State) (t : Team) (r : BitVec 512) : jcellMalformed s t r = true ↔
    2 ^ 32 ≤ recJcell r ∧ checkAll s t [wordOpd (BitVec.ofNat 64 (recJcell r)) 2 16 16 .wa] ≠ .ok () := by
  have hdiv : (recJcell r / 2 ^ 32 != 0) = true ↔ 2 ^ 32 ≤ recJcell r := by
    rw [bne_iff_ne, ne_eq, Nat.div_eq_zero_iff]
    omega
  unfold jcellMalformed
  rw [Bool.and_eq_true, hdiv]
  cases checkAll s t [wordOpd (BitVec.ofNat 64 (recJcell r)) 2 16 16 .wa] with
  | ok u => cases u; simp
  | error e => simp

/-- The device's test finds every malformed record. -/
theorem accepted_false {s : State} {t : Team} {r : BitVec 512} {len : Nat} (h : Malformed s t r len) :
    (!recMalformed t r len && !jcellMalformed s t r) = false := by
  have hb : field r.toNat 488 2 = recBits r 488 2 := rfl
  have hdiv : recJcell r / 2 ^ 32 = 0 ↔ recJcell r < 2 ^ 32 := by rw [Nat.div_eq_zero_iff]; omega
  unfold Malformed at h
  rw [← jcellMalformed_iff, hb] at h
  rw [← Bool.not_or, Bool.not_eq_false', Bool.or_eq_true]
  unfold recMalformed
  simpa only [Bool.or_eq_true, Bool.and_eq_true, bne_iff_ne, beq_iff_eq, decide_eq_true_eq, Bool.not_eq_true', ne_eq, hdiv,
    or_assoc, and_assoc] using h

/-- A sequence that ends well: its first part does, and so does the rest. -/
theorem do_bind_ok {α β : Type} {x : Do α} {f : α → Do β} {b : β} (h : x >>= f = .ok b) : ∃ a, x = .ok a ∧ f a = .ok b := by
  cases x with
  | ok a => exact ⟨a, rfl, h⟩
  | error e => cases h

/-! ### Reading a record (R31, R40, R292) -/

section Read

variable {s : State} {t : Team} {a : Word}

theorem readRecord_malformed {cell : Option Word} {e : HEntry}
    (hc : checkAll s t ([codeOpd s t] ++ (cell.toList.map cellOpd) ++ [storeOpd a.toNat 64 8]) = .ok ())
    (hw : ∀ w, cell = some w → chkCell w = .ok ()) (hp : s.anyPoison (storeKey s.at_.1 a.toNat) 64 = false)
    (he : codeEntry s t a = .ok e) (hm : Malformed s t (BitVec.ofNat 512 (s.mem.num (storeKey s.at_.1 a.toNat) 64)) e.len) :
    readRecord s t a cell = .error (.fault 0x66 a 0) := by
  have hr := accepted_false hm
  unfold readRecord tileKey
  rw [hc, hp, he]
  simp only [do_bind]
  cases cell with
  | none => rw [hr, Bool.not_false, need_true, need_false]
  | some w =>
    have hcell := hw w rfl
    dsimp only
    rw [hcell, hr, Bool.not_false, need_true, need_false]

/-- The cell of a SUSP that reads its record passes the checks of R62 and R41. -/
theorem readRecord_cell {w : Word} {r : BitVec 512} (h : readRecord s t a (some w) = .ok r) :
    checkAll s t [cellOpd w] = .ok () ∧ chkCell w = .ok () := by
  unfold readRecord at h
  obtain ⟨u, hc, h⟩ := do_bind_ok h
  obtain ⟨u', hw, -⟩ := do_bind_ok h
  obtain ⟨hall, hrank, hofs⟩ := checkAll_ok_iff.1 hc
  refine ⟨checkAll_ok_iff.2 ⟨fun o ho => hall o ?_, hrank, hofs⟩, hw⟩
  rw [List.mem_singleton.1 ho]
  simp

end Read

/-! ### A record enters its queue, or the pool (R40, R42) -/

/-- A queue gets one entry, at its lowest free place; the team apart, only memory changes. -/
theorem State.enqueue_eq {s : State} {id : Nat} {t : Team} (ht : s.team? id = some t) (q : QTarget) (r : BitVec 512)
    (seq prio : Nat) (save : Option Nat) (waiting : Bool) : ∃ e T ts m l po,
    e = ⟨r, q, seq, t.ord, prio, save, waiting, s.queueClock t q, leastFree ((t.inQueue q).map (·.idx))⟩ ∧
    T = { t with queued := t.queued ++ [e], ord := t.ord + 1 } ∧ lookup id ts = some T ∧
    s.enqueue id q r seq prio save waiting = { s with teams := ts, mem := m, live := l, poison := po } := by
  unfold enqueue
  rw [ht]
  dsimp only
  generalize he : QEntry.mk r q seq t.ord prio save waiting (s.queueClock t q) (leastFree ((t.inQueue q).map (·.idx))) = e
  obtain ⟨l, po, h⟩ := (s.putTeam id { t with queued := t.queued ++ [e], ord := t.ord + 1 }).commit_eq
    (hbmKey (t.qAddr q + 64 * leastFree ((t.inQueue q).map (·.idx)))) (bytesOf 64 r.toNat)
  exact ⟨e, _, _, _, l, po, rfl, rfl, lookup_insertAt_self _ _ _, h⟩

section Enter

variable {s : State} {id : Nat} {t : Team} (ht : s.team? id = some t) (r : BitVec 512)
include ht

/-- SPAWN's record, completed, is the last of the queued ones; memory apart, only its team changes. -/
theorem spawnRec_eq : ∃ T e ts m l po, T.queued = t.queued ++ [e] ∧ T.parked = t.parked ∧ T.packet = t.packet ∧
    T.start = t.start ∧ e.record = completedRec t r ∧ e.target = recTarget t r ∧ e.seq = t.takeSeq.1 ∧ e.prio = min (recPrio r) t.prio ∧ e.save = none ∧
    lookup id ts = some T ∧ s.spawnRec id r =
      (ticketOf t r, { s with teams := ts, mem := m, live := l, poison := po }) := by
  have hs : s.spawnRec id r = (ticketOf t (completedRec t r), (s.putTeam id t.takeSeq.2).enqueue id
      (recTarget t (completedRec t r)) (completedRec t r) t.takeSeq.1 (min (recPrio (completedRec t r)) t.prio) none false) := by
    unfold State.spawnRec
    rw [ht]
    rfl
  obtain ⟨e, T, ts, m, l, po, he, hT, hts, h⟩ := State.enqueue_eq (State.team?_putTeam_self s id t.takeSeq.2)
    (recTarget t (completedRec t r)) (completedRec t r) t.takeSeq.1 (min (recPrio (completedRec t r)) t.prio) none false
  rw [h, ticketOf_completed] at hs
  refine ⟨T, e, ts, m, l, po, by rw [hT]; rfl, by rw [hT]; rfl, by rw [hT]; rfl, by rw [hT]; rfl, by rw [he], ?_, by rw [he], ?_, by rw [he], hts, hs⟩
  · rw [he]; exact recTarget_completed t r
  · rw [he]; exact congrArg (min · t.prio) (recPrio_completed t r)

/-- SUSP's record, completed, is the last of the pool, with its ticket. -/
theorem parkRec_eq (cell : Option Nat) : ∃ T p ts a bs, T.parked = t.parked ++ [p] ∧ T.queued = t.queued ∧
    p.record = completedRec t r ∧ p.target = recTarget t r ∧ p.seq = t.takeSeq.1 ∧ p.ticket = ticketOf t r ∧
    p.released = none ∧ p.cell = cell ∧ lookup id ts = some T ∧ parkRec s id r cell =
      (ticketOf t r, ({ s with teams := ts } : State).commit a bs) := by
  generalize hp : Parked.mk (completedRec t r) (recTarget t (completedRec t r)) t.takeSeq.1 t.ord
    (min (recPrio (completedRec t r)) t.prio) (ticketOf t (completedRec t r)) cell none (leastFree (t.parked.map (·.idx))) = p
  have hs : parkRec s id r cell = (ticketOf t (completedRec t r),
      (s.putTeam id { t.takeSeq.2 with parked := t.parked ++ [p], ord := t.ord + 1 }).commit
        (hbmKey (t.area + t.oPp + 64 * leastFree (t.parked.map (·.idx)))) (bytesOf 64 (completedRec t r).toNat)) := by
    unfold parkRec
    rw [ht, ← hp]
    rfl
  rw [ticketOf_completed] at hs
  refine ⟨{ t.takeSeq.2 with parked := t.parked ++ [p], ord := t.ord + 1 }, p, _, _, _, rfl, rfl, by rw [← hp], ?_, by rw [← hp], ?_,
    by rw [← hp], by rw [← hp], lookup_insertAt_self _ _ _, hs⟩
  · rw [← hp]; exact recTarget_completed t r
  · rw [← hp]; exact ticketOf_completed t r

end Enter

/-! ### O31 -/

section SpawnSusp

variable {s : State} {k : Strand} {t : Team}

/-- SPAWN once its record has been read (R40). -/
def spawnRead (s : State) (k : Strand) (t : Team) (d : SReg) (a : Word) (r : BitVec 512) : Do State := do
  need (!t.qFull (recTarget t r)) 0x67 a
  let p := s.spawnRec k.team r
  retire (p.2.trace s.at_.1 k.lrank s.at_.2 4 0 p.1.toNat) (k.wr d p.1)

theorem exec_spawn {f : SpawnS} (hk : Issues s k { src := [f.a], dst := [f.d] }) (ht : s.team? k.team = some t) :
    exec (.spawn f) s = .next (settle s k ((encode (.spawn f)).getD 0) (do
      let r ← readRecord s t (k.rd f.a + f.x.signExtend 64) none
      spawnRead s k.issuing t f.d (k.rd f.a + f.x.signExtend 64) r)) :=
  congrArg Host.Outcome.next (issue_withTeam hk ht (.spawn f) f.e _)

theorem spawnRead_full {a : Word} {r : BitVec 512} (d : SReg) (h : t.qFull (recTarget t r) = true) :
    spawnRead s k t d a r = .error (.fault 0x67 a 0) := by
  unfold spawnRead
  rw [h]
  rfl

/-- With room in its queue the record enters it, and the strand gets the ticket. -/
theorem spawnRead_queues {r : BitVec 512} (ht : s.team? k.team = some t) (d : SReg) (a : Word)
    (h : t.qFull (recTarget t r) = false) :
    ∃ z T e, spawnRead s k t d a r = .ok (State.put z (k.wr d (ticketOf t r)).next) ∧ z.team? k.team = some T ∧
      T.queued = t.queued ++ [e] ∧ e.target = recTarget t r ∧ e.seq = t.takeSeq.1 ∧ e.prio = min (recPrio r) t.prio ∧
      e.save = none ∧ e.record = completedRec t r ∧ T.parked = t.parked := by
  obtain ⟨T, e, ts, m, l, po, hq, hp, -, -, hrec, htarget, hseq, hprio, hsave, hT, hs⟩ := spawnRec_eq ht r
  refine ⟨(s.spawnRec k.team r).2.trace s.at_.1 k.lrank s.at_.2 4 0 (s.spawnRec k.team r).1.toNat, T, e, ?_, ?_, hq, htarget, hseq,
    hprio, hsave, hrec, hp⟩
  · unfold spawnRead
    rw [h, hs]
    rfl
  · obtain ⟨m', l', po', x, c, hops, htrace⟩ := State.trace_eq (s.spawnRec k.team r).2 s.at_.1 k.lrank s.at_.2 4 0
      (s.spawnRec k.team r).1.toNat
    unfold State.team?
    rw [htrace, hs]
    exact hT

/-- SUSP once its record has been read (R42). -/
def suspRead (s : State) (k : Strand) (t : Team) (w : Word) (r : BitVec 512) : Do State := do
  let key := cellKey s t s.at_.1 w
  let s₁ := cellTouch s k w key
  need (cellPark s₁ key == 0) 0x69 w
  if cellCount s₁ key = 0 then do
    need (!t.qFull (recTarget t r)) 0x67 w
    .ok (endStrand (cellWrite (s₁.spawnRec k.team r).2 t k.lrank w (key + 8) (bytesOf 8 0)) k 5)
  else do
    need (t.parked.length < t.ppCap) 0x67 w
    let p := parkRec s₁ k.team r (if awHnd w = 0 then none else some key)
    .ok (endStrand (cellWrite p.2 t k.lrank w (key + 8) (bytesOf 8 p.1.toNat)) k 5)

theorem exec_susp {f : SuspS} (hk : Issues s k { src := [f.a, f.b] }) (ht : s.team? k.team = some t) :
    exec (.susp f) s = .next (settle s k ((encode (.susp f)).getD 0) (do
      let r ← readRecord s t (k.rd f.b + f.x.signExtend 64) (some (k.rd f.a))
      suspRead s k.issuing t (k.rd f.a) r)) :=
  congrArg Host.Outcome.next (issue_withTeam hk ht (.susp f) f.e _)

variable {w : Word} {r : BitVec 512}

theorem suspRead_parked (h : cellPark (cellTouch s k w (cellKey s t s.at_.1 w)) (cellKey s t s.at_.1 w) ≠ 0) :
    suspRead s k t w r = .error (.fault 0x69 w 0) := by
  unfold suspRead
  dsimp only
  rw [beq_eq_false_iff_ne.2 h]
  rfl

theorem endStrand_teams (s : State) (k : Strand) (kind : Nat) : (endStrand s k kind).teams = s.teams := by
  obtain ⟨m, l, p, x, c, hops, e⟩ := s.trace_eq s.at_.1 k.lrank s.at_.2 kind 0 k.pc.toNat
  unfold endStrand
  rw [e]
  rfl

/-- With COUNT at zero the record of a SUSP enters its queue, and the strand ends. -/
theorem suspRead_queues (ht : s.team? k.team = some t) :
    let key := cellKey s t s.at_.1 w
    let s₁ := cellTouch s k w key
    cellPark s₁ key = 0 → cellCount s₁ key = 0 → t.qFull (recTarget t r) = false →
    ∃ u T e, suspRead s k t w r = .ok u ∧ u.strand? = none ∧ u.team? k.team = some T ∧ T.queued = t.queued ++ [e] ∧
      e.seq = t.takeSeq.1 ∧ e.target = recTarget t r := by
  intro key s₁ hfree hzero hroom
  obtain ⟨d, hd⟩ := team?_cellTouch ht k w key
  obtain ⟨T, e, ts, m, l, po, hq, -, -, -, -, htarget, hseq, -, -, hT, hs⟩ := spawnRec_eq hd r
  refine ⟨endStrand (cellWrite (s₁.spawnRec k.team r).2 t k.lrank w (key + 8) (bytesOf 8 0)) k 5, T, e, ?_, endStrand_strand? _ _ _,
    ?_, hq, hseq, htarget⟩
  · unfold suspRead
    dsimp only
    rw [beq_iff_eq.2 hfree, if_pos hzero, hroom]
    rfl
  · obtain ⟨m', l', hw⟩ := cellWrite_eq (s₁.spawnRec k.team r).2 t k.lrank w (key + 8) (bytesOf 8 0)
    unfold State.team?
    rw [endStrand_teams, hw, hs]
    exact hT

/-- With COUNT above zero it is parked on the cell, whose PARK is its ticket, and the strand ends. -/
theorem suspRead_parks (ht : s.team? k.team = some t) (h : PlainCell s t w (cellKey s t s.at_.1 w)) :
    let key := cellKey s t s.at_.1 w
    let s₁ := cellTouch s k w key
    cellPark s₁ key = 0 → cellCount s₁ key ≠ 0 → t.parked.length < t.ppCap →
    ∃ u T p, suspRead s k t w r = .ok u ∧ u.strand? = none ∧ u.team? k.team = some T ∧ T.parked = t.parked ++ [p] ∧
      T.queued = t.queued ∧ p.seq = t.takeSeq.1 ∧ p.target = recTarget t r ∧ p.record = completedRec t r ∧
      p.ticket = ticketOf t r ∧ p.released = none ∧ p.cell = (if awHnd w = 0 then none else some key) ∧
      cellPark u key = p.ticket.toNat := by
  intro key s₁ hfree hcount hpool
  obtain ⟨d, hd⟩ := team?_cellTouch ht k w key
  obtain ⟨T, p, ts, a, bs, hparked, hq, hrec, htarget, hseq, hticket, hrel, hcell, hT, hs⟩ :=
    parkRec_eq hd r (if awHnd w = 0 then none else some key)
  have hticket' : p.ticket = ticketOf t r := hticket
  have c : CellAt (({ s₁ with teams := ts } : State).commit a bs) w key :=
    ((cellAt_cellTouch h).congr (u := { s₁ with teams := ts }) rfl rfl).commit a bs
  have c' := c.cellWrite t k.lrank (key + 8) (bytesOf 8 p.ticket.toNat)
  refine ⟨endStrand (cellWrite (({ s₁ with teams := ts } : State).commit a bs) t k.lrank w (key + 8) (bytesOf 8 p.ticket.toNat)) k 5,
    T, p, ?_, endStrand_strand? _ _ _, ?_, hparked, hq, hseq, htarget, hrec, hticket', hrel, hcell, ?_⟩
  · unfold suspRead
    dsimp only
    rw [beq_iff_eq.2 hfree, if_neg hcount, decide_eq_true hpool, hs, hticket]
    rfl
  · obtain ⟨m', l', hw⟩ := cellWrite_eq (({ s₁ with teams := ts } : State).commit a bs) t k.lrank w (key + 8)
      (bytesOf 8 p.ticket.toNat)
    obtain ⟨l, po, hcommit⟩ := ({ s₁ with teams := ts } : State).commit_eq a bs
    unfold State.team?
    rw [endStrand_teams, hw, hcommit]
    exact hT
  · rw [(endStrand_sameBeyond c'.ok k 5).cellPark (hbmSize_le_cellKey h.checked _), c.cellPark_write_park]
    exact Nat.mod_eq_of_lt p.ticket.isLt

end SpawnSusp

/-- Settles O31: SPAWN and SUSP read their record, refuse a malformed one, and complete it; the cell of a SUSP decides between
its queue and the pool. -/
theorem spawnAndSuspend : Obligations.SpawnAndSuspend := by
  unfold Obligations.SpawnAndSuspend
  intro malformed
  refine ⟨?spawn, ?badSpawn, ?badSusp, ?susp⟩
  case spawn =>
    intro f s k t r hk ht a hr
    have hx : exec (.spawn f) s = .next (settle s k ((encode (.spawn f)).getD 0) (spawnRead s k.issuing t f.d a r)) := by
      rw [exec_spawn hk ht, hr, do_bind]
    refine ⟨fun hroom => ?_, fun hfull => ?_⟩
    · obtain ⟨z, T, e, hz, hrest⟩ := spawnRead_queues (k := k.issuing) ht f.d a hroom
      rw [hz, settle_ok] at hx
      exact ⟨_, _, T, e, hx, State.strand?_put _ _, wroteScalar_wr k f.d (ticketOf t r), hrest⟩
    · rw [hx, spawnRead_full f.d hfull]
      rfl
  case badSpawn =>
    intro f s k t e hk ht a key hc hp he hm
    rw [exec_spawn hk ht, readRecord_malformed (cell := none) hc (fun _ h => by cases h) hp he hm]
    rfl
  case badSusp =>
    intro f s k t e hk ht a key hc hw hp he hm
    rw [exec_susp hk ht, readRecord_malformed (cell := some (k.rd f.a)) hc (fun _ h => by cases h; exact hw) hp he hm]
    rfl
  case susp =>
    intro f s k t r hk ht w hr key s₁
    have hx : exec (.susp f) s = .next (settle s k ((encode (.susp f)).getD 0) (suspRead s k.issuing t w r)) := by
      rw [exec_susp hk ht, hr, do_bind]
    obtain ⟨hcell, halign⟩ := readRecord_cell hr
    refine ⟨fun hfree hzero hroom => ?_, fun hfree hcount hpool hlive hok => ?_, fun hparked => ?_⟩
    · obtain ⟨u, T, e, hu, hrest⟩ := suspRead_queues (k := k.issuing) (w := w) ht hfree hzero hroom
      rw [hu, settle_ok] at hx
      exact ⟨u, T, e, hx, hrest⟩
    · obtain ⟨u, T, p, hu, hrest⟩ := suspRead_parks (k := k.issuing) (w := w) ht ⟨hlive, hok, hcell, halign⟩ hfree hcount hpool
      rw [hu, settle_ok] at hx
      exact ⟨u, T, p, hx, hrest⟩
    · rw [hx, suspRead_parked (k := k.issuing) hparked]
      rfl

end Sys2Proof.Machine
end

section
/-! PROOF. AMOs, their fills, REDs and COLL.STAT at their homes (R37, R76, R83, R101, R210, R220, R307): what each step comes to, and
O43. -/

namespace Sys2Proof.Machine

/-! ### The account of a team (R262) -/

/-- An update that keeps the queues and the pool of every team. -/
structure KeepsQueues (s u : State) : Prop where
  team : ∀ id t, s.team? id = some t → ∃ T, u.team? id = some T ∧ T.queued = t.queued ∧ T.parked = t.parked

namespace KeepsQueues

theorem refl (s : State) : KeepsQueues s s := ⟨fun _ t h => ⟨t, h, rfl, rfl⟩⟩

theorem trans {s u v : State} (h : KeepsQueues s u) (g : KeepsQueues u v) : KeepsQueues s v := by
  refine ⟨fun id t ht => ?_⟩
  obtain ⟨T, hT, hq, hp⟩ := h.team id t ht
  obtain ⟨U, hU, hq', hp'⟩ := g.team id T hT
  exact ⟨U, hU, hq'.trans hq, hp'.trans hp⟩

theorem onTeam (s : State) (id : Nat) {f : Team → Team} (hf : ∀ t, (f t).queued = t.queued ∧ (f t).parked = t.parked) :
    KeepsQueues s (s.onTeam id f) := by
  unfold State.onTeam
  split
  · next t ht =>
    refine ⟨fun j u hu => ?_⟩
    rw [State.team?_putTeam]
    by_cases hj : j = id
    · subst hj
      obtain rfl : u = t := Option.some.inj (hu.symm.trans ht)
      exact ⟨f u, if_pos rfl, hf u⟩
    · exact ⟨u, (if_neg hj).trans hu, rfl, rfl⟩
  · exact refl s

theorem account (s : State) (id i n : Nat) : KeepsQueues s (s.account id i n) := by
  refine onTeam s id fun t => ?_
  dsimp only
  split
  · split
    · exact ⟨rfl, rfl⟩
    · exact ⟨rfl, rfl⟩
  · exact ⟨rfl, rfl⟩

theorem accountReplay (s : State) (id i kind n : Nat) (replay : Bool) : KeepsQueues s (s.accountReplay id i kind n replay) := by
  unfold State.accountReplay
  dsimp only
  split
  · exact (account _ _ _ _).trans (account _ _ _ _)
  · exact account _ _ _ _

end KeepsQueues

/-- A state whose links have other totals and other packets under way (R210). -/
abbrev State.linked (s : State) (c : Table Credit) (h : Table (List Nat)) : State := { s with credits := c, hops := h }

/-! ### An AMO at its home (R76, R307) -/

/-- Where the operand of an AMO lies. -/
abbrev amoKey (s : State) (t : Team) (o : AmoOp) : Nat := s.operandKey t o.who.lrank o.a (shOfs o.a)

/-- The barrier unit that an AMO counts for. -/
abbrev amoUnit (t : Team) (o : AmoOp) : Nat :=
  unitKey o.who.team (State.levelOf (shSpace o.a)) (t.unitOf (State.levelOf (shSpace o.a)) o.who.lrank)

/-- An AMO has updated the live value. -/
def amoWritten (s : State) (id : Nat) (t : Team) (o : AmoOp) : State :=
  ({ s with amos := eraseAt id s.amos } : State).writeLive [amoUnit t o] (amoKey s t o)
    (bytesOf (o.ty.bits / 8) (o.op.apply o.ty (s.liveNum (amoKey s t o) (o.ty.bits / 8)) o.v.toNat))

/-- ... and has released the record of its join cell (R37). -/
def amoReleased (s : State) (id : Nat) (t : Team) (o : AmoOp) : State :=
  if shSpace o.a = 2 then
    amoRelease (amoWritten s id t o) t (amoUnit t o) (amoKey s t o) (s.liveNum (amoKey s t o / 16 * 16) 4)
  else amoWritten s id t o

section Amo

variable {s : State} {id : Nat} {o : AmoOp} {t : Team} (ho : lookup id s.amos = some o) (ht : s.team? o.who.team = some t)
  (hfree : s.heldBack o.who.team o.who.tile = false ∨ s.acrossFabric o.who.team o.who.tile o.a = false)
  (hwhy : whyNot s t o.who.lrank o.a [(shOfs o.a, o.ty.bits / 8)] = none)
include ho ht hfree hwhy

/-- An AMO that has come to its home is performed there, and its fill sets out. -/
theorem exec_amoPerform_home (h5 : shSpace o.a ≠ 5) (hwait : mustWait s t o.a [(shOfs o.a, o.ty.bits / 8)] = false)
    (hc : (s.cross id (sitePath (tileSite o.who.tile) (s.homeSite (amoKey s t o))) 0 1).1 = true) :
    ∃ c h, exec (.amoPerform id) s = .next (sendFill
      (countAsync (amoReleased (s.linked c h) id t o) o.who o.a (o.ty.bits / 8)) o.who o.d
      (amoPut o.ty (s.liveNum (amoKey s t o) (o.ty.bits / 8))) (s.anyPoison (amoKey s t o) (o.ty.bits / 8))
      ((amoReleased (s.linked c h) id t o).homeSite (amoKey s t o))) := by
  obtain ⟨c, h, hs⟩ := s.cross_eq id (sitePath (tileSite o.who.tile) (s.homeSite (amoKey s t o))) 0 1
  have hcross : s.cross id (sitePath (tileSite o.who.tile) (s.homeSite (amoKey s t o))) 0 1 =
      (true, s.linked c h) := Prod.ext hc hs
  have hheld : (s.heldBack o.who.team o.who.tile && s.acrossFabric o.who.team o.who.tile o.a) = false := by
    obtain hf | hf := hfree
    · rw [hf, Bool.false_and]
    · rw [hf, Bool.and_false]
  refine ⟨c, h, ?_⟩
  show execAmoPerform id s = _
  unfold execAmoPerform
  rw [ho]
  dsimp only
  rw [ht]
  dsimp only
  rw [hheld, if_neg Bool.false_ne_true, hwhy]
  dsimp only
  rw [if_neg h5, hwait, if_neg Bool.false_ne_true, hcross]
  rfl

end Amo

theorem amoWritten_eq (s : State) (id : Nat) (t : Team) (o : AmoOp) :
    ∃ l, amoWritten s id t o = { s with amos := eraseAt id s.amos, live := l } :=
  State.writeLive_eq _ _ _ _

/-- A cell on which no record waits stays (R37). -/
theorem amoRelease_none {s : State} {t : Team} {key : Nat} (unit was : Nat)
    (h : ∀ p ∈ t.parked, p.cell ≠ some (key / 16 * 16) ∨ p.released.isSome) : amoRelease s t unit key was = s := by
  have hn : (t.parked.any fun p => p.cell == some (key / 16 * 16) && p.ticket.toNat == s.liveNum (key / 16 * 16 + 8) 8 &&
      p.released.isNone) = false := by
    rw [List.any_eq_false]
    intro p hp
    obtain hc | hr := h p hp
    · simp [hc]
    · simp [Option.isSome_iff_ne_none.1 hr]
  unfold amoRelease
  dsimp only
  rw [hn, if_neg fun hx => Bool.false_ne_true hx.2.2]

/-- The record that waits on a cell leaves it when its COUNT has come to zero (R37). -/
theorem amoRelease_some {s : State} {t : Team} {key : Nat} (unit : Nat) {was : Nat} {p : Parked} (hk : key % 16 = 0) (hw : was ≠ 0)
    (h0 : s.liveNum key 4 = 0) (hp : p ∈ t.parked) (hcell : p.cell = some key)
    (hticket : p.ticket.toNat = s.liveNum (key + 8) 8) (hrel : p.released = none) :
    amoRelease s t unit key was =
      (s.writeLive [unit] (key + 8) (bytesOf 8 0)).release t.teamid (BitVec.ofNat 64 (s.liveNum (key + 8) 8)) := by
  have hdiv : key / 16 * 16 = key := by omega
  have hy : (t.parked.any fun p => p.cell == some key && p.ticket.toNat == s.liveNum (key + 8) 8 && p.released.isNone) = true :=
    List.any_eq_true.2 ⟨p, hp, by rw [hcell, hticket, hrel]; simp⟩
  unfold amoRelease
  dsimp only
  rw [hdiv, hy, if_pos ⟨hw, h0, rfl⟩]

theorem sendFill_eq (s : State) (w : Issuer) {d : SReg} (v : Word) (psn : Bool) (home : Nat) (h : d ≠ 0) :
    sendFill s w d v psn home =
      { s with fresh := s.fresh + 1, fills := insertAt s.fresh ⟨w, d, v, psn, home⟩ s.fills } := by
  unfold sendFill
  rw [if_neg h]
  rfl

theorem sendFill_teams (s : State) (w : Issuer) (d : SReg) (v : Word) (psn : Bool) (home : Nat) :
    (sendFill s w d v psn home).teams = s.teams := by
  unfold sendFill
  split
  · rfl
  · rfl

/-- An AMO that releases no record changes the live value alone; its fill sets out with the old one. -/
theorem amo_performed {s : State} {id : Nat} {t : Team} {o : AmoOp} (hd : o.d ≠ 0) (hamo : o.ty.isAmo = true)
    (hcell : shSpace o.a = 2 → ∀ p ∈ t.parked, p.cell ≠ some (amoKey s t o / 16 * 16) ∨ p.released.isSome) (v : Word) (psn : Bool) :
    let key := amoKey s t o
    let n := o.ty.bits / 8
    let z := amoReleased s id t o
    let u := sendFill (countAsync z o.who o.a n) o.who o.d v psn (z.homeSite key)
    lookup id u.amos = none ∧ u.mem = s.mem ∧
      u.liveNum key n = o.op.apply o.ty (s.liveNum key n) o.v.toNat % 2 ^ o.ty.bits ∧
      lookup s.fresh u.fills = some ⟨o.who, o.d, v, psn, s.homeSite key⟩ := by
  intro key n z u
  have hz : z = amoWritten s id t o := by
    unfold z amoReleased
    split
    · next h2 => exact amoRelease_none _ _ (hcell h2)
    · rfl
  obtain ⟨l, hl⟩ := amoWritten_eq s id t o
  obtain ⟨ts, hts⟩ := countAsync_eq z o.who o.a n
  have hu : u = { s with
      amos := eraseAt id s.amos, live := l, teams := ts, fresh := s.fresh + 1
      fills := insertAt s.fresh ⟨o.who, o.d, v, psn, s.homeSite key⟩ s.fills } := by
    unfold u
    rw [sendFill_eq _ _ _ _ _ hd, hts, hz, hl]
    rfl
  have hnum : (amoWritten s id t o).liveNum key n = o.op.apply o.ty (s.liveNum key n) o.v.toNat % 2 ^ o.ty.bits :=
    (State.liveNum_writeLive _ _ _ _ _).trans (by rw [Fmt.two_pow_bits_of_isAmo hamo])
  rw [hl] at hnum
  rw [hu]
  exact ⟨lookup_eraseAt_self _ _, rfl, hnum, lookup_insertAt_self _ _ _⟩

/-- An AMO that brings COUNT to zero releases the record that is parked on the cell (R37). -/
theorem amo_releases {s : State} {id : Nat} {t : Team} {o : AmoOp} {p : Parked} (ht : s.team? o.who.team = some t)
    (hid : t.teamid = o.who.team) (h2 : shSpace o.a = 2) (h32 : o.ty.bits = 32) (hk : amoKey s t o % 16 = 0)
    (hwas : s.liveNum (amoKey s t o) 4 ≠ 0)
    (hzero : o.op.apply o.ty (s.liveNum (amoKey s t o) 4) o.v.toNat % 2 ^ 32 = 0)
    (hp : t.parked.find? (fun q => q.ticket == BitVec.ofNat 64 (s.liveNum (amoKey s t o + 8) 8) && q.released.isNone) = some p)
    (hcell : p.cell = some (amoKey s t o)) (hroom : t.qFull p.target = false) :
    ∃ T e, (amoReleased s id t o).team? o.who.team = some T ∧ T.queued = t.queued ++ [e] ∧ e.record = p.record ∧
      e.seq = p.seq ∧ e.target = p.target := by
  have h4 : o.ty.bits / 8 = 4 := by rw [h32]
  have hdiv : amoKey s t o / 16 * 16 = amoKey s t o := by omega
  obtain ⟨l, hl⟩ := amoWritten_eq s id t o
  have hcount : (amoWritten s id t o).liveNum (amoKey s t o) 4 = 0 := by
    unfold amoWritten
    rw [h4, State.liveNum_writeLive]
    exact hzero
  have hpark : (amoWritten s id t o).liveNum (amoKey s t o + 8) 8 = s.liveNum (amoKey s t o + 8) 8 :=
    State.liveNum_congr fun x hx _ => State.liveByte_writeLive_of_le _ _ _ (by rw [length_bytesOf, h4]; omega)
  have hfound := List.find?_some hp
  rw [Bool.and_eq_true, beq_iff_eq, Option.isNone_iff_eq_none] at hfound
  obtain ⟨hticket, hrel⟩ := hfound
  have hticket' : p.ticket.toNat = (amoWritten s id t o).liveNum (amoKey s t o + 8) 8 := by
    rw [hticket, hpark, BitVec.toNat_ofNat]
    exact Nat.mod_eq_of_lt (s.liveNum_lt (amoKey s t o + 8) 8)
  have hz : amoReleased s id t o = ((amoWritten s id t o).writeLive [amoUnit t o] (amoKey s t o + 8) (bytesOf 8 0)).release
      o.who.team (BitVec.ofNat 64 (s.liveNum (amoKey s t o + 8) 8)) := by
    unfold amoReleased
    rw [if_pos h2, hdiv, amoRelease_some _ hk hwas hcount (List.mem_of_find?_eq_some hp) hcell hticket' hrel, hid, hpark]
  obtain ⟨l', hl'⟩ := State.writeLive_eq (amoWritten s id t o) [amoUnit t o] (amoKey s t o + 8) (bytesOf 8 0)
  have hteam : ((amoWritten s id t o).writeLive [amoUnit t o] (amoKey s t o + 8) (bytesOf 8 0)).team? o.who.team =
      some { t with drawn := t.drawn } := by
    rw [hl', hl]
    exact ht
  obtain ⟨ts, T, e, hq, hrec, hseq, htarget, -, hT, hr⟩ := State.release_room hteam hp hroom
  refine ⟨T, e, ?_, hq, hrec, hseq, htarget⟩
  obtain ⟨l, po, hcommit⟩ := State.commit_eq
    { (amoWritten s id t o).writeLive [amoUnit t o] (amoKey s t o + 8) (bytesOf 8 0) with teams := ts }
    (hbmKey (t.qAddr p.target + 64 * leastFree ((t.inQueue p.target).map (·.idx)))) (bytesOf 64 p.record.toNat)
  rw [hz, hr, hcommit]
  exact hT

/-! ### Fills (R101, R186) -/

/-- A strand whose scalar `d` a fill has written, poisoned or not (R68). -/
def Strand.filled (k : Strand) (d : SReg) (v : Word) (psn : Bool) : Strand :=
  if psn && d != 0 then { k.wr d v with spoison := (k.wr d v).spoison ||| BitVec.ofNat 64 (2 ^ d.val) } else k.wr d v

namespace Strand

variable (k : Strand) {d : SReg} (v : Word) (psn : Bool)

/-- A fill writes its register, makes it full, and touches neither another register nor the place of the strand. -/
theorem filled_keeps : (∀ r, (k.filled d v psn).rd r = (k.wr d v).rd r ∧ (k.filled d v psn).full r = (k.wr d v).full r) ∧
    (k.filled d v psn).pc = k.pc ∧ (k.filled d v psn).wait = k.wait := by
  unfold filled
  split
  · exact ⟨fun _ => ⟨rfl, rfl⟩, wr_pc k d v, wr_wait k d v⟩
  · exact ⟨fun _ => ⟨rfl, rfl⟩, wr_pc k d v, wr_wait k d v⟩

theorem filled_rd (hd : d ≠ 0) : (k.filled d v psn).rd d = v := by
  rw [((k.filled_keeps v psn).1 d).1, rd_wr, if_neg hd, if_pos rfl]

theorem filled_full : (k.filled d v psn).full d = true := by
  rw [((k.filled_keeps v psn).1 d).2, full_wr_self]

theorem filled_others {r : SReg} (h : r ≠ d) : (k.filled d v psn).rd r = k.rd r ∧ (k.filled d v psn).full r = k.full r := by
  obtain ⟨hrd, hfull⟩ := (k.filled_keeps v psn).1 r
  refine ⟨?_, hfull.trans (full_wr_of_ne k r d v h)⟩
  rw [hrd, rd_wr, if_neg h]
  split
  · next h0 => rw [h0, rd_zero]
  · rfl

theorem filled_bad (hd : d ≠ 0) : (k.filled d v psn).bad d = psn := by
  unfold filled
  cases psn with
  | false => exact bad_wr_self k d v hd
  | true =>
    rw [Bool.true_and, bne_iff_ne.2 hd, if_pos rfl, bad, BitVec.getLsbD_or, getLsbD_two_pow _ _ _ d.isLt]
    simp

end Strand

theorem deliverFill_slot {s : State} {id lr uid : Nat} {t : Team} {x : Vtile} {p i : Nat} {k : Strand} (ht : s.team? id = some t)
    (hx : s.vtile? id lr = some x) (hk : s.locate id lr uid = .slot p i k) (r : SReg) (v : Word) (psn : Bool) :
    s.deliverFill id lr uid r v psn = s.putAt p i (k.filled r v psn) := by
  unfold State.deliverFill
  rw [ht, hx]
  dsimp only
  rw [hk]
  rfl

/-- A fill for a strand in a slot, whose vtile logs nothing, is delivered. -/
theorem exec_amoFill_slot {id : Nat} {s : State} {o : FillOp} {t : Team} {v : Vtile} {p i : Nat} {k : Strand}
    (ho : lookup id s.fills = some o) (ht : s.team? o.who.team = some t) (hv : s.vtile? o.who.team o.who.lrank = some v)
    (hlog : State.logging v = false) (hk : s.locate o.who.team o.who.lrank o.who.uid = .slot p i k)
    (hc : (s.arrives id o.home (s.fillPort o.who.team o.who.lrank) t o.who.lrank 0 1).1 = true) :
    ∃ c h, exec (.amoFill id) s =
      .next (({ s.linked c h with fills := eraseAt id s.fills } : State).putAt p i (k.filled o.d o.v o.poisoned)) := by
  obtain ⟨c, h, hs⟩ : ∃ c h, (s.arrives id o.home (s.fillPort o.who.team o.who.lrank) t o.who.lrank 0 1).2 = s.linked c h :=
    s.cross_eq _ _ _ _
  have hcross : s.arrives id o.home (s.fillPort o.who.team o.who.lrank) t o.who.lrank 0 1 = (true, s.linked c h) := Prod.ext hc hs
  refine ⟨c, h, ?_⟩
  show execAmoFill id s = _
  unfold execAmoFill
  rw [ho]
  dsimp only
  rw [hv]
  dsimp only
  refine (if_neg (by rw [hlog, Bool.false_and]; exact Bool.false_ne_true)).trans ?_
  rw [ht]
  dsimp only
  refine (if_neg (by rw [hcross]; exact Bool.false_ne_true)).trans ?_
  rw [hcross]
  exact congrArg Host.Outcome.next
    (deliverFill_slot (s := { s.linked c h with fills := eraseAt id s.fills }) ht hv hk o.d o.v o.poisoned)

/-- The answer of Virga for a strand in a slot, whose vtile logs nothing, is delivered (R220). -/
theorem exec_collStatFill_slot {id : Nat} {s : State} {o : StatOp} {t : Team} {v : Vtile} {p i : Nat} {k : Strand}
    (ho : lookup id s.stats = some o) (ht : s.team? o.who.team = some t) (hv : s.vtile? o.who.team o.who.lrank = some v)
    (hlog : State.logging v = false) (hk : s.locate o.who.team o.who.lrank o.who.uid = .slot p i k) :
    exec (.collStatFill id) s = .next (({ s with stats := eraseAt id s.stats } : State).putAt p i
      (k.filled o.d (statusOf s o.who.team o.ticket) false)) := by
  show execCollStatFill id s = _
  unfold execCollStatFill
  rw [ho]
  dsimp only
  rw [hv]
  dsimp only
  refine (if_neg (by rw [hlog, Bool.false_and]; exact Bool.false_ne_true)).trans ?_
  exact congrArg Host.Outcome.next
    (deliverFill_slot (s := { s with stats := eraseAt id s.stats }) ht hv hk o.d (statusOf s o.who.team o.ticket) false)

/-! ### REDs (R83, R210) -/

/-- A RED moves towards its home, which takes it once all of it has come. -/
theorem exec_redAccept_home {id : Nat} {s : State} {o : RedOp} {t : Team} {v : Vtile} (ho : lookup id s.reds = some o)
    (ht : s.team? o.who.team = some t) (hv : s.vtile? o.who.team o.who.lrank = some v)
    (hfree : s.heldBack o.who.team o.who.tile = false ∨ s.acrossFabric o.who.team o.who.tile o.d = false) (h5 : shSpace o.d ≠ 5)
    (h2 : shSpace o.d = 2 → s.fencedGroups.contains (v.ptile / 16) = false) :
    let c := s.cross id (sitePath (tileSite o.who.tile) (s.homeSite (s.operandKey t o.who.lrank o.d (shOfs o.d)))) 0
      (1 + (shCount o.d * redBytes o.ty o.wd + 63) / 64)
    exec (.redAccept id) s =
      .next (if c.1 then { c.2 with reds := insertAt id { o with accepted := true } s.reds } else c.2) := by
  intro c
  obtain ⟨cr, h, hs⟩ : ∃ cr h, c.2 = s.linked cr h := s.cross_eq _ _ _ _
  have hcross : c = (c.1, s.linked cr h) := Prod.ext rfl hs
  have hheld : (s.heldBack o.who.team o.who.tile && s.acrossFabric o.who.team o.who.tile o.d) = false := by
    obtain hf | hf := hfree
    · rw [hf, Bool.false_and]
    · rw [hf, Bool.and_false]
  show execRedAccept id s = _
  unfold execRedAccept
  rw [ho]
  dsimp only
  rw [hv, ht]
  dsimp only [Option.map_some, Option.getD_some]
  rw [hheld, if_neg Bool.false_ne_true, if_neg fun hx => Bool.false_ne_true ((h2 hx.1).symm.trans hx.2), if_neg fun hx => h5 hx.1,
    if_neg fun hx => h5 hx.1]
  have hc : s.cross id (sitePath (tileSite o.who.tile) (s.homeSite (s.operandKey t o.who.lrank o.d (shOfs o.d)))) 0 (redFlits o) =
      (c.1, s.linked cr h) := hcross
  simp only [if_neg h5, hc, hs]
  cases c.1 with
  | false => rfl
  | true => rfl

/-! ### O43 -/

/-- Settles O43: what has come to its home is performed there, and what has come to a strand in a slot is delivered. -/
theorem atomicSteps : Obligations.AtomicSteps := by
  unfold Obligations.AtomicSteps
  intro free way
  refine ⟨?cell, ?amo, ?fill, ?red, ?stat⟩
  case cell =>
    intro id s o t p ho ht hid hfree h2 hwhy h32 cell hc hk hwas hzero hp hcell hroom
    have h5 : shSpace o.a ≠ 5 := by omega
    have hwait : mustWait s t o.a [(shOfs o.a, o.ty.bits / 8)] = false := by
      unfold mustWait
      rw [h2]
      rfl
    obtain ⟨c, h, hx⟩ := exec_amoPerform_home ho ht hfree hwhy h5 hwait hc
    obtain ⟨T, e, hT, hq, hrec, hseq, htarget⟩ := amo_releases (s := s.linked c h) (id := id) ht hid h2 h32 hk hwas hzero hp hcell hroom
    obtain ⟨U, hU, hq', -⟩ := (KeepsQueues.accountReplay (amoReleased (s.linked c h) id t o) o.who.team
      (bytesIndex (shSpace o.a)) 20 (o.ty.bits / 8)
      ((amoReleased (s.linked c h) id t o).replayOf o.who.team o.who.lrank o.who.uid)).team _ T hT
    refine ⟨_, U, e, hx, ?_, hq'.trans hq, hrec, hseq, htarget⟩
    unfold State.team?
    rw [sendFill_teams]
    exact hU
  case amo =>
    intro id s o t ho ht hfree h5 hwhy hwait hd hamo key n hc hcell
    obtain ⟨c, h, hx⟩ := exec_amoPerform_home ho ht hfree hwhy h5 hwait hc
    exact ⟨_, hx, amo_performed (s := s.linked c h) hd hamo hcell (amoPut o.ty (s.liveNum key n)) (s.anyPoison key n)⟩
  case fill =>
    intro id s o t v p i k ho ht hv hlog hk hd hc
    obtain ⟨c, h, hx⟩ := exec_amoFill_slot ho ht hv hlog hk hc
    obtain ⟨-, hpc, hwait⟩ := k.filled_keeps (d := o.d) o.v o.poisoned
    exact ⟨_, _, hx, lookup_eraseAt_self _ _, State.strandAt_putAt_self _ _ _ _, k.filled_rd _ _ hd, k.filled_full _ _,
      k.filled_bad _ _ hd, fun r hr => k.filled_others _ _ hr, hpc, hwait, rfl⟩
  case red =>
    intro id s o t v ho ht hv hfree h5 h2 c
    have hx := exec_redAccept_home ho ht hv hfree h5 h2
    exact ⟨fun hc => hx.trans (congrArg Host.Outcome.next (if_pos hc)),
      fun hc => hx.trans (congrArg Host.Outcome.next (if_neg (ne_of_eq_of_ne hc Bool.false_ne_true)))⟩
  case stat =>
    intro id s o t v p i k ho ht hv hlog hk hd
    have hx := exec_collStatFill_slot ho ht hv hlog hk
    exact ⟨_, _, hx, lookup_eraseAt_self _ _, State.strandAt_putAt_self _ _ _ _, k.filled_rd _ _ hd, k.filled_full _ _,
      fun r hr => (k.filled_others _ _ hr).1⟩

end Sys2Proof.Machine
end

section
/-! PROOF. The steps of queues and parked strands (R33, R42, R46 to R50, R162): which record leaves a queue or the pool, the fresh
strand of a record, the waits of parked records, and O40. -/

namespace Sys2Proof

/-! ### Fields of a packed record (R3) -/

theorem field_pack_head (w x : Nat) (ws xs : List Nat) : field (pack (w :: ws) (x :: xs)) 0 w = x % 2 ^ w := by
  rw [pack, field, Nat.pow_zero, Nat.div_one, Nat.add_mul_mod_self_left, Nat.mod_mod]

theorem field_pack_tail (w x lo len : Nat) (ws xs : List Nat) :
    field (pack (w :: ws) (x :: xs)) (w + lo) len = field (pack ws xs) lo len := by
  rw [pack, field, Nat.pow_add, ← Nat.div_div_eq_div_mul, Nat.add_mul_div_left _ _ (Nat.two_pow_pos w),
    Nat.div_eq_of_lt (Nat.mod_lt _ (Nat.two_pow_pos w)), Nat.zero_add, field]

end Sys2Proof

namespace Sys2Proof.Machine

theorem toNat_ofNat_pack {w : Nat} {ws : List Nat} (h : ws.sum = w) (xs : List Nat) :
    (BitVec.ofNat w (pack ws xs)).toNat = pack ws xs := by
  subst h
  rw [BitVec.toNat_ofNat, Nat.mod_eq_of_lt (Laws.pack_lt_sum ws xs)]

/-- The resumable record of a parked strand: KIND 1, PIN 1 (R50). -/
theorem resumableRec_fields (lr n prio : Nat) :
    recKind (resumableRec lr n prio) = 1 ∧ recPin (resumableRec lr n prio) = true := by
  have h : (resumableRec lr n prio).toNat =
      pack [64, 64, 320, 24, 16, 2, 10, 2, 1, 5, 4] [0, n, 0, 0, 0, 0, lr, 0, 1, prio, 1] := by
    unfold resumableRec
    rw [toNat_ofNat_pack (by decide)]
  refine ⟨?_, beq_iff_eq.2 ?_⟩
  · unfold recKind recBits
    rw [h, show 508 = 64 + (64 + (320 + (24 + (16 + (2 + (10 + (2 + (1 + (5 + 0))))))))) from rfl]
    simp only [field_pack_tail, field_pack_head]
    rfl
  · unfold recBits
    rw [h, show 502 = 64 + (64 + (320 + (24 + (16 + (2 + (10 + (2 + 0))))))) from rfl]
    simp only [field_pack_tail, field_pack_head]
    rfl

/-! ### The vtile of a tile (R16) -/

theorem standing_some {s : State} {tile id lr : Nat} {v : Vtile} (h : s.standing tile = some (id, lr, v)) :
    s.vtile? id lr = some v ∧ v.res = true ∧ v.ptile = tile := by
  unfold State.standing at h
  split at h
  · cases h
  · split at h
    · cases h
    · next o _ _ x hx =>
      split at h
      · next hr =>
        obtain ⟨rfl, rfl, rfl⟩ : o.1 = id ∧ o.2 = lr ∧ x = v := by
          obtain ⟨h1, h2⟩ := Prod.mk.inj (Option.some.inj h)
          exact ⟨h1, Prod.mk.inj h2⟩
        rw [Bool.and_eq_true, beq_iff_eq] at hr
        exact ⟨hx, hr⟩
      · cases h

theorem tileWorks_running {s : State} {tile : Nat} {v : Vtile} (h : tileWorks s tile v = true) : (s.tile tile).dbg = .running := by
  unfold tileWorks at h
  simp only [Bool.and_eq_true, beq_iff_eq] at h
  exact h.1.1.1.2

/-! ### The waits of parked records (R50) -/

/-- One saved strand of a vtile: its record becomes ready when its WAITGE holds. -/
def recheckSaved (id lr : Nat) (s : State) (c : Nat × SaveInfo) : State :=
  match c.2.why, c.2.wait with
  | .park, .waitge o n _ => if savedWaitHolds s id lr o n then s.readyRecord id lr c.1 else s
  | _, _ => s

theorem recheckWaits_some {s : State} {id lr : Nat} {v : Vtile} (hv : s.vtile? id lr = some v) :
    recheckWaits s id lr =
      let u := v.saves.foldl (recheckSaved id lr) s
      if v.res && (u.tile v.ptile).dbg != .running then (List.range 8).foldl (recheckSlot id lr v.ptile) u else u := by
  unfold recheckWaits
  rw [hv]
  rfl

/-- Two queue entries that differ at most in whether they wait, and since when. -/
structure SameEntry (a b : QEntry) : Prop where
  record : b.record = a.record
  target : b.target = a.target
  prio : b.prio = a.prio
  save : b.save = a.save

/-- Only teams have changed, and every queued record is still there. -/
structure Readied (s u : State) : Prop where
  rest : ∃ ts, u = { s with teams := ts }
  team : ∀ id t, s.team? id = some t → ∃ T, u.team? id = some T ∧ ∀ e ∈ t.queued, ∃ e' ∈ T.queued, SameEntry e e'

namespace Readied

theorem refl (s : State) : Readied s s :=
  ⟨⟨s.teams, rfl⟩, fun _ t h => ⟨t, h, fun e he => ⟨e, he, rfl, rfl, rfl, rfl⟩⟩⟩

theorem trans {s u v : State} (h : Readied s u) (g : Readied u v) : Readied s v := by
  obtain ⟨ts, rfl⟩ := h.rest
  obtain ⟨ts', rfl⟩ := g.rest
  refine ⟨⟨ts', rfl⟩, fun id t ht => ?_⟩
  obtain ⟨T, hT, hq⟩ := h.team id t ht
  obtain ⟨U, hU, hq'⟩ := g.team id T hT
  refine ⟨U, hU, fun e he => ?_⟩
  obtain ⟨e', he', a⟩ := hq e he
  obtain ⟨e'', he'', b⟩ := hq' e' he'
  exact ⟨e'', he'', b.record.trans a.record, b.target.trans a.target, b.prio.trans a.prio, b.save.trans a.save⟩

theorem readyRecord (s : State) (id lr n : Nat) : Readied s (s.readyRecord id lr n) := by
  unfold State.readyRecord State.onTeam
  split
  · next t ht =>
    refine ⟨⟨_, rfl⟩, fun j u hu => ?_⟩
    rw [State.team?_putTeam]
    by_cases hj : j = id
    · subst hj
      obtain rfl : u = t := Option.some.inj (hu.symm.trans ht)
      refine ⟨_, if_pos rfl, fun e he => ⟨_, List.mem_map_of_mem he, ?_⟩⟩
      split
      · exact ⟨rfl, rfl, rfl, rfl⟩
      · exact ⟨rfl, rfl, rfl, rfl⟩
    · exact ⟨u, (if_neg hj).trans hu, fun e he => ⟨e, he, rfl, rfl, rfl, rfl⟩⟩
  · exact refl s

theorem recheckSaved (id lr : Nat) (s : State) (c : Nat × SaveInfo) : Readied s (recheckSaved id lr s c) := by
  unfold Machine.recheckSaved
  split
  · split
    · exact readyRecord s id lr c.1
    · exact refl s
  · exact refl s

theorem recheckSaves (id lr : Nat) (l : List (Nat × SaveInfo)) (s : State) : Readied s (l.foldl (Machine.recheckSaved id lr) s) := by
  induction l generalizing s with
  | nil => exact refl s
  | cons c r ih => exact (recheckSaved id lr s c).trans (ih _)

end Readied

/-- A strand in a slot looks at its counter again without a change of any tile. -/
theorem recheckSlot_tiles (id lr tile : Nat) (s : State) (slot : Nat) : (recheckSlot id lr tile s slot).tiles = s.tiles := by
  have hobs (k : Strand) (key ofs : Nat) : (observed s k key ofs).2.tiles = s.tiles := by
    unfold observed
    split
    · obtain ⟨ts, h⟩ : ∃ ts, (s.freeWord k.team).2 = { s with teams := ts } := s.onTeam_eq _ _
      rw [h]
    · rfl
  have hends (k : Strand) (ofs : Nat) (d : SReg) (w : Word) (u : State) : (waitEnds k ofs d w u).2.tiles = u.tiles := by
    unfold waitEnds State.onRace
    dsimp only
    split
    · rfl
    · rfl
  unfold recheckSlot
  split
  · rfl
  · split
    · split
      · rfl
      · dsimp only
        split
        · exact (hends _ _ _ _ _).trans (hobs _ _ _)
        · rfl
    · rfl

theorem recheckSlots_tiles (id lr tile : Nat) (l : List Nat) (s : State) : (l.foldl (recheckSlot id lr tile) s).tiles = s.tiles := by
  induction l generalizing s with
  | nil => rfl
  | cons i r ih => exact (ih _).trans (recheckSlot_tiles id lr tile s i)

theorem recheckWaits_tiles (s : State) (id lr : Nat) : (recheckWaits s id lr).tiles = s.tiles := by
  cases hv : s.vtile? id lr with
  | none => unfold recheckWaits; rw [hv]
  | some v =>
    obtain ⟨ts, hu⟩ := (Readied.recheckSaves id lr v.saves s).rest
    rw [recheckWaits_some hv]
    dsimp only
    split
    · rw [recheckSlots_tiles, hu]
    · rw [hu]

/-- On a tile that runs, a new look at the waits makes records ready and does nothing else. -/
theorem recheckWaits_readied {s : State} {id lr : Nat} {v : Vtile} (hv : s.vtile? id lr = some v)
    (hr : (s.tile v.ptile).dbg = .running) : Readied s (recheckWaits s id lr) := by
  have h := Readied.recheckSaves id lr v.saves s
  obtain ⟨ts, hu⟩ := h.rest
  rw [recheckWaits_some hv]
  dsimp only
  rw [if_neg]
  · exact h
  · rw [hu]
    simp [State.tile] at hr ⊢
    exact fun _ => hr

/-- ... and without saved strands it does nothing at all. -/
theorem recheckWaits_idle {s : State} {id lr : Nat} {v : Vtile} (hv : s.vtile? id lr = some v) (hs : v.saves = [])
    (hr : (s.tile v.ptile).dbg = .running) : recheckWaits s id lr = s := by
  rw [recheckWaits_some hv, hs]
  exact if_neg (by rw [List.foldl_nil, hr]; simp)

/-! ### The released record that enters its queue (R42) -/

/-- The record released first among those that wait for a queue. -/
theorem find?_released {l : List Parked} {q : QTarget} {p : Parked} (hp : p ∈ l) (hr : p.released.isSome) (hq : p.target = q)
    (hmin : ∀ x ∈ l, x.released.isSome → x.target = q → x ≠ p → p.released.getD 0 < x.released.getD 0) :
    let waits := l.filter fun p => p.released.isSome && p.target == q
    waits.find? (fun p => waits.all fun x => p.released.getD 0 ≤ x.released.getD 0) = some p := by
  intro waits
  have mem {x : Parked} : x ∈ waits ↔ x ∈ l ∧ x.released.isSome ∧ x.target = q := by
    unfold waits
    rw [List.mem_filter, Bool.and_eq_true, beq_iff_eq]
  have hpw : p ∈ waits := mem.2 ⟨hp, hr, hq⟩
  have hfirst : (waits.all fun x => p.released.getD 0 ≤ x.released.getD 0) = true := by
    rw [List.all_eq_true]
    intro x hx
    obtain ⟨hx1, hx2, hx3⟩ := mem.1 hx
    refine decide_eq_true ?_
    by_cases hxp : x = p
    · rw [hxp]
    · exact Nat.le_of_lt (hmin x hx1 hx2 hx3 hxp)
  cases hf : waits.find? (fun p => waits.all fun x => p.released.getD 0 ≤ x.released.getD 0) with
  | none => exact absurd hfirst (List.find?_eq_none.1 hf p hpw)
  | some x =>
    obtain ⟨hx1, hx2, hx3⟩ := mem.1 (List.mem_of_find?_eq_some hf)
    have hsat := List.find?_some hf
    have hle := of_decide_eq_true (List.all_eq_true.1 hsat p hpw)
    by_cases hxp : x = p
    · rw [hxp]
    · exact absurd (hmin x hx1 hx2 hx3 hxp) (Nat.not_lt.2 hle)

theorem exec_releasedRecordEnqueue_some {id : Nat} {q : QTarget} {s : State} {t : Team} {p : Parked} (ht : s.team? id = some t)
    (hroom : (t.inQueue q).length < t.cap q) (hp : p ∈ t.parked) (hr : p.released.isSome) (hq : p.target = q)
    (hmin : ∀ x ∈ t.parked, x.released.isSome → x.target = q → x ≠ p → p.released.getD 0 < x.released.getD 0) :
    exec (.releasedRecordEnqueue id q) s =
      let idx := leastFree ((t.inQueue q).map (·.idx))
      .next ((s.putTeam id { t with
        queued := t.queued ++ [⟨p.record, p.target, p.seq, p.ord, p.prio, none, false, s.queueClock t p.target, idx⟩]
        parked := t.parked.filter (· != p) }).commit (hbmKey (t.qAddr q + 64 * idx)) (bytesOf 64 p.record.toNat)) := by
  have hf := find?_released hp hr hq hmin
  dsimp only at hf
  show execReleasedRecordEnqueue id q s = _
  unfold execReleasedRecordEnqueue
  rw [ht]
  dsimp only
  rw [if_neg (Nat.not_le.2 hroom), hf]

/-! ### Fresh strands (R33, R162) -/

theorem unmatched_eq (s : State) (tile slot : Nat) : ∃ x, unmatched s tile slot = { s with tiles := x } := by
  unfold unmatched
  dsimp only
  split
  · exact ⟨_, rfl⟩
  · exact ⟨_, rfl⟩

/-- A fresh record leaves its queue, and its strand stands in the slot. -/
theorem startRecord_fresh (s : State) (t : Team) (id lr tile slot : Nat) {e : QEntry} (he : e.save = none) : ∃ z uid,
    startRecord s t id lr tile slot e = State.putAt z tile slot (bornStrand id lr uid e) ∧
    z.team? id = some { t with queued := t.queued.filter (· != e) } := by
  obtain ⟨x, hx⟩ := unmatched_eq (s.putTeam id { t with queued := t.queued.filter (· != e) }) tile slot
  unfold startRecord
  rw [he]
  dsimp only
  rw [hx]
  split
  · exact ⟨_, _, rfl, lookup_insertAt_self _ _ _⟩
  · next q _ =>
    obtain ⟨l, po, hc⟩ := State.commit_eq { s.putTeam id { t with queued := t.queued.filter (· != e) } with tiles := x }
      (hbmKey (t.qAddr e.target + 64 * e.idx)) (bytesOf 64 (recSet e.record 490 10 lr).toNat)
    rw [hc]
    exact ⟨_, _, rfl, lookup_insertAt_self _ _ _⟩

theorem exec_continuationDispatch_fresh {tile slot : Nat} {s : State} {id lr : Nat} {v : Vtile} {t : Team} {e : QEntry}
    (hs : s.standing tile = some (id, lr, v)) (ht : s.team? id = some t) (hw : tileWorks s tile v = true) (h8 : slot < 8)
    (hfree : s.strandAt tile slot = none) (hsaves : v.saves = []) (he : nextRecord t lr (s.queueClock t) = some e) :
    exec (.continuationDispatch tile slot) s = .next (startRecord s t id lr tile slot e) := by
  obtain ⟨hv, -, hp⟩ := standing_some hs
  have hidle : recheckWaits s id lr = s := recheckWaits_idle hv hsaves (by rw [hp]; exact tileWorks_running hw)
  show execContinuationDispatch tile slot s = _
  unfold execContinuationDispatch
  rw [hs]
  dsimp only
  rw [hw, hfree, decide_eq_true h8, hidle]
  refine (if_pos rfl).trans ?_
  rw [ht]
  dsimp only
  rw [he]

section Born

variable (id lr uid : Nat) (e : QEntry)

theorem bornStrand_get (i : Fin 64) : (bornStrand id lr uid e).s.get i =
    if 1 ≤ i.val ∧ i.val ≤ 4 then BitVec.ofNat 64 (recArg e.record (i.val - 1))
    else if i.val = 5 then BitVec.ofNat 64 (recFrame e.record)
    else if i.val = 6 then BitVec.ofNat 64 (recJcell e.record) else 0 :=
  Vector.getElem_ofFn i.isLt

/-- s1 to s4 hold the arguments, s5 FRAME and s6 JCELL; the other scalars are zero. -/
theorem bornStrand_scalars :
    (∀ i : Fin 4, (bornStrand id lr uid e).s.get ⟨i.val + 1, by omega⟩ = BitVec.ofNat 64 (recArg e.record i.val)) ∧
    (bornStrand id lr uid e).rd 5 = BitVec.ofNat 64 (recFrame e.record) ∧
    (bornStrand id lr uid e).rd 6 = BitVec.ofNat 64 (recJcell e.record) ∧
    ∀ r : SReg, 7 ≤ r.val → (bornStrand id lr uid e).rd r = 0 := by
  refine ⟨fun i => ?_, ?_, ?_, fun r hr => ?_⟩
  · rw [bornStrand_get, if_pos ⟨Nat.succ_pos _, Nat.succ_le_of_lt i.isLt⟩]
    rfl
  · exact bornStrand_get id lr uid e 5
  · exact bornStrand_get id lr uid e 6
  · unfold Strand.rd
    split
    · rfl
    · rw [bornStrand_get, if_neg (by omega), if_neg (by omega), if_neg (by omega)]

/-- Every register of a fresh strand is full; vectors, predicates but p0, and shape registers are zero. -/
theorem bornStrand_others :
    (∀ r, (bornStrand id lr uid e).full r = true) ∧ (∀ r, (bornStrand id lr uid e).fullV r = true) ∧
    (∀ r, (bornStrand id lr uid e).rdV r = 0) ∧
    (∀ r, (bornStrand id lr uid e).rdP r = if r = 0 then BitVec.allOnes 256 else 0) ∧
    ∀ r, (bornStrand id lr uid e).rdM r = 0 := by
  refine ⟨fun r => ?_, fun r => ?_, fun r => ?_, fun r => ?_, fun r => ?_⟩
  · unfold Strand.full bornStrand
    rw [BitVec.getLsbD_allOnes, decide_eq_true r.isLt, Bool.or_true]
  · unfold Strand.fullV bornStrand
    rw [BitVec.getLsbD_allOnes, decide_eq_true r.isLt]
  · exact Vector.getElem_replicate r.isLt
  · unfold Strand.rdP
    split
    · rfl
    · next h0 =>
      have h : (bornStrand id lr uid e).p.get r = ((Vector.replicate 16 0).set 0 (BitVec.allOnes 256)).get r := rfl
      rw [h]
      exact (get_set (Vector.replicate 16 0) 0 r (BitVec.allOnes 256)).trans
        ((if_neg h0).trans (Vector.getElem_replicate r.isLt))
  · exact Vector.getElem_replicate r.isLt

end Born

/-! ### Migration (R48) -/

theorem exec_pushMigration_some {tile : Nat} {s : State} {id lr : Nat} {v : Vtile} {t : Team} {e : QEntry}
    (hs : s.standing tile = some (id, lr, v)) (ht : s.team? id = some t) (hw : tileWorks s tile v = true) (hp : t.pusht ≠ 0)
    (hover : t.pusht < (t.inQueue (.vt lr)).length) (hidle : field (s.tile tile).loadg.toNat 0 10 ≠ lr)
    (hnear : ∃ x, s.vtile? id (field (s.tile tile).loadg.toNat 0 10) = some x ∧ x.res = true ∧ x.ptile / 16 = tile / 16)
    (hroom : t.qFull (.vt (field (s.tile tile).loadg.toNat 0 10)) = false)
    (he : lastOf ((t.inQueue (.vt lr)).filter fun e => e.save.isNone && !recPin e.record) = some e) :
    exec (.pushMigration tile) s =
      let idle := field (s.tile tile).loadg.toNat 0 10
      let idx := leastFree ((t.inQueue (.vt idle)).map (·.idx))
      .next ((s.putTeam id { t with
        queued := t.queued.filter (· != e) ++ [{ e with record := recSet e.record 490 10 idle, target := .vt idle, idx }] }).commit
        (hbmKey (t.qAddr (.vt idle) + 64 * idx)) (bytesOf 64 (recSet e.record 490 10 idle).toNat)) := by
  obtain ⟨x, hx, hres, hgrp⟩ := hnear
  show execPushMigration tile s = _
  unfold execPushMigration
  rw [hs]
  dsimp only
  rw [ht]
  dsimp only
  rw [hw, hx, hroom, bne_iff_ne.2 hp, bne_iff_ne.2 hidle, decide_eq_true hover]
  have hn : ((some x).any fun x => x.res && x.ptile / 16 == tile / 16) = true := by
    rw [Option.any_some, hres, beq_iff_eq.2 hgrp]
    rfl
  rw [hn, he]
  rfl

/-! ### LOADG (R47) -/

/-- The fields of LOADG, as one number. -/
theorem pack_loadg (lr depth free : Nat) : pack [10, 14, 20, 4] [lr, 0, min depth 0xFFFFF, free] =
    lr % 2 ^ 10 + min depth 0xFFFFF * 2 ^ 24 + free % 2 ^ 4 * 2 ^ 44 := by
  simp only [pack]
  omega

theorem exec_loadgRefresh_some {tile : Nat} {s : State} {id lr : Nat} {v : Vtile} {t : Team} {free depth best : Nat}
    (hs : s.standing tile = some (id, lr, v)) (ht : s.team? id = some t)
    (hi : idlest s t id (tile / 16) = some (free, depth, best)) :
    exec (.loadgRefresh tile) s = .next (s.onTile tile fun x =>
      { x with loadg := BitVec.ofNat 64 (pack [10, 14, 20, 4] [best, 0, min depth 0xFFFFF, free]) }) := by
  show execLoadgRefresh tile s = _
  unfold execLoadgRefresh
  rw [hs]
  dsimp only
  rw [ht]
  dsimp only
  rw [hi]

/-! ### Park-on-wait (R49, R50) -/

/-- A strand is saved: its vtile keeps what the device knows of it, and its team may draw free values (R52). -/
theorem State.saveInto_eq {s : State} {k : Strand} {t : Team} {v : Vtile} (ht : s.team? k.team = some t)
    (hv : s.vtile? k.team k.lrank = some v) (T : Team) (n : Nat) (why : SaveWhy) : ∃ m l po ts d,
    lookup k.team ts = some { t with drawn := d } ∧ s.saveInto T n k why = { s with
      mem := m, live := l, poison := po, teams := ts
      vtiles := insertAt (vtileKey k.team k.lrank) { v with saves := insertAt n (SaveInfo.of k why) v.saves } s.vtiles } := by
  obtain ⟨l, po, hc⟩ := s.commit_eq (hbmKey (T.slotAddr k.lrank n)) (imageOf (s.imaged k))
  unfold saveInto drew onTeam
  rw [hc]
  dsimp only [team?]
  rw [show lookup k.team s.teams = some t from ht]
  unfold onVtile
  dsimp only [vtile?, putTeam]
  rw [show lookup (vtileKey k.team k.lrank) s.vtiles = some v from hv]
  exact ⟨_, l, po, _, _, lookup_insertAt_self _ _ _, rfl⟩

/-- The state in which a strand has been parked, before the waits are looked at again. -/
def parkedState (z : State) (t : Team) (id lr tile n i : Nat) (k : Strand) : State :=
  ((z.dropAt tile i).saveInto t n k .park).enqueue id (.vt lr) (resumableRec lr n k.prio) 0 k.prio (some n) true

section Park

variable {tile : Nat} {s : State} {id lr : Nat} {v : Vtile} {t : Team} {n i : Nat} {k : Strand}

theorem exec_parkOnWait_some (hs : s.standing tile = some (id, lr, v)) (ht : (recheckWaits s id lr).team? id = some t)
    (hw : tileWorks (recheckWaits s id lr) tile v = true) (hpow : t.pow = true)
    (hnext : (nextRecord t lr ((recheckWaits s id lr).queueClock t)).isSome)
    (hroom : (t.inQueue (.vt lr)).length < t.cap (.vt lr)) (hn : freeSave t v = some n)
    (hk : parkVictim (recheckWaits s id lr) id tile = some (i, k)) :
    exec (.parkOnWait tile) s = .next (recheckWaits (parkedState (recheckWaits s id lr) t id lr tile n i k) id lr) := by
  show execParkOnWait tile s = _
  unfold execParkOnWait
  rw [hs]
  dsimp only
  rw [ht]
  dsimp only
  rw [hw, hpow, hnext, decide_eq_true hroom]
  refine (if_pos rfl).trans ?_
  rw [hn, hk]
  rfl

/-- The strand has left its slot for the save slot, and its record stands in the queue of its vtile. -/
theorem parkedState_parked {z : State} (ht : z.team? id = some t) (hv : z.vtile? id lr = some v) (hkt : k.team = id)
    (hkl : k.lrank = lr) : ∃ T V e,
    (parkedState z t id lr tile n i k).strandAt tile i = none ∧ (parkedState z t id lr tile n i k).team? id = some T ∧
    (parkedState z t id lr tile n i k).vtile? id lr = some V ∧ (parkedState z t id lr tile n i k).tiles = z.tiles ∧
    V.ptile = v.ptile ∧ lookup n V.saves = some (SaveInfo.of k .park) ∧ e ∈ T.queued ∧ e.save = some n ∧
    e.target = .vt lr ∧ e.record = resumableRec lr n k.prio ∧ e.prio = k.prio := by
  subst hkt hkl
  obtain ⟨m, l, po, ts, d, hts, hsave⟩ := State.saveInto_eq (s := z.dropAt tile i) ht hv t n .park
  have ht' : ((z.dropAt tile i).saveInto t n k .park).team? k.team = some { t with drawn := d } := by
    rw [hsave]
    exact hts
  obtain ⟨e, T, ts', m', l', po', he, hT, hts', henq⟩ := State.enqueue_eq ht' (.vt k.lrank) (resumableRec k.lrank n k.prio) 0 k.prio
    (some n) true
  have hp : parkedState z t k.team k.lrank tile n i k = _ := henq
  rw [hp, hsave]
  refine ⟨T, _, e, ?_, hts', lookup_insertAt_self _ _ _, rfl, rfl, lookup_insertAt_self _ _ _, ?_, by rw [he], by rw [he],
    by rw [he], by rw [he]⟩
  · exact (State.strandAt_dropAt z tile i tile i).trans (if_pos rfl)
  · rw [hT]
    exact List.mem_append_right _ (List.mem_singleton_self e)

end Park

/-! ### O40 -/

/-- Settles O40: each step is the equation of its condition; a look at the waits of a running tile only makes records ready. -/
theorem queueAndParkSteps : Obligations.QueueAndParkSteps := by
  unfold Obligations.QueueAndParkSteps
  refine ⟨⟨?released, ?dispatch, ?push⟩, ?loadg, ?park⟩
  case released =>
    intro id q s t p ht hroom hp hr hq hmin
    have hx := exec_releasedRecordEnqueue_some ht hroom hp hr hq hmin
    dsimp only at hx
    obtain ⟨l, po, hc⟩ := State.commit_eq (s.putTeam id { t with
      queued := t.queued ++ [⟨p.record, p.target, p.seq, p.ord, p.prio, none, false, s.queueClock t p.target,
        leastFree ((t.inQueue q).map (·.idx))⟩]
      parked := t.parked.filter (· != p) }) (hbmKey (t.qAddr q + 64 * leastFree ((t.inQueue q).map (·.idx))))
      (bytesOf 64 p.record.toNat)
    rw [hc] at hx
    exact ⟨_, _, _, hx, lookup_insertAt_self _ _ _, rfl, rfl, rfl, rfl, rfl, hq⟩
  case dispatch =>
    intro tile slot s id lr v t e hs ht hw h8 hfree hsaves he hsave
    obtain ⟨z, uid, hz, hT⟩ := startRecord_fresh s t id lr tile slot hsave
    have hx := exec_continuationDispatch_fresh hs ht hw h8 hfree hsaves he
    rw [hz] at hx
    obtain ⟨hargs, hframe, hcell, hrest⟩ := bornStrand_scalars id lr uid e
    obtain ⟨hfull, hfullV, hv, hp, hm⟩ := bornStrand_others id lr uid e
    exact ⟨_, _, _, hx, hT, rfl, State.strandAt_putAt_self _ _ _ _, rfl, rfl, rfl, hargs, hframe, hcell, hrest, hfull, hfullV, hv, hp,
      hm, rfl, rfl, rfl, rfl⟩
  case push =>
    intro tile s id lr v t e hs ht hw hp hover idle hidle hnear hroom he
    have hx := exec_pushMigration_some hs ht hw hp hover hidle hnear hroom he
    dsimp only at hx
    obtain ⟨l, po, hc⟩ := State.commit_eq (s.putTeam id { t with
      queued := t.queued.filter (· != e) ++ [{ e with
        record := recSet e.record 490 10 idle, target := .vt idle, idx := leastFree ((t.inQueue (.vt idle)).map (·.idx)) }] })
      (hbmKey (t.qAddr (.vt idle) + 64 * leastFree ((t.inQueue (.vt idle)).map (·.idx))))
      (bytesOf 64 (recSet e.record 490 10 idle).toNat)
    rw [hc] at hx
    exact ⟨_, _, _, hx, lookup_insertAt_self _ _ _, rfl, rfl, rfl, rfl, rfl⟩
  case loadg =>
    intro tile s id lr v t free depth best hs ht hi
    rw [exec_loadgRefresh_some hs ht hi, pack_loadg]
  case park =>
    intro tile s id lr v t n i k z hs ht hw hpow hnext hroom hn hk hkt hkl
    obtain ⟨hv, -, hp⟩ := standing_some hs
    have htiles : z.tiles = s.tiles := recheckWaits_tiles s id lr
    have hrun : (z.tile v.ptile).dbg = .running := by rw [hp]; exact tileWorks_running hw
    have hrun' : (s.tile v.ptile).dbg = .running := by
      unfold State.tile at hrun ⊢
      rwa [htiles] at hrun
    obtain ⟨ts, hz⟩ := (recheckWaits_readied hv hrun').rest
    have hv' : z.vtile? id lr = some v := by
      unfold z
      rw [hz]
      exact hv
    obtain ⟨T, V, e, hslot, hT, hV, hytiles, hVp, hsave, he, hes, het, her, hep⟩ :=
      parkedState_parked (tile := tile) (n := n) (i := i) ht hv' hkt hkl
    have hx := exec_parkOnWait_some hs ht hw hpow hnext hroom hn hk
    have hready := recheckWaits_readied hV (by
      unfold State.tile at hrun ⊢
      rw [hytiles, hVp]
      exact hrun)
    obtain ⟨ts', hy⟩ := hready.rest
    obtain ⟨U, hU, hqueued⟩ := hready.team id T hT
    obtain ⟨e', he', hsame⟩ := hqueued e he
    obtain ⟨hkind, hpin⟩ := resumableRec_fields lr n k.prio
    have hrec : e'.record = resumableRec lr n k.prio := hsame.record.trans her
    refine ⟨_, U, V, SaveInfo.of k .park, e', hx, ?_, hU, ?_, hsave, rfl, rfl, rfl, he', hsame.save.trans hes,
      hsame.target.trans het, by rw [hrec, hkind], by rw [hrec, hpin], hsame.prio.trans hep⟩
    · rw [hy]; exact hslot
    · rw [hy]; exact hV

end Sys2Proof.Machine
end

section
/-! PROOF. Launching (R55, R153, R157 to R161): what the record, the release of a slot and the placing of a vtile change, the team that
starts, the member that quits, the team that ends, and O47. -/

namespace Sys2Proof

/-! ### Fields below a field that is set, and fields of fields (R3) -/

theorem setField_mod (n lo len v : Nat) : setField n lo len v % 2 ^ lo = n % 2 ^ lo := by
  have hn : (n / 2 ^ lo / 2 ^ len * 2 ^ len + field n lo len) * 2 ^ lo + n % 2 ^ lo = n := by
    rw [field, Nat.div_add_mod', Nat.div_add_mod']
  have hs : setField n lo len v = n % 2 ^ lo + (n / 2 ^ lo / 2 ^ len * 2 ^ len + v % 2 ^ len) * 2 ^ lo := by
    unfold setField
    rw [Nat.add_mul] at hn ⊢
    omega
  rw [hs, Nat.add_mul_mod_self_right, Nat.mod_mod]

theorem field_mod {n lo len w : Nat} (h : lo + len ≤ w) : field (n % 2 ^ w) lo len = field n lo len := by
  obtain ⟨k, rfl⟩ := Nat.exists_eq_add_of_le h
  unfold field
  rw [Nat.add_assoc, Nat.pow_add, Nat.mod_mul_right_div_self, Nat.pow_add, Nat.mod_mul_right_mod]

/-- A field below the one that is set stays. -/
theorem field_setField_below {n lo len lo' len' v : Nat} (h : lo' + len' ≤ lo) :
    field (setField n lo len v) lo' len' = field n lo' len' := by
  rw [← field_mod h, setField_mod, field_mod h]

/-- The low bits of a field are a field. -/
theorem field_field_low {n lo len len' : Nat} (h : len' ≤ len) : field (field n lo len) 0 len' = field n lo len' := by
  have hm : field n lo len = n / 2 ^ lo % 2 ^ len := rfl
  rw [hm, field_mod (by omega), field, field, Nat.pow_zero, Nat.div_one]

end Sys2Proof

namespace Sys2Proof.Machine

theorem recCode_completed (t : Team) (r : BitVec 512) : recCode (completedRec t r) = recCode r := by
  have keep (q : BitVec 512) {lo len : Nat} (v : Nat) (h : 64 ≤ lo) (hw : lo + len ≤ 512) : recCode (recSet q lo len v) = recCode q := by
    unfold recCode recBits recSet
    rw [toNat_ofNat_setField q v hw, field_setField_below (by omega)]
  unfold completedRec
  rw [keep _ _ (by omega) (by omega), keep _ _ (by omega) (by omega)]

theorem recCode_entryRec (t : Team) : recCode (entryRec t) = t.f 512 64 := by
  have keep (w n lo : Nat) : (BitVec.ofNat w (field n lo w)).toNat = field n lo w := by
    rw [BitVec.toNat_ofNat, Nat.mod_eq_of_lt (field_lt n lo w)]
  unfold recCode recBits entryRec Team.f
  rw [keep]
  exact field_field_low (by omega)

/-! ### What the records and the slot of a packet change (R155, R160, R269) -/

theorem State.putDivEntry_eq (s : State) (id lr : Nat) :
    ∃ m l p, s.putDivEntry id lr = { s with mem := m, live := l, poison := p } := by
  unfold putDivEntry
  split
  · split
    · exact ⟨_, _, _, rfl⟩
    · exact hbmPut_eq _ _ _ _
  · exact ⟨_, _, _, rfl⟩

theorem putRecord_eq (s : State) (t : Team) (bs : List Byte) :
    ∃ m l p d, putRecord s t bs = { s with mem := m, live := l, poison := p, doneRecs := d } := by
  have lost : ∃ m l p d, countLost s t.queue = { s with mem := m, live := l, poison := p, doneRecs := d } := by
    obtain ⟨m, l, p, h⟩ := s.hbmPut_eq (descAddr s t.queue) 4 (min (field (desc s t.queue) 0 32 + 1) 0xFFFFFFFF)
    exact ⟨m, l, p, s.doneRecs, h⟩
  unfold putRecord
  split
  · exact lost
  · next e _ =>
    split
    · exact ⟨_, _, _, _, rfl⟩
    · split
      · exact lost
      · obtain ⟨l, p, h⟩ := s.commit_eq (e.key 0 t.doneofs) bs
        exact ⟨_, l, p, s.doneRecs, h⟩

theorem completionRecord_eq (s : State) (t : Team) (status start faults discard defdrop : Nat) :
    ∃ m l p d, completionRecord s t status start faults discard defdrop = { s with mem := m, live := l, poison := p, doneRecs := d } :=
  putRecord_eq s t _

theorem hbmBytes_eq (s : State) (a : Nat) (bs : List Byte) :
    ∃ m l p, hbmBytes s a bs = { s with mem := m, live := l, poison := p } := by
  unfold hbmBytes
  split
  · obtain ⟨l, p, h⟩ := s.commit_eq (hbmKey a) bs
    exact ⟨_, l, p, h⟩
  · exact ⟨_, _, _, rfl⟩

theorem finalSnapshot_eq (s : State) (t : Team) :
    ∃ m l p n, finalSnapshot s t = { s with mem := m, live := l, poison := p, snapSeq := n } := by
  obtain ⟨m, l, p, h⟩ := hbmBytes_eq s (field s.fsnap.toNat 12 40 * 2 ^ 12 + 384 * (s.snapSeq % 2 ^ field s.fsnap.toNat 0 5))
    (counterRecord s t (bytesOf 48 0))
  unfold finalSnapshot
  dsimp only
  rw [h]
  split
  · exact ⟨m, l, p, _, rfl⟩
  · exact ⟨_, _, _, _, rfl⟩

theorem restSlot_eq (s : State) (slot : Nat) : ∃ q, restSlot s slot = { s with qslots := q } := by
  unfold restSlot
  split
  · exact ⟨_, rfl⟩
  · exact ⟨_, rfl⟩

/-- A refusal writes its record, and forgets the gang of a member. -/
theorem refuse_eq (s : State) (l : Launch) (status : Nat) (abort : Bool) : ∃ m li p d o g,
    refuse s l status abort = { s with mem := m, live := li, poison := p, doneRecs := d, outbox := o, gangs := g } ∧
    (l.isGang = true → l.gang ≠ 0 → lookup l.gang g = none) := by
  unfold refuse
  extract_lets t g s' z
  obtain ⟨o, gs, hz, hgone⟩ : ∃ o gs, z = { s with outbox := o, gangs := gs } ∧
      (l.isGang = true → l.gang ≠ 0 → lookup l.gang gs = none) := by
    by_cases hg : (t.f 60 4 == 1 && g != 0) = true
    · have hz : z = if abort then s'.tellPeers t.teamid (State.others t) fun q z => .gangAbort q z t.teamid g else s' := if_pos hg
      rw [hz]
      split
      · obtain ⟨o, ho⟩ := s'.tellPeers_eq t.teamid (State.others t) fun q z => .gangAbort q z t.teamid g
        exact ⟨o, _, ho, fun _ _ => lookup_eraseAt_self _ _⟩
      · exact ⟨_, _, rfl, fun _ _ => lookup_eraseAt_self _ _⟩
    · refine ⟨_, _, if_neg hg, fun hk h0 => absurd ?_ hg⟩
      have hk' : (t.f 60 4 == 1) = true := hk
      rw [hk', Bool.true_and, bne_iff_ne]
      exact h0
  obtain ⟨m, li, p, d, h⟩ := completionRecord_eq z t status 0 0 0 0
  rw [h, hz]
  exact ⟨m, li, p, d, o, gs, rfl, hgone⟩

/-! ### Tiles that a member holds (R161) -/

/-- A tile after RESERVED has been given to some tiles. -/
theorem tile_foldl_reserved (b : Bool) (ps : List Nat) (s : State) : ∃ x,
    ps.foldl (fun s i => s.onTile i fun y => { y with reserved := b }) s = { s with tiles := x } ∧
    ∀ p, (p ∈ ps ∨ (s.tile p).reserved = b) → ((lookup p x).getD Tile.initial).reserved = b := by
  induction ps generalizing s with
  | nil => exact ⟨s.tiles, rfl, fun p h => h.resolve_left (List.not_mem_nil)⟩
  | cons i r ih =>
    obtain ⟨x, hx, hr⟩ := ih (s.onTile i fun y => { y with reserved := b })
    refine ⟨x, by rw [List.foldl_cons, hx]; rfl, fun p h => hr p ?_⟩
    have ht : (s.onTile i fun y => { y with reserved := b }).tile p = if p = i then { s.tile i with reserved := b } else s.tile p :=
      State.tile_putTile s i _ p
    rw [ht]
    split
    · exact .inr rfl
    · next hp => exact h.imp_left fun hm => (List.mem_cons.1 hm).resolve_left hp

/-- A member that quits gives its tiles and its place back, and its gang is forgotten (R161). -/
theorem quitGang_quits (s : State) (l : Launch) (status : Nat) (abort : Bool) (hg : l.isGang = true) (h0 : l.gang ≠ 0) :
    (quitGang s l status abort).launches = s.launches.filter (· != l) ∧ (quitGang s l status abort).teams = s.teams ∧
    lookup l.gang (quitGang s l status abort).gangs = none ∧
    ∀ p ∈ l.tiles.getD [], ((quitGang s l status abort).tile p).reserved = false := by
  obtain ⟨x, hx, hres⟩ := tile_foldl_reserved false (l.tiles.getD []) { s with launches := s.launches.filter (· != l) }
  obtain ⟨m, li, p, d, o, g, hr, hgone⟩ :=
    refuse_eq { s with launches := s.launches.filter (· != l), tiles := x } l status abort
  obtain ⟨q, hq⟩ := restSlot_eq { s with
    launches := s.launches.filter (· != l), tiles := x, mem := m, live := li, poison := p, doneRecs := d, outbox := o, gangs := g } l.slot
  have h : quitGang s l status abort = { s with
      launches := s.launches.filter (· != l), tiles := x, mem := m, live := li, poison := p, doneRecs := d, outbox := o, gangs := g,
      qslots := q } := by
    unfold quitGang
    dsimp only
    rw [hx]
    dsimp only
    rw [hr, hq]
  rw [h]
  exact ⟨rfl, rfl, hgone hg h0, fun p hp => hres p (.inl hp)⟩

/-! ### The vtiles of a team that starts (R27, R125, R185) -/

theorem placeVtile_eq (id : Nat) (s : State) (p lr : Nat) : ∃ idx m li po x, placeVtile id s (p, lr) = { s with
    mem := m, live := li, poison := po, tiles := x, vtiles := insertAt (vtileKey id lr) (newVtile p idx) s.vtiles } := by
  obtain ⟨po, hp⟩ := State.clearPoison_eq { s with mem := s.mem.clear (storeKey p 0) storeSize } (granulesWhole (storeKey p 0) storeSize)
  unfold placeVtile
  dsimp only
  rw [hp]
  generalize hz : State.onTile _ p _ = z
  obtain ⟨m, li, po', h⟩ := z.putDivEntry_eq id lr
  rw [h, ← hz]
  exact ⟨_, m, li, po', _, rfl⟩

/-- Every vtile of a list of tiles, from a local rank on, is placed on its tile. -/
theorem placeVtiles_eq (id : Nat) (ps : List Nat) (n : Nat) (s : State) : ∃ m li po x vs,
    (ps.zipIdx n).foldl (placeVtile id) s = { s with mem := m, live := li, poison := po, tiles := x, vtiles := vs } ∧
    (∀ j, (∀ i, i < ps.length → j ≠ vtileKey id (n + i)) → lookup j vs = lookup j s.vtiles) ∧
    ∀ i p, ps[i]? = some p → ∃ idx, lookup (vtileKey id (n + i)) vs = some (newVtile p idx) := by
  induction ps generalizing n s with
  | nil => exact ⟨_, _, _, _, _, rfl, fun _ _ => rfl, fun _ _ h => by cases h⟩
  | cons q r ih =>
    obtain ⟨idx, m, li, po, x, h⟩ := placeVtile_eq id s q n
    obtain ⟨m', li', po', x', vs, h', hkeep, hput⟩ := ih (n + 1) (placeVtile id s (q, n))
    rw [h] at hkeep
    refine ⟨m', li', po', x', vs, by rw [List.zipIdx_cons, List.foldl_cons, h', h], fun j hj => ?_, fun i p hi => ?_⟩
    · rw [hkeep j fun i hi => by rw [Nat.add_assoc, Nat.add_comm 1]; exact hj (i + 1) (by rw [List.length_cons]; omega)]
      exact lookup_insertAt_of_ne (by simpa using hj 0 (by simp)) _ _
    · cases i with
      | zero =>
        obtain rfl : q = p := by simpa using hi
        refine ⟨idx, ?_⟩
        rw [hkeep _ fun i _ => by unfold vtileKey; omega]
        exact lookup_insertAt_self _ _ _
      | succ i =>
        rw [Nat.add_comm i 1, ← Nat.add_assoc]
        exact hput i p (by simpa using hi)

/-- An accumulator at launch holds zeros, full, of the FP8 products' kind (R125). -/
theorem newVtile_acc (p idx : Nat) (a : ANum) {i : Nat} (hi : i < 64) (j : Nat) :
    ((newVtile p idx).accs.get a).elem i j = 0 ∧ ((newVtile p idx).accs.get a).full = true ∧
      ((newVtile p idx).accs.get a).rns = false := by
  have ha : (newVtile p idx).accs.get a = ⟨Vector.replicate 64 0, false, true⟩ := Vector.getElem_replicate a.isLt
  rw [ha]
  refine ⟨?_, rfl, rfl⟩
  unfold Acc.elem
  rw [Vector.toList_replicate, List.getD_eq_getElem _ _ (by rwa [List.length_replicate]), List.getElem_replicate]
  rw [lane, BitVec.ofNat_eq_ofNat, BitVec.toNat_zero, Nat.zero_div, Nat.zero_mod]

/-! ### A team that starts (R159) -/

/-- What a team's start leaves: its record in its queue, and its vtiles on their tiles. -/
def Started (s : State) (packet : BitVec 1024) (tiles : List Nat) (start : Nat) : Prop :=
  ∃ T e, s.team? (field packet.toNat 16 16) = some T ∧ T.packet = packet ∧ T.start = start ∧ T.parked = [] ∧
    T.queued = [e] ∧ e.seq = 1 ∧ recCode e.record = field packet.toNat 512 64 ∧
    ∀ (lr p : Nat), tiles[lr]? = some p → lr < 1024 →
      ∃ v, s.vtile? (field packet.toNat 16 16) lr = some v ∧ v.res = true ∧ v.ptile = p ∧ v.div = .resident ∧ v.saves = [] ∧
        v.mq = [] ∧ ∀ (a : ANum) (i j : Nat), i < 64 → j < 64 →
          (v.accs.get a).elem i j = 0 ∧ (v.accs.get a).full = true ∧ (v.accs.get a).rns = false

theorem started_restSlot {s : State} {packet : BitVec 1024} {tiles : List Nat} {start : Nat} (h : Started s packet tiles start)
    (slot : Nat) : Started (restSlot s slot) packet tiles start := by
  obtain ⟨q, hq⟩ := restSlot_eq s slot
  rw [hq]
  exact h

/-- The account of a team counts, and nothing else of it changes. -/
theorem State.account_self {s : State} {id : Nat} {t : Team} (ht : s.team? id = some t) (i n : Nat) : ∃ a b ts,
    lookup id ts = some { t with acct := a, acctsat := b } ∧ s.account id i n = { s with teams := ts } := by
  unfold account onTeam
  rw [ht]
  dsimp only
  split
  · split
    · exact ⟨_, _, _, lookup_insertAt_self _ _ _, rfl⟩
    · exact ⟨_, _, _, lookup_insertAt_self _ _ _, rfl⟩
  · exact ⟨_, _, _, lookup_insertAt_self _ _ _, rfl⟩

theorem startTeam_started (s : State) (l : Launch) (e : HEntry) (tiles : List Nat) (start : Nat) (uids : Table Word) :
    Started (startTeam s l e tiles start uids) l.packet tiles start ∧
      (startTeam s l e tiles start uids).launches = s.launches := by
  generalize hb : newTeam l.packet (min (field l.packet.toNat 55 5) l.prio) l.queue start 0 tiles uids = base
  generalize hs0 : State.putTeam { s with units := s.units.filter fun u => u.1 / 8192 != base.teamid } base.teamid
    { base with area := e.base + base.f 288 32 * 4096 } = s₀
  obtain ⟨m, li, po, x, vs, hplace, -, hput⟩ := placeVtiles_eq base.teamid tiles 0 s₀
  have ht : ({ s₀ with mem := m, live := li, poison := po, tiles := x, vtiles := vs } : State).team? base.teamid =
      some { base with area := e.base + base.f 288 32 * 4096 } := by
    rw [← hs0]
    exact lookup_insertAt_self _ _ _
  obtain ⟨a, b, ts, hts, hacct⟩ : ∃ a b ts,
      lookup base.teamid ts = some { base with area := e.base + base.f 288 32 * 4096, acct := a, acctsat := b } ∧
      (if l.tiles.isSome then ({ s₀ with mem := m, live := li, poison := po, tiles := x, vtiles := vs } : State).account base.teamid
        17 (tiles.length * (({ s₀ with mem := m, live := li, poison := po, tiles := x, vtiles := vs } : State).now - l.since))
        else { s₀ with mem := m, live := li, poison := po, tiles := x, vtiles := vs }) =
        { s₀ with mem := m, live := li, poison := po, tiles := x, vtiles := vs, teams := ts } := by
    split
    · exact State.account_self ht _ _
    · exact ⟨_, _, _, ht, rfl⟩
  obtain ⟨T, q, ts', m', li', po', hq, hp, hpk, hst, hrec, -, hseq, -, -, hT, hspawn⟩ :=
    spawnRec_eq (s := { s₀ with mem := m, live := li, poison := po, tiles := x, vtiles := vs, teams := ts }) hts (entryRec base)
  have h : startTeam s l e tiles start uids =
      { s₀ with tiles := x, vtiles := vs, teams := ts', mem := m', live := li', poison := po' } := by
    unfold startTeam
    dsimp only
    rw [hb, hs0, hplace, hacct, hspawn]
  have hid : base.teamid = field l.packet.toNat 16 16 := by rw [← hb]; rfl
  rw [h]
  refine ⟨⟨T, q, hid ▸ hT, ?_, ?_, ?_, ?_, ?_, ?_, fun lr p hlr _ => ?_⟩, by rw [← hs0]; rfl⟩
  · rw [hpk, ← hb]; rfl
  · rw [hst, ← hb]; rfl
  · rw [hp, ← hb]; rfl
  · rw [hq, ← hb]; rfl
  · rw [hseq, ← hb]; rfl
  · rw [hrec, recCode_completed, recCode_entryRec, ← hb]; rfl
  · obtain ⟨idx, hv⟩ := hput lr p hlr
    rw [Nat.zero_add, hid] at hv
    exact ⟨newVtile p idx, hv, rfl, rfl, rfl, rfl, rfl, fun a i j hi _ => newVtile_acc p idx a hi j⟩

/-! ### Packets that are launched, granted, or wait (R153, R157, R159) -/

/-- A packet of one package that is granted its tiles starts its team there. -/
theorem grant_started {s : State} {l : Launch} {tiles : List Nat} {e : HEntry} (hg : l.isGang = false)
    (he : areaEntry s (newTeam l.packet 0 l.queue 0 0 [] []) = some e) :
    Started (grant s l tiles) l.packet tiles s.now ∧ (grant s l tiles).launches = s.launches.filter (· != l) := by
  have he' : areaEntry { s with launches := s.launches.filter (· != l) } (newTeam l.packet 0 l.queue 0 0 [] []) = some e := he
  obtain ⟨hs, hl⟩ := startTeam_started { s with launches := s.launches.filter (· != l) } l e tiles s.now []
  have h : grant s l tiles =
      restSlot (startTeam { s with launches := s.launches.filter (· != l) } l e tiles s.now []) l.slot := by
    unfold grant
    rw [hg]
    dsimp only
    rw [he']
    rfl
  obtain ⟨q, hq⟩ := restSlot_eq (startTeam { s with launches := s.launches.filter (· != l) } l e tiles s.now []) l.slot
  rw [h]
  exact ⟨started_restSlot hs _, by rw [hq]; exact hl⟩

/-- A packet that passes its checks has an entry for its team area. -/
theorem areaEntry_of_packetStatus {s : State} {t : Team} {d : Nat} (h : packetStatus s t d = 0) : ∃ e, areaEntry s t = some e := by
  unfold packetStatus at h
  dsimp only at h
  split at h
  · cases h
  split at h
  · cases h
  split at h
  · cases h
  split at h
  · next c e _ ha =>
    unfold packetEntry at ha
    split at ha
    · next x hx => exact ⟨x, hx⟩
    · cases ha
  · cases h

section Launch

variable {s : State} {slot : Nat} {x : QSlot}

/-- The packet at the head of a slot's ring. -/
def headPacket (s : State) (x : QSlot) : BitVec 1024 :=
  BitVec.ofNat 1024 (s.mem.num (hbmKey (descBase (desc s x.queue) + 128 +
    128 * (ridx s (desc s x.queue) % descSize (desc s x.queue)))) 128)

/-- The state in which the head packet of a slot has been taken. -/
def takenPacket (s : State) (slot : Nat) (x : QSlot) : State :=
  { s.commit (hbmKey (descBase (desc s x.queue) + 8)) (bytesOf 8 (ridx s (desc s x.queue) + 1)) with
    served := insertAt x.prio slot s.served, qslots := insertAt slot { x with st := .active } s.qslots }

theorem takenPacket_eq (s : State) (slot : Nat) (x : QSlot) : ∃ l p, takenPacket s slot x = { s with
    mem := s.mem.put (hbmKey (descBase (desc s x.queue) + 8)) (bytesOf 8 (ridx s (desc s x.queue) + 1))
    live := l, poison := p
    served := insertAt x.prio slot s.served, qslots := insertAt slot { x with st := .active } s.qslots } := by
  obtain ⟨l, p, h⟩ := s.commit_eq (hbmKey (descBase (desc s x.queue) + 8)) (bytesOf 8 (ridx s (desc s x.queue) + 1))
  unfold takenPacket
  rw [h]
  exact ⟨l, p, rfl⟩

variable (hn : nextReady s = some (slot, x)) (hd : descOk (desc s x.queue) = true)
  (hst : packetStatus (takenPacket s slot x) (newTeam (headPacket s x) 0 x.queue 0 0 [] []) (desc s x.queue) = 0)
include hn hd hst

/-- A packet that passes its checks goes on to steps 2 and 3 of R159. -/
theorem exec_launchPacket_passes :
    exec .launchPacket s = .next (allocate (takenPacket s slot x) ⟨slot, x.queue, headPacket s x, x.prio, none, 0⟩) := by
  obtain ⟨l, p, h⟩ := s.commit_eq (hbmKey (descBase (desc s x.queue) + 8)) (bytesOf 8 (ridx s (desc s x.queue) + 1))
  show execLaunchPacket s = _
  unfold execLaunchPacket
  rw [hn]
  dsimp only
  rw [hd]
  have hserved : (s.commit (hbmKey (descBase (desc s x.queue) + 8)) (bytesOf 8 (ridx s (desc s x.queue) + 1))).served = s.served ∧
      (s.commit (hbmKey (descBase (desc s x.queue) + 8)) (bytesOf 8 (ridx s (desc s x.queue) + 1))).qslots = s.qslots := by
    rw [h]
    exact ⟨rfl, rfl⟩
  rw [hserved.1, hserved.2]
  exact congrArg Host.Outcome.next (if_pos hst)

variable (hlay : (layout (newTeam (headPacket s x) 0 x.queue 0 0 [] []) (tileThere s)).isSome)
  (hkind : field (headPacket s x).toNat 60 4 = 0) (hahead : ∀ l ∈ s.launches, l.tiles = none → l.prio < x.prio)
include hlay hkind hahead

/-- A packet that waits for nothing but tiles, and that no waiting packet precedes, takes them when it finds them. -/
theorem exec_launchPacket_allocates :
    exec .launchPacket s = .next (match tilesNow (takenPacket s slot x) (newTeam (headPacket s x) 0 x.queue 0 0 [] []) with
      | some tiles => grant (takenPacket s slot x) ⟨slot, x.queue, headPacket s x, x.prio, none, 0⟩ tiles
      | none => setSlot { takenPacket s slot x with
          launches := s.launches ++ [⟨slot, x.queue, headPacket s x, x.prio, none, 0⟩] } slot .wait) := by
  obtain ⟨l, p, h⟩ := takenPacket_eq s slot x
  have hthere : tileThere (takenPacket s slot x) = tileThere s := by rw [h]; rfl
  have hl : (takenPacket s slot x).launches = s.launches := by rw [h]
  have hgang : (⟨slot, x.queue, headPacket s x, x.prio, none, 0⟩ : Launch).isGang = false :=
    beq_eq_false_iff_ne.2 (by show field (headPacket s x).toNat 60 4 ≠ 1; omega)
  have hnone : (s.launches.any fun y => y.tiles.isNone && decide (x.prio ≤ y.prio)) = false := by
    rw [List.any_eq_false]
    intro y hy hc
    rw [Bool.and_eq_true, Option.isNone_iff_eq_none, decide_eq_true_eq] at hc
    have := hahead y hy hc.1
    omega
  rw [exec_launchPacket_passes hn hd hst]
  unfold allocate
  dsimp only
  rw [hthere, hl, hgang, Option.isNone_eq_false_iff.2 hlay, hnone]
  rfl

end Launch

/-! ### Gangs (R161) -/

theorem exec_gangReady_heeded {s : State} {gang : Nat} (h : tickGone s gang = false) (pkg : Nat) (uid : Word) :
    exec (.gangReady gang pkg uid) s = .next { s with
      gangs := insertAt gang { gangOf s gang with heard := insertAt pkg uid (gangOf s gang).heard } s.gangs } :=
  if_neg (by rw [h]; exact Bool.false_ne_true)

/-- An ABORT before TICK makes the member quit. -/
theorem exec_gangAbort_quits {s : State} {gang : Nat} {l : Launch} (hl : gangLaunch s gang = some l) (hnow : s.now < l.tick) :
    exec (.gangAbort gang) s =
      .next (quitGang { s with gangs := insertAt gang { gangOf s gang with aborted := true } s.gangs } l 7 false) := by
  have htick : tickGone s gang = false := by
    unfold tickGone
    rw [hl]
    exact decide_eq_false (by omega)
  have hl' : gangLaunch { s with gangs := insertAt gang { gangOf s gang with aborted := true } s.gangs } gang = some l := hl
  refine (if_neg (by rw [htick]; exact Bool.false_ne_true)).trans ?_
  dsimp only
  rw [hl']
  exact if_pos hnow

/-- A member with its tiles that has heard every other one starts at TICK. -/
theorem exec_gangTick_starts {s : State} {gang : Nat} {l : Launch} {tiles : List Nat} {e : HEntry}
    (hl : s.launches.find? (fun l => l.isGang && l.gang == gang && l.tiles.isSome) = some l) (ht : l.tiles = some tiles)
    (hnow : l.tick ≤ s.now)
    (hheard : ∀ p, p < (newTeam l.packet 0 0 0 0 [] []).nP → p ≠ (newTeam l.packet 0 0 0 0 [] []).pc →
      (lookup p (gangOf s gang).heard).isSome)
    (hab : (gangOf s gang).aborted = false) (he : areaEntry s (newTeam l.packet 0 0 0 0 [] []) = some e) :
    exec (.gangTick gang) s = .next (restSlot (startTeam
      { s with launches := s.launches.filter (· != l), gangs := eraseAt gang s.gangs } l e tiles l.tick (gangOf s gang).heard)
      l.slot) := by
  have hall : ((List.range (newTeam l.packet 0 0 0 0 [] []).nP).all fun p =>
      p == (newTeam l.packet 0 0 0 0 [] []).pc || (lookup p (gangOf s gang).heard).isSome) = true := by
    rw [List.all_eq_true]
    intro p hp
    rw [Bool.or_eq_true, beq_iff_eq]
    exact or_iff_not_imp_left.2 (hheard p (List.mem_range.1 hp))
  show execGangTick gang s = _
  unfold execGangTick
  rw [hl]
  dsimp only
  rw [if_neg (by omega), hall, hab, he, ht]
  rfl

/-! ### The end of a team (R55, R160) -/

/-- The vtiles of a team whose diversion entries are freed stay where they are in the table, and no other part than memory changes. -/
theorem freeDivs_eq (id : Nat) (ls : List Nat) (s : State) : ∃ m li po vs,
    ls.foldl (fun s lr => (s.onVtile id lr fun v => { v with div := .free }).putDivEntry id lr) s =
      { s with mem := m, live := li, poison := po, vtiles := vs } := by
  induction ls generalizing s with
  | nil => exact ⟨_, _, _, _, rfl⟩
  | cons lr r ih =>
    obtain ⟨vs, hv⟩ : ∃ vs, (s.onVtile id lr fun v => { v with div := .free }) = { s with vtiles := vs } := by
      unfold State.onVtile
      split
      · exact ⟨_, rfl⟩
      · exact ⟨_, rfl⟩
    obtain ⟨m, li, po, h⟩ := State.putDivEntry_eq { s with vtiles := vs } id lr
    obtain ⟨m', li', po', vs', h'⟩ := ih { s with mem := m, live := li, poison := po, vtiles := vs }
    exact ⟨m', li', po', vs', by rw [List.foldl_cons, hv, h, h']⟩

/-- A table whose values are changed by key. -/
theorem lookup_mapKey {α : Type} (k : Nat) (f : Nat × α → α) (l : List (Nat × α)) :
    lookup k (l.map fun c => (c.1, f c)) = (lookup k l).map fun x => f (k, x) := by
  induction l with
  | nil => rfl
  | cons c r ih =>
    obtain ⟨j, x⟩ := c
    rw [List.map_cons, lookup, lookup]
    split
    · next h => subst h; rfl
    · exact ih

/-- A tile as the end of a team leaves it: its owner is gone when it was of that team. -/
def leftTile (id : Nat) (waits : List Nat) (x : Nat × Tile) : Tile :=
  let y := match x.2.owner with
    | some o => if o.1 = id then { x.2 with owner := none } else x.2
    | none => x.2
  if waits.contains x.1 then { y with reserved := false } else y

theorem leftTile_owner (id : Nat) (waits : List Nat) (x : Nat × Tile) : (leftTile id waits x).owner.map (·.1) ≠ some id := by
  have h : (leftTile id waits x).owner = none ∨ ∃ o, (leftTile id waits x).owner = some o ∧ o.1 ≠ id := by
    unfold leftTile
    cases ho : x.2.owner with
    | none =>
      dsimp only
      split
      · exact .inl ho
      · exact .inl ho
    | some o =>
      dsimp only
      by_cases hid : o.1 = id
      · rw [if_pos hid]
        split
        · exact .inl rfl
        · exact .inl rfl
      · rw [if_neg hid]
        split
        · exact .inr ⟨o, ho, hid⟩
        · exact .inr ⟨o, ho, hid⟩
  obtain h | ⟨o, h, hne⟩ := h
  · rw [h]; simp
  · rw [h]; simpa using hne

/-- A released team is gone, its vtiles with it, and no tile is its any more. -/
theorem releaseTeam_gone (s : State) (id : Nat) (t : Team) :
    (releaseTeam s id t).teams = eraseAt id s.teams ∧
    (∀ lr, lr < 1024 → (releaseTeam s id t).vtile? id lr = none) ∧
    ∀ x, ((releaseTeam s id t).tile x).owner.map (·.1) ≠ some id := by
  obtain ⟨m, li, po, vs, hfree⟩ := freeDivs_eq id (List.range t.size) s
  obtain ⟨l, hforget⟩ : ∃ l, ({ s with mem := m, live := li, poison := po, vtiles := vs } : State).forgetUnits id =
      { s with mem := m, live := l, poison := po, vtiles := vs } := by
    unfold State.forgetUnits
    split
    · exact ⟨_, rfl⟩
    · exact ⟨_, rfl⟩
  have hsettle (z : State) : z.settleOrder.teams = z.teams ∧ z.settleOrder.vtiles = z.vtiles ∧ z.settleOrder.tiles = z.tiles := by
    unfold State.settleOrder
    split
    · exact ⟨rfl, rfl, rfl⟩
    · exact ⟨rfl, rfl, rfl⟩
  obtain ⟨waits, hteams, hvtiles, htiles⟩ : ∃ waits, (releaseTeam s id t).teams = eraseAt id s.teams ∧
      (releaseTeam s id t).vtiles = vs.filter (fun v => v.1 / 1024 != id) ∧
      (releaseTeam s id t).tiles = s.tiles.map fun x => (x.1, leftTile id waits x) := by
    unfold releaseTeam
    extract_lets waits z z'
    have hz : z' = { s with mem := m, live := l, poison := po, vtiles := vs } := (congrArg (State.forgetUnits · id) hfree).trans hforget
    refine ⟨waits, (hsettle _).1.trans ?_, (hsettle _).2.1.trans ?_, (hsettle _).2.2.trans ?_⟩
    · rw [hz]
    · rw [hz]
    · rw [hz]
      rfl
  refine ⟨hteams, fun lr hlr => ?_, fun x => ?_⟩
  · unfold State.vtile?
    rw [hvtiles, lookup_filter_key (fun j => j / 1024 != id)]
    have hk : vtileKey id lr / 1024 = id := by unfold vtileKey; omega
    rw [hk, bne_self_eq_false]
    rfl
  · unfold State.tile
    rw [htiles, lookup_mapKey]
    cases lookup x s.tiles with
    | none => simp [Tile.initial]
    | some y => exact leftTile_owner id waits (x, y)

theorem exec_teamCompletion_idle {s : State} {id : Nat} {t : Team} (ht : s.team? id = some t) (hi : teamIdle s id t = true) :
    ∃ u, exec (.teamCompletion id) s = .next (releaseTeam u id t) ∧ u.teams = s.teams := by
  have hx : exec (.teamCompletion id) s = .next (releaseTeam (completionRecord (finalSnapshot s t) t 0 t.start t.fqw
      (t.discard + t.parked.length)
      ((s.copies.filter fun c => c.2.who.team == id).length + (s.reds.filter fun r => r.2.who.team == id).length)) id t) := by
    show execTeamCompletion id s = _
    unfold execTeamCompletion
    rw [ht]
    exact if_pos hi
  obtain ⟨m, l, p, n, hf⟩ := finalSnapshot_eq s t
  obtain ⟨m', l', p', d, hc⟩ := completionRecord_eq { s with mem := m, live := l, poison := p, snapSeq := n } t 0 t.start t.fqw
    (t.discard + t.parked.length)
    ((s.copies.filter fun c => c.2.who.team == id).length + (s.reds.filter fun r => r.2.who.team == id).length)
  rw [hf, hc] at hx
  exact ⟨_, hx, rfl⟩

/-! ### O47 -/

/-- Settles O47: a packet that passes its checks takes tiles or waits, tiles go to the packet that waits, a gang member starts at
TICK or quits, and a team that is idle is released. -/
theorem launchSteps : Obligations.LaunchSteps := by
  unfold Obligations.LaunchSteps
  intro started quits
  refine ⟨?launch, ?tileGrant, ?deadline, ?gone, ?ready, ?abort, ?tick, ?completion⟩
  case launch =>
    intro s slot x tiles hn hok d i packet t s1 hd hst hlay hkind hahead
    have hx := exec_launchPacket_allocates hn hd hst hlay hkind hahead
    obtain ⟨l, p, hs⟩ := takenPacket_eq s slot x
    refine ⟨fun htiles => ?_, fun htiles => ?_⟩
    · obtain ⟨e, he⟩ := areaEntry_of_packetStatus hst
      have hgang : (⟨slot, x.queue, packet, x.prio, none, 0⟩ : Launch).isGang = false :=
        beq_eq_false_iff_ne.2 (by show field packet.toNat 60 4 ≠ 1; omega)
      obtain ⟨hstart, -⟩ := grant_started (tiles := tiles) hgang he
      have hnow : (takenPacket s slot x).now = s.now := by rw [hs]; rfl
      have htiles' : tilesNow (takenPacket s slot x) (newTeam (headPacket s x) 0 x.queue 0 0 [] []) = some tiles := htiles
      rw [htiles'] at hx
      exact ⟨_, hx, hnow ▸ hstart⟩
    · have htiles' : tilesNow (takenPacket s slot x) (newTeam (headPacket s x) 0 x.queue 0 0 [] []) = none := htiles
      have hslot : lookup slot (takenPacket s slot x).qslots = some { x with st := .active } := by
        rw [hs]; exact lookup_insertAt_self _ _ _
      have hset : setSlot { takenPacket s slot x with
          launches := s.launches ++ [⟨slot, x.queue, headPacket s x, x.prio, none, 0⟩] } slot .wait =
          { takenPacket s slot x with
            launches := s.launches ++ [⟨slot, x.queue, headPacket s x, x.prio, none, 0⟩]
            qslots := insertAt slot { x with st := .wait } (takenPacket s slot x).qslots } := by
        unfold setSlot
        dsimp only
        rw [hslot]
      rw [htiles'] at hx
      dsimp only at hx
      rw [hset] at hx
      refine ⟨_, hx, by rw [hs], rfl, lookup_insertAt_self _ _ _, ?_⟩
      have hnum := State.commit_num hok (hbmKey (descBase d + 8)) 8 (i + 1)
      exact hnum
  case tileGrant =>
    intro s l tiles e hw hg t htiles he
    obtain ⟨hstart, hl⟩ := grant_started (s := s) (tiles := tiles) (e := e) hg he
    refine ⟨_, ?_, hl, hstart⟩
    show execTileGrant s = _
    unfold execTileGrant
    rw [hw]
    dsimp only
    rw [hg, htiles]
    rfl
  case deadline =>
    intro slot s l hl h0 hnow
    have hg : l.isGang = true := by
      have := List.find?_some hl
      simp only [Bool.and_eq_true] at this
      exact this.2
    refine ⟨_, ?_, quitGang_quits s l 6 true hg h0⟩
    show execGangDeadline slot s = _
    unfold execGangDeadline
    rw [hl]
    exact if_pos hnow
  case gone => exact fun gang pkg uid s h => ⟨if_pos h, if_pos h⟩
  case ready =>
    intro gang pkg uid s h
    have hof : gangOf { s with gangs := insertAt gang { gangOf s gang with heard := insertAt pkg uid (gangOf s gang).heard } s.gangs }
        gang = { gangOf s gang with heard := insertAt pkg uid (gangOf s gang).heard } := by
      unfold gangOf
      dsimp only
      rw [lookup_insertAt_self]
      rfl
    refine ⟨_, exec_gangReady_heeded h pkg uid, ?_, fun p hp => ?_, rfl⟩
    · rw [hof]; exact lookup_insertAt_self _ _ _
    · rw [hof]; exact lookup_insertAt_of_ne hp _ _
  case abort =>
    intro gang s l hl h0 hnow
    have hf := List.find?_some hl
    rw [Bool.and_eq_true, beq_iff_eq] at hf
    exact ⟨_, exec_gangAbort_quits hl hnow, quitGang_quits _ l 7 false hf.1 (hf.2 ▸ h0)⟩
  case tick =>
    intro gang s l tiles e hl ht hnow t hheard hab he
    exact ⟨_, exec_gangTick_starts hl ht hnow hheard hab he, started_restSlot (startTeam_started _ l e tiles l.tick _).1 _⟩
  case completion =>
    intro id s t ht hi
    obtain ⟨u, hx, hu⟩ := exec_teamCompletion_idle ht hi
    obtain ⟨hteams, hvt, htile⟩ := releaseTeam_gone u id t
    rw [hu] at hteams
    refine ⟨_, hx, ?_, hvt, htile, fun j hj => ?_⟩
    · unfold State.team?
      rw [hteams]
      exact lookup_eraseAt_self _ _
    · unfold State.team?
      rw [hteams]
      exact lookup_eraseAt_of_ne hj _

end Sys2Proof.Machine
end

section
/-! PROOF. O39 fails. Its second half leaves open where the vtile of the faulting strand stands: the forced arrivals of R94 are traced
on that tile (R257), and a trace ring that lies over the fault-queue header then overwrites ARM before R173 reads it. -/

namespace Sys2Proof.Machine

/-! ### What a trace record on its own leaves in HBM (R256, R258) -/

namespace State

/-- The first byte of a number that is put into HBM. -/
theorem liveByte_hbmPut_first {s : State} (h : s.ok) {a n v : Nat} (ha : hbmHas a (n + 1) = true) :
    (s.hbmPut a (n + 1) v).liveByte a = BitVec.ofNat 8 v := by
  have hin : hbmKey a ≤ a ∧ a < hbmKey a + (bytesOf (n + 1) v).length := by
    rw [length_bytesOf]
    unfold hbmKey
    omega
  have hput : s.hbmPut a (n + 1) v = s.commit (hbmKey a) (bytesOf (n + 1) v) := if_pos ha
  have hlive : lookup a (s.commit (hbmKey a) (bytesOf (n + 1) v)).live = none := by
    rw [lookup_live_commit, if_pos hin]
  have hsub : a - hbmKey a = 0 := Nat.sub_self a
  rw [hput, liveByte_of_unlisted hlive, commit_mem, Memory.byte_put h, if_pos hin, hsub]
  rfl

/-- The lowest byte of a live number is the live byte at its address. -/
theorem liveNum_mod (s : State) (a n : Nat) : s.liveNum a (n + 1) % 256 = (s.liveByte a).toNat := by
  unfold liveNum
  rw [interval_succ, List.map_cons, ofBytes]
  have := (s.liveByte a).isLt
  omega

/-- With nothing buffered, and its way to the ring behind it, a trace record goes straight into the ring. -/
theorem trace_alone {s : State} {tile lvt slot kind info data : Nat} (hon : bit (s.tile tile).trctl.toNat 63 = true)
    (hkind : bit (s.tile tile).trctl.toNat (traceBit kind) = true) (hbuf : (s.tile tile).trbuf = [])
    (hdrop : (s.tile tile).trdrop = 0) (howner : (s.tile tile).owner = none)
    (hway : lookup (traceHop tile) s.hops = some [2, 2, 2]) : ∃ x c h y,
    s.trace tile lvt slot kind info data =
      { (({ s with tiles := x, credits := c, hops := h } : State).hbmPut (ringAt (s.tile tile) 0) 16
          (pack [5, 5, 4, 10, 40, 64] [kind, info, slot, lvt, s.now, data])) with tiles := y } := by
  generalize hr : pack [5, 5, 4, 10, 40, 64] [kind, info, slot, lvt, s.now, data] = r
  generalize hz : s.putTile tile { s.tile tile with trbuf := [r] } = z
  have htile : z.tile tile = { s.tile tile with trbuf := [r] } := by rw [← hz]; exact tile_putTile_self _ _ _
  have hstart : s.trace tile lvt slot kind info data = z.flushTrace tile := by
    have hb : buffered (s.tile tile) r (pack [5, 5, 4, 10, 40, 64] [10, 0, slot, lvt, s.now, (s.tile tile).trdrop]) =
        { s.tile tile with trbuf := [r] } := by
      unfold buffered
      rw [if_pos hdrop, hbuf]
      rfl
    unfold trace
    dsimp only
    rw [hon, hkind, hr, hb, hz]
    rfl
  have hcome : (z.cross (traceHop tile) (z.traceWay tile).1 1 (z.traceWay tile).2).1 = true := by
    refine cross_come (ds := [2, 2, 2]) (by rw [← hz]; exact hway) fun i hi => ?_
    have hflits : (z.traceWay tile).2 = 2 := by
      have hlen : (z.tile tile).trbuf.length = 1 := by rw [htile]; rfl
      unfold traceWay
      dsimp only
      rw [hlen]
    have h3 : i < 3 := Nat.lt_of_lt_of_le hi (length_sitePath _ _)
    rw [hflits]
    interval_cases i <;> exact Nat.le_refl 2
  obtain ⟨c, h, hc⟩ := z.cross_eq (traceHop tile) (z.traceWay tile).1 1 (z.traceWay tile).2
  have hflush : z.flushTrace tile = ({ z with credits := c, hops := h } : State).storeTrace tile := by
    unfold flushTrace
    dsimp only
    rw [hcome, hc, htile, howner]
    rfl
  have hstore : ({ z with credits := c, hops := h } : State).tile tile = { s.tile tile with trbuf := [r] } := htile
  rw [hstart, hflush, ← hz]
  unfold storeTrace
  rw [← hz] at hstore
  rw [hstore]
  exact ⟨_, c, h, _, rfl⟩

/-! ### What saving a strand and its fault record leave of the fault-queue header (R52, R172) -/

theorem liveByte_saveInto {s : State} (h : s.ok) (t : Team) (n : Nat) (k : Strand) (why : SaveWhy) {x : Nat}
    (hx : x < hbmKey (t.slotAddr k.lrank n)) : (s.saveInto t n k why).liveByte x = s.liveByte x := by
  have hcommit := liveByte_commit_outside h (bs := imageOf (s.imaged k)) (Or.inl hx)
  obtain ⟨ts, hts⟩ := (s.commit (hbmKey (t.slotAddr k.lrank n)) (imageOf (s.imaged k))).onTeam_eq k.team
    fun t => { t with drawn := t.drawn + if k.allFull then 0 else 1088 }
  rw [← hcommit]
  unfold saveInto drew
  rw [hts]
  unfold onVtile
  split
  · exact liveByte_congr rfl rfl x
  · exact liveByte_congr rfl rfl x

/-- A fault record that finds room is written, and where ARM is not 1 the header beside FQW stays. -/
theorem writeFault_unarmed {s : State} (h : s.ok) {id lr : Nat} {t : Team} {f : FaultRec} (ht : s.team? id = some t)
    (hroom : t.fqw - s.liveNum (hbmKey t.area + 8) 8 ≠ t.fqCap) (ho : f.oabs = false) (hi : f.iabs = false)
    (harm : s.liveNum (hbmKey t.area + 24) 8 ≠ 1) : (s.writeFault id lr f).1 = true ∧
      (s.writeFault id lr f).2.liveNum (hbmKey t.area + 24) 8 = s.liveNum (hbmKey t.area + 24) 8 := by
  have h₁ : (s.putTeam id { t with fqw := t.fqw + 1, lostMark := false }).ok := h
  generalize hz : (((s.putTeam id { t with fqw := t.fqw + 1, lostMark := false }).commit
    (hbmKey t.area + 128 + 64 * (t.fqw % t.fqCap)) (bytesOf 64 (f.bits t.teamid (t.fqw + 1) s.now t.lostMark))).commit
    (hbmKey t.area) (bytesOf 8 (t.fqw + 1))) = z
  have hbyte (x : Nat) (hx : hbmKey t.area + 24 ≤ x) (hx' : x < hbmKey t.area + 24 + 8) : z.liveByte x = s.liveByte x := by
    rw [← hz, liveByte_commit_outside (commit_ok h₁ _ _) (Or.inr (by rw [length_bytesOf]; omega)),
      liveByte_commit_outside h₁ (Or.inl (by omega))]
    rfl
  have hnum : z.liveNum (hbmKey t.area + 24) 8 = s.liveNum (hbmKey t.area + 24) 8 := liveNum_congr hbyte
  have hteam : z.team? id = some { t with fqw := t.fqw + 1, lostMark := false } := by
    obtain ⟨l, p, hc⟩ := (s.putTeam id { t with fqw := t.fqw + 1, lostMark := false }).commit_eq
      (hbmKey t.area + 128 + 64 * (t.fqw % t.fqCap)) (bytesOf 64 (f.bits t.teamid (t.fqw + 1) s.now t.lostMark))
    rw [hc] at hz
    obtain ⟨l', p', hc'⟩ := commit_eq { s.putTeam id { t with fqw := t.fqw + 1, lostMark := false } with
      mem := (s.putTeam id { t with fqw := t.fqw + 1, lostMark := false }).mem.put
        (hbmKey t.area + 128 + 64 * (t.fqw % t.fqCap)) (bytesOf 64 (f.bits t.teamid (t.fqw + 1) s.now t.lostMark))
      live := l, poison := p } (hbmKey t.area) (bytesOf 8 (t.fqw + 1))
    rw [← hz, hc']
    exact lookup_insertAt_self _ _ _
  have hready : z.readyHandler id (t.fqw + 1) = z := by
    unfold readyHandler
    rw [hteam]
    exact if_neg (by rw [hnum]; exact harm)
  have hw : s.writeFault id lr f = (true, z.readyHandler id (t.fqw + 1)) := by
    unfold writeFault
    rw [ht]
    dsimp only
    rw [if_neg hroom, ho, hi, ← hz]
    rfl
  rw [hw, hready]
  exact ⟨rfl, hnum⟩

/-! ### Forced arrivals that wait (R20, R94) -/

/-- A vtile whose current superstep is not open yet stalls its forced arrival. -/
theorem forceVtile_stalls {s : State} {t : Team} {id lr : Nat} {l : Scope} {v : Vtile} (hv : s.vtile? id lr = some v)
    (hl : l ≠ .tile) (h : (s.unit id l (t.unitOf l lr)).step + 4 ≤ current v l) (code : BitVec 16) : ∃ x,
    s.forceVtile t id lr l code =
      s.putUnit id l (t.unitOf l lr) { s.unit id l (t.unitOf l lr) with stalled := x } := by
  have htarget : s.target t id lr l 0 = current v l := by
    unfold target
    rw [hv]
    cases l with
    | tile => exact absurd rfl hl
    | grp | die | pkg | pod => rfl
  unfold forceVtile
  dsimp only
  rw [htarget, if_neg (by omega)]
  exact ⟨_, rfl⟩

/-- A vtile whose current superstep is not open at any of some scopes. -/
def Ahead (s : State) (t : Team) (id lr : Nat) (v : Vtile) : Prop :=
  s.vtile? id lr = some v ∧ ∀ l, l ≠ .tile → (s.unit id l (t.unitOf l lr)).step + 4 ≤ current v l

theorem forceVtiles_stall {t : Team} {id lr : Nat} {v : Vtile} {ls : List Scope} (hls : ∀ l ∈ ls, l ≠ .tile) {s : State}
    (h : s.Ahead t id lr v) : ∃ us,
    ls.foldl (fun s l => s.forceVtile t id lr l 0xFF00) s = { s with units := us } := by
  induction ls generalizing s with
  | nil => exact ⟨s.units, rfl⟩
  | cons l r ih =>
    have hl := hls l (List.mem_cons_self ..)
    obtain ⟨x, hx⟩ := forceVtile_stalls h.1 hl (h.2 l hl) 0xFF00
    have hstep (m : Scope) (w : Nat) : ((s.putUnit id l (t.unitOf l lr)
        { s.unit id l (t.unitOf l lr) with stalled := x }).unit id m w).step = (s.unit id m w).step := by
      rw [unit_putUnit]
      split
      · next hk =>
        unfold unit
        rw [hk]
      · rfl
    obtain ⟨us, hus⟩ := ih (fun m hm => hls m (List.mem_cons_of_mem _ hm)) (s := s.putUnit id l (t.unitOf l lr)
        { s.unit id l (t.unitOf l lr) with stalled := x })
      ⟨h.1, fun m hm => by rw [hstep]; exact h.2 m hm⟩
    exact ⟨us, by rw [List.foldl_cons, hx, hus]; rfl⟩

/-- A precise fault that forces arrivals, when a save slot is free: the strand is saved, and its record is written. -/
theorem takeFault_saves {s : State} {tile slot : Nat} {k : Strand} {t : Team} {v : Vtile} {n cause : Nat}
    (ht : s.team? k.team = some t) (hv : s.vtile? k.team k.lrank = some v)
    (htrace : ∀ lvt slot kind info data, s.trace tile lvt slot kind info data = s) (h8 : slot ≠ 8)
    (hcause : (decide (cause < 0x40) && cause != 8 && cause != 9) = true) (hn : freeSave t v = some n) (addr info word : Word) :
    ∃ f : FaultRec, f.oabs = false ∧ f.iabs = false ∧ ∀ r, s.forceAll t k.team k.lrank k.uid k.tahead = r →
      ∀ w, ((r.1.dropAt tile slot).saveInto t n { k with tahead := r.2, wait := .none } .fault).writeFault k.team k.lrank f = w →
      w.1 = true → s.takeFault tile slot k cause addr info word = w.2 := by
  refine ⟨{ pc := k.pc, word, addr, info, info2 := 0, rank := t.rank k.lrank, slot, cause, save := n, prio := k.prio
            forced := true, held := false, oabs := false, iabs := false, eng := false }, rfl, rfl, fun r hr w hw h1 => ?_⟩
  unfold takeFault
  rw [ht, hv]
  dsimp only
  rw [htrace, if_neg h8, hcause, if_pos rfl, hr, hn, Bool.true_or]
  dsimp only
  rw [hw, h1]
  rfl

end State

/-! ### The counterexample to O39 -/

/-- A team of one vtile with nine save slots, whose code entry stands at 0x1000, and the ARM of whose fault queue at 0x100000. -/
def tracedTeam : Team :=
  newTeam (BitVec.ofNat 1024 (pack [96, 20, 12, 64, 32, 32, 8] [0, 1, 0, 0x1000, 0, 2 ^ 20, 9])) 0 0 0 (0x100000 - 24) [] []

/-- Its vtile stands on tile 5, and is ahead of every open phase but those of tile scope. -/
def tracedVtile : Vtile := { newVtile 5 0 with cur := Vector.replicate 4 100 }

/-- Its strand, which stands in slot 0 of tile 0. -/
def tracedStrand : Strand := bornStrand 0 0 0 ⟨0, .vt 0, 0, 0, 0, none, false, 0, 0⟩

/-- Barrier events of tile 5 are traced, into a ring that begins at 0x100000; the packet that takes the next record there has crossed
every link of its way. -/
def tracedState : State := { State.reset with
  mem := (Memory.put [] 0x1000 (bytesOf 32 (pack [64, 64, 3, 4, 1, 2, 1, 1, 1, 1, 2, 4, 12]
    [0x2000, 0x1000, 4, 0, 1, 0, 1, 1, 1, 1, 0, 0, 1]))).put 0x100000 (bytesOf 8 1)
  strands := [(strandKey 0 0, tracedStrand)]
  vtiles := [(vtileKey 0 0, tracedVtile)]
  teams := [(0, tracedTeam)]
  tiles := [(5, { Tile.initial with trctl := BitVec.ofNat 64 (2 ^ 63 + 2 ^ 61 + 0x100000) })]
  hops := [(traceHop 5, [2, 2, 2])] }

theorem tracedState_ok : tracedState.ok := Memory.wf_put (Memory.wf_put ⟨List.Pairwise.nil, fun _ h => by cases h⟩ _ _) _ _

theorem tracedState_codeEntry : codeEntry tracedState tracedTeam 0 = .ok (tracedState.entry tracedTeam tracedTeam.codeh) := by
  have hentry : (decide (tracedTeam.codeh % 2 ^ 20 < tracedTeam.htlen) && (tracedState.entry tracedTeam tracedTeam.codeh).ok &&
      decide ((tracedState.entry tracedTeam tracedTeam.codeh).space ≤ 4)) = true := by decide +kernel
  have hgen : ((tracedState.entry tracedTeam tracedTeam.codeh).gen == tracedTeam.codeh / 2 ^ 20) = true := by decide +kernel
  unfold codeEntry
  rw [hentry, hgen]
  rfl

/-- The state once the forced arrival at tile scope is recorded, and traced. -/
def tracedOnce : State :=
  tracedState.forceTileAt 0 0 0 0

theorem tracedOnce_arm : tracedOnce.ok ∧ tracedOnce.liveByte 0x100000 = 34 := by
  obtain ⟨us, o, hrec⟩ := tracedState.record_eq 0 .tile 0 0 ⟨0, none, 0xFF00, true, tracedState.now, []⟩ .none 0
  generalize hz : { tracedState with units := us, outbox := o } = z
  have hok : z.ok := by rw [← hz]; exact tracedState_ok
  have htile : z.tile 5 = { Tile.initial with trctl := BitVec.ofNat 64 (2 ^ 63 + 2 ^ 61 + 0x100000) } := by rw [← hz]; rfl
  obtain ⟨x, c, h, y, htr⟩ := z.trace_alone (tile := 5) (lvt := 0) (slot := tracedState.slotOf 0 0 0) (kind := 2) (info := 1)
    (data := 0) (by rw [htile]; decide +kernel) (by rw [htile]; decide +kernel) (by rw [htile]; rfl) (by rw [htile]; rfl) (by rw [htile]; rfl)
    (by rw [← hz]; rfl)
  have hring : State.ringAt (z.tile 5) 0 = 0x100000 := by rw [htile]; decide +kernel
  have hvt : z.traceVt 0 0 (tracedState.slotOf 0 0 0) 2 1 0 = z.trace 5 0 (tracedState.slotOf 0 0 0) 2 1 0 := by rw [← hz]; rfl
  have hw : tracedOnce = z.trace 5 0 (tracedState.slotOf 0 0 0) 2 1 0 := by
    unfold tracedOnce State.forceTileAt
    rw [hrec, hz, hvt]
  rw [hw, htr, hring]
  generalize hu : ({ z with tiles := x, credits := c, hops := h } : State) = u
  have hok' : u.ok := by rw [← hu]; exact hok
  refine ⟨State.hbmPut_ok hok' _ _ _, (State.liveByte_congr (s := u.hbmPut 0x100000 16 _) rfl rfl _).trans
    ((State.liveByte_hbmPut_first hok' (by decide +kernel)).trans ?_)⟩
  rw [← BitVec.toNat_inj, BitVec.toNat_ofNat, pack, pack]
  show _ = 34
  omega

theorem step_unit_record (s : State) (id u k : Nat) (a : Arrival) (rop : BOp) (cnt : Nat) (l : Scope) (w : Nat) :
    ((s.record id .tile u k a rop cnt).unit id l w).step = (s.unit id l w).step := by
  have h : ∃ ps, s.record id .tile u k a rop cnt = s.putUnit id .tile u { s.unit id .tile u with phases := ps } := ⟨_, rfl⟩
  obtain ⟨ps, hps⟩ := h
  rw [hps, State.unit_putUnit]
  split
  · next hk =>
    unfold State.unit
    rw [hk]
  · rfl

/-- Memory, units and what traces change apart, the state is as it was. -/
theorem tracedOnce_eq : ∃ us o m l p x c h, tracedOnce = { tracedState with
    units := us, outbox := o, mem := m, live := l, poison := p, tiles := x, credits := c, hops := h } := by
  obtain ⟨us, o, hrec⟩ := tracedState.record_eq 0 .tile 0 0 ⟨0, none, 0xFF00, true, tracedState.now, []⟩ .none 0
  obtain ⟨m, l, p, x, c, h, htr⟩ := ({ tracedState with units := us, outbox := o } : State).trace_eq 5 0
    (tracedState.slotOf 0 0 0) 2 1 0
  have hvt : ({ tracedState with units := us, outbox := o } : State).traceVt 0 0 (tracedState.slotOf 0 0 0) 2 1 0 =
      ({ tracedState with units := us, outbox := o } : State).trace 5 0 (tracedState.slotOf 0 0 0) 2 1 0 := rfl
  unfold tracedOnce State.forceTileAt
  rw [hrec, hvt, htr]
  exact ⟨us, o, m, l, p, x, c, h, rfl⟩

theorem tracedOnce_teams : tracedOnce.team? 0 = some tracedTeam := by
  obtain ⟨us, o, m, l, p, x, c, h, e⟩ := tracedOnce_eq
  rw [e]
  rfl

theorem tracedOnce_ahead : tracedOnce.Ahead tracedTeam 0 0 tracedVtile := by
  have hunits : tracedOnce.units =
      (tracedState.record 0 .tile 0 0 ⟨0, none, 0xFF00, true, tracedState.now, []⟩ .none 0).units := State.traceVt_units ..
  refine ⟨?_, fun l hl => ?_⟩
  · obtain ⟨us, o, m, li, p, x, c, h, e⟩ := tracedOnce_eq
    rw [e]
    rfl
  · have hstep : (tracedOnce.unit 0 l (tracedTeam.unitOf l 0)).step =
        (tracedState.unit 0 l (tracedTeam.unitOf l 0)).step := by
      rw [← step_unit_record tracedState 0 0 0 ⟨0, none, 0xFF00, true, tracedState.now, []⟩ .none 0]
      unfold State.unit
      rw [hunits]
    rw [hstep]
    cases l with
    | tile => exact absurd rfl hl
    | grp => decide +kernel
    | die => decide +kernel
    | pkg => decide +kernel
    | pod => decide +kernel

theorem tracedState_forceAll : ∃ us, tracedState.forceAll tracedTeam tracedStrand.team tracedStrand.lrank tracedStrand.uid
    tracedStrand.tahead = ({ tracedOnce with units := us }, 1) := by
  obtain ⟨us, hus⟩ := State.forceVtiles_stall (ls := [.grp, .die, .pkg, .pod]) (by decide) tracedOnce_ahead
  have hs : tracedState.forceStrand tracedTeam tracedStrand.team tracedStrand.lrank tracedStrand.uid tracedStrand.tahead =
    (tracedOnce, 1) := rfl
  refine ⟨us, ?_⟩
  unfold State.forceAll
  rw [hs]
  dsimp only
  exact congrArg (·, 1) hus

/-- The strand once its forced arrival has been recorded. -/
def tracedAfter : Strand := { tracedStrand with tahead := 1, wait := .none }

/-- After the fault ARM holds the low bytes of the trace record. -/
theorem tracedState_arm :
    (tracedState.takeFault 0 0 tracedStrand 1 0 0 0).liveNum 0x100000 8 % 256 = 34 := by
  obtain ⟨us, hforce⟩ := tracedState_forceAll
  generalize hz : ({ tracedOnce with units := us } : State).dropAt 0 0 = z at *
  have hzok : z.ok := by rw [← hz]; exact tracedOnce_arm.1
  have hzteam : z.team? tracedAfter.team = some tracedTeam := by rw [← hz]; exact tracedOnce_teams
  have hzvtile : z.vtile? tracedAfter.team tracedAfter.lrank = some tracedVtile := by rw [← hz]; exact tracedOnce_ahead.1
  have hzarm : z.liveByte 0x100000 = 34 := by
    rw [← tracedOnce_arm.2, ← hz]
    exact State.liveByte_congr rfl rfl _
  generalize hw : z.saveInto tracedTeam 8 tracedAfter .fault = w
  have hwok : w.ok := by rw [← hw]; exact State.saveInto_ok hzok _ _ _ _
  have hwarm : w.liveNum 0x100000 8 % 256 = 34 := by
    rw [State.liveNum_mod, ← hw, State.liveByte_saveInto hzok _ _ _ _ (by decide +kernel), hzarm]
    rfl
  obtain ⟨d, hd⟩ : ∃ d, w.team? tracedStrand.team = some { tracedTeam with drawn := d } := by
    obtain ⟨m, l, po, ts, d, hd, hs⟩ := State.saveInto_eq hzteam hzvtile tracedTeam 8 .fault
    rw [← hw, hs]
    exact ⟨d, hd⟩
  have hkey : hbmKey ({ tracedTeam with drawn := d } : Team).area + 24 = 0x100000 := rfl
  have hcap : ({ tracedTeam with drawn := d } : Team).fqCap = 16 := by show tracedTeam.fqCap = 16; decide +kernel
  have hfqw : ({ tracedTeam with drawn := d } : Team).fqw = 0 := rfl
  have hfault (f : FaultRec) (ho : f.oabs = false) (hi : f.iabs = false) := State.writeFault_unarmed (f := f)
    (lr := tracedStrand.lrank) hwok hd
    (by rw [hcap, hfqw]; omega) ho hi (by rw [hkey]; omega)
  rw [hkey] at hfault
  have hsilent (lvt slot kind info data : Nat) : tracedState.trace 0 lvt slot kind info data = tracedState :=
    State.trace_off (by decide +kernel) ..
  obtain ⟨f, ho, hi, hf⟩ := State.takeFault_saves (s := tracedState) (tile := 0) (k := tracedStrand) (t := tracedTeam)
    (v := tracedVtile) (n := 8) rfl rfl hsilent (by decide : 0 ≠ 8) (cause := 1) (by decide) (by decide +kernel) 0 0 0
  obtain ⟨hone, htwo⟩ := hfault f ho hi
  have htake : tracedState.takeFault 0 0 tracedStrand 1 0 0 0 = (w.writeFault tracedStrand.team tracedStrand.lrank f).2 :=
    hf _ hforce (w.writeFault tracedStrand.team tracedStrand.lrank f) (by rw [← hw, ← hz, tracedAfter]) hone
  rw [htake, htwo]
  exact hwarm

/-- Refutes O39: with the faulting strand in slot 0 of tile 0 and its vtile on tile 5, the trace record of the forced arrival lies over
ARM, so that the record of the fault finds no ARM to clear. -/
theorem not_preciseFault : ¬ Obligations.PreciseFault := by
  unfold Obligations.PreciseFault
  intro h
  have harm : (tracedState.takeFault 0 0 tracedStrand 1 0 0 0).liveNum 0x100000 8 = 0 :=
    (h.2 tracedState 0 0 8 tracedStrand tracedTeam tracedVtile 1 0 0 0 (tracedState.entry tracedTeam tracedTeam.codeh)
      rfl rfl (by decide) rfl (by decide +kernel) tracedState_ok (by decide +kernel) (by decide +kernel) (by decide +kernel)
      tracedState_codeEntry (by decide +kernel) (by decide +kernel) (by decide +kernel)).1
  have := tracedState_arm
  omega

end Sys2Proof.Machine
end

section
/-! PROOF. O48 fails. A log record may name the tile store of another team's vtile, and the change of an operand of an MMA which that one
has completed makes bytes of its own image undefined (R137, R183). Where that image lies over the one that is being saved, a byte
which the log leaves alone comes out undefined too. -/

namespace Sys2Proof.Machine

/-! ### What a save moves, and the image it writes (R183, R185, R210) -/

theorem State.crossAll_eq (s : State) (cls : Nat) (ps : List (Nat × List Nat × Nat)) :
    ∃ c h, (s.crossAll cls ps).2 = { s with credits := c, hops := h } := by
  have moved (ps : List (Nat × List Nat × Nat)) (r : List (Nat × List Nat × Nat) × State) : ∃ c h,
      (ps.foldl (fun (r : List (Nat × List Nat × Nat) × State) p =>
        let x := r.2.cross p.1 p.2.1 cls p.2.2
        (if x.1 then r.1 ++ [p] else r.1, x.2)) r).2 = { r.2 with credits := c, hops := h } := by
    induction ps generalizing r with
    | nil => exact ⟨_, _, rfl⟩
    | cons p q ih =>
      obtain ⟨c, h, hc⟩ := r.2.cross_eq p.1 p.2.1 cls p.2.2
      obtain ⟨c', h', hr⟩ := ih (if (r.2.cross p.1 p.2.1 cls p.2.2).1 then r.1 ++ [p] else r.1, (r.2.cross p.1 p.2.1 cls p.2.2).2)
      exact ⟨c', h', by rw [List.foldl_cons, hr, hc]⟩
  have waits (qs : List (Nat × List Nat × Nat)) (z : State) : ∃ h,
      qs.foldl (fun s p => s.waitsThrough p.1 p.2.1 p.2.2) z = { z with hops := h } := by
    induction qs generalizing z with
    | nil => exact ⟨_, rfl⟩
    | cons p q ih =>
      obtain ⟨h, hp⟩ : ∃ h, z.waitsThrough p.1 p.2.1 p.2.2 = { z with hops := h } := by
        unfold State.waitsThrough
        split
        · exact ⟨_, rfl⟩
        · exact ⟨_, rfl⟩
      obtain ⟨h', hq⟩ := ih { z with hops := h }
      exact ⟨h', by rw [List.foldl_cons, hp, hq]⟩
  unfold State.crossAll
  obtain ⟨c, h, hm⟩ := moved ps ([], s)
  dsimp only at hm ⊢
  split
  · exact ⟨c, h, hm⟩
  · rw [hm]
    obtain ⟨h', hw⟩ := waits _ { s with credits := c, hops := h }
    exact ⟨c, h', hw⟩

/-- Writing the image of a vtile changes memory alone, with its live values, marks and error counts. -/
theorem writeImage_eq (s : State) (t : Team) (lr : Nat) (v : Vtile) :
    ∃ m l p e, writeImage s t lr v = { s with mem := m, live := l, poison := p, errc := e } := by
  obtain ⟨l, hl⟩ := State.settleLive_eq { s with mem := s.mem.copyRange (storeKey v.ptile 0) (hbmKey (t.img lr)) storeSize }
    (hbmKey (t.img lr)) storeSize
  obtain ⟨p, hp⟩ := State.clearPoison_eq { s with
    mem := s.mem.copyRange (storeKey v.ptile 0) (hbmKey (t.img lr)) storeSize, live := l } (granulesWhole (hbmKey (t.img lr)) storeSize)
  obtain ⟨p', e, hstore⟩ : ∃ p' e, copyStore s (storeKey v.ptile 0) (hbmKey (t.img lr)) = { s with
      mem := s.mem.copyRange (storeKey v.ptile 0) (hbmKey (t.img lr)) storeSize, live := l, poison := p', errc := e } := by
    unfold copyStore
    dsimp only
    rw [hl, hp]
    exact ⟨_, _, rfl⟩
  obtain ⟨l', p'', hc⟩ := State.commit_eq { s with
    mem := s.mem.copyRange (storeKey v.ptile 0) (hbmKey (t.img lr)) storeSize, live := l, poison := p', errc := e }
    (hbmKey (t.img lr) + 524288) (accBytes v)
  unfold writeImage
  dsimp only
  rw [hstore, hc]
  exact ⟨_, _, _, _, rfl⟩

/-- The control block goes behind the accumulators of the image. -/
theorem writeControl_byte {s : State} (h : s.ok) (t : Team) (id lr : Nat) {x : Nat} (hx : x < hbmKey (t.img lr) + 655360) :
    (writeControl s t id lr).mem.byte x = s.mem.byte x := by
  unfold writeControl
  split
  · rw [State.drew_mem, State.commit_byte h (Or.inl hx)]
  · rfl

theorem writeControl_eq (s : State) (t : Team) (id lr : Nat) :
    ∃ m l p ts, writeControl s t id lr = { s with mem := m, live := l, poison := p, teams := ts } := by
  unfold writeControl
  split
  · next v _ =>
    obtain ⟨l, p, hc⟩ := s.commit_eq (hbmKey (t.img lr) + 655360) (controlBlock s t id lr v)
    obtain ⟨ts, ht⟩ := ({ s with mem := s.mem.put (hbmKey (t.img lr) + 655360) (controlBlock s t id lr v)
                                 live := l, poison := p } : State).onTeam_eq id fun t => { t with drawn := t.drawn + 224 }
    rw [hc]
    exact ⟨_, l, p, ts, ht⟩
  · exact ⟨_, _, _, _, rfl⟩

/-- The diversion entry of a vtile leaves every byte outside it. -/
theorem State.putDivEntry_byte {s : State} (h : s.ok) {id lr : Nat} {v : Vtile} (hv : s.vtile? id lr = some v) {x : Nat}
    (hx : s.dtbase.toNat + 32 * v.divIdx + 32 ≤ x) : (s.putDivEntry id lr).mem.byte x = s.mem.byte x := by
  unfold putDivEntry
  rw [hv]
  split
  · next t v' _ hv' =>
    obtain rfl : v = v' := Option.some.inj hv'
    split
    · rfl
    · unfold hbmPut
      split
      · refine commit_byte h (Or.inr ?_)
        rw [length_bytesOf]
        exact hx
      · rfl
  · rfl

/-! ### The operand of a completed MMA changes (R137, R183) -/

/-- Making bytes free changes memory and the count of free values of one team. -/
theorem freeKeys_eq (s : State) (id : Nat) (ks : List (Nat × Byte)) : ∃ m ts,
    s.freeKeys id ks = { s with mem := m, teams := ts } ∧ ∀ j, j ≠ id → lookup j ts = lookup j s.teams := by
  have updates (l : List ((Nat × Byte) × Nat)) (f : State → (Nat × Byte) × Nat → List Byte) (z : State) :
      ∃ m, l.foldl (fun z x => z.update x.1.1 (f z x)) z = { z with mem := m } := by
    induction l generalizing z with
    | nil => exact ⟨_, rfl⟩
    | cons x r ih =>
      obtain ⟨m, h⟩ := ih (z.update x.1.1 (f z x))
      exact ⟨m, by rw [List.foldl_cons, h]; rfl⟩
  unfold State.freeKeys
  split
  · exact ⟨_, _, rfl, fun _ _ => rfl⟩
  · obtain ⟨m, h⟩ := updates ks.zipIdx
      (fun z x => [(z.mem.byte x.1.1 &&& ~~~x.1.2) ||| (s.freeByteAt id x.2 &&& x.1.2)]) s
    rw [h]
    unfold State.drew State.onTeam
    split
    · exact ⟨m, _, rfl, fun j hj => lookup_insertAt_of_ne hj _ _⟩
    · exact ⟨m, _, rfl, fun _ _ => rfl⟩

/-- The first of the bytes that are made free reads as the next free value. -/
theorem freeKeys_first {s : State} (h : s.ok) (id a : Nat) {ks : List (Nat × Byte)} (hne : ∀ x ∈ ks, x.1 ≠ a) :
    (s.freeKeys id ((a, 0xFF) :: ks)).mem.byte a = s.freeByteAt id 0 := by
  have hkeys : ∀ x ∈ ks.zipIdx 1, x.1.1 ≠ a := fun x hx => by
    rw [(List.mem_zipIdx hx).2.2]
    exact hne _ (List.getElem_mem _)
  have hbyte := State.updates_byte (ks.zipIdx 1) (fun z x => (z.mem.byte x.1.1 &&& ~~~x.1.2) ||| (s.freeByteAt id x.2 &&& x.1.2))
    (State.update_ok h a [(s.mem.byte a &&& ~~~0xFF) ||| (s.freeByteAt id 0 &&& 0xFF)]) hkeys
  have hfree : (s.mem.byte a &&& ~~~0xFF) ||| (s.freeByteAt id 0 &&& 0xFF) = s.freeByteAt id 0 := by
    have h0 : (~~~0xFF : Byte) = 0#8 := rfl
    have h1 : (0xFF : Byte) = BitVec.allOnes 8 := rfl
    rw [h0, BitVec.and_zero, BitVec.zero_or, h1, BitVec.and_allOnes]
  unfold State.freeKeys
  dsimp only
  rw [State.drew_mem, List.zipIdx_cons, List.foldl_cons]
  refine hbyte.trans ?_
  rw [State.update_mem, Memory.byte_put_one h, if_pos rfl, hfree]

/-- The first byte that a change of a vtile's store makes undefined reads as the free value which its team draws next. -/
theorem touchStore_spoils {s : State} (h : s.ok) {id lr a : Nat} {rs : List (Nat × Nat)} {t : Team} {v : Vtile}
    {ks : List (Nat × Byte)} (ht : s.team? id = some t) (hv : s.vtile? id lr = some v) (hc : s.copies = []) (hd : s.doneCopies = [])
    (hr : s.runs = []) (hg : s.graphs = []) (hp : v.past ≠ []) (hhit : (v.past.any fun e => !(e.op.hit rs).isEmpty) = true)
    (hks : s.spoilt id lr rs none = (a, 0xFF) :: ks) (hne : ∀ x ∈ ks, x.1 ≠ a) : ∃ m ts vs,
      s.touchStore id lr rs = { s with mem := m, teams := ts, vtiles := vs } ∧
      m.byte a = Config.freeByte id t.start (t.drawn + 32768) ∧
      (∀ j, j ≠ id → lookup j ts = lookup j s.teams) ∧ ∀ j, j ≠ vtileKey id lr → lookup j vs = lookup j s.vtiles := by
  have hu : ∃ ts, (s.putVtile id lr (v.touch s rs)).drewAcc id [v.past.any fun e => !(e.op.hit rs).isEmpty] =
      { s with teams := ts, vtiles := insertAt (vtileKey id lr) (v.touch s rs) s.vtiles } ∧
      lookup id ts = some { t with drawn := t.drawn + 32768 } ∧ ∀ j, j ≠ id → lookup j ts = lookup j s.teams := by
    have ht' : (s.putVtile id lr (v.touch s rs)).team? id = some t := ht
    rw [hhit]
    unfold State.drewAcc State.drew State.onTeam
    rw [ht']
    exact ⟨_, rfl, lookup_insertAt_self _ _ _, fun j hj => lookup_insertAt_of_ne hj _ _⟩
  obtain ⟨ts, hu, hteam, hteams⟩ := hu
  generalize hz : ({ s with teams := ts, vtiles := insertAt (vtileKey id lr) (v.touch s rs) s.vtiles } : State) = z at hu
  have hzok : z.ok := by rw [← hz]; exact h
  have hwork : s.touchWork id lr rs = z.freeKeys id ((a, 0xFF) :: ks) := by
    have hempty : (v.mq.isEmpty && v.past.isEmpty) = false := by
      rw [List.isEmpty_eq_false_iff.2 hp, Bool.and_false]
    have hidle : ((s.copies.any fun c => c.2.reads id lr) || !s.doneCopies.isEmpty) = false := by rw [hc, hd]; rfl
    unfold State.touchWork
    dsimp only
    rw [hidle, hks, if_neg Bool.false_ne_true, hv]
    dsimp only
    rw [hempty, if_neg Bool.false_ne_true, hu]
  obtain ⟨m, ts', hfree, hothers⟩ := freeKeys_eq z id ((a, 0xFF) :: ks)
  have hbyte := freeKeys_first hzok id a hne
  have hdraw : z.freeByteAt id 0 = Config.freeByte id t.start (t.drawn + 32768) := by
    have hzteam : z.team? id = some { t with drawn := t.drawn + 32768 } := by rw [← hz]; exact hteam
    unfold State.freeByteAt
    rw [hzteam]
  rw [hfree] at hbyte
  refine ⟨m, ts', insertAt (vtileKey id lr) (v.touch s rs) s.vtiles, ?_, hbyte.trans hdraw, fun j hj => ?_, fun j hj =>
    lookup_insertAt_of_ne hj _ _⟩
  · unfold State.touchStore
    rw [hwork, hfree, ← hz]
    exact if_pos (by show (s.runs.isEmpty && s.graphs.isEmpty) = true; rw [hr, hg]; rfl)
  · rw [hothers j hj, ← hz]
    exact hteams j hj

/-! ### The counterexample to O48 -/

/-- Team 0, whose area begins half a MiB behind that of team 1. -/
def savingTeam : Team := newTeam 0 0 0 0 524288 [] []

/-- Team 1: the accumulators in the image of its vtile 0 begin where the image of vtile 0 of team 0 does. -/
def overlaidTeam : Team := newTeam (BitVec.ofNat 1024 (2 ^ 16)) 0 0 0 0 [] []

/-- An increment by 0 of the counter at offset 0 of vtile 0 of team 1. -/
def strayIncrement : Increment := ⟨⟨1, 0, 0, 0, 0, 0, 0, 0⟩, 0, 0, 0, false⟩

/-- The vtile that is saved, from tile 3; its log holds the increment. -/
def savingVtile : Vtile := { newVtile 3 0 with res := false, div := .saving, log := some 0, recs := [.counter strayIncrement] }

/-- One element of 8 bits, at offset 0 of the tile store. -/
def oneElement : Shape := BitVec.ofNat 256 (pack [104, 16, 16, 16, 16] [0, 1, 1, 1, 1])

/-- An MMA of one product into accumulator 0. -/
def oneProduct : MEntry :=
  ⟨.mma ⟨false, .i8, false, false, false, 0, 0, 0, 0, 0⟩ oneElement oneElement false, 0, ⟨1, 0, 0, 0, 0, 0, 0, 0⟩, true, 1, 0, 0, []⟩

/-- The parked vtile of team 1, which has completed it. -/
def overlaidVtile : Vtile := { newVtile 4 1 with res := false, div := .diverting, past := [oneProduct] }

/-- The image and the log of team 0's vtile have come all their way; `b` is the first byte of its tile store. -/
def savingState (b : Byte) : State := { State.reset with
  mem := Memory.put [] (storeKey 3 0) [b]
  vtiles := [(vtileKey 0 0, savingVtile), (vtileKey 1 0, overlaidVtile)]
  teams := [(0, savingTeam), (1, overlaidTeam)]
  hops := [(imageHop 0, [20000, 20000, 20000]), (logHop 0, [20000, 20000, 20000])] }

theorem savingState_ok (b : Byte) : (savingState b).ok := Memory.wf_put ⟨List.Pairwise.nil, fun _ h => by cases h⟩ _ _

/-- The increment changes an operand of the MMA, whose accumulator begins at the image that is saved. -/
theorem spoiltImage_overlaid : spoiltImage overlaidTeam 0 overlaidVtile [(0, 8)] =
    [(hbmKey (savingTeam.img 0), 0xFF), (hbmKey (savingTeam.img 0) + 1, 0xFF), (hbmKey (savingTeam.img 0) + 2, 0xFF),
      (hbmKey (savingTeam.img 0) + 3, 0xFF)] := by
  decide +kernel

/-- A save without strands, and with one record in its log, moves two packets. -/
theorem moving_saving (s : State) (t : Team) (id lr : Nat) {v : Vtile} {r : LogRec} (hd : v.div = .saving) (hs : v.saves = [])
    (hl : v.logged = [r]) : ∃ x y x' y', moving s t id lr v =
      [(imageHop (vtileKey id lr), sitePath x y, 10305), (logHop (vtileKey id lr), sitePath x' y', 3)] := by
  unfold moving
  rw [hd, hs, hl]
  exact ⟨_, _, _, _, rfl⟩

theorem savingState_comes (b : Byte) :
    ((savingState b).crossAll 3 (moving (savingState b) savingTeam 0 0 savingVtile)).1 = true := by
  have across (x y n i : Nat) (hn : n ≤ 20000) (hi : i < (pathLinks (sitePath x y)).length) :
      n ≤ ([20000, 20000, 20000] : List Nat).getD i 0 := by
    have h3 : i < 3 := Nat.lt_of_lt_of_le hi (State.length_sitePath _ _)
    interval_cases i <;> exact hn
  have hhops : (savingState b).hops = [(imageHop 0, [20000, 20000, 20000]), (logHop 0, [20000, 20000, 20000])] := rfl
  obtain ⟨x, y, x', y', hm⟩ := moving_saving (savingState b) savingTeam 0 0 (v := savingVtile) rfl rfl rfl
  rw [hm]
  refine State.crossAll_come (show [imageHop 0, logHop 0].Nodup by decide +kernel) fun p hp => ?_
  rw [hhops]
  obtain rfl | hp := List.mem_cons.1 hp
  · exact ⟨[20000, 20000, 20000], (by decide +kernel : lookup (imageHop 0) _ = _), fun i hi => across x y 10305 i (by decide) hi⟩
  · obtain rfl := List.mem_singleton.1 hp
    exact ⟨[20000, 20000, 20000], (by decide +kernel : lookup (logHop 0) _ = _), fun i hi => across x' y' 3 i (by decide) hi⟩

/-- What a save leaves of a byte below the control block of its image is what the replayed log does. -/
theorem saved_byte {s r : State} {t : Team} {id lr : Nat} {v : Vtile} {x : Nat}
    (hr : v.logged.foldl (replayImage t lr) (writeImage s t lr v) = r) (hok : r.ok) (hv : r.vtile? id lr = some v)
    (hs : v.saves = []) (hrun : (r.tile v.ptile).dbg = .running) (hx : x < hbmKey (t.img lr) + 655360)
    (hdiv : r.dtbase.toNat + 32 * v.divIdx + 32 ≤ x) : (saved s t id lr v).mem.byte x = r.mem.byte x := by
  obtain ⟨m, l, p, ts, hw⟩ := writeControl_eq r t id lr
  have hwbyte := writeControl_byte hok t id lr hx
  have hwok := writeControl_ok hok t id lr
  generalize hf : ({ v with div := .diverting, log := none, recs := [], owed := [], logW := v.logW + v.owed.length
                            logR := v.logW + v.owed.length, stopped := none } : Vtile) = v'
  have hon : ((writeControl r t id lr).onVtile id lr fun x =>
      { x with div := .diverting, log := none, recs := [], owed := [], logW := v.logW + v.owed.length
               logR := v.logW + v.owed.length, stopped := none }) = (writeControl r t id lr).putVtile id lr v' := by
    have hwv : (writeControl r t id lr).vtile? id lr = some v := by rw [hw]; exact hv
    unfold State.onVtile
    rw [hwv, ← hf]
  generalize hz : (writeControl r t id lr).putVtile id lr v' = z at hon
  have hzv : z.vtile? id lr = some v' := by rw [← hz]; exact State.vtile?_putVtile_self _ _ _ _
  have hzok : z.ok := by rw [← hz]; exact hwok
  have hzbyte : z.mem.byte x = r.mem.byte x := by rw [← hz]; exact hwbyte
  have hentry := State.putDivEntry_byte hzok hzv (x := x) (by rw [← hz, hw, ← hf]; exact hdiv)
  obtain ⟨m', l', p', hd⟩ := z.putDivEntry_eq id lr
  have hidle : recheckWaits ((z.putDivEntry id lr).onTile v.ptile fun x => { x with owner := none }) id lr =
      (z.putDivEntry id lr).onTile v.ptile fun x => { x with owner := none } := by
    refine recheckWaits_idle (v := v') (by rw [hd]; exact hzv) (by rw [← hf]; exact hs) ?_
    have hp : v'.ptile = v.ptile := by rw [← hf]
    rw [hp]
    refine (congrArg Tile.dbg (State.tile_putTile_self _ _ _)).trans ?_
    rw [hd, ← hz, hw]
    exact hrun
  unfold saved
  dsimp only
  rw [hr, hon, hidle, State.orderStep_mem]
  exact hentry.trans hzbyte

theorem Memory.num_lt (m : Memory) (a n : Nat) : m.num a n < 256 ^ n := by
  have h := ofBytes_lt (m.read a n)
  rwa [Memory.read, List.length_map, length_interval] at h

/-- The lowest byte of a number is the one at its address. -/
theorem Memory.num_mod (m : Memory) (a n : Nat) : m.num a (n + 1) % 256 = (m.byte a).toNat := by
  unfold Memory.num Memory.read
  rw [interval_succ, List.map_cons, ofBytes]
  have := (m.byte a).isLt
  omega

/-- An increment by 0 leaves the first byte of its counter as the change that it is has left it. -/
theorem replayCounter_zero {s : State} {i : Increment} {id lr o : Nat} (key : Nat → Nat) (hid : i.who.team = id) (hlr : i.vt = lr)
    (ho : i.ofs = o) (hi : i.amount = 0) (h : (s.touchStore id lr [(o, 8)]).ok) : ∃ m,
    replayCounter key s i = { s.touchStore id lr [(o, 8)] with mem := m } ∧
      m.byte (key o) = (s.touchStore id lr [(o, 8)]).mem.byte (key o) := by
  subst hid hlr ho
  generalize hu : s.touchStore i.who.team i.vt [(i.ofs, 8)] = u at h
  have hlt : u.mem.num (key i.ofs) 8 + i.amount.toNat < 2 ^ 64 := by
    have h8 := Memory.num_lt u.mem (key i.ofs) 8
    have h0 : i.amount.toNat = 0 := by rw [hi]; rfl
    omega
  refine ⟨u.mem.put (key i.ofs) (bytesOf 8 (u.mem.num (key i.ofs) 8 + i.amount.toNat)), ?_, ?_⟩
  · unfold replayCounter addCounter
    dsimp only
    rw [hu, if_pos hlt]
    rfl
  · rw [Memory.byte_put h, if_pos (by rw [length_bytesOf]; omega), Nat.sub_self, hi]
    show BitVec.ofNat 8 (u.mem.num (key i.ofs) 8 + 0) = _
    rw [← BitVec.toNat_inj, BitVec.toNat_ofNat, Nat.add_zero]
    exact Memory.num_mod u.mem (key i.ofs) 7

/-- Whatever the first byte of the tile store, the first byte of the image is the value that team 1 draws. -/
theorem savingState_image (b : Byte) :
    (saved ((savingState b).crossAll 3 (moving (savingState b) savingTeam 0 0 savingVtile)).2 savingTeam 0 0 savingVtile).mem.byte
      (hbmKey (savingTeam.img 0)) = Config.freeByte 1 0 32768 := by
  obtain ⟨c, h, hc⟩ := (savingState b).crossAll_eq 3 (moving (savingState b) savingTeam 0 0 savingVtile)
  obtain ⟨m, l, p, e, hw⟩ := writeImage_eq { savingState b with credits := c, hops := h } savingTeam 0 savingVtile
  have hok := writeImage_ok (s := { savingState b with credits := c, hops := h }) (savingState_ok b) savingTeam 0 savingVtile
  rw [← hc] at hw hok
  generalize hz : writeImage ((savingState b).crossAll 3 (moving (savingState b) savingTeam 0 0 savingVtile)).2 savingTeam 0
    savingVtile = z at hw hok
  have hspoilt : z.spoilt 1 0 [(0, 8)] none = spoiltImage overlaidTeam 0 overlaidVtile [(0, 8)] := by rw [hw, hc]; rfl
  obtain ⟨m', ts, vs, htouch, hbyte, -, hvs⟩ := touchStore_spoils (s := z) hok (id := 1) (lr := 0) (rs := [(0, 8)])
    (t := overlaidTeam) (v := overlaidVtile) (by rw [hw, hc]; rfl) (by rw [hw, hc]; rfl) (by rw [hw, hc]; rfl) (by rw [hw, hc]; rfl)
    (by rw [hw, hc]; rfl) (by rw [hw, hc]; rfl) (List.cons_ne_nil _ _) (by decide +kernel) (hspoilt.trans spoiltImage_overlaid)
    (by decide +kernel)
  have htok := State.touchStore_ok hok 1 0 [(0, 8)]
  have hvtile : lookup (vtileKey 0 0) vs = some savingVtile := by rw [hvs _ (by decide), hw, hc]; rfl
  obtain ⟨m₂, hrep, hm₂⟩ := replayCounter_zero (s := z) (i := strayIncrement) (fun o => hbmKey (savingTeam.img 0) + o)
    (id := 1) (lr := 0) (o := 0) rfl rfl rfl rfl htok
  have hlog : savingVtile.logged = [.counter strayIncrement] := rfl
  have hr : savingVtile.logged.foldl (replayImage savingTeam 0)
      (writeImage ((savingState b).crossAll 3 (moving (savingState b) savingTeam 0 0 savingVtile)).2 savingTeam 0 savingVtile) =
      { z.touchStore 1 0 [(0, 8)] with mem := m₂ } := by
    rw [hz, hlog, List.foldl_cons, List.foldl_nil, replayImage, hrep]
  have hrok := replayCounter_ok hok (fun o => hbmKey (savingTeam.img 0) + o) strayIncrement
  rw [hrep] at hrok
  rw [Nat.add_zero] at hm₂
  refine (saved_byte hr hrok ?_ rfl ?_ (Nat.lt_add_of_pos_right (by decide)) ?_).trans (hm₂.trans ?_)
  · show lookup (vtileKey 0 0) (z.touchStore 1 0 [(0, 8)]).vtiles = _
    rw [htouch]
    exact hvtile
  · show (State.tile (z.touchStore 1 0 [(0, 8)]) 3).dbg = _
    rw [htouch, hw, hc]
    rfl
  · show (z.touchStore 1 0 [(0, 8)]).dtbase.toNat + 32 * 0 + 32 ≤ _
    have hdt : (z.touchStore 1 0 [(0, 8)]).dtbase.toNat = 0 := by rw [htouch, hw, hc]; rfl
    have himg : 32 ≤ hbmKey (savingTeam.img 0) := by decide +kernel
    rw [hdt]
    omega
  · show (z.touchStore 1 0 [(0, 8)]).mem.byte (hbmKey (savingTeam.img 0)) = _
    rw [htouch]
    exact hbyte

theorem exec_saveComplete_comes {id lr : Nat} {s : State} {t : Team} {v : Vtile} (ht : s.team? id = some t)
    (hv : s.vtile? id lr = some v) (hd : v.div = .saving) (hc : (s.crossAll 3 (moving s t id lr v)).1 = true) :
    exec (.saveComplete id lr .done) s = .next (saved (s.crossAll 3 (moving s t id lr v)).2 t id lr v) := by
  have hdone : moveCause .done = none := rfl
  show execSaveComplete id lr .done s = _
  unfold execSaveComplete
  rw [ht, hv]
  dsimp only
  rw [if_neg (not_not_intro hd), hdone, hc]
  rfl

/-- What O48 says of a save whose log holds one increment. -/
theorem diversionSteps_counter (h : Obligations.DiversionSteps) {id lr : Nat} {s : State} {t : Team} {v : Vtile} {i : Increment}
    (ht : s.team? id = some t) (hid : t.teamid = id) (hv : s.vtile? id lr = some v) (hd : v.div = .saving) (hok : s.ok)
    (hhas : State.hbmHas (t.img lr) t.saveSize = true)
    (hapart : State.overlap (t.img lr) t.saveSize (s.dtbase.toNat + 32 * v.divIdx) 32 = false) (hres : v.res = false)
    (hmq : v.mq = []) (hc : (s.crossAll 3 (moving s t id lr v)).1 = true) (hlog : v.logged = [.counter i]) (hcopies : s.copies = [])
    (hdone : s.doneCopies = []) (hpast : v.past = []) (hofs : i.ofs + 8 ≤ 0x80000) (hi : i.amount = 0) :
    (saved (s.crossAll 3 (moving s t id lr v)).2 t id lr v).mem.num (hbmKey (t.img lr) + i.ofs) 8 =
      s.mem.num (storeKey v.ptile i.ofs) 8 := by
  unfold Obligations.DiversionSteps at h
  obtain ⟨-, -, -, hsave, -⟩ := h
  have hsaves := (hsave id lr s t v ht hid hv hd ⟨hok, hhas, hapart⟩ hres (by rw [hmq]; exact Nat.zero_le _)).2 hc
  have h0 : i.amount.toNat = 0 := by rw [hi]; rfl
  have hlt : s.mem.num (storeKey v.ptile i.ofs) 8 + 0 < 2 ^ 64 := by
    have := Memory.num_lt s.mem (storeKey v.ptile i.ofs) 8
    omega
  obtain ⟨u, ⟨hu, -⟩, hnum⟩ := hsaves.2.1 i hlog hcopies hdone hmq hpast hofs
    (by rw [h0]; exact hlt)
  obtain rfl := Host.Outcome.next.inj (hu.symm.trans (exec_saveComplete_comes ht hv hd hc))
  rw [h0, Nat.add_zero] at hnum
  exact hnum

/-- Refutes O48: the log of a vtile that is saved holds an increment for another team's vtile, whose image lies over the one that is
saved, and the change of an operand of its MMA makes a byte there free, so that it is not what the tile store held. -/
theorem not_diversionSteps : ¬ Obligations.DiversionSteps := by
  intro h
  have same (b : Byte) : Config.freeByte 1 0 32768 = b := by
    have hnum := diversionSteps_counter h (id := 0) (lr := 0) (s := savingState b) (t := savingTeam) (v := savingVtile)
      (i := strayIncrement) rfl (by decide +kernel) rfl rfl (savingState_ok b) (by decide +kernel)
      (by decide +kernel : State.overlap _ _ (0 + 32 * 0) 32 = false) rfl rfl (savingState_comes b) rfl rfl rfl rfl
      (by decide) rfl
    have hofs : strayIncrement.ofs = 0 := rfl
    have hptile : savingVtile.ptile = 3 := rfl
    have hbyte := savingState_image b
    have hstore : (savingState b).mem.byte (storeKey 3 0) = b :=
      (Memory.byte_put_one ⟨List.Pairwise.nil, fun _ h => by cases h⟩ _ _ _).trans (if_pos rfl)
    have hlow := Memory.num_mod (savingState b).mem (storeKey 3 0) 7
    rw [hofs, hptile, Nat.add_zero] at hnum
    rw [← hnum, Memory.num_mod, hbyte, hstore] at hlow
    exact BitVec.eq_of_toNat_eq hlow
  exact absurd ((same 0).symm.trans (same 1)) (by decide)

end Sys2Proof.Machine
end

section
/-! PROOF. Loads and stores of scalars and shape records (R58, R339, R342, R359): what an instruction that nothing holds back
comes to, what a strand's store leaves in memory, O11 and O12. -/

namespace Sys2Proof.Machine

section Runs

variable {i : Instr} {e : Bool} {n : Names} {body : Strand → State → Do State} {s t : State} {k : Strand}

/-- An instruction that nothing holds back takes effect when its body does. -/
theorem exec_of_issues (h : exec i s = .next (issue i e n body s)) (hk : Issues s k n) (hr : body k.issuing s = .ok t) :
    exec i s = .next t := by
  rw [h, issue_of_issues hk, hr]; rfl

/-- An instruction that nothing holds back takes the fault that its body raises. -/
theorem exec_fault_of_issues {c : Nat} {a x : Word} (h : exec i s = .next (issue i e n body s)) (hk : Issues s k n)
    (hr : body k.issuing s = .error (.fault c a x)) :
    exec i s = .next (s.takeFault s.at_.1 s.at_.2 k c a x ((encode i).getD 0)) := by
  rw [h, issue_of_issues hk, hr]; rfl

/-- An instruction that nothing holds back waits when its body says so. -/
theorem exec_wait_of_issues {w : Wait} (h : exec i s = .next (issue i e n body s)) (hk : Issues s k n)
    (hr : body k.issuing s = .error (.wait w)) : exec i s = .next (s.put (k.waiting w s.cycle.toNat)) := by
  rw [h, issue_of_issues hk, hr]; rfl

end Runs

/-- Settles O11: both loads pass their checks and retire with what the bytes at their address hold. -/
theorem loads : Obligations.Loads := by
  unfold Obligations.Loads
  constructor
  · intro f s k _ hk hw a ha hp
    exact ⟨_, exec_of_issues (i := .ld f) rfl hk (loadBytes_eq ha hp hw _), wroteScalar_wr k f.d _⟩
  · intro f s k hk a ha hp
    have hn : needStore (memAddr k.issuing f.a f.imm) 32 32 = .ok () := needStore_ok ha
    have hq : s.anyPoison (tileKey s (memAddr k.issuing f.a f.imm).toNat) 32 = false := hp
    refine ⟨_, exec_of_issues (i := .mld f) rfl hk ?_, wroteShape_wrM k f.d _⟩
    dsimp only
    rw [hn, hq]
    rfl

/-! ### What a strand's store leaves in memory (R69, R72) -/

/-- What a strand waits for bears on none of its stores. -/
theorem storing_issuing (s : State) (k : Strand) (rs : List (Nat × Nat)) (w : State → State) :
    s.storing k.issuing rs w = s.storing k rs w := rfl

/-- A number that a strand has stored, unless a join cell there races with the store (R38). -/
theorem storing_num {s : State} {k : Strand} {w : State → State} {base : Nat} {rs : List (Nat × Nat)} (h : s.ok)
    (hw : State.Writes w base rs) {a n : Nat} (hb : ∀ x ∈ s.racedCells k rs, x.1 < a ∨ a + n ≤ x.1) :
    (s.storing k rs w).mem.num a n = (w (s.touchStore k.team k.lrank rs)).mem.num a n := by
  unfold Memory.num
  congr 1
  refine Memory.read_congr fun x h1 h2 => State.storing_byte h hw fun y hy he => ?_
  have := hb y hy
  omega

/-- The key of an offset beyond another of the same tile store. -/
theorem storeKey_add (t o n : Nat) : storeKey t (o + n) = storeKey t o + n := by unfold storeKey; omega

theorem storeKey_eq (t o : Nat) : storeKey t o = storeKey t 0 + o := by rw [← storeKey_add, Nat.zero_add]

/-- The store of one range of the issuing tile's store. -/
theorem writes_stored (s : State) (a n v : Nat) :
    State.Writes (fun u => u.write (tileKey s a) (bytesOf n v)) (storeKey s.at_.1 0) [(a, n)] := by
  have hw := State.writes_write (storeKey s.at_.1 0) a (bytesOf n v)
  rw [length_bytesOf, ← storeKey_eq] at hw
  exact hw

/-- A number that a strand has stored alone at an offset of its tile store. -/
theorem stored_num {s : State} {k : Strand} (h : s.ok) (a n v : Nat)
    (hb : ∀ x ∈ s.racedCells k [(a, n)], x.1 < storeKey s.at_.1 a ∨ storeKey s.at_.1 a + n ≤ x.1) :
    (stored k a (bytesOf n v) s).mem.num (storeKey s.at_.1 a) n = v % 256 ^ n := by
  unfold stored
  rw [length_bytesOf, storing_num h (writes_stored s a n v) hb]
  exact State.write_num (State.touchStore_ok h _ _ _) _ _ _

/-- A strand that stores bytes at an offset of its tile store and moves on. -/
theorem storesOnly_stored {s : State} {k : Strand} (h : s.ok) (a n v : Nat) :
    StoresOnly s ((stored k a (bytesOf n v) s).put k.issuing.next) k (storeKey s.at_.1 0) [(a, n)] := by
  unfold stored
  rw [length_bytesOf]
  exact State.storesOnly_of_storing h (writes_stored s a n v)

/-- The bytes of a type of LD and ST. -/
theorem Fmt.pow_bytes_of_isMem {ty : Fmt} (h : ty.isMem = true) : 256 ^ (ty.bits / 8) = 2 ^ ty.bits := by
  revert h
  cases ty <;> decide

/-- Settles O12: both stores pass their checks and are stores of one range. -/
theorem stores : Obligations.Stores := by
  unfold Obligations.Stores
  constructor
  · intro f s k hf hk hw hs a n ha
    refine ⟨(stored k a.toNat (bytesOf n (k.rd f.d).toNat) s).put k.issuing.next, ?_, storesOnly_stored hs _ _ _, fun hr => ?_⟩
    · exact exec_of_issues (i := .st f) rfl hk (storeBytes_eq (by rw [length_bytesOf]; exact ha) hw)
    · exact (stored_num hs a.toNat n _ hr).trans (congrArg _ (Fmt.pow_bytes_of_isMem hf))
  · intro f s k hk a ha hs
    have hn : needStore (memAddr k.issuing f.a f.imm) 32 32 = .ok () := needStore_ok ha
    refine ⟨(stored k a.toNat (bytesOf 32 (k.rdM f.d).toNat) s).put k.issuing.next, ?_, storesOnly_stored hs _ _ _, fun hr => ?_⟩
    · exact exec_of_issues (i := .mst f) rfl hk (by dsimp only; rw [hn]; rfl)
    · exact (stored_num hs a.toNat 32 _ hr).trans (Nat.mod_eq_of_lt (k.rdM f.d).isLt)

end Sys2Proof.Machine
end

section
/-! PROOF. Vector loads and stores, gathers and scatters (R58, R114, R379 to R381): what several pieces leave in memory, what
numbers lie within a number, O20 and O21. -/

namespace Sys2Proof.Machine

/-! ### Numbers within numbers (R3) -/

theorem ofBytes_append (x y : List Byte) : ofBytes (x ++ y) = ofBytes x + 256 ^ x.length * ofBytes y := by
  induction x with
  | nil => simp [ofBytes]
  | cons b r ih => simp only [List.cons_append, ofBytes, ih, List.length_cons, Nat.pow_succ']; ring

theorem interval_add (a m n : Nat) : interval a (m + n) = interval a m ++ interval (a + m) n := by
  simp only [interval, List.range_add, List.map_append, List.map_map]
  congr 2
  funext i
  exact (Nat.add_assoc a m i).symm

theorem Memory.num_add (m : Memory) (a p q : Nat) : m.num a (p + q) = m.num a p + 256 ^ p * m.num (a + p) q := by
  simp only [Memory.num, Memory.read, interval_add, List.map_append, ofBytes_append, List.length_map, length_interval]

/-- The bytes from `j` on of a number in memory. -/
theorem Memory.num_part (m : Memory) {a n j b : Nat} (h : j + b ≤ n) : m.num a n / 256 ^ j % 256 ^ b = m.num (a + j) b := by
  obtain ⟨c, rfl⟩ := Nat.exists_eq_add_of_le h
  rw [Nat.add_assoc, Memory.num_add, Memory.num_add m (a + j), Nat.add_mul_div_left _ _ (by positivity),
    Nat.div_eq_of_lt (Memory.num_lt _ _ _), Nat.zero_add, Nat.add_mul_mod_self_left, Nat.mod_eq_of_lt (Memory.num_lt _ _ _)]

/-! ### Pieces written one after another (R69) -/

/-- Memory after pieces have been stored one after another, each at its offset from `base`. -/
def Memory.putAll (m : Memory) (base : Nat) (ws : List (Nat × List Byte)) : Memory :=
  ws.foldl (fun m w => m.put (base + w.1) w.2) m

theorem Memory.wf_putAll {m : Memory} (h : m.wf) (base : Nat) (ws : List (Nat × List Byte)) : (m.putAll base ws).wf := by
  induction ws generalizing m with
  | nil => exact h
  | cons w r ih => exact ih (Memory.wf_put h _ _)

/-- Pieces leave every byte that none of them covers. -/
theorem Memory.byte_putAll_outside {m : Memory} (h : m.wf) {base x : Nat} {ws : List (Nat × List Byte)}
    (hx : ∀ w ∈ ws, x < base + w.1 ∨ base + w.1 + w.2.length ≤ x) : (m.putAll base ws).byte x = m.byte x := by
  induction ws generalizing m with
  | nil => rfl
  | cons w r ih =>
    exact (ih (Memory.wf_put h _ _) fun v hv => hx v (List.mem_cons_of_mem _ hv)).trans
      (Memory.byte_put_outside h (hx w List.mem_cons_self))

/-- The last piece that covers a number prevails. -/
theorem Memory.num_putAll {m : Memory} (h : m.wf) {base o n v : Nat} {pre post : List (Nat × List Byte)}
    (hp : ∀ w ∈ post, o + n ≤ w.1 ∨ w.1 + w.2.length ≤ o) :
    (m.putAll base (pre ++ (o, bytesOf n v) :: post)).num (base + o) n = v % 256 ^ n := by
  have hm := Memory.wf_putAll h base pre
  rw [Memory.putAll, List.foldl_append, List.foldl_cons, ← Memory.num_put hm (base + o) n v]
  unfold Memory.num
  congr 1
  refine Memory.read_congr fun x h1 h2 => Memory.byte_putAll_outside (Memory.wf_put hm _ _) fun w hw => ?_
  have := hp w hw
  omega

/-- Two pieces that lie end to end are one. -/
theorem Memory.put_append {m : Memory} (h : m.wf) (a : Nat) (x y : List Byte) :
    m.put a (x ++ y) = (m.put a x).put (a + x.length) y := by
  refine Memory.ext_byte (Memory.wf_put h _ _) (Memory.wf_put (Memory.wf_put h _ _) _ _) fun z => ?_
  rw [Memory.byte_put h, Memory.byte_put (Memory.wf_put h _ _), Memory.byte_put h, List.length_append]
  by_cases hx : z < a + x.length
  · rw [if_neg (c := a + x.length ≤ z ∧ _) (by omega)]
    by_cases ha : a ≤ z
    · rw [if_pos ⟨ha, by omega⟩, if_pos ⟨ha, hx⟩, List.getElem?_append_left (by omega)]
    · rw [if_neg (by omega), if_neg (by omega)]
  · by_cases hy : z < a + x.length + y.length
    · rw [if_pos ⟨by omega, by omega⟩, if_pos ⟨by omega, hy⟩, List.getElem?_append_right (by omega),
        show z - a - x.length = z - (a + x.length) by omega]
    · rw [if_neg (by omega), if_neg (by omega), if_neg (by omega)]

/-- Joining adjacent pieces changes nothing in memory. -/
theorem Memory.putAll_joinRanges {m : Memory} (h : m.wf) (base : Nat) (ws : List (Nat × List Byte)) :
    m.putAll base (joinRanges ws) = m.putAll base ws := by
  induction ws generalizing m with
  | nil => rfl
  | cons w r ih =>
    obtain ⟨a, x⟩ := w
    have hr := ih (Memory.wf_put h (base + a) x)
    unfold joinRanges
    split
    · next b y rest hj =>
      rw [hj] at hr
      split
      · next hab =>
        refine Eq.trans ?_ hr
        show Memory.putAll (m.put (base + a) (x ++ y)) base rest = Memory.putAll ((m.put (base + a) x).put (base + b) y) base rest
        rw [Memory.put_append h, ← hab, Nat.add_assoc]
      · exact hr
    · next hj =>
      rw [hj] at hr
      exact hr

/-! ### Lanes and their bytes (R284, R366) -/

/-- A lane has a whole number of bytes, and the lanes fill a register. -/
theorem Fmt.lane_bytes {t : Fmt} (h : t.isLane = true) :
    t.bits = 8 * (t.bits / 8) ∧ 0 < t.bits / 8 ∧ lanes t * (t.bits / 8) = 256 := by
  revert h
  cases t <;> decide

theorem Fmt.pow_lane_bytes {t : Fmt} (h : t.isLane = true) (i : Nat) : 2 ^ (t.bits * i) = 256 ^ (i * (t.bits / 8)) := by
  rw [show (256 : Nat) = 2 ^ 8 from rfl, ← Nat.pow_mul]
  congr 1
  conv_lhs => rw [(Fmt.lane_bytes h).1]
  ring

theorem lanes_fit (t : Fmt) : t.bits * lanes t ≤ 2048 := by
  unfold lanes
  exact Nat.mul_div_le _ _

theorem lane_lt (w : Nat) (v : VReg) (i : Nat) : lane w v i < 2 ^ w := Nat.mod_lt _ (Nat.two_pow_pos w)

/-- A canonical rns word has thirty bits (R114). -/
theorem rnsAddWord_lt (x y : Nat) : rnsAddWord x y < 2 ^ 32 := by
  have h1 : (field x 20 10 + field y 20 10) % 1021 < 1021 := Nat.mod_lt _ (by decide)
  have h2 : (field x 10 10 + field y 10 10) % 1023 < 1023 := Nat.mod_lt _ (by decide)
  have h3 : (field x 0 10 + field y 0 10) % 1024 < 1024 := Nat.mod_lt _ (by decide)
  unfold rnsAddWord
  omega

/-- A lane stays a lane in canonical form. -/
theorem canon_lt {t : Fmt} {x : Nat} (h : x < 2 ^ t.bits) : canon t x < 2 ^ t.bits := by
  unfold canon
  split
  · next ht => subst ht; exact rnsAddWord_lt x 0
  · exact h

/-- A register holds all of a number of its size. -/
theorem Memory.toNat_ofNat_num (m : Memory) (a n : Nat) : (BitVec.ofNat (8 * n) (m.num a n)).toNat = m.num a n := by
  rw [BitVec.toNat_ofNat, Nat.pow_mul]
  exact Nat.mod_eq_of_lt (m.num_lt a n)

/-- A lane of 256 bytes of memory. -/
theorem lane_num (m : Memory) (a : Nat) {t : Fmt} (h : t.isLane = true) {i : Nat} (hi : i < lanes t) :
    lane t.bits (BitVec.ofNat 2048 (m.num a 256)) i = m.num (a + i * (t.bits / 8)) (t.bits / 8) := by
  obtain ⟨_, hpos, hall⟩ := Fmt.lane_bytes h
  have hfit : i * (t.bits / 8) + t.bits / 8 ≤ 256 := by
    calc i * (t.bits / 8) + t.bits / 8 = (i + 1) * (t.bits / 8) := by ring
      _ ≤ lanes t * (t.bits / 8) := Nat.mul_le_mul_right _ hi
      _ = 256 := hall
  have h1 : 2 ^ t.bits = 256 ^ (t.bits / 8) := by simpa using Fmt.pow_lane_bytes h 1
  rw [lane, show (BitVec.ofNat 2048 (m.num a 256)).toNat = m.num a 256 from m.toNat_ofNat_num a 256, Fmt.pow_lane_bytes h, h1]
  exact m.num_part hfit

/-- A vector result that sets no flag and counts nothing. -/
theorem vfinish_moves (s : State) (k : Strand) (t : Fmt) (q : VPred) (d : VNum) (f : Nat → Nat) :
    vfinish s k t q d 0 (fun i => (f i, false)) = retire s (k.wrV d (vresult k t q (k.rdV d) f)) := by
  have hsat : ((List.range (lanes t)).any fun i => laneOn k q i && false) = false := by simp
  unfold vfinish
  dsimp only
  rw [hsat]
  rfl

/-- The lanes of a vector result (R366). -/
theorem lanesBy_vresult (k : Strand) (t : Fmt) (q : VPred) (old : VReg) (f : Nat → Nat) :
    LanesBy k t q old (vresult k t q old f) f := by
  intro i hi
  rw [vresult, lane_laneMap _ (lanes t) _ _ hi (lanes_fit t)]
  split
  · rfl
  · split
    · exact Nat.zero_mod _
    · exact Nat.mod_eq_of_lt (lane_lt _ _ _)

/-! ### Stores in pieces (R69) -/

/-- An update of memory that leaves what its pieces leave, and clears poison marks at most, is a store of their ranges. -/
theorem writes_of_putAll {w : State → State} {base : Nat} {ws : List (Nat × List Byte)} {rs : List (Nat × Nat)}
    (hsame : ∀ u, { w u with mem := u.mem, poison := u.poison } = u) (hpoison : ∀ u g, (w u).poisoned g = true → u.poisoned g = true)
    (hmem : ∀ u, u.ok → (w u).mem = u.mem.putAll base ws) (hrs : rs = ws.map fun x => (x.1, x.2.length)) :
    State.Writes w base rs where
  same := hsame
  poison := hpoison
  ok := fun u hu => by unfold State.ok; rw [hmem u hu]; exact Memory.wf_putAll hu base ws
  bytes := fun u hu b hb => by
    rw [hmem u hu]
    refine Memory.byte_putAll_outside hu fun x hx => hb (x.1, x.2.length) ?_
    rw [hrs]
    exact List.mem_map_of_mem hx

/-- Pieces written one after another, as one update. -/
theorem foldl_write_mem (base : Nat) (ws : List (Nat × List Byte)) (u : State) :
    (ws.foldl (fun u w => u.write (base + w.1) w.2) u).mem = u.mem.putAll base ws := by
  induction ws generalizing u with
  | nil => rfl
  | cons w r ih => rw [List.foldl_cons, ih, State.write_mem]; rfl

theorem foldl_write_same (base : Nat) (ws : List (Nat × List Byte)) (u : State) :
    { ws.foldl (fun u w => u.write (base + w.1) w.2) u with mem := u.mem, poison := u.poison } = u := by
  induction ws generalizing u with
  | nil => rfl
  | cons w r ih =>
    have hw := (State.writes_write base w.1 w.2).same u
    rw [List.foldl_cons]
    generalize u.write (base + w.1) w.2 = v at hw ⊢
    have hr := ih v
    generalize r.foldl (fun u w => u.write (base + w.1) w.2) v = z at hr ⊢
    rw [← hw, ← hr]

theorem foldl_write_poisoned (base : Nat) (ws : List (Nat × List Byte)) (u : State) (g : Nat)
    (h : (ws.foldl (fun u w => u.write (base + w.1) w.2) u).poisoned g = true) : u.poisoned g = true := by
  induction ws generalizing u with
  | nil => exact h
  | cons w r ih => exact (State.writes_write base w.1 w.2).poison u g (ih _ h)

/-- Clean pieces stored after they have been joined are a store of their ranges. -/
theorem writes_joined (base : Nat) (ws : List (Nat × List Byte)) :
    State.Writes (fun u => (joinRanges ws).foldl (fun u w => u.write (base + w.1) w.2) u) base
      (ws.map fun w => (w.1, w.2.length)) :=
  writes_of_putAll (foldl_write_same base _) (foldl_write_poisoned base _)
    (fun u hu => (foldl_write_mem base _ u).trans (Memory.putAll_joinRanges hu base ws)) rfl

/-- Marks that are cleared are the only ones that go. -/
theorem clearPoison_poisoned {s : State} {gs : List Nat} {g : Nat} (h : (s.clearPoison gs).poisoned g = true) :
    s.poisoned g = true := by
  unfold State.clearPoison State.poisoned at *
  split at h
  · exact h
  · exact List.contains_iff_mem.2 (List.mem_filter.1 (List.contains_iff_mem.1 h)).1

/-- Pieces stored in place, as one update of memory. -/
theorem foldl_update_eq (base : Nat) (ws : List (Nat × List Byte)) (u : State) :
    (ws.map fun w => (base + w.1, w.2)).foldl (fun u w => u.update w.1 w.2) u = { u with mem := u.mem.putAll base ws } := by
  induction ws generalizing u with
  | nil => rfl
  | cons w r ih => rw [List.map_cons, List.foldl_cons, ih]; rfl

/-- Clean pieces that may cover the same bytes change memory, and clear poison marks at most. -/
theorem writeAll_eq (base : Nat) (ws : List (Nat × List Byte)) (u : State) :
    ∃ p, u.writeAll (ws.map fun w => (base + w.1, w.2)) = { u with mem := u.mem.putAll base ws, poison := p } ∧
      ∀ g, p.contains g = true → u.poisoned g = true := by
  unfold State.writeAll
  rw [foldl_update_eq]
  generalize State.granulesCovered _ = gs
  obtain ⟨p, hp⟩ := State.clearPoison_eq { u with mem := u.mem.putAll base ws } gs
  refine ⟨p, hp, fun g hg => clearPoison_poisoned (s := { u with mem := u.mem.putAll base ws }) (gs := gs) ?_⟩
  rw [hp]
  exact hg

theorem writeAll_mem (base : Nat) (ws : List (Nat × List Byte)) (u : State) :
    (u.writeAll (ws.map fun w => (base + w.1, w.2))).mem = u.mem.putAll base ws := by
  obtain ⟨p, h, _⟩ := writeAll_eq base ws u
  rw [h]

/-- Clean pieces that may cover the same bytes are a store of their ranges. -/
theorem writes_all (base : Nat) (ws : List (Nat × List Byte)) :
    State.Writes (fun u => u.writeAll (ws.map fun w => (base + w.1, w.2))) base (ws.map fun w => (w.1, w.2.length)) := by
  refine writes_of_putAll (fun u => ?_) (fun u g hg => ?_) (fun u _ => writeAll_mem base ws u) rfl
  all_goals obtain ⟨p, h, hp⟩ := writeAll_eq base ws u
  · rw [h]
  · rw [h] at hg
    exact hp g hg

/-! ### Loads of lanes -/

/-- No lane of a vector load is poisoned when none of those that it reads is (R68). -/
theorem laneRanges_clean {s : State} {k : Strand} {q : VPred} {t : Fmt} {addr : Nat → Nat} {n : Nat}
    (h : ∀ i, i < n → laneOn k q i = true → s.anyPoison (storeKey s.at_.1 (addr i)) (t.bits / 8) = false) :
    ((laneRanges k q t addr n).any fun r => s.anyPoison (tileKey s r.1) r.2) = false := by
  rw [List.any_eq_false]
  intro r hr
  obtain ⟨i, hi, rfl⟩ := List.mem_map.1 hr
  obtain ⟨hn, hq⟩ := List.mem_filter.1 hi
  exact Bool.eq_false_iff.1 (h i (List.mem_range.1 hn) hq)

theorem exec_vld {f : VmemV} {s : State} {k : Strand} (hk : Issues s k { src := [f.a], v := [f.d] }) (hw : Unwatched s)
    (ha : InStore (vectorAddress f k) 256 256)
    (hp : ∀ i, i < lanes f.ty → laneOn k f.q i = true →
      s.anyPoison (storeKey s.at_.1 ((vectorAddress f k).toNat + i * (f.ty.bits / 8))) (f.ty.bits / 8) = false) :
    exec (.vld f) s = .next (s.put (k.issuing.wrV f.d (vresult k f.ty f.q (k.rdV f.d) fun i => canon f.ty
      (lane f.ty.bits (BitVec.ofNat 2048 (s.mem.num (storeKey s.at_.1 (vectorAddress f k).toNat) 256)) i))).next) := by
  refine exec_of_issues (i := .vld f) rfl hk ?_
  have hn : needStore (k.issuing.rd f.a + f.imm.signExtend 64) 256 256 = .ok () := needStore_ok ha
  have hc : ((laneRanges k.issuing f.q f.ty (fun i => (k.issuing.rd f.a + f.imm.signExtend 64).toNat + i * (f.ty.bits / 8))
      (lanes f.ty)).any fun r => s.anyPoison (tileKey s r.1) r.2) = false := laneRanges_clean hp
  dsimp only
  rw [hn, hc, watched_unwatched hw, vfinish_moves]
  rfl

/-! ### Stores of lanes -/

/-- What a store of the enabled lanes of a register brings: each lane in canonical form to its own place (R114). -/
def lanePieces (k : Strand) (q : VPred) (t : Fmt) (addr : Nat → Nat) (v : VReg) (n : Nat) : List (Nat × List Byte) :=
  ((List.range n).filter (laneOn k q)).map fun i => (addr i, bytesOf (t.bits / 8) (canon t (lane t.bits v i)))

section Pieces

variable (k : Strand) (q : VPred) (t : Fmt) (addr : Nat → Nat) (v : VReg) (n : Nat)

theorem lanePieces_ranges : ((lanePieces k q t addr v n).map fun w => (w.1, t.bits / 8)) = laneRanges k q t addr n := by
  rw [lanePieces, List.map_map]; rfl

theorem lanePieces_lengths : ((lanePieces k q t addr v n).map fun w => (w.1, w.2.length)) = laneRanges k q t addr n := by
  rw [lanePieces, List.map_map, laneRanges]
  exact List.map_congr_left fun i _ => by simp

/-- A lane that no later one covers stands where it was stored. -/
theorem num_lanePieces {m : Memory} (h : m.wf) (ht : t.isLane = true) (base : Nat) {i : Nat} (hi : i < n)
    (hon : laneOn k q i = true)
    (hlast : ∀ j, i < j → j < n → laneOn k q j = true → addr i + t.bits / 8 ≤ addr j ∨ addr j + t.bits / 8 ≤ addr i) :
    (m.putAll base (lanePieces k q t addr v n)).num (base + addr i) (t.bits / 8) = canon t (lane t.bits v i) := by
  have hmem : i ∈ (List.range n).filter (laneOn k q) := List.mem_filter.2 ⟨List.mem_range.2 hi, hon⟩
  obtain ⟨pre, post, hsplit⟩ := List.append_of_mem hmem
  have hord : ((List.range n).filter (laneOn k q)).Pairwise (· < ·) := List.pairwise_lt_range.filter _
  rw [hsplit] at hord
  have hpost : ∀ j ∈ post, i < j := fun j hj => List.rel_of_pairwise_cons (List.pairwise_append.1 hord).2.1 hj
  have hb : 2 ^ t.bits = 256 ^ (t.bits / 8) := by simpa using Fmt.pow_lane_bytes ht 1
  rw [lanePieces, hsplit, List.map_append, List.map_cons, Memory.num_putAll h, ← hb]
  · exact Nat.mod_eq_of_lt (canon_lt (lane_lt _ _ _))
  · intro w hw
    obtain ⟨j, hj, rfl⟩ := List.mem_map.1 hw
    have hin : j ∈ (List.range n).filter (laneOn k q) := by rw [hsplit]; simp [hj]
    obtain ⟨hn, hq⟩ := List.mem_filter.1 hin
    simpa using hlast j (hpost j hj) (List.mem_range.1 hn) hq

end Pieces

/-! ### O20 -/

/-- The ranges and the pieces of a VST (R381). -/
def vstRanges (k : Strand) (f : VmemV) : List (Nat × Nat) :=
  laneRanges k f.q f.ty (fun i => (vectorAddress f k).toNat + i * (f.ty.bits / 8)) (2048 / f.ty.bits)
def vstPieces (k : Strand) (f : VmemV) : List (Nat × List Byte) :=
  lanePieces k f.q f.ty (fun i => (vectorAddress f k).toNat + i * (f.ty.bits / 8)) (k.rdV f.d) (2048 / f.ty.bits)

/-- What VST does to memory alone. -/
def vstWrite (s : State) (k : Strand) (f : VmemV) (u : State) : State :=
  (joinRanges (vstPieces k f)).foldl (fun u w => u.write (storeKey s.at_.1 0 + w.1) w.2) u

theorem writes_vst (s : State) (k : Strand) (f : VmemV) :
    State.Writes (vstWrite s k f) (storeKey s.at_.1 0) (vstRanges k f) := by
  rw [vstRanges, ← lanePieces_lengths k f.q f.ty _ (k.rdV f.d)]
  exact writes_joined _ _

theorem exec_vst {f : VmemV} {s : State} {k : Strand} (hk : Issues s k { src := [f.a], v := [f.d] }) (hw : Unwatched s)
    (ha : InStore (vectorAddress f k) 256 256) :
    exec (.vst f) s = .next ((s.storing k (vstRanges k f) (vstWrite s k f)).put k.issuing.next) := by
  refine exec_of_issues (i := .vst f) rfl hk ?_
  have hn : needStore (k.issuing.rd f.a + f.imm.signExtend 64) 256 256 = .ok () := needStore_ok ha
  have hkey : (fun (u : State) (w : Nat × List Byte) => u.write (tileKey s w.1) w.2) =
      fun u w => u.write (storeKey s.at_.1 0 + w.1) w.2 := by
    funext u w
    rw [tileKey, storeKey_eq]
  dsimp only
  rw [hn, watched_unwatched hw, hkey, vstRanges, ← lanePieces_ranges k f.q f.ty _ (k.rdV f.d)]
  rfl

/-- Each enabled lane stands where VST stored it. -/
theorem num_vstWrite {s u : State} {k : Strand} {f : VmemV} (ht : f.ty.isLane = true) (hu : u.ok) {i : Nat}
    (hi : i < 2048 / f.ty.bits) (hon : laneOn k f.q i = true) :
    (vstWrite s k f u).mem.num (storeKey s.at_.1 ((vectorAddress f k).toNat + i * (f.ty.bits / 8))) (f.ty.bits / 8) =
      canon f.ty (k.at_ f.ty f.d i) := by
  rw [vstWrite, foldl_write_mem, Memory.putAll_joinRanges hu, storeKey_eq _ ((vectorAddress f k).toNat + i * (f.ty.bits / 8))]
  refine num_lanePieces k f.q f.ty (fun i => (vectorAddress f k).toNat + i * (f.ty.bits / 8)) _ _ hu ht _ hi hon
    fun j hij _ _ => Or.inl ?_
  have : (i + 1) * (f.ty.bits / 8) ≤ j * (f.ty.bits / 8) := Nat.mul_le_mul_right _ hij
  rw [Nat.succ_mul] at this
  omega

/-- Settles O20: VLD makes a register of the lanes that memory holds; VST stores pieces that lie apart. -/
theorem vectorMemory : Obligations.VectorMemory := by
  unfold Obligations.VectorMemory
  constructor
  · intro f s k hf hk hw a b ha hp
    have ht : f.ty.isLane = true := (Bool.and_eq_true_iff.1 hf).1
    refine ⟨_, _, exec_vld hk hw ha hp, wroteVector_wrV k f.d _, fun i hi => ?_⟩
    rw [lanesBy_vresult k f.ty f.q (k.rdV f.d) _ i hi, lane_num s.mem _ ht hi, ← storeKey_add]
  · intro f s k hf hk hw hs a b rs ha
    have ht : f.ty.isLane = true := (Bool.and_eq_true_iff.1 (Bool.and_eq_true_iff.1 hf).1).1
    refine ⟨_, exec_vst hk hw ha, State.storesOnly_of_storing hs (writes_vst s k f), fun hr i hi hon => ?_⟩
    have hend : i * b + b ≤ 256 := by
      rw [← (Fmt.lane_bytes ht).2.2, ← Nat.succ_mul]
      exact Nat.mul_le_mul_right _ hi
    rw [State.put_mem]
    refine (storing_num hs (writes_vst s k f) fun x hx => ?_).trans (num_vstWrite ht (State.touchStore_ok hs _ _ _) hi hon)
    have := hr x hx
    rw [storeKey_add]
    omega

/-! ### O21 -/

/-- The lanes that a gather or scatter looks at are those that it moves. -/
theorem mem_gsLanes {f : VgsV} {k : Strand} {i : Nat} : i ∈ gsLanes k f ↔ Moves f k i := by
  rw [gsLanes, List.mem_filter, List.mem_range, Nat.lt_min, and_assoc]
  rfl

theorem gsCheck_ok {f : VgsV} {k : Strand} {l : List Nat}
    (h : ∀ i ∈ l, InStore (laneAddress f k i) (f.ty.bits / 8) (f.ty.bits / 8)) : gsCheck k f l = .ok () := by
  induction l with
  | nil => rfl
  | cons i r ih =>
    rw [gsCheck, show needStore (gsAddr k f i) _ _ = .ok () from needStore_ok (h i List.mem_cons_self)]
    exact ih fun j hj => h j (List.mem_cons_of_mem _ hj)

/-- The register that a gather writes (R379). -/
def gatherResult (s : State) (k : Strand) (f : VgsV) : VReg :=
  laneMap f.ty.bits (lanes f.ty) fun i =>
    if (gsLanes k f).contains i then
      canon f.ty (s.mem.num (storeKey s.at_.1 (laneAddress f k i).toNat) (f.ty.bits / 8))
    else if f.q.zm then 0 else lane f.ty.bits (k.rdV f.d) i

theorem exec_vgath {f : VgsV} {s : State} {k : Strand} (hk : Issues s k { src := [f.a], v := [f.b, f.d] })
    (hw : Unwatched s) (ha : ∀ i, Moves f k i → InStore (laneAddress f k i) (f.ty.bits / 8) (f.ty.bits / 8) ∧
      s.anyPoison (storeKey s.at_.1 (laneAddress f k i).toNat) (f.ty.bits / 8) = false) :
    exec (.vgath f) s = .next (s.put (k.issuing.wrV f.d (gatherResult s k f)).next) := by
  refine exec_of_issues (i := .vgath f) rfl hk ?_
  have hc : gsCheck k.issuing f (gsLanes k.issuing f) = .ok () := gsCheck_ok (k := k.issuing) fun i hi => (ha i (mem_gsLanes.1 hi)).1
  have hp : (gsLanes k.issuing f).find? (fun i => s.anyPoison (tileKey s (gsAddr k.issuing f i).toNat) (f.ty.bits / 8)) = none :=
    List.find?_eq_none.2 fun i hi => Bool.eq_false_iff.1 (ha i (mem_gsLanes.1 hi)).2
  dsimp only
  rw [hc, hp, watched_unwatched hw]
  rfl

/-- The ranges and the pieces of a VSCAT (R379). -/
def vscatRanges (k : Strand) (f : VgsV) : List (Nat × Nat) :=
  laneRanges k f.q f.ty (fun i => (laneAddress f k i).toNat) (min 64 (2048 / f.ty.bits))
def vscatPieces (k : Strand) (f : VgsV) : List (Nat × List Byte) :=
  lanePieces k f.q f.ty (fun i => (laneAddress f k i).toNat) (k.rdV f.d) (min 64 (2048 / f.ty.bits))

/-- What VSCAT does to memory alone. -/
def vscatWrite (s : State) (k : Strand) (f : VgsV) (u : State) : State :=
  u.writeAll ((vscatPieces k f).map fun w => (storeKey s.at_.1 0 + w.1, w.2))

theorem writes_vscat (s : State) (k : Strand) (f : VgsV) :
    State.Writes (vscatWrite s k f) (storeKey s.at_.1 0) (vscatRanges k f) := by
  rw [vscatRanges, ← lanePieces_lengths k f.q f.ty _ (k.rdV f.d)]
  exact writes_all _ _

theorem exec_vscat {f : VgsV} {s : State} {k : Strand} (hk : Issues s k { src := [f.a], v := [f.b, f.d] })
    (hw : Unwatched s) (ha : ∀ i, Moves f k i → InStore (laneAddress f k i) (f.ty.bits / 8) (f.ty.bits / 8)) :
    exec (.vscat f) s = .next ((s.storing k (vscatRanges k f) (vscatWrite s k f)).put k.issuing.next) := by
  refine exec_of_issues (i := .vscat f) rfl hk ?_
  have hc : gsCheck k.issuing f (gsLanes k.issuing f) = .ok () := gsCheck_ok (k := k.issuing) fun i hi => ha i (mem_gsLanes.1 hi)
  have hkey : (fun w : Nat × List Byte => (tileKey s w.1, w.2)) = fun w => (storeKey s.at_.1 0 + w.1, w.2) := by
    funext w
    rw [tileKey, storeKey_eq]
  dsimp only
  rw [hc, watched_unwatched hw, hkey, vscatRanges, ← lanePieces_ranges k f.q f.ty _ (k.rdV f.d)]
  rfl

/-- Two aligned places of one size in a tile store are one or lie apart. -/
theorem aligned_apart {a c b : Nat} (ha : a % b = 0) (hc : c % b = 0) (h : c ≠ a) : a + b ≤ c ∨ c + b ≤ a := by
  obtain ⟨x, rfl⟩ := Nat.dvd_of_mod_eq_zero ha
  obtain ⟨y, rfl⟩ := Nat.dvd_of_mod_eq_zero hc
  rcases Nat.lt_or_gt_of_ne fun e : y = x => h (by rw [e]) with hlt | hgt
  · exact Or.inr (by rw [← Nat.mul_succ]; exact Nat.mul_le_mul_left _ hlt)
  · exact Or.inl (by rw [← Nat.mul_succ]; exact Nat.mul_le_mul_left _ hgt)

/-- A lane that no higher one has the place of stands where VSCAT stored it. -/
theorem num_vscatWrite {s u : State} {k : Strand} {f : VgsV} (ht : f.ty.isLane = true) (hu : u.ok)
    (ha : ∀ i, Moves f k i → InStore (laneAddress f k i) (f.ty.bits / 8) (f.ty.bits / 8)) {i : Nat} (hi : Moves f k i)
    (hlast : ∀ j, Moves f k j → i < j → laneAddress f k j ≠ laneAddress f k i) :
    (vscatWrite s k f u).mem.num (storeKey s.at_.1 (laneAddress f k i).toNat) (f.ty.bits / 8) =
      canon f.ty (k.at_ f.ty f.d i) := by
  rw [vscatWrite, writeAll_mem, storeKey_eq _ (laneAddress f k i).toNat]
  refine num_lanePieces k f.q f.ty (fun i => (laneAddress f k i).toNat) _ _ hu ht _ (Nat.lt_min.2 ⟨hi.1, hi.2.1⟩) hi.2.2
    fun j hij hj hq => ?_
  have hm : Moves f k j := ⟨(Nat.lt_min.1 hj).1, (Nat.lt_min.1 hj).2, hq⟩
  exact aligned_apart (ha i hi).1 (ha j hm).1 fun e => hlast j hm hij (BitVec.eq_of_toNat_eq e)

/-- Settles O21: VGATH reads each lane at its place; VSCAT stores pieces that are one or lie apart, the highest lane last. -/
theorem gatherScatter : Obligations.GatherScatter := by
  unfold Obligations.GatherScatter
  constructor
  · intro f s k hf hk hw b ha
    have ht : f.ty.isLane = true := (Bool.and_eq_true_iff.1 hf).1
    have hb : 2 ^ f.ty.bits = 256 ^ b := by simpa using Fmt.pow_lane_bytes ht 1
    refine ⟨_, _, exec_vgath hk hw ha, wroteVector_wrV k f.d _, fun i hi => ?_⟩
    rw [gatherResult, lane_laneMap _ (lanes f.ty) _ _ hi (lanes_fit _)]
    by_cases hm : Moves f k i
    · rw [if_pos hm, if_pos (List.contains_iff_mem.2 (mem_gsLanes.2 hm))]
      exact Nat.mod_eq_of_lt (canon_lt (hb ▸ Memory.num_lt _ _ _))
    · rw [if_neg hm, if_neg fun h => hm (mem_gsLanes.1 (List.contains_iff_mem.1 h))]
      split
      · exact Nat.zero_mod _
      · exact Nat.mod_eq_of_lt (lane_lt _ _ _)
  · intro f s k hf hk hw hs b ha rs
    have ht : f.ty.isLane = true := (Bool.and_eq_true_iff.1 (Bool.and_eq_true_iff.1 hf).1).1
    refine ⟨_, exec_vscat hk hw ha, State.storesOnly_of_storing hs (writes_vscat s k f), fun hr i hi hlast => ?_⟩
    rw [State.put_mem]
    refine (storing_num hs (writes_vscat s k f) fun x hx => ?_).trans
      (num_vscatWrite ht (State.touchStore_ok hs _ _ _) ha hi hlast)
    exact absurd (show x ∈ s.racedCells k rs from hx) (by rw [hr]; exact List.not_mem_nil)

end Sys2Proof.Machine
end

section
/-! PROOF. CTRADD and WAITGE (R97 to R100, R386): what an addition to a counter leaves, when a wait ends, and O28. -/

namespace Sys2Proof.Machine

/-! ### CTRADD (R97) -/

/-- Notes leave the strands, and the place whose instruction runs. -/
theorem Noted.strands {id lr : Nat} {s t : State} (h : Noted id lr s t) : t.strands = s.strands := by
  have e := congrArg State.strands h.rest
  exact e
theorem Noted.place {id lr : Nat} {s t : State} (h : Noted id lr s t) : t.at_ = s.at_ := by
  have e := congrArg State.at_ h.rest
  exact e

/-- A change of the order among stores is a note. -/
theorem Noted.onRace (s : State) (id lr : Nat) (f : Races → Races) : Noted id lr s (s.onRace id lr f) := by
  unfold State.onRace
  split
  · next v hv => exact Noted.putVtile hv ⟨rfl, fun _ => rfl, rfl⟩
  · exact Noted.refl _ _ _

@[simp] theorem onRace_mem (s : State) (id lr : Nat) (f : Races → Races) : (s.onRace id lr f).mem = s.mem := by
  unfold State.onRace; split <;> rfl

/-- A strand that moves on once its notes are made has stored only where bytes may change. -/
theorem storesOnly_of_noted {s t : State} {k : Strand} {base : Nat} {rs : List (Nat × Nat)} (h : Noted k.team k.lrank s t)
    (hb : ∀ b, (∀ r ∈ rs, b < base + r.1 ∨ base + r.1 + r.2 ≤ b) → (∀ x ∈ s.spoilt k.team k.lrank rs none, x.1 ≠ b) →
      t.mem.byte b = s.mem.byte b) : StoresOnly s (t.put k.issuing.next) k base rs where
  strands := by
    unfold State.put State.putAt
    rw [h.strands, h.place]
    rfl
  bytes := fun b h1 h2 _ => hb b h1 h2
  poison := h.poison
  vtile := h.vtile
  vtiles := h.vtiles
  teams := h.teams
  copies := h.copies
  landings := h.landings
  graphs := h.graphs
  runs := h.runs
  rest := by
    have hr := h.rest
    rw [← h.strands]
    exact hr

/-- A sum that fits is the counter's new value. -/
theorem addCounter_fits {s : State} {key : Nat} {x : Word} (h : s.mem.num key 8 + x.toNat < 2 ^ 64) :
    addCounter s key x = (none, s.update key (bytesOf 8 (s.mem.num key 8 + x.toNat))) := if_pos h

/-- A sum that does not leaves all ones, and the rest of it (R97). -/
theorem addCounter_saturates {s : State} {key : Nat} {x : Word} (h : 2 ^ 64 ≤ s.mem.num key 8 + x.toNat) :
    addCounter s key x =
      (some (s.mem.num key 8 + x.toNat - (2 ^ 64 - 1)), s.update key (List.replicate 8 0xFF)) := if_neg (Nat.not_lt.2 h)

/-- The state after a CTRADD that does not saturate, before waits are looked at again. -/
def counted (s : State) (k : Strand) (a n : Nat) : State :=
  (((s.touchStore k.team k.lrank [(a, 8)]).update (storeKey s.at_.1 a) (bytesOf 8 n)).onRace k.team k.lrank
    fun r => r.carry k.uid a).put k.issuing.next

theorem num_counted {s : State} (h : s.ok) (k : Strand) {a n : Nat} (hn : n < 2 ^ 64) :
    (counted s k a n).mem.num (storeKey s.at_.1 a) 8 = n := by
  rw [counted, State.put_mem, onRace_mem, State.update_mem, Memory.num_put (State.touchStore_ok h _ _ _)]
  exact Nat.mod_eq_of_lt hn

theorem storesOnly_counted {s : State} (h : s.ok) (k : Strand) (a n : Nat) :
    StoresOnly s (counted s k a n) k (storeKey s.at_.1 0) [(a, 8)] := by
  refine storesOnly_of_noted (((Noted.touchStore s k.team k.lrank [(a, 8)] none).trans
    (Noted.of_memory (t := (s.touchStore k.team k.lrank [(a, 8)]).update (storeKey s.at_.1 a) (bytesOf 8 n)) _ _ rfl
      fun _ h => h)).trans (Noted.onRace _ _ _ _)) fun b h1 h2 => ?_
  have hr := h1 (a, 8) List.mem_cons_self
  rw [onRace_mem, State.update_mem, Memory.byte_put_outside (State.touchStore_ok h _ _ _)]
  · exact State.touchStore_byte h h2
  · rw [length_bytesOf, storeKey_eq]
    exact hr

section Ctradd

variable {f : CtrC} {s : State} {k : Strand} {a : Word}

/-- The state in which engine work has noted that the counter of a CTRADD changes. -/
abbrev ctrNoted (s : State) (k : Strand) (a : Word) : State := s.touchStore k.team k.lrank [(a.toNat, 8)]

theorem exec_ctradd_fits (hk : Issues s k { src := [f.a, f.b] }) (h : memAddr k f.a f.x = a) (ha : InStore a 8 8)
    (hn : (ctrNoted s k a).mem.num (storeKey s.at_.1 a.toNat) 8 + (k.rd f.b).toNat < 2 ^ 64) :
    exec (.ctradd f) s = .next (recheckWaits (counted s k a.toNat
      ((ctrNoted s k a).mem.num (storeKey s.at_.1 a.toNat) 8 + (k.rd f.b).toNat)) k.team k.lrank) := by
  refine exec_of_issues (i := .ctradd f) rfl hk ?_
  have hb : k.issuing.rd f.b = k.rd f.b := rfl
  dsimp only
  rw [show memAddr k.issuing f.a f.x = a from h, needStore_ok ha, hb, tileKey, addCounter_fits hn]
  rfl

theorem exec_ctradd_saturates (hk : Issues s k { src := [f.a, f.b] }) (h : memAddr k f.a f.x = a) (ha : InStore a 8 8)
    (hn : 2 ^ 64 ≤ (ctrNoted s k a).mem.num (storeKey s.at_.1 a.toNat) 8 + (k.rd f.b).toNat) :
    exec (.ctradd f) s = .next ((((ctrNoted s k a).update (storeKey s.at_.1 a.toNat) (List.replicate 8 0xFF)).orFstat
      k.team k.lrank fstatCsat).takeFault s.at_.1 s.at_.2 k.issuing 0x60 a
      (BitVec.ofNat 64 ((ctrNoted s k a).mem.num (storeKey s.at_.1 a.toNat) 8 + (k.rd f.b).toNat - (2 ^ 64 - 1)))
      ((encode (.ctradd f)).getD 0)) := by
  refine exec_of_issues (i := .ctradd f) rfl hk ?_
  have hb : k.issuing.rd f.b = k.rd f.b := rfl
  dsimp only
  rw [show memAddr k.issuing f.a f.x = a from h, needStore_ok ha, hb, tileKey, addCounter_saturates hn]
  generalize hz : (ctrNoted s k a).update (storeKey s.at_.1 a.toNat) (List.replicate 8 0xFF) = z
  have hat : z.at_ = s.at_ := by
    rw [← hz]
    exact (Noted.touchStore s k.team k.lrank [(a.toNat, 8)] none).place
  generalize (ctrNoted s k a).mem.num (storeKey s.at_.1 a.toNat) 8 + (k.rd f.b).toNat - (2 ^ 64 - 1) = d
  rw [← hat]
  rfl

end Ctradd

/-! ### WAITGE (R100, R386) -/

/-- What is observed of a counter that no store has lowered too early (R386). -/
theorem observed_settled {s : State} {k : Strand} {ofs : Nat} (h : s.loweredAt k ofs = false) (key : Nat) :
    (observed s k key ofs).1 = BitVec.ofNat 64 (s.mem.num key 8) ∧ (observed s k key ofs).2 = s := by
  unfold observed
  rw [h]
  exact ⟨rfl, rfl⟩

/-- The strand that a WAITGE leaves. -/
theorem wroteScalar_waitEnds (k : Strand) (ofs : Nat) (d : SReg) (v : Word) (s : State) :
    WroteScalar k (waitEnds k.issuing ofs d v s).1 d v := by
  have h : (waitEnds k.issuing ofs d v s).1 = (k.issuing.wr d v).next := by
    have hw : (k.issuing.wr d v).next.wait = .none := by simp [Strand.next]
    unfold waitEnds
    generalize (k.issuing.wr d v).next = j at hw
    rw [← hw]
  rw [h]
  exact wroteScalar_wr k d v

theorem exec_waitge_poisoned {f : WaitC} {s : State} {k : Strand} (hk : Issues s k { src := [f.a, f.b], dst := [f.d] })
    {a : Word} {m : Nat} (hw : waitsFor f k.issuing s.strand? = (a, m)) (ha : InStore a 8 8)
    (hp : s.anyPoison (storeKey s.at_.1 a.toNat) 8 = true) :
    exec (.waitge f) s = .next (s.takeFault s.at_.1 s.at_.2 k 0x26 a 0 ((encode (.waitge f)).getD 0)) := by
  refine exec_fault_of_issues (i := .waitge f) rfl hk ?_
  dsimp only
  rw [hw, needStore_ok ha, tileKey, hp]
  rfl

theorem exec_waitge_reached {f : WaitC} {s : State} {k : Strand} (hk : Issues s k { src := [f.a, f.b], dst := [f.d] })
    {a : Word} {m : Nat} (hw : waitsFor f k.issuing s.strand? = (a, m)) (ha : InStore a 8 8)
    (hp : s.anyPoison (storeKey s.at_.1 a.toNat) 8 = false)
    (hm : m ≤ (observed s k (storeKey s.at_.1 a.toNat) a.toNat).1.toNat) :
    ∃ k', exec (.waitge f) s = .next (((observed s k (storeKey s.at_.1 a.toNat) a.toNat).2.onRace k.team k.lrank
        fun r => r.observe k.uid a.toNat).put k') ∧
      WroteScalar k k' f.d (observed s k (storeKey s.at_.1 a.toNat) a.toNat).1 := by
  refine ⟨_, exec_of_issues (i := .waitge f) rfl hk ?_, wroteScalar_waitEnds k a.toNat f.d _ s⟩
  have ho : observed s k.issuing (tileKey s a.toNat) a.toNat = observed s k (storeKey s.at_.1 a.toNat) a.toNat := rfl
  dsimp only
  rw [hw]
  dsimp only
  rw [needStore_ok ha, show s.anyPoison (tileKey s a.toNat) 8 = false from hp, ho, if_pos hm]
  rfl

theorem exec_waitge_waits {f : WaitC} {s : State} {k : Strand} (hk : Issues s k { src := [f.a, f.b], dst := [f.d] })
    {a : Word} {m : Nat} (hw : waitsFor f k.issuing s.strand? = (a, m)) (ha : InStore a 8 8)
    (hp : s.anyPoison (storeKey s.at_.1 a.toNat) 8 = false)
    (hm : (observed s k (storeKey s.at_.1 a.toNat) a.toNat).1.toNat < m) :
    exec (.waitge f) s = .next (s.put (k.waiting (.waitge a.toNat m f) s.cycle.toNat)) := by
  refine exec_wait_of_issues (i := .waitge f) rfl hk ?_
  have ho : observed s k.issuing (tileKey s a.toNat) a.toNat = observed s k (storeKey s.at_.1 a.toNat) a.toNat := rfl
  dsimp only
  rw [hw]
  dsimp only
  rw [needStore_ok ha, show s.anyPoison (tileKey s a.toNat) 8 = false from hp, ho, if_neg (Nat.not_le.2 hm)]
  rfl

/-- Settles O28: an addition fits or saturates; a wait finds poison, ends, or goes on. -/
theorem counterInstructions : Obligations.CounterInstructions := by
  unfold Obligations.CounterInstructions
  constructor
  · intro f s k hk a c s₁ n ha hs
    refine ⟨fun hsp => ?_, fun hn => ?_, fun hn => exec_ctradd_saturates hk rfl ha hn⟩
    · unfold Memory.num
      congr 1
      refine Memory.read_congr fun x h1 h2 => State.touchStore_byte hs fun y hy he => ?_
      have := hsp y hy
      omega
    · exact ⟨_, exec_ctradd_fits hk rfl ha hn, num_counted hs k hn, storesOnly_counted hs k _ _⟩
  · intro f s k hk a m ham key n s₁ ha
    have hw : waitsFor f k.issuing s.strand? = (a, m) := by
      rw [ham, hk.1, waitsFor, Option.map_some]
      cases k.wait <;> rfl
    refine ⟨fun hp => exec_waitge_poisoned hk hw ha hp, fun hl => ?_, fun hp => ⟨fun hm => ?_, fun hm => ?_⟩⟩
    · exact observed_settled hl key
    · exact exec_waitge_reached hk hw ha hp hm
    · exact ⟨_, exec_waitge_waits hk hw ha hp hm, rfl, rfl, rfl⟩

end Sys2Proof.Machine
end

section
/-! PROOF. Accesses to the tile store that are misaligned or outside it (R58, R292): where the check of each instruction stops,
and O13. -/

namespace Sys2Proof.Machine

/-! ### An operand of the tile store as the last that R62 checks -/

/-- A check over a list that all but its last operand pass is the check of the last. -/
theorem forAll_concat {os : List Opd} {c : Opd → Do Unit} (h : forAll os c = .ok ()) (o : Opd) :
    forAll (os ++ [o]) c = c o := by
  induction os with
  | nil =>
    rw [List.nil_append, forAll]
    cases c o <;> rfl
  | cons x r ih =>
    have hx := forAll_ok_iff.1 h
    rw [List.cons_append, forAll, hx x List.mem_cons_self]
    exact ih (forAll_ok_iff.2 fun y hy => hx y (List.mem_cons_of_mem _ hy))

/-- An operand in the issuer's tile store passes the first six checks of R62, so the operands before it and R58 decide. -/
theorem checkAll_concat_store {s : State} {t : Team} {os : List Opd} (h : checkAll s t os = .ok ()) {o : Opd}
    (hs : o.space = 0) (hh : o.hnd = 0) {e : Stop} (he : chkStore o = .error e) : checkAll s t (os ++ [o]) = .error e := by
  obtain ⟨hos, hrank, -⟩ := checkAll_ok_iff.1 h
  have hun : o.handled = false := by simp [Opd.handled, hs]
  have each (c : Opd → Do Unit) (hc : ∀ x ∈ os, c x = .ok ()) : forAll (os ++ [o]) c = c o :=
    forAll_concat (forAll_ok_iff.2 hc) o
  have h1 : chkSpace t o = .ok () := by simp [chkSpace, hun, hs, hh]
  have h2 : chkEntry s t o = .ok () := by simp [chkEntry, hun]
  have h3 : chkGen s t o = .ok () := by simp [chkGen, hun]
  have h4 : chkMatch s t o = .ok () := by simp [chkMatch, hun]
  have h5 : chkBounds s t o = .ok () := by simp [chkBounds, hun]
  have h6 : chkPerm s t o = .ok () := by simp [chkPerm, hun]
  unfold checkAll
  rw [each _ fun x hx => (hos x hx).1, h1, hrank, each _ fun x hx => (hos x hx).2.1, h2,
    each _ fun x hx => (hos x hx).2.2.1, h3, each _ fun x hx => (hos x hx).2.2.2.1, h4,
    each _ fun x hx => (hos x hx).2.2.2.2.1, h5, each _ fun x hx => (hos x hx).2.2.2.2.2.1, h6,
    each _ fun x hx => (hos x hx).2.2.2.2.2.2, he]
  rfl

theorem checkAll_nil (s : State) (t : Team) : checkAll s t [] = .ok () := by
  refine checkAll_ok_iff.2 ⟨fun _ h => absurd h List.not_mem_nil, ?_, ?_⟩ <;> rfl

/-- Bytes that are misaligned or outside the tile store stop check 7 of R62 with 0x20. -/
theorem chkStore_fault {o : Opd} (hs : o.space = 0) (hlt : o.lo < o.hi)
    (h : ¬ (o.aligned = true ∧ 0 ≤ o.lo ∧ o.hi ≤ 0x80000)) : chkStore o = .error (.fault 0x20 o.addr 0) := by
  have hun : o.handled = false := by simp [Opd.handled, hs]
  have hb : (decide (o.hi ≤ o.lo) || (o.aligned && decide (0 ≤ o.lo) && decide (o.hi ≤ storeSize))) = false := by
    rw [Bool.eq_false_iff]
    intro hc
    rw [Bool.or_eq_true, Bool.and_eq_true, Bool.and_eq_true, decide_eq_true_iff, decide_eq_true_iff, decide_eq_true_iff] at hc
    rcases hc with hle | ⟨⟨ha, hlo⟩, hhi⟩
    · omega
    · exact h ⟨ha, hlo, hhi⟩
  unfold chkStore
  rw [hun, hb]
  rfl

theorem chkStore_storeOpd_fault {a : Word} {n align : Nat} (hn : 0 < n) (h : ¬ InStore a n align) :
    chkStore (storeOpd a.toNat n align) = .error (.fault 0x20 a 0) := by
  have hf := chkStore_fault (o := storeOpd a.toNat n align) rfl (by simp only [storeOpd]; omega) fun ⟨ha, _, hhi⟩ =>
    h ⟨beq_iff_eq.1 ha, by simp only [storeOpd] at hhi; omega⟩
  rw [hf, show (storeOpd a.toNat n align).addr = a by simp [storeOpd]]

/-- The record of a SPAWN or SUSP that lies outside the tile store or is misaligned. -/
theorem readRecord_fault {s : State} {t : Team} {a : Word} {cell : Option Word}
    (hc : checkAll s t ([codeOpd s t] ++ cell.toList.map cellOpd) = .ok ()) (ha : ¬ InStore a 64 8) :
    readRecord s t a cell = .error (.fault 0x20 a 0) := by
  unfold readRecord
  rw [checkAll_concat_store hc rfl rfl (chkStore_storeOpd_fault (by decide) ha)]
  rfl

/-! ### Where each instruction stops -/

/-- A check of lanes stops at the first that is misaligned or outside. -/
theorem gsCheck_fault {f : VgsV} {k : Strand} {l : List Nat} {i : Nat} (hl : l.Pairwise (· < ·)) (hi : i ∈ l)
    (ha : ¬ InStore (laneAddress f k i) (f.ty.bits / 8) (f.ty.bits / 8))
    (hb : ∀ j ∈ l, j < i → InStore (laneAddress f k j) (f.ty.bits / 8) (f.ty.bits / 8)) :
    gsCheck k f l = .error (.fault 0x20 (laneAddress f k i) 0) := by
  induction l with
  | nil => exact absurd hi List.not_mem_nil
  | cons x r ih =>
    rw [gsCheck]
    rcases List.mem_cons.1 hi with rfl | hr
    · rw [show needStore (gsAddr k f i) _ _ = _ from needStore_fault ha]
      rfl
    · have hx : x < i := List.rel_of_pairwise_cons hl hr
      rw [show needStore (gsAddr k f x) _ _ = .ok () from needStore_ok (hb x List.mem_cons_self hx)]
      exact ih hl.of_cons hr fun j hj => hb j (List.mem_cons_of_mem _ hj)

/-- An instruction whose body raises 0x20 with an address. -/
abbrev StoreFaults (i : Instr) (s : State) (k : Strand) (a : Word) : Prop :=
  exec i s = .next (s.takeFault s.at_.1 s.at_.2 k 0x20 a 0 ((encode i).getD 0))

section Faults

variable {s : State} {k : Strand} {t : Team} {v : Vtile}

theorem ld_storeFaults {f : IntI} (hk : Issues s k { src := [f.a], dst := [f.d] })
    (ha : ¬ InStore (memAddr k f.a f.imm) (f.ty.bits / 8) (f.ty.bits / 8)) :
    StoreFaults (.ld f) s k (memAddr k f.a f.imm) := by
  refine exec_fault_of_issues (i := .ld f) rfl hk ?_
  dsimp only [loadBytes]
  rw [show memAddr k.issuing f.a f.imm = memAddr k f.a f.imm from rfl, needStore_fault ha]
  rfl

theorem st_storeFaults {f : IntI} (hk : Issues s k { src := [f.a, f.d] })
    (ha : ¬ InStore (memAddr k f.a f.imm) (f.ty.bits / 8) (f.ty.bits / 8)) :
    StoreFaults (.st f) s k (memAddr k f.a f.imm) := by
  refine exec_fault_of_issues (i := .st f) rfl hk ?_
  dsimp only [storeBytes]
  rw [show memAddr k.issuing f.a f.imm = memAddr k f.a f.imm from rfl, length_bytesOf, needStore_fault ha]
  rfl

theorem mld_storeFaults {f : ShapeI} (hk : Issues s k { src := [f.a] }) (ha : ¬ InStore (memAddr k f.a f.imm) 32 32) :
    StoreFaults (.mld f) s k (memAddr k f.a f.imm) := by
  refine exec_fault_of_issues (i := .mld f) rfl hk ?_
  dsimp only
  rw [show memAddr k.issuing f.a f.imm = memAddr k f.a f.imm from rfl, needStore_fault ha]
  rfl

theorem mst_storeFaults {f : ShapeI} (hk : Issues s k { src := [f.a] }) (ha : ¬ InStore (memAddr k f.a f.imm) 32 32) :
    StoreFaults (.mst f) s k (memAddr k f.a f.imm) := by
  refine exec_fault_of_issues (i := .mst f) rfl hk ?_
  dsimp only
  rw [show memAddr k.issuing f.a f.imm = memAddr k f.a f.imm from rfl, needStore_fault ha]
  rfl

theorem vld_storeFaults {f : VmemV} (hk : Issues s k { src := [f.a], v := [f.d] })
    (ha : ¬ InStore (vectorAddress f k) 256 256) : StoreFaults (.vld f) s k (vectorAddress f k) := by
  refine exec_fault_of_issues (i := .vld f) rfl hk ?_
  dsimp only
  rw [show k.issuing.rd f.a + f.imm.signExtend 64 = vectorAddress f k from rfl, needStore_fault ha]
  rfl

theorem vst_storeFaults {f : VmemV} (hk : Issues s k { src := [f.a], v := [f.d] })
    (ha : ¬ InStore (vectorAddress f k) 256 256) : StoreFaults (.vst f) s k (vectorAddress f k) := by
  refine exec_fault_of_issues (i := .vst f) rfl hk ?_
  dsimp only
  rw [show k.issuing.rd f.a + f.imm.signExtend 64 = vectorAddress f k from rfl, needStore_fault ha]
  rfl

/-- Of a gather or scatter the first lane that is misaligned or outside gives the address. -/
theorem gsCheck_issuing_fault {f : VgsV} {i : Nat} (hi : Moves f k i)
    (ha : ¬ InStore (laneAddress f k i) (f.ty.bits / 8) (f.ty.bits / 8))
    (hb : ∀ j, j < i → Moves f k j → InStore (laneAddress f k j) (f.ty.bits / 8) (f.ty.bits / 8)) :
    gsCheck k.issuing f (gsLanes k.issuing f) = .error (.fault 0x20 (laneAddress f k i) 0) :=
  gsCheck_fault (k := k.issuing) (List.pairwise_lt_range.filter _) (mem_gsLanes.2 hi) ha fun j hj hlt =>
    hb j hlt (mem_gsLanes.1 hj)

theorem vgath_storeFaults {f : VgsV} {i : Nat} (hk : Issues s k { src := [f.a], v := [f.b, f.d] }) (hi : Moves f k i)
    (ha : ¬ InStore (laneAddress f k i) (f.ty.bits / 8) (f.ty.bits / 8))
    (hb : ∀ j, j < i → Moves f k j → InStore (laneAddress f k j) (f.ty.bits / 8) (f.ty.bits / 8)) :
    StoreFaults (.vgath f) s k (laneAddress f k i) := by
  refine exec_fault_of_issues (i := .vgath f) rfl hk ?_
  dsimp only
  rw [gsCheck_issuing_fault hi ha hb]
  rfl

theorem vscat_storeFaults {f : VgsV} {i : Nat} (hk : Issues s k { src := [f.a], v := [f.b, f.d] }) (hi : Moves f k i)
    (ha : ¬ InStore (laneAddress f k i) (f.ty.bits / 8) (f.ty.bits / 8))
    (hb : ∀ j, j < i → Moves f k j → InStore (laneAddress f k j) (f.ty.bits / 8) (f.ty.bits / 8)) :
    StoreFaults (.vscat f) s k (laneAddress f k i) := by
  refine exec_fault_of_issues (i := .vscat f) rfl hk ?_
  dsimp only
  rw [gsCheck_issuing_fault hi ha hb]
  rfl

theorem ctradd_storeFaults {f : CtrC} (hk : Issues s k { src := [f.a, f.b] }) (ha : ¬ InStore (memAddr k f.a f.x) 8 8) :
    StoreFaults (.ctradd f) s k (memAddr k f.a f.x) := by
  refine exec_fault_of_issues (i := .ctradd f) rfl hk ?_
  dsimp only
  rw [show memAddr k.issuing f.a f.x = memAddr k f.a f.x from rfl, needStore_fault ha]
  rfl

/-- A WAITGE that issues for the first time reads its counter's address and its target from its registers (R386). -/
theorem waitsFor_fresh {f : WaitC} (hw : ∀ o m g, k.wait ≠ .waitge o m g) (hs : s.strand? = some k) :
    (waitsFor f k.issuing s.strand?).1 = memAddr k f.a f.x := by
  rw [hs, waitsFor, Option.map_some]
  revert hw
  cases k.wait with
  | waitge o m g => exact fun hw => absurd rfl (hw o m g)
  | _ => exact fun _ => rfl

theorem waitge_storeFaults {f : WaitC} (hk : Issues s k { src := [f.a, f.b], dst := [f.d] })
    (hw : ∀ o m g, k.wait ≠ .waitge o m g) (ha : ¬ InStore (memAddr k f.a f.x) 8 8) :
    StoreFaults (.waitge f) s k (memAddr k f.a f.x) := by
  refine exec_fault_of_issues (i := .waitge f) rfl hk ?_
  have hf := waitsFor_fresh (f := f) hw hk.1
  revert hf
  dsimp only
  generalize waitsFor f k.issuing s.strand? = p
  intro hf
  obtain ⟨a, m⟩ := p
  obtain rfl : a = _ := hf
  dsimp only
  rw [needStore_fault ha]
  rfl

theorem cbld_storeFaults {f : CbldC} (hk : Issues s k { src := [f.a] }) (hv : Serves s k t v)
    (ha : ¬ InStore (memAddr k f.a f.x) 16 16) : StoreFaults (.cbld f) s k (memAddr k f.a f.x) := by
  refine exec_fault_of_issues (i := .cbld f) rfl hk ?_
  dsimp only [withVtile]
  rw [hv.1, hv.2]
  dsimp only
  rw [show memAddr k.issuing f.a f.x = memAddr k f.a f.x from rfl, needStore_fault ha]
  rfl

theorem ast_storeFaults {f : AstM} (hk : Issues s k { a := [f.a] }) (hv : Serves s k t v)
    (hs : (accOpd (k.rdM f.d) .w).space = 0) (hh : (accOpd (k.rdM f.d) .w).hnd = 0)
    (hf : chkStore (accOpd (k.rdM f.d) .w) = .error (.fault 0x20 (shAddr (k.rdM f.d)) 0)) :
    StoreFaults (.ast f) s k (shAddr (k.rdM f.d)) := by
  refine exec_fault_of_issues (i := .ast f) rfl hk ?_
  have hc : checkAll s t [accOpd (k.issuing.rdM f.d) .w] = .error (.fault 0x20 (shAddr (k.rdM f.d)) 0) :=
    checkAll_concat_store (checkAll_nil s t) hs hh hf
  dsimp only [withVtile]
  rw [hv.1, hv.2]
  dsimp only
  rw [hc]
  rfl

theorem spawn_storeFaults {f : SpawnS} (hk : Issues s k { src := [f.a], dst := [f.d] }) (ht : s.team? k.team = some t)
    (hc : checkAll s t [codeOpd s t] = .ok ()) (ha : ¬ InStore (memAddr k f.a f.x) 64 8) :
    StoreFaults (.spawn f) s k (memAddr k f.a f.x) := by
  refine exec_fault_of_issues (i := .spawn f) rfl hk ?_
  dsimp only [withTeam]
  rw [ht]
  dsimp only
  rw [show memAddr k.issuing f.a f.x = memAddr k f.a f.x from rfl, readRecord_fault (cell := none) hc ha]
  rfl

theorem susp_storeFaults {f : SuspS} (hk : Issues s k { src := [f.a, f.b] }) (ht : s.team? k.team = some t)
    (hc : checkAll s t [codeOpd s t, cellOpd (k.rd f.a)] = .ok ()) (ha : ¬ InStore (memAddr k f.b f.x) 64 8) :
    StoreFaults (.susp f) s k (memAddr k f.b f.x) := by
  refine exec_fault_of_issues (i := .susp f) rfl hk ?_
  dsimp only [withTeam]
  rw [ht]
  dsimp only
  rw [show memAddr k.issuing f.b f.x = memAddr k f.b f.x from rfl, show k.issuing.rd f.a = k.rd f.a from rfl,
    readRecord_fault (cell := some (k.rd f.a)) hc ha]
  rfl

end Faults

/-- Settles O13: the access is the first check that each of these instructions can fail, so the fault is its own. -/
theorem tileStoreFaults : Obligations.TileStoreFaults := by
  unfold Obligations.TileStoreFaults
  refine ⟨⟨?_, ?_, ?_⟩, ⟨?_, ?_⟩, ⟨?_, ?_, ?_, ?_⟩, ?_, ?_⟩
  · exact fun f s k _ hk ha => ld_storeFaults hk ha
  · exact fun f s k _ hk ha => st_storeFaults hk ha
  · exact fun f s k hk ha => ⟨mld_storeFaults hk ha, mst_storeFaults hk ha⟩
  · exact fun f s k hk ha => ⟨vld_storeFaults hk ha, vst_storeFaults hk ha⟩
  · exact fun f i s k hk hi ha hb => ⟨vgath_storeFaults hk hi ha hb, vscat_storeFaults hk hi ha hb⟩
  · exact fun f s k hk ha => ctradd_storeFaults hk ha
  · exact fun f s k hk hw ha => waitge_storeFaults hk hw ha
  · exact fun f s k t v hk hv ha => cbld_storeFaults hk hv ha
  · exact fun f s k t v hk hv hs hh hlt ha => ast_storeFaults hk hv hs hh (chkStore_fault hs hlt ha)
  · exact fun f s k t hk ht hc ha => spawn_storeFaults hk ht hc ha
  · exact fun f s k t hk ht hc ha => susp_storeFaults hk ht hc ha

end Sys2Proof.Machine
end

section
/-! PROOF. SYSRD and SYSWR (R65, R293, R294, R362, R363): what the mode lets them reach, what they write, and O35. -/

namespace Sys2Proof.Machine

theorem teamMode_eq {s : State} {k : Strand} {t : Team} (hk : s.strand? = some k) (ht : s.team? k.team = some t) :
    teamMode s = !t.system := by
  simp [teamMode, hk, ht]

/-- A register is reached in system mode, or where team mode may reach it. -/
theorem reached {s : State} {k : Strand} {t : Team} (hk : s.strand? = some k) (ht : s.team? k.team = some t) {b : Bool}
    (h : t.asid = 0 ∨ b = true) : (teamMode s && !b) = false := by
  rw [teamMode_eq hk ht, Team.system]
  rcases h with h | h <;> simp [h]

theorem not_reached {s : State} {k : Strand} {t : Team} (hk : s.strand? = some k) (ht : s.team? k.team = some t) {b : Bool}
    (h : t.asid ≠ 0) (hb : b = false) : (teamMode s && !b) = true := by
  rw [teamMode_eq hk ht, Team.system]
  simp [h, hb]

/-- An instruction that names no register is held back by nothing. -/
theorem issues_none {s : State} {k : Strand} (h : s.strand? = some k) : Issues s k {} := ⟨h, rfl, rfl⟩

section Sysrd

variable {f : SysrdY} {s : State}

theorem exec_sysrd_reached (h : (teamMode s && !teamReads f.srn) = false) :
    exec (.sysrd f) s = .next (issue (.sysrd f) f.e { dst := [f.d] }
      (fun k s => retire s (k.wr f.d (regRead s s.at_.1 s.at_.2 (some (k.team, k.lrank)) k.replay f.srn))) s) := by
  show execSysrd f s = _
  unfold execSysrd
  rw [h]
  rfl

theorem exec_sysrd_refused {k : Strand} (hk : s.strand? = some k) (h : (teamMode s && !teamReads f.srn) = true) :
    exec (.sysrd f) s = .next (s.takeFault s.at_.1 s.at_.2 k 0x01 0 0 ((encode (.sysrd f)).getD 0)) := by
  refine exec_fault_of_issues (i := .sysrd f) (e := false) (n := {}) (body := fun _ _ => raise 0x01) ?_ (issues_none hk) rfl
  show execSysrd f s = _
  unfold execSysrd
  rw [h]
  rfl

theorem exec_sysrd {k : Strand} (hk : Issues s k { dst := [f.d] }) (h : (teamMode s && !teamReads f.srn) = false) :
    ∃ k', exec (.sysrd f) s = .next (s.put k') ∧
      WroteScalar k k' f.d (regRead s s.at_.1 s.at_.2 (some (k.team, k.lrank)) k.replay f.srn) :=
  ⟨_, exec_of_issues (exec_sysrd_reached h) hk rfl, wroteScalar_wr k f.d _⟩

end Sysrd

section Syswr

variable {f : SyswrY} {s : State} {k : Strand}

/-- The attempt of a SYSWR that its mode allows. -/
def syswrBody (f : SyswrY) (k : Strand) (s : State) : Do State :=
  if f.srn = .htinv ∧ htinvDue s (k.rd f.a) (htinvUpto s) then .error (.wait (.htinv (htinvUpto s)))
  else (retire s (if f.srn = .replay then { k with replay := (k.rd f.a).getLsbD 0 } else k)).map fun s =>
    regWrite s s.at_.1 (some (k.team, k.lrank)) f.srn (k.rd f.a)

theorem exec_syswr_reached (h : (teamMode s && !teamWrites f.srn) = false) :
    exec (.syswr f) s = .next (issue (.syswr f) f.e { src := [f.a] } (syswrBody f) s) := by
  show execSyswr f s = _
  unfold execSyswr
  rw [h]
  rfl

theorem exec_syswr_refused (hk : s.strand? = some k) (h : (teamMode s && !teamWrites f.srn) = true) :
    exec (.syswr f) s = .next (s.takeFault s.at_.1 s.at_.2 k 0x01 0 0 ((encode (.syswr f)).getD 0)) := by
  refine exec_fault_of_issues (i := .syswr f) (e := false) (n := {}) (body := fun _ _ => raise 0x01) ?_ (issues_none hk) rfl
  show execSyswr f s = _
  unfold execSyswr
  rw [h]
  rfl

/-- A SYSWR that waits for nothing hands its scalar to the register. -/
theorem exec_syswr (hk : Issues s k { src := [f.a] }) (h : (teamMode s && !teamWrites f.srn) = false) (hr : f.srn ≠ .replay)
    (hd : f.srn = .htinv → htinvDue s (k.rd f.a) (htinvUpto s) = false) :
    exec (.syswr f) s = .next (regWrite (s.put k.issuing.next) s.at_.1 (some (k.team, k.lrank)) f.srn (k.rd f.a)) := by
  refine exec_of_issues (exec_syswr_reached h) hk ?_
  have hn : ¬ (f.srn = .htinv ∧ htinvDue s (k.issuing.rd f.a) (htinvUpto s) = true) := fun ⟨hs, hw⟩ =>
    Bool.eq_false_iff.1 (hd hs) hw
  rw [syswrBody, if_neg hn, if_neg hr]
  rfl

theorem exec_syswr_waits (hk : Issues s k { src := [f.a] }) (h : (teamMode s && !teamWrites f.srn) = false)
    (hs : f.srn = .htinv) (hd : htinvDue s (k.rd f.a) (htinvUpto s) = true) :
    exec (.syswr f) s = .next (s.put (k.waiting (.htinv (htinvUpto s)) s.cycle.toNat)) := by
  refine exec_wait_of_issues (exec_syswr_reached h) hk ?_
  rw [syswrBody, if_pos ⟨hs, hd⟩]

/-- A SYSWR of REPLAY sets the strand's own mark (R264). -/
theorem exec_syswr_replay (hk : Issues s k { src := [f.a] }) (hs : f.srn = .replay) :
    exec (.syswr f) s = .next (s.put { k.issuing.next with replay := (k.rd f.a).getLsbD 0 }) := by
  have h : (teamMode s && !teamWrites f.srn) = false := by simp [hs, teamWrites]
  refine exec_of_issues (exec_syswr_reached h) hk ?_
  rw [syswrBody, if_neg (by simp [hs]), if_pos hs, hs]
  rfl

end Syswr

/-- What SYSRD leaves in a register that keeps what is written. -/
theorem sysrd_reads {s : State} {k : Strand} {t : Team} {d : SReg} (hk : Issues s k { dst := [d] })
    (ht : s.team? k.team = some t) (hd : d ≠ 0) {r : SysReg} (hr : teamReads r = true) {v : Word}
    (hv : regRead s s.at_.1 s.at_.2 (some (k.team, k.lrank)) k.replay r = v) :
    ∃ k', exec (.sysrd ⟨false, r, d⟩) s = .next (s.put k') ∧ k'.rd d = v := by
  obtain ⟨k', hx, hw⟩ := exec_sysrd (f := ⟨false, r, d⟩) hk (reached hk.1 ht (Or.inr hr))
  exact ⟨k', hx, by rw [hw.value, if_neg hd, hv]⟩

/-- Settles O35: the mode decides first; then the register is read, written, or waited for. -/
theorem systemRegisters : Obligations.SystemRegisters := by
  unfold Obligations.SystemRegisters
  refine ⟨⟨?_, ?_, ?_, ?_, ?_, ?_⟩, ?_⟩
  · exact fun f s k t hk ht h => exec_sysrd hk (reached hk.1 ht h)
  · exact fun f s k t hk ht h hb => exec_sysrd_refused hk (not_reached hk ht h hb)
  · exact fun f s k t hk ht h hr hd => exec_syswr hk (reached hk.1 ht h) hr hd
  · exact fun f s k t hk ht h hs hd =>
      ⟨_, exec_syswr_waits hk (reached hk.1 ht (Or.inl h)) hs hd, rfl, rfl, rfl⟩
  · exact fun f s k hk hs => exec_syswr_replay hk hs
  · exact fun f s k t hk ht h hb => exec_syswr_refused hk (not_reached hk ht h hb)
  · intro s k t d hk ht hd reads
    have read {r : SysReg} (hr : teamReads r = true) {v : Word}
        (hv : regRead s s.at_.1 s.at_.2 (some (k.team, k.lrank)) k.replay r = v) : reads r v := sysrd_reads hk ht hd hr hv
    have team : ((some (k.team, k.lrank)).bind fun w => s.team? w.1) = some t := ht
    refine ⟨read rfl ?_, read rfl ?_, read rfl ?_, read rfl rfl, read rfl rfl, read rfl rfl, read rfl rfl, fun l => read rfl ?_,
      read rfl ?_⟩
    · simp only [regRead, team, Option.map_some, Option.getD_some]
    · simp only [regRead, team, Option.map_some, Option.getD_some]
    · simp only [regRead, team, Option.map_some, Option.getD_some]
      rfl
    · simp only [regRead, team, Option.map_some, Option.bind_some, Option.getD_some]
      rfl
    · unfold regRead
      cases k.replay <;> rfl

end Sys2Proof.Machine
end

section
/-! PROOF. What empty and poisoned registers do to any instruction (R68, R101, R102), and O38. -/

namespace Sys2Proof.Machine

/-- What an instruction names is what it goes through the frame of instructions with, when its mode lets it; the steps of agents
and the instructions that name nothing come last. -/
theorem exec_framed (i : Instr) {s : State} (hr : reaches s i = true) :
    (∃ body, exec i s = .next (issue i (namesOf s i).2 (namesOf s i).1 body s)) ∨ (namesOf s i).1 = {} := by
  cases i with
  | sysrd f =>
    have h : (teamMode s && !teamReads f.srn) = false := by
      revert hr
      simp [reaches, or_iff_not_imp_left]
    exact Or.inl ⟨_, exec_sysrd_reached h⟩
  | syswr f =>
    have h : (teamMode s && !teamWrites f.srn) = false := by
      revert hr
      simp [reaches, or_iff_not_imp_left]
    exact Or.inl ⟨_, exec_syswr_reached h⟩
  | addR f | addI f | sub f | mulR f | mulI f | mulh f | div f | rem f | andR f | andI f | orR f | orI f | xorR f | xorI f
  | shlR f | shlI f | shrR f | shrI f | sraR f | sraI f | sltR f | sltI f | minR f | minI f | maxR f | maxI f | clz f | popc f
  | csel f | li f | fadd f | fsub f | fmul f | ffma f | fmin f | fmax f | fcmp f | fcvt f
  | beq f | bne f | blt f | bge f | bltn f | bgen f | jal f | jalr f | ld f | st f | mld f | mst f | mset f | pset f
  | vabs f | vneg f | vadd f | vsub f | vmul f | vmin f | vmax f | vand f | vor f | vxor f | vnot f | vshl f | vshr f | vsra f
  | vattm f | vbcast f | vidx f | vcmp f | vcvt f | vexp2 f | vext f | vfma f | vgath f | vscat f | vld f | vst f | vlog2 f
  | vrcp f | vrsq f | vperm f | vred f | vsel f | mma f | ald f | ast f | azero f | ascale f | cbld f
  | cpy f | cpya f | amo f | red f | fence f | ctradd f | waitge f | bar f | bara f | barw f | spawn f | join f | susp f
  | cancel f | collLd f | collRun f | collStat f | resume f => exact Or.inl ⟨_, rfl⟩
  | _ => exact Or.inr rfl

/-- A scalar source that is poisoned stops an instruction with 0x26, or with a cause that comes before it (R68, R292). -/
theorem poisonCheck_bad {k : Strand} {n : Names} (h : n.src.any k.bad = true) (r : Do State) :
    ∃ c a x, (0x20 ≤ c ∧ c ≤ 0x27 ∨ c = 0x10) ∧ poisonCheck k n r = .error (.fault c a x) := by
  unfold poisonCheck
  rw [if_pos h]
  split
  · next c a x =>
    by_cases hc : beforePoison c = true
    · rw [if_pos hc]
      refine ⟨c, a, x, ?_, rfl⟩
      simp only [beforePoison, Bool.or_eq_true, Bool.and_eq_true, decide_eq_true_iff, beq_iff_eq] at hc
      omega
    · rw [if_neg hc]
      exact ⟨0x26, 0, 0, by decide, rfl⟩
  · exact ⟨0x26, 0, 0, by decide, rfl⟩

/-- An instruction that could complete takes 0x26 of a poisoned source. -/
theorem poisonCheck_bad_ok {k : Strand} {n : Names} (h : n.src.any k.bad = true) (t : State) :
    poisonCheck k n (.ok t) = raise 0x26 := by
  simp [poisonCheck, h]

section Frame

variable {i : Instr} {e : Bool} {n : Names} {s : State} {k : Strand}

/-- An instruction whose registers are full ends as its checks and its poisoned sources say. -/
theorem issue_full (hk : s.strand? = some k) (hf : namesFull s k n = true) (body : Strand → State → Do State) :
    issue i e n body s = settle s k ((encode i).getD 0) (poisonCheck k n (body k.issuing s)) := by
  simp [issue, hk, hf]

/-- A poisoned scalar source faults the instruction. -/
theorem issue_bad (hk : s.strand? = some k) (hf : namesFull s k n = true) (hb : n.src.any k.bad = true)
    (body : Strand → State → Do State) :
    ∃ c a x, (0x20 ≤ c ∧ c ≤ 0x27 ∨ c = 0x10) ∧
      issue i e n body s = s.takeFault s.at_.1 s.at_.2 k c a x ((encode i).getD 0) := by
  obtain ⟨c, a, x, hc, hp⟩ := poisonCheck_bad hb (body k.issuing s)
  exact ⟨c, a, x, hc, by rw [issue_full hk hf, hp]; rfl⟩

theorem namesFull_none (s : State) (k : Strand) : namesFull s k {} = true := rfl

end Frame

theorem exec_addR_bad {f : IntR} {s : State} {k : Strand} (hk : s.strand? = some k)
    (hf : namesFull s k { src := [f.a, f.b], dst := [f.d] } = true) (hb : (k.bad f.a || k.bad f.b) = true) :
    exec (.addR f) s = .next (s.takeFault s.at_.1 s.at_.2 k 0x26 0 0 ((encode (.addR f)).getD 0)) := by
  have hany : [f.a, f.b].any k.bad = true := by simpa using hb
  show Host.Outcome.next (intR (.addR f) f (· + ·) s) = _
  rw [intR, issue_full hk hf]
  dsimp only [retire]
  rw [poisonCheck_bad_ok hany]
  rfl

theorem exec_ld_poisoned {f : IntI} {s : State} {k : Strand} (hk : Issues s k { src := [f.a], dst := [f.d] }) {a : Word}
    (h : memAddr k f.a f.imm = a) (ha : InStore a (f.ty.bits / 8) (f.ty.bits / 8))
    (hp : s.anyPoison (storeKey s.at_.1 a.toNat) (f.ty.bits / 8) = true) :
    exec (.ld f) s = .next (s.takeFault s.at_.1 s.at_.2 k 0x26 a 0 ((encode (.ld f)).getD 0)) := by
  refine exec_fault_of_issues (i := .ld f) rfl hk ?_
  dsimp only [loadBytes]
  rw [show memAddr k.issuing f.a f.imm = a from h, needStore_ok ha, tileKey, hp]
  rfl

/-- Settles O38: the frame of instructions looks at the registers first, and at poisoned sources among the checks. -/
theorem heldByRegisters : Obligations.HeldByRegisters := by
  unfold Obligations.HeldByRegisters
  refine ⟨fun i s k _ hk hr => ?_, fun f s k hk hf hb => exec_addR_bad hk hf hb, fun f s k _ hk =>
    exec_ld_poisoned hk rfl⟩
  rcases exec_framed i hr with ⟨body, hx⟩ | hn
  · rw [hx]
    refine ⟨fun hf he => ⟨k.waiting .empty s.cycle.toNat, ?_, rfl, rfl⟩, fun hf he => ?_, fun hf hb => ?_⟩
    · rw [issue_empty hk hf, if_neg (Bool.eq_false_iff.1 he)]
    · rw [issue_empty hk hf, if_pos he]
    · obtain ⟨c, a, x, hc, ht⟩ := issue_bad hk hf hb body
      exact ⟨c, a, x, hc, by rw [ht]⟩
  · dsimp only
    rw [hn, namesFull_none]
    exact ⟨fun h => absurd h (by decide), fun h => absurd h (by decide), fun _ h => absurd h (by simp)⟩

end Sys2Proof.Machine
end

section
/-! PROOF. Errors and containment (R67, R177, R178): what a loss keeps of the package, what a fenced tile and a reset group
leave, marks of poisoned granules, quiescing (R195), and O49. -/

namespace Sys2Proof.Machine

/-! ### What reporting a loss keeps -/

/-- What a loss changes of a vtile, and where the vtile stands. -/
structure Standing where
  lost : Bool
  res : Bool
  ptile : Nat
  saves : Table SaveInfo
  mq : List MEntry
  div : DivState

def Vtile.standing (v : Vtile) : Standing := ⟨v.lost, v.res, v.ptile, v.saves, v.mq, v.div⟩

/-- What containment bears on: which tiles and groups are fenced and whom a tile serves, the strands, which teams there are, and
how each vtile stands. -/
structure Scene where
  tiles : Nat → Bool × Option (Nat × Nat)
  strands : Table Strand
  groups : List Nat
  teams : Nat → Bool
  vtiles : Nat → Nat → Option Standing

namespace State

def scene (s : State) : Scene where
  tiles x := ((s.tile x).fenced, (s.tile x).owner)
  strands := s.strands
  groups := s.fencedGroups
  teams id := (s.team? id).isSome
  vtiles id lr := (s.vtile? id lr).map Vtile.standing

/-! What a scene says of another state with the same scene. -/

section Same

variable {s t : State} (h : t.scene = s.scene)

include h

theorem fenced_of_scene (x : Nat) : (t.tile x).fenced = (s.tile x).fenced := congrArg (fun c => (c.tiles x).1) h
theorem owner_of_scene (x : Nat) : (t.tile x).owner = (s.tile x).owner := congrArg (fun c => (c.tiles x).2) h
theorem strands_of_scene : t.strands = s.strands := congrArg Scene.strands h
theorem groups_of_scene : t.fencedGroups = s.fencedGroups := congrArg Scene.groups h

theorem team_of_scene {id : Nat} {x : Team} (hs : s.team? id = some x) : ∃ y, t.team? id = some y := by
  have h1 : (t.team? id).isSome = (s.team? id).isSome := congrArg (fun c => c.teams id) h
  rw [hs] at h1
  exact Option.isSome_iff_exists.1 h1

theorem vtile_of_scene {id lr : Nat} {v : Vtile} (hs : s.vtile? id lr = some v) :
    ∃ w, t.vtile? id lr = some w ∧ w.standing = v.standing := by
  have h1 : (t.vtile? id lr).map Vtile.standing = (s.vtile? id lr).map Vtile.standing := congrArg (fun c => c.vtiles id lr) h
  rw [hs] at h1
  exact Option.map_eq_some_iff.1 h1

end Same

/-! Which operations keep the scene. -/

theorem scene_foldl {α : Type} {f : State → α → State} (h : ∀ s a, (f s a).scene = s.scene) (l : List α) (s : State) :
    (l.foldl f s).scene = s.scene :=
  List.foldlRecOn (motive := fun z => z.scene = s.scene) l f rfl fun z hz a _ => (h z a).trans hz

theorem scene_putTile {s : State} {i : Nat} {x : Tile} (h : x.fenced = (s.tile i).fenced) (h' : x.owner = (s.tile i).owner) :
    (s.putTile i x).scene = s.scene := by
  have ht : (s.putTile i x).scene.tiles = s.scene.tiles := by
    funext j
    by_cases hj : j = i
    · subst hj
      simp [scene, h, h']
    · simp [scene, tile_putTile, hj]
  exact congrArg (fun f => { s.scene with tiles := f }) ht

theorem scene_putTeam {s : State} {id : Nat} {t u : Team} (h : s.team? id = some t) : (s.putTeam id u).scene = s.scene := by
  have ht : (s.putTeam id u).scene.teams = s.scene.teams := by
    funext j
    by_cases hj : j = id
    · subst hj
      simp [scene, h]
    · simp [scene, team?_putTeam, hj]
  exact congrArg (fun f => { s.scene with teams := f }) ht

theorem scene_putVtile {s : State} {id lr : Nat} {v w : Vtile} (h : s.vtile? id lr = some v) (hw : w.standing = v.standing) :
    (s.putVtile id lr w).scene = s.scene := by
  have hv : (s.putVtile id lr w).scene.vtiles = s.scene.vtiles := by
    funext j r
    by_cases hj : vtileKey j r = vtileKey id lr
    · have h1 : s.vtile? j r = some v := by rw [← h, vtile?, vtile?, hj]
      simp [scene, vtile?_putVtile, hj, h1, hw]
    · simp [scene, vtile?_putVtile, hj]
  exact congrArg (fun f => { s.scene with vtiles := f }) hv

theorem scene_onVtile (s : State) (id lr : Nat) {f : Vtile → Vtile} (hf : ∀ v, (f v).standing = v.standing) :
    (s.onVtile id lr f).scene = s.scene := by
  unfold onVtile
  split
  · next v hv => exact scene_putVtile hv (hf v)
  · rfl

theorem scene_commit (s : State) (a : Nat) (bs : List Byte) : (s.commit a bs).scene = s.scene := by
  obtain ⟨_, _, h⟩ := s.commit_eq a bs
  rw [h]
  rfl

theorem scene_hbmPut (s : State) (a n v : Nat) : (s.hbmPut a n v).scene = s.scene := by
  obtain ⟨_, _, _, h⟩ := s.hbmPut_eq a n v
  rw [h]
  rfl

theorem scene_putDivEntry (s : State) (id lr : Nat) : (s.putDivEntry id lr).scene = s.scene := by
  obtain ⟨_, _, _, h⟩ := s.putDivEntry_eq id lr
  rw [h]
  rfl

theorem scene_record (s : State) (id : Nat) (l : Scope) (u k : Nat) (a : Arrival) (rop : BOp) (cnt : Nat) :
    (s.record id l u k a rop cnt).scene = s.scene := by
  obtain ⟨_, _, h⟩ := s.record_eq id l u k a rop cnt
  rw [h]
  rfl

theorem scene_orFstat (s : State) (id lr : Nat) (bits : Word) : (s.orFstat id lr bits).scene = s.scene := by
  unfold orFstat
  split
  · next t v _ hv =>
    have hp : (s.putVtile id lr { v with fstat := v.fstat ||| bits }).scene = s.scene := scene_putVtile hv rfl
    extract_lets w z
    split
    · exact (scene_commit _ _ _).trans hp
    · exact hp
  · rfl

theorem scene_storeTrace (s : State) (tile : Nat) : (s.storeTrace tile).scene = s.scene := by
  obtain ⟨m, l, p, h⟩ := foldl_hbmPut_eq (fun r => ringAt (s.tile tile) r.2) Prod.fst 16 (s.tile tile).trbuf.zipIdx s
  unfold storeTrace
  dsimp only
  rw [h]
  exact scene_putTile (s := { s with mem := m, live := l, poison := p }) rfl rfl

theorem scene_flushTrace (s : State) (tile : Nat) : (s.flushTrace tile).scene = s.scene := by
  obtain ⟨c, h, hc⟩ := s.cross_eq (traceHop tile) (s.traceWay tile).1 1 (s.traceWay tile).2
  have hx : (s.cross (traceHop tile) (s.traceWay tile).1 1 (s.traceWay tile).2).2.scene = s.scene := by
    rw [hc]
    rfl
  unfold flushTrace
  extract_lets x held w z
  split
  · rfl
  · split
    · exact (scene_storeTrace _ _).trans hx
    · exact hx

theorem scene_buffered (x : Tile) (r lost : Nat) : (buffered x r lost).fenced = x.fenced ∧ (buffered x r lost).owner = x.owner := by
  unfold buffered
  repeat' split
  all_goals exact ⟨rfl, rfl⟩

theorem scene_trace (s : State) (tile lvt slot kind info data : Nat) :
    (s.trace tile lvt slot kind info data).scene = s.scene := by
  unfold trace
  extract_lets x r lost
  split
  · obtain ⟨hf, ho⟩ := scene_buffered x r lost
    exact (scene_flushTrace _ _).trans (scene_putTile hf ho)
  · rfl

theorem scene_traceVt (s : State) (id lr slot kind info data : Nat) :
    (s.traceVt id lr slot kind info data).scene = s.scene := by
  unfold traceVt
  split
  · split
    · exact scene_trace _ _ _ _ _ _ _
    · rfl
  · rfl

theorem scene_enqueue (s : State) (id : Nat) (q : QTarget) (r : BitVec 512) (seq prio : Nat) (save : Option Nat)
    (waiting : Bool) : (s.enqueue id q r seq prio save waiting).scene = s.scene := by
  unfold enqueue
  split
  · rfl
  · next t ht => exact (scene_commit _ _ _).trans (scene_putTeam ht)

theorem scene_spawnRec (s : State) (id : Nat) (r : BitVec 512) : (s.spawnRec id r).2.scene = s.scene := by
  unfold spawnRec
  split
  · rfl
  · next t ht => exact (scene_enqueue _ _ _ _ _ _ _ _).trans (scene_putTeam ht)

theorem scene_readyHandler (s : State) (id n : Nat) : (s.readyHandler id n).scene = s.scene := by
  unfold readyHandler
  split
  · rfl
  · next t ht =>
    extract_lets fq z r
    have hz : z.scene = s.scene := by
      obtain ⟨_, h⟩ := s.writeLive_eq [unitKey id .pkg 0] (fq + 24) (bytesOf 8 0)
      exact (congrArg scene h).trans rfl
    split
    · split
      · exact hz
      · split
        · exact hz
        · exact (scene_spawnRec _ _ _).trans hz
    · rfl

theorem scene_writeFault (s : State) (id lr : Nat) (f : FaultRec) (src : Nat) :
    (s.writeFault id lr f src).2.scene = s.scene := by
  unfold writeFault
  split
  · rfl
  · next t ht =>
    extract_lets fq z n z1 z2 z3 z4 z5
    split
    · exact (scene_orFstat _ _ _ _).trans ((scene_commit _ _ _).trans (scene_putTeam ht))
    · have h3 : z3.scene = s.scene := (scene_commit _ _ _).trans ((scene_commit _ _ _).trans (scene_putTeam ht))
      have h4 : z4.scene = s.scene := by
        show (if f.oabs then z3.orFstat id lr fstatAbs else z3).scene = s.scene
        split
        · exact (scene_orFstat _ _ _ _).trans h3
        · exact h3
      have h5 : z5.scene = s.scene := by
        show (if f.iabs then z4.orFstat id src fstatAbs else z4).scene = s.scene
        split
        · exact (scene_orFstat _ _ _ _).trans h4
        · exact h4
      exact (scene_readyHandler _ _ _).trans h5

theorem standing_setCurrent (v : Vtile) (l : Scope) (k : Nat) : (setCurrent v l k).standing = v.standing := by
  unfold setCurrent
  split
  · rfl
  · rfl

theorem scene_forceVtile (s : State) (t : Team) (id lr : Nat) (l : Scope) (code : BitVec 16) :
    (s.forceVtile t id lr l code).scene = s.scene := by
  unfold forceVtile
  extract_lets u k x
  split
  · exact (scene_traceVt _ _ _ _ _ _ _).trans
      ((scene_onVtile _ _ _ fun v => standing_setCurrent v l (k + 1)).trans (scene_record _ _ _ _ _ _ _ _))
  · rfl

theorem scene_settleOrder (s : State) : s.settleOrder.scene = s.scene := by
  unfold settleOrder
  split
  · rfl
  · rfl

end State

theorem scene_forceLost (s : State) (t : Team) (l : Scope) (u : Nat) : (forceLost s t l u).scene = s.scene := by
  unfold forceLost
  split
  · rfl
  · refine State.scene_foldl (fun z lr => State.scene_foldl (fun y _ => ?_) _ _) _ _
    split
    · split
      · exact State.scene_forceVtile _ _ _ _ _ _
      · rfl
    · rfl

/-! ### What gives up the promises of a tile (R161, R178) -/

/-- A vtile whose restore does not take a tile that goes out of service. -/
def Vtile.unpromised (out : Nat → Bool) (v : Vtile) : Vtile :=
  if (v.div == .saving || v.div == .diverting || v.div == .cut) && v.restoreTo.any fun r => out r.1 then
    { v with restoreTo := none }
  else v

theorem Vtile.standing_unpromised (out : Nat → Bool) (v : Vtile) : (v.unpromised out).standing = v.standing := by
  unfold Vtile.unpromised
  split
  · rfl
  · rfl

theorem Vtile.unpromised_self {out : Nat → Bool} {v : Vtile} (h : ∀ r, v.restoreTo.map (·.1) = some r → out r = false) :
    v.unpromised out = v := by
  have hn : (v.restoreTo.any fun r => out r.1) = false := by
    cases hr : v.restoreTo with
    | none => rfl
    | some r => exact h r.1 (by rw [hr]; rfl)
  rw [Vtile.unpromised, hn, Bool.and_false]
  rfl

theorem dropRestores_eq (s : State) (out : Nat → Bool) :
    dropRestores s out = State.settleOrder { s with vtiles := s.vtiles.map fun v => (v.1, v.2.unpromised out) } := by
  unfold dropRestores
  refine congrArg (fun l => State.settleOrder { s with vtiles := l }) (List.map_congr_left fun v _ => ?_)
  unfold Vtile.unpromised
  split
  · rfl
  · rfl

theorem scene_dropRestores (s : State) (out : Nat → Bool) : (dropRestores s out).scene = s.scene := by
  rw [dropRestores_eq]
  refine (State.scene_settleOrder _).trans ?_
  have h : State.scene { s with vtiles := s.vtiles.map fun v => (v.1, v.2.unpromised out) } =
      { s.scene with vtiles := fun id lr =>
        (lookup (vtileKey id lr) (s.vtiles.map fun v => (v.1, v.2.unpromised out))).map Vtile.standing } := rfl
  rw [h]
  refine congrArg (fun f => { s.scene with vtiles := f }) (funext fun id => funext fun lr => ?_)
  rw [lookup_map, Option.map_map]
  exact congrArg (fun f => (s.vtile? id lr).map f) (funext fun v => Vtile.standing_unpromised out v)

theorem scene_quitGang (s : State) (l : Launch) (status : Nat) (abort : Bool) : (quitGang s l status abort).scene = s.scene := by
  unfold quitGang
  extract_lets z y
  have hy : y.scene = s.scene :=
    (State.scene_foldl (f := fun s i => s.onTile i fun y => { y with reserved := false })
      (fun _ _ => State.scene_putTile rfl rfl) _ _).trans rfl
  obtain ⟨_, _, _, _, _, _, h, -⟩ := refuse_eq y l status abort
  obtain ⟨_, h'⟩ := restSlot_eq (refuse y l status abort) l.slot
  rw [h', h]
  exact hy

theorem scene_giveUp (s : State) (out : Nat → Bool) : (giveUp s out).scene = s.scene := by
  unfold giveUp
  exact (State.scene_foldl (fun _ _ => scene_quitGang _ _ _ _) _ _).trans (scene_dropRestores _ _)

/-! ### The loss of a vtile (R178) -/

/-- Frees the slots of a list that hold a strand of a vtile which stands on its tile. -/
def dropMine (v : Vtile) (id lr : Nat) (s : State) (i : Nat) : State :=
  match s.strandAt v.ptile i with
  | some k => if v.res && k.team == id && k.lrank == lr then s.dropAt v.ptile i else s
  | none => s

theorem dropMine_eq (v : Vtile) (id lr : Nat) (s : State) (i : Nat) : ∃ ks, dropMine v id lr s i = { s with strands := ks } := by
  unfold dropMine
  split
  · split
    · exact ⟨_, rfl⟩
    · exact ⟨_, rfl⟩
  · exact ⟨_, rfl⟩

/-- What is left in a slot stood there before, and is no strand of the vtile in the slot that was looked at. -/
theorem strandAt_dropMine {v : Vtile} {id lr : Nat} {s : State} {i j : Nat} {k : Strand} (hv : v.res = true)
    (h : (dropMine v id lr s i).strandAt v.ptile j = some k) :
    s.strandAt v.ptile j = some k ∧ (j = i → k.team ≠ id ∨ k.lrank ≠ lr) := by
  unfold dropMine at h
  split at h
  · next x hx =>
    split at h
    · rw [State.strandAt_dropAt] at h
      split at h
      · cases h
      · next hne => exact ⟨h, fun hj => absurd (by rw [hj]) hne⟩
    · next hmine =>
      refine ⟨h, fun hj => ?_⟩
      subst hj
      obtain rfl : x = k := Option.some.inj (hx.symm.trans h)
      by_contra hc
      rw [not_or, not_not, not_not] at hc
      exact hmine (by simp [hv, hc.1, hc.2])
  · next hx =>
    refine ⟨h, fun hj => ?_⟩
    subst hj
    rw [hx] at h
    cases h

theorem foldl_dropMine_eq (v : Vtile) (id lr : Nat) (l : List Nat) (s : State) :
    ∃ ks, l.foldl (dropMine v id lr) s = { s with strands := ks } := by
  induction l generalizing s with
  | nil => exact ⟨_, rfl⟩
  | cons i r ih =>
    obtain ⟨ks, h⟩ := dropMine_eq v id lr s i
    obtain ⟨ks', h'⟩ := ih (dropMine v id lr s i)
    exact ⟨ks', by rw [List.foldl_cons, h', h]⟩

theorem strandAt_foldl_dropMine {v : Vtile} {id lr : Nat} (hv : v.res = true) {l : List Nat} {s : State} {j : Nat} {k : Strand}
    (h : (l.foldl (dropMine v id lr) s).strandAt v.ptile j = some k) :
    s.strandAt v.ptile j = some k ∧ (j ∈ l → k.team ≠ id ∨ k.lrank ≠ lr) := by
  induction l generalizing s with
  | nil => exact ⟨h, fun hj => absurd hj List.not_mem_nil⟩
  | cons i r ih =>
    obtain ⟨h1, hr⟩ := ih h
    obtain ⟨h2, hi⟩ := strandAt_dropMine hv h1
    exact ⟨h2, fun hj => (List.mem_cons.1 hj).elim hi hr⟩

/-- What a vtile is when it has been lost. -/
def Standing.gone (x : Standing) : Standing := ⟨true, false, x.ptile, [], [], .free⟩

/-- The scene after a vtile is lost. -/
structure LostIn (s t : State) (id lr : Nat) (v : Vtile) : Prop where
  fenced : ∀ x, (t.tile x).fenced = (s.tile x).fenced
  owner : ∀ x, (t.tile x).owner = if (s.tile x).owner = some (id, lr) then none else (s.tile x).owner
  groups : t.fencedGroups = s.fencedGroups
  teams : ∀ i, (t.team? i).isSome = (s.team? i).isSome
  self : (t.vtile? id lr).map Vtile.standing = some v.standing.gone
  others : ∀ i r, vtileKey i r ≠ vtileKey id lr → (t.vtile? i r).map Vtile.standing = (s.vtile? i r).map Vtile.standing
  strands : v.res = true → ∀ j < 9, ∀ k, t.strandAt v.ptile j = some k → k.team ≠ id ∨ k.lrank ≠ lr

/-- A tile that a vtile no longer stands on. -/
def freedTile (id lr : Nat) (x : Tile) : Tile :=
  if x.owner = some (id, lr) then { x with owner := none, port := [], serving := none, matches_ := [], skip := [] } else x

/-- A tile after the loss of a vtile, given the tile that was promised to it. -/
def lostTile (id lr : Nat) (promised : Option Nat) (x : Nat × Tile) : Tile :=
  if promised = some x.1 then { freedTile id lr x.2 with reserved := false } else freedTile id lr x.2

theorem freedTile_fenced (id lr : Nat) (x : Tile) : (freedTile id lr x).fenced = x.fenced := by
  unfold freedTile
  split
  · rfl
  · rfl

theorem freedTile_owner (id lr : Nat) (x : Tile) :
    (freedTile id lr x).owner = if x.owner = some (id, lr) then none else x.owner := by
  unfold freedTile
  split
  · rfl
  · rfl

theorem lostTile_fenced (id lr : Nat) (promised : Option Nat) (x : Nat × Tile) :
    (lostTile id lr promised x).fenced = x.2.fenced := by
  rw [← freedTile_fenced id lr x.2]
  unfold lostTile
  split
  · rfl
  · rfl

theorem lostTile_owner (id lr : Nat) (promised : Option Nat) (x : Nat × Tile) :
    (lostTile id lr promised x).owner = if x.2.owner = some (id, lr) then none else x.2.owner := by
  rw [← freedTile_owner id lr x.2]
  unfold lostTile
  split
  · rfl
  · rfl

/-- A tile after the tiles of a state are changed by `lostTile`. -/
theorem tile_lost {s t : State} {id lr : Nat} {promised : Option Nat}
    (h : t.tiles = s.tiles.map fun x => (x.1, lostTile id lr promised x)) (x : Nat) :
    (t.tile x).fenced = (s.tile x).fenced ∧
    (t.tile x).owner = if (s.tile x).owner = some (id, lr) then none else (s.tile x).owner := by
  unfold State.tile
  rw [h, lookup_mapKey]
  cases lookup x s.tiles with
  | none => exact ⟨rfl, rfl⟩
  | some y => exact ⟨lostTile_fenced id lr promised (x, y), lostTile_owner id lr promised (x, y)⟩

theorem State.onVtile_eq {s : State} {id lr : Nat} {v : Vtile} {f : Vtile → Vtile} (h : s.vtile? id lr = some v) :
    s.onVtile id lr f = s.putVtile id lr (f v) := by
  rw [onVtile, h]

/-- A vtile of which all that its loss releases or discards is gone (R178). -/
def Vtile.emptied (v : Vtile) : Vtile :=
  { v with
    res := false, saves := [], mq := [], past := [], div := .free, log := none, recs := [], owed := [], stopped := none
    restoreTo := none }

/-- A vtile that has been lost. -/
def Vtile.nowLost (v : Vtile) : Vtile := { v with lost := true }

/-- Emptying a vtile and calling it lost changes its diversion entry and the table of vtiles. -/
theorem nowLost_eq (z : State) (id lr : Nat) (v : Vtile) : ∃ m l p,
    ((z.putVtile id lr v.emptied).putDivEntry id lr).onVtile id lr Vtile.nowLost = { z with
      mem := m, live := l, poison := p
      vtiles := insertAt (vtileKey id lr) v.emptied.nowLost (insertAt (vtileKey id lr) v.emptied z.vtiles) } := by
  obtain ⟨m, l, p, hd⟩ := (z.putVtile id lr v.emptied).putDivEntry_eq id lr
  have h : ((z.putVtile id lr v.emptied).putDivEntry id lr).vtile? id lr = some v.emptied := by
    rw [hd]
    exact State.vtile?_putVtile_self z id lr v.emptied
  exact ⟨m, l, p, by rw [State.onVtile_eq h, hd]; rfl⟩

/-- The tables of a state from which a vtile has been dropped. -/
theorem dropVtile_tables (s : State) (t : Team) (id lr : Nat) (v : Vtile) :
    (dropVtile s t id lr v).tiles = s.tiles.map (fun x => (x.1, lostTile id lr (v.restoreTo.map (·.1)) x)) ∧
    (dropVtile s t id lr v).strands = ((List.range 9).foldl (dropMine v id lr) s).strands ∧
    (dropVtile s t id lr v).fencedGroups = s.fencedGroups ∧
    (∃ u, (dropVtile s t id lr v).teams = insertAt id u s.teams) ∧
    (dropVtile s t id lr v).vtiles =
      insertAt (vtileKey id lr) v.emptied.nowLost (insertAt (vtileKey id lr) v.emptied s.vtiles) := by
  obtain ⟨ks, hks⟩ := foldl_dropMine_eq v id lr (List.range 9) s
  unfold dropVtile
  extract_lets mine gone z z1 z2 z3
  have hz : z = { s with strands := ks } := hks
  have hstrands : z.strands = ((List.range 9).foldl (dropMine v id lr) s).strands := rfl
  have htiles : z.tiles = s.tiles := by rw [hz]
  have hgroups : z.fencedGroups = s.fencedGroups := by rw [hz]
  have hteams : z.teams = s.teams := by rw [hz]
  have hvtiles : z.vtiles = s.vtiles := by rw [hz]
  obtain ⟨m, l, p, h⟩ := nowLost_eq z1 id lr v
  have h3 : z3 = _ := h
  clear_value z3
  subst h3
  clear_value z
  rw [← htiles, ← hteams, ← hvtiles]
  exact ⟨rfl, hstrands, hgroups, ⟨_, rfl⟩, rfl⟩

theorem lost_dropVtile {s : State} {t : Team} {id lr : Nat} {v : Vtile} (ht : s.team? id = some t) :
    LostIn s (dropVtile s t id lr v) id lr v := by
  obtain ⟨htiles, hstrands, hgroups, ⟨u, hteams⟩, hvtiles⟩ := dropVtile_tables s t id lr v
  refine ⟨fun x => (tile_lost htiles x).1, fun x => (tile_lost htiles x).2, hgroups, fun i => ?_, ?_, fun i r hne => ?_,
    fun hres j hj k hk => ?_⟩
  · rw [State.team?, hteams, lookup_insertAt]
    split
    · next h => rw [h, ht]; rfl
    · rfl
  · rw [State.vtile?, hvtiles, lookup_insertAt_self]
    rfl
  · rw [State.vtile?, hvtiles, lookup_insertAt_of_ne hne, lookup_insertAt_of_ne hne]
    rfl
  · rw [State.strandAt, hstrands] at hk
    exact (strandAt_foldl_dropMine hres hk).2 (List.mem_range.2 hj)

theorem LostIn.of_scene {s t u : State} {id lr : Nat} {v : Vtile} (h : LostIn s t id lr v) (hu : u.scene = t.scene) :
    LostIn s u id lr v where
  fenced x := (State.fenced_of_scene hu x).trans (h.fenced x)
  owner x := (State.owner_of_scene hu x).trans (h.owner x)
  groups := (State.groups_of_scene hu).trans h.groups
  teams i := (congrArg (fun c => c.teams i) hu).trans (h.teams i)
  self := (congrArg (fun c => c.vtiles id lr) hu).trans h.self
  others i r hne := (congrArg (fun c => c.vtiles i r) hu).trans (h.others i r hne)
  strands hres j hj k hk := by
    rw [State.strandAt, State.strands_of_scene hu] at hk
    exact h.strands hres j hj k hk

theorem lostIn_loseVtile {s : State} {t : Team} {id lr : Nat} {v : Vtile} (ht : s.team? id = some t)
    (hv : s.vtile? id lr = some v) (hl : v.lost = false) (cause : Nat) : LostIn s (loseVtile s id lr cause) id lr v := by
  have hd := lost_dropVtile (lr := lr) (v := v) ht
  unfold loseVtile
  rw [ht, hv]
  dsimp only
  rw [hl, if_neg Bool.false_ne_true]
  refine hd.of_scene ((State.scene_settleOrder _).trans ?_)
  exact (State.scene_foldl (fun _ _ => scene_forceLost _ _ _ _) _ _).trans (State.scene_writeFault _ _ _ _ _)

/-! ### What losses keep (R177) -/

/-- What errors leave fenced and lost stays so. -/
structure StaysLost (s t : State) : Prop where
  fenced : ∀ x, (s.tile x).fenced = true → (t.tile x).fenced = true
  groups : t.fencedGroups = s.fencedGroups
  teams : ∀ i u, s.team? i = some u → ∃ w, t.team? i = some w
  vtiles : ∀ i r v, s.vtile? i r = some v → ∃ w, t.vtile? i r = some w ∧ (v.lost = true → w.lost = true)

theorem StaysLost.refl (s : State) : StaysLost s s := ⟨fun _ h => h, rfl, fun _ u h => ⟨u, h⟩, fun _ _ v h => ⟨v, h, id⟩⟩

theorem StaysLost.trans {s t u : State} (h : StaysLost s t) (h' : StaysLost t u) : StaysLost s u where
  fenced x hx := h'.fenced x (h.fenced x hx)
  groups := h'.groups.trans h.groups
  teams i x hx := by
    obtain ⟨y, hy⟩ := h.teams i x hx
    exact h'.teams i y hy
  vtiles i r v hv := by
    obtain ⟨w, hw, hl⟩ := h.vtiles i r v hv
    obtain ⟨z, hz, hl'⟩ := h'.vtiles i r w hw
    exact ⟨z, hz, fun h => hl' (hl h)⟩

theorem StaysLost.of_scene {s t : State} (h : t.scene = s.scene) : StaysLost s t where
  fenced x hx := (State.fenced_of_scene h x).trans hx
  groups := State.groups_of_scene h
  teams _ _ hx := State.team_of_scene h hx
  vtiles i r v hv := by
    obtain ⟨w, hw, hs⟩ := State.vtile_of_scene h hv
    exact ⟨w, hw, fun hl => (congrArg Standing.lost hs).trans hl⟩

/-- The vtile itself after its loss. -/
theorem LostIn.vtile {s t : State} {id lr : Nat} {v : Vtile} (h : LostIn s t id lr v) :
    ∃ w, t.vtile? id lr = some w ∧ w.standing = v.standing.gone := Option.map_eq_some_iff.1 h.self

theorem LostIn.staysLost {s t : State} {id lr : Nat} {v : Vtile} (h : LostIn s t id lr v) : StaysLost s t where
  fenced x hx := (h.fenced x).trans hx
  groups := h.groups
  teams i u hu := by
    have hi := h.teams i
    rw [hu] at hi
    exact Option.isSome_iff_exists.1 hi
  vtiles i r x hx := by
    by_cases hk : vtileKey i r = vtileKey id lr
    · obtain ⟨w, hw, hs⟩ := h.vtile
      refine ⟨w, ?_, fun _ => congrArg Standing.lost hs⟩
      rw [← hw, State.vtile?, State.vtile?, hk]
    · have ho := h.others i r hk
      rw [hx] at ho
      obtain ⟨w, hw, hs⟩ := Option.map_eq_some_iff.1 ho
      exact ⟨w, hw, fun hl => (congrArg Standing.lost hs).trans hl⟩

theorem staysLost_loseVtile (s : State) (id lr cause : Nat) : StaysLost s (loseVtile s id lr cause) := by
  by_cases h : ∃ t v, s.team? id = some t ∧ s.vtile? id lr = some v ∧ v.lost = false
  · obtain ⟨t, v, ht, hv, hl⟩ := h
    exact (lostIn_loseVtile ht hv hl cause).staysLost
  · have he : loseVtile s id lr cause = s := by
      unfold loseVtile
      split
      · next t v ht hv =>
        split
        · rfl
        · next hl => exact absurd ⟨t, v, ht, hv, Bool.eq_false_iff.2 hl⟩ h
      · rfl
    rw [he]
    exact StaysLost.refl s

theorem staysLost_foldl {α : Type} {f : State → α → State} (h : ∀ s a, StaysLost s (f s a)) (l : List α) (s : State) :
    StaysLost s (l.foldl f s) :=
  List.foldlRecOn (motive := StaysLost s) l f (StaysLost.refl s) fun z hz a _ => hz.trans (h z a)

/-- A vtile is lost after losses that its own is among. -/
theorem lost_foldl {l : List (Nat × Nat)} {cause id lr : Nat} (hm : (id, lr) ∈ l) {s : State} {t : Team} {v : Vtile}
    (ht : s.team? id = some t) (hv : s.vtile? id lr = some v) :
    ∃ w, (l.foldl (fun s x => loseVtile s x.1 x.2 cause) s).vtile? id lr = some w ∧ w.lost = true := by
  induction l generalizing s t v with
  | nil => exact absurd hm List.not_mem_nil
  | cons x r ih =>
    rcases List.mem_cons.1 hm with rfl | hr
    · have hlost : ∃ w, (loseVtile s id lr cause).vtile? id lr = some w ∧ w.lost = true := by
        by_cases hl : v.lost = true
        · obtain ⟨w, hw, hwl⟩ := (staysLost_loseVtile s id lr cause).vtiles id lr v hv
          exact ⟨w, hw, hwl hl⟩
        · obtain ⟨w, hw, hs⟩ := (lostIn_loseVtile ht hv (Bool.eq_false_iff.2 hl) cause).vtile
          exact ⟨w, hw, congrArg Standing.lost hs⟩
      obtain ⟨w, hw, hwl⟩ := hlost
      obtain ⟨z, hz, hzl⟩ := (staysLost_foldl (fun s (x : Nat × Nat) => staysLost_loseVtile s x.1 x.2 cause) r _).vtiles id lr w hw
      exact ⟨z, hz, hzl hwl⟩
    · have hk := staysLost_loseVtile s x.1 x.2 cause
      obtain ⟨t', ht'⟩ := hk.teams id t ht
      obtain ⟨v', hv', -⟩ := hk.vtiles id lr v hv
      exact ih hr ht' hv'

/-! ### A tile that fails (R177) -/

/-- A tile that serves a vtile is fenced, and its vtile is lost. -/
theorem fenceTile_serving {s : State} {tile id lr : Nat} {t : Team} {v : Vtile} (ho : (s.tile tile).owner = some (id, lr))
    (ht : s.team? id = some t) (hv : s.vtile? id lr = some v) (hl : v.lost = false) (hp : v.ptile = tile) (hr : v.res = true) :
    ∃ V, ((fenceTile s tile).tile tile).fenced = true ∧ ((fenceTile s tile).tile tile).owner = none ∧
      (fenceTile s tile).vtile? id lr = some V ∧ V.standing = v.standing.gone ∧
      ∀ j k, j < 9 → (fenceTile s tile).strandAt tile j = some k → k.team ≠ id ∨ k.lrank ≠ lr := by
  have hz := scene_giveUp (s.onTile tile fun x => { x with fenced := true }) (· == tile)
  obtain ⟨t', ht'⟩ := State.team_of_scene hz ht
  obtain ⟨v', hv', hs⟩ := State.vtile_of_scene hz hv
  have hx : fenceTile s tile = loseVtile (giveUp (s.onTile tile fun x => { x with fenced := true }) (· == tile)) id lr 0x70 := by
    unfold fenceTile
    rw [ho]
  have h := lostIn_loseVtile ht' hv' ((congrArg Standing.lost hs).trans hl) 0x70
  rw [← hx] at h
  obtain ⟨V, hV, hVs⟩ := h.vtile
  have hp' : v'.ptile = tile := (congrArg Standing.ptile hs).trans hp
  refine ⟨V, ?_, ?_, hV, by rw [hVs, hs], fun j k hj hk => ?_⟩
  · rw [h.fenced, State.fenced_of_scene hz, State.onTile, State.tile_putTile_self]
  · have hown : ((giveUp (s.onTile tile fun x => { x with fenced := true }) (· == tile)).tile tile).owner = some (id, lr) := by
      rw [State.owner_of_scene hz, State.onTile, State.tile_putTile_self, ho]
    rw [h.owner, hown, if_pos rfl]
  · exact h.strands ((congrArg Standing.res hs).trans hr) j hj k (by rw [hp']; exact hk)

/-- A tile that serves nothing, and that nothing has been promised, is fenced. -/
theorem fenceTile_idle {s : State} {tile : Nat} (ho : (s.tile tile).owner = none)
    (hl : ∀ l ∈ s.launches, tile ∉ l.tiles.getD []) (hr : ∀ v ∈ s.vtiles, v.2.restoreTo.map (·.1) ≠ some tile) :
    fenceTile s tile = State.settleOrder (s.onTile tile fun x => { x with fenced := true }) := by
  have hnone : (s.launches.filter fun l => (l.tiles.getD []).any (· == tile)) = [] := by
    refine List.filter_eq_nil_iff.2 fun l hm hc => ?_
    obtain ⟨x, hx, he⟩ := List.any_eq_true.1 hc
    exact hl l hm (beq_iff_eq.1 he ▸ hx)
  have hkeep : (s.vtiles.map fun v => (v.1, v.2.unpromised (· == tile))) = s.vtiles := by
    refine (List.map_congr_left fun v hm => ?_).trans (List.map_id _)
    have hv : v.2.unpromised (· == tile) = v.2 := Vtile.unpromised_self fun r hv =>
      beq_eq_false_iff_ne.2 fun h => hr v hm (hv.trans (congrArg some h))
    rw [hv]
    rfl
  have hd : dropRestores (s.onTile tile fun x => { x with fenced := true }) (· == tile) =
      State.settleOrder (s.onTile tile fun x => { x with fenced := true }) := by
    rw [dropRestores_eq]
    exact congrArg (fun l => State.settleOrder { s.onTile tile (fun x => { x with fenced := true }) with vtiles := l }) hkeep
  unfold fenceTile
  rw [ho]
  dsimp only
  unfold giveUp
  rw [show (s.onTile tile fun x => { x with fenced := true }).launches = s.launches from rfl, hnone, hd]
  rfl

/-! ### A group that fails, and its reset (R177, R178) -/

theorem mem_insertSorted {x y : Nat} {l : List Nat} : y ∈ insertSorted x l ↔ y = x ∨ y ∈ l := by
  induction l with
  | nil => simp [insertSorted]
  | cons z r ih =>
    rw [insertSorted]
    split
    · rw [List.mem_cons, ih, List.mem_cons]
      tauto
    · split
      · next h => simp [h]
      · exact List.mem_cons

/-- Fencing the tiles of a list. -/
def fenceAll (s : State) (l : List Nat) : State := l.foldl (fun s i => s.onTile i fun x => { x with fenced := true }) s

theorem fenceAll_eq (l : List Nat) (s : State) : ∃ x, fenceAll s l = { s with tiles := x } ∧
    ∀ i, (i ∈ l ∨ (s.tile i).fenced = true) → ((lookup i x).getD Tile.initial).fenced = true := by
  induction l generalizing s with
  | nil => exact ⟨s.tiles, rfl, fun i h => h.resolve_left List.not_mem_nil⟩
  | cons j r ih =>
    obtain ⟨x, hx, hf⟩ := ih (s.onTile j fun x => { x with fenced := true })
    refine ⟨x, hx, fun i h => hf i ?_⟩
    rw [State.onTile, State.tile_putTile]
    split
    · exact Or.inr rfl
    · next hne => exact h.imp_left fun hm => (List.mem_cons.1 hm).resolve_left hne

/-- The state of a group error before the losses. -/
def fenceGroup (s : State) (grp : Nat) : State :=
  giveUp { fenceAll s (interval (16 * grp) 16) with fencedGroups := insertSorted grp s.fencedGroups } fun i => i / 16 == grp

theorem exec_uncorrectableGroupError (grp : Nat) (s : State) : exec (.uncorrectableGroupError grp) s =
    .next ((vtilesIn s grp).foldl (fun s x => loseVtile s x.1 x.2 0x71) (fenceGroup s grp)) := by
  obtain ⟨x, hx, -⟩ := fenceAll_eq (interval (16 * grp) 16) s
  have hg : (fenceAll s (interval (16 * grp) 16)).fencedGroups = s.fencedGroups := by rw [hx]
  rw [fenceGroup, ← hg]
  rfl

theorem fenceGroup_fences (s : State) (grp : Nat) : grp ∈ (fenceGroup s grp).fencedGroups ∧
    (∀ x, x / 16 = grp → ((fenceGroup s grp).tile x).fenced = true) ∧
    (∀ id t, s.team? id = some t → ∃ u, (fenceGroup s grp).team? id = some u) ∧
    ∀ id lr v, s.vtile? id lr = some v → ∃ w, (fenceGroup s grp).vtile? id lr = some w ∧ w.standing = v.standing := by
  obtain ⟨x, hx, hf⟩ := fenceAll_eq (interval (16 * grp) 16) s
  have hz := scene_giveUp { fenceAll s (interval (16 * grp) 16) with fencedGroups := insertSorted grp s.fencedGroups }
    fun i => i / 16 == grp
  rw [← fenceGroup, hx] at hz
  refine ⟨?_, fun i hi => ?_, fun id t ht => State.team_of_scene hz ht, fun id lr v hv => State.vtile_of_scene hz hv⟩
  · rw [State.groups_of_scene hz]
    exact mem_insertSorted.2 (Or.inl rfl)
  · rw [State.fenced_of_scene hz]
    exact hf i (Or.inl (mem_interval.2 (by omega)))

/-- A vtile that stands, or last stood, in a group is among those that its error loses. -/
theorem mem_vtilesIn {s : State} {grp id lr : Nat} {v : Vtile} (hv : s.vtile? id lr = some v) (hlr : lr < 1024)
    (hp : v.ptile / 16 = grp) (hl : v.lost = false) : (id, lr) ∈ vtilesIn s grp := by
  unfold vtilesIn
  refine List.mem_map.2 ⟨(vtileKey id lr, v), List.mem_filter.2 ⟨mem_of_lookup hv, by simp [hp, hl]⟩, ?_⟩
  unfold vtileKey
  exact Prod.ext (by dsimp only; omega) (by dsimp only; omega)

/-! ### Errors of a memory (R67, R260) -/

theorem granulesOf_one (key : Nat) : granulesOf key 1 = [granule key] := by
  simp [granulesOf, interval]

/-- The marks after one granule is marked. -/
theorem poisoned_markPoison_one (s : State) (g x : Nat) :
    (s.markPoison [g]).poisoned x = (decide (x = g) || s.poisoned x) := by
  have hp : (s.markPoison [g]).poison = if s.poisoned g then s.poison else insertSorted g s.poison := by
    have he : [g].eraseDups = [g] := rfl
    unfold State.markPoison
    by_cases h : s.poisoned g = true
    · simp [he, h]
    · simp [he, h]
  unfold State.poisoned at *
  rw [hp]
  split
  · next h =>
    by_cases hx : x = g
    · rw [hx, h, decide_eq_true rfl, Bool.true_or]
    · rw [decide_eq_false hx, Bool.false_or]
  · rw [Bool.eq_iff_iff]
    simp [mem_insertSorted]

/-- A vtile whose log covers no byte of some granules any more. -/
def uncovered (s : State) (gs : List Nat) (c : Nat × Vtile) : Vtile :=
  { c.2 with cover := c.2.cover.filter fun x => !gs.contains (granule (s.storeBase (c.1 / 1024) (c.1 % 1024)) + x.g) }

/-- What a change of marks takes from what logs cover. -/
theorem uncover_eq (s : State) (gs : List Nat) : ∃ vs, s.uncover gs = { s with vtiles := vs } ∧
    ∀ k v, lookup k s.vtiles = some v → ∃ c, lookup k vs = some { v with cover := c } ∧ ∀ x ∈ c, x ∈ v.cover := by
  unfold State.uncover
  split
  · exact ⟨s.vtiles, rfl, fun k v h => ⟨v.cover, h, fun x hx => hx⟩⟩
  · refine ⟨s.vtiles.map fun c => (c.1, uncovered s gs c), rfl, fun k v h => ⟨(uncovered s gs (k, v)).cover, ?_, fun x hx =>
      List.mem_of_mem_filter hx⟩⟩
    rw [lookup_mapKey, h]
    rfl

/-- An uncorrectable error marks its granule, and changes marks, error counters and what logs cover alone. -/
theorem exec_memoryUncorrectable (key : Nat) (s : State) :
    ∃ t, exec (.memoryUncorrectableError key .uncorrectable) s = .next t ∧ t.anyPoison key 1 = true ∧ t.mem = s.mem ∧
      (∀ g, g ≠ granule key → t.poisoned g = s.poisoned g) ∧
      (∀ id lr v, s.vtile? id lr = some v → ∃ c, t.vtile? id lr = some { v with cover := c } ∧ ∀ x ∈ c, x ∈ v.cover) ∧
      { t with poison := s.poison, errc := s.errc, vtiles := s.vtiles } = s := by
  obtain ⟨vs, hu, hv⟩ := uncover_eq (s.countErr (errIndex key + 1) 1) [granule key]
  refine ⟨_, rfl, ?_, ?_, fun g hg => ?_, fun id lr v h => ?_, ?_⟩
  · simp [State.anyPoison, granulesOf_one, poisoned_markPoison_one]
  · rw [hu]
    rfl
  · rw [poisoned_markPoison_one, decide_eq_false hg, Bool.false_or, hu]
    rfl
  · rw [hu]
    exact hv (vtileKey id lr) v h
  · rw [hu]
    rfl

/-! ### Quiescing (R195) -/

theorem bit_toNat (x : Word) (i : Nat) : bit x.toNat i = x.getLsbD i := by
  rw [BitVec.getLsbD, Nat.testBit_eq_decide_div_mod_eq]
  rfl

/-- A mask of 64 bits that lacks one clears that one. -/
theorem getLsbD_clear {m : Word} {j : Nat} (hm : ∀ i : Fin 64, m.getLsbD i = decide (i.val ≠ j)) (x : Word) (i : Nat) :
    (x &&& m).getLsbD i = (decide (i ≠ j) && x.getLsbD i) := by
  rw [BitVec.getLsbD_and, Bool.and_comm]
  by_cases hi : i < 64
  · rw [hm ⟨i, hi⟩]
  · rw [BitVec.getLsbD_of_ge x i (Nat.le_of_not_lt hi), Bool.and_false, Bool.and_false]

/-- A mask of one bit sets that one. -/
theorem getLsbD_set {m : Word} {j : Nat} (hj : j < 64) (hm : ∀ i : Fin 64, m.getLsbD i = decide (i.val = j)) (x : Word) (i : Nat) :
    (x ||| m).getLsbD i = (decide (i = j) || x.getLsbD i) := by
  rw [BitVec.getLsbD_or, Bool.or_comm]
  by_cases hi : i < 64
  · rw [hm ⟨i, hi⟩]
  · rw [BitVec.getLsbD_of_ge m i (Nat.le_of_not_lt hi), decide_eq_false (by omega)]

theorem exec_quiesceDrainComplete (s : State) : exec .quiesceDrainComplete s =
    if s.quiesce.getLsbD 63 && !inFlight s then .next { s with quiesce := s.quiesce &&& 0x7FFFFFFFFFFFFFFF } else .next s := by
  rw [← bit_toNat]
  rfl

theorem exec_quiesceTimeout (s : State) : exec .quiesceTimeout s =
    if s.quiesce.getLsbD 63 && decide (s.quiesceSince + 10000000 ≤ s.now) then
      .next { s with quiesce := (s.quiesce &&& 0x7FFFFFFFFFFFFFFF) ||| 0x4000000000000000, lycelLog := s.lycelLog ++ [0x82] }
    else .next s := by
  rw [← bit_toNat]
  rfl

theorem exec_quiesceRelease (s : State) : exec .quiesceRelease s =
    if s.quiesce.getLsbD 63 then .next s else .next { s with quiesce := s.quiesce &&& 0xDFFFFFFFFFFFFFFF } := by
  rw [← bit_toNat]
  rfl

theorem exec_quiesceStart {s : State} {v : Word} (hb : bit s.quiesce.toNat 63 = false) (hg : bit v.toNat 63 = true) :
    exec (.quiesceStart v) s = .next { s with
      quiesce := BitVec.ofNat 64 (2 ^ 63 + 2 ^ 61 + field v.toNat 8 5 * 2 ^ 8 + field v.toNat 0 6)
      quiesceSince := s.now } := by
  show execQuiesceStart v s = _
  have hf : 2 ^ 63 + 2 ^ 61 + (v.toNat % 2 ^ 6 + field v.toNat 8 5 * 2 ^ 8) =
      2 ^ 63 + 2 ^ 61 + field v.toNat 8 5 * 2 ^ 8 + field v.toNat 0 6 := by
    rw [show field v.toNat 0 6 = v.toNat % 2 ^ 6 by simp [field]]
    omega
  unfold execQuiesceStart quiesceWrite
  dsimp only
  rw [if_pos hg, hb, if_pos hg, hf]
  rfl

/-! ### O49 -/

/-- Settles O49: fenced tiles and groups stay so while their vtiles are lost; the rest is the steps' own definitions. -/
theorem containmentSteps : Obligations.ContainmentSteps := by
  unfold Obligations.ContainmentSteps
  refine ⟨?_, ?_, ?_, ?_, ?_, fun asid slot s => ⟨rfl, rfl⟩, fun v s hb hg => exec_quiesceStart hb hg, ?_, ?_⟩
  · intro tile s id lr t v i hi ho ht hv hl hp hr
    have hx : exec i s = .next (fenceTile s tile) := by
      rcases hi with rfl | rfl
      · rfl
      · rfl
    obtain ⟨V, hf, hown, hV, hs, hk⟩ := fenceTile_serving ho ht hv hl hp hr
    exact ⟨_, V, hx, hf, hown, hV, congrArg Standing.lost hs, congrArg Standing.res hs, congrArg Standing.saves hs,
      congrArg Standing.mq hs, congrArg Standing.div hs, hk⟩
  · intro tile s i hi ho hl hr
    rw [← fenceTile_idle ho hl hr]
    rcases hi with rfl | rfl
    · rfl
    · rfl
  · intro grp s
    obtain ⟨hg, hf, ht, hv⟩ := fenceGroup_fences s grp
    have hk := staysLost_foldl (fun s (x : Nat × Nat) => staysLost_loseVtile s x.1 x.2 0x71) (vtilesIn s grp) (fenceGroup s grp)
    refine ⟨_, exec_uncorrectableGroupError grp s, ?_, fun x hx => hk.fenced x (hf x hx), fun id lr v t hts hvs hlr hp => ?_⟩
    · rw [hk.groups]
      exact hg
    · obtain ⟨u, hu⟩ := ht id t hts
      obtain ⟨w, hw, hs⟩ := hv id lr v hvs
      by_cases hl : v.lost = true
      · obtain ⟨z, hz, hzl⟩ := hk.vtiles id lr w hw
        exact ⟨z, hz, hzl ((congrArg Standing.lost hs).trans hl)⟩
      · exact lost_foldl (mem_vtilesIn hvs hlr hp (Bool.eq_false_iff.2 hl)) hu hw
  · intro grp s
    refine ⟨_, rfl, by simp, fun x hx => ?_⟩
    unfold State.tile
    dsimp only
    rw [lookup_filter_key (fun k => k / 16 != grp), if_neg (by simp [hx])]
    rfl
  · exact fun key s => ⟨fun h => congrArg Host.Outcome.next (countErr_one h), exec_memoryUncorrectable key s⟩
  · intro s hb
    have hclear : ∀ i, (s.quiesce &&& 0x7FFFFFFFFFFFFFFF).getLsbD i = (decide (i ≠ 63) && s.quiesce.getLsbD i) :=
      getLsbD_clear (by decide) s.quiesce
    refine ⟨fun hf => ⟨_, ?_, hclear⟩, fun hf => ?_, fun ht =>
      ⟨(s.quiesce &&& 0x7FFFFFFFFFFFFFFF) ||| 0x4000000000000000, ?_, fun i => ?_⟩, fun ht => ?_, ?_⟩
    · rw [exec_quiesceDrainComplete, hb, hf]
      rfl
    · rw [exec_quiesceDrainComplete, hf, Bool.not_true, Bool.and_false]
      rfl
    · rw [exec_quiesceTimeout, hb, decide_eq_true ht]
      rfl
    · rw [getLsbD_set (j := 62) (by decide) (by decide), hclear]
    · rw [exec_quiesceTimeout, decide_eq_false (Nat.not_le.2 ht), Bool.and_false]
      rfl
    · rw [exec_quiesceRelease, if_pos hb]
  · intro s hb
    refine ⟨s.quiesce &&& 0xDFFFFFFFFFFFFFFF, ?_, getLsbD_clear (by decide) s.quiesce⟩
    rw [exec_quiesceRelease, hb]
    rfl

end Sys2Proof.Machine
end

section
/-! PROOF. Virga (R218, R221 to R223, R225, R235 to R237): what reports and fills leave of its runs, how a node moves on and how
it fails, and O54. -/

namespace Sys2Proof.Machine

/-! ### What reports of faults leave of Virga -/

/-- What Virga holds, and which members each team takes for unreachable. -/
structure VirgaView where
  runs : Table Run
  graphs : Table Graph
  peers : Nat → Option (Table Nat)

namespace State

def virga (s : State) : VirgaView := ⟨s.runs, s.graphs, fun id => (s.team? id).map Team.peersDown⟩

section Same

variable {s t : State} (h : t.virga = s.virga)

include h

theorem runs_of_virga : t.runs = s.runs := congrArg VirgaView.runs h
theorem graphs_of_virga : t.graphs = s.graphs := congrArg VirgaView.graphs h
theorem peers_of_virga (id : Nat) : (t.team? id).map Team.peersDown = (s.team? id).map Team.peersDown :=
  congrArg (fun v => v.peers id) h

end Same

theorem virga_foldl {α : Type} {f : State → α → State} (h : ∀ s a, (f s a).virga = s.virga) (l : List α) (s : State) :
    (l.foldl f s).virga = s.virga :=
  List.foldlRecOn (motive := fun z => z.virga = s.virga) l f rfl fun z hz a _ => (h z a).trans hz

theorem virga_putTeam {s : State} {id : Nat} {t u : Team} (h : s.team? id = some t) (hu : u.peersDown = t.peersDown) :
    (s.putTeam id u).virga = s.virga := by
  refine congrArg (VirgaView.mk s.runs s.graphs) (funext fun j => ?_)
  rw [team?_putTeam]
  split
  · next hj => rw [hj, h, Option.map_some, Option.map_some, hu]
  · rfl

theorem virga_onTeam (s : State) (id : Nat) {f : Team → Team} (hf : ∀ t, (f t).peersDown = t.peersDown) :
    (s.onTeam id f).virga = s.virga := by
  unfold onTeam
  split
  · next t ht => exact virga_putTeam ht (hf t)
  · rfl

theorem virga_commit (s : State) (a : Nat) (bs : List Byte) : (s.commit a bs).virga = s.virga := by
  obtain ⟨_, _, h⟩ := s.commit_eq a bs
  rw [h]
  rfl

theorem virga_hbmPut (s : State) (a n v : Nat) : (s.hbmPut a n v).virga = s.virga := by
  obtain ⟨_, _, _, h⟩ := s.hbmPut_eq a n v
  rw [h]
  rfl

theorem virga_putDivEntry (s : State) (id lr : Nat) : (s.putDivEntry id lr).virga = s.virga := by
  obtain ⟨_, _, _, h⟩ := s.putDivEntry_eq id lr
  rw [h]
  rfl

theorem virga_orFstat (s : State) (id lr : Nat) (bits : Word) : (s.orFstat id lr bits).virga = s.virga := by
  obtain ⟨_, _, _, _, h⟩ := s.orFstat_eq id lr bits
  rw [h]
  rfl

theorem virga_traceVt (s : State) (id lr slot kind info data : Nat) :
    (s.traceVt id lr slot kind info data).virga = s.virga := by
  unfold traceVt
  split
  · next v _ =>
    split
    · obtain ⟨_, _, _, _, _, _, h⟩ := s.trace_eq v.ptile lr slot kind info data
      rw [h]
      rfl
    · rfl
  · rfl

theorem virga_enqueue (s : State) (id : Nat) (q : QTarget) (r : BitVec 512) (seq prio : Nat) (save : Option Nat)
    (waiting : Bool) : (s.enqueue id q r seq prio save waiting).virga = s.virga := by
  unfold enqueue
  split
  · rfl
  · next t ht => exact (virga_commit _ _ _).trans (virga_putTeam ht rfl)

theorem virga_spawnRec (s : State) (id : Nat) (r : BitVec 512) : (s.spawnRec id r).2.virga = s.virga := by
  unfold spawnRec
  split
  · rfl
  · next t ht => exact (virga_enqueue _ _ _ _ _ _ _ _).trans (virga_putTeam ht rfl)

theorem virga_readyHandler (s : State) (id n : Nat) : (s.readyHandler id n).virga = s.virga := by
  unfold readyHandler
  split
  · rfl
  · next t ht =>
    extract_lets fq z r
    have hz : z.virga = s.virga := by
      obtain ⟨_, h⟩ := s.writeLive_eq [unitKey id .pkg 0] (fq + 24) (bytesOf 8 0)
      exact (congrArg virga h).trans rfl
    split
    · split
      · exact hz
      · split
        · exact hz
        · exact (virga_spawnRec _ _ _).trans hz
    · rfl

theorem virga_writeFault (s : State) (id lr : Nat) (f : FaultRec) (src : Nat) :
    (s.writeFault id lr f src).2.virga = s.virga := by
  have flag (b : Bool) (z : State) (r : Nat) (h : z.virga = s.virga) :
      (if b then z.orFstat id r fstatAbs else z).virga = s.virga := by
    split
    · exact (virga_orFstat _ _ _ _).trans h
    · exact h
  unfold writeFault
  split
  · rfl
  · next t ht =>
    extract_lets fq z n z1 z2 z3 z4 z5
    split
    · exact (virga_orFstat _ _ _ _).trans ((virga_commit _ _ _).trans (virga_putTeam ht rfl))
    · have h3 : z3.virga = s.virga := (virga_commit _ _ _).trans ((virga_commit _ _ _).trans (virga_putTeam ht rfl))
      exact (virga_readyHandler _ _ _).trans (flag _ _ _ (flag _ _ _ h3))

theorem virga_putVtile (s : State) (id lr : Nat) (v : Vtile) : (s.putVtile id lr v).virga = s.virga := rfl

theorem virga_appendLog (s : State) (id lr : Nat) (r : LogRec) : (s.appendLog id lr r).virga = s.virga := by
  unfold appendLog
  split
  · rfl
  · extract_lets a
    split
    · rfl
    · exact (virga_putDivEntry _ _ _).trans ((virga_putVtile _ _ _ _).trans (virga_hbmPut s a 128 (logBytes r)))

theorem virga_deliverSummary (s : State) (id lr uid : Nat) (ctr bits : Word) (fails : Bool) :
    (s.deliverSummary id lr uid ctr bits fails).virga = s.virga := by
  unfold deliverSummary
  split
  · split
    · rfl
    · split
      · exact virga_appendLog _ _ _ _
      · exact virga_commit _ _ _
    · rfl
  · rfl

theorem virga_engineFault (s : State) (w : Issuer) (cause : Nat) (addr info info2 : Word) (summary : Option (Word × Word)) :
    (s.engineFault w cause addr info info2 summary).virga = s.virga := by
  unfold engineFault
  split
  · rfl
  · extract_lets place parked
    split
    dsimp only
    have h1 (f : FaultRec) (z : State) (h : z.virga = s.virga) : (z.writeFault w.team w.lrank f).2.virga = s.virga :=
      (virga_writeFault _ _ _ _ _).trans h
    split
    · exact (virga_deliverSummary _ _ _ _ _ _ _).trans (h1 _ _ (virga_traceVt _ _ _ _ _ _ _))
    · exact h1 _ _ (virga_traceVt _ _ _ _ _ _ _)

theorem virga_freeKeys (s : State) (id : Nat) (ks : List (Nat × Byte)) : (s.freeKeys id ks).virga = s.virga := by
  unfold freeKeys
  split
  · rfl
  · unfold drew
    refine (virga_onTeam _ _ ?_).trans (virga_foldl ?_ _ _)
    · exact fun _ => rfl
    · exact fun _ _ => rfl

theorem virga_settleLive (s : State) (a n : Nat) : (s.settleLive a n).virga = s.virga := by
  obtain ⟨_, h⟩ := s.settleLive_eq a n
  rw [h]
  rfl

end State

theorem virga_post (s : State) (w : Issuer) (desc amount : Word) (diverted : Bool) :
    (post s w desc amount diverted).2.virga = s.virga := by
  unfold post
  split
  · rfl
  · rfl

theorem virga_undefineAt (s : State) (t : Team) (r : Run) (im : List Byte) (n : GNode) (os : List Nat) :
    (undefineAt s t r im n os).virga = s.virga := by
  unfold undefineAt
  split
  · rfl
  · extract_lets b alive ks
    split
    · exact (State.virga_foldl (fun _ _ => State.virga_settleLive _ _ _) _ _).trans (State.virga_freeKeys _ _ _)
    · rfl

theorem virga_undefineDest (s : State) (t : Team) (r : Run) (im : List Byte) (n : GNode) :
    (undefineDest s t r im n).virga = s.virga := by
  unfold undefineDest
  split
  · rfl
  · exact virga_undefineAt _ _ _ _ _ _

theorem virga_spoilRun (s : State) (t : Team) (r : Run) : (spoilRun s t r).virga = s.virga := by
  unfold spoilRun
  split
  · rfl
  · exact State.virga_foldl (fun _ _ => virga_undefineAt _ _ _ _ _ _) _ _

theorem foldl_outbox {α : Type} {f : State → α → State} (h : ∀ s a, ∃ o, f s a = { s with outbox := o }) (l : List α)
    (s : State) : ∃ o, l.foldl f s = { s with outbox := o } := by
  induction l generalizing s with
  | nil => exact ⟨_, rfl⟩
  | cons a r ih =>
    obtain ⟨o, h1⟩ := h s a
    obtain ⟨o', h2⟩ := ih (f s a)
    exact ⟨o', by rw [List.foldl_cons, h2, h1]⟩

/-- Reports change what waits at the ports alone. -/
theorem reportAll_eq (s : State) (t : Team) (r : Run) (im : List Byte) (n : GNode) (mism : Bool) :
    ∃ o, reportAll s t r im n mism = { s with outbox := o } := by
  refine foldl_outbox (fun z p => ?_) _ s
  extract_lets w v far
  split
  · exact ⟨_, rfl⟩
  · exact ⟨_, rfl⟩
  · exact ⟨_, rfl⟩

/-! ### Runs and nodes as a step changes them -/

theorem getElem?_modifyNth {α : Type} (f : α → α) (i j : Nat) (l : List α) :
    (modifyNth f i l)[j]? = if i = j then (l[j]?).map f else l[j]? := by
  induction l generalizing i j with
  | nil => simp [modifyNth]
  | cons x r ih =>
    cases i with
    | zero => cases j <;> simp [modifyNth]
    | succ i =>
      cases j with
      | zero => simp [modifyNth]
      | succ j => simpa [modifyNth] using ih i j

/-- A run after a node of it is changed. -/
def Run.withNode (r : Run) (i : Nat) (f : NodeRun → NodeRun) : Run := { r with nodes := modifyNth f i r.nodes }

theorem Run.withNode_node {r : Run} {i : Nat} {x : NodeRun} (h : r.nodes[i]? = some x) (f : NodeRun → NodeRun) :
    (r.withNode i f).nodes[i]? = some (f x) := by
  rw [Run.withNode, getElem?_modifyNth, if_pos rfl, h]
  rfl

theorem Run.withNode_node_of_ne {r : Run} {i j : Nat} (h : j ≠ i) (f : NodeRun → NodeRun) :
    (r.withNode i f).nodes[j]? = r.nodes[j]? := by
  rw [Run.withNode, getElem?_modifyNth, if_neg (Ne.symm h)]

section Runs

variable {s : State} {id i : Nat} {r : Run} {x : NodeRun}

theorem onRun_eq (h : lookup id s.runs = some r) (f : Run → Run) :
    onRun s id f = { s with runs := insertAt id (f r) s.runs } := by
  rw [onRun, h]

theorem onNode_eq (h : lookup id s.runs = some r) (i : Nat) (f : NodeRun → NodeRun) :
    onNode s id i f = { s with runs := insertAt id (r.withNode i f) s.runs } := onRun_eq h _

theorem lookup_onRun (h : lookup id s.runs = some r) (f : Run → Run) : lookup id (onRun s id f).runs = some (f r) := by
  rw [onRun_eq h]
  exact lookup_insertAt_self _ _ _

theorem lookup_onNode (h : lookup id s.runs = some r) (i : Nat) (f : NodeRun → NodeRun) :
    lookup id (onNode s id i f).runs = some (r.withNode i f) := lookup_onRun h _

theorem activeNode_iff : activeNode s id i = some (r, x) ↔
    lookup id s.runs = some r ∧ r.nodes[i]? = some x ∧ r.st = .running ∧ x.st = .active := by
  unfold activeNode
  constructor
  · intro h
    split at h
    · cases h
    · next r' hr =>
      split at h
      · next x' hx =>
        split at h
        · next hc =>
          cases h
          exact ⟨hr, hx, hc⟩
        · cases h
      · cases h
  · rintro ⟨hr, hx, hc⟩
    rw [hr]
    dsimp only
    rw [hx]
    dsimp only
    rw [if_pos hc]

/-- An active node stays so when what is changed of it leaves its state. -/
theorem activeNode_onNode (h : activeNode s id i = some (r, x)) {f : NodeRun → NodeRun} (hf : (f x).st = x.st) :
    activeNode (onNode s id i f) id i = some (r.withNode i f, f x) := by
  obtain ⟨hr, hx, hst, ha⟩ := activeNode_iff.1 h
  exact activeNode_iff.2 ⟨lookup_onNode hr i f, Run.withNode_node hx f, hst, hf.trans ha⟩

end Runs

/-! ### A node that fails (R225, R236, R237) -/

/-- A run that has failed at a node. -/
def Run.failedAt (r : Run) (i cause peer : Nat) (miss : Bool) (what : Lost) : Run :=
  { r.withNode i (fun x => { x with st := .failed, inbox := [] }) with
    cause, node := i, peer, miss, addr := what.addr, moved := what.moved }

/-- A run that has a failure stands, or ends as failed; its nodes are as they were. -/
theorem endRun_failing {s : State} {id : Nat} {r : Run} (h : lookup id s.runs = some r) (hc : r.cause ≠ 0) :
    ∃ st, lookup id (endRun s id).runs = some { r with st } := by
  unfold endRun
  rw [h]
  dsimp only
  split
  · exact ⟨r.st, h⟩
  · refine ⟨.failed, ?_⟩
    rw [State.runs_of_virga (State.virga_engineFault _ _ _ _ _ _ _)]
    exact lookup_onRun h _

/-- The first failure of a run fails its node and gives the run its cause. -/
theorem failNode_first {s : State} {id i : Nat} {r : Run} {x : NodeRun} {t : Team} (h : lookup id s.runs = some r)
    (hx : r.nodes[i]? = some x) (ht : s.team? r.who.team = some t) (hc : r.cause = 0) {cause : Nat} (hcause : cause ≠ 0)
    (peer : Option Nat) (hp : peer.isSome = true → cause = 0x41) :
    ∃ r' y, lookup id (failNode s id i cause peer).runs = some r' ∧ r'.nodes[i]? = some y ∧ y.st = .failed ∧
      r'.cause = cause ∧ r'.node = i := by
  unfold failNode
  split
  · next hn => exact absurd (hn.symm.trans h) (by simp)
  next r1 hr1 =>
  obtain rfl : r1 = r := Option.some.inj (hr1.symm.trans h)
  split
  · next hn => exact absurd (hn.symm.trans ht) (by simp)
  next t1 _ =>
  extract_lets im n tree lost cause1 what z z1 z2 z3
  have hcause1 : cause1 = cause := by
    show (if tree && lost then 0x41 else cause) = cause
    split
    · next hb => exact (hp (Bool.and_eq_true_iff.1 hb).2).symm
    · rfl
  have h1 : lookup id z1.runs = some r1 := by
    rw [← h]
    refine congrArg (lookup id) ?_
    show State.runs (if cause1 = 0x48 ∨ tree ∧ cause1 = 0x41 then z else undefineDest z t1 r1 im n) = s.runs
    split
    · rfl
    · exact State.runs_of_virga (virga_undefineDest z t1 r1 im n)
  have h3 : lookup id z3.runs = some (r1.failedAt i cause1 (peer.getD 0) (tree && lost) what) := by
    show lookup id (State.runs (if r1.cause ≠ 0 then z2 else _)) = _
    rw [if_neg (by simp [hc])]
    exact lookup_onRun (lookup_onNode h1 i _) _
  obtain ⟨o, ho⟩ := reportAll_eq z3 t1 r1 im n (cause1 == 0x48)
  obtain ⟨st, he⟩ := endRun_failing ((congrArg (fun y : State => lookup id y.runs) ho).trans h3)
    (fun hz => hcause (hcause1.symm.trans hz))
  exact ⟨_, _, he, Run.withNode_node hx _, rfl, hcause1, rfl⟩

/-! ### Messages from peers (R195, R225, R236) -/

section Deliver

variable {s : State} {id i : Nat} {r : Run} {x : NodeRun} {t : Team} {c : Chunk}

theorem progress_sent (h : activeNode s id i = some (r, x)) (hs : x.sent = true) : progress s t id i = s := by
  unfold progress
  rw [h]
  dsimp only
  rw [if_pos hs]

theorem deliver_matching (h : activeNode s id i = some (r, x)) (hs : x.sent = true)
    (hc : c.sig = (nodeOf (runImage s r) i).sig) :
    deliver s t id i c = onNode s id i fun x => { x with inbox := x.inbox ++ [c] } := by
  unfold deliver
  rw [h]
  dsimp only
  rw [if_neg (not_not.2 hc)]
  exact progress_sent (activeNode_onNode (f := fun x => { x with inbox := x.inbox ++ [c] }) h rfl) hs

theorem deliver_mismatch (h : activeNode s id i = some (r, x)) (hw : x.written = false)
    (hc : c.sig ≠ (nodeOf (runImage s r) i).sig) : deliver s t id i c = failNode s id i 0x48 none := by
  unfold deliver
  rw [h]
  dsimp only
  rw [if_pos hc, if_neg (Bool.eq_false_iff.1 hw)]

theorem deliver_late (h : activeNode s id i = some (r, x)) (hw : x.written = true)
    (hc : c.sig ≠ (nodeOf (runImage s r) i).sig) :
    deliver s t id i c = reportAll s t r (runImage s r) (nodeOf (runImage s r) i) true := by
  unfold deliver
  rw [h]
  dsimp only
  rw [if_pos hc, if_pos hw]

end Deliver

/-- The state in which a chunk has been taken from its link. -/
def takenFrom (s : State) (quad : Nat) (c : Chunk) : State := s.freeBuffers quad 2 (Msg.chunk c.far 0 quad c).flits

theorem exec_virgaChunkReceive_held {quad : Nat} {c : Chunk} {s : State} (h : (chunkTeams s c).any s.heldEdge = true) :
    exec (.virgaChunkReceive ⟨quad, c⟩) s = .next s := by
  show execVirgaChunkReceive ⟨quad, c⟩ s = _
  unfold execVirgaChunkReceive
  exact if_pos h

theorem exec_virgaChunkReceive_staged {quad : Nat} {c : Chunk} {s : State} (h : (chunkTeams s c).any s.heldEdge = false)
    (hf : findNode s c.far c.team c.src c.gtag c.run c.tag c.shard (fun n => compatible c.node n.op) = none)
    (hroom : (s.staging.map chunkBytes).sum + chunkBytes c ≤ 2 ^ 26) :
    exec (.virgaChunkReceive ⟨quad, c⟩) s = .next { takenFrom s quad c with staging := s.staging ++ [c] } := by
  show execVirgaChunkReceive ⟨quad, c⟩ s = _
  unfold execVirgaChunkReceive
  dsimp only
  rw [h, hf]
  exact congrArg Host.Outcome.next (if_pos hroom)

theorem exec_virgaChunkReceive_delivered {quad id i : Nat} {c : Chunk} {s : State} {r : Run} {x : NodeRun} {t : Team}
    (h : (chunkTeams s c).any s.heldEdge = false)
    (hf : findNode s c.far c.team c.src c.gtag c.run c.tag c.shard (fun n => compatible c.node n.op) = some (id, i))
    (ha : activeNode s id i = some (r, x)) (ht : s.team? r.who.team = some t) :
    exec (.virgaChunkReceive ⟨quad, c⟩) s = .next (deliver (takenFrom s quad c) t id i c) := by
  have hr : ((lookup id s.runs).bind fun r => s.team? r.who.team) = some t := by
    rw [(activeNode_iff.1 ha).1]
    exact ht
  show execVirgaChunkReceive ⟨quad, c⟩ s = _
  unfold execVirgaChunkReceive
  dsimp only
  rw [h, hf]
  dsimp only
  rw [ha, hr]
  rfl

theorem takeReport_active {v : VirgaReport} {mism : Bool} {s : State} {id i : Nat} {r : Run} {x : NodeRun}
    (hf : findNode s v.far v.team v.src v.gtag v.run v.tag v.shard (fun _ => true) = some (id, i))
    (ha : activeNode s id i = some (r, x)) (hw : x.written = false) : ∃ p,
    takeReport s v mism = if mism then failNode s id i 0x48 none else failNode s id i 0x41 (some p) := by
  unfold takeReport
  rw [hf]
  dsimp only
  rw [ha]
  dsimp only
  unfold reported
  rw [ha]
  dsimp only
  rw [if_neg (Bool.eq_false_iff.1 hw)]
  exact ⟨_, rfl⟩

theorem exec_virgaPeerFailure_active {v : VirgaReport} {s : State} {id i : Nat} {r : Run} {x : NodeRun} {t : Team}
    (hf : findNode s v.far v.team v.src v.gtag v.run v.tag v.shard (fun _ => true) = some (id, i))
    (ha : activeNode s id i = some (r, x)) (ht : s.team? r.who.team = some t) (hw : x.written = false) (hc : r.cause = 0) :
    ∃ t' r' y, exec (.virgaPeerFailure v) s = .next t' ∧ lookup id t'.runs = some r' ∧ r'.nodes[i]? = some y ∧
      y.st = .failed ∧ r'.cause = 0x41 ∧ r'.node = i := by
  obtain ⟨p, hx⟩ := takeReport_active (mism := false) hf ha hw
  obtain ⟨hr, hn, -, -⟩ := activeNode_iff.1 ha
  obtain ⟨r', y, h⟩ := failNode_first hr hn ht hc (cause := 0x41) (by decide) (some p) fun _ => rfl
  exact ⟨_, r', y, congrArg Host.Outcome.next hx, h⟩

theorem exec_virgaMismatchReport_active {v : VirgaReport} {s : State} {id i : Nat} {r : Run} {x : NodeRun} {t : Team}
    (hf : findNode s v.far v.team v.src v.gtag v.run v.tag v.shard (fun _ => true) = some (id, i))
    (ha : activeNode s id i = some (r, x)) (ht : s.team? r.who.team = some t) (hw : x.written = false) (hc : r.cause = 0) :
    ∃ t' r' y, exec (.virgaMismatchReport v) s = .next t' ∧ lookup id t'.runs = some r' ∧ r'.nodes[i]? = some y ∧
      y.st = .failed ∧ r'.cause = 0x48 ∧ r'.node = i := by
  obtain ⟨p, hx⟩ := takeReport_active (mism := true) hf ha hw
  obtain ⟨hr, hn, -, -⟩ := activeNode_iff.1 ha
  obtain ⟨r', y, h⟩ := failNode_first hr hn ht hc (cause := 0x48) (by decide) none (fun h => absurd h (by simp))
  exact ⟨_, r', y, congrArg Host.Outcome.next hx, h⟩

/-! ### A peer that cannot be reached (R94, R236) -/

/-- What a step leaves of the members that each team takes for unreachable. -/
def SamePeers (s t : State) : Prop := ∀ id, (t.team? id).map Team.peersDown = (s.team? id).map Team.peersDown

theorem SamePeers.trans {s t u : State} (h : SamePeers s t) (h' : SamePeers t u) : SamePeers s u :=
  fun id => (h' id).trans (h id)

theorem samePeers_onRun (s : State) (id : Nat) (f : Run → Run) : SamePeers s (onRun s id f) := by
  intro j
  unfold onRun
  split
  · rfl
  · rfl

theorem samePeers_endRun (s : State) (id : Nat) : SamePeers s (endRun s id) := by
  unfold endRun
  split
  · exact fun _ => rfl
  · next r _ =>
    extract_lets desc tells z
    split
    · exact fun _ => rfl
    · split
      · exact (samePeers_onRun s id _).trans (State.peers_of_virga (State.virga_engineFault _ _ _ _ _ _ _))
      · split
        · have hz : SamePeers s z := by
            show SamePeers s (match s.team? r.who.team with | some t => spoilRun s t r | none => s)
            split
            · exact State.peers_of_virga (virga_spoilRun _ _ _)
            · exact fun _ => rfl
          exact hz.trans ((samePeers_onRun _ _ _).trans (State.peers_of_virga (virga_post _ _ _ _ _)))
        · exact fun _ => rfl

theorem samePeers_failNode (s : State) (id i cause : Nat) (peer : Option Nat) (what : Option Lost) :
    SamePeers s (failNode s id i cause peer what) := by
  unfold failNode
  split
  · exact fun _ => rfl
  · next r _ =>
    split
    · exact fun _ => rfl
    · next t _ =>
      extract_lets im n tree lost cause1 what1 z z1 z2 z3
      have h1 : SamePeers s z1 := by
        show SamePeers s (if cause1 = 0x48 ∨ tree ∧ cause1 = 0x41 then z else undefineDest z t r im n)
        split
        · exact fun _ => rfl
        · exact State.peers_of_virga (virga_undefineDest z t r im n)
      have h2 : SamePeers s z2 := h1.trans (samePeers_onRun _ _ _)
      have h3 : SamePeers s z3 := by
        show SamePeers s (if r.cause ≠ 0 then z2 else _)
        split
        · exact h2
        · exact h2.trans (samePeers_onRun _ _ _)
      obtain ⟨o, ho⟩ := reportAll_eq z3 t r im n (cause1 == 0x48)
      refine h3.trans (SamePeers.trans ?_ (samePeers_endRun _ _))
      rw [ho]
      exact fun _ => rfl

theorem samePeers_checkDown (s : State) (t : Team) (id i : Nat) : SamePeers s (checkDown s t id i) := by
  unfold checkDown
  split
  · exact fun _ => rfl
  · extract_lets im n
    split
    · exact fun _ => rfl
    · split
      · exact samePeers_failNode _ _ _ _ _ _
      · exact fun _ => rfl

theorem samePeers_foldl {α : Type} {f : State → α → State} (h : ∀ s a, SamePeers s (f s a)) (l : List α) (s : State) :
    SamePeers s (l.foldl f s) :=
  List.foldlRecOn (motive := SamePeers s) l f (fun _ => rfl) fun z hz a _ => hz.trans (h z a)

theorem samePeers_overNodes {f : State → Nat → Nat → State} (h : ∀ s a i, SamePeers s (f s a i)) (s : State) :
    SamePeers s (overNodes s f) :=
  samePeers_foldl (fun _ _ => samePeers_foldl (fun _ _ => h _ _ _) _ _) _ _

/-- The team after a member has become unreachable. -/
def Team.without (t : Team) (s : State) (pkg : Nat) : Team := { t with peersDown := insertAt pkg s.now t.peersDown }

/-- What a lost member does to a node of a run: one of its team that needs it fails. -/
def checkOf (id : Nat) (t : Team) (s : State) (r i : Nat) : State :=
  match lookup r s.runs with
  | some x => if x.who.team = id then checkDown s t r i else s
  | none => s

theorem samePeers_checkOf (id : Nat) (t : Team) (s : State) (r i : Nat) : SamePeers s (checkOf id t s r i) := by
  unfold checkOf
  split
  · split
    · exact samePeers_checkDown _ _ _ _
    · exact fun _ => rfl
  · exact fun _ => rfl

theorem exec_peerUnreachable_noted {id pkg : Nat} {s : State} {t : Team} (ht : s.team? id = some t) (hp : pkg < t.nP)
    (hne : pkg ≠ t.pc) (hn : lookup pkg t.peersDown = none) : ∃ t' T, exec (.peerUnreachable id pkg) s = .next t' ∧
      t'.team? id = some T ∧ T.peersDown = insertAt pkg s.now t.peersDown := by
  have hb : (decide (pkg < t.nP) && pkg != t.pc && (lookup pkg t.peersDown).isNone) = true := by simp [hp, hne, hn]
  have hx : exec (.peerUnreachable id pkg) s =
      .next (overNodes (s.putTeam id (t.without s pkg)) (checkOf id (t.without s pkg))) := by
    show execPeerUnreachable id pkg s = _
    unfold execPeerUnreachable
    rw [ht]
    dsimp only
    rw [if_pos hb]
    rfl
  have hs := samePeers_overNodes (samePeers_checkOf id (t.without s pkg)) (s.putTeam id (t.without s pkg)) id
  rw [State.team?_putTeam_self, Option.map_some] at hs
  obtain ⟨T, hT, hd⟩ := Option.map_eq_some_iff.1 hs
  exact ⟨_, T, hx, hT, hd⟩

end Sys2Proof.Machine
end

section
/-! PROOF. The steps of Virga (R66, R195, R218, R221 to R223, R225, R235 to R237): loads, runs, the start of a COPY and the end of
a WAITX, and O54. -/

namespace Sys2Proof.Machine

/-! ### Loads (R218) -/

/-- An image that nothing has touched reads as its bytes stand. -/
theorem imageBytes_untouched {s : State} {t : Team} {x : Graph} (h : x.touched = []) (n : Nat) :
    imageBytes s t x n = (List.range n).map fun o => s.mem.byte (wordKey s t x.who.lrank x.addr o) := by
  simp [imageBytes, meets, h]

/-- A drawn count changes a team's record alone. -/
theorem State.drew_eq (s : State) (id n : Nat) : ∃ ts, s.drew id n = { s with teams := ts } := s.onTeam_eq id _

section GraphLoad

variable {g : Nat} {s : State} {x : Graph} {t : Team}

/-- A load whose image can be reached and passes its checks takes it in. -/
theorem exec_graphLoadComplete_loads (hg : lookup g s.graphs = some x) (ht : s.team? x.who.team = some t) (hst : x.st = .loading)
    (hw : wordReach s t x.who.lrank x.addr (max 64 (graphHead (imageBytes s t x 64)).len) = .now)
    (hc : checkAll s t [imageOpd s t x.addr (graphHead (imageBytes s t x 64)).len] = .ok ())
    (hlen : (graphHead (imageBytes s t x 64)).len ≤ 2 ^ 20) : ∃ ts, exec (.graphLoadComplete g) s =
      .next { loadGraph s t g x (imageBytes s t x (max 64 (graphHead (imageBytes s t x 64)).len)) with teams := ts } := by
  obtain ⟨ts, h⟩ := (loadGraph s t g x (imageBytes s t x (max 64 (graphHead (imageBytes s t x 64)).len))).drew_eq x.who.team
    (if x.touched.isEmpty then 0 else max 64 (graphHead (imageBytes s t x 64)).len)
  refine ⟨ts, ?_⟩
  show execGraphLoadComplete g s = _
  unfold execGraphLoadComplete
  rw [hg]
  dsimp only
  rw [ht]
  dsimp only
  rw [if_neg (not_not.2 hst), hw, hc]
  dsimp only
  rw [if_neg (Nat.not_lt.2 hlen), h]

theorem loadGraph_malformed {im : List Byte} {n : Nat} (hp : poisonedNode s (wordKey s t x.who.lrank x.addr) im = none)
    (ha : awOfs x.addr % 64 = 0) (hm : malformed im t.nP = some n) : loadGraph s t g x im = failLoad s g x 0x48 n := by
  unfold loadGraph
  rw [hp]
  dsimp only
  rw [if_neg (not_not.2 ha), hm]

theorem post_graphs (s : State) (w : Issuer) (desc amount : Word) : (post s w desc amount).2.graphs = s.graphs := by
  unfold post
  split
  · rfl
  · rfl

theorem post_mem (s : State) (w : Issuer) (desc amount : Word) : (post s w desc amount).2.mem = s.mem := by
  unfold post
  split
  · rfl
  · rfl

/-- An increment that is posted names its counter (R97). -/
theorem post_incs {s : State} {w : Issuer} {desc amount : Word} {n : Nat} (hn : s.fresh = n) (h : ctrNone desc = false) :
    lookup n (post s w desc amount).2.incs = some ⟨w, ctrVt desc, ctrOfs desc, amount, false⟩ := by
  unfold post
  rw [if_neg (Bool.eq_false_iff.1 h), ← hn]
  exact lookup_insertAt_self _ _ _

/-- An image that passes is taken in, and the increment of its counter is posted. -/
theorem loadGraph_passes {im : List Byte} (hp : poisonedNode s (wordKey s t x.who.lrank x.addr) im = none)
    (ha : awOfs x.addr % 64 = 0) (hm : malformed im t.nP = none) (hn : loadedNodes s + (graphHead im).nnodes ≤ 65536) :
    (loadGraph s t g x im).graphs = insertAt g { x with st := .loaded, image := im } s.graphs ∧
      (loadGraph s t g x im).mem = s.mem ∧ (ctrNone x.ctr = false →
        lookup s.fresh (loadGraph s t g x im).incs = some ⟨x.who, ctrVt x.ctr, ctrOfs x.ctr, x.amount, false⟩) := by
  have e : loadGraph s t g x im =
      (post { s with graphs := insertAt g { x with st := .loaded, image := im } s.graphs } x.who x.ctr x.amount).2 := by
    unfold loadGraph
    rw [hp]
    dsimp only
    rw [if_neg (not_not.2 ha), hm]
    exact if_neg (Nat.not_lt.2 hn)
  rw [e]
  exact ⟨post_graphs _ _ _ _, post_mem _ _ _ _, post_incs rfl⟩

/-- A load that fails says so with its cause and the node. -/
theorem lookup_failLoad (s : State) (g : Nat) (x : Graph) (cause n : Nat) :
    lookup g (failLoad s g x cause n).graphs = some { x with st := .failed, cause, node := n } := by
  unfold failLoad
  rw [State.graphs_of_virga (State.virga_engineFault _ _ _ _ _ _ _)]
  exact lookup_insertAt_self _ _ _

end GraphLoad

/-! ### Runs start (R221, R235) -/

section RunStart

variable {g run id : Nat} {s : State} {r : Run}

theorem exec_runStart_conflicted (ho : openRun s g run = some (id, r)) (hc : conflicted s id r = true) :
    exec (.runStart g run) s = .next s := by
  show execRunStart g run s = _
  unfold execRunStart
  rw [ho]
  exact if_pos (.inr hc)

theorem exec_runStart_waits (ho : openRun s g run = some (id, r)) (h : lookup id s.runs = some r) (hst : r.st = .waiting)
    (hc : conflicted s id r = false) (hr : noRoom s id r = true) : exec (.runStart g run) s =
      .next { s with runs := insertAt id { r with room := true, intlk := true } s.runs } := by
  show execRunStart g run s = _
  unfold execRunStart
  rw [ho]
  dsimp only
  rw [if_neg (by simp [hst, hc]), if_pos hr, onRun_eq h]

theorem exec_runStart_starts (ho : openRun s g run = some (id, r)) (h : lookup id s.runs = some r) (hst : r.st = .waiting)
    (hc : conflicted s id r = false) (hr : noRoom s id r = false) : exec (.runStart g run) s =
      .next { s with runs := insertAt id { r with
        st := .running, nodes := r.nodes.map fun n => if n.left = 0 then { n with st := .ready } else n } s.runs } := by
  show execRunStart g run s = _
  unfold execRunStart
  rw [ho]
  dsimp only
  rw [if_neg (by simp [hst, hc]), if_neg (by simp [hr]), onRun_eq h]

end RunStart

/-! ### A COPY starts (R66, R215, R221, R222) -/

section Blind

variable (s : State) (rs : Table Run) (t : Team) (r : Run) (i : Nat) (f : NodeRun → NodeRun) (n : GNode)

theorem whyNot_runs (lr : Nat) (m : Shape) (l : List (Nat × Nat)) :
    whyNot { s with runs := rs } t lr m l = whyNot s t lr m l := rfl

theorem operandKey_runs (lr : Nat) (m : Shape) :
    ({ s with runs := rs } : State).operandKey t lr m = s.operandKey t lr m := rfl

theorem bindKey_runs (lr : Nat) (b : Bind) : bindKey { s with runs := rs } t lr b = bindKey s t lr b := by
  unfold bindKey
  rw [operandKey_runs]

theorem partWhyNot_withNode (k : Option Nat) (d : Option (Nat × Nat × Nat)) :
    partWhyNot { s with runs := rs } t (r.withNode i f) n k d = partWhyNot s t r n k d := by
  cases d with
  | none => rfl
  | some d => exact congrArg (Option.map _) (whyNot_runs s rs t r.who.lrank (r.bind d.1).shape _)

theorem nodeWhyNot_withNode (im : List Byte) (a b : Option Nat) :
    nodeWhyNot { s with runs := rs } t (r.withNode i f) im n a b = nodeWhyNot s t r im n a b := by
  unfold nodeWhyNot
  rw [partWhyNot_withNode, partWhyNot_withNode]

theorem mustWait_runs (m : Shape) (l : List (Nat × Nat)) : mustWait { s with runs := rs } t m l = mustWait s t m l := rfl

theorem nodeWaits_withNode (k : Nat) (d : Option (Nat × Nat × Nat)) :
    nodeWaits { s with runs := rs } t (r.withNode i f) n k d = nodeWaits s t r n k d := by
  cases d with
  | none => rfl
  | some d => exact mustWait_runs s rs t (r.bind d.1).shape _

theorem readValues_withNode (b : Bind) (ofs size first count : Nat) :
    (readValues { s with runs := rs } t (r.withNode i f) b ofs size first count).1 =
      (readValues s t r b ofs size first count).1 := by
  unfold readValues
  dsimp only
  rw [operandKey_runs, bindKey_runs]
  rfl

end Blind

/-- Values that no poison touches are not poisoned. -/
theorem readValues_clean {s : State} (h : s.poison = []) (t : Team) (r : Run) (b : Bind) (ofs size first count : Nat) :
    (readValues s t r b ofs size first count).1.any (·.2) = false := by
  simp [readValues, h]

/-- Reading values draws free bytes at most. -/
theorem readValues_state (s : State) (t : Team) (r : Run) (b : Bind) (ofs size first count : Nat) :
    ∃ ts, (readValues s t r b ofs size first count).2 = { s with teams := ts } := by
  unfold readValues
  dsimp only
  split
  · exact ⟨_, rfl⟩
  · exact s.drew_eq _ _

section Copy

variable {s : State} {t : Team} {id i : Nat} {r : Run} {x : NodeRun}

/-- A node that has read nothing reads its first chunk where its handles pass and no link of it retrains. -/
theorem readChunk_first {d : Nat × Nat × Nat} (h : activeNode s id i = some (r, x)) (hp : s.poison = []) (hx : x.src = [])
    (hd : (nodeOf (runImage s r) i).source (runImage s r) = some d)
    (hwhy : nodeWhyNot s t r (runImage s r) (nodeOf (runImage s r) i) (some 0) none = none)
    (hwait : nodeWaits s t r (nodeOf (runImage s r) i) 0 (some d) = false) :
    ∃ ts, readChunk s t id i = onNode { s with teams := ts } id i fun x => { x with src := x.src ++
      (readValues s t r (r.bind d.1) d.2.1 (nodeOf (runImage s r) i).size 0
        (min (nodeOf (runImage s r) i).chunkValues d.2.2)).1 } := by
  have hclean := readValues_clean hp t r (r.bind d.1) d.2.1 (nodeOf (runImage s r) i).size 0
    (min (nodeOf (runImage s r) i).chunkValues d.2.2)
  obtain ⟨ts, hts⟩ := readValues_state s t r (r.bind d.1) d.2.1 (nodeOf (runImage s r) i).size 0
    (min (nodeOf (runImage s r) i).chunkValues d.2.2)
  unfold readChunk
  rw [h]
  dsimp only
  rw [hd]
  dsimp only
  rw [hx, List.length_nil, Nat.zero_div, hwhy, if_neg (by omega), Nat.sub_zero]
  dsimp only
  rw [hwait, if_neg Bool.false_ne_true, hts]
  generalize hxs : (readValues s t r (r.bind d.1) d.2.1 (nodeOf (runImage s r) i).size 0
    (min (nodeOf (runImage s r) i).chunkValues d.2.2)).1 = xs at hclean ⊢
  rw [notePoison, hclean, if_neg Bool.false_ne_true, countNode]
  obtain ⟨ts', h'⟩ := ({ s with teams := ts } : State).accountReplay_eq r.who.team (bytesIndex (r.bind d.1).space) 20
    ((nodeOf (runImage s r) i).size * xs.length)
    (({ s with teams := ts } : State).replayOf r.who.team r.who.lrank r.who.uid)
  rw [h']
  exact ⟨ts', rfl⟩

/-- A COPY owes its peers nothing. -/
theorem progress_copy (h : activeNode s id i = some (r, x)) (hop : (nodeOf (runImage s r) i).op = 7) :
    progress s t id i = s ∨ progress s t id i = onNode s id i fun x => { x with sent := true } := by
  unfold progress
  rw [h]
  dsimp only
  split
  · exact .inl rfl
  · have ho : owed (runImage s r) (nodeOf (runImage s r) i) x = none ∨
        owed (runImage s r) (nodeOf (runImage s r) i) x = some [] := by
      unfold owed
      dsimp only
      split
      · exact .inl rfl
      · rw [hop]
        exact .inr rfl
    rcases ho with ho | ho
    · rw [ho]
      exact .inl rfl
    · rw [ho]
      exact .inr rfl

/-- Nothing is taken where nothing came early. -/
theorem takeStaged_nothing (hs : s.staging = []) (hv : s.vreports = []) : takeStaged s t id i = s := by
  have e : ({ s with staging := [], vreports := [] } : State) = s := by
    cases s
    cases hs
    cases hv
    rfl
  unfold takeStaged
  rw [hs, hv]
  split
  · rfl
  · exact e

/-- A COPY needs no member. -/
theorem checkDown_copy (h : activeNode s id i = some (r, x)) (hop : (nodeOf (runImage s r) i).op = 7) :
    checkDown s t id i = s := by
  have hm : (nodeOf (runImage s r) i).members (runImage s r) = [] := by
    rw [GNode.members, GNode.grouped, hop]
    rfl
  unfold checkDown
  rw [h]
  dsimp only
  split
  · rfl
  · rw [downMember, hm]
    rfl

/-- After its chunk is read, a COPY has at most noted that it owes nothing. -/
theorem nodeMoves_copy {z : State} (hz : readChunk s t id i = z) (h : activeNode z id i = some (r, x))
    (hop : (nodeOf (runImage z r) i).op = 7) (hs : z.staging = []) (hv : z.vreports = []) {r₀ : Run} {n : GNode} {fresh : Bool}
    (hn : n.op = 7) : nodeMoves s t id i fresh r₀ n = z ∨
      nodeMoves s t id i fresh r₀ n = onNode z id i fun x => { x with sent := true } := by
  have hmv : nodeMoves s t id i fresh r₀ n = checkDown (takeStaged (progress z t id i) t id i) t id i := by
    unfold nodeMoves
    rw [hz, hn]
    cases fresh <;> rfl
  rw [hmv]
  rcases progress_copy (t := t) h hop with hp | hp
  · rw [hp, takeStaged_nothing hs hv, checkDown_copy h hop]
    exact .inl rfl
  · rw [hp]
    obtain ⟨hr, -, -, -⟩ := activeNode_iff.1 h
    refine .inr ?_
    rw [takeStaged_nothing, checkDown_copy (activeNode_onNode (f := fun x => { x with sent := true }) h rfl)]
    · rw [onNode_eq hr]
      exact hop
    · rw [onNode_eq hr]
      exact hs
    · rw [onNode_eq hr]
      exact hv

theorem GNode.source_copy {im : List Byte} {n : GNode} (h : n.op = 7) : n.source im = some (n.sslot, n.sofs, n.len) := by
  rw [GNode.source, h]
  rfl

theorem exec_virgaNodeStart_ready {g run : Nat} (ho : openRun s g run = some (id, r)) (ht : s.team? r.who.team = some t)
    (hx : r.nodes[i]? = some x) (hst : r.st = .running) (hready : x.st = .ready) (hc : r.cause = 0)
    (hheld : s.heldBack r.who.team r.who.tile = false)
    (hwhy : nodeWhyNot (onNode s id i fun x => { x with st := .active }) t r (runImage s r) (nodeOf (runImage s r) i) none none =
      none) : exec (.virgaNodeStart g run i) s = .next (nodeMoves (onNode s id i fun x => { x with st := .active }) t id i true r
        (nodeOf (runImage s r) i)) := by
  show execVirgaNodeStart g run i s = _
  unfold execVirgaNodeStart
  rw [ho]
  dsimp only
  rw [ht, hx]
  dsimp only
  rw [if_neg (by simp [hst, hheld]), if_neg (by simp [hready]), if_neg (by simp [hready, hc]), hwhy]

/-- The state after a ready node has become active. -/
def activated (s : State) (id i : Nat) (r : Run) : State :=
  { s with runs := insertAt id (r.withNode i fun x => { x with st := .active }) s.runs }

theorem activeNode_activated (hx : r.nodes[i]? = some x) (hst : r.st = .running) : activeNode (activated s id i r) id i =
    some (r.withNode i fun x => { x with st := .active }, { x with st := .active }) :=
  activeNode_iff.2 ⟨lookup_insertAt_self _ _ _, Run.withNode_node hx _, hst, rfl⟩

/-- A COPY that has become active reads the first chunk of its source. -/
theorem readChunk_activated {n : GNode} (hx : r.nodes[i]? = some x) (hst : r.st = .running) (hp : s.poison = [])
    (hn : nodeOf (runImage s r) i = n) (hop : n.op = 7) (hsrc : x.src = [])
    (hwhy : nodeWhyNot s t r (runImage s r) n (some 0) none = none)
    (hwait : nodeWaits s t r n 0 (some (n.sslot, n.sofs, n.len)) = false) :
    ∃ ts, readChunk (activated s id i r) t id i = onNode { activated s id i r with teams := ts } id i fun x =>
      { x with src := x.src ++ (readValues s t r (r.bind n.sslot) n.sofs n.size 0 (min n.chunkValues n.len)).1 } := by
  have hn' : nodeOf (runImage (activated s id i r) (r.withNode i fun x => { x with st := .active })) i = n := hn
  obtain ⟨ts, h⟩ := readChunk_first (t := t) (d := (n.sslot, n.sofs, n.len)) (activeNode_activated hx hst) hp hsrc
    (by rw [hn']; exact GNode.source_copy hop) (by rw [hn']; exact (nodeWhyNot_withNode s _ t r i _ n _ _ _).trans hwhy)
    (by rw [hn']; exact (nodeWaits_withNode s _ t r i _ n _ _).trans hwait)
  rw [hn'] at h
  refine ⟨ts, h.trans ?_⟩
  exact congrArg (fun xs => onNode _ id i fun x => { x with src := x.src ++ xs }) (readValues_withNode s _ t r i _ _ _ _ _ _)

/-- A COPY that starts is active and holds the first chunk of its source. -/
theorem exec_virgaNodeStart_copy {g run : Nat} (ho : openRun s g run = some (id, r)) (h : lookup id s.runs = some r)
    (ht : s.team? r.who.team = some t) (hx : r.nodes[i]? = some x) (hst : r.st = .running) (hready : x.st = .ready)
    (hc : r.cause = 0) (hheld : s.heldBack r.who.team r.who.tile = false) (hs : s.staging = []) (hv : s.vreports = [])
    (hp : s.poison = []) {n : GNode} (hn : nodeOf (runImage s r) i = n) (hop : n.op = 7) (hsrc : x.src = [])
    (hwhy : nodeWhyNot s t r (runImage s r) n none none = none)
    (hwhy' : nodeWhyNot s t r (runImage s r) n (some 0) none = none)
    (hwait : ∀ d, n.source (runImage s r) = some d → nodeWaits s t r n 0 (some d) = false) :
    ∃ t' r' y d, exec (.virgaNodeStart g run i) s = .next t' ∧ lookup id t'.runs = some r' ∧ r'.nodes[i]? = some y ∧
      n.source (runImage s r) = some d ∧ y.st = .active ∧
      y.src = (readValues s t r (r.bind d.1) d.2.1 n.size 0 (min n.chunkValues d.2.2)).1 ∧ t'.mem = s.mem := by
  have hd := GNode.source_copy (im := runImage s r) hop
  have hx1 := exec_virgaNodeStart_ready ho ht hx hst hready hc hheld (by
    rw [hn, onNode_eq h]
    exact (nodeWhyNot_withNode s _ t r i (fun x => { x with st := .active }) n _ _ _).trans hwhy)
  obtain ⟨ts, hz⟩ := readChunk_activated (id := id) hx hst hp hn hop hsrc hwhy' (hwait _ hd)
  generalize hxs : (readValues s t r (r.bind n.sslot) n.sofs n.size 0 (min n.chunkValues n.len)).1 = xs at hz
  have hact : activeNode { activated s id i r with teams := ts } id i =
    some (r.withNode i fun x => { x with st := .active }, { x with st := .active }) := activeNode_activated hx hst
  have hread := activeNode_onNode (f := fun x => { x with src := x.src ++ xs }) hact rfl
  have hz' := onNode_eq (activeNode_iff.1 hact).1 i fun x => { x with src := x.src ++ xs }
  have hmoves := nodeMoves_copy (r₀ := r) (fresh := true) hz hread (by rw [hz']; exact (congrArg GNode.op hn).trans hop)
    (by rw [hz']; exact hs) (by rw [hz']; exact hv) hop
  rw [onNode_eq h, hn] at hx1
  have hsrc' : x.src ++ xs = xs := by rw [hsrc, List.nil_append]
  rcases hmoves with hm | hm
  · obtain ⟨hr, hy, -, hst'⟩ := activeNode_iff.1 hread
    refine ⟨_, _, _, _, hx1.trans (congrArg Host.Outcome.next hm), hr, hy, hd, hst', hsrc'.trans hxs.symm, ?_⟩
    rw [hz']
    rfl
  · have hsent := activeNode_onNode (f := fun x => { x with sent := true }) hread rfl
    obtain ⟨hr, hy, -, hst'⟩ := activeNode_iff.1 hsent
    refine ⟨_, _, _, _, hx1.trans (congrArg Host.Outcome.next hm), hr, hy, hd, hst', hsrc'.trans hxs.symm, ?_⟩
    rw [onNode_eq (activeNode_iff.1 hread).1, hz']
    rfl

end Copy

/-! ### A node is done (R221, R222) -/

/-- A node after a predecessor of it is done. -/
def NodeRun.nearer (x : NodeRun) : NodeRun :=
  { x with left := x.left - 1, st := if x.left ≤ 1 ∧ x.st = .waiting then .ready else x.st }

theorem NodeRun.nearer_iterate_done {x : NodeRun} (h : x.st = .done) (k : Nat) : (NodeRun.nearer^[k] x).st = .done := by
  induction k with
  | zero => exact h
  | succ k ih =>
    rw [Function.iterate_succ_apply']
    exact (if_neg (by simp [ih])).trans ih

/-- The nodes of a run after nodes are nearer, once for each time that the list names them. -/
theorem getElem?_foldl_nearer (js : List Nat) (l : List NodeRun) (k : Nat) :
    (js.foldl (fun l j => modifyNth NodeRun.nearer j l) l)[k]? = (l[k]?).map NodeRun.nearer^[js.count k] := by
  induction js generalizing l with
  | nil => simp
  | cons j js ih =>
    rw [List.foldl_cons, ih, getElem?_modifyNth, List.count_cons]
    by_cases h : j = k
    · rw [if_pos h, if_pos (by simp [h]), Option.map_map, Function.iterate_succ]
    · rw [if_neg h, if_neg (by simpa using h), Nat.add_zero]

section NodeDone

variable {s : State} {t : Team} {id i : Nat} {r : Run} {x : NodeRun}

/-- The successors that a done node names come nearer, and nothing else of its run changes. -/
theorem lookup_foldl_nearer (h : lookup id s.runs = some r) (js : List Nat) :
    lookup id (js.foldl (fun s j => onNode s id j NodeRun.nearer) s).runs =
      some { r with nodes := js.foldl (fun l j => modifyNth NodeRun.nearer j l) r.nodes } := by
  induction js generalizing s r with
  | nil => exact h
  | cons j js ih => exact ih (lookup_onNode h j _)

/-- A run without a failure keeps its nodes' states and counts, be it that it ends. -/
theorem endRun_going (h : lookup id s.runs = some r) (hc : r.cause = 0) : ∃ r', lookup id (endRun s id).runs = some r' ∧
    ∀ (j : Nat) (y : NodeRun), r.nodes[j]? = some y →
      ∃ y' : NodeRun, r'.nodes[j]? = some y' ∧ y'.st = y.st ∧ y'.left = y.left := by
  unfold endRun
  split
  · next hn => exact absurd (hn.symm.trans h) (by simp)
  next r1 hr1 =>
  obtain rfl : r1 = r := Option.some.inj (hr1.symm.trans h)
  extract_lets desc tells z
  split
  · exact ⟨r1, h, fun j y hy => ⟨y, hy, rfl, rfl⟩⟩
  rw [if_neg (not_not.2 hc)]
  split
  · have hz : lookup id z.runs = some r1 := by
      rw [← h]
      refine congrArg (lookup id) ?_
      show State.runs (match s.team? r1.who.team with | some t => spoilRun s t r1 | none => s) = s.runs
      split
      · exact State.runs_of_virga (virga_spoilRun _ _ _)
      · rfl
    rw [State.runs_of_virga (virga_post _ _ _ _ _), lookup_onRun hz]
    exact ⟨_, rfl, fun j y hy => ⟨{ y with src := [], inbox := [] }, by simp [hy], rfl, rfl⟩⟩
  · exact ⟨r1, h, fun j y hy => ⟨y, hy, rfl, rfl⟩⟩

/-- A node that is done brings each successor that it names once nearer. -/
theorem nodeDone_spec (h : lookup id s.runs = some r) (hx : r.nodes[i]? = some x) (hc : r.cause = 0) :
    ∃ r' y, lookup id (nodeDone s id i).runs = some r' ∧ r'.nodes[i]? = some y ∧ y.st = .done ∧
      ∀ j z, j ≠ i → (nodeOf (runImage s r) i).succs.count j = 1 → r.nodes[j]? = some z →
        ∃ z', r'.nodes[j]? = some z' ∧ z'.left = z.left - 1 ∧ (z.left = 1 → z.st = .waiting → z'.st = .ready) := by
  have e : nodeDone s id i = endRun ((nodeOf (runImage s r) i).succs.foldl (fun s j => onNode s id j NodeRun.nearer)
      (onNode s id i fun x => { x with st := .done })) id := by
    unfold nodeDone
    rw [h]
    exact congrArg (endRun · id) (if_neg (not_not.2 hc))
  have hl := lookup_foldl_nearer (lookup_onNode h i fun x => { x with st := .done }) (nodeOf (runImage s r) i).succs
  obtain ⟨r', hr', hkeep⟩ := endRun_going hl hc
  have hi := Run.withNode_node hx fun x => { x with st := .done }
  obtain ⟨y, hy, hst, -⟩ := hkeep i _ ((getElem?_foldl_nearer _ _ _).trans (congrArg (Option.map _) hi))
  refine ⟨r', y, by rw [e]; exact hr', hy, hst.trans (NodeRun.nearer_iterate_done rfl _), fun j z hj hone hz => ?_⟩
  have hj' := (Run.withNode_node_of_ne hj fun x => { x with st := .done }).trans hz
  obtain ⟨z', hz', hzst, hleft⟩ := hkeep j _ ((getElem?_foldl_nearer _ _ _).trans (congrArg (Option.map _) hj'))
  rw [hone] at hzst hleft
  exact ⟨z', hz', hleft, fun h1 hw => hzst.trans (if_pos ⟨h1.le, hw⟩)⟩

theorem nodeLanded_of_none (ha : activeNode s id i = some (r, x)) (hinc : x.inc = none)
    (hl : ∀ l ∈ s.landings, l.2.of_ ≠ .run id i) : nodeLanded s id i = true := by
  have hno : (s.landings.any fun l => l.2.of_ == .run id i) = false := List.any_eq_false.2 fun l h => by simpa using hl l h
  unfold nodeLanded
  rw [hno, ha]
  dsimp only
  rw [hinc]
  rfl

theorem GNode.dest_waitx {im : List Byte} {n : GNode} (hop : n.op = 9) : n.dest im = none := by
  unfold dest
  rw [hop]
  rfl

theorem output_waitx {im : List Byte} {n : GNode} (hop : n.op = 9) : output im n x = some ([], 0) := by
  unfold output
  rw [hop]
  rfl

/-- A WAITX names no destination, so its counter alone can be lost. -/
theorem nodeLost_waitx {im : List Byte} {n : GNode} (hop : n.op = 9)
    (h : ctrNone (r.bind n.sslot).desc = true ∨ s.reachable r.who.team (ctrVt (r.bind n.sslot).desc) = true) :
    nodeLost s r im n x = false := by
  unfold nodeLost
  rw [GNode.dest_waitx hop, hop]
  rcases h with h | h
  · simp [h]
  · simp [h]

/-- A WAITX whose counter has come far enough is done, whether it has handed over its empty result yet or not. -/
theorem completeNode_waitx {n : GNode} (ha : activeNode s id i = some (r, x)) (hinc : x.inc = none)
    (hl : ∀ l ∈ s.landings, l.2.of_ ≠ .run id i) (hn : nodeOf (runImage s r) i = n) (hop : n.op = 9)
    (hholds : waitxHolds s t (r.bind n.sslot) n = true) (hheld : s.heldBack r.who.team r.who.tile = false)
    (hctr : ctrNone (r.bind n.sslot).desc = true ∨ s.reachable r.who.team (ctrVt (r.bind n.sslot).desc) = true) :
    completeNode s t id i r x = nodeDone s id i ∨ completeNode s t id i r x =
      nodeDone (onNode s id i fun x' => { x' with written := true, wrote := x.wrote + 1 }) id i := by
  have hdest := GNode.dest_waitx (im := runImage s r) hop
  have hout := output_waitx (im := runImage s r) (x := x) hop
  unfold completeNode
  dsimp only
  rw [hn, nodeLost_waitx hop hctr, if_neg Bool.false_ne_true, hholds, if_neg (by simp), hout]
  dsimp only
  split
  · have hwrite : writeOut s t r id i (runImage s r) n (x.wrote + 1) [] 0 =
        onNode s id i fun x' => { x' with written := true, wrote := x.wrote + 1 } := by
      unfold writeOut
      rw [hdest]
      rfl
    rw [hdest]
    dsimp only [Option.bind_none]
    rw [if_neg (by simp [hheld, nodeWaits]), if_neg (by simp), hwrite, if_pos]
    · exact .inr rfl
    · refine nodeLanded_of_none (activeNode_onNode (f := fun x' => { x' with written := true, wrote := x.wrote + 1 }) ha rfl)
        hinc ?_
      rw [onNode_eq (activeNode_iff.1 ha).1]
      exact hl
  · rw [if_pos (nodeLanded_of_none ha hinc hl)]
    exact .inl rfl

theorem exec_virgaNodeComplete_sent {g run : Nat} (ho : openRun s g run = some (id, r)) (ht : s.team? r.who.team = some t)
    (ha : activeNode s id i = some (r, x)) (hs : x.sent = true) :
    exec (.virgaNodeComplete g run i) s = .next (completeNode s t id i r x) := by
  show execVirgaNodeComplete g run i s = _
  unfold execVirgaNodeComplete
  rw [ho]
  dsimp only
  rw [ht]
  dsimp only
  rw [progress_sent ha hs, ha]
  exact congrArg Host.Outcome.next (if_pos hs)

/-- A WAITX that holds is done, and its successors come nearer. -/
theorem exec_virgaNodeComplete_waitx {g run : Nat} {n : GNode} (ho : openRun s g run = some (id, r))
    (ht : s.team? r.who.team = some t) (ha : activeNode s id i = some (r, x)) (hs : x.sent = true) (hinc : x.inc = none)
    (hc : r.cause = 0) (hl : ∀ l ∈ s.landings, l.2.of_ ≠ .run id i) (hn : nodeOf (runImage s r) i = n) (hop : n.op = 9)
    (hholds : waitxHolds s t (r.bind n.sslot) n = true) (hheld : s.heldBack r.who.team r.who.tile = false)
    (hctr : ctrNone (r.bind n.sslot).desc = true ∨ s.reachable r.who.team (ctrVt (r.bind n.sslot).desc) = true) :
    ∃ t' r' y, exec (.virgaNodeComplete g run i) s = .next t' ∧ lookup id t'.runs = some r' ∧ r'.nodes[i]? = some y ∧
      y.st = .done ∧ ∀ j z, j ≠ i → n.succs.count j = 1 → r.nodes[j]? = some z → ∃ z', r'.nodes[j]? = some z' ∧
        z'.left = z.left - 1 ∧ (z.left = 1 → z.st = .waiting → z'.st = .ready) := by
  have hx := exec_virgaNodeComplete_sent ho ht ha hs
  obtain ⟨hr, hi, -, -⟩ := activeNode_iff.1 ha
  rcases completeNode_waitx (t := t) ha hinc hl hn hop hholds hheld hctr with h | h
  · obtain ⟨r', y, hr', hy, hst, hnear⟩ := nodeDone_spec hr hi hc
    rw [hn] at hnear
    exact ⟨_, r', y, hx.trans (congrArg Host.Outcome.next h), hr', hy, hst, hnear⟩
  · obtain ⟨r', y, hr', hy, hst, hnear⟩ := nodeDone_spec
      (lookup_onNode hr i fun x' => { x' with written := true, wrote := x.wrote + 1 }) (Run.withNode_node hi _) hc
    have hn' : nodeOf (runImage (onNode s id i fun x' => { x' with written := true, wrote := x.wrote + 1 })
        (r.withNode i fun x' => { x' with written := true, wrote := x.wrote + 1 })) i = n := by
      rw [onNode_eq hr]
      exact hn
    rw [hn'] at hnear
    exact ⟨_, r', y, hx.trans (congrArg Host.Outcome.next h), hr', hy, hst, fun j z hj hone hz =>
      hnear j z hj hone ((Run.withNode_node_of_ne hj _).trans hz)⟩

end NodeDone

/-- Settles O54: loads and starts go through their tests in order; a node's step is followed through `onNode`, and a failure
through what reports of it leave of the runs. -/
theorem virgaSteps : Obligations.VirgaSteps := by
  unfold Obligations.VirgaSteps
  refine ⟨?_, ?_, ?_, ?_, ?_, ?_, ?_, ?_⟩
  case refine_1 =>
    intro g s x t hg ht hst key len im
    refine ⟨imageBytes_untouched, fun hw hc hlen hp ha => ?_⟩
    obtain ⟨ts, hx⟩ := exec_graphLoadComplete_loads hg ht hst hw hc hlen
    refine ⟨fun hm hn => ?_, fun n hm => ?_⟩
    · have h := loadGraph_passes (g := g) hp ha hm hn
      exact ⟨_, hx, h⟩
    · rw [loadGraph_malformed hp ha hm] at hx
      exact ⟨_, hx, lookup_failLoad _ _ _ _ _⟩
  case refine_2 =>
    intro g run id s r ho h hst
    exact ⟨exec_runStart_starts ho h hst, exec_runStart_waits ho h hst, exec_runStart_conflicted ho⟩
  case refine_3 =>
    intro g run i id s r x t ho h ht hx hst hready hc hheld hs hv hp im n hop hsrc hwhy hwhy' hwait
    exact exec_virgaNodeStart_copy ho h ht hx hst hready hc hheld hs hv hp rfl hop hsrc hwhy hwhy' hwait
  case refine_4 =>
    intro g run i id s r x t ho h ht hx hst hact hsent hinc hc hl im n hop hholds hheld hctr
    exact exec_virgaNodeComplete_waitx ho ht (activeNode_iff.2 ⟨h, hx, hst, hact⟩) hsent hinc hc hl rfl hop hholds hheld hctr
  case refine_5 =>
    intro quad c s h
    exact exec_virgaChunkReceive_held h
  case refine_6 =>
    intro quad c s h found
    refine ⟨exec_virgaChunkReceive_staged h, fun id i r x t hf ha ht => ?_⟩
    have hx := exec_virgaChunkReceive_delivered (quad := quad) h hf ha ht
    have ha' : activeNode (takenFrom s quad c) id i = some (r, x) := ha
    obtain ⟨hr, hn, -, -⟩ := activeNode_iff.1 ha'
    refine ⟨fun hs hc => ?_, fun hz hw hc => ?_, fun hw hc => ?_⟩
    · rw [deliver_matching ha' hs hc] at hx
      have hin := activeNode_onNode (f := fun x => { x with inbox := x.inbox ++ [c] }) ha' rfl
      obtain ⟨hr', hy, -, hst⟩ := activeNode_iff.1 hin
      exact ⟨_, _, _, hx, hr', hy, rfl, hst⟩
    · rw [deliver_mismatch ha' hw hc] at hx
      obtain ⟨r', y, h⟩ := failNode_first hr hn ht hz (cause := 0x48) (by decide) none (fun h => absurd h (by simp))
      exact ⟨_, r', y, hx, h⟩
    · obtain ⟨o, ho⟩ := reportAll_eq (takenFrom s quad c) t r (runImage s r) (nodeOf (runImage s r) i) true
      exact ⟨_, hx.trans (congrArg Host.Outcome.next ((deliver_late ha' hw hc).trans ho)), rfl, rfl, rfl⟩
  case refine_7 =>
    intro v s id i r x t hf ha ht hw hc
    exact ⟨exec_virgaMismatchReport_active hf ha ht hw hc, exec_virgaPeerFailure_active hf ha ht hw hc⟩
  case refine_8 =>
    intro id pkg s t
    exact exec_peerUnreachable_noted

end Sys2Proof.Machine
end

section
/-! PROOF. The steps of copies (R66, R78, R83, R97, R144, R147, R150): what moving a chunk leaves, what lands at a tile store, and
O42. -/

namespace Sys2Proof.Machine

/-! ### Chunks as landings (R78, R150) -/

/-- Runs hold all the elements that they were cut from, in order. -/
theorem flatMap_runsOf {α : Type} (n : Nat) (l : List (α × Bool)) : (runsOf n l).flatMap (·.1) = l.map (·.1) := by
  induction l with
  | nil => rfl
  | cons x r ih =>
    obtain ⟨x, p⟩ := x
    rw [List.map_cons, ← ih, runsOf]
    split
    · next xs q rest h =>
      rw [h]
      split
      · rfl
      · rfl
    · next h =>
      rw [h]
      rfl

/-- What the landings of a plain chunk carry is, in order, what its elements store. -/
theorem cells_chunkLandings {c : CopyOp} (hc : c.op = none) (home : Nat → Nat) (lo : Nat) (xs : List (Nat × Bool)) :
    ((chunkLandings c home lo xs).flatMap fun l => match l.what with
      | .bytes cs => cs
      | _ => []) = xs.zipIdx.flatMap fun x => elemCells c.dst (lo + x.2) x.1.1 := by
  have hruns := flatMap_runsOf (pieceElems (shFormat c.dst)) (xs.zipIdx.map fun x => ((lo + x.2, x.1.1), x.1.2))
  unfold chunkLandings
  dsimp only
  rw [List.flatMap_map]
  simp only [landWhat, hc]
  rw [← List.flatMap_assoc, hruns, List.map_map, List.flatMap_map]
  rfl

/-! ### What moving a chunk leaves where it was -/

/-- `z` is a state in which a chunk that moves from `s` has drawn values, told its issuer, and sent landings. -/
structure Moving (s z : State) : Prop where
  frame : ∃ ts st ls fr, z = { s with teams := ts, strands := st, landings := ls, fresh := fr }
  base : ∀ id lr, z.storeBase id lr = s.storeBase id lr

namespace Moving

variable {s z : State} (h : Moving s z) (t : Team)
include h

theorem entry (hnd : Nat) : z.entry t hnd = s.entry t hnd := by
  obtain ⟨_, _, _, _, e⟩ := h.frame
  rw [e]
  rfl

theorem vtile (id lr : Nat) : z.vtile? id lr = s.vtile? id lr := by
  obtain ⟨_, _, _, _, e⟩ := h.frame
  rw [e]
  rfl

theorem homeSite (key : Nat) : z.homeSite key = s.homeSite key := by
  obtain ⟨_, _, _, _, e⟩ := h.frame
  rw [e]
  rfl

theorem operandKey (lr : Nat) (m : Shape) : z.operandKey t lr m = s.operandKey t lr m := by
  unfold State.operandKey
  simp only [h.entry, h.vtile, h.base]

theorem overlapOfs (c : CopyOp) : overlapOfs z t c = Sys2Proof.Machine.overlapOfs s t c := by
  unfold Sys2Proof.Machine.overlapOfs mayOverlap
  simp only [h.entry, h.operandKey]

theorem copyHome (c : CopyOp) (quad : Nat) : copyHome z t c quad = Sys2Proof.Machine.copyHome s t c quad := by
  funext i
  unfold Sys2Proof.Machine.copyHome
  simp only [h.homeSite, h.operandKey]

end Moving

/-- Reading a source draws free values at most. -/
theorem moving_copySource (s : State) (t : Team) (c : CopyOp) (lo n : Nat) : ∃ ts,
    (copySource s t c lo n).2 = { s with teams := ts } ∧ Moving s (copySource s t c lo n).2 := by
  have hs : ∃ ts, s = { s with teams := ts } ∧ Moving s s := ⟨s.teams, rfl, ⟨_, _, _, _, rfl⟩, fun _ _ => rfl⟩
  unfold copySource
  split
  · exact hs
  · dsimp only
    split
    · exact hs
    · obtain ⟨ts, h⟩ := s.drew_eq c.who.team (8 * n)
      exact ⟨ts, h, ⟨ts, s.strands, s.landings, s.fresh, h⟩, storeBase_onTeam s _ fun _ _ => rfl⟩

/-- A summary in a slot changes its strand alone. -/
theorem deliverSummary_slot {s : State} {id lr uid p i : Nat} {k : Strand} (h : s.locate id lr uid = .slot p i k)
    (ctr bits : Word) (fails : Bool) : ∃ st, s.deliverSummary id lr uid ctr bits fails = { s with strands := st } := by
  unfold State.deliverSummary
  rw [h]
  split
  · exact ⟨_, rfl⟩
  · exact ⟨_, rfl⟩

theorem notePoison_strands {s : State} {w : Issuer} {xs : List (Nat × Bool)}
    (h : (∀ y ∈ xs, y.2 = false) ∨ ∃ p i k, s.locate w.team w.lrank w.uid = .slot p i k) :
    ∃ st, notePoison s w xs = { s with strands := st } := by
  rcases h with h | ⟨p, i, k, h⟩
  · rw [notePoison_clean h]
    exact ⟨_, rfl⟩
  · unfold notePoison
    split
    · exact deliverSummary_slot h _ _ _
    · exact ⟨_, rfl⟩

/-- Landings in flight after more of copy `id` are sent under the numbers from `n` on. -/
def sentFrom (id : Nat) : Nat → Table Landing → List Landing → Table Landing
  | _, L, [] => L
  | n, L, l :: r => sentFrom id (n + 1) (insertAt n { l with of_ := .copy id } L) r

theorem lookup_sentFrom_outside (id : Nat) {m : Nat} {ls : List Landing} {n : Nat} (h : m < n ∨ n + ls.length ≤ m)
    (L : Table Landing) : lookup m (sentFrom id n L ls) = lookup m L := by
  induction ls generalizing n L with
  | nil => rfl
  | cons l r ih =>
    rw [List.length_cons] at h
    exact (ih (by omega) _).trans (lookup_insertAt_of_ne (by omega) _ _)

theorem lookup_sentFrom (id : Nat) {i : Nat} {l : Landing} {ls : List Landing} (h : ls[i]? = some l) (n : Nat)
    (L : Table Landing) : lookup (n + i) (sentFrom id n L ls) = some { l with of_ := .copy id } := by
  induction ls generalizing n L i with
  | nil => cases h
  | cons x r ih =>
    cases i with
    | zero =>
      obtain rfl : x = l := Option.some.inj h
      exact (lookup_sentFrom_outside id (.inl (Nat.lt_succ_self n)) _).trans (lookup_insertAt_self _ _ _)
    | succ i =>
      rw [show n + (i + 1) = n + 1 + i by omega]
      exact ih h _ _

/-- The landings of a chunk whose operands lie apart are sent as they are, under the next numbers. -/
theorem launchLandings_apart {s : State} {t : Team} {c : CopyOp} (ho : (overlapOfs s t c).1 = []) (id : Nat) (ls : List Landing)
    {z : State} (h : Moving s z) : launchLandings z t id c ls =
      (ls.length, { z with landings := sentFrom id z.fresh z.landings ls, fresh := z.fresh + ls.length }) := by
  induction ls generalizing z with
  | nil => rfl
  | cons l r ih =>
    have hfree (l : Landing) : overlapFree z t c l = (l, z) := by
      unfold overlapFree
      rw [h.overlapOfs, ho]
    have hnext : Moving s { z with fresh := z.fresh + 1, landings := insertAt z.fresh { l with of_ := .copy id } z.landings } := by
      obtain ⟨ts, st, _, _, e⟩ := h.frame
      exact ⟨⟨ts, st, _, _, by rw [e]⟩, h.base⟩
    unfold launchLandings
    rw [hfree]
    dsimp only [State.number]
    rw [ih hnext, List.length_cons, show z.fresh + (r.length + 1) = z.fresh + 1 + r.length by omega]
    rfl

/-! ### A copy moves (R66, R83) -/

/-- A copy after a chunk of it has been sent as some landings. -/
def CopyOp.moved (c : CopyOp) (k : Nat) : CopyOp := { c with chunk := c.chunk + 1, pending := c.pending + k }

/-- Moving a chunk of operands that lie apart sends its landings and counts them. -/
theorem moveChunk_apart {s : State} {t : Team} {c : CopyOp} (ho : (overlapOfs s t c).1 = []) {lo n : Nat}
    (hlo : chunkElems (shFormat c.src) * c.chunk = lo) (hn : min (chunkElems (shFormat c.src)) (shCount c.src - lo) = n)
    (h : (∀ y ∈ (copySource s t c lo n).1, y.2 = false) ∨ ∃ p i k, s.locate c.who.team c.who.lrank c.who.uid = .slot p i k)
    {ls : List Landing} (hls : chunkLandings c (copyHome s t c 0) lo (copySource s t c lo n).1 = ls) (id : Nat) :
    ∃ ts st, moveChunk s t id c = { s with
      teams := ts, strands := st, landings := sentFrom id s.fresh s.landings ls, fresh := s.fresh + ls.length
      copies := insertAt id (c.moved ls.length) s.copies } := by
  obtain ⟨ts, hts, hz⟩ := moving_copySource s t c lo n
  have hloc : (copySource s t c lo n).2.locate c.who.team c.who.lrank c.who.uid =
      s.locate c.who.team c.who.lrank c.who.uid := by
    rw [hts]
    rfl
  obtain ⟨st, hst⟩ := notePoison_strands (s := (copySource s t c lo n).2) (w := c.who) (h.imp_right fun ⟨p, i, k, hk⟩ =>
    ⟨p, i, k, hloc.trans hk⟩)
  have hw : Moving s (notePoison (copySource s t c lo n).2 c.who (copySource s t c lo n).1) := by
    rw [hst]
    refine ⟨⟨ts, st, s.landings, s.fresh, by rw [hts]⟩, hz.base⟩
  refine ⟨ts, st, ?_⟩
  unfold moveChunk
  dsimp only
  rw [hlo, hn, hw.copyHome, hls, launchLandings_apart ho id ls hw, hst, hts]
  rfl

section CopyChunk

variable {s : State} {t : Team} {c : CopyOp} {id : Nat}

/-- A copy that no quiesce holds back. -/
def Free (s : State) (c : CopyOp) : Prop := s.heldBack c.who.team c.who.tile = false ∨
  (s.acrossFabric c.who.team c.who.tile c.src = false ∧ s.acrossFabric c.who.team c.who.tile c.dst = false)

theorem Free.guard (h : Free s c) : (s.heldBack c.who.team c.who.tile && (s.acrossFabric c.who.team c.who.tile c.src
    || s.acrossFabric c.who.team c.who.tile c.dst)) = false := by
  rcases h with h | ⟨h1, h2⟩
  · rw [h, Bool.false_and]
  · rw [h1, h2, Bool.or_self, Bool.and_false]

/-- A deferred copy that is free is accepted, or moves on to its home. -/
theorem exec_copyChunk_deferred (hc : lookup id s.copies = some c) (ht : s.team? c.who.team = some t) (hf : Free s c)
    (hs : c.step.isSome = true) : exec (.copyChunk id) s = .next (acceptCopy s t id c) := by
  show execCopyChunk id s = _
  unfold execCopyChunk
  rw [hc]
  dsimp only
  rw [ht]
  dsimp only
  rw [if_neg (Bool.eq_false_iff.1 hf.guard), if_pos hs]

/-- Any other copy whose operands can be reached moves its next chunk. -/
theorem exec_copyChunk_moves (hc : lookup id s.copies = some c) (ht : s.team? c.who.team = some t) (hf : Free s c)
    (hs : c.step = none) (h5 : shSpace c.src ≠ 5) {lo n : Nat} (hlo : chunkElems (shFormat c.src) * c.chunk = lo)
    (hn : min (chunkElems (shFormat c.src)) (shCount c.src - lo) = n) (hlt : lo < shCount c.src)
    (hsrc : whyNot s t c.who.lrank c.src (elemRanges c.src lo n) = none) (hdst : whyNot s t c.who.lrank c.dst [] = none)
    (hw : mustWait s t c.src (elemRanges c.src lo n) = false) :
    exec (.copyChunk id) s = .next (moveChunk s t id c) := by
  have hpos := chunkElems_pos (shFormat c.src)
  have hn0 : n ≠ 0 := by omega
  show execCopyChunk id s = _
  unfold execCopyChunk
  rw [hc]
  dsimp only
  rw [ht]
  dsimp only
  rw [if_neg (Bool.eq_false_iff.1 hf.guard), if_neg (by simp [hs]), hlo, hn, if_neg hn0, hsrc]
  dsimp only
  rw [hdst]
  dsimp only
  rw [if_neg h5, if_neg (Bool.eq_false_iff.1 hw)]

/-- A tile store is read as it stands, where nothing changed too early. -/
theorem copySource_store (h5 : shSpace c.src ≠ 5) (hs : isStore c.src = true) (hu : c.touched = []) (lo n : Nat) :
    (copySource s t c lo n).1 = readRange s (s.operandKey t c.who.lrank c.src) c.src lo n := by
  unfold copySource
  rw [if_neg (by simp [h5, hs]), hu]
  rfl

/-- Level memory is read as it stood at issue, where the copy is not deferred. -/
theorem copySource_level (hs : isStore c.src = false) (hd : c.step = none) (lo n : Nat) :
    (copySource s t c lo n).1 = (c.snap.drop lo).take n := by
  unfold copySource
  rw [if_pos (by simp [hs, hd])]

end CopyChunk

/-! ### What ends waits and copies leaves where it was -/

theorem recheckSlot_eq (id lr tile : Nat) (s : State) (slot : Nat) :
    ∃ ts st vs, recheckSlot id lr tile s slot = { s with teams := ts, strands := st, vtiles := vs } := by
  have hobs (k : Strand) (key ofs : Nat) : ∃ ts, (observed s k key ofs).2 = { s with teams := ts } := by
    unfold observed
    split
    · exact s.onTeam_eq _ _
    · exact ⟨_, rfl⟩
  have hends (k : Strand) (ofs : Nat) (d : SReg) (w : Word) (u : State) :
      ∃ vs, (waitEnds k ofs d w u).2 = { u with vtiles := vs } := by
    unfold waitEnds State.onRace
    dsimp only
    split
    · exact ⟨_, rfl⟩
    · exact ⟨_, rfl⟩
  unfold recheckSlot
  split
  · exact ⟨_, _, _, rfl⟩
  next k _ =>
  split
  · next o n f _ =>
    split
    · exact ⟨_, _, _, rfl⟩
    dsimp only
    split
    · obtain ⟨ts, h⟩ := hobs k (storeKey tile o) o
      obtain ⟨vs, h'⟩ := hends k o f.d (observed s k (storeKey tile o) o).1 (observed s k (storeKey tile o) o).2
      rw [h', h]
      exact ⟨_, _, _, rfl⟩
    · exact ⟨_, _, _, rfl⟩
  · exact ⟨_, _, _, rfl⟩

/-- A new look at waits changes teams, strands and vtiles alone. -/
theorem recheckWaits_eq (s : State) (id lr : Nat) :
    ∃ ts st vs, recheckWaits s id lr = { s with teams := ts, strands := st, vtiles := vs } := by
  have hslots (tile : Nat) (l : List Nat) (s : State) :
      ∃ ts st vs, l.foldl (recheckSlot id lr tile) s = { s with teams := ts, strands := st, vtiles := vs } := by
    induction l generalizing s with
    | nil => exact ⟨_, _, _, rfl⟩
    | cons i r ih =>
      obtain ⟨_, _, _, h⟩ := recheckSlot_eq id lr tile s i
      obtain ⟨_, _, _, h'⟩ := ih (recheckSlot id lr tile s i)
      rw [List.foldl_cons, h', h]
      exact ⟨_, _, _, rfl⟩
  cases hv : s.vtile? id lr with
  | none =>
    unfold recheckWaits
    rw [hv]
    exact ⟨_, _, _, rfl⟩
  | some v =>
    obtain ⟨ts, hu⟩ := (Readied.recheckSaves id lr v.saves s).rest
    rw [recheckWaits_some hv]
    dsimp only
    split
    · obtain ⟨_, _, _, h⟩ := hslots v.ptile (List.range 8) (v.saves.foldl (recheckSaved id lr) s)
      rw [h, hu]
      exact ⟨_, _, _, rfl⟩
    · rw [hu]
      exact ⟨_, _, _, rfl⟩

/-- A tile without an enabled watchpoint. -/
def UnwatchedAt (s : State) (x : Nat) : Prop := ∀ i : Fin 4, ((s.tile x).wp.get i).getLsbD 63 = false

/-- It notes no landing. -/
theorem landWatch_unwatched {s : State} {x : Nat} (h : UnwatchedAt s x) (lr sel : Nat) (rs : List (Nat × Nat)) :
    landWatch s x lr sel rs = s := by
  have hits : State.watchHits (s.tile x) sel rs = [] := by
    unfold State.watchHits
    rw [List.filterMap_eq_nil_iff]
    intro i hi
    have hi : i < 4 := List.mem_range.1 hi
    have hb : bit ((s.tile x).wp.toList.getD i 0).toNat 63 = false := by
      have hg : (s.tile x).wp.toList.getD i 0 = (s.tile x).wp.get ⟨i, hi⟩ := by
        rw [List.getD_eq_getElem?_getD, Vector.getElem?_toList, Vector.getElem?_eq_getElem hi]
        rfl
      rw [hg, ← h ⟨i, hi⟩, BitVec.getLsbD, Nat.testBit_eq_decide_div_mod_eq]
      rfl
    dsimp only
    rw [hb]
    rfl
  unfold landWatch
  rw [hits]

theorem UnwatchedAt.of_tiles {s z : State} {x : Nat} (h : UnwatchedAt s x) (e : z.tiles = s.tiles) : UnwatchedAt z x := by
  have ht : z.tile x = s.tile x := by
    unfold State.tile
    rw [e]
  unfold UnwatchedAt
  rw [ht]
  exact h

end Sys2Proof.Machine
end

section
/-! PROOF. What lands at a tile store (R78, R97, R144, R146, R147), and O42. -/

namespace Sys2Proof.Machine

/-! ### Increments (R97) -/

/-- What is noted of a change leaves tiles and increments. -/
theorem Noted.tiles {id lr : Nat} {s t : State} (h : Noted id lr s t) : t.tiles = s.tiles := by
  have e := congrArg State.tiles h.rest
  exact e
theorem Noted.incs {id lr : Nat} {s t : State} (h : Noted id lr s t) : t.incs = s.incs := by
  have e := congrArg State.incs h.rest
  exact e

/-- A landing without what it brings. -/
def Landing.bare (l : Landing) : Landing := { l with what := .bytes [] }

/-- A landing that is gone stays gone. -/
theorem Noted.lookup_landings {id lr n : Nat} {s t : State} (h : Noted id lr s t) (hn : lookup n s.landings = none) :
    lookup n t.landings = none := by
  have e : (lookup n t.landings).map Landing.bare = (lookup n s.landings).map Landing.bare :=
    (lookup_map n Landing.bare _).symm.trans ((congrArg (lookup n) h.landings).trans (lookup_map n Landing.bare _))
  rw [hn] at e
  exact Option.map_eq_none_iff.1 e

theorem incDone_eq (s : State) (n : Nat) : ∃ ds, incDone s n = { s with doneCopies := ds } := by
  unfold incDone
  split
  · exact ⟨_, rfl⟩
  · exact ⟨_, rfl⟩

/-- The state in which an increment has come through to its port, with what moving it has left. -/
def taken (z : State) (n : Nat) : State := incDone { z with incs := eraseAt n z.incs } n

theorem taken_eq (s : State) (n k : Nat) (path : List Nat) (cls flits : Nat) : ∃ cr hp ds,
    taken (s.cross k path cls flits).2 n = { s with credits := cr, hops := hp, incs := eraseAt n s.incs, doneCopies := ds } := by
  obtain ⟨cr, hp, h⟩ := s.cross_eq k path cls flits
  rw [h]
  obtain ⟨ds, h'⟩ := incDone_eq { s with credits := cr, hops := hp, incs := eraseAt n s.incs } n
  exact ⟨cr, hp, ds, h'⟩

section Increment

variable {s z : State} {n x : Nat} {i : Increment} {t : Team}

theorem exec_counterIncrement_arrived (hi : lookup n s.incs = some i) (ht : s.team? i.who.team = some t)
    (hp : s.portOf i.who.team i.vt = .tile x)
    (hc : (s.arrives n (tileSite i.who.tile) (.tile x) t i.vt (incClass s n) 1).1 = true) :
    exec (.counterIncrement n) s = .next (recheckWaits (incAt
      (taken (s.arrives n (tileSite i.who.tile) (.tile x) t i.vt (incClass s n) 1).2 n) i x) i.who.team i.vt) := by
  show execCounterIncrement n s = _
  unfold execCounterIncrement
  rw [hi]
  dsimp only
  rw [ht]
  dsimp only
  rw [hp]
  dsimp only
  rw [hc, if_neg (by simp)]
  rfl

/-- A sum that fits is stored at a tile without watchpoints, and no more. -/
theorem incAt_fits (hw : UnwatchedAt z x)
    (h : (z.touchStore i.who.team i.vt [(i.ofs, 8)]).mem.num (storeKey x i.ofs) 8 + i.amount.toNat < 2 ^ 64) :
    incAt z i x = (z.touchStore i.who.team i.vt [(i.ofs, 8)]).update (storeKey x i.ofs)
      (bytesOf 8 ((z.touchStore i.who.team i.vt [(i.ofs, 8)]).mem.num (storeKey x i.ofs) 8 + i.amount.toNat)) := by
  unfold incAt
  rw [addCounter_fits h]
  dsimp only
  refine landWatch_unwatched (hw.of_tiles ?_) _ _ _
  exact (Noted.touchStore z i.who.team i.vt [(i.ofs, 8)] none).tiles

/-- An increment that fits adds to its counter, and to no other byte. -/
theorem incAt_spec (hz : z.ok) (hw : UnwatchedAt z x)
    (h : (z.touchStore i.who.team i.vt [(i.ofs, 8)]).mem.num (storeKey x i.ofs) 8 + i.amount.toNat < 2 ^ 64) :
    (incAt z i x).incs = z.incs ∧
      (incAt z i x).mem.num (storeKey x i.ofs) 8 =
        (z.touchStore i.who.team i.vt [(i.ofs, 8)]).mem.num (storeKey x i.ofs) 8 + i.amount.toNat ∧
      ∀ a, a < storeKey x i.ofs ∨ storeKey x i.ofs + 8 ≤ a →
        (incAt z i x).mem.byte a = (z.touchStore i.who.team i.vt [(i.ofs, 8)]).mem.byte a := by
  have hok := State.touchStore_ok hz i.who.team i.vt [(i.ofs, 8)]
  rw [incAt_fits hw h]
  refine ⟨(Noted.touchStore z i.who.team i.vt [(i.ofs, 8)] none).incs, ?_, fun a ha => ?_⟩
  · rw [State.update_mem, Memory.num_put hok]
    exact Nat.mod_eq_of_lt h
  · rw [State.update_mem, Memory.byte_put_outside hok]
    rw [length_bytesOf]
    exact ha

end Increment

/-! ### Landings (R78, R144, R146, R147) -/

/-- Bytes under masks change memory alone. -/
theorem landBytes_eq (s : State) (key : Nat → Nat) (cs : List (Nat × Byte × Byte)) :
    landBytes s key cs = { s with mem := maskedMem (cs.map fun c => (key c.1, c.2)) s.mem } := by
  unfold landBytes
  induction cs generalizing s with
  | nil => rfl
  | cons c r ih => exact ih _

/-- Memory after elements are combined in place, in order. -/
def combinedMem (key : Nat → Nat) (op : ROp) (f : Fmt) (es : List (Nat × Nat)) (m : Memory) : Memory :=
  es.foldl (fun m e => m.put (key e.1) (bytesOf (f.bits / 8) (op.apply f (m.num (key e.1) (f.bits / 8)) e.2))) m

theorem landCombine_eq (s : State) (key : Nat → Nat) (op : ROp) (f : Fmt) (es : List (Nat × Nat)) :
    landCombine s key op f es = { s with mem := combinedMem key op f es s.mem } := by
  unfold landCombine
  induction es generalizing s with
  | nil => rfl
  | cons e r ih => exact ih _

theorem byte_combinedMem_outside {m : Memory} (hm : m.wf) {key : Nat → Nat} {op : ROp} {f : Fmt} {es : List (Nat × Nat)}
    {a : Nat} (h : ∀ e ∈ es, a < key e.1 ∨ key e.1 + f.bits / 8 ≤ a) : (combinedMem key op f es m).byte a = m.byte a := by
  induction es generalizing m with
  | nil => rfl
  | cons e r ih =>
    refine (ih (Memory.wf_put hm _ _) fun x hx => h x (List.mem_cons_of_mem _ hx)).trans (Memory.byte_put_outside hm ?_)
    rw [length_bytesOf]
    exact h e List.mem_cons_self

/-- Elements that lie apart are combined each with the value that it had. -/
theorem num_combinedMem {m : Memory} (hm : m.wf) {key : Nat → Nat} {op : ROp} {f : Fmt} {es : List (Nat × Nat)}
    (hp : es.Pairwise fun y z => key y.1 + f.bits / 8 ≤ key z.1 ∨ key z.1 + f.bits / 8 ≤ key y.1) {e : Nat × Nat}
    (he : e ∈ es) : (combinedMem key op f es m).num (key e.1) (f.bits / 8) =
      op.apply f (m.num (key e.1) (f.bits / 8)) e.2 % 2 ^ (8 * (f.bits / 8)) := by
  induction es generalizing m with
  | nil => cases he
  | cons x r ih =>
    obtain ⟨hx, hr⟩ := List.pairwise_cons.1 hp
    have hm' := Memory.wf_put hm (key x.1) (bytesOf (f.bits / 8) (op.apply f (m.num (key x.1) (f.bits / 8)) x.2))
    rcases List.mem_cons.1 he with rfl | her
    · have hkeep : ∀ a, key e.1 ≤ a → a < key e.1 + f.bits / 8 → (combinedMem key op f r _).byte a = _ := fun a h1 h2 =>
        byte_combinedMem_outside hm' (op := op) (f := f) (es := r) (a := a) fun y hy => by
          have := hx y hy
          omega
      refine (congrArg ofBytes (Memory.read_congr hkeep)).trans ((Memory.num_put hm _ _ _).trans ?_)
      rw [pow_mul]
      rfl
    · refine (ih hm' hr her).trans ?_
      rw [Memory.num_put_outside hm]
      rw [length_bytesOf]
      have := hx e her
      omega

/-- Marks after a landing: poison and what covers granules. -/
theorem coverGranule_eq (key : Nat → Nat) (l : Landing) (cs : List (Nat × Byte × Byte)) (s : State) (g : Nat) :
    ∃ p vs, coverGranule key l cs s g = { s with poison := p, vtiles := vs } := by
  unfold coverGranule
  dsimp only
  split
  · exact ⟨_, _, rfl⟩
  split
  · split
    · next v _ _ _ =>
      obtain ⟨p, h⟩ := State.clearPoison_eq (s.putVtile l.who.team l.vt { v with
        cover := v.cover.filter fun c => !(c.of_ == l.of_ && c.chunk == l.chunk && c.g == g) }) [granule (key (64 * g))]
      rw [h]
      exact ⟨_, _, rfl⟩
    · exact ⟨_, _, rfl⟩
  · exact ⟨_, _, rfl⟩

theorem coverGranules_eq (key : Nat → Nat) (l : Landing) (cs : List (Nat × Byte × Byte)) (gs : List Nat) (s : State) :
    ∃ p vs, gs.foldl (coverGranule key l cs) s = { s with poison := p, vtiles := vs } := by
  induction gs generalizing s with
  | nil => exact ⟨_, _, rfl⟩
  | cons g r ih =>
    obtain ⟨_, _, h⟩ := coverGranule_eq key l cs s g
    obtain ⟨_, _, h'⟩ := ih (coverGranule key l cs s g)
    rw [List.foldl_cons, h', h]
    exact ⟨_, _, rfl⟩

theorem landMarks_eq (s : State) (key : Nat → Nat) (l : Landing) (rs : List (Nat × Nat)) :
    ∃ p vs er, landMarks s key l rs = { s with poison := p, vtiles := vs, errc := er } := by
  unfold landMarks
  split
  · obtain ⟨vs, h, -⟩ := uncover_eq s (rs.flatMap fun r => granulesOf (key r.1) r.2)
    dsimp only
    rw [h]
    exact ⟨_, _, _, rfl⟩
  · split
    · split
      · exact ⟨_, _, _, rfl⟩
      · obtain ⟨p, vs, h⟩ := coverGranules_eq key l _ _ s
        exact ⟨p, vs, s.errc, h⟩
    · exact ⟨_, _, _, rfl⟩

theorem countLanding_eq (s : State) (l : Landing) : ∃ ts, countLanding s l = { s with teams := ts } := by
  unfold countLanding
  split
  · exact ⟨_, rfl⟩
  · exact s.accountReplay_eq _ _ _ _ _

theorem countChunks_eq (s : State) (id : Nat) : ∃ ts cs, countChunks s id = { s with teams := ts, copies := cs } := by
  unfold countChunks
  split
  · exact ⟨_, _, rfl⟩
  next c _ =>
  dsimp only
  split
  · exact ⟨_, _, rfl⟩
  · obtain ⟨ts, h⟩ := countCopy_eq { s with copies := insertAt id { c with counted := landedBytes s id c } s.copies } c
      (landedBytes s id c - c.counted)
    exact ⟨ts, _, h⟩

theorem endCopy_eq (s : State) (id : Nat) :
    ∃ cs ds fr is, endCopy s id = { s with copies := cs, doneCopies := ds, fresh := fr, incs := is } := by
  unfold endCopy
  split
  · exact ⟨_, _, _, _, rfl⟩
  next c _ =>
  split
  · obtain ⟨ds, fr, is, h, -⟩ := finishCopy_eq { s with copies := eraseAt id s.copies } id c
    exact ⟨_, ds, fr, is, h⟩
  · exact ⟨_, _, _, _, rfl⟩

/-- A landing that is done changes copies and what ends with them alone. -/
theorem landed_eq (s : State) (l : Landing) (n m : Nat) : ∃ ts cs ds fr is,
    landed s l n m = { s with teams := ts, copies := cs, doneCopies := ds, fresh := fr, incs := is } := by
  unfold landed
  split
  · next id _ =>
    split
    · next c _ =>
      obtain ⟨ts, cs, h⟩ := countChunks_eq { s with copies := insertAt id { c with pending := c.pending + m - n } s.copies } id
      obtain ⟨cs', ds, fr, is, h'⟩ := endCopy_eq (countChunks { s with
        copies := insertAt id { c with pending := c.pending + m - n } s.copies } id) id
      rw [h', h]
      exact ⟨_, _, _, _, _, rfl⟩
    · exact ⟨_, _, _, _, _, rfl⟩
  · exact ⟨_, _, _, _, _, rfl⟩

/-- What the touch of a landing leaves (R144). -/
theorem noted_landTouch (s : State) (l : Landing) : Noted l.who.team l.vt s (landTouch s l) := by
  unfold landTouch
  split
  · exact Noted.touchStore _ _ _ _ _
  · exact Noted.touchWork _ _ _ _ _

/-- The copy whose landing changes bytes. -/
def Landing.own (l : Landing) : Option Nat :=
  match l.of_ with
  | .copy id => some id
  | .run _ _ => none

/-- A landing's touch leaves every byte that it does not make undefined. -/
theorem landTouch_byte {s : State} (h : s.ok) {l : Landing} {a : Nat}
    (ha : ∀ k ∈ s.spoilt l.who.team l.vt (landRanges l).2 l.own, k.1 ≠ a) : (landTouch s l).mem.byte a = s.mem.byte a := by
  unfold Landing.own at ha
  unfold landTouch
  split
  · next id hid =>
    rw [hid] at ha
    exact State.touchStore_byte h ha
  · next hid =>
    rw [hid] at ha
    obtain ⟨u, hu, hm, -⟩ := State.touchWork_parts s l.who.team l.vt (landRanges l).2 none
    rw [hu, State.freeKeys_byte (State.ok_of_mem hm h) _ ha, hm]

section Land

variable {z : State} {x n : Nat} {l : Landing}

/-- What a landing without write-backs leaves of what it has applied. -/
theorem landAt_applied {w : State} (h : applyLanding (landTouch z l) (fun o => storeKey x o) l = ([], w))
    (hw : UnwatchedAt w x) :
    (landAt z l x).mem = w.mem ∧ (landAt z l x).landings = w.landings := by
  obtain ⟨ts, h1⟩ := countLanding_eq w l
  obtain ⟨_, _, _, _, _, h2⟩ := landed_eq (countLanding w l) l 1 0
  have h3 : landWatch (landed (countLanding w l) l 1 0) x l.vt (landRanges l).1 (landRanges l).2 =
      landed (countLanding w l) l 1 0 := by
    refine landWatch_unwatched (hw.of_tiles ?_) _ _ _
    rw [h2, h1]
  obtain ⟨_, _, _, h4⟩ := recheckWaits_eq (landed (countLanding w l) l 1 0) l.who.team l.vt
  have e : landAt z l x = recheckWaits (landed (countLanding w l) l 1 0) l.who.team l.vt := by
    unfold landAt
    rw [h]
    dsimp only [sendBack, List.length_nil]
    rw [h3]
  rw [e, h4, h2, h1]
  exact ⟨rfl, rfl⟩

/-- Plain bytes are stored under their masks. -/
theorem landAt_bytes {cs : List (Nat × Byte × Byte)} (hw : UnwatchedAt z x) (hl : l.what = .bytes cs) :
    (landAt z l x).mem = maskedMem (cs.map fun c => (storeKey x c.1, c.2)) (landTouch z l).mem ∧
      (landAt z l x).landings = (landTouch z l).landings := by
  obtain ⟨p, vs, er, hm⟩ := landMarks_eq (landBytes (landTouch z l) (fun o => storeKey x o) cs) (fun o => storeKey x o) l
    (cs.map fun c => (c.1, 1))
  have ha : applyLanding (landTouch z l) (fun o => storeKey x o) l = ([], { landTouch z l with
      mem := maskedMem (cs.map fun c => (storeKey x c.1, c.2)) (landTouch z l).mem, poison := p, vtiles := vs, errc := er }) := by
    unfold applyLanding
    rw [hl]
    dsimp only
    rw [hm, landBytes_eq]
  exact landAt_applied ha (hw.of_tiles (noted_landTouch z l).tiles)

/-- Elements are combined in place. -/
theorem landAt_combine {op : ROp} {f : Fmt} {es : List (Nat × Nat)} (hw : UnwatchedAt z x) (hl : l.what = .combine op f es) :
    (landAt z l x).mem = combinedMem (fun o => storeKey x o) op f es (landTouch z l).mem ∧
      (landAt z l x).landings = (landTouch z l).landings := by
  obtain ⟨p, vs, er, hm⟩ := landMarks_eq (landCombine (landTouch z l) (fun o => storeKey x o) op f es) (fun o => storeKey x o) l
    (es.map fun e => (e.1, f.bits / 8))
  have ha : applyLanding (landTouch z l) (fun o => storeKey x o) l = ([], { landTouch z l with
      mem := combinedMem (fun o => storeKey x o) op f es (landTouch z l).mem, poison := p, vtiles := vs, errc := er }) := by
    unfold applyLanding
    rw [hl]
    dsimp only
    rw [hm, landCombine_eq]
  exact landAt_applied ha (hw.of_tiles (noted_landTouch z l).tiles)

end Land

/-! ### The steps -/

theorem arrives_eq (s : State) (n home : Nat) (p : Port) (t : Team) (lr cls flits : Nat) :
    ∃ cr hp, (s.arrives n home p t lr cls flits).2 = { s with credits := cr, hops := hp } := s.cross_eq n _ _ _

/-- The state in which a landing has come through to its port, with what moving it has left. -/
def landingOut (s : State) (n x : Nat) (t : Team) (l : Landing) : State :=
  { (s.arrives n l.home (.tile x) t l.vt (if l.of_.isCopy then 1 else 2) (landFlits l)).2 with
    landings := eraseAt n (s.arrives n l.home (.tile x) t l.vt (if l.of_.isCopy then 1 else 2) (landFlits l)).2.landings }

theorem landingOut_eq (s : State) (n x : Nat) (t : Team) (l : Landing) :
    ∃ cr hp, landingOut s n x t l = { s with credits := cr, hops := hp, landings := eraseAt n s.landings } := by
  obtain ⟨cr, hp, h⟩ := arrives_eq s n l.home (.tile x) t l.vt (if l.of_.isCopy then 1 else 2) (landFlits l)
  unfold landingOut
  rw [h]
  exact ⟨cr, hp, rfl⟩

/-- Whether a landing stands queued at the port of the tile that another landing goes to. -/
def queuedWith (s : State) (l : Landing) (m : Nat) : Bool :=
  match s.vtile? l.who.team l.vt with
  | some v => (s.tile v.ptile).port.contains m
  | none => false

/-- The earliest landing of its work that has come through lands at the port of its tile. -/
theorem exec_landing_arrived {s : State} {n x : Nat} {l : Landing} {t : Team} (hl : lookup n s.landings = some l)
    (ht : s.team? l.who.team = some t) (hp : s.portOf l.who.team l.vt (splitLanding l).length = .tile x)
    (hfirst : ∀ m l', lookup m s.landings = some l' → m < n → l'.of_ ≠ l.of_) (hd : (s.landings.map (·.1)).Nodup)
    (hc : (s.arrives n l.home (.tile x) t l.vt (if l.of_.isCopy then 1 else 2) (landFlits l)).1 = true) :
    exec (.landing n) s = .next (landAt (landingOut s n x t l) l x) := by
  have hno : (!!s.landings.any fun y => y.1 < n && y.2.of_ == l.of_ && !queuedWith s l y.1) = false :=
    (Bool.not_not _).trans <| List.any_eq_false.2 fun y hy => by
      have h := hfirst y.1 y.2 (lookup_of_mem hd hy)
      simp only [Bool.and_eq_true, decide_eq_true_eq, beq_iff_eq]
      exact fun ⟨⟨h1, h2⟩, _⟩ => h h1 h2
  show execLanding n s = _
  unfold execLanding
  rw [hl]
  dsimp only
  rw [hp, ht]
  dsimp only
  refine (if_neg (Bool.eq_false_iff.1 hno)).trans (congrArg Host.Outcome.next ?_)
  exact if_neg (by simp [hc])

theorem storeKey_disjoint {x a b k : Nat} (h : State.overlap a k b k = false) :
    storeKey x a + k ≤ storeKey x b ∨ storeKey x b + k ≤ storeKey x a := by
  unfold State.overlap at h
  rw [storeKey_eq x a, storeKey_eq x b]
  simp only [Bool.and_eq_false_iff, decide_eq_false_iff_not] at h
  omega

/-- Settles O42: a chunk's landings are sent one after another (`launchLandings_apart`), and a landing or an increment changes
bytes through the touch of its store and through what it stores there. -/
theorem copySteps : Obligations.CopySteps := by
  unfold Obligations.CopySteps
  intro free unwatched
  refine ⟨?_, ?_, ?_, ?_⟩
  case refine_1 =>
    intro id s c t l k hc ht hf hs w y
    have hx := exec_copyChunk_deferred hc ht hf (by rw [hs]; rfl)
    refine ⟨fun ha => ?_, fun ha hy => ?_, fun ha hy => ?_⟩
    · rw [hx, acceptCopy, if_pos ha]
    · rw [hx, acceptCopy, if_neg (Bool.eq_false_iff.1 ha)]
      exact congrArg Host.Outcome.next (if_pos hy)
    · rw [hx, acceptCopy, if_neg (Bool.eq_false_iff.1 ha)]
      exact congrArg Host.Outcome.next (if_neg (Bool.eq_false_iff.1 hy))
  case refine_2 =>
    intro id s c t hc ht hf hs h5 lo n rs hlt hsrc hdst hw ho xs hpsn ls
    have hx := exec_copyChunk_moves hc ht hf hs h5 rfl rfl hlt hsrc hdst hw
    obtain ⟨ts, st, hmv⟩ := moveChunk_apart ho (lo := lo) (n := n) rfl rfl hpsn (ls := ls) rfl id
    refine ⟨fun hst hu => copySource_store h5 hst hu lo n, fun hst => copySource_level hst hs lo n,
      fun hop => cells_chunkLandings hop _ lo xs, ?_⟩
    rw [hmv] at hx
    exact ⟨_, c.moved ls.length, hx, lookup_insertAt_self _ _ _, rfl, rfl, rfl, rfl,
      fun i l h => lookup_sentFrom id h _ _, fun m h => lookup_sentFrom_outside id h _⟩
  case refine_3 =>
    intro n s l t x hl ht hp hfirst hd hok hw c hc out s₁ own
    have hx := exec_landing_arrived hl ht hp hfirst hd hc
    obtain ⟨cr, hh, he⟩ := landingOut_eq s n x t l
    have hout : (landingOut s n x t l).ok := State.ok_of_mem (by rw [he]) hok
    have hw' : UnwatchedAt (landingOut s n x t l) x := UnwatchedAt.of_tiles (s := s) hw (by rw [he])
    have hmem : (landingOut s n x t l).mem = s.mem := by rw [he]
    have hgone : lookup n (landTouch (landingOut s n x t l) l).landings = none :=
      (noted_landTouch _ l).lookup_landings (by rw [he]; exact lookup_eraseAt_self _ _)
    have hs₁ := landTouch_ok hout l
    refine ⟨fun a ha => (landTouch_byte hout ha).trans (congrArg (Memory.byte · a) hmem), fun cs hcs => ?_,
      fun op f es hcomb hpair => ?_⟩
    · obtain ⟨hm, hland⟩ := landAt_bytes hw' hcs
      refine ⟨_, hx, by rw [hland]; exact hgone, fun a => ?_⟩
      rw [hm, byte_maskedMem hs₁, maskedByte, List.foldl_map]
      rfl
    · obtain ⟨hm, hland⟩ := landAt_combine hw' hcomb
      refine ⟨_, hx, by rw [hland]; exact hgone, fun y hy => ?_, fun a ha => ?_⟩
      · rw [hm]
        exact num_combinedMem hs₁ (key := fun o => storeKey x o) (hpair.imp storeKey_disjoint) hy
      · rw [hm]
        exact byte_combinedMem_outside hs₁ (key := fun o => storeKey x o) ha
  case refine_4 =>
    intro n s i t x hi ht hp hw c hc out s₁ hfit hok
    have hx := exec_counterIncrement_arrived hi ht hp hc
    obtain ⟨cr, hh, ds, he⟩ := taken_eq s n n (sitePath (tileSite i.who.tile) (s.portSite (.tile x) t i.vt))
      (if Port.tile x = .log then 3 else incClass s n) 1
    have hmem : out.mem = s.mem := by have e := congrArg State.mem he; exact e
    have htiles : out.tiles = s.tiles := by have e := congrArg State.tiles he; exact e
    have hout : out.ok := State.ok_of_mem hmem hok
    obtain ⟨hincs, hnum, hbyte⟩ := incAt_spec (z := out) (i := i) hout
      (UnwatchedAt.of_tiles (s := s) hw htiles) hfit
    obtain ⟨_, _, _, hr⟩ := recheckWaits_eq (incAt out i x) i.who.team i.vt
    refine ⟨fun a ha => (State.touchStore_byte hout ha).trans (congrArg (Memory.byte · a) hmem),
      _, hx.trans (congrArg Host.Outcome.next hr), ?_, hnum, hbyte⟩
    refine (congrArg (lookup n) (hincs.trans (congrArg State.incs he))).trans ?_
    exact lookup_eraseAt_self _ _

end Sys2Proof.Machine
end
